-- ==== Sys2Proof/Word.lean ====
section
/-! DEFINITION. The byte, the converter code and the plain counter arithmetic (sections 5.2 and 12 of the spec). -/

namespace Sys2Proof

/-- One byte on the link or on the flash (R189). -/
abbrev Byte := BitVec 8

/-- One converter code, 0..4095 (R117). -/
abbrev Code := BitVec 12

/-- The largest value of an unsigned 32-bit counter. -/
abbrev max32 : Nat := 4294967295

/-- A counter that stays at `top` when further increments arrive (section 5.2, "saturates"). -/
def satAdd (top n k : Nat) : Nat := min top (n + k)

/-- A 32-bit counter that wraps from 4,294,967,295 to 0. -/
def wrap32 (n : Nat) : Nat := n % 4294967296

/-- "Clamped to lo..hi" (section 5.2). -/
def clamp (lo hi n : Nat) : Nat := max lo (min hi n)

end Sys2Proof
end

