-- ==== Sys2Proof/Syntax.lean ====
section
/-! DEFINITION. The commands: one constructor of `Instr` for each row of spec/opcode_table.json.
A row of the table is one step of the part, "whole and indivisible" (95_what_each_step_holds.md). The rows of control commands
and SAMPLE_FRAME carry no operand: they take the frame that stands at the head of the receive buffer, which FRAME_ARRIVAL put
there. The rows whose outcome the analog inputs or the flash array decide carry that outcome as their operands. -/

namespace Sys2Proof

/-- What the flash array answers to a page read. -/
inductive ReadOutcome where
  /-- The read succeeds and returns what the page holds. -/
  | stored
  /-- The read succeeds and returns these bytes, whatever was programmed (a page disturbed by shock or by power loss). -/
  | returned (data spare : List Byte)
  /-- The read itself fails (R59, FAILED). -/
  | failed
deriving DecidableEq, Repr

/-- The commands of the part, one for each row of the table, in the table's order. -/
inductive Instr where
  /-- POWER_ON (R174); the operand is the number of segments the flash array reports at power-on (R102). -/
  | powerOn (reportedSegments : Nat)
  /-- RST_LINE (R174). -/
  | rstLine
  /-- FRAME_ARRIVAL (R180); the operand is the frame's bytes between two line-idle gaps. -/
  | frameArrival (bytes : List Byte)
  /-- SAMPLE_FRAME (R12). -/
  | sampleFrame
  /-- UNKNOWN_OPCODE (R185). -/
  | unknownOpcode
  /-- STATUS (R188). -/
  | status
  /-- LINK_RESET (R187). -/
  | linkReset
  /-- NOTICE_MASK_SET (R184). -/
  | noticeMaskSet
  /-- NOTICE_MASK_CLEAR (R184). -/
  | noticeMaskClear
  /-- CLOCK_READ (R165). -/
  | clockRead
  /-- CLOCK_SET (R165). -/
  | clockSet
  /-- STREAM_LOAD (R3). -/
  | streamLoad
  /-- STREAM_START (R5). -/
  | streamStart
  /-- STREAM_PAUSE (R6). -/
  | streamPause
  /-- STREAM_STOP (R7). -/
  | streamStop
  /-- STREAM_CLEAR (R9). -/
  | streamClear
  /-- STREAM_READ (R10). -/
  | streamRead
  /-- SURVEY_OPEN (R88). -/
  | surveyOpen
  /-- SURVEY_CLOSE (R89). -/
  | surveyClose
  /-- SURVEY_THRESHOLDS (R91). -/
  | surveyThresholds
  /-- SURVEY_LOCK (R92). -/
  | surveyLock
  /-- SURVEY_ERASE (R93). -/
  | surveyErase
  /-- SURVEY_LIST (R94). -/
  | surveyList
  /-- READ_RECORDS (R104). -/
  | readRecords
  /-- DROPS_READ (R146). -/
  | dropsRead
  /-- GAUGE_READ (R162). -/
  | gaugeRead
  /-- SET_LEVELS (R86). -/
  | setLevels
  /-- SET_SHOCK (R130). -/
  | setShock
  /-- SET_GAUGE (R150). -/
  | setGauge
  /-- DOZE (R169). -/
  | doze
  /-- FORMAT (R102). -/
  | format
  /-- TICK_BOUNDARY (R164). -/
  | tickBoundary
  /-- SHOCK_TRIGGER (R120). -/
  | shockTrigger
  /-- GAUGE_TRIGGER (R120). -/
  | gaugeTrigger
  /-- RETIRE (R51). -/
  | retire
  /-- IDLE_TIMER_EXPIRY (R168). -/
  | idleTimerExpiry
  /-- REPORT_ALARM (R166). -/
  | reportAlarm
  /-- SHOCK_SCAN_END (R123); the codes of channels 0 to 3. -/
  | shockScanEnd (ax ay az vhold : Code)
  /-- GAUGE_SCAN_END (R124); the codes of channels 3 to 6, and of channel 7 at zero and at full, which are read only where the
  scan carries a self-check. -/
  | gaugeScanEnd (vhold vpack ipack tpack zeroRef fullRef : Code)
  /-- START_UP_SELF_CHECK_END (R125); the codes of channel 7 at zero and at full. -/
  | startUpSelfCheckEnd (zeroRef fullRef : Code)
  /-- DATA_PAGE_PROGRAM_END (R75). -/
  | dataPageProgramEnd (ok : Bool)
  /-- HEADER_PROGRAM_END (R65). -/
  | headerProgramEnd (ok : Bool)
  /-- SEGMENT_ERASE_END (R77). -/
  | segmentEraseEnd (ok : Bool)
  /-- FORMAT_ERASE_END (R102). -/
  | formatEraseEnd (ok : Bool)
  /-- INDEX_ENTRY_PROGRAM_END (R96). -/
  | indexEntryProgramEnd (ok : Bool)
  /-- INDEX_SEGMENT_ERASE_END (R99). -/
  | indexSegmentEraseEnd (ok : Bool)
  /-- SNAPSHOT_PROGRAM_END (R99). -/
  | snapshotProgramEnd (ok : Bool)
  /-- VERIFICATION_READ_END (R76). -/
  | verificationReadEnd (result : ReadOutcome)
  /-- READ_ENGINE_READ_END (R115). -/
  | readEngineReadEnd (result : ReadOutcome)
  /-- MOUNT_READ_END (R175). -/
  | mountReadEnd (result : ReadOutcome)
  /-- OPERATION_TIMEOUT (R74). -/
  | operationTimeout
  /-- WAKE_WAIT_END (R171). -/
  | wakeWaitEnd
  /-- FRAME_SENT (R183). -/
  | frameSent
  /-- BUFFER_GRANT (R47). -/
  | bufferGrant
  /-- STOP_COMPLETE (R8). -/
  | stopComplete
  /-- SURVEY_CLOSED_ENTRY_REQUEST (R90). -/
  | surveyClosedEntryRequest
  /-- DOZE_ENTRY_COMPLETE (R169). -/
  | dozeEntryComplete
  /-- SHUTDOWN_POWER_DOWN_REQUEST (R172). -/
  | shutdownPowerDownRequest
  /-- PWR_KEEP_RELEASE (R172). -/
  | pwrKeepRelease
deriving DecidableEq, Repr

end Sys2Proof
end

