-- ==== Sys2Proof/Decode.lean ====
section
/-! DEFINITION. The command a word of the table's bits spells. No row of spec/opcode_table.json gives bits ("fields": [] in
every row, and no "fixed"), so no word spells a command. The bytes of frames are read in Machine/Format.lean. -/

namespace Sys2Proof

/-- The command that the `nbits` bits `w` spell by the opcode table: none, since no row gives bits. -/
def decodeTableWord (_nbits _w : Nat) : Option Instr := none

end Sys2Proof
end

