-- ==== Sys2Proof/Config.lean ====
section
/-! DEFINITION. What the spec leaves open: free values, opaque constants with no body, so that nothing can be proved of them.
The two whose argument is a reply or a notice (`Config.openPayload`, `Config.openNotice`) stand in Machine/Format.lean. -/

namespace Sys2Proof.Config

/-- FREE VALUE (log entry 3). The bytes a flash page holds after a program of it failed, timed out or was cut by a reset,
or after an erase of its segment failed, timed out, was abandoned or was cut (R59, R72, R74, R80): the spec says only that
the page "normally reads as VOID" and may read ERASED. The number is the disturbance's own, from `State.freeCount`. -/
opaque disturbedByte (disturbance offset : Nat) : Byte

/-- FREE VALUE (log entry 4). The seconds and ticks bytes of an absent stamp: R189 gives only its clock-valid byte. -/
opaque absentStampByte (offset : Nat) : Byte

/-- FREE VALUE (log entry 5). The entry-sequence field of a snapshot page's 16-byte head: section 12.3 gives the field for
index and snapshot pages alike, and no rule says what a snapshot writes there. -/
opaque snapshotHeadSequence (indexGeneration : Nat) : Nat

/-- FREE VALUE (log entry 6). What a restored stream does by a code of its stored descriptor that names nothing (a rounding mode, a
width, a window mode): R189 says such fields "are not judged at read. They are returned as stored", and gives them no effect. -/
opaque unnamedCode (code : Nat) : Nat

/-- FREE VALUE (log entry 7). A byte of the stream descriptor that mount restores when the header page's second read does not
come back as a VALID header page (R177 states the restore only for a page that reads). -/
opaque unreadDescriptorByte (segment offset : Nat) : Byte

end Sys2Proof.Config
end

