-- ==== Sys2Proof/Machine/State.lean ====
section
/-! DEFINITION. The state of the part, block by block (section 3 of the spec), as plain data; the stop reasons; the reset state.
Numbers that the spec gives as counts with ranges are `Nat`; the operations keep them inside their ranges. Bytes on the link, in
page buffers and on the flash are `Byte`s. -/

namespace Sys2Proof.Machine

/-- The part names no condition in which it stops: every command has an effect in every state. No constructor. -/
inductive Fault where
deriving DecidableEq, Repr

/-- Why a command has no meaning. -/
inductive Refusal where
  /-- Raised by `exec` alone, for a row of the table that has no meaning yet. Safe: no next state is claimed. -/
  | notModelled (mnemonic : String)
deriving DecidableEq, Repr

/-! ### Time -/

/-- A stamp: seconds, ticks and clock-valid flag as they stand in the event that takes it (R164). `unnamed` is the clock-valid byte
of a stamp read from the flash that holds neither 0 nor 1, kept as stored (R189). -/
structure Stamp where
  seconds : Nat
  ticks : Nat
  valid : Bool
  unnamed : Option Nat := none
deriving DecidableEq, Repr

/-- The Survey Clock and its report alarm (R164, R165, R166). -/
structure Clock where
  prescaler : Nat
  ticks : Nat
  seconds : Nat
  valid : Bool
  nextReport : Option Nat
deriving DecidableEq, Repr

/-! ### Streams (Chapters 1 to 3) -/

/-- The five states of a stream slot (R1). -/
inductive StreamState where
  | empty | loaded | running | paused | stopped
deriving DecidableEq, Repr

/-- Why a stream is paused (section 1.1). -/
inductive PauseReason where
  | command | reserve | critical | mediaFull | restore
deriving DecidableEq, Repr

/-- The rounding modes (R26). -/
inductive Rounding where
  | floor | halfUp | halfEven
deriving DecidableEq, Repr

/-- The output widths (R28). -/
inductive Width where
  | w16 | w32
deriving DecidableEq, Repr

/-- The window modes (R29, R30). -/
inductive WindowMode where
  | off | mark | keepInside | keepOutside
deriving DecidableEq, Repr

/-- The three codes of a stream descriptor read from the flash in which one of them names nothing, kept as stored (R189; log entry 6). -/
structure StoredCodes where
  rounding : Nat
  width : Nat
  mode : Nat
deriving DecidableEq, Repr

/-- The kept-from-load fields of a slot, which are the fields of the stream descriptor (sections 1.1 and 12.3).
`sourcePort` is `none` for ANY, and a stored code of R189 that names no port stands there as it is. `stored` holds the codes of a
descriptor read from the flash of whose rounding, width and window codes one names nothing (R189; log entry 6). -/
structure Descriptor where
  survey : Nat
  index : Nat
  sourcePort : Option Nat
  tag : Nat
  mask : Nat
  ownerLevel : Nat
  decimation : Nat
  shift : Nat
  rounding : Rounding
  gain : Int
  recordLength : Nat
  offset : Int
  width : Width
  mode : WindowMode
  low : Int
  high : Int
  stored : Option StoredCodes := none
deriving DecidableEq, Repr

/-- Why a frame was lost at admission (R14, R16). -/
inductive LossReason where
  | pool | limit
deriving DecidableEq, Repr

/-- The reason a POWER marker carries (R34). -/
inductive PowerReason where
  | restore | critical
deriving DecidableEq, Repr

/-- The kinds of a drop (R142); `other` is the byte of a record read from the flash that names no kind, kept as stored (R189). -/
inductive DropKind where
  | impact | fall | fallImpact | fallCaught
  | other (code : Nat)
deriving DecidableEq, Repr

/-- A pending LOSS marker (R16, R39). -/
structure LossMarker where
  stamp : Stamp
  count : Nat
  reason : LossReason
deriving DecidableEq, Repr

/-- A pending GAP marker (R13, R39). -/
structure GapMarker where
  stamp : Stamp
  index : Nat
  count : Nat
deriving DecidableEq, Repr

/-- A pending DROP marker: the first drop's number, and the kind that drop held at the raising (R39, R143). -/
structure DropMarker where
  stamp : Stamp
  number : Nat
  kind : DropKind
deriving DecidableEq, Repr

/-- A pending PAUSE marker (R39). -/
structure PauseMarker where
  stamp : Stamp
  index : Nat
  reason : PauseReason
deriving DecidableEq, Repr

/-- A pending RESUME marker; `afterPower` says that a POWER marker was pending when it was raised (R40). -/
structure ResumeMarker where
  stamp : Stamp
  index : Nat
  afterPower : Bool
deriving DecidableEq, Repr

/-- A pending POWER marker (R39). -/
structure PowerMarker where
  stamp : Stamp
  index : Nat
  reason : PowerReason
deriving DecidableEq, Repr

/-- A pending STOP marker (R7). -/
structure StopMarker where
  stamp : Stamp
  index : Nat
deriving DecidableEq, Repr

/-- The pending markers of a slot, at most one of each kind (section 3.3). -/
structure Markers where
  loss : Option LossMarker := none
  gap : Option GapMarker := none
  drop : Option DropMarker := none
  pause : Option PauseMarker := none
  resume : Option ResumeMarker := none
  power : Option PowerMarker := none
  stop : Option StopMarker := none
deriving DecidableEq, Repr

/-- The DATA record being built (R37, R38). `values` and `marks` stand in sample order. -/
structure OpenRecord where
  sequence : Nat
  stamp : Stamp
  timeMark : Option (List Byte)
  firstIndex : Nat
  clipped : Bool
  values : List Int
  marks : List Nat
deriving DecidableEq, Repr

/-- The fill page of a stream: its buffer, and the first record sequence and record count of its records (R36). The records'
bytes stand in the buffer, less the open record. -/
structure FillPage where
  buffer : Nat
  firstSeq : Nat
  count : Nat
deriving DecidableEq, Repr

/-- The counters of a slot (R17). -/
structure SlotCounters where
  taken : Nat := 0
  stale : Nat := 0
  lostPool : Nat := 0
  lostLimit : Nat := 0
  lostPaused : Nat := 0
  samplesOut : Nat := 0
  samplesClipped : Nat := 0
  samplesGated : Nat := 0
  gapEvents : Nat := 0
deriving DecidableEq, Repr

/-- One slot of the Stream Table (section 1.1). `desc` holds the kept-from-load fields. -/
structure Slot where
  state : StreamState := .empty
  reason : Option PauseReason := none
  loading : Bool := false
  stopping : Bool := false
  desc : Option Descriptor := none
  expected : Option Nat := none
  acc : Int := 0
  fill : Nat := 0
  outputIndex : Nat := 0
  nextSeq : Nat := 0
  openRec : Option OpenRecord := none
  markers : Markers := {}
  page : Option FillPage := none
  counters : SlotCounters := {}
deriving DecidableEq, Repr

/-! ### Page Pool and Commit Queue (Chapter 3) -/

/-- The states of a page buffer (R46). -/
inductive BufferState where
  | free | filling | queued | index
deriving DecidableEq, Repr

/-- One page buffer and the bytes placed in it, from byte 0 (R44, R46). -/
structure Buffer where
  state : BufferState := .free
  bytes : List Byte := []
deriving DecidableEq, Repr

/-- An index write that waits for a buffer: the log's entry or its snapshot (R47). -/
inductive IndexWaiter where
  | entry | snapshot
deriving DecidableEq, Repr

/-- The Page Pool: 32 buffers, and the wait list's index writes and streams, oldest first (R46, R47). -/
structure Pool where
  buffers : List Buffer
  indexWaiters : List IndexWaiter
  streamWaiters : List Nat
deriving DecidableEq, Repr

/-- The states of a Commit Queue entry (R49). -/
inductive EntryState where
  | waiting | programming | held | suspect | verifying
deriving DecidableEq, Repr

/-- A Commit Queue entry (R49), with the trailer summary fixed at its page's close (R44). -/
structure Entry where
  buffer : Nat
  slot : Nat
  survey : Nat
  index : Nat
  firstSeq : Nat
  count : Nat
  used : Nat
  target : Option (Nat × Nat)
  state : EntryState
  rewrite : Bool
  failures : Nat
  retire : Nat
deriving DecidableEq, Repr

/-! ### Media Controller (Chapter 4) and the flash array -/

/-- The states of a segment (R61). -/
inductive SegState where
  | free | erasing | ready | taken | active | full | bad | index
deriving DecidableEq, Repr

/-- The fields of a segment that stands in a chain (R61, R63). -/
structure ChainInfo where
  survey : Nat
  index : Nat
  seq : Nat
  firstSeq : Nat
  next : Option Nat
  writePoint : Nat
  voids : Nat
deriving DecidableEq, Repr

/-- One entry of the Segment Table (R61). The fault mark is `voids > 0`, which the spec makes its meaning. -/
structure Segment where
  state : SegState
  chain : Option ChainInfo
  headerFailed : Bool
deriving DecidableEq, Repr

/-- Where a take stands (R64, R65): waiting on the erase-ahead erase in flight, to be made again when the park flag is lowered,
its segment's erase requested or in flight, or its header program requested or in flight. -/
inductive TakePhase where
  | onAhead
  | remake
  | erase (segment : Nat)
  | header (segment : Nat)
deriving DecidableEq, Repr

/-- A take in progress (R64). `load` says that it is made for a STREAM-LOAD; `headerFails` counts its failed header programs. -/
structure Take where
  load : Bool
  slot : Nat
  survey : Nat
  index : Nat
  firstSeq : Nat
  phase : TakePhase
  headerFails : Nat
deriving DecidableEq, Repr

/-- The one media operation in flight (R70), with the target of each. -/
inductive MediaOp where
  | dataProgram (buffer segment page : Nat)
  | headerProgram (segment : Nat)
  | takeErase (segment : Nat)
  | aheadErase (segment : Nat)
  | formatErase (segment : Nat)
  | indexErase (segment : Nat)
  | indexProgram (segment page : Nat)
  | snapshotProgram (segment : Nat)
  | verifyRead (buffer segment page : Nat)
  | engineRead (segment page : Nat) (discard : Bool)
  | mountRead (segment page : Nat)
deriving DecidableEq, Repr

/-- The bytes of a page: 4096 data bytes and the 64-byte spare area (R57). -/
structure PageImage where
  data : List Byte
  spare : List Byte
deriving DecidableEq, Repr

/-- What a written page of the flash array holds: what was programmed, or, after a disturbance, bytes the spec leaves open. -/
inductive FlashCell where
  | page (image : PageImage)
  | disturbed (disturbance : Nat)
deriving DecidableEq, Repr

/-- The Media Controller (section 4), with the page image on the Media Port while a program runs (R58), and the flash array
behind it: the written pages, by segment * 256 + page in rising order; a page not listed reads as all ones (R57). -/
structure Media where
  op : Option MediaOp
  image : Option PageImage
  hold : Bool
  fairness : Nat
  segs : List Segment
  ready : List Nat
  free : List Nat
  takes : List Take
  segWaiters : List Nat
  mediaFull : Bool
  generation : Nat
  reportedSegments : Nat
  flash : List (Nat × FlashCell)
deriving DecidableEq, Repr

/-! ### Surveys and levels (Chapter 5) -/

/-- The states of a survey (R82); `other` is the byte of a survey record read from the flash that names no state, kept as stored
(R189). -/
inductive SurveyState where
  | open | closing | closed | locked
  | other (code : Nat)
deriving DecidableEq, Repr

/-- One entry of the Survey Table (R81). `heads` and `tails` hold, by stream index 0..7, the chain head and tail. A stream index
counts as used (R3, R4) exactly when it has a head. -/
structure Survey where
  number : Nat
  confirmed : Bool
  name : List Byte
  state : SurveyState
  creator : Nat
  readThreshold : Nat
  eraseThreshold : Nat
  created : Stamp
  closed : Option Stamp
  streamCount : Nat
  heads : List (Option Nat)
  tails : List (Option Nat)
  dropCount : Nat
  lastDrop : Nat
  hadPowerLoss : Bool
  hadSuspect : Bool
  hadVoid : Bool
deriving DecidableEq, Repr

/-- The Survey Table and the Port Level Table (R81, R85). -/
structure SurveyTable where
  surveys : List Survey
  nextNumber : Nat
  stored : List Nat
  present : List Nat
deriving DecidableEq, Repr

/-! ### Settings (R130, R150) -/

/-- The ten shock settings (R130). -/
structure ShockSettings where
  zeroX : Nat := 2048
  zeroY : Nat := 2048
  zeroZ : Nat := 2048
  ffWindow : Nat := 120
  ffTime : Nat := 64
  impactLevel : Nat := 1640
  quietDelta : Nat := 24
  settleTime : Nat := 512
  catchTime : Nat := 256
  countsPerG : Nat := 410
deriving DecidableEq, Repr

/-- The gauge settings (R150); the pack-present minimum is fixed at 2,000 mV. -/
structure GaugeSettings where
  capacity : Nat := 34000
  cutOff : Nat := 6000
  packPresent : Nat := 2000
  holdUpMin : Nat := 5000
  holdUpStep : Nat := 150
  reportInterval : Nat := 60
  idleToDoze : Nat := 300
deriving DecidableEq, Repr

/-! ### Drops (Chapter 8) -/

/-- The power states (section 10.2). -/
inductive PowerState where
  | active | doze | off
deriving DecidableEq, Repr

/-- The power state at detection in a drop record (R142; in OFF log entry 22); `other` is the byte of a record read from the flash
that names none, kept as stored (R189). -/
inductive DetectionState where
  | active | doze | off
  | other (code : Nat)
deriving DecidableEq, Repr

/-- The six page counts of a drop record, in the order of R140. -/
structure PageCounts where
  suspect : Nat := 0
  carried : Nat := 0
  confirmed : Nat := 0
  bad : Nat := 0
  requeued : Nat := 0
  unresolved : Nat := 0
deriving DecidableEq, Repr

/-- A drop record, in progress or finished (R142). `ordinal` is 0 for a numbered drop; for a drop declared before mount has
loaded the drop total it is its place in the order of declaration, from 1 (R147). -/
structure DropRecord where
  number : Nat
  ordinal : Nat
  kind : DropKind
  start : Stamp
  fallTime : Nat
  height : Nat
  peak : Nat
  peakTenths : Nat
  rail : Bool
  pages : PageCounts
  packLost : Bool
  lowestHoldUp : Nat
  power : DetectionState
  surveys : List Nat
deriving DecidableEq, Repr

/-- The states of the Drop Monitor (R131). -/
inductive MonitorState where
  | watch | fallWait | falling | impact | settling | verify
deriving DecidableEq, Repr

/-- The Drop Monitor (R131). `loaded` says that mount has loaded the Drop List and drop total; `unnumbered` holds the records
finished before that, oldest first, and `ordinals` how many drops were declared before it (R147). -/
structure Monitor where
  state : MonitorState
  park : Bool
  drop : Option DropRecord
  fallStart : Stamp
  fallClock : Nat
  catchMark : Option Nat
  settle : Nat
  previous : Option (Int × Int × Int)
  watchCount : Nat
  total : Nat
  drops : List DropRecord
  shock : ShockSettings
  loaded : Bool
  unnumbered : List DropRecord
  ordinals : Nat
deriving DecidableEq, Repr

/-! ### Index Log (section 5.4) -/

/-- The fields of a survey that the log makes durable, as one survey record carries them (section 12.3). -/
structure SurveyRecord where
  number : Nat
  state : SurveyState
  creator : Nat
  readThreshold : Nat
  eraseThreshold : Nat
  hadPowerLoss : Bool
  hadSuspect : Bool
  hadVoid : Bool
  name : List Byte
  created : Stamp
  closed : Option Stamp
  dropCount : Nat
  lastDrop : Nat
deriving DecidableEq, Repr

/-- The eight kinds of index entry and their contents (R95). -/
inductive EntryBody where
  | surveyOpened (r : SurveyRecord)
  | surveyClosed (r : SurveyRecord)
  | thresholdsSet (survey read erase : Nat)
  | surveyLocked (survey : Nat)
  | surveyErased (survey : Nat)
  | ports (levels : List Nat)
  | shock (values : ShockSettings)
  | gauge (values : GaugeSettings)
  | drop (r : DropRecord)
  | powerDown
deriving DecidableEq, Repr

/-- An entry of the log's pending list (R96): its request stamp, the sequence it took at its first attempt, the buffer it holds,
how many of its programs failed, and whether a program of it has been issued. -/
structure IndexEntry where
  body : EntryBody
  stamp : Stamp
  seq : Option Nat
  buffer : Option Nat
  failures : Nat
  issued : Bool
deriving DecidableEq, Repr

/-- What the log does with the entry at the head of its list (R96): nothing yet, waiting for a buffer, its program requested,
or its program in flight. -/
inductive LogStage where
  | idle | waitBuffer | request | inFlight
deriving DecidableEq, Repr

/-- A rollover in progress (R99): the candidate's erase requested or in flight, the snapshot waiting for its buffer, or the
snapshot's program requested or in flight. -/
inductive Rollover where
  | none
  | erase (candidate : Nat)
  | waitBuffer (candidate : Nat)
  | program (candidate buffer : Nat)
deriving DecidableEq, Repr

/-- The Index Log (R96 to R101). `current` is absent until mount or FORMAT sets the current segment. -/
structure IndexLog where
  current : Option Nat
  writePoint : Nat
  generation : Nat
  nextSeq : Nat
  waiting : List IndexEntry
  stage : LogStage
  rollover : Rollover
  forceRollover : Bool
  unusable : List Nat
  failed : Bool
  clean : Bool
deriving DecidableEq, Repr

/-- A FORMAT in flight (R102): waiting for the media operation and then the index entry in flight, erasing segment `next`, or
making its rollover. -/
inductive FormatStage where
  | waiting
  | erasing (next : Nat)
  | rollover
deriving DecidableEq, Repr

/-- The FORMAT in flight, with N: as requested until its erases begin, as taken from then on (R102). -/
structure FormatRun where
  stage : FormatStage
  n : Nat
deriving DecidableEq, Repr

/-! ### Read Engine (Chapter 6) -/

/-- A page whose standing is being decided (R111): its place, as the index into the walk path and the page, its first record
sequence and its record count; the page itself stands in the held store (R105). -/
structure HeldPage where
  at_ : Nat
  page : Nat
  firstSeq : Nat
  count : Nat
deriving DecidableEq, Repr

/-- Where the read stands (R105, R109 to R111). Positions are indices into the walk path. In a search, `probe` is the probed
page and `reading` the page read in its place. -/
inductive EnginePhase where
  | search (at_ low high : Nat) (candidate : Option Nat) (probe reading : Nat)
  | scan (at_ page : Nat)
  | decide (held : HeldPage) (at_ page : Nat)
deriving DecidableEq, Repr

/-- One record entry of the reply: its two flags and the record as stored (R112). -/
structure RecordEntry where
  voidNearby : Bool
  breakBefore : Bool
  bytes : List Byte
deriving DecidableEq, Repr

/-- The ACTIVE read context (R105). `lastSeq` is the sequence of the last record copied. -/
structure ReadContext where
  survey : Nat
  index : Nat
  requested : Nat
  maximum : Nat
  hintUsed : Bool
  path : List Nat
  links : Nat
  phase : EnginePhase
  wanted : Nat
  lastSeq : Option Nat
  entries : List RecordEntry
  request : Option (Nat × Nat)
deriving DecidableEq, Repr

/-- The Read Engine's two page stores of 4160 bytes (R105): the page read last, and the held page; absent when cleared (R116). -/
structure PageStores where
  read : Option PageImage := none
  held : Option PageImage := none
deriving DecidableEq, Repr

/-! ### Sense Sampler (Chapter 7) -/

/-- The scan that runs (R119); a gauge scan carries its interval (R124) and whether it carries a self-check (R125). -/
inductive Scan where
  | shock
  | gauge (interval : Nat) (selfCheck : Bool)
  | startUp
deriving DecidableEq, Repr

/-- The Sense Sampler (R117 to R128). `latest` holds channels 0 to 6; `shockDue` says that the last tick boundary triggers a
shock scan that SHOCK_TRIGGER has not yet handled. -/
structure Sampler where
  powered : Bool
  running : Option Scan
  pendingShock : Bool
  pendingGauge : Option Nat
  divider : Nat
  countdown : Nat
  interval : Nat
  selfCheckCounter : Nat
  fault : Bool
  latest : List (Option Nat)
  zeroRef : Option Nat
  fullRef : Option Nat
  overruns : Nat
  checks : Nat
  fails : Nat
  shockDue : Bool
deriving DecidableEq, Repr

/-! ### Battery Gauge (Chapter 9) -/

/-- The battery levels (R149). -/
inductive BatteryLevel where
  | normal | low | reserve | critical
deriving DecidableEq, Repr

/-- SOC, derating factor and usable full charge as last formed (R156); SOC is absent after an empty correction (R160). -/
structure Judgement where
  soc : Option Nat
  factor : Nat
  usable : Nat
deriving DecidableEq, Repr

/-- The Battery Gauge (R149). Readings are in their units. -/
structure Gauge where
  remaining : Nat
  acc : Int
  level : BatteryLevel
  estimatePending : Bool
  estimate : Bool
  packLost : Bool
  lowRun : Nat
  recoveryRun : Nat
  holdUpPages : Nat
  limit : Nat
  vhold : Option Nat
  vpack : Option Nat
  ipack : Option Int
  tpack : Option Int
  judged : Option Judgement
  settings : GaugeSettings
deriving DecidableEq, Repr

/-! ### Power Control and mount (Chapter 10) -/

/-- What began a DOZE entry (R169). -/
inductive DozeCause where
  | command | idle
deriving DecidableEq, Repr

/-- Where a shutdown stands (R172): its four conditions, its POWER-DOWN entry, the Transmit List entries placed before that
entry's end, and the hold with the operation in flight. -/
inductive ShutdownStage where
  | conditions
  | entry
  | drain (left : Nat)
  | holding
deriving DecidableEq, Repr

/-- The procedure in progress (R168). -/
inductive Procedure where
  | none
  | dozeEntry (cause : DozeCause)
  | wakeWait
  | shutdown (stage : ShutdownStage)
deriving DecidableEq, Repr

/-- The mount phase that is reported (R168). -/
inductive MountPhase where
  | index | segments | writePoints | ready
deriving DecidableEq, Repr

/-- Power Control (R168). `shutdownAsked` says that a shutdown waits for the wake to end (R172); `idleDue` and `alarmDue` say
that the last tick boundary expired the idle timer, or reached the next report time, and that IDLE_TIMER_EXPIRY or REPORT_ALARM
has not yet handled it. -/
structure Power where
  state : PowerState
  procedure : Procedure
  shutdownAsked : Bool
  idleTimer : Nat
  phase : MountPhase
  unformatted : Bool
  pwrKeep : Bool
  idleDue : Bool
  alarmDue : Bool
deriving DecidableEq, Repr

/-- The newest snapshot candidate met so far (R175). -/
structure SnapshotCandidate where
  segment : Nat
  formatGeneration : Nat
  indexGeneration : Nat
  data : List Byte
deriving DecidableEq, Repr

/-- What mount has found of one chain (R177): the last valid record sequence, or none where the stream has no records; whether
its last record is a STOP marker; and the output index R19 restores. -/
structure ChainResult where
  survey : Nat
  index : Nat
  lastSeq : Option Nat
  stopped : Bool
  outputIndex : Nat
deriving DecidableEq, Repr

/-- The page that mount has chosen as holding the last record (R177 step 3). -/
structure LastPage where
  segment : Nat
  page : Nat
  firstSeq : Nat
  count : Nat
  data : List Byte
deriving DecidableEq, Repr

/-- The output index that a VALID DATA page read back gives, with the page's first record sequence (R19, R177). -/
structure IndexMark where
  firstSeq : Nat
  outputIndex : Nat
deriving DecidableEq, Repr

/-- What mount does in one chain (R177). `probed` holds the tail's pages already read and whether each counts void (VOID or
FAILED). -/
inductive ChainWork where
  /-- Step 1: a probe of the page between the bounds, or (`after`) the read of the page after an ERASED probe. -/
  | writePoint (low high : Nat) (after : Bool) (probed : List (Nat × Bool))
  /-- Step 2: the pages of the tail still to read, and the voids counted. -/
  | voids (left : List Nat) (count : Nat)
  /-- Step 3: reading backward at this segment and page; `marks` holds what the pages read so far give for the output index. -/
  | last (segment page : Nat) (best : Option LastPage) (marks : List IndexMark)
  /-- Step 3, the output index: reading further back for a record that carries one. -/
  | output (segment page : Nat) (best : LastPage) (marks : List IndexMark)
deriving DecidableEq, Repr

/-- Where mount stands (R175 to R178). -/
inductive Mount where
  /-- Reading page 0 of index segment `next`. -/
  | heads (next : Nat) (best : Option SnapshotCandidate)
  /-- Replay: the next page to read, the sequence it must carry, and, where the page before it did not stand, whether that page
  read ERASED. -/
  | replay (segment page expect : Nat) (passed : Option Bool)
  /-- Reading the header page of data segment `next`. -/
  | headers (next : Nat)
  /-- Working through the chains still left. -/
  | chains (left : List (Nat × Nat)) (work : ChainWork) (done : List ChainResult)
  /-- Reading the tail header pages of the streams to restore. -/
  | restore (left : List ChainResult) (read : List (ChainResult × Descriptor)) (done : List ChainResult)
  /-- Mount has ended. -/
  | done
deriving DecidableEq, Repr

/-! ### Commands, replies and notices (Chapter 11) -/

/-- The commands that control frames carry (section 11.4). -/
inductive Opcode where
  | status | linkReset | noticeMaskSet | noticeMaskClear | clockRead | clockSet
  | streamLoad | streamStart | streamPause | streamStop | streamClear | streamRead
  | surveyOpen | surveyClose | surveyThresholds | surveyLock | surveyErase | surveyList
  | readRecords | dropsRead | gaugeRead | setLevels | setShock | setGauge | doze | format
deriving DecidableEq, Repr

/-- The statuses of a reply (section 5.5). -/
inductive Status where
  | ok | busy | notReady | level | state | param | full | noSuch | media | partialRead | endOfData
deriving DecidableEq, Repr

/-- What the command in the Operation Slot still needs at its end. -/
inductive Request where
  | streamLoad (slot : Nat) (desc : Descriptor)
  | streamStop (slot : Nat)
  | surveyOpen (survey : Nat)
  | surveyClose (survey : Nat)
  | surveyThresholds (survey : Nat)
  | surveyLock (survey : Nat)
  | surveyErase (survey : Nat)
  | readRecords
  | setLevels (named : List (Option Nat))
  | setShock
  | setGauge
  | doze
  | format
deriving DecidableEq, Repr

/-- The command the Operation Slot holds (R186). -/
structure OpSlot where
  opcode : Opcode
  port : Nat
  tag : Nat
  level : Nat
  suppressed : Bool
  request : Request
deriving DecidableEq, Repr

/-- Which notice kinds are enabled (R184), in code order. -/
structure NoticeMask where
  mounted : Bool := true
  drop : Bool := true
  battery : Bool := true
  stream : Bool := true
  media : Bool := true
  sampler : Bool := true
  report : Bool := true
deriving DecidableEq, Repr

/-- The seven kinds of notice. -/
inductive NoticeKind where
  | mounted | drop | battery | stream | media | sampler | report
deriving DecidableEq, Repr

/-- The four port counts (R182). -/
structure PortCounts where
  framing : Nat := 0
  malformed : Nat := 0
  overrun : Nat := 0
  unmatched : Nat := 0
deriving DecidableEq, Repr

/-- The gauge report (R162). -/
structure GaugeReport where
  level : BatteryLevel
  remaining : Nat
  acc : Int
  judged : Option Judgement
  vhold : Option Nat
  vpack : Option Nat
  ipack : Option Int
  tpack : Option Int
  holdUpPages : Nat
  limit : Nat
  estimate : Bool
  estimatePending : Bool
  packLost : Bool
  samplerFault : Bool
  lowRun : Nat
  recoveryRun : Nat
  settings : GaugeSettings
deriving DecidableEq, Repr

/-- The count of segments in each state (R80); taken segments are counted apart. -/
structure SegCounts where
  free : Nat := 0
  erasing : Nat := 0
  ready : Nat := 0
  taken : Nat := 0
  active : Nat := 0
  full : Nat := 0
  bad : Nat := 0
  index : Nat := 0
deriving DecidableEq, Repr

/-- What a MEDIA notice says (section 4.6, R97, R99). An index entry is named by its kind's code. -/
inductive MediaCause where
  | program (slot failures : Nat)
  | verify (slot failures : Nat)
  | header (segment : Nat)
  | bad (segment : Nat)
  | erase (segment : Nat)
  | noSegment (slot : Nat)
  | mediaFull (unused live : Nat)
  | mediaAvailable (unused live : Nat)
  | index (entryKind : Nat)
  | indexFailed
deriving DecidableEq, Repr

/-- The reason a STREAM notice carries (R11, R16). -/
inductive StreamReason where
  | pause (reason : Option PauseReason)
  | loss (reason : LossReason)
deriving DecidableEq, Repr

/-- A notice: its kind and payload (R184). -/
inductive Notice where
  | mounted (unformatted : Bool) (generation n : Nat) (counts : SegCounts) (restored notRestored : Nat) (clean : Bool)
  | dropDeclared (number : Nat) (kind : DropKind) (start : Stamp) (power : PowerState)
  | dropFinished (number : Nat) (kind : DropKind) (height peakTenths bad unresolved : Nat)
  | batteryLevel (old new : BatteryLevel) (soc remaining : Nat) (vpack vhold limit : Nat)
  | packLost (vpack vhold limit : Nat) (level : BatteryLevel)
  | packReturned (vpack vhold limit : Nat) (level : BatteryLevel)
  | stream (slot : Nat) (state : StreamState) (reason : StreamReason)
  | media (cause : MediaCause)
  | sampler (fault : Bool) (zeroRef fullRef checks : Nat)
  | report (gauge : GaugeReport)
deriving DecidableEq, Repr

/-- The STATUS report of the Page Pool and the Commit Queue (R56). -/
structure PoolReport where
  free : Nat
  filling : Nat
  queued : Nat
  index : Nat
  waiting : Nat
  programming : Nat
  held : Nat
  suspect : Nat
  verifying : Nat
  waitList : Nat
  greatestFailures : Nat
deriving DecidableEq, Repr

/-- The STATUS report of the Media Controller (R80). -/
structure MediaReport where
  n : Nat
  generation : Nat
  counts : SegCounts
  ready : Nat
  free : Nat
  mediaFull : Bool
  park : Bool
  waitingStreams : Nat
deriving DecidableEq, Repr

/-- The STATUS report of the Index Log (R101). -/
structure LogReport where
  current : Nat
  writePoint : Nat
  generation : Nat
  nextSeq : Nat
  waiting : Nat
  rollover : Bool
  unusable : List Nat
  failed : Bool
  clean : Bool
deriving DecidableEq, Repr

/-- The STATUS report of the Sense Sampler (R128). -/
structure SamplerReport where
  latest : List (Option Nat)
  zeroRef : Option Nat
  fullRef : Option Nat
  fault : Bool
  selfCheckCounter : Nat
  overruns : Nat
  checks : Nat
  fails : Nat
  rates : PowerState
deriving DecidableEq, Repr

/-- The STATUS reply's contents (R188). `slot` is the Operation Slot's opcode, port, tag and reply-suppressed mark. -/
structure StatusReport where
  phase : MountPhase
  unformatted : Bool
  power : PowerState
  procedure : Procedure
  slot : Option (Opcode × Nat × Nat × Bool)
  slotsInUse : Nat
  hold : Bool
  repliesWaiting : Nat
  pendingNotices : List NoticeKind
  mask : NoticeMask
  counts : PortCounts
  pool : PoolReport
  media : MediaReport
  log : LogReport
  sampler : SamplerReport
  monitor : MonitorState
  park : Bool
  dropTotal : Nat
  level : BatteryLevel
  limit : Nat
  clock : Stamp
deriving DecidableEq, Repr

/-- The STREAM-READ reply's contents (R10); an EMPTY slot gives its state alone. -/
structure StreamReport where
  state : StreamState
  reason : Option PauseReason
  loading : Bool
  stopping : Bool
  desc : Option Descriptor
  expected : Option Nat
  outputIndex : Nat
  nextSeq : Nat
  markers : Markers
  openRec : Bool
  page : Bool
  counters : SlotCounters
deriving DecidableEq, Repr

/-- One entry of the SURVEY-LIST reply (R94). -/
structure SurveyListing where
  number : Nat
  confirmed : Bool
  name : List Byte
  state : SurveyState
  creator : Nat
  readThreshold : Nat
  eraseThreshold : Nat
  created : Stamp
  closed : Option Stamp
  streamCount : Nat
  dropCount : Nat
  hadPowerLoss : Bool
  hadSuspect : Bool
  hadVoid : Bool
deriving DecidableEq, Repr

/-- The head of a READ-RECORDS reply (R114). -/
structure ReadHead where
  survey : Nat
  index : Nat
  entries : Nat
  maximum : Nat
  hintUsed : Bool
  links : Nat
  resumeSeq : Nat
  resumeHint : Nat
deriving DecidableEq, Repr

/-- What a reply carries beyond its header. The spec gives bytes for READ-RECORDS alone (section 12.1); the other payloads are
the fields their owners name. -/
inductive Payload where
  | none
  | status (r : StatusReport)
  | mask (m : NoticeMask)
  | clock (now : Stamp) (interval : Nat) (nextReport : Option Nat)
  | clockSet (now : Stamp)
  | streamEmpty
  | stream (r : StreamReport)
  | surveyOpened (survey read erase : Nat)
  | surveyClosed (stamp : Stamp)
  | thresholds (read erase : Nat)
  | surveyList (total : Nat) (entries : List SurveyListing)
  | records (head : ReadHead) (entries : List RecordEntry)
  | readRefused (survey index : Nat)
  | drops (monitor : MonitorState) (park : Bool) (total : Nat) (inProgress : Option DropRecord) (list : List DropRecord)
  | gauge (r : GaugeReport)
  | levels (l : List Nat)
  | shock (v : ShockSettings)
  | gaugeSettings (v : GaugeSettings)
  | formatted (n generation bad unusable : Nat)
deriving DecidableEq, Repr

/-- A reply frame (R185). `kept` says that it takes the Operation Slot's kept place (R183). -/
structure Reply where
  port : Nat
  tag : Nat
  level : Nat
  status : Status
  kept : Bool
  payload : Payload
deriving DecidableEq, Repr

/-- One entry of the Transmit List (section 11.3). -/
inductive TxEntry where
  | reply (r : Reply)
  | notice (n : Notice)
deriving DecidableEq, Repr

/-- The kinds of frame the port keeps (R180). -/
inductive FrameKind where
  | sample | control
deriving DecidableEq, Repr

/-- A frame in the receive buffer: its header fields and its payload (section 12.1). -/
structure Frame where
  kind : FrameKind
  port : Nat
  asked : Nat
  tag : Nat
  code : Nat
  timeMark : Bool
  payload : List Byte
deriving DecidableEq, Repr

/-- The Frame Port (R180 to R184): the receive buffer, oldest first; HOLD; the Transmit List, whose head is the frame on the
line; the notice mask and the four counts. -/
structure FramePort where
  rx : List Frame
  hold : Bool
  tx : List TxEntry
  mask : NoticeMask
  counts : PortCounts
deriving DecidableEq, Repr

/-- The whole machine: the part's blocks, the flash array behind the Media Port (in `media`), the counter of disturbances of
the flash (the model's own), and the commands that wait, first in first out (the model's own). -/
structure State where
  clock : Clock
  port : FramePort
  slot : Option OpSlot
  slots : List Slot
  pool : Pool
  queue : List Entry
  media : Media
  table : SurveyTable
  log : IndexLog
  formatRun : Option FormatRun
  engine : Option ReadContext
  stores : PageStores
  sampler : Sampler
  monitor : Monitor
  gauge : Gauge
  power : Power
  mount : Mount
  freeCount : Nat
  pending : List Instr
deriving DecidableEq, Repr

/-! ### Reset -/

/-- The Frame Port after power-on and after the RST line (R182). -/
def FramePort.reset : FramePort :=
  { rx := [], hold := false, tx := [], mask := {}, counts := {} }

/-- The Page Pool after power-on and after the RST line (R55). -/
def Pool.reset : Pool :=
  { buffers := List.replicate 32 {}, indexWaiters := [], streamWaiters := [] }

/-- The Survey Clock after power-on, its alarm restarted with the default interval (R166, R167). -/
def Clock.reset : Clock :=
  { prescaler := 0, ticks := 0, seconds := 0, valid := false, nextReport := some 60 }

/-- The Media Controller after power-on and after the RST line, with mount's first read started on the idle port (R70, R80). -/
def Media.reset (reported : Nat) (flash : List (Nat × FlashCell)) : Media :=
  { op := some (.mountRead 0 0), image := none, hold := false, fairness := 0, segs := [], ready := [], free := [], takes := [],
    segWaiters := [], mediaFull := false, generation := 0, reportedSegments := reported, flash := flash }

/-- The Survey Table and Port Level Table before mount loads them: every present level is 3 (R81, R85). The stored levels and
next-survey-number before mount are DESIGN CHOICE (log entry 8). -/
def SurveyTable.reset : SurveyTable :=
  { surveys := [], nextNumber := 1, stored := [3, 3, 3, 3], present := [3, 3, 3, 3] }

/-- The Index Log before mount sets its position (R101). -/
def IndexLog.reset : IndexLog :=
  { current := none, writePoint := 0, generation := 0, nextSeq := 0, waiting := [], stage := .idle, rollover := .none,
    forceRollover := false, unusable := [], failed := false, clean := false }

/-- The Sense Sampler after a reset (R127), with the start-up self-check running after power-on. -/
def Sampler.reset (running : Option Scan) : Sampler :=
  { powered := running.isSome, running := running, pendingShock := false, pendingGauge := none, divider := 0, countdown := 1,
    interval := 0, selfCheckCounter := 0, fault := false, latest := List.replicate 7 none, zeroRef := none, fullRef := none,
    overruns := 0, checks := 0, fails := 0, shockDue := false }

/-- The Drop Monitor after power-on and after the RST line (R147). The fall start stamp has no reset value in the spec:
DESIGN CHOICE (log entry 8). -/
def Monitor.reset : Monitor :=
  { state := .watch, park := false, drop := none, fallStart := { seconds := 0, ticks := 0, valid := false }, fallClock := 0, catchMark := none, settle := 0,
    previous := none, watchCount := 0, total := 0, drops := [], shock := {}, loaded := false, unnumbered := [], ordinals := 0 }

/-- The Battery Gauge after power-on (R163). -/
def Gauge.reset : Gauge :=
  { remaining := 0, acc := 0, level := .normal, estimatePending := true, estimate := false, packLost := false, lowRun := 0,
    recoveryRun := 0, holdUpPages := 0, limit := 0, vhold := none, vpack := none, ipack := none, tpack := none, judged := none,
    settings := {} }

/-- Power Control after power-on and after the RST line (R179). -/
def Power.reset : Power :=
  { state := .active, procedure := .none, shutdownAsked := false, idleTimer := 0, phase := .index, unformatted := false,
    pwrKeep := true, idleDue := false, alarmDue := false }

/-- The part right after the release of power-on (R18, R55, R80, R101, R116, R127, R147, R163, R167, R179, R182, R186), in front
of a flash array that reports 64 segments and holds no written page (DESIGN CHOICE, log entry 8). -/
def State.reset : State :=
  { clock := Clock.reset, port := FramePort.reset, slot := none, slots := List.replicate 16 {}, pool := Pool.reset, queue := [],
    media := Media.reset 64 [], table := SurveyTable.reset, log := IndexLog.reset, formatRun := none, engine := none,
    stores := {}, sampler := Sampler.reset (some .startUp), monitor := Monitor.reset, gauge := Gauge.reset, power := Power.reset,
    mount := .heads 0 none, freeCount := 0, pending := [] }

end Sys2Proof.Machine
end

