-- ==== Sys2Proof/Machine/Bytes.lean ====
section
/-! DEFINITION. Bytes: least-significant-byte-first fields, two's complement, padding with all ones, and the CRC-32 (R189, R190). -/

namespace Sys2Proof.Machine

/-- `n` as `k` bytes, least significant first (R189). -/
def leBytes : Nat → Nat → List Byte
  | 0, _ => []
  | k + 1, n => BitVec.ofNat 8 n :: leBytes k (n / 256)

/-- A signed value as `k` bytes of two's complement (R189). -/
def leInt (k : Nat) (z : Int) : List Byte := leBytes k (z % (2 ^ (8 * k) : Nat)).toNat

/-- The number that bytes spell, least significant first (R189). -/
def leVal : List Byte → Nat
  | [] => 0
  | b :: bs => b.toNat + 256 * leVal bs

/-- The `len` bytes that start at `off`. -/
def slice (bs : List Byte) (off len : Nat) : List Byte := (bs.drop off).take len

/-- The unsigned field of `len` bytes at `off`. -/
def field (bs : List Byte) (off len : Nat) : Nat := leVal (slice bs off len)

/-- The value of a two's complement field of `bits` bits. -/
def signedOf (bits n : Nat) : Int := if n < 2 ^ (bits - 1) then (n : Int) else (n : Int) - (2 ^ bits : Nat)

/-- The signed field of `len` bytes at `off`. -/
def signedField (bs : List Byte) (off len : Nat) : Int := signedOf (8 * len) (field bs off len)

/-- One byte. -/
def byte (n : Nat) : Byte := BitVec.ofNat 8 n

/-- A flag as a byte of value 0 or 1. -/
def flagByte (b : Bool) : Byte := if b then 1#8 else 0#8

/-- `k` zero bytes. -/
def zeros (k : Nat) : List Byte := List.replicate k 0#8

/-- `k` bytes of all ones. -/
def ones (k : Nat) : List Byte := List.replicate k 255#8

/-- The bytes followed by all ones, up to `n` bytes (R44, R189). -/
def padOnes (n : Nat) (bs : List Byte) : List Byte := (bs ++ ones (n - bs.length)).take n

/-- The bytes followed by zeros, up to `n` bytes. -/
def padZeros (n : Nat) (bs : List Byte) : List Byte := (bs ++ zeros (n - bs.length)).take n

/-- The next multiple of 4. -/
def round4 (n : Nat) : Nat := (n + 3) / 4 * 4

/-- One bit of the reflected CRC-32 with polynomial 04C11DB7h (section 12.4). -/
def crcBit (c : BitVec 32) : BitVec 32 :=
  if c.getLsbD 0 then (c >>> 1) ^^^ 0xEDB88320#32 else c >>> 1

/-- One byte of the CRC-32. -/
def crcByte (c : BitVec 32) (b : Byte) : BitVec 32 :=
  crcBit (crcBit (crcBit (crcBit (crcBit (crcBit (crcBit (crcBit (c ^^^ b.setWidth 32))))))))

/-- The CRC-32 of section 12.4: initial value and final XOR FFFFFFFFh, input and output reflected. -/
def crc32 (bs : List Byte) : BitVec 32 := (bs.foldl crcByte 0xFFFFFFFF#32) ^^^ 0xFFFFFFFF#32

end Sys2Proof.Machine
end

