-- ==== Sys2Proof/Machine/Flash.lean ====
section
/-! DEFINITION. The flash array: pages of 4096 data bytes and a 64-byte spare area in segments of 256 pages (R57). The list of
written pages stands in one canonical form: keys strictly rising, and no page that reads as all ones. -/

namespace Sys2Proof.Machine

/-- What an erased page reads as: every byte all ones (R57). -/
def PageImage.erased : PageImage := { data := ones 4096, spare := ones 64 }

/-- The key of a page. -/
def Flash.key (segment page : Nat) : Nat := segment * 256 + page

/-- The bytes a cell reads as; a disturbed page reads as its free value (log entry 3). -/
def FlashCell.image : FlashCell → PageImage
  | .page im => im
  | .disturbed k => { data := (List.range 4096).map (Config.disturbedByte k),
                      spare := (List.range 64).map (fun i => Config.disturbedByte k (4096 + i)) }

/-- The page that stands at a key: an unlisted page reads as all ones (R57). -/
def Flash.read (flash : List (Nat × FlashCell)) (k : Nat) : PageImage :=
  match flash.find? (fun e => e.1 == k) with
  | some e => e.2.image
  | none => PageImage.erased

/-- Puts a cell at a key of a rising list. -/
def Flash.put (k : Nat) (c : FlashCell) : List (Nat × FlashCell) → List (Nat × FlashCell)
  | [] => [(k, c)]
  | e :: rest => if k < e.1 then (k, c) :: e :: rest else if k = e.1 then (k, c) :: rest else e :: Flash.put k c rest

/-- Writes a page. Writing what an unlisted page reads as removes the entry. -/
def Flash.write (flash : List (Nat × FlashCell)) (k : Nat) (c : FlashCell) : List (Nat × FlashCell) :=
  if c = .page PageImage.erased then flash.filter (fun e => e.1 != k) else Flash.put k c flash

/-- A successful segment erase: every page of the segment reads as all ones (R57). -/
def Flash.eraseSegment (flash : List (Nat × FlashCell)) (segment : Nat) : List (Nat × FlashCell) :=
  flash.filter (fun e => e.1 / 256 != segment)

/-- Pages `segment`/0 to `segment`/(n-1) disturbed, the disturbances numbered from `first`. -/
def Flash.disturbPages (flash : List (Nat × FlashCell)) (segment first : Nat) : Nat → List (Nat × FlashCell)
  | 0 => flash
  | n + 1 => Flash.write (Flash.disturbPages flash segment first n) (Flash.key segment n) (.disturbed (first + n))

/-- An erase that failed, timed out, was abandoned or was cut: all 256 pages are left open (R72, R77, R80). -/
def Flash.disturbSegment (flash : List (Nat × FlashCell)) (segment first : Nat) : List (Nat × FlashCell) :=
  Flash.disturbPages flash segment first 256

/-- Keys strictly rising. -/
def Flash.rising : List (Nat × FlashCell) → Bool
  | [] => true
  | [_] => true
  | a :: b :: rest => decide (a.1 < b.1) && Flash.rising (b :: rest)

/-- The canonical form. -/
def Flash.wf (flash : List (Nat × FlashCell)) : Bool :=
  Flash.rising flash && flash.all (fun e => decide (e.2 ≠ .page PageImage.erased))

/-- The page a read delivers, or none where the read failed (R59). -/
def outcomeImage (r : ReadOutcome) (flash : List (Nat × FlashCell)) (segment page : Nat) : Option PageImage :=
  match r with
  | .stored => some (Flash.read flash (Flash.key segment page))
  | .returned data spare => some { data := data, spare := spare }
  | .failed => none

end Sys2Proof.Machine
end

