-- ==== Sys2Proof/Machine/Format.lean ====
section
/-! DEFINITION. The byte layouts of Chapter 12: stamps, records, page trailers, stream descriptors, index and snapshot pages,
frame headers and the READ-RECORDS payload. -/

namespace Sys2Proof.Machine

/-! ### Stamps (R189) -/

/-- A stamp's 8 bytes. -/
def Stamp.bytes (t : Stamp) : List Byte :=
  leBytes 4 t.seconds ++ leBytes 2 t.ticks ++ [match t.unnamed with | some c => byte c | none => flagByte t.valid, 0#8]

/-- A stamp that may be absent: FFh in its clock-valid byte; its seconds and ticks bytes are a free value (log entry 4). -/
def optStampBytes : Option Stamp → List Byte
  | some t => t.bytes
  | none => (List.range 6).map Config.absentStampByte ++ [255#8, 0#8]

/-- The stamp at an offset; a clock-valid byte that is neither 0 nor 1 is kept as stored (R189). -/
def stampAt (bs : List Byte) (off : Nat) : Stamp :=
  let c := field bs (off + 6) 1
  { seconds := field bs off 4, ticks := field bs (off + 4) 2, valid := c == 1, unnamed := if c ≤ 1 then none else some c }

/-- The stamp at an offset, absent where its clock-valid byte is FFh. -/
def optStampAt (bs : List Byte) (off : Nat) : Option Stamp :=
  if field bs (off + 6) 1 = 255 then none else some (stampAt bs off)

/-! ### Codes -/

/-- The code of an output width in records and descriptors (sections 12.2, 12.3). -/
def Width.code : Width → Nat
  | .w16 => 0x10
  | .w32 => 0x20

/-- Bytes of one stored sample (R35). -/
def Width.size : Width → Nat
  | .w16 => 2
  | .w32 => 4

/-- The code of a rounding mode. -/
def Rounding.code : Rounding → Nat
  | .floor => 0
  | .halfUp => 1
  | .halfEven => 2

/-- The code of a window mode. -/
def WindowMode.code : WindowMode → Nat
  | .off => 0
  | .mark => 1
  | .keepInside => 2
  | .keepOutside => 3

/-- The width a code names. -/
def widthOf : Nat → Option Width
  | 0x10 => some .w16
  | 0x20 => some .w32
  | _ => none

/-- The rounding mode a code names. -/
def roundingOf : Nat → Option Rounding
  | 0 => some .floor
  | 1 => some .halfUp
  | 2 => some .halfEven
  | _ => none

/-- The window mode a code names. -/
def windowOf : Nat → Option WindowMode
  | 0 => some .off
  | 1 => some .mark
  | 2 => some .keepInside
  | 3 => some .keepOutside
  | _ => none

/-- The code of a loss reason (section 12.2). -/
def LossReason.code : LossReason → Nat
  | .pool => 1
  | .limit => 2

/-- The code of a pause reason in a PAUSE marker; CRITICAL and RESTORE raise no PAUSE marker (section 12.2). -/
def PauseReason.code : PauseReason → Nat
  | .command => 1
  | .reserve => 2
  | .mediaFull => 3
  | .critical => 0
  | .restore => 0

/-- The code of a power reason (section 12.2). -/
def PowerReason.code : PowerReason → Nat
  | .restore => 1
  | .critical => 2

/-- The code of a drop kind (section 12.2). -/
def DropKind.code : DropKind → Nat
  | .impact => 1
  | .fall => 2
  | .fallImpact => 3
  | .fallCaught => 4
  | .other c => c

/-- The drop kind of a stored code (R189). -/
def dropKindOf : Nat → DropKind
  | 1 => .impact
  | 2 => .fall
  | 3 => .fallImpact
  | 4 => .fallCaught
  | c => .other c

/-- The power state at detection that a drop declared in a power state records (R137, R142). -/
def PowerState.detected : PowerState → DetectionState
  | .active => .active
  | .doze => .doze
  | .off => .off

/-- The code of a power state in a drop record (section 12.3); a drop declared in OFF records 0 (log entry 22). -/
def DetectionState.code : DetectionState → Nat
  | .active => 1
  | .doze => 2
  | .off => 0
  | .other c => c

/-- The power state at detection of a stored code (R189). -/
def detectionStateOf : Nat → DetectionState
  | 1 => .active
  | 2 => .doze
  | c => .other c

/-- The code of a survey state; a CLOSING survey is recorded as OPEN (R98). -/
def SurveyState.code : SurveyState → Nat
  | .open => 1
  | .closing => 1
  | .closed => 3
  | .locked => 4
  | .other c => c

/-- The survey state of a stored code (R189). -/
def surveyStateOf : Nat → SurveyState
  | 1 => .open
  | 3 => .closed
  | 4 => .locked
  | c => .other c

/-! ### Records (section 12.2) -/

/-- The 20-byte record header (R34). Its flag bits 4 to 7, which section 12.2 does not list, are written as 0 (DESIGN CHOICE, log entry
64). -/
def recordHeader (kind : Nat) (valid timeMark marks clipped : Bool) (count seq : Nat) (seconds ticks : Nat) (index : Nat)
    (width : Width) (first : Nat) : List Byte :=
  [byte kind, byte ((if valid then 1 else 0) + (if timeMark then 2 else 0) + (if marks then 4 else 0) + (if clipped then 8 else 0))]
    ++ leBytes 2 count ++ leBytes 4 seq ++ leBytes 4 seconds ++ leBytes 2 ticks ++ [byte index, byte width.code]
    ++ leBytes 4 first

/-- The mark field: 2 bits a sample, four samples a byte (section 12.2). -/
def markBytes : List Nat → List Byte
  | [] => []
  | [a] => [byte a]
  | [a, b] => [byte (a + 4 * b)]
  | [a, b, c] => [byte (a + 4 * b + 16 * c)]
  | a :: b :: c :: d :: rest => byte (a + 4 * b + 16 * c + 64 * d) :: markBytes rest

/-- The size of a DATA record of `n` samples (R35). -/
def dataSize (timeMark marks : Bool) (width : Width) (n : Nat) : Nat :=
  round4 (20 + (if timeMark then 4 else 0) + n * width.size + (if marks then (n + 3) / 4 else 0))

/-- The bytes of a closed DATA record (R34, R35). -/
def OpenRecord.bytes (r : OpenRecord) (d : Descriptor) : List Byte :=
  let marks := d.mode = .mark
  let body := recordHeader 1 r.stamp.valid r.timeMark.isSome marks r.clipped r.values.length r.sequence r.stamp.seconds
      r.stamp.ticks d.index d.width r.firstIndex
    ++ r.timeMark.getD [] ++ r.values.flatMap (leInt d.width.size) ++ (if marks then markBytes r.marks else [])
  padZeros (dataSize r.timeMark.isSome marks d.width r.values.length) body

/-- The size of the open record as it stands (R35). -/
def OpenRecord.size (r : OpenRecord) (d : Descriptor) : Nat :=
  dataSize r.timeMark.isSome (d.mode = .mark) d.width r.values.length

/-- A marker record: 20 bytes, its flags clear but for the stamp's clock-valid flag (R34, R35). -/
def markerBytes (kind : Nat) (count first seq : Nat) (t : Stamp) (d : Descriptor) : List Byte :=
  recordHeader kind t.valid false false false count seq t.seconds t.ticks d.index d.width first

/-- The size of the record that starts at a byte offset, from its kind, count, width code and flags (R112). A width code that names no
width counts 2 bytes a sample, and a kind that names no kind 20 bytes (DESIGN CHOICE, log entry 44). -/
def recordSizeAt (bs : List Byte) (off : Nat) : Nat :=
  if field bs off 1 = 1 then
    let flags := field bs (off + 1) 1
    let n := field bs (off + 2) 2
    let w := if field bs (off + 15) 1 = 0x20 then 4 else 2
    round4 (20 + (if flags / 2 % 2 = 1 then 4 else 0) + n * w + (if flags / 4 % 2 = 1 then (n + 3) / 4 else 0))
  else 20

/-- The byte offsets of a page's `n` records, from byte 0 (R112). -/
def recordOffsets (bs : List Byte) : Nat → Nat → List Nat
  | 0, _ => []
  | n + 1, off => off :: recordOffsets bs n (off + recordSizeAt bs off)

/-- The output index a record gives for the restore (R19): a DATA record's first output index plus its count; a GAP, PAUSE,
RESUME, POWER or STOP marker's own; none for LOSS and DROP. -/
def recordOutputIndex (bs : List Byte) (off : Nat) : Option Nat :=
  let first := field bs (off + 16) 4
  match field bs off 1 with
  | 1 => some (wrap32 (first + field bs (off + 2) 2))
  | 2 => some first
  | 5 => some first
  | 6 => some first
  | 7 => some first
  | 8 => some first
  | _ => none

/-! ### Page trailers (section 12.3) -/

/-- The trailer's fields before its CRC. The page kind is its code: HEADER 1, DATA 2, INDEX 3, SNAPSHOT 4. -/
structure Trailer where
  kind : Nat
  rewrite : Bool
  index : Nat
  survey : Nat
  generation : Nat
  seq : Nat
  count : Nat
  used : Nat
  firstSeq : Nat
  seconds : Nat
  ticks : Nat
deriving DecidableEq, Repr

/-- Trailer bytes 0 to 27. -/
def Trailer.bytes (t : Trailer) : List Byte :=
  [byte t.kind, flagByte t.rewrite, byte t.index, 0#8] ++ leBytes 2 t.survey ++ leBytes 2 t.generation ++ leBytes 2 t.seq
    ++ leBytes 2 t.count ++ leBytes 2 t.used ++ zeros 2 ++ leBytes 4 t.firstSeq ++ leBytes 4 t.seconds ++ leBytes 2 t.ticks
    ++ zeros 2

/-- The trailer in a spare area. A rewrite byte other than 1 reads as clear. -/
def trailerOf (spare : List Byte) : Trailer :=
  { kind := field spare 0 1, rewrite := field spare 1 1 == 1, index := field spare 2 1, survey := field spare 4 2,
    generation := field spare 6 2, seq := field spare 8 2, count := field spare 10 2, used := field spare 12 2,
    firstSeq := field spare 16 4, seconds := field spare 20 4, ticks := field spare 24 2 }

/-- The page the Media Controller programs: the data bytes padded with all ones, the trailer, the CRC over both, and all ones
(R58, R190). -/
def composePage (data : List Byte) (t : Trailer) : PageImage :=
  let d := padOnes 4096 data
  { data := d, spare := t.bytes ++ leBytes 4 (crc32 (d ++ t.bytes)).toNat ++ ones 32 }

/-- Whether a page's stored CRC is the CRC of its data bytes and trailer bytes 0 to 27 (R190). -/
def PageImage.crcMatches (im : PageImage) : Bool :=
  (crc32 (im.data ++ im.spare.take 28)).toNat == field im.spare 28 4

/-- Whether every data byte and every spare byte reads as all ones (R59). -/
def PageImage.allOnes (im : PageImage) : Bool := im.data.all (· == 255#8) && im.spare.all (· == 255#8)

/-- The four read results (R59). A VALID page carries its trailer and data. -/
inductive PageResult where
  | erased
  | valid (t : Trailer) (data : List Byte)
  | void
  | failed
deriving DecidableEq, Repr

/-- The result of a read, judged at the current format generation (R59). -/
def judgePage (generation : Nat) : Option PageImage → PageResult
  | none => .failed
  | some im =>
    if im.allOnes then .erased
    else if im.crcMatches && (trailerOf im.spare).generation == generation then .valid (trailerOf im.spare) im.data
    else .void

/-! ### Stream descriptors (section 12.3) -/

/-- The codes that a descriptor writes for its rounding, width and window mode: as stored where one named nothing (R189). -/
def Descriptor.codes (d : Descriptor) : StoredCodes :=
  d.stored.getD { rounding := d.rounding.code, width := d.width.code, mode := d.mode.code }

/-- The 32 bytes of a stream descriptor, built from its fields, its zero bytes zero (R65, R189, section 12.3). -/
def Descriptor.bytes (d : Descriptor) : List Byte :=
  leBytes 2 d.survey ++ [byte d.index, byte (d.sourcePort.getD 255)] ++ leBytes 2 d.tag ++ leBytes 2 d.mask
    ++ [byte d.ownerLevel, byte d.decimation, byte d.shift, byte d.codes.rounding] ++ leInt 2 d.gain ++ leBytes 2 d.recordLength
    ++ leInt 4 d.offset ++ [byte d.codes.width, byte d.codes.mode] ++ zeros 2 ++ leInt 4 d.low ++ leInt 4 d.high

/-- The codes of a stored descriptor, where one of them names nothing. -/
def storedCodesOf (bs : List Byte) : Option StoredCodes :=
  let c : StoredCodes := { rounding := field bs 11 1, width := field bs 20 1, mode := field bs 21 1 }
  if (roundingOf c.rounding).isSome && (widthOf c.width).isSome && (windowOf c.mode).isSome then none else some c

/-- A stored descriptor as mount reads it. Where a code names nothing it is kept as stored (R189), and what the stream does by it is a
free value (log entry 6). A number out of its range is taken as stored (DESIGN CHOICE, log entry 45). -/
def descriptorOf (bs : List Byte) : Descriptor :=
  { stored := storedCodesOf bs, survey := field bs 0 2, index := field bs 2 1,
    sourcePort := if field bs 3 1 = 255 then none else some (field bs 3 1),
    tag := field bs 4 2, mask := field bs 6 2, ownerLevel := field bs 8 1, decimation := field bs 9 1, shift := field bs 10 1,
    rounding := (roundingOf (field bs 11 1)).getD
      (match Config.unnamedCode (field bs 11 1) % 3 with | 0 => .floor | 1 => .halfUp | _ => .halfEven),
    gain := signedField bs 12 2, recordLength := field bs 14 2, offset := signedField bs 16 4,
    width := (widthOf (field bs 20 1)).getD (match Config.unnamedCode (field bs 20 1) % 2 with | 0 => .w16 | _ => .w32),
    mode := (windowOf (field bs 21 1)).getD
      (match Config.unnamedCode (field bs 21 1) % 4 with | 0 => .off | 1 => .mark | 2 => .keepInside | _ => .keepOutside),
    low := signedField bs 24 4, high := signedField bs 28 4 }

/-! ### Index and snapshot pages (section 12.3) -/

/-- A survey record's 48 bytes. Its flag bits 3 to 7, which section 12.3 does not list, are written as 0 (DESIGN CHOICE, log entry 64). -/
def SurveyRecord.bytes (r : SurveyRecord) : List Byte :=
  leBytes 2 r.number ++ [byte r.state.code, byte r.creator, byte r.readThreshold, byte r.eraseThreshold,
      byte ((if r.hadPowerLoss then 1 else 0) + (if r.hadSuspect then 2 else 0) + (if r.hadVoid then 4 else 0)),
      byte r.name.length]
    ++ padZeros 16 r.name ++ r.created.bytes ++ optStampBytes r.closed ++ leBytes 2 r.dropCount ++ zeros 2 ++ leBytes 4 r.lastDrop

/-- The survey record at an offset. Flag bits 3 to 7 are not kept (DESIGN CHOICE, log entry 64). -/
def surveyRecordAt (bs : List Byte) (off : Nat) : SurveyRecord :=
  { number := field bs off 2, state := surveyStateOf (field bs (off + 2) 1), creator := field bs (off + 3) 1,
    readThreshold := field bs (off + 4) 1, eraseThreshold := field bs (off + 5) 1,
    hadPowerLoss := field bs (off + 6) 1 % 2 == 1, hadSuspect := field bs (off + 6) 1 / 2 % 2 == 1,
    hadVoid := field bs (off + 6) 1 / 4 % 2 == 1, name := slice bs (off + 8) (min 16 (field bs (off + 7) 1)),
    created := stampAt bs (off + 24), closed := optStampAt bs (off + 32), dropCount := field bs (off + 40) 2,
    lastDrop := field bs (off + 44) 4 }

/-- A drop record's 32 bytes; a flag that is set is written as 1 (DESIGN CHOICE, log entry 43). -/
def DropRecord.bytes (r : DropRecord) : List Byte :=
  leBytes 4 r.number ++ [byte r.kind.code, flagByte r.rail, flagByte r.packLost, byte r.power.code] ++ r.start.bytes
    ++ leBytes 2 r.fallTime ++ leBytes 2 r.height ++ leBytes 2 r.peak ++ leBytes 2 r.peakTenths
    ++ [byte r.pages.suspect, byte r.pages.carried, byte r.pages.confirmed, byte r.pages.bad, byte r.pages.requeued,
        byte r.pages.unresolved]
    ++ leBytes 2 r.lowestHoldUp

/-- A drop record with its counted surveys: the record, their count, zero, and 16 survey numbers, unused ones zero. It is the body of a
DROP entry (section 12.3), and stands so in a DROPS-READ reply (R142; DEDUCED, log entry 57). -/
def DropRecord.wholeBytes (r : DropRecord) : List Byte :=
  r.bytes ++ [byte r.surveys.length, 0#8] ++ padZeros 32 (r.surveys.flatMap (leBytes 2))

/-- The drop record at an offset; its counted surveys are not part of it (section 12.3). A flag byte other than 1 reads as clear
(DESIGN CHOICE, log entry 43). -/
def dropRecordAt (bs : List Byte) (off : Nat) : DropRecord :=
  { number := field bs off 4, ordinal := 0, kind := dropKindOf (field bs (off + 4) 1), start := stampAt bs (off + 8),
    fallTime := field bs (off + 16) 2, height := field bs (off + 18) 2, peak := field bs (off + 20) 2,
    peakTenths := field bs (off + 22) 2, rail := field bs (off + 5) 1 == 1,
    pages := { suspect := field bs (off + 24) 1, carried := field bs (off + 25) 1, confirmed := field bs (off + 26) 1,
               bad := field bs (off + 27) 1, requeued := field bs (off + 28) 1, unresolved := field bs (off + 29) 1 },
    packLost := field bs (off + 6) 1 == 1, lowestHoldUp := field bs (off + 30) 2,
    power := detectionStateOf (field bs (off + 7) 1), surveys := [] }

/-- The ten shock values of 2 bytes, in the order of R130. -/
def ShockSettings.bytes (v : ShockSettings) : List Byte :=
  [v.zeroX, v.zeroY, v.zeroZ, v.ffWindow, v.ffTime, v.impactLevel, v.quietDelta, v.settleTime, v.catchTime, v.countsPerG].flatMap
    (leBytes 2)

/-- The shock values at an offset, each as stored, whatever its range (R189; DESIGN CHOICE, log entry 45). -/
def shockAt (bs : List Byte) (off : Nat) : ShockSettings :=
  { zeroX := field bs off 2, zeroY := field bs (off + 2) 2, zeroZ := field bs (off + 4) 2, ffWindow := field bs (off + 6) 2,
    ffTime := field bs (off + 8) 2, impactLevel := field bs (off + 10) 2, quietDelta := field bs (off + 12) 2,
    settleTime := field bs (off + 14) 2, catchTime := field bs (off + 16) 2, countsPerG := field bs (off + 18) 2 }

/-- The seven gauge values of 4 bytes, in the order of R150. -/
def GaugeSettings.bytes (v : GaugeSettings) : List Byte :=
  [v.capacity, v.cutOff, v.packPresent, v.holdUpMin, v.holdUpStep, v.reportInterval, v.idleToDoze].flatMap (leBytes 4)

/-- The gauge values at an offset, each as stored, whatever its range (R189; DESIGN CHOICE, log entry 45). -/
def gaugeSettingsAt (bs : List Byte) (off : Nat) : GaugeSettings :=
  { capacity := field bs off 4, cutOff := field bs (off + 4) 4, packPresent := field bs (off + 8) 4,
    holdUpMin := field bs (off + 12) 4, holdUpStep := field bs (off + 16) 4, reportInterval := field bs (off + 20) 4,
    idleToDoze := field bs (off + 24) 4 }

/-- The code of an entry kind (section 12.3). -/
def EntryBody.kindCode : EntryBody → Nat
  | .surveyOpened _ => 1
  | .surveyClosed _ => 2
  | .thresholdsSet _ _ _ => 3
  | .surveyLocked _ => 4
  | .surveyErased _ => 5
  | .ports _ => 6
  | .shock _ => 6
  | .gauge _ => 6
  | .drop _ => 7
  | .powerDown => 8

/-- The body of an entry page (section 12.3). -/
def EntryBody.bytes : EntryBody → List Byte
  | .surveyOpened r => r.bytes
  | .surveyClosed r => r.bytes
  | .thresholdsSet n r e => leBytes 2 n ++ [byte r, byte e]
  | .surveyLocked n => leBytes 2 n
  | .surveyErased n => leBytes 2 n
  | .ports l => [1#8] ++ zeros 3 ++ l.map byte
  | .shock v => [2#8] ++ zeros 3 ++ v.bytes
  | .gauge v => [3#8] ++ zeros 3 ++ v.bytes
  | .drop r => r.wholeBytes
  | .powerDown => [1#8]

/-- The 16-byte head of an index or snapshot page (section 12.3). -/
def indexHead (kind length seq : Nat) (t : Stamp) : List Byte :=
  [byte kind, 0#8] ++ leBytes 2 length ++ leBytes 4 seq ++ t.bytes

/-- The data bytes of an entry page. -/
def entryPage (e : IndexEntry) : List Byte :=
  indexHead e.body.kindCode e.body.bytes.length (e.seq.getD 0) e.stamp ++ e.body.bytes

/-- The survey numbers a DROP entry lists, from body offset 34. -/
def countedSurveysAt (bs : List Byte) (off : Nat) : Nat → List Nat
  | 0 => []
  | n + 1 => field bs off 2 :: countedSurveysAt bs (off + 2) n

/-- The entry that an index page holds; none where its kind names no code: replay passes over it (R189). A SETTINGS entry whose group
names no code is passed over whole as well, and so is an INDEX page of entry kind 10h, SNAPSHOT, which R95 does not replay (DESIGN
CHOICE, log entry 6). -/
def entryOf (data : List Byte) : Option EntryBody :=
  match field data 0 1 with
  | 1 => some (.surveyOpened (surveyRecordAt data 16))
  | 2 => some (.surveyClosed (surveyRecordAt data 16))
  | 3 => some (.thresholdsSet (field data 16 2) (field data 18 1) (field data 19 1))
  | 4 => some (.surveyLocked (field data 16 2))
  | 5 => some (.surveyErased (field data 16 2))
  | 6 => match field data 16 1 with
    | 1 => some (.ports [field data 20 1, field data 21 1, field data 22 1, field data 23 1])
    | 2 => some (.shock (shockAt data 20))
    | 3 => some (.gauge (gaugeSettingsAt data 20))
    | _ => none
  | 7 => some (.drop { dropRecordAt data 16 with surveys := countedSurveysAt data 50 (min 16 (field data 48 1)) })
  | 8 => some .powerDown
  | _ => none

/-- The contents of a snapshot (R98). -/
structure SnapshotBody where
  indexGeneration : Nat
  nextSeq : Nat
  formatGeneration : Nat
  n : Nat
  nextNumber : Nat
  stored : List Nat
  dropTotal : Nat
  shock : ShockSettings
  gauge : GaugeSettings
  surveys : List SurveyRecord
  drops : List DropRecord
deriving DecidableEq, Repr

/-- The 3664 bytes of a snapshot body (section 12.3). -/
def SnapshotBody.bytes (b : SnapshotBody) : List Byte :=
  leBytes 4 b.indexGeneration ++ leBytes 4 b.nextSeq ++ leBytes 2 b.formatGeneration ++ leBytes 2 b.n ++ leBytes 4 b.nextNumber
    ++ b.stored.map byte ++ [byte b.surveys.length, byte b.drops.length] ++ zeros 2 ++ leBytes 4 b.dropTotal ++ b.shock.bytes
    ++ b.gauge.bytes ++ zeros 4 ++ padOnes 3072 (b.surveys.flatMap SurveyRecord.bytes)
    ++ padOnes 512 (b.drops.flatMap DropRecord.bytes)

/-- The snapshot a page's data bytes hold, its body at offset 16. Of the surveys and drop records that its counts name it takes as many
as there are places, 64 and 16 (DESIGN CHOICE, log entry 45). -/
def snapshotOf (data : List Byte) : SnapshotBody :=
  { indexGeneration := field data 16 4, nextSeq := field data 20 4, formatGeneration := field data 24 2, n := field data 26 2,
    nextNumber := field data 28 4, stored := [field data 32 1, field data 33 1, field data 34 1, field data 35 1],
    dropTotal := field data 40 4, shock := shockAt data 44, gauge := gaugeSettingsAt data 64,
    surveys := (List.range (min 64 (field data 36 1))).map (fun i => surveyRecordAt data (96 + 48 * i)),
    drops := (List.range (min 16 (field data 37 1))).map (fun i => dropRecordAt data (3168 + 32 * i)) }

/-- The data bytes of a snapshot page; the head's entry sequence is a free value (log entry 5). -/
def snapshotPage (b : SnapshotBody) (t : Stamp) : List Byte :=
  indexHead 0x10 3664 (Config.snapshotHeadSequence b.indexGeneration) t ++ b.bytes

/-! ### Frames (section 12.1) -/

/-- The code of a status. -/
def Status.code : Status → Nat
  | .ok => 0
  | .busy => 1
  | .notReady => 2
  | .level => 3
  | .state => 4
  | .param => 5
  | .full => 6
  | .noSuch => 7
  | .media => 9
  | .partialRead => 10
  | .endOfData => 11

/-- The code of a notice kind. -/
def NoticeKind.code : NoticeKind → Nat
  | .mounted => 1
  | .drop => 2
  | .battery => 3
  | .stream => 4
  | .media => 5
  | .sampler => 6
  | .report => 7

/-- The opcode of a command. -/
def Opcode.code : Opcode → Nat
  | .status => 0x01
  | .linkReset => 0x02
  | .noticeMaskSet => 0x03
  | .noticeMaskClear => 0x04
  | .clockRead => 0x05
  | .clockSet => 0x06
  | .streamLoad => 0x10
  | .streamStart => 0x11
  | .streamPause => 0x12
  | .streamStop => 0x13
  | .streamClear => 0x14
  | .streamRead => 0x15
  | .surveyOpen => 0x20
  | .surveyClose => 0x21
  | .surveyThresholds => 0x22
  | .surveyLock => 0x23
  | .surveyErase => 0x24
  | .surveyList => 0x25
  | .readRecords => 0x30
  | .dropsRead => 0x31
  | .gaugeRead => 0x32
  | .setLevels => 0x40
  | .setShock => 0x41
  | .setGauge => 0x42
  | .doze => 0x43
  | .format => 0x44

/-- The command an opcode names. -/
def opcodeOf (c : Nat) : Option Opcode :=
  match c with
  | 0x01 => some .status
  | 0x02 => some .linkReset
  | 0x03 => some .noticeMaskSet
  | 0x04 => some .noticeMaskClear
  | 0x05 => some .clockRead
  | 0x06 => some .clockSet
  | 0x10 => some .streamLoad
  | 0x11 => some .streamStart
  | 0x12 => some .streamPause
  | 0x13 => some .streamStop
  | 0x14 => some .streamClear
  | 0x15 => some .streamRead
  | 0x20 => some .surveyOpen
  | 0x21 => some .surveyClose
  | 0x22 => some .surveyThresholds
  | 0x23 => some .surveyLock
  | 0x24 => some .surveyErase
  | 0x25 => some .surveyList
  | 0x30 => some .readRecords
  | 0x31 => some .dropsRead
  | 0x32 => some .gaugeRead
  | 0x40 => some .setLevels
  | 0x41 => some .setShock
  | 0x42 => some .setGauge
  | 0x43 => some .doze
  | 0x44 => some .format
  | _ => none

/-- The first test of R180: at least 8 bytes, a payload length of at most 2048, and a byte count of 8 plus it. -/
def framed (bs : List Byte) : Bool :=
  decide (8 ≤ bs.length) && decide (field bs 2 2 ≤ 2048) && decide (bs.length = 8 + field bs 2 2)

/-- The kind of an inbound frame (R180, second test). -/
def inboundKind (bs : List Byte) : Option FrameKind :=
  match field bs 0 1 with
  | 1 => some .sample
  | 2 => some .control
  | _ => none

/-- The frame whose header and payload the bytes hold. -/
def frameOf (kind : FrameKind) (bs : List Byte) : Frame :=
  { kind := kind, port := field bs 1 1 % 4, asked := field bs 1 1 / 4 % 4, tag := field bs 4 2, code := field bs 6 1,
    timeMark := field bs 7 1 % 2 == 1, payload := bs.drop 8 }

/-- The bits of a raw sample that a SAMPLE payload's width code declares (section 12.1). -/
def rawSize (payload : List Byte) : Option Nat :=
  match field payload 0 1 with
  | 0x10 => some 2
  | 0x18 => some 3
  | _ => none

/-- The third test of R180: width code, sample count and payload length of a SAMPLE frame. -/
def Frame.sampleFormed (f : Frame) : Bool :=
  match rawSize f.payload with
  | none => false
  | some k =>
    let n := field f.payload 1 1
    decide (1 ≤ n ∧ n ≤ 64 ∧ f.payload.length = 4 + (if f.timeMark then 4 else 0) + n * k)

/-- The instrument time mark of a SAMPLE frame, if its header flags one. -/
def Frame.mark (f : Frame) : Option (List Byte) := if f.timeMark then some (slice f.payload 4 4) else none

/-- `n` raw samples of `k` bytes, sign-extended, in payload order (R21). -/
def rawSamples (k : Nat) : Nat → List Byte → List Int
  | 0, _ => []
  | n + 1, bs => signedOf (8 * k) (leVal (bs.take k)) :: rawSamples k n (bs.drop k)

/-- The raw samples of a SAMPLE frame (R15, R21). -/
def Frame.samples (f : Frame) : List Int :=
  let k := (rawSize f.payload).getD 2
  rawSamples k (field f.payload 1 1) (f.payload.drop (if f.timeMark then 8 else 4))

/-- The READ-RECORDS reply head's 16 bytes (section 12.1). Bits 1 to 7 of the hint-used byte, which the section does not list, are 0
(DESIGN CHOICE, log entry 64). -/
def ReadHead.bytes (h : ReadHead) : List Byte :=
  leBytes 2 h.survey ++ [byte h.index, byte h.entries, byte h.maximum, flagByte h.hintUsed, byte h.links, 0#8]
    ++ leBytes 4 h.resumeSeq ++ leBytes 2 h.resumeHint ++ zeros 2

/-- A record entry: its 4-byte head and the record as stored (R112, section 12.1). Bits 2 to 7 of the head's flag byte, which the section
does not list, are 0 (DESIGN CHOICE, log entry 64). -/
def RecordEntry.frameBytes (e : RecordEntry) : List Byte :=
  leBytes 2 e.bytes.length ++ [byte ((if e.voidNearby then 1 else 0) + (if e.breakBefore then 2 else 0)), 0#8] ++ e.bytes

/-- The kind of a notice. -/
def Notice.kind : Notice → NoticeKind
  | .mounted _ _ _ _ _ _ _ => .mounted
  | .dropDeclared _ _ _ _ => .drop
  | .dropFinished _ _ _ _ _ _ => .drop
  | .batteryLevel _ _ _ _ _ _ _ => .battery
  | .packLost _ _ _ _ => .battery
  | .packReturned _ _ _ _ => .battery
  | .stream _ _ _ => .stream
  | .media _ => .media
  | .sampler _ _ _ _ => .sampler
  | .report _ => .report

end Sys2Proof.Machine

namespace Sys2Proof.Config

open Sys2Proof.Machine

/-- FREE VALUE (log entry 10). The payload bytes of a reply to which the spec gives fields and no byte layout (section 11.1: its owner
names the fields it carries). Of a DROPS-READ reply only what stands before its drop records is read from it. -/
opaque openPayload (p : Payload) : List Byte

/-- FREE VALUE (log entry 10). The payload bytes of a notice: its owner names its fields, and no rule lays them out. -/
opaque openNotice (n : Notice) : List Byte

end Sys2Proof.Config

namespace Sys2Proof.Machine

/-- The kind set of a mask, bits 0 to 6 in code order (section 12.1). Bit 7 of a reply's kind set is 0 (DESIGN CHOICE, log entry 64). -/
def NoticeMask.kindByte (m : NoticeMask) : Byte :=
  byte ((if m.mounted then 1 else 0) + (if m.drop then 2 else 0) + (if m.battery then 4 else 0) + (if m.stream then 8 else 0)
    + (if m.media then 16 else 0) + (if m.sampler then 32 else 0) + (if m.report then 64 else 0))

/-- The most bytes of a payload (section 12.1). -/
def payloadRoom : Nat := 2048

/-- The bytes of a payload that the spec lays out by fields only: free, and at most as many as a payload holds (log entry 10). -/
def Payload.openBytes (p : Payload) : List Byte := (Config.openPayload p).take payloadRoom

/-- The drop records of a DROPS-READ reply: the drop in progress, then the list (R146). -/
def dropReports (inProgress : Option DropRecord) (list : List DropRecord) : List Byte :=
  (inProgress.toList ++ list).flatMap DropRecord.wholeBytes

/-- A reply's payload bytes: none; a notice mask as a kind set; the READ-RECORDS head and entries (R114); of a refused READ-RECORDS the
survey and stream index (R114); of SURVEY-CLOSE the closed stamp (R90, R189); of DROPS-READ the drop in progress and the list's
records, newest first, each with its counted surveys, after fields with no layout (R142, R146; log entries 10, 57); of the others a
free value. -/
def Payload.bytes : Payload → List Byte
  | .none => []
  | .records h es => h.bytes ++ es.flatMap RecordEntry.frameBytes
  | .readRefused survey index => leBytes 2 survey ++ [byte index]
  | .drops monitor park total inProgress list =>
    (Config.openPayload (.drops monitor park total inProgress list)).take (payloadRoom - (dropReports inProgress list).length)
      ++ dropReports inProgress list
  | .status r => (Payload.status r).openBytes
  | .mask m => [m.kindByte]
  | .clock now interval nextReport => (Payload.clock now interval nextReport).openBytes
  | .clockSet now => (Payload.clockSet now).openBytes
  | .streamEmpty => Payload.streamEmpty.openBytes
  | .stream r => (Payload.stream r).openBytes
  | .surveyOpened survey read erase => (Payload.surveyOpened survey read erase).openBytes
  | .surveyClosed stamp => stamp.bytes
  | .thresholds read erase => (Payload.thresholds read erase).openBytes
  | .surveyList total entries => (Payload.surveyList total entries).openBytes
  | .gauge r => (Payload.gauge r).openBytes
  | .levels l => (Payload.levels l).openBytes
  | .shock v => (Payload.shock v).openBytes
  | .gaugeSettings v => (Payload.gaugeSettings v).openBytes
  | .formatted n generation bad unusable => (Payload.formatted n generation bad unusable).openBytes

/-- A notice's payload bytes: free, and at most as many as a payload holds (log entry 10). -/
def Notice.openBytes (n : Notice) : List Byte := (Config.openNotice n).take payloadRoom

/-- The 8 bytes of an outbound frame header (section 12.1): `route` is the port with the level in bits 2 and 3. -/
def outboundHeader (kind route length tag code : Nat) : List Byte :=
  [byte kind, byte route] ++ leBytes 2 length ++ leBytes 2 tag ++ [byte code, 0#8]

/-- The whole bytes of a reply frame: kind REPLY, the port and tag of the request, the status (R185, section 12.1). -/
def Reply.frameBytes (r : Reply) : List Byte :=
  outboundHeader 3 (r.port + 4 * r.level) r.payload.bytes.length r.tag r.status.code ++ r.payload.bytes

/-- The whole bytes of a notice frame: kind NOTICE, port 0, tag 0, the notice kind (sections 11.1 and 12.1). -/
def Notice.frameBytes (n : Notice) : List Byte :=
  outboundHeader 4 0 n.openBytes.length 0 n.kind.code ++ n.openBytes

/-- The bytes that a Transmit List entry puts on the line (R183). -/
def TxEntry.frameBytes : TxEntry → List Byte
  | .reply r => r.frameBytes
  | .notice n => n.frameBytes

end Sys2Proof.Machine
end

