-- ==== Sys2Proof/Machine/Ops.lean ====
section
/-! DEFINITION. The shared operations on the state: reading and updating one slot, buffer, entry, segment or survey; stamps;
notices and replies (R184, R185, R186); raising markers (R39). -/

namespace Sys2Proof.Machine

/-! ### Parts of the state -/

/-- The Survey Clock's stamp (R164). -/
def State.stamp (s : State) : Stamp := { seconds := s.clock.seconds, ticks := s.clock.ticks, valid := s.clock.valid }

/-- Slot `i` of the Stream Table. -/
def State.slotAt (s : State) (i : Nat) : Slot := s.slots.getD i {}

/-- Changes slot `i`. -/
def State.modSlot (s : State) (i : Nat) (f : Slot → Slot) : State := { s with slots := s.slots.modify i f }

/-- Changes buffer `b`. -/
def State.modBuffer (s : State) (b : Nat) (f : Buffer → Buffer) : State :=
  { s with pool := { s.pool with buffers := s.pool.buffers.modify b f } }

/-- The bytes in buffer `b`. -/
def State.bufferBytes (s : State) (b : Nat) : List Byte := (s.pool.buffers.getD b {}).bytes

/-- The lowest-numbered FREE buffer (R47). -/
def State.freeBuffer (s : State) : Option Nat := s.pool.buffers.findIdx? (fun b => b.state == .free)

/-- Returns a buffer to FREE; its contents stay (R48). -/
def State.releaseBuffer (s : State) (b : Nat) : State := s.modBuffer b (fun x => { x with state := .free })

/-- The segment at number `g`. -/
def State.segAt (s : State) (g : Nat) : Option Segment := s.media.segs[g]?

/-- Changes segment `g`. -/
def State.modSeg (s : State) (g : Nat) (f : Segment → Segment) : State :=
  { s with media := { s.media with segs := s.media.segs.modify g f } }

/-- Changes the chain fields of segment `g`, where it stands in a chain. -/
def State.modChain (s : State) (g : Nat) (f : ChainInfo → ChainInfo) : State :=
  s.modSeg g (fun x => { x with chain := x.chain.map f })

/-- Puts segment `g` in a state. -/
def State.setSegState (s : State) (g : Nat) (t : SegState) : State := s.modSeg g (fun x => { x with state := t })

/-- The chain fields of segment `g`. -/
def State.chainAt (s : State) (g : Nat) : Option ChainInfo := (s.segAt g).bind Segment.chain

/-- The Survey Table entry with a number. -/
def State.surveyAt (s : State) (n : Nat) : Option Survey := s.table.surveys.find? (fun v => v.number == n)

/-- Changes the Survey Table entry with a number. -/
def State.modSurvey (s : State) (n : Nat) (f : Survey → Survey) : State :=
  { s with table := { s.table with surveys := s.table.surveys.map (fun v => if v.number = n then f v else v) } }

/-- The entry with a confirmed flag set (R3, R87). -/
def State.confirmedSurvey (s : State) (n : Nat) : Option Survey :=
  match s.surveyAt n with
  | some v => if v.confirmed then some v else none
  | none => none

/-- The chain head of a stream index of a survey. -/
def Survey.headOf (v : Survey) (i : Nat) : Option Nat := (v.heads[i]?).join

/-- The chain tail of a stream index of a survey. -/
def Survey.tailOf (v : Survey) (i : Nat) : Option Nat := (v.tails[i]?).join

/-- The chain tail of a stream (R63). -/
def State.tailOf (s : State) (survey index : Nat) : Option Nat := (s.surveyAt survey).bind (fun v => v.tailOf index)

/-- Changes the Commit Queue entry of buffer `b`. -/
def State.modEntry (s : State) (b : Nat) (f : Entry → Entry) : State :=
  { s with queue := s.queue.map (fun e => if e.buffer = b then f e else e) }

/-- The Commit Queue entry of buffer `b`. -/
def State.entryAt (s : State) (b : Nat) : Option Entry := s.queue.find? (fun e => e.buffer == b)

/-- N, the number of segments (R57). -/
def State.segCount (s : State) : Nat := s.media.segs.length

/-! ### Notices (R184) -/

/-- Whether a kind is enabled. -/
def NoticeMask.enabled (m : NoticeMask) : NoticeKind → Bool
  | .mounted => m.mounted
  | .drop => m.drop
  | .battery => m.battery
  | .stream => m.stream
  | .media => m.media
  | .sampler => m.sampler
  | .report => m.report

/-- Whether a Transmit List entry is a notice of a kind. -/
def TxEntry.isNotice (k : NoticeKind) : TxEntry → Bool
  | .notice n => n.kind == k
  | .reply _ => false

/-- A notice joins the Transmit List: a pending notice of its kind whose transmission has not begun takes the new payload in its
place; otherwise the notice joins the tail. The head of the list is the frame on the line from the event that put it there (R183,
R184; log entry 47). -/
def placeNotice (tx : List TxEntry) (n : Notice) : List TxEntry :=
  match tx with
  | [] => [.notice n]
  | h :: rest =>
    if rest.any (TxEntry.isNotice n.kind) then h :: rest.map (fun e => if e.isNotice n.kind then .notice n else e)
    else h :: rest ++ [.notice n]

/-- A notice is raised: dropped if its kind is disabled, else placed (R184). -/
def State.raise (s : State) (n : Notice) : State :=
  if s.port.mask.enabled n.kind then { s with port := { s.port with tx := placeNotice s.port.tx n } } else s

/-! ### Replies (R183, R185, R186) -/

/-- A reply joins the tail of the Transmit List (R183). -/
def State.pushReply (s : State) (r : Reply) : State :=
  { s with port := { s.port with tx := s.port.tx ++ [.reply r] } }

/-- The replies in ordinary places (R183). -/
def ordinaryReplies (tx : List TxEntry) : Nat :=
  tx.countP (fun e => match e with | .reply r => !r.kept | .notice _ => false)

/-- Whether the kept place is occupied (R183). -/
def keptOccupied (tx : List TxEntry) : Bool :=
  tx.any (fun e => match e with | .reply r => r.kept | .notice _ => false)

/-- The command in the Operation Slot ends: its reply takes the kept place unless it is suppressed, and the slot becomes
empty (R186). -/
def State.completeOp (s : State) (status : Status) (payload : Payload) : State :=
  match s.slot with
  | none => s
  | some o =>
    let s := { s with slot := none }
    if o.suppressed then s
    else s.pushReply { port := o.port, tag := o.tag, level := o.level, status := status, kept := true, payload := payload }

/-! ### Markers (R39) -/

/-- Whether a slot takes a marker: a stream whose STOP marker has been written takes none (R7, R39). -/
def Slot.takesMarkers (x : Slot) : Bool := !(x.stopping && x.markers.stop.isNone)

/-- Raises a GAP marker, or adds to the pending one (R13, R39). -/
def Slot.raiseGap (x : Slot) (t : Stamp) (count : Nat) : Slot :=
  if x.takesMarkers then
    { x with markers := { x.markers with gap := some (match x.markers.gap with
        | some g => { g with count := satAdd 65535 g.count count }
        | none => { stamp := t, index := x.outputIndex, count := count }) } }
  else x

/-- Raises a LOSS marker of one frame, or adds to the pending one, which keeps its reason (R16, R39). -/
def Slot.raiseLoss (x : Slot) (t : Stamp) (reason : LossReason) : Slot :=
  if x.takesMarkers then
    { x with markers := { x.markers with loss := some (match x.markers.loss with
        | some l => { l with count := satAdd 65535 l.count 1 }
        | none => { stamp := t, count := 1, reason := reason }) } }
  else x

/-- Raises a DROP marker; a pending one keeps its first drop number (R39). -/
def Slot.raiseDrop (x : Slot) (t : Stamp) (number : Nat) (kind : DropKind) : Slot :=
  if x.takesMarkers then
    { x with markers := { x.markers with drop := some (x.markers.drop.getD { stamp := t, number := number, kind := kind }) } }
  else x

/-- Raises a PAUSE marker: a pending RESUME is removed, and a pending PAUSE keeps its first reason (R39). -/
def Slot.raisePause (x : Slot) (t : Stamp) (reason : PauseReason) : Slot :=
  if x.takesMarkers then
    { x with markers := { x.markers with
        resume := none
        pause := some (x.markers.pause.getD { stamp := t, index := x.outputIndex, reason := reason }) } }
  else x

/-- Raises a RESUME marker (R5, R39), noting whether a POWER marker was raised before it (R40). A pending RESUME keeps what it noted,
also where a POWER marker was raised since and a second start merges into it (DEDUCED, log entry 38). -/
def Slot.raiseResume (x : Slot) (t : Stamp) : Slot :=
  if x.takesMarkers then
    { x with markers := { x.markers with
        resume := some (x.markers.resume.getD
          { stamp := t, index := x.outputIndex, afterPower := x.markers.power.isSome }) } }
  else x

/-- Raises a POWER marker; a pending one keeps its first reason (R39). -/
def Slot.raisePower (x : Slot) (t : Stamp) (reason : PowerReason) : Slot :=
  if x.takesMarkers then
    { x with markers := { x.markers with
        power := some (x.markers.power.getD { stamp := t, index := x.outputIndex, reason := reason }) } }
  else x

/-- Discards the partial sum (R23). -/
def Slot.discardSum (x : Slot) : Slot := { x with acc := 0, fill := 0 }

/-! ### Media bookkeeping shared by the blocks -/

/-- Counts a page of a segment void; a segment whose count reaches 2 becomes BAD, with a MEDIA notice (R75, R76). -/
def State.countVoid (s : State) (g : Nat) : State :=
  let s := s.modChain g (fun c => { c with voids := satAdd 255 c.voids 1 })
  match s.chainAt g with
  | some c => if 2 ≤ c.voids then (s.setSegState g .bad).raise (.media (.bad g)) else s
  | none => s

/-- The pages of a segment disturbed by an erase that did not succeed (log entry 3). -/
def State.disturbSegment (s : State) (g : Nat) : State :=
  { s with media := { s.media with flash := Flash.disturbSegment s.media.flash g s.freeCount }, freeCount := s.freeCount + 256 }

/-- The page disturbed by a program that did not succeed (log entry 3). -/
def State.disturbPage (s : State) (g p : Nat) : State :=
  { s with media := { s.media with flash := Flash.write s.media.flash (Flash.key g p) (.disturbed s.freeCount) },
           freeCount := s.freeCount + 1 }

/-- A program ends: on success the page holds what was sent; the port is idle (R70, R74). -/
def State.endProgram (s : State) (g p : Nat) (ok : Bool) : State :=
  let s := if ok then
      match s.media.image with
      | some im => { s with media := { s.media with flash := Flash.write s.media.flash (Flash.key g p) (.page im) } }
      | none => s
    else s.disturbPage g p
  { s with media := { s.media with op := none, image := none } }

/-- An erase ends: on success every page reads as all ones; the port is idle (R57, R74). -/
def State.endErase (s : State) (g : Nat) (ok : Bool) : State :=
  let s := if ok then { s with media := { s.media with flash := Flash.eraseSegment s.media.flash g } } else s.disturbSegment g
  { s with media := { s.media with op := none } }

/-- A read ends: the port is idle. -/
def State.endRead (s : State) : State := { s with media := { s.media with op := none } }

end Sys2Proof.Machine
end

