-- ==== Sys2Proof/Machine/Flags.lean ====
section
/-! DEFINITION. The conditions that the blocks read from the state: live streams, unused segments, HOLD, what a wait is for. -/

namespace Sys2Proof.Machine

/-- A slot that holds a live stream: LOADED, RUNNING or PAUSED (section 1.1). -/
def Slot.live (x : Slot) : Bool :=
  match x.state with
  | .loaded => true
  | .running => true
  | .paused => true
  | .empty => false
  | .stopped => false

/-- The slots whose number satisfies a test, ascending. -/
def State.slotsWhere (s : State) (f : Slot → Bool) : List Nat :=
  (List.range s.slots.length).filter (fun i => f (s.slotAt i))

/-- The number of live streams, counting slots with their loading mark set (R68). -/
def State.liveCount (s : State) : Nat := s.slots.countP (fun x => x.live || x.loading)

/-- Whether the erase in flight is an erase-ahead erase. -/
def State.aheadInFlight (s : State) : Option Nat :=
  match s.media.op with
  | some (.aheadErase g) => some g
  | _ => none

/-- The number of unused segments: the Ready List, the Free List, and an erase-ahead erase in flight (R68). -/
def State.unused (s : State) : Nat :=
  s.media.ready.length + s.media.free.length + (if s.aheadInFlight.isSome then 1 else 0)

/-- HOLD is asserted while 1 or fewer receive slots are free, and always in OFF (R181). -/
def State.holdWanted (s : State) : Bool := decide (7 ≤ s.port.rx.length) || s.power.state == .off

/-- The port judges HOLD (R181). -/
def State.judgeHold (s : State) : State := { s with port := { s.port with hold := s.holdWanted } }

/-- Whether a Commit Queue entry keeps VERIFY from being done (R138). -/
def Entry.inDoubt (e : Entry) : Bool :=
  match e.state with
  | .suspect => true
  | .verifying => true
  | .programming => true
  | .waiting => false
  | .held => false

/-- The log is busy while its pending list is not empty or a rollover is in progress (R96). -/
def State.logBusy (s : State) : Bool := !s.log.waiting.isEmpty || s.log.rollover != .none

/-- The four conditions that DOZE entry and shutdown wait for (R169, R172): closes complete, queue empty, WATCH, log not busy. -/
def State.quiescent (s : State) : Bool :=
  s.pool.streamWaiters.isEmpty && s.queue.isEmpty && s.monitor.state == .watch && !s.logBusy

/-- Whether a take is in progress for a stream's page issue (R64). -/
def State.takeFor (s : State) (slot : Nat) : Bool := s.media.takes.any (fun t => !t.load && t.slot == slot)

/-- What holds the idle timer at 0 (R168). -/
def State.idleHeld (s : State) : Bool :=
  s.slots.any (fun x => x.state == .running) || s.slot.isSome || s.power.phase != .ready || s.power.procedure != .none
    || s.power.state != .active

/-- Holds the idle timer at 0 while one of its conditions stands (R168). -/
def State.holdIdle (s : State) : State := if s.idleHeld then { s with power := { s.power with idleTimer := 0 } } else s

/-- A HELD entry that retires: its retire count and the WATCH count have both reached 8, the monitor in WATCH (R51). -/
def State.retires (s : State) (e : Entry) : Bool :=
  e.state == .held && decide (8 ≤ e.retire) && s.monitor.state == .watch && decide (8 ≤ s.monitor.watchCount)

/-- Whether a stop completes (R8): the STOP marker is written and its page pushed, and no queue entry of the stream is left. -/
def State.stopReady (s : State) (i : Nat) : Bool :=
  let x := s.slotAt i
  x.stopping && x.markers.stop.isNone && x.page.isNone && !s.pool.streamWaiters.contains i
    && !s.queue.any (fun e => e.slot == i)

/-- Whether a close's entry is to be requested (R90): the survey is CLOSING, has no live stream, and its closed stamp is not set. -/
def State.closeReady (s : State) (v : Survey) : Bool :=
  v.state == .closing && v.closed.isNone
    && !s.slots.any (fun x => x.live && (match x.desc with | some d => d.survey == v.number | none => false))

end Sys2Proof.Machine
end

