-- ==== Sys2Proof/Machine/Conditioning.lean ====
section
/-! DEFINITION. Sample conditioning (Chapter 2): from one raw sample to an output sample. -/

namespace Sys2Proof.Machine

/-- The total shift T = k + S, k = log2 D (section 2.1). For a stored D that is none of the seven values, k is the floor of log2 D, and 0
for D = 0 (DESIGN CHOICE, log entry 45). -/
def Descriptor.totalShift (d : Descriptor) : Nat := Nat.log2 d.decimation + d.shift

/-- Rounding of p / 2^T on the floor quotient and the non-negative remainder (R26). -/
def roundShift (mode : Rounding) (t : Nat) (p : Int) : Int :=
  if t = 0 then p
  else
    let m : Int := (2 ^ t : Nat)
    let f := p / m
    let r := p % m
    let h : Int := (2 ^ (t - 1) : Nat)
    match mode with
    | .floor => f
    | .halfUp => if r < h then f else f + 1
    | .halfEven => if r < h then f else if h < r then f + 1 else if f % 2 = 0 then f else f + 1

/-- The lowest value of an output width (R28). -/
def Width.lowest : Width → Int
  | .w16 => -32768
  | .w32 => -2147483648

/-- The highest value of an output width (R28). -/
def Width.highest : Width → Int
  | .w16 => 32767
  | .w32 => 2147483647

/-- The clamped value and whether it was clipped (R28). -/
def saturate (w : Width) (v : Int) : Int × Bool :=
  if v < w.lowest then (w.lowest, true) else if w.highest < v then (w.highest, true) else (v, false)

/-- Whether a value lies inside the window (section 2.6). -/
def Descriptor.inside (d : Descriptor) (y : Int) : Bool := decide (d.low ≤ y) && decide (y ≤ d.high)

/-- Whether the window keeps a value (R29, R30). -/
def Descriptor.keeps (d : Descriptor) (y : Int) : Bool :=
  match d.mode with
  | .off => true
  | .mark => true
  | .keepInside => d.inside y
  | .keepOutside => !d.inside y

/-- The mark of a sample in MARK mode (R29). -/
def Descriptor.markOf (d : Descriptor) (y : Int) (clipped : Bool) : Nat :=
  if clipped then 3 else if y < d.low then 1 else if d.high < y then 2 else 0

/-- An output sample (R32). -/
structure Output where
  value : Int
  clipped : Bool
  kept : Bool
  mark : Nat
  index : Nat
deriving DecidableEq, Repr

/-- The output sample of a completed group (R25 to R31). -/
def conditionGroup (d : Descriptor) (acc : Int) (index : Nat) : Output :=
  let q := roundShift d.rounding d.totalShift (acc * d.gain)
  let y := saturate d.width (q + d.offset)
  { value := y.1, clipped := y.2, kept := d.keeps y.1, mark := d.markOf y.1 y.2, index := index }

/-- One raw sample is added; a completed group gives an output sample, and the accumulator and fill count return to 0 (R22). A stored D
that is none of the seven values completes a group at its own number of samples, and D = 0 at each (DESIGN CHOICE, log entry 45). -/
def Slot.accumulate (x : Slot) (d : Descriptor) (raw : Int) : Slot × Option Output :=
  let acc := x.acc + raw
  if x.fill + 1 < d.decimation then ({ x with acc := acc, fill := x.fill + 1 }, none)
  else
    let o := conditionGroup d acc x.outputIndex
    ({ x with acc := 0, fill := 0, outputIndex := wrap32 (x.outputIndex + 1),
              counters := { x.counters with
                samplesClipped := satAdd max32 x.counters.samplesClipped (if o.clipped then 1 else 0)
                samplesOut := satAdd max32 x.counters.samplesOut (if o.kept then 1 else 0)
                samplesGated := satAdd max32 x.counters.samplesGated (if o.kept then 0 else 1) } }, some o)

end Sys2Proof.Machine
end

