-- ==== Sys2Proof/Machine/Records.lean ====
section
/-! DEFINITION. The record builder, fill pages, requested closes and imposed pauses (Chapter 3 and R11). Every operation acts on
slot `i` of the Stream Table. -/

namespace Sys2Proof.Machine

/-- The bytes used in a slot's fill page, its open record included (R35, R44). -/
def State.pageUsed (s : State) (i : Nat) : Nat :=
  let x := s.slotAt i
  (match x.page with
    | some p => (s.bufferBytes p.buffer).length
    | none => 0)
  + (match x.openRec, x.desc with
    | some r, some d => r.size d
    | _, _ => 0)

/-- Closes the open record: its bytes stand in the fill page as written (R38). -/
def State.closeOpen (s : State) (i : Nat) : State :=
  let x := s.slotAt i
  match x.openRec, x.desc, x.page with
  | some r, some d, some p =>
    (s.modBuffer p.buffer (fun b => { b with bytes := b.bytes ++ r.bytes d })).modSlot i (fun x => { x with openRec := none })
  | _, _, _ => s

/-- The stream takes the lowest-numbered FREE buffer as its fill page, if there is one (R44, R47). -/
def State.takeBuffer (s : State) (i : Nat) : Option State :=
  match s.freeBuffer with
  | some b => some ((s.modBuffer b (fun _ => { state := .filling, bytes := [] })).modSlot i
      (fun x => { x with page := some { buffer := b, firstSeq := 0, count := 0 } }))
  | none => none

/-- A record takes its place in the fill page: the next record sequence, which rises by 1, and a place in the page's count
(R36). -/
def Slot.placeRecord (x : Slot) : Slot :=
  { x with
    nextSeq := wrap32 (x.nextSeq + 1)
    page := x.page.map (fun p =>
      { p with firstSeq := if p.count = 0 then x.nextSeq else p.firstSeq, count := p.count + 1 }) }

/-- The Commit Queue entry of a pushed page (R50), with the summary fixed at its closing (R44). Its retire
count begins at 0 (DESIGN CHOICE, log entry 48). -/
def pushedEntry (i : Nat) (d : Descriptor) (p : FillPage) (used : Nat) : Entry :=
  { buffer := p.buffer, slot := i, survey := d.survey, index := d.index, firstSeq := p.firstSeq, count := p.count, used := used,
    target := none, state := .waiting, rewrite := false, failures := 0, retire := 0 }

/-- Closes the fill page: the open record is closed, the trailer summary fixed, the tail padded with all ones, and the buffer
pushed to the tail of the Commit Queue (R44, R50). -/
def State.pushPage (s : State) (i : Nat) : State :=
  let s := s.closeOpen i
  let x := s.slotAt i
  match x.page, x.desc with
  | some p, some d =>
    let used := (s.bufferBytes p.buffer).length
    let s := s.modBuffer p.buffer (fun b => { state := .queued, bytes := padOnes 4096 b.bytes })
    let s := s.modSlot i (fun x => { x with page := none })
    { s with queue := s.queue ++ [pushedEntry i d p used] }
  | _, _ => s

/-- The kinds of marker. -/
inductive MarkerKind where
  | loss | gap | drop | pause | resume | power | stop
deriving DecidableEq, Repr

/-- The pending markers in the order in which they are written (R40). -/
def Markers.order (m : Markers) : List MarkerKind :=
  let powerFirst := m.power.isSome && (match m.resume with | some r => r.afterPower | none => false)
  (if m.loss.isSome then [.loss] else []) ++ (if m.gap.isSome then [.gap] else []) ++ (if m.drop.isSome then [.drop] else [])
    ++ (if m.pause.isSome then [.pause] else []) ++ (if powerFirst then [.power] else [])
    ++ (if m.resume.isSome then [.resume] else []) ++ (if m.power.isSome && !powerFirst then [.power] else [])
    ++ (if m.stop.isSome then [.stop] else [])

/-- The kind that a DROP marker is written with: that of the drop in progress or of the Drop List's record with its number,
else the kind it kept (R143). -/
def State.markerDropKind (s : State) (m : DropMarker) : DropKind :=
  match s.monitor.drop with
  | some r => if r.number = m.number then r.kind else listed
  | none => listed
where
  listed : DropKind :=
    match s.monitor.drops.find? (fun r => r.number == m.number) with
    | some r => r.kind
    | none => m.kind

/-- The 20 bytes of a pending marker (R34). -/
def State.markerRecord (s : State) (x : Slot) (d : Descriptor) (k : MarkerKind) : List Byte :=
  let m := x.markers
  match k with
  | .loss => match m.loss with | some v => markerBytes 3 v.count v.reason.code x.nextSeq v.stamp d | none => []
  | .gap => match m.gap with | some v => markerBytes 2 v.count v.index x.nextSeq v.stamp d | none => []
  | .drop => match m.drop with | some v => markerBytes 4 (s.markerDropKind v).code v.number x.nextSeq v.stamp d | none => []
  | .pause => match m.pause with | some v => markerBytes 5 v.reason.code v.index x.nextSeq v.stamp d | none => []
  | .resume => match m.resume with | some v => markerBytes 6 0 v.index x.nextSeq v.stamp d | none => []
  | .power => match m.power with | some v => markerBytes 7 v.reason.code v.index x.nextSeq v.stamp d | none => []
  | .stop => match m.stop with | some v => markerBytes 8 0 v.index x.nextSeq v.stamp d | none => []

/-- A written marker leaves the pending set (R39); a RESUME marker that stays pending then stands before a POWER marker raised
afterwards (R40). -/
def Markers.without (m : Markers) : MarkerKind → Markers
  | .loss => { m with loss := none }
  | .gap => { m with gap := none }
  | .drop => { m with drop := none }
  | .pause => { m with pause := none }
  | .resume => { m with resume := none }
  | .power => { m with power := none, resume := m.resume.map (fun r => { r with afterPower := false }) }
  | .stop => { m with stop := none }

/-- Makes room for `need` bytes in a fill page with no open record: a page without room is closed, and a stream without a page
takes one. Whether there is room at the end (R41, R44). -/
def State.makeRoom (s : State) (i need : Nat) : State × Bool :=
  let s := if (s.slotAt i).page.isSome && decide (4096 < s.pageUsed i + need) then s.pushPage i else s
  if (s.slotAt i).page.isSome then (s, true)
  else match s.takeBuffer i with
    | some s' => (s', true)
    | none => (s, false)

/-- Writes one pending marker; whether it could be written (R41, R42). -/
def State.writeMarker (s : State) (i : Nat) (k : MarkerKind) : State × Bool :=
  let (s, room) := s.makeRoom i 20
  let x := s.slotAt i
  match room, x.page, x.desc with
  | true, some p, some d =>
    let s := s.modBuffer p.buffer (fun b => { b with bytes := b.bytes ++ s.markerRecord x d k })
    (s.modSlot i (fun x => { x.placeRecord with markers := x.markers.without k }), true)
  | _, _, _ => (s, false)

/-- Writes markers one after another, stopping at the first that cannot be written (R42). -/
def State.writeMarkerList (s : State) (i : Nat) : List MarkerKind → State × Bool
  | [] => (s, true)
  | k :: ks =>
    match s.writeMarker i k with
    | (s', true) => s'.writeMarkerList i ks
    | (s', false) => (s', false)

/-- Writes every pending marker of a stream; whether all were written (R41, R42). -/
def State.writeMarkers (s : State) (i : Nat) : State × Bool := s.writeMarkerList i (s.slotAt i).markers.order

/-- The stream joins the pool's wait list, once (R45, R47). -/
def State.joinWaitList (s : State) (i : Nat) : State :=
  if s.pool.streamWaiters.contains i then s
  else { s with pool := { s.pool with streamWaiters := s.pool.streamWaiters ++ [i] } }

/-- A requested close of a stream's fill page (R45). -/
def State.requestClose (s : State) (i : Nat) : State :=
  match (s.closeOpen i).writeMarkers i with
  | (s', true) => if (s'.slotAt i).page.isSome then s'.pushPage i else s'
  | (s', false) => s'.joinWaitList i

/-- Requested closes of several streams, in the order given. -/
def State.requestCloses (s : State) : List Nat → State
  | [] => s
  | i :: is => (s.requestClose i).requestCloses is

/-- The DATA record that a kept sample opens (R37). -/
def openRecordOf (x : Slot) (o : Output) (t : Stamp) (mark : Option (List Byte)) : OpenRecord :=
  { sequence := x.nextSeq, stamp := t, timeMark := mark, firstIndex := o.index, clipped := o.clipped, values := [o.value],
    marks := [o.mark] }

/-- Opens a DATA record at a kept sample; whether it found a place (R37, R43, R44). -/
def State.openData (s : State) (i : Nat) (d : Descriptor) (o : Output) (t : Stamp) (mark : Option (List Byte)) : State × Bool :=
  let (s, room) := s.makeRoom i (dataSize mark.isSome (d.mode = .mark) d.width 1)
  if room then
    (s.modSlot i (fun x => { x.placeRecord with openRec := some (openRecordOf x o t mark) }), true)
  else (s, false)

/-- A record with one more sample (R38). -/
def OpenRecord.append (r : OpenRecord) (o : Output) : OpenRecord :=
  { r with values := r.values ++ [o.value], marks := r.marks ++ [o.mark], clipped := r.clipped || o.clipped }

/-- Appends a kept sample to the open record, closing it at R samples; a record that would not fit is closed with its page, and
the sample opens a record in a new page (R38, R44). -/
def State.appendSample (s : State) (i : Nat) (d : Descriptor) (r : OpenRecord) (o : Output) (t : Stamp)
    (mark : Option (List Byte)) : State × Bool :=
  let r' := r.append o
  if s.pageUsed i - r.size d + r'.size d ≤ 4096 then
    let s := s.modSlot i (fun x => { x with openRec := some r' })
    (if d.recordLength ≤ r'.values.length then s.closeOpen i else s, true)
  else (s.pushPage i).openData i d o t mark

/-- A kept sample is handed to the record builder; whether it found a place (R37, R38, R41, R43). -/
def State.placeSample (s : State) (i : Nat) (d : Descriptor) (o : Output) (t : Stamp) (mark : Option (List Byte)) :
    State × Bool :=
  if (s.slotAt i).markers.order.isEmpty then
    match (s.slotAt i).openRec with
    | some r => s.appendSample i d r o t mark
    | none => s.openData i d o t mark
  else
    match (s.closeOpen i).writeMarkers i with
    | (s', true) => s'.openData i d o t mark
    | (s', false) => (s', false)

/-- A loss adds to the pending LOSS marker; creating one raises a STREAM notice (R16). -/
def State.loseFrame (s : State) (i : Nat) (reason : LossReason) : State :=
  let created := (s.slotAt i).markers.loss.isNone && (s.slotAt i).takesMarkers
  let s := s.modSlot i (fun x => x.raiseLoss s.stamp reason)
  if created then s.raise (.stream i .running (.loss reason)) else s

/-- The raw samples of an admitted frame, one at a time (R15, R21, R22, R32). `noPlace` says that a kept sample of the frame has
found no place, so that every later one finds none either (R43). -/
def State.takeSamples (s : State) (i : Nat) (d : Descriptor) (t : Stamp) (mark : Option (List Byte)) (noPlace : Bool) :
    List Int → State
  | [] => s
  | raw :: rest =>
    let (x, o) := (s.slotAt i).accumulate d raw
    let s := s.modSlot i (fun _ => x)
    match o with
    | none => s.takeSamples i d t mark noPlace rest
    | some o =>
      if !o.kept then (s.closeOpen i).takeSamples i d t mark noPlace rest
      else if noPlace then s.takeSamples i d t mark true rest
      else match s.placeSample i d o t mark with
        | (s', true) => s'.takeSamples i d t mark false rest
        | (s', false) => (s'.loseFrame i .pool).takeSamples i d t mark true rest

/-- A pause imposed on a RUNNING slot by RESERVE or media-full (R11). -/
def State.imposePause (s : State) (reason : PauseReason) (i : Nat) : State :=
  let s := (s.closeOpen i).modSlot i (fun x =>
    { (x.discardSum.raisePause s.stamp reason) with state := .paused, reason := some reason })
  s.raise (.stream i .paused (.pause (some reason)))

/-- Imposes a pause on several slots, in the order given. -/
def State.imposePauses (s : State) (reason : PauseReason) : List Nat → State
  | [] => s
  | i :: is => (s.imposePause reason i).imposePauses reason is

/-- Every RUNNING stream is paused with a reason, lowest slot first (R11; the order is log entry 9). -/
def State.pauseRunning (s : State) (reason : PauseReason) : State :=
  s.imposePauses reason (s.slotsWhere (fun x => x.state == .running))

/-- The entry to CRITICAL at one RUNNING or PAUSED slot: POWER(CRITICAL), requested close, PAUSED(CRITICAL) but for a slot with
its stop mark set, which keeps its pause reason (R7, R11, R45). -/
def State.criticalPause (s : State) (i : Nat) : State :=
  let s := (s.closeOpen i).modSlot i (fun x =>
    let y := x.discardSum.raisePower s.stamp .critical
    { y with state := .paused, reason := if x.stopping then x.reason else some .critical })
  let s := s.requestClose i
  s.raise (.stream i .paused (.pause (s.slotAt i).reason))

/-- The entry to CRITICAL at several slots, in the order given. -/
def State.criticalPauses (s : State) : List Nat → State
  | [] => s
  | i :: is => (s.criticalPause i).criticalPauses is

/-- The Capture Unit's part of the entry to CRITICAL, lowest slot first (R11; the order is log entry 9). -/
def State.enterCriticalStreams (s : State) : State :=
  s.criticalPauses (s.slotsWhere (fun x => x.state == .running || x.state == .paused))

/-- A slot goes into a stop by the steps of R7, and its page is closed on request (R7, R45, R89). -/
def State.beginStop (s : State) (i : Nat) : State :=
  let s := (s.closeOpen i).modSlot i (fun x =>
    { x.discardSum with
      markers := { x.markers with stop := some { stamp := s.stamp, index := x.outputIndex } }
      state := .paused
      reason := if x.state = .paused then x.reason else some .command
      stopping := true })
  s.requestClose i

/-- Stops of several slots, in the order given. -/
def State.beginStops (s : State) : List Nat → State
  | [] => s
  | i :: is => (s.beginStop i).beginStops is

end Sys2Proof.Machine
end

