-- ==== Sys2Proof/Machine/Media.lean ====
section
/-! DEFINITION. The Media Controller (Chapter 4): takes, header programs, chains, media-full, erases, and the Media Arbiter. -/

namespace Sys2Proof.Machine

/-! ### The media-full condition (R68, R69) -/

/-- The test made after a take, and once at the end of mount without pausing (R68, R69). The STREAM notices of the pauses are raised
before the MEDIA notice (DESIGN CHOICE, log entry 54). -/
def State.testMediaFull (s : State) (pausing : Bool) : State :=
  if !s.media.mediaFull && decide (s.unused ≤ s.liveCount) then
    let cause := MediaCause.mediaFull s.unused s.liveCount
    let s := { s with media := { s.media with mediaFull := true } }
    let s := if pausing then s.pauseRunning .mediaFull else s
    s.raise (.media cause)
  else s

/-- The test for clearing, made after a survey erase and after a STREAM-CLEAR (R69). -/
def State.testMediaAvailable (s : State) : State :=
  if s.media.mediaFull && decide (s.liveCount < s.unused) then
    let cause := MediaCause.mediaAvailable s.unused s.liveCount
    ({ s with media := { s.media with mediaFull := false } }).raise (.media cause)
  else s

/-! ### Takes (R64) -/

/-- Whether two takes are for the same requester. -/
def Take.same (a b : Take) : Bool := a.load == b.load && a.slot == b.slot

/-- Records where a take stands. A take keeps its place in the order in which the takes were made, one that is made again too (R70 does
not say; DESIGN CHOICE, log entry 63). -/
def State.putTake (s : State) (t : Take) : State :=
  let takes := if s.media.takes.any (Take.same t) then s.media.takes.map (fun u => if Take.same t u then t else u)
    else s.media.takes ++ [t]
  { s with media := { s.media with takes := takes, segWaiters := if t.load then s.media.segWaiters
      else s.media.segWaiters.filter (fun i => i != t.slot) } }

/-- Removes a take. -/
def State.dropTake (s : State) (t : Take) : State :=
  { s with media := { s.media with takes := s.media.takes.filter (fun u => !Take.same t u) } }

/-- A load ends with MEDIA: the loading mark clears, and the slot keeps what it held (R4). -/
def State.failLoad (s : State) (slot : Nat) : State :=
  (s.modSlot slot (fun x => { x with loading := false })).completeOp .media .none

/-- A take that finds no segment is not made (R64 step 4). -/
def State.refuseTake (s : State) (t : Take) : State :=
  let s := s.dropTake t
  if t.load then s.failLoad t.slot
  else if s.media.segWaiters.contains t.slot then s
  else ({ s with media := { s.media with segWaiters := s.media.segWaiters ++ [t.slot] } }).raise (.media (.noSegment t.slot))

/-- A take is made, from step 1 (R64). -/
def State.makeTake (s : State) (t : Take) : State :=
  match s.media.ready with
  | g :: rest =>
    let s := { s with media := { s.media with ready := rest } }
    ((s.setSegState g .taken).putTake { t with phase := .header g }).testMediaFull true
  | [] =>
    match s.aheadInFlight with
    | some _ => s.putTake { t with phase := .onAhead }
    | none =>
      match s.media.free with
      | g :: rest =>
        let s := { s with media := { s.media with free := rest } }
        ((s.setSegState g .erasing).putTake { t with phase := .erase g }).testMediaFull true
      | [] => s.refuseTake t

/-- Takes made again from step 1, in the order they began. Each keeps the first record sequence it first began with (DESIGN CHOICE,
log entry 58). -/
def State.remakeTakes (s : State) : List Take → State
  | [] => s
  | t :: ts => (s.makeTake t).remakeTakes ts

/-- The take that a Commit Queue entry needs (R64). -/
def Entry.take (e : Entry) : Take :=
  { load := false, slot := e.slot, survey := e.survey, index := e.index, firstSeq := e.firstSeq, phase := .remake, headerFails := 0 }

/-- Each stream marked as waiting for a segment is offered a take, in the order in which they were marked (R64; log entry 9). -/
def State.offerTakes (s : State) : List Nat → State
  | [] => s
  | i :: is =>
    let s' : State := match s.queue.find? (fun e => e.state == .waiting && e.slot == i) with
      | some e => s.makeTake e.take
      | none => s
    s'.offerTakes is

/-- The offer made at an event that adds a segment to a list (R64). -/
def State.offerAll (s : State) : State := s.offerTakes s.media.segWaiters

/-! ### Header programs (R65) -/

/-- The stream descriptor of a take's header page: the slot's kept-from-load fields, or the STREAM-LOAD's (R65). -/
def State.takeDescriptor (s : State) (t : Take) : Option Descriptor :=
  if t.load then
    match s.slot with
    | some o => match o.request with
      | .streamLoad _ d => some d
      | _ => none
    | none => none
  else (s.slotAt t.slot).desc

/-- The segment sequence a take's segment gets: 0 for a load, otherwise the tail's plus 1 (R65). -/
def State.takeSeq (s : State) (t : Take) : Nat :=
  if t.load then 0
  else match (s.tailOf t.survey t.index).bind s.chainAt with
    | some c => c.seq + 1
    | none => 0

/-- The header page of a take (R58, R65). -/
def State.headerImage (s : State) (t : Take) : PageImage :=
  composePage (match s.takeDescriptor t with | some d => d.bytes | none => [])
    { kind := 1, rewrite := false, index := t.index, survey := t.survey, generation := s.media.generation, seq := s.takeSeq t,
      count := 0, used := 32, firstSeq := t.firstSeq, seconds := s.clock.seconds, ticks := s.clock.ticks }

/-- A segment joins the tail of its stream's chain as ACTIVE; the previous tail takes a link to it and becomes FULL if it was
ACTIVE (R65). -/
def State.joinChain (s : State) (g : Nat) (t : Take) : State :=
  let info : ChainInfo :=
    { survey := t.survey, index := t.index, seq := s.takeSeq t, firstSeq := t.firstSeq, next := none, writePoint := 1, voids := 0 }
  let s : State := match (if t.load then none else s.tailOf t.survey t.index) with
    | some old =>
      (s.modChain old (fun c => { c with next := some g })).modSeg old
        (fun (x : Segment) => if x.state = .active then { x with state := .full } else x)
    | none => s
  let s := s.modSeg g (fun x => { x with state := .active, chain := some info })
  s.modSurvey t.survey (fun v =>
    { v with
      tails := v.tails.set t.index (some g)
      heads := if t.load then v.heads.set t.index (some g) else v.heads })

/-- The contents of a slot at the completion of its STREAM-LOAD (R4, R33). -/
def Slot.loadedWith (d : Descriptor) : Slot := { state := .loaded, desc := some d }

/-- The completion of a STREAM-LOAD (R4). -/
def State.completeLoad (s : State) (g : Nat) (t : Take) : State :=
  match s.takeDescriptor t with
  | some d =>
    let s := (s.joinChain g t).modSlot t.slot (fun _ => Slot.loadedWith d)
    let s := s.modSurvey t.survey (fun v => { v with streamCount := v.streamCount + 1 })
    s.completeOp .ok .none
  | none => s

/-- A header program fails: the segment goes to the tail of the Free List with its header-failed mark, or, with the mark set
already, becomes BAD outside all lists (R65). -/
def State.rejectHeader (s : State) (g : Nat) : State :=
  match s.segAt g with
  | some x =>
    if x.headerFailed then (s.setSegState g .bad).raise (.media (.bad g))
    else
      let s := s.modSeg g (fun x => { x with state := .free, headerFailed := true })
      ({ s with media := { s.media with free := s.media.free ++ [g] } }).raise (.media (.header g))
  | none => s

/-- The take whose header program is made at a segment. -/
def State.headerTake (s : State) (g : Nat) : Option Take := s.media.takes.find? (fun t => t.phase == .header g)

/-- A header program ends with its outcome (R4, R65). After a failure the take is made again first, and the streams marked as waiting
for a segment are then offered takes (DESIGN CHOICE, log entry 9). The HEADER or BAD notice is raised before what the take made again
raises or answers (DESIGN CHOICE, log entry 54). -/
def State.headerEnd (s : State) (g : Nat) (ok : Bool) : State :=
  let s := s.endProgram g 0 ok
  match s.headerTake g with
  | none => s
  | some t =>
    if ok then
      let s' := s.dropTake t
      if t.load then s'.completeLoad g t else s'.joinChain g t
    else
      let s := s.rejectHeader g
      let t := { t with headerFails := t.headerFails + 1 }
      (if t.load && decide (2 ≤ t.headerFails) then (s.dropTake t).failLoad t.slot else s.makeTake t).offerAll

/-! ### Data segment erases (R77) and their abandonment (R72) -/

/-- A segment made BAD outside all lists by a failed erase (R77). -/
def State.badErase (s : State) (g : Nat) : State :=
  (s.modSeg g (fun x => { x with state := .bad, chain := none })).raise (.media (.erase g))

/-- The takes that wait on the erase-ahead erase, in the order they began. -/
def State.aheadTakes (s : State) : List Take := s.media.takes.filter (fun t => t.phase == .onAhead)

/-- An erase-ahead erase ends (R77). Its segment given to a waiting take is that take's removal of an unused segment, and the
media-full test of R68 is made after it (log entry 51). After a failure the ERASE notice is raised before what the takes made again
raise or answer (DESIGN CHOICE, log entry 54). -/
def State.aheadEnd (s : State) (g : Nat) (ok : Bool) : State :=
  let s := s.endErase g ok
  if ok then
    match s.aheadTakes with
    | t :: ts =>
      (((s.modSeg g (fun x => { x with state := .taken, chain := none })).putTake { t with phase := .header g }).testMediaFull
        true).remakeTakes ts
    | [] =>
      let s := s.modSeg g (fun x => { x with state := .ready, chain := none })
      ({ s with media := { s.media with ready := s.media.ready ++ [g] } }).offerAll
  else
    let s := s.badErase g
    s.remakeTakes s.aheadTakes

/-- An erase for a take ends (R77). After a failure the ERASE notice is raised before what the take made again raises or answers
(DESIGN CHOICE, log entry 54). -/
def State.takeEraseEnd (s : State) (g : Nat) (ok : Bool) : State :=
  let s := s.endErase g ok
  match s.media.takes.find? (fun t => t.phase == .erase g) with
  | none => s
  | some t =>
    if ok then (s.modSeg g (fun x => { x with state := .taken, chain := none })).putTake { t with phase := .header g }
    else (s.badErase g).makeTake t

/-- A segment of an abandoned erase returns to the head of the Free List, its takes to be made again when the park flag is
lowered, and marked streams are offered takes (R64, R72). -/
def State.returnErasing (s : State) (g : Nat) : State :=
  let s := s.setSegState g .free
  let takes := s.media.takes.map (fun t => if t.phase = .onAhead ∨ t.phase = .erase g then { t with phase := .remake } else t)
  ({ s with media := { s.media with free := g :: s.media.free, takes := takes } }).offerAll

/-- An erase in flight is abandoned at the raising of the park flag; other operations run on (R72). A data segment under a FORMAT
erase leaves ERASING for FREE like any other (R61), and joins no list (log entry 21). -/
def State.abandonErase (s : State) : State :=
  match s.media.op with
  | some (.aheadErase g) => (s.endErase g false).returnErasing g
  | some (.takeErase g) => (s.endErase g false).returnErasing g
  | some (.formatErase g) => if g < 4 then s.endErase g false else (s.endErase g false).setSegState g .free
  | some (.indexErase g) => s.endErase g false
  | _ => s

/-- At the lowering of the park flag, the takes that an abandoned erase left are made again (R72). The first record sequence stays that
of the entry a take first began for, also where a verification mismatch has meanwhile put an earlier page of the stream at the
queue's head (R63 does not say; DESIGN CHOICE, log entry 58). -/
def State.parkLowered (s : State) : State := s.remakeTakes (s.media.takes.filter (fun t => t.phase == .remake))

/-! ### The release of a survey's chains (R79) -/

/-- Whether a segment stands in a chain of a survey. -/
def Segment.ofSurvey (x : Segment) (survey : Nat) : Bool :=
  match x.chain with
  | some c => c.survey == survey
  | none => false

/-- Every segment of every chain of a survey is released: BAD ones leave their chains and stay BAD, the others become FREE and
join the tail of the Free List in ascending number (R79). -/
def State.releaseChains (s : State) (survey : Nat) : State :=
  let freed := (List.range s.segCount).filter (fun g =>
    match s.segAt g with
    | some x => x.ofSurvey survey && x.state != .bad
    | none => false)
  { s with media := { s.media with
      free := s.media.free ++ freed
      segs := s.media.segs.map (fun x =>
        if x.ofSurvey survey then { x with chain := none, state := if x.state = .bad then .bad else .free } else x) } }

/-! ### The drain (R66) -/

/-- The target an entry can be given: its stream's ACTIVE segment at a write point of 255 or below (R66). -/
def State.targetOf (s : State) (e : Entry) : Option (Nat × Nat) :=
  match s.tailOf e.survey e.index with
  | none => none
  | some g =>
    match s.segAt g with
    | some x =>
      match x.state, x.chain with
      | .active, some c => if c.writePoint ≤ 255 then some (g, c.writePoint) else none
      | _, _ => none
    | none => none

/-- The trailer of a data page at its issue (R58). -/
def State.dataTrailer (s : State) (e : Entry) (g : Nat) : Trailer :=
  { kind := 2, rewrite := e.rewrite, index := e.index, survey := e.survey, generation := s.media.generation,
    seq := (match s.chainAt g with | some c => c.seq | none => 0), count := e.count, used := e.used, firstSeq := e.firstSeq,
    seconds := s.clock.seconds, ticks := s.clock.ticks }

/-- Starts an operation on the Media Port (R70). -/
def State.startOp (s : State) (op : MediaOp) (image : Option PageImage) : State :=
  { s with media := { s.media with op := some op, image := image } }

/-- Issues an entry at a target: the write point rises, the trailer is completed, and the program starts (R66). -/
def State.issueEntry (s : State) (e : Entry) (g p : Nat) : State :=
  let image := composePage (s.bufferBytes e.buffer) (s.dataTrailer e g)
  let s := s.modChain g (fun c => { c with writePoint := c.writePoint + 1 })
  let s := s.modEntry e.buffer (fun e => { e with target := some (g, p), state := .programming })
  s.startOp (.dataProgram e.buffer g p) (some image)

/-- The drain looks at the WAITING entries, oldest first; `seen` holds the slots of the WAITING entries met before. Whether an
entry was issued (R66). -/
def State.drain (s : State) (seen : List Nat) : List Entry → State × Bool
  | [] => (s, false)
  | e :: es =>
    if e.state != .waiting then s.drain seen es
    else if seen.contains e.slot || s.media.segWaiters.contains e.slot || s.takeFor e.slot then
      s.drain (e.slot :: seen) es
    else
      match s.targetOf e with
      | some (g, p) => (s.issueEntry e g p, true)
      | none => (s.makeTake e.take).drain (e.slot :: seen) es

/-! ### The Media Arbiter (R70 to R73) -/

/-- Whether a Read Engine read waits: the port is idle when this is asked (R71). -/
def State.readWaiting (s : State) : Bool :=
  match s.engine with
  | some c => c.request.isSome
  | none => false

/-- Each data or header program of class 4 that starts while a Read Engine read waits raises the fairness count (R71). -/
def State.countFairness (s : State) : State :=
  if s.readWaiting then { s with media := { s.media with fairness := min 4 (s.media.fairness + 1) } } else s

/-- Class 1: the verification read of the oldest SUSPECT entry, while the monitor is in VERIFY (R70, R76, R138). -/
def State.startVerify (s : State) : Option State :=
  if s.monitor.state == .verify && !s.queue.any (fun e => e.state == .verifying) then
    match s.queue.find? (fun e => e.state == .suspect) with
    | some e =>
      match e.target with
      | some (g, p) => some ((s.modEntry e.buffer (fun e => { e with state := .verifying })).startOp (.verifyRead e.buffer g p) none)
      | none => none
    | none => none
  else none

/-- The trailer of an index page (R58, section 12.3). -/
def State.indexTrailer (s : State) (kind segment used firstSeq : Nat) : Trailer :=
  { kind := kind, rewrite := false, index := segment, survey := 0, generation := s.media.generation, seq := 0, count := 1,
    used := used, firstSeq := firstSeq, seconds := s.clock.seconds, ticks := s.clock.ticks }

/-- Marks the entry at the head of the log's list as issued. -/
def markIssued : List IndexEntry → List IndexEntry
  | [] => []
  | e :: es => { e with issued := true } :: es

/-- Class 2 (a data segment under a FORMAT erase is ERASING while it runs, log entry 21): FORMAT's erases, a rollover's erase and
snapshot, and index entry programs (R70, R96, R99, R102). -/
def State.startIndex (s : State) : Option State :=
  match s.formatRun with
  | some { stage := .erasing g, n := _ } => some ((s.setSegState g (if g < 4 then .index else .erasing)).startOp (.formatErase g) none)
  | _ =>
    match s.log.rollover with
    | .erase c => some (s.startOp (.indexErase c) none)
    | .program c b =>
      some (s.startOp (.snapshotProgram c)
        (some (composePage (s.bufferBytes b) (s.indexTrailer 4 c 3680 (field (s.bufferBytes b) 16 4)))))
    | .waitBuffer _ => none
    | .none =>
      match s.log.stage, s.log.waiting, s.log.current with
      | .request, e :: _, some g =>
        let page := s.log.writePoint
        let image := composePage (match e.buffer with | some b => s.bufferBytes b | none => [])
          (s.indexTrailer 3 g (16 + e.body.bytes.length) (e.seq.getD 0))
        some (({ s with log := { s.log with
          writePoint := page + 1, stage := .inFlight, waiting := markIssued s.log.waiting } }).startOp (.indexProgram g page)
            (some image))
      | _, _, _ => none

/-- The middle of the write-point search's bounds (R177). -/
def middle (low high : Nat) : Nat := (low + high) / 2

/-- The page that mount reads next (R175 to R177). -/
def State.mountTarget (s : State) : Option (Nat × Nat) :=
  match s.mount with
  | .heads next _ => some (next, 0)
  | .replay g p _ _ => some (g, p)
  | .headers next => some (next, 0)
  | .chains ((survey, index) :: _) work _ =>
    match work with
    | .writePoint low high after _ => (s.tailOf survey index).map (fun g => (g, if after then middle low high + 1 else middle low high))
    | .voids (p :: _) _ => (s.tailOf survey index).map (fun g => (g, p))
    | .voids [] _ => none
    | .last g p _ _ => some (g, p)
    | .output g p _ _ => some (g, p)
  | .chains [] _ _ => none
  | .restore (c :: _) _ _ => (s.tailOf c.survey c.index).map (fun g => (g, 0))
  | .restore [] _ _ => none
  | .done => none

/-- Class 3: mount's reads (R70, R174). -/
def State.startMount (s : State) : Option State :=
  (s.mountTarget).map (fun t => s.startOp (.mountRead t.1 t.2) none)

/-- The operation a take requests: its erase or its header program (R64, R65). -/
def State.startTake (s : State) (t : Take) : Option State :=
  match t.phase with
  | .erase g => some (s.startOp (.takeErase g) none)
  | .header g => some (s.countFairness.startOp (.headerProgram g) (some (s.headerImage t)))
  | .onAhead => none
  | .remake => none

/-- The first take of a list with a request. -/
def State.startFirst (s : State) : List Take → Option State
  | [] => none
  | t :: ts =>
    match s.startTake t with
    | some s' => some s'
    | none => s.startFirst ts

/-- Takes in class 4: a load's first, then the others in the order they were made (R70). -/
def State.startTakes (s : State) : Option State :=
  s.startFirst (s.media.takes.filter (fun t => t.load) ++ s.media.takes.filter (fun t => !t.load))

/-- Class 4: takes, then the drain; a take that the drain makes is a request in its turn (R66, R70). The state is given back also
where nothing starts, since the drain may have made a take. -/
def State.startCommit (s : State) : State × Bool :=
  match s.startTakes with
  | some s' => (s', true)
  | none =>
    match s.drain [] s.queue with
    | (s', true) => (s'.countFairness, true)
    | (s', false) =>
      match s'.startTakes with
      | some s'' => (s'', true)
      | none => (s', false)

/-- Class 5: the Read Engine's read (R70, R71, R78). -/
def State.startRead (s : State) : Option State :=
  match s.engine with
  | some c =>
    match c.request with
    | some (g, p) => some (({ s with media := { s.media with fairness := 0 } }).startOp (.engineRead g p false) none)
    | none => none
  | none => none

/-- Class 6: erase-ahead (R67). -/
def State.startAhead (s : State) : State :=
  let waits := s.media.takes.any (fun t => match t.phase with | .onAhead => true | .erase _ => true | .remake => true | .header _ => false)
  if decide (s.media.ready.length < 4) && !waits && s.formatRun.isNone && s.power.phase == .ready then
    match s.media.free with
    | g :: rest => (({ s with media := { s.media with free := rest } }).setSegState g .erasing).startOp (.aheadErase g) none
    | [] => s
  else s

/-- Classes 4 to 6, with the fairness of R71. -/
def State.startLow (s : State) : State :=
  match (if s.media.fairness = 4 then s.startRead else none) with
  | some s' => s'
  | none =>
    match s.startCommit with
    | (s', true) => s'
    | (s', false) =>
      match s'.startRead with
      | some s'' => s''
      | none => s'.startAhead

/-- A choice made with no Read Engine read waiting sets the fairness count to 0 (R71). -/
def State.settleFairness (s : State) : State := if s.readWaiting then s else { s with media := { s.media with fairness := 0 } }

/-- Classes 2 to 6. -/
def State.chooseLow (s : State) : State :=
  match s.startIndex with
  | some s' => s'
  | none =>
    match s.startMount with
    | some s' => s'
    | none => s.startLow

/-- The first class, in order, that has a request it may start (R70). While the park flag is raised requests wait, and only the
start of a verification read is a choice (R72; log entry 53). -/
def State.choose (s : State) : State :=
  match s.startVerify with
  | some s' => s'.settleFairness
  | none => if s.monitor.park then s else s.settleFairness.chooseLow

/-- The Media Arbiter's choice, made when the port is idle and Power Control does not hold it (R70 to R73). -/
def State.arbitrate (s : State) : State :=
  if s.media.op.isSome || s.media.hold || s.power.state == .off then s
  else s.choose

end Sys2Proof.Machine
end

