-- ==== Sys2Proof/Machine/IndexLog.lean ====
section
/-! DEFINITION. The Index Log (section 5.4): requests, the pending list, entry programs, giving up, rollovers, and what a durable
or given-up entry does to its requester (R86, R88, R90 to R93, R95 to R99, R151). -/

namespace Sys2Proof.Machine

/-! ### Settings taking effect -/

/-- The report alarm is restarted (R166). -/
def State.restartReport (s : State) : State :=
  { s with clock := { s.clock with nextReport :=
      if s.gauge.settings.reportInterval = 0 then none else some (wrap32 (s.clock.seconds + s.gauge.settings.reportInterval)) } }

/-- Gauge settings at the gauge: Remaining above the new design capacity falls to it, and A becomes 0 (R151). -/
def Gauge.take (g : Gauge) (v : GaugeSettings) : Gauge :=
  if v.capacity < g.remaining then { g with remaining := v.capacity, acc := 0, settings := v } else { g with settings := v }

/-- A set of gauge settings takes effect in one event, and the report alarm is restarted (R151, R166). -/
def State.takeGaugeSettings (s : State) (v : GaugeSettings) : State := { s with gauge := s.gauge.take v }.restartReport

/-- The levels that FORMAT and an unformatted drive take (R85, R178). -/
def formatLevels : List Nat := [0, 2, 2, 1]

/-- Each named port's level takes the given value (R86). -/
def namedLevels (levels : List Nat) (named : List (Option Nat)) : List Nat := List.zipWith (fun l n => n.getD l) levels named

/-! ### The end of an entry -/

/-- The POWER-DOWN entry has ended: Power Control waits for the `left` Transmit List entries placed before this event (R172). -/
def State.powerDownEnded (s : State) (left : Nat) : State :=
  match s.power.procedure with
  | .shutdown .entry => { s with power := { s.power with procedure := .shutdown (.drain left) } }
  | _ => s

/-- A survey's entry leaves the table. -/
def State.removeSurvey (s : State) (n : Nat) : State :=
  { s with table := { s.table with surveys := s.table.surveys.filter (fun v => v.number != n) } }

/-- What giving an entry up does to its requester (R86, R88, R90 to R93, R95, R97). -/
def State.giveUp (s : State) (left : Nat) (body : EntryBody) : State :=
  match body with
  | .surveyOpened r => (s.removeSurvey r.number).completeOp .media .none
  | .surveyClosed r => (s.modSurvey r.number (fun v => { v with state := .open, closed := none })).completeOp .media .none
  | .thresholdsSet _ _ _ => s.completeOp .media .none
  | .surveyLocked _ => s.completeOp .media .none
  | .surveyErased _ => s.completeOp .media .none
  | .ports _ => s.completeOp .media .none
  | .shock _ => s.completeOp .media .none
  | .gauge _ => s.completeOp .media .none
  | .drop _ => s
  | .powerDown => s.powerDownEnded left

/-- The ports that the SET-LEVELS in the Operation Slot names, with their values. -/
def State.namedPorts (s : State) : List (Option Nat) :=
  match s.slot with
  | some o => match o.request with
    | .setLevels named => named
    | _ => [none, none, none, none]
  | none => [none, none, none, none]

/-- What a durable entry does (R86, R88, R90 to R93, R95, R172). -/
def State.durable (s : State) (body : EntryBody) : State :=
  match body with
  | .surveyOpened r =>
    (s.modSurvey r.number (fun v => { v with confirmed := true })).completeOp .ok
      (.surveyOpened r.number r.readThreshold r.eraseThreshold)
  | .surveyClosed r =>
    (s.modSurvey r.number (fun v => { v with state := .closed })).completeOp .ok (.surveyClosed (r.closed.getD s.stamp))
  | .thresholdsSet n r e =>
    (s.modSurvey n (fun v => { v with readThreshold := r, eraseThreshold := e })).completeOp .ok (.thresholds r e)
  | .surveyLocked n => (s.modSurvey n (fun v => { v with state := .locked })).completeOp .ok .none
  | .surveyErased n => (((s.releaseChains n).testMediaAvailable.offerAll).removeSurvey n).completeOp .ok .none
  | .ports levels =>
    let present := namedLevels s.table.present s.namedPorts
    { s with table := { s.table with stored := levels, present := present } }.completeOp .ok (.levels levels)
  | .shock v => { s with monitor := { s.monitor with shock := v } }.completeOp .ok (.shock v)
  | .gauge v => (s.takeGaugeSettings v).completeOp .ok (.gaugeSettings v)
  | .drop _ => s
  | .powerDown => s.powerDownEnded s.port.tx.length

/-! ### Removing entries -/

/-- The buffer of an entry returns to FREE (R48). -/
def State.releaseOf (s : State) (e : IndexEntry) : State :=
  match e.buffer with
  | some b => s.releaseBuffer b
  | none => s

/-- The head of the pending list leaves it, and its buffer returns to FREE; an entry that waits for a buffer leaves the pool's
wait list (R96, R97). -/
def State.dropHead (s : State) : State :=
  match s.log.waiting with
  | [] => s
  | e :: rest =>
    let s : State := s.releaseOf e
    { s with
      log := { s.log with waiting := rest, stage := .idle }
      pool := { s.pool with indexWaiters := s.pool.indexWaiters.filter (fun w => w != .entry) } }

/-- An entry that no program of has been issued is withdrawn. If it stands at the head and had taken its entry sequence, the next
entry takes that sequence, so that the standing entries keep counting by 1 (R100; DESIGN CHOICE, log entry 12). -/
def State.withdraw (s : State) (isIt : EntryBody → Bool) : State :=
  match s.log.waiting.findIdx? (fun e => isIt e.body && !e.issued) with
  | none => s
  | some 0 =>
    let seq := match s.log.waiting with
      | e :: _ => e.seq.getD s.log.nextSeq
      | [] => s.log.nextSeq
    let s : State := s.dropHead
    { s with log := { s.log with nextSeq := seq } }
  | some i => { s with log := { s.log with waiting := s.log.waiting.eraseIdx i } }

/-- Every pending entry is given up, oldest first (R96, R99, R102). -/
def State.giveUpList (s : State) (left : Nat) : List IndexEntry → State
  | [] => s
  | e :: es => ((s.dropHead).giveUp left e.body).giveUpList left es

/-- The whole pending list is given up. -/
def State.giveUpAll (s : State) (left : Nat) : State := s.giveUpList left s.log.waiting

/-! ### Snapshots and rollovers (R98, R99) -/

/-- The durable fields of a survey, as a survey record (section 12.3). -/
def Survey.record (v : Survey) : SurveyRecord :=
  { number := v.number, state := v.state, creator := v.creator, readThreshold := v.readThreshold,
    eraseThreshold := v.eraseThreshold, hadPowerLoss := v.hadPowerLoss, hadSuspect := v.hadSuspect, hadVoid := v.hadVoid,
    name := v.name, created := v.created, closed := v.closed, dropCount := v.dropCount, lastDrop := v.lastDrop }

/-- The record of a survey in a snapshot: a CLOSING survey is recorded as OPEN without a closed stamp (R98). -/
def Survey.snapshotRecord (v : Survey) : SurveyRecord :=
  if v.state = .closing then { v.record with state := .open, closed := none } else v.record

/-- The sequence that a snapshot names: that of the oldest waiting entry, or the one the next entry will take (R98). -/
def IndexLog.snapshotSeq (l : IndexLog) : Nat :=
  match l.waiting with
  | e :: _ => e.seq.getD l.nextSeq
  | [] => l.nextSeq

/-- The snapshot composed at the grant of its buffer (R98). -/
def State.snapshotBody (s : State) : SnapshotBody :=
  { indexGeneration := s.log.generation + 1, nextSeq := s.log.snapshotSeq, formatGeneration := s.media.generation,
    n := s.segCount, nextNumber := s.table.nextNumber, stored := s.table.stored, dropTotal := s.monitor.total,
    shock := s.monitor.shock, gauge := s.gauge.settings,
    surveys := (s.table.surveys.filter (fun v => v.confirmed)).map Survey.snapshotRecord, drops := s.monitor.drops }

/-- The candidates of a rollover in order: the ring after the current segment, never the current segment itself, or from segment
0 where there is none, passing over unusable segments (R99, R102). -/
def IndexLog.candidate (l : IndexLog) : Option Nat :=
  let order := match l.current with
    | some g => [(g + 1) % 4, (g + 2) % 4, (g + 3) % 4]
    | none => [0, 1, 2, 3]
  order.find? (fun c => !l.unusable.contains c)

/-- Whether a FORMAT in flight makes its own rollover; one that still waits or erases has none (R102). -/
def State.formatRolls (s : State) : Bool :=
  match s.formatRun with
  | some r => r.stage == .rollover
  | none => false

/-- The log enters LOG-FAILED: every pending entry is given up, and a FORMAT whose own rollover this was ends with MEDIA; one that
still waits for an earlier rollover goes on (R99, R102, R103). The notice is raised before the replies (DESIGN CHOICE, log entry 54). -/
def State.enterLogFailed (s : State) : State :=
  let left := s.port.tx.length
  let formatting := s.formatRolls
  let s : State := { s with
    log := { s.log with failed := true, rollover := .none, stage := .idle }
    formatRun := if formatting then none else s.formatRun }
  let s : State := (s.raise (.media .indexFailed)).giveUpAll left
  if formatting then s.completeOp .media .none else s

/-- A rollover goes on with its next candidate, whose erase is requested; with none left the log has failed (R99). -/
def State.nextRollover (s : State) : State :=
  match s.log.candidate with
  | some c => { s with log := { s.log with rollover := .erase c } }
  | none => s.enterLogFailed

/-- The snapshot's buffer is granted: the snapshot is composed and its program requested (R98, R99). -/
def State.grantSnapshot (s : State) (c b : Nat) : State :=
  let body := s.snapshotBody
  let s : State := s.modBuffer b (fun _ => { state := .index, bytes := snapshotPage body s.stamp })
  { s with log := { s.log with rollover := .program c b } }

/-- The log asks the pool for its snapshot's buffer (R47, R99). -/
def State.askSnapshot (s : State) (c : Nat) : State :=
  match s.freeBuffer with
  | some b => s.grantSnapshot c b
  | none => { s with log := { s.log with rollover := .waitBuffer c },
                     pool := { s.pool with indexWaiters := s.pool.indexWaiters ++ [.snapshot] } }

/-! ### The entry at the head (R96) -/

/-- With its buffer granted and its page composed, the entry's program is requested, or a rollover is made first (R96 steps 3 and
4, R97). -/
def State.headReady (s : State) : State :=
  if s.log.forceRollover || decide (256 ≤ s.log.writePoint) then s.nextRollover
  else { s with log := { s.log with stage := .request } }

/-- The buffer of the entry at the head is granted: the entry takes its sequence at its first attempt, and its page is composed
(R96 step 2). -/
def State.grantEntry (s : State) (b : Nat) : State :=
  match s.log.waiting with
  | [] => s
  | e :: rest =>
    let e' : IndexEntry := { e with seq := some (e.seq.getD s.log.nextSeq), buffer := some b }
    let next := if e.seq.isSome then s.log.nextSeq else wrap32 (s.log.nextSeq + 1)
    let s : State := s.modBuffer b (fun _ => { state := .index, bytes := entryPage e' })
    { s with log := { s.log with waiting := e' :: rest, nextSeq := next, stage := .idle } }.headReady

/-- The pool's wait list is empty. -/
def State.nobodyWaits (s : State) : Bool := s.pool.indexWaiters.isEmpty && s.pool.streamWaiters.isEmpty

/-- The log asks the pool for the head entry's buffer (R47, R96 step 1). A buffer that has just become FREE while others wait is
theirs: the log then asks after BUFFER_GRANT. -/
def State.askEntry (s : State) : State :=
  match s.freeBuffer with
  | some b => if s.nobodyWaits then s.grantEntry b else s
  | none => { s with log := { s.log with stage := .waitBuffer },
                     pool := { s.pool with indexWaiters := s.pool.indexWaiters ++ [.entry] } }

/-- Whether a FORMAT keeps the log from going on: its erases and rollover run, or it waits and no entry is in flight (R102). -/
def State.formatHoldsLog (s : State) : Bool :=
  match s.formatRun with
  | none => false
  | some r => match r.stage with
    | .waiting => !(match s.log.waiting with | e :: _ => e.issued | [] => false)
    | .erasing _ => true
    | .rollover => true

/-- The log goes on with the entry at the head of its list, if nothing of it is under way (R96). -/
def State.pumpLog (s : State) : State :=
  if s.formatHoldsLog || s.log.current.isNone || s.log.stage != .idle || s.log.rollover != .none then s
  else match s.log.waiting with
    | [] => s
    | e :: _ => if e.buffer.isSome then s.headReady else s.askEntry

/-- Whether an entry is a DROP entry. -/
def EntryBody.isDrop : EntryBody → Bool
  | .drop _ => true
  | _ => false

/-- Whether a request is given up at once: in LOG-FAILED, and on a drive found unformatted from READY while no FORMAT is in
flight (R96, R99). -/
def State.logRefuses (s : State) : Bool :=
  s.log.failed || (s.power.unformatted && s.power.phase == .ready && s.formatRun.isNone)

/-- An index entry is requested (R96). -/
def State.requestEntry (s : State) (body : EntryBody) : State :=
  if s.logRefuses then s.giveUp s.port.tx.length body
  else
    let drops := (s.log.waiting.filter (fun e => e.body.isDrop)).length
    let s : State := if body.isDrop && decide (16 ≤ drops) then s.withdraw EntryBody.isDrop else s
    let e : IndexEntry := { body := body, stamp := s.stamp, seq := none, buffer := none, failures := 0, issued := false }
    { s with log := { s.log with waiting := s.log.waiting ++ [e] } }.pumpLog

/-! ### Ends of the log's operations -/

/-- The entry's program succeeded: the entry is durable, and the log takes the next (R96 step 5). -/
def State.entryDurable (s : State) (e : IndexEntry) : State := (s.dropHead.durable e.body).pumpLog

/-- The entry's program failed: a first failure is retried, a second gives the entry up and forces a rollover (R97). The INDEX notice is
raised before the requester's MEDIA reply (DESIGN CHOICE, log entry 54). -/
def State.entryFailed (s : State) (e : IndexEntry) : State :=
  let left := s.port.tx.length
  let s : State := s.raise (.media (.index e.body.kindCode))
  if e.failures = 0 then
    let waiting := match s.log.waiting with
      | h :: rest => { h with failures := 1 } :: rest
      | [] => []
    { s with log := { s.log with waiting := waiting, stage := .idle } }.pumpLog
  else
    let s : State := s.dropHead.giveUp left e.body
    { s with log := { s.log with forceRollover := true } }.pumpLog

/-- An index entry program ends (R96, R97). -/
def State.indexProgramEnd (s : State) (g p : Nat) (ok : Bool) : State :=
  let s : State := s.endProgram g p ok
  match s.log.waiting with
  | [] => s
  | e :: _ => if ok then s.entryDurable e else s.entryFailed e

/-- An index segment joins the set of unusable ones, which holds each once (R99). -/
def addUnusable (c : Nat) (l : List Nat) : List Nat := if l.contains c then l else l ++ [c]

/-- A candidate joins the unusable set, and the rollover goes on with the next (R99). -/
def State.failCandidate (s : State) (c : Nat) : State :=
  { s with log := { s.log with unusable := addUnusable c s.log.unusable, rollover := .none } }.nextRollover

/-- The erase of a rollover's candidate ends (R99). -/
def State.indexEraseEnd (s : State) (c : Nat) (ok : Bool) : State :=
  let s : State := s.endErase c ok
  if ok then s.askSnapshot c else s.failCandidate c

/-- The segments in a state. -/
def State.countSegs (s : State) (t : SegState) : Nat := s.media.segs.countP (fun x => x.state == t)

/-- FORMAT completes with OK and clears the unformatted mark (R103, R178). -/
def State.formatDone (s : State) : State :=
  let payload := Payload.formatted s.segCount s.media.generation (s.countSegs .bad) s.log.unusable.length
  { s with formatRun := none, power := { s.power with unformatted := false } }.completeOp .ok payload

/-- The snapshot program ends; a FORMAT whose own rollover this was completes (R99, R103). The snapshot's buffer becomes FREE after a
failure too (R48; DEDUCED, log entry 65). -/
def State.snapshotEnd (s : State) (c : Nat) (ok : Bool) : State :=
  let s : State := s.endProgram c 0 ok
  match s.log.rollover with
  | .program _ b =>
    let s : State := s.releaseBuffer b
    if ok then
      let s : State := { s with log := { s.log with
        current := some c, writePoint := 1, generation := s.log.generation + 1, forceRollover := false, rollover := .none } }
      (if s.formatRolls then s.formatDone else s).pumpLog
    else s.failCandidate c
  | _ => s

end Sys2Proof.Machine
end

