-- ==== Sys2Proof/Machine/Sampler.lean ====
section
/-! DEFINITION. The Sense Sampler (Chapter 7): triggers, the converter arbiter, scans, the self-check and the power states. -/

namespace Sys2Proof.Machine

/-- A scan starts: the converter is powered, and a gauge scan raises the self-check counter, carrying a self-check at each 64th
(R118, R121, R125). -/
def Sampler.start (m : Sampler) : Scan → Sampler
  | .shock => { m with powered := true, running := some .shock }
  | .gauge interval _ =>
    if 64 ≤ m.selfCheckCounter + 1 then
      { m with powered := true, running := some (.gauge interval true), selfCheckCounter := 0 }
    else { m with powered := true, running := some (.gauge interval false), selfCheckCounter := m.selfCheckCounter + 1 }
  | .startUp => { m with powered := true, running := some .startUp }

/-- An ignored trigger (R122). -/
def Sampler.overrun (m : Sampler) : Sampler := { m with overruns := satAdd max32 m.overruns 1 }

/-- A shock trigger (R121, R122). -/
def Sampler.triggerShock (m : Sampler) : Sampler :=
  match m.running with
  | none => m.start .shock
  | some .shock => m.overrun
  | some (.gauge _ _) => if m.pendingShock then m.overrun else { m with pendingShock := true }
  | some .startUp => if m.pendingShock then m.overrun else { m with pendingShock := true }

/-- A gauge trigger; one that is taken records the gauge interval and sets it to 0 (R121, R122, R124). -/
def Sampler.triggerGauge (m : Sampler) : Sampler :=
  match m.running with
  | none => { m with interval := 0 }.start (.gauge m.interval false)
  | some (.gauge _ _) => m.overrun
  | some .shock => if m.pendingGauge.isSome then m.overrun else { m with pendingGauge := some m.interval, interval := 0 }
  | some .startUp => if m.pendingGauge.isSome then m.overrun else { m with pendingGauge := some m.interval, interval := 0 }

/-- The end of the running scan: the next pending scan starts, a shock scan first; in DOZE the converter is powered down when none
is pending (R118, R121). In OFF the converter's power is left as it stands, as at the entry to OFF (DESIGN CHOICE, log entry 50). -/
def Sampler.next (m : Sampler) (p : PowerState) : Sampler :=
  let m := { m with running := none }
  if p = .off then m
  else if m.pendingShock then { m with pendingShock := false }.start .shock
  else match m.pendingGauge with
    | some i => { m with pendingGauge := none }.start (.gauge i false)
    | none => if p = .doze then { m with powered := false } else m

/-- The sampler's part of a tick boundary: the gauge interval, the shock divider and the gauge countdown (R120, R124). A shock
trigger due is left to SHOCK_TRIGGER by `shockDue`, a gauge trigger due to GAUGE_TRIGGER by a countdown of 0. In OFF, where nothing
is triggered, divider and countdown stand (DESIGN CHOICE, log entry 50). -/
def Sampler.tick (m : Sampler) (p : PowerState) : Sampler :=
  let m := { m with interval := min 65535 (m.interval + 1) }
  match p with
  | .active => { m with shockDue := true, countdown := m.countdown - 1 }
  | .doze =>
    if 4 ≤ m.divider + 1 then { m with shockDue := true, divider := 0, countdown := m.countdown - 1 }
    else { m with divider := m.divider + 1, countdown := m.countdown - 1 }
  | .off => m

/-- The reload of the gauge countdown (R120). -/
def gaugeReload : PowerState → Nat
  | .active => 1024
  | .doze => 8192
  | .off => 1024

/-- Whether a gauge trigger is due. -/
def Sampler.gaugeDue (m : Sampler) (p : PowerState) : Bool := m.countdown == 0 && p != .off

/-- The latest results of channels from `first` on are replaced (R117). -/
def Sampler.latch (m : Sampler) (first : Nat) : List Nat → Sampler
  | [] => m
  | c :: cs => ({ m with latest := m.latest.set first (some c) }).latch (first + 1) cs

/-- On entry to DOZE the shock divider is set to 0, and an idle converter is powered down (R118, R120). -/
def Sampler.enterDoze (m : Sampler) : Sampler := { m with divider := 0, powered := m.powered && m.running.isSome }

/-- On entry to ACTIVE the gauge countdown is at most 1024 (R120). -/
def Sampler.enterActive (m : Sampler) : Sampler := { m with countdown := min m.countdown 1024 }

/-- In OFF no further scan is made (R118, R127): what is pending does not start. -/
def Sampler.enterOff (m : Sampler) : Sampler := { m with pendingShock := false, pendingGauge := none, shockDue := false }

/-- Whether two reference codes give the verdict FAIL (R125). -/
def selfCheckFails (zeroRef fullRef : Nat) : Bool := decide (8 < zeroRef) || decide (fullRef < 4087)

/-- A self-check's verdict is applied (R125). -/
def State.selfCheck (s : State) (zeroRef fullRef : Nat) : State :=
  let m := s.sampler
  let fails := selfCheckFails zeroRef fullRef
  let checks := satAdd max32 m.checks 1
  let s : State := { s with sampler := { m with
    fault := fails, zeroRef := some zeroRef, fullRef := some fullRef, checks := checks,
    fails := satAdd max32 m.fails (if fails then 1 else 0) } }
  if fails || m.fault then s.raise (.sampler fails zeroRef fullRef checks) else s

end Sys2Proof.Machine
end

