-- ==== Sys2Proof/Machine/Power.lean ====
section
/-! DEFINITION. Power Control (sections 10.2 and 10.3): wake, DOZE entry and its abandonment, shutdown and its cancellation, OFF,
and its part of a tick boundary. -/

namespace Sys2Proof.Machine

/-- A request to wake: in DOZE with no wake begun, the wake wait begins (R171). In OFF it is ignored (R173). -/
def State.beginWake (s : State) : State :=
  if s.power.state = .doze ∧ s.power.procedure = .none then { s with power := { s.power with procedure := .wakeWait } } else s

/-- Power Control's hold is taken or released (R73). -/
def State.setHold (s : State) (h : Bool) : State := { s with media := { s.media with hold := h } }

/-- A DOZE entry is abandoned; for cause COMMAND the reply is STATE (R170). -/
def State.abandonDoze (s : State) : State :=
  match s.power.procedure with
  | .dozeEntry .command => ({ s with power := { s.power with procedure := .none } }.setHold false).completeOp .state .none
  | .dozeEntry .idle => { s with power := { s.power with procedure := .none, idleTimer := 0 } }.setHold false
  | _ => s

/-- DOZE entry begins: a requested close is made for every live stream, lowest slot first (R169; the order is the model's, DESIGN
CHOICE, log entry 9). -/
def State.beginDozeEntry (s : State) (cause : DozeCause) : State :=
  { s with power := { s.power with procedure := .dozeEntry cause } }.requestCloses (s.slotsWhere Slot.live)

/-- The power state becomes DOZE (R169, R118, R120). -/
def State.enterDoze (s : State) (cause : DozeCause) : State :=
  let s : State := { s with power := { s.power with state := .doze, procedure := .none }, sampler := s.sampler.enterDoze }
  match cause with
  | .command => s.completeOp .ok .none
  | .idle => s

/-- What DOZE_ENTRY_COMPLETE waits for: the four conditions, and then, with the hold taken, the end of the operation in flight
(R169). A drop declared after the hold is taken is not waited for (DESIGN CHOICE, log entry 46), and a DOZE command taken then, which
makes its closes again, does not have the conditions judged again (DESIGN CHOICE, log entry 62). The conditions are judged after the
arbiter's choice of the same event (DESIGN CHOICE, log entry 67). -/
def State.dozeReady (s : State) : Bool :=
  match s.power.procedure with
  | .dozeEntry _ => if s.media.hold then s.media.op.isNone else s.quiescent
  | _ => false

/-- Power Control takes its hold; with the port idle the part enters DOZE in the same event (R169). -/
def State.dozeStep (s : State) : State :=
  match s.power.procedure with
  | .dozeEntry cause => if s.media.op.isNone then (s.setHold true).enterDoze cause else s.setHold true
  | _ => s

/-- The gauge or the release of the RST line asks for shutdown (R172). In DOZE and during the wake wait it begins once the wake has
ended. -/
def State.askShutdown (s : State) : State :=
  match s.power.state with
  | .off => s
  | .doze => { s with power := { s.power with shutdownAsked := true } }.beginWake
  | .active =>
    match s.power.procedure with
    | .shutdown _ => s
    | _ => { s.abandonDoze with power := { s.abandonDoze.power with procedure := .shutdown .conditions } }

/-- Whether an entry is the POWER-DOWN entry. -/
def EntryBody.isPowerDown : EntryBody → Bool
  | .powerDown => true
  | _ => false

/-- The end of CRITICAL cancels a shutdown that has not released PWR-KEEP (R173). -/
def State.cancelShutdown (s : State) : State :=
  if s.power.state = .off then s
  else
    let s : State := { s with power := { s.power with shutdownAsked := false } }
    match s.power.procedure with
    | .shutdown _ =>
      (({ s with power := { s.power with procedure := .none } }.withdraw EntryBody.isPowerDown).setHold false).pumpLog
    | _ => s

/-- What SHUTDOWN_POWER_DOWN_REQUEST waits for (R172). -/
def State.powerDownReady (s : State) : Bool :=
  match s.power.procedure with
  | .shutdown .conditions => s.quiescent
  | _ => false

/-- What PWR_KEEP_RELEASE waits for: the Transmit List entries placed before the end of the POWER-DOWN entry, and then, with the
hold taken, the end of the operation in flight (R172). -/
def State.keepReady (s : State) : Bool :=
  match s.power.procedure with
  | .shutdown (.drain 0) => true
  | .shutdown .holding => s.media.op.isNone
  | _ => false

/-- PWR-KEEP is released and the power state becomes OFF; a command still in the Operation Slot is lost (R172, R173, R181). -/
def State.enterOff (s : State) : State :=
  { s with
    power := { s.power with
      state := .off, procedure := .none, pwrKeep := false, shutdownAsked := false, idleDue := false, alarmDue := false }
    sampler := s.sampler.enterOff
    slot := none
    engine := none }.judgeHold

/-- Power Control takes its hold; with the port idle the part goes OFF in the same event (R172). -/
def State.keepStep (s : State) : State :=
  if s.media.op.isNone then (s.setHold true).enterOff
  else { s with power := { s.power with procedure := .shutdown .holding } }.setHold true

/-- The wake wait ends; a shutdown asked for meanwhile begins (R171, R172). -/
def State.endWake (s : State) : State :=
  { s with
    power := { s.power with
      state := .active
      procedure := if s.power.shutdownAsked then .shutdown .conditions else .none
      shutdownAsked := false
      idleTimer := 0 }
    sampler := s.sampler.enterActive }.setHold false

/-- What a kept frame does at Power Control (R168, R170, R171). -/
def State.frameKept (s : State) : State :=
  let s : State := { s with power := { s.power with idleTimer := 0 } }
  match s.power.procedure with
  | .dozeEntry .idle => s.abandonDoze
  | _ => s.beginWake

/-- Power Control's part of a tick boundary: the idle timer (R168). -/
def State.tickIdle (s : State) : State :=
  if s.idleHeld then { s with power := { s.power with idleTimer := 0 } }
  else
    let timer := min 3686400 (s.power.idleTimer + 1)
    let limit := s.gauge.settings.idleToDoze
    { s with power := { s.power with idleTimer := timer, idleDue := decide (0 < limit) && decide (limit * 1024 ≤ timer) } }

/-- The clock's part of a tick boundary (R164), and the alarm's comparison at a rise of the seconds counter, which R166 makes in
ACTIVE, in DOZE, during mount and during shutdown, and so not in OFF. -/
def State.tickClock (s : State) : State :=
  if s.clock.ticks + 1 ≤ 1023 then { s with clock := { s.clock with ticks := s.clock.ticks + 1 } }
  else
    let seconds := wrap32 (s.clock.seconds + 1)
    { s with clock := { s.clock with ticks := 0, seconds := seconds },
             power := { s.power with alarmDue := s.power.state != .off && s.clock.nextReport == some seconds } }

end Sys2Proof.Machine
end

