-- ==== Sys2Proof/Machine/Drop.lean ====
section
/-! DEFINITION. The Drop Monitor (Chapter 8): scan classes, transitions, declaring and finishing a drop, and verification. -/

namespace Sys2Proof.Machine

/-! ### A delivered shock scan (R129) -/

/-- The classes of a scan (R129). -/
inductive ScanClass where
  | impact | free | held
deriving DecidableEq, Repr

/-- A delivered shock scan as the monitor judges it: deviations, largest deviation, class, quiet, rail, credit and VHOLD in mV. -/
structure ScanView where
  devs : Int × Int × Int
  peak : Nat
  cls : ScanClass
  quiet : Bool
  rail : Bool
  credit : Nat
  holdUp : Nat
deriving DecidableEq, Repr

/-- The largest of three magnitudes. -/
def largest (d : Int × Int × Int) : Nat := max d.1.natAbs (max d.2.1.natAbs d.2.2.natAbs)

/-- The class of a scan: the first line of the table that holds (R129). -/
def classOf (v : ShockSettings) (d : Int × Int × Int) : ScanClass :=
  if v.impactLevel ≤ largest d then .impact else if largest d ≤ v.ffWindow then .free else .held

/-- Whether every axis has moved by at most the quiet delta (R129). -/
def stillSince (delta : Nat) (p d : Int × Int × Int) : Bool :=
  decide (largest (d.1 - p.1, d.2.1 - p.2.1, d.2.2 - p.2.2) ≤ delta)

/-- Whether a code stands at either end of the converter's range (R135). -/
def atRail (c : Code) : Bool := c.toNat == 0 || c.toNat == 4095

/-- The credit of a scan (R129). -/
def creditOf : PowerState → Nat
  | .doze => 4
  | .active => 1
  | .off => 1

/-- The judgement of a delivered scan (R129). -/
def State.view (s : State) (ax ay az vhold : Code) : ScanView :=
  let v := s.monitor.shock
  let d : Int × Int × Int := ((ax.toNat : Int) - v.zeroX, (ay.toNat : Int) - v.zeroY, (az.toNat : Int) - v.zeroZ)
  let cls := classOf v d
  { devs := d, peak := largest d, cls := cls,
    quiet := cls == .held && (match s.monitor.previous with | some p => stillSince v.quietDelta p d | none => false),
    rail := atRail ax || atRail ay || atRail az, credit := creditOf s.power.state, holdUp := vhold.toNat * 4 }

/-! ### The drop in progress -/

/-- Changes the monitor. -/
def State.modMonitor (s : State) (f : Monitor → Monitor) : State := { s with monitor := f s.monitor }

/-- Changes the drop in progress, if there is one. -/
def State.modDrop (s : State) (f : DropRecord → DropRecord) : State :=
  s.modMonitor (fun m => { m with drop := m.drop.map f })

/-- A count of the drop in progress rises (R140). -/
def State.countPages (s : State) (f : PageCounts → PageCounts) : State := s.modDrop (fun r => { r with pages := f r.pages })

/-- The fall height in millimetres (R142). -/
def fallHeight (t : Nat) : Nat := t * t * 4903 / 1048576

/-- The peak in tenths of g (R142); 0 where stored counts per g are 0 (DESIGN CHOICE, log entry 45). -/
def tenthsOf (peak countsPerG : Nat) : Nat := peak * 10 / countsPerG

/-- A record with its height and its peak in tenths of g computed from what it holds (R141, R146). -/
def DropRecord.computed (r : DropRecord) (v : ShockSettings) : DropRecord :=
  { r with height := fallHeight r.fallTime, peakTenths := tenthsOf r.peak v.countsPerG }

/-- The newest sixteen of a list, oldest first (R141). -/
def newest16 {α : Type} (l : List α) : List α := l.drop (l.length - 16)

/-! ### Declaring a drop (R137) -/

/-- A survey's had-suspect flag is set when an entry of one of its streams goes to SUSPECT (R83). -/
def State.flagSuspect (s : State) (n : Nat) : State := s.modSurvey n (fun v => { v with hadSuspect := true })

/-- Sets had-suspect for the surveys of several entries. -/
def State.flagSuspects (s : State) : List Entry → State
  | [] => s
  | e :: es => (s.flagSuspect e.survey).flagSuspects es

/-- Every HELD entry becomes SUSPECT (R53). -/
def State.suspectHeld (s : State) : State :=
  let held := s.queue.filter (fun e => e.state == .held)
  let queue : List Entry := s.queue.map (fun e => if e.state = .held then { e with state := .suspect } else e)
  { s with queue := queue }.flagSuspects held

/-- The park flag is raised, if it is lowered: an erase in flight is abandoned (R137 step 3, R72). -/
def State.raisePark (s : State) : State :=
  if s.monitor.park then s else (s.modMonitor (fun m => { m with park := true })).abandonErase

/-- Whether a survey has a live stream. -/
def State.hasLive (s : State) (n : Nat) : Bool :=
  s.slots.any (fun x => x.live && (match x.desc with | some d => d.survey == n | none => false))

/-- Whether a drop counts in a survey: it is OPEN or CLOSING and has a live stream (R83, R137). -/
def State.dropCounts (s : State) (v : Survey) : Bool := (v.state == .open || v.state == .closing) && s.hasLive v.number

/-- The DROP markers of a declaration (R137 step 4). -/
def State.markDrop (s : State) (number : Nat) (kind : DropKind) : State :=
  { s with slots := s.slots.map (fun x =>
      if x.state = .running ∨ x.state = .paused then (x.raiseDrop s.stamp number kind).discardSum else x) }

/-- The survey counts of a declaration (R137 step 5). -/
def State.countDrop (s : State) (number : Nat) : State :=
  { s with table := { s.table with surveys := s.table.surveys.map (fun v =>
      if s.dropCounts v then { v with dropCount := satAdd 65535 v.dropCount 1, lastDrop := number } else v) } }

/-- The number that a declared drop takes: the new drop total, or 0 before mount has loaded the total (R137, R147). -/
def Monitor.newNumber (m : Monitor) : Nat := if m.loaded then satAdd max32 m.total 1 else 0

/-- A drop is declared (R137). A FALL drop holds fall time 0 until R134 sets it (DESIGN CHOICE, log entry 56). -/
def State.declareDrop (s : State) (kind : DropKind) (start : Stamp) (holdUp : Nat) : State :=
  let number := s.monitor.newNumber
  let ordinal := if s.monitor.loaded then 0 else s.monitor.ordinals + 1
  let carried := s.queue.countP (fun e => e.state == .suspect || e.state == .verifying)
  let suspect := s.queue.countP (fun e => e.state == .held)
  let surveys := (s.table.surveys.filter s.dropCounts).map Survey.number
  let record : DropRecord :=
    { number := number, ordinal := ordinal, kind := kind, start := start, fallTime := 0, height := 0, peak := 0, peakTenths := 0,
      rail := false, pages := { suspect := min 255 suspect, carried := min 255 carried }, packLost := s.gauge.packLost,
      lowestHoldUp := holdUp, power := s.power.state.detected, surveys := surveys.take 16 }
  let s : State := s.modMonitor (fun m =>
    { m with drop := some record, total := if m.loaded then number else m.total, ordinals := if m.loaded then m.ordinals else ordinal })
  let s : State := (s.suspectHeld).raisePark
  let s : State := (s.markDrop number kind).countDrop number
  (s.raise (.dropDeclared number kind start s.power.state)).beginWake

/-! ### Finishing a drop (R141) and VERIFY (R138) -/

/-- The drop in progress is finished, its unresolved pages given (R141). The FINISHED notice of a drop that has no number yet carries
0, as its DECLARED notice does (DESIGN CHOICE, log entry 49). -/
def State.finishDrop (s : State) (unresolved : Nat) : State :=
  match s.monitor.drop with
  | none => s
  | some r =>
    let r := r.computed s.monitor.shock
    let r := { r with pages := { r.pages with unresolved := min 255 unresolved } }
    let s : State := s.modMonitor (fun m =>
      if m.loaded then { m with drop := none, drops := newest16 (m.drops ++ [r]) }
      else { m with drop := none, unnumbered := m.unnumbered ++ [r] })
    (s.requestEntry (.drop r)).raise (.dropFinished r.number r.kind r.height r.peakTenths r.pages.bad r.pages.unresolved)

/-- The park flag is lowered and the monitor enters WATCH; takes that an abandoned erase left are made again (R138, R72). -/
def State.enterWatch (s : State) : State :=
  (s.modMonitor (fun m => { m with state := .watch, park := false, watchCount := 0 })).parkLowered

/-- The judgement of VERIFY: done when no entry is SUSPECT, VERIFYING or PROGRAMMING (R138). -/
def State.judgeVerify (s : State) : State :=
  if s.monitor.state == .verify && !s.queue.any Entry.inDoubt then (s.finishDrop 0).enterWatch else s

/-- The monitor enters VERIFY (R138). -/
def State.enterVerify (s : State) : State := (s.modMonitor (fun m => { m with state := .verify })).judgeVerify

/-! ### Transitions on a scan -/

/-- A settle count that a scan moves: a quiet scan adds its credit, any other sets it to 0 (R135, R136). -/
def ScanView.settle (v : ScanView) (n : Nat) : Nat := if v.quiet then min 65535 (n + v.credit) else 0

/-- The settle count is judged (R135, R136). -/
def State.judgeSettle (s : State) (v : ScanView) : State :=
  let n := v.settle s.monitor.settle
  let s : State := s.modMonitor (fun m => { m with settle := n })
  if s.monitor.shock.settleTime ≤ n then s.enterVerify else s

/-- A scan in IMPACT (R135). -/
def State.scanImpact (s : State) (v : ScanView) : State :=
  (s.modDrop (fun r => { r with peak := max r.peak v.peak, rail := r.rail || v.rail })).judgeSettle v

/-- The monitor goes to IMPACT, with this scan as its first (R132, R134, R136). -/
def State.goImpact (s : State) (v : ScanView) : State :=
  (s.modMonitor (fun m => { m with state := .impact, settle := 0 })).scanImpact v

/-- A drop of kind IMPACT is declared (R132, R133, R139). -/
def State.declareImpact (s : State) (v : ScanView) : State := (s.declareDrop .impact s.stamp v.holdUp).goImpact v

/-- The monitor goes to FALL-WAIT (R132, R139). -/
def State.goFallWait (s : State) : State :=
  s.modMonitor (fun m => { m with state := .fallWait, fallStart := s.stamp, fallClock := 0 })

/-- A scan in WATCH (R132). -/
def State.scanWatch (s : State) (v : ScanView) : State :=
  match v.cls with
  | .impact => s.declareImpact v
  | .free => s.goFallWait
  | .held => s

/-- A scan in FALL-WAIT (R133). -/
def State.scanFallWait (s : State) (v : ScanView) : State :=
  let s : State := s.modMonitor (fun m => { m with fallClock := min 65535 (m.fallClock + v.credit) })
  match v.cls with
  | .impact => s.declareImpact v
  | .free =>
    if s.monitor.shock.ffTime ≤ s.monitor.fallClock then
      (s.declareDrop .fall s.monitor.fallStart v.holdUp).modMonitor (fun m => { m with state := .falling, catchMark := none })
    else s
  | .held =>
    let s : State := s.modMonitor (fun m => { m with fallClock := 0 })
    if s.monitor.park then s.enterVerify else s.modMonitor (fun m => { m with state := .watch, watchCount := 0 })

/-- The fall of the drop in progress ends with a time and a kind (R134). -/
def State.endFall (s : State) (t : Nat) (kind : DropKind) : State :=
  s.modDrop (fun r => { r with fallTime := min t 2048, kind := kind })

/-- The last line of R134: a fall whose clock has reached the cap. -/
def State.capFall (s : State) : State :=
  if 2048 ≤ s.monitor.fallClock then
    (s.endFall 2048 .fallImpact).modMonitor (fun m => { m with state := .impact, settle := 0 })
  else s

/-- A scan in FALLING (R134). -/
def State.scanFalling (s : State) (v : ScanView) : State :=
  let s : State := s.modMonitor (fun m => { m with fallClock := min 65535 (m.fallClock + v.credit) })
  let t := s.monitor.fallClock
  match v.cls with
  | .impact => (s.endFall t .fallImpact).goImpact v
  | .held =>
    let mark := s.monitor.catchMark.getD t
    let s : State := s.modMonitor (fun m => { m with catchMark := some mark })
    if s.monitor.shock.catchTime ≤ t - mark then
      (s.endFall mark .fallCaught).modMonitor (fun m => { m with state := .settling, settle := 0 })
    else s.capFall
  | .free => (s.modMonitor (fun m => { m with catchMark := none })).capFall

/-- A scan in SETTLING (R136). -/
def State.scanSettling (s : State) (v : ScanView) : State :=
  match v.cls with
  | .impact => s.goImpact v
  | .free => s.judgeSettle v
  | .held => s.judgeSettle v

/-- The entries still SUSPECT or VERIFYING (R139). -/
def State.unresolved (s : State) : Nat := s.queue.countP (fun e => e.state == .suspect || e.state == .verifying)

/-- A scan in VERIFY (R139). -/
def State.scanVerify (s : State) (v : ScanView) : State :=
  match v.cls with
  | .held => s
  | .impact => (s.finishDrop s.unresolved).declareImpact v
  | .free => (s.finishDrop s.unresolved).goFallWait

/-- What a delivered shock scan does at the Drop Monitor (R129, R132 to R136, R139, R144). -/
def State.monitorScan (s : State) (v : ScanView) : State :=
  let s : State := s.modDrop (fun r => { r with lowestHoldUp := min r.lowestHoldUp v.holdUp })
  let s : State := match s.monitor.state with
    | .watch => s.scanWatch v
    | .fallWait => s.scanFallWait v
    | .falling => s.scanFalling v
    | .impact => s.scanImpact v
    | .settling => s.scanSettling v
    | .verify => s.scanVerify v
  s.modMonitor (fun m => { m with previous := some v.devs })

/-! ### Numbering at mount's load (R147) -/

/-- The number given at the load to a drop declared before it. -/
def DropRecord.numbered (total : Nat) (r : DropRecord) : DropRecord :=
  if r.ordinal = 0 then r else { r with number := min max32 (total + r.ordinal), ordinal := 0 }

/-- A waiting DROP entry carries the number given. -/
def IndexEntry.numbered (total : Nat) (e : IndexEntry) : IndexEntry :=
  match e.body with
  | .drop r => { e with body := .drop (r.numbered total) }
  | _ => e

/-- Mount has loaded the Drop List and drop total: the drops declared before take their numbers above the loaded total, and the
finished ones join the newest end of the list (R147). -/
def State.numberDrops (s : State) : State :=
  let total := s.monitor.total
  let s : State := { s with log := { s.log with waiting := s.log.waiting.map (IndexEntry.numbered total) } }
  s.modMonitor (fun m =>
    { m with
      total := min max32 (total + m.ordinals)
      drops := newest16 (m.drops ++ m.unnumbered.map (DropRecord.numbered total))
      drop := m.drop.map (DropRecord.numbered total)
      unnumbered := []
      ordinals := 0
      loaded := true })

end Sys2Proof.Machine
end

