-- ==== Sys2Proof/Machine/GaugeOps.lean ====
section
/-! DEFINITION. The Battery Gauge (Chapter 9): conversions, the processing of one delivery, the level, and the gauge report. -/

namespace Sys2Proof.Machine

/-! ### Conversions (R148) and derating (R156) -/

/-- VPACK in mV. -/
def vpackOf (c : Nat) : Nat := c * 12 / 5

/-- IPACK in mA; positive means discharge. -/
def ipackOf (c : Nat) : Int := ((c : Int) - 2048) * 2

/-- TPACK in tenths of a degree. -/
def tpackOf (c : Nat) : Int := ((c / 2 : Nat) : Int) - 400

/-- The derating factor, in sixteenths (R156). -/
def deratingFactor (t : Int) : Nat := if 100 ≤ t then 16 else if 0 ≤ t then 14 else if -100 ≤ t then 12 else 10

/-- The usable full charge (R156). -/
def usableFull (capacity factor : Nat) : Nat := capacity * factor / 16

/-- The state of charge in whole percent (R156); 0 where a stored design capacity gives a usable full charge of 0 (DESIGN CHOICE, log
entry 45). -/
def socOf (remaining usable : Nat) : Nat := min 100 (remaining * 100 / usable)

/-! ### The admission limit (R161) -/

/-- The pages the hold-up capacitor can see programmed. A stored hold-up step of 0 gives 0 pages (DESIGN CHOICE, log entry 45). -/
def GaugeSettings.pagesAt (v : GaugeSettings) (mv : Nat) : Nat :=
  if mv < v.holdUpMin then 0 else min 24 ((mv - v.holdUpMin) / v.holdUpStep)

/-- The level cap. -/
def levelCap : BatteryLevel → Nat
  | .normal => 24
  | .low => 24
  | .reserve => 8
  | .critical => 0

/-- The hold-up pages are recomputed from a VHOLD. -/
def Gauge.takeHold (g : Gauge) (mv : Nat) : Gauge := { g with vhold := some mv, holdUpPages := g.settings.pagesAt mv }

/-- L is recomputed from the hold-up pages and the level. -/
def Gauge.recompute (g : Gauge) : Gauge := { g with limit := min g.holdUpPages (levelCap g.level) }

/-- A shock-scan delivery at the gauge; one that carries the sampler-fault flag is unused (R126, R152). -/
def State.gaugeShock (s : State) (mv : Nat) : State :=
  if s.sampler.fault then s else { s with gauge := (s.gauge.takeHold mv).recompute }

/-! ### The power-on estimate (R154) -/

/-- The points of the estimate, as pairs of neighbours: VPACK and charge at the lower, VPACK and charge at the upper. -/
def estimatePieces : List (Nat × Nat × Nat × Nat) :=
  [(6000, 0, 6800, 1000), (6800, 1000, 7200, 3000), (7200, 3000, 7500, 5000), (7500, 5000, 7900, 8000), (7900, 8000, 8400, 10000)]

/-- The estimate in hundredths of a percent. -/
def estimateOf (vpack : Nat) : Nat :=
  let v := clamp 6000 8400 vpack
  match estimatePieces.find? (fun p => decide (v ≤ p.2.2.1)) with
  | some (vlo, slo, vhi, shi) => slo + (v - vlo) * (shi - slo) / (vhi - vlo)
  | none => 10000

/-- The power-on estimate is made. -/
def Gauge.estimateFrom (g : Gauge) (vpack : Nat) : Gauge :=
  { g with remaining := g.settings.capacity * estimateOf vpack / 10000, acc := 0, estimate := true, estimatePending := false }

/-! ### Charge counting (R155) -/

/-- One tenth of a mAh in mA·ticks. -/
abbrev tenthMah : Nat := 368640

/-- The charge of one scan is integrated; whether the step was a lowering (R155). -/
def Gauge.integrate (g : Gauge) (ipack : Int) (interval : Nat) : Gauge × Bool :=
  let a := g.acc + ipack * (clamp 1 8192 interval : Nat)
  if (tenthMah : Int) ≤ a then
    let k := a.toNat / tenthMah
    if g.remaining < k then ({ g with remaining := 0, acc := 0 }, true)
    else ({ g with remaining := g.remaining - k, acc := a - (k * tenthMah : Nat) }, true)
  else if a ≤ -(tenthMah : Int) then
    let k := (-a).toNat / tenthMah
    if g.settings.capacity < g.remaining + k then ({ g with remaining := g.settings.capacity, acc := 0, estimate := false }, false)
    else ({ g with remaining := g.remaining + k, acc := a + (k * tenthMah : Nat) }, false)
  else ({ g with acc := a }, false)

/-! ### The level (R157 to R159) -/

/-- The level that a state of charge gives from the level held (R157). -/
def levelBySoc : BatteryLevel → Nat → BatteryLevel
  | .normal, soc => if soc ≤ 8 then .reserve else if soc ≤ 20 then .low else .normal
  | .low, soc => if soc ≤ 8 then .reserve else if 23 ≤ soc then .normal else .low
  | .reserve, soc => if 23 ≤ soc then .normal else if 10 ≤ soc then .low else .reserve
  | .critical, _ => .critical

/-- The level that a rising charge gives at the exit from CRITICAL (R159). -/
def exitLevel (soc : Nat) : BatteryLevel := if 23 ≤ soc then .normal else if 10 ≤ soc then .low else .reserve

/-- The entry to CRITICAL, with the empty correction (R158). -/
def Gauge.enterCritical (g : Gauge) (factor usable : Nat) : Gauge :=
  { g with remaining := 0, acc := 0, estimate := false, lowRun := 0, recoveryRun := 0, level := .critical,
           judged := some { soc := none, factor := factor, usable := usable } }

/-- The level judgement of step 5; `emptied` says that step 4 was a lowering or made the estimate (R156 to R159). -/
def Gauge.judge (g : Gauge) (vpack : Nat) (ipack tpack : Int) (emptied : Bool) : Gauge :=
  let factor := deratingFactor tpack
  let usable := usableFull g.settings.capacity factor
  let soc := socOf g.remaining usable
  let g : Gauge := { g with judged := some { soc := some soc, factor := factor, usable := usable } }
  if g.level = .critical then
    if ipack < -50 ∧ g.settings.cutOff + 200 ≤ vpack then
      if 8 ≤ g.recoveryRun + 1 then { g with level := exitLevel soc, recoveryRun := 0 }
      else { g with recoveryRun := g.recoveryRun + 1 }
    else { g with recoveryRun := 0 }
  else
    let run := if vpack < g.settings.cutOff then g.lowRun + 1 else 0
    if 3 ≤ run ∨ (g.remaining = 0 ∧ emptied) then g.enterCritical factor usable
    else { g with lowRun := run, level := levelBySoc g.level soc }

/-! ### Pack presence (R153) -/

/-- Step 3 of a used gauge scan. -/
def State.judgePack (s : State) (vpack vhold : Nat) : State :=
  let g := s.gauge
  if vpack < g.settings.packPresent then
    if g.packLost then s
    else
      (({ s with gauge := { g with packLost := true, lowRun := 0, recoveryRun := 0 } }.raise
        (.packLost vpack vhold g.limit g.level)).modDrop (fun r => { r with packLost := true }))
  else if g.packLost then
    { s with gauge := { g with packLost := false } }.raise (.packReturned vpack vhold g.limit g.level)
  else s

/-! ### The consequences of a level change (R160) -/

/-- Steps 2 to 6 of R160. -/
def State.levelChanged (s : State) (old : BatteryLevel) : State :=
  let g := s.gauge
  let soc := match g.judged with
    | some j => j.soc.getD 0
    | none => 0
  let s : State := s.raise (.batteryLevel old g.level soc g.remaining (g.vpack.getD 0) (g.vhold.getD 0) g.limit)
  let s : State := if g.level = .reserve ∧ (old = .normal ∨ old = .low) then s.pauseRunning .reserve else s
  let s : State := if g.level = .critical then s.enterCriticalStreams.askShutdown else s
  let s : State := if old = .critical then s.cancelShutdown else s
  s.beginWake

/-! ### One gauge-scan delivery (R152) -/

/-- Whether mount has loaded the gauge settings, or has found none on an unformatted drive (R154). -/
def State.settingsKnown (s : State) : Bool := s.power.phase != .index

/-- Steps 4 and 5: the estimate or the integration, and the level judgement (R152). -/
def Gauge.count (g : Gauge) (known : Bool) (interval vpack : Nat) (ipack tpack : Int) : Gauge :=
  if g.packLost then g
  else if g.estimatePending then (if known then (g.estimateFrom vpack).judge vpack ipack tpack true else g)
  else
    let r := g.integrate ipack interval
    r.1.judge vpack ipack tpack r.2

/-- A gauge-scan delivery at the gauge; one that carries the sampler-fault flag is unused (R152). -/
def State.gaugeScan (s : State) (vhold vpack ipack tpack interval : Nat) : State :=
  if s.sampler.fault then s
  else
    let mv := vhold * 4
    let v := vpackOf vpack
    let i := ipackOf ipack
    let t := tpackOf tpack
    let old := s.gauge.level
    let s : State := { s with gauge := { s.gauge with vpack := some v, ipack := some i, tpack := some t }.takeHold mv }
    let s : State := s.judgePack v mv
    let s : State := { s with gauge := (s.gauge.count s.settingsKnown interval v i t).recompute }
    if s.gauge.level = old then s else s.levelChanged old

/-! ### Reports (R162) -/

/-- The gauge report. -/
def State.gaugeReport (s : State) : GaugeReport :=
  let g := s.gauge
  { level := g.level, remaining := g.remaining, acc := g.acc, judged := if g.estimatePending then none else g.judged,
    vhold := g.vhold, vpack := g.vpack, ipack := g.ipack, tpack := g.tpack, holdUpPages := g.holdUpPages, limit := g.limit,
    estimate := g.estimate, estimatePending := g.estimatePending, packLost := g.packLost, samplerFault := s.sampler.fault,
    lowRun := g.lowRun, recoveryRun := g.recoveryRun, settings := g.settings }

/-- The report alarm fires (R166). -/
def State.fireReport (s : State) : State :=
  let next := match s.clock.nextReport with
    | some t => some (wrap32 (t + s.gauge.settings.reportInterval))
    | none => none
  ({ s with clock := { s.clock with nextReport := next }, power := { s.power with alarmDue := false } }).raise (.report s.gaugeReport)

end Sys2Proof.Machine
end

