-- ==== Sys2Proof/Machine/ReadEngine.lean ====
section
/-! DEFINITION. The Read Engine (Chapter 6): the chain walk, the page search, the scan with its standing decisions, and the reply. -/

namespace Sys2Proof.Machine

/-- The last page that the engine considers in a segment: one below its write point (R108). -/
def State.lastPageOf (s : State) (g : Nat) : Nat :=
  match s.chainAt g with
  | some c => c.writePoint - 1
  | none => 0

/-- The first record sequence of a segment (R63). -/
def State.segFirstSeq (s : State) (g : Nat) : Nat :=
  match s.chainAt g with
  | some c => c.firstSeq
  | none => 0

/-- The next segment of a chain (R63). -/
def State.nextOf (s : State) (g : Nat) : Option Nat := (s.chainAt g).bind ChainInfo.next

/-- The segment at a place of the walk path. -/
def ReadContext.segAt (c : ReadContext) (i : Nat) : Nat := c.path.getD i 0

/-! ### The start (R106, R107) -/

/-- Whether a hint passes (R106). -/
def State.hintPasses (s : State) (survey index requested hint : Nat) : Bool :=
  decide (4 ≤ hint) && decide (hint < s.segCount) &&
    (match s.chainAt hint with
      | some c => c.survey == survey && c.index == index && decide (c.firstSeq ≤ requested)
      | none => false)

/-- The walk from the last segment of a path: the path, the links used, and whether a 65th link would be followed (R107). -/
def State.walk (s : State) (requested : Nat) : Nat → List Nat → Nat → List Nat × Nat × Bool
  | 0, path, links => (path, links, false)
  | fuel + 1, path, links =>
    match s.nextOf (path.getLastD 0) with
    | none => (path, links, false)
    | some g =>
      if requested < s.segFirstSeq g then (path, links, false)
      else if links = 64 then (path, links, true)
      else s.walk requested fuel (path ++ [g]) (links + 1)

/-! ### The end of a request (R113, R114) -/

/-- The segment nearest the end of the path whose first record sequence is at most the resume sequence (R113); the start segment where
none is, on a chain that has lost its lowest segments (DESIGN CHOICE, log entry 61). -/
def State.resumeHint (s : State) (c : ReadContext) : Nat :=
  match c.path.reverse.find? (fun g => decide (s.segFirstSeq g ≤ c.wanted)) with
  | some g => g
  | none => c.segAt 0

/-- The reply is composed, the context returns to IDLE, and the Operation Slot becomes free (R114). -/
def State.endRequest (s : State) (c : ReadContext) (status : Status) : State :=
  let head : ReadHead :=
    { survey := c.survey, index := c.index, entries := c.entries.length, maximum := c.maximum, hintUsed := c.hintUsed,
      links := c.links, resumeSeq := c.wanted, resumeHint := s.resumeHint c }
  { s with engine := none }.completeOp status (.records head c.entries)

/-- The engine asks for a page of a place on the path, in a phase (R115). -/
def State.ask (s : State) (c : ReadContext) (phase : EnginePhase) (i page : Nat) : State :=
  { s with engine := some { c with phase := phase, request := some (c.segAt i, page) } }

/-! ### Going forward (R111) -/

/-- Where a move forward arrives. -/
inductive Forward where
  | page (c : ReadContext) (at_ page : Nat)
  | chainEnd (c : ReadContext)
  | linkLimit (c : ReadContext)
deriving DecidableEq, Repr

/-- From a place on the path, the first page at or after it: in its segment, or at page 1 of the next, following a link not
already on the path up to the limit of 64 (R107, R111). -/
def State.forward (s : State) : Nat → ReadContext → Nat → Nat → Forward
  | 0, c, _, _ => .chainEnd c
  | fuel + 1, c, i, page =>
    if page ≤ s.lastPageOf (c.segAt i) then .page c i page
    else if i + 1 < c.path.length then s.forward fuel c (i + 1) 1
    else match s.nextOf (c.segAt i) with
      | none => .chainEnd c
      | some g =>
        if c.links = 64 then .linkLimit c
        else s.forward fuel { c with path := c.path ++ [g], links := c.links + 1 } (i + 1) 1

/-- The scan goes on at a place; at the end of the chain's written pages the status is END, at the link limit PARTIAL (R111,
R113). -/
def State.scanOn (s : State) (c : ReadContext) (i page : Nat) : State :=
  match s.forward 200 c i page with
  | .page c i p => s.ask c (.scan i p) i p
  | .chainEnd c => s.endRequest c .endOfData
  | .linkLimit c => s.endRequest c .partialRead

/-! ### Copying records (R112, R113) -/

/-- The bytes of the reply's payload so far. -/
def ReadContext.payloadSize (c : ReadContext) : Nat := 16 + (c.entries.map (fun e => 4 + e.bytes.length)).sum

/-- A record entry is added to the reply (R112); record sequences wrap (R36). -/
def ReadContext.addEntry (c : ReadContext) (fault : Bool) (seq : Nat) (bytes : List Byte) : ReadContext :=
  let expected := match c.lastSeq with
    | some l => wrap32 (l + 1)
    | none => c.requested
  { c with
    entries := c.entries ++ [{ voidNearby := fault, breakBefore := wrap32 seq != expected, bytes := bytes }]
    lastSeq := some (wrap32 seq)
    wanted := wrap32 (seq + 1) }

/-- The records of a standing page are copied from the next wanted sequence on; the status where assembly ends (R112, R113). Test 3 is
made before the first entry too: a stored record above 2,028 bytes ends the reply with PARTIAL and no records (DESIGN CHOICE, log
entry 60). -/
def ReadContext.copy (c : ReadContext) (fault : Bool) (data : List Byte) (seq : Nat) : List Nat → ReadContext × Option Status
  | [] => (c, none)
  | off :: rest =>
    if seq < c.wanted then c.copy fault data (seq + 1) rest
    else
      let bytes := slice data off (recordSizeAt data off)
      if 2048 < c.payloadSize + 4 + bytes.length then (c, some .partialRead)
      else
        let c := c.addEntry fault seq bytes
        if c.maximum ≤ c.entries.length then (c, some .ok) else c.copy fault data (seq + 1) rest

/-- The held page is found standing: its records are copied from the held store, and the scan goes on from the page after it
(R111, R112). -/
def State.standing (s : State) (c : ReadContext) (h : HeldPage) : State :=
  let data := match s.stores.held with
    | some im => im.data
    | none => []
  let fault := match s.chainAt (c.segAt h.at_) with
    | some x => decide (0 < x.voids)
    | none => false
  match c.copy fault data h.firstSeq (recordOffsets data h.count 0) with
  | (c, some status) => s.endRequest c status
  | (c, none) => s.scanOn c h.at_ (h.page + 1)

/-- The decision on the held page goes on at a place (R111). -/
def State.decideOn (s : State) (c : ReadContext) (h : HeldPage) (i page : Nat) : State :=
  match s.forward 200 c i page with
  | .page c i p => s.ask c (.decide h i p) i p
  | .chainEnd c => s.standing c h
  | .linkLimit c => s.endRequest c .partialRead

/-! ### The search (R109, R110) -/

/-- The search of the path's segments from a place on back; with no candidate in any, the scan starts at page 1 of the first
(R109, R110). -/
def State.searchBack (s : State) (c : ReadContext) : Nat → State
  | 0 =>
    let high := s.lastPageOf (c.segAt 0)
    if 1 ≤ high then s.ask c (.search 0 1 high none ((1 + high) / 2) ((1 + high) / 2)) 0 ((1 + high) / 2) else s.scanOn c 0 1
  | i + 1 =>
    let high := s.lastPageOf (c.segAt (i + 1))
    if 1 ≤ high then s.ask c (.search (i + 1) 1 high none ((1 + high) / 2) ((1 + high) / 2)) (i + 1) ((1 + high) / 2)
    else s.searchBack c i

/-- The search ends in a segment: the scan starts at the candidate, or the search steps back (R110). -/
def State.searchDone (s : State) (c : ReadContext) (i : Nat) (candidate : Option Nat) : State :=
  match candidate with
  | some p => s.scanOn c i p
  | none =>
    match i with
    | 0 => s.scanOn c 0 1
    | j + 1 => s.searchBack c j

/-- The search goes on between its bounds (R109). -/
def State.searchOn (s : State) (c : ReadContext) (i low high : Nat) (candidate : Option Nat) : State :=
  if low ≤ high then s.ask c (.search i low high candidate ((low + high) / 2) ((low + high) / 2)) i ((low + high) / 2)
  else s.searchDone c i candidate

/-! ### Read results (R108, R115) -/

/-- A usable page: VALID, of kind DATA, of the request's survey and stream index, and of its segment's sequence (R108). -/
def State.usable (s : State) (c : ReadContext) (g : Nat) (r : PageResult) : Option Trailer :=
  match r with
  | .valid t _ =>
    let seq := match s.chainAt g with
      | some x => some x.seq
      | none => none
    if t.kind = 2 ∧ t.survey = c.survey ∧ t.index = c.index ∧ seq = some t.seq then some t else none
  | _ => none

/-- The page just read becomes the page in the held store (R105, R111). -/
def State.hold (s : State) : State := { s with stores := { s.stores with held := s.stores.read } }

/-- A usable page met by the scan (R111). -/
def State.scanPage (s : State) (c : ReadContext) (i page : Nat) (t : Trailer) : State :=
  if t.firstSeq + t.count ≤ c.wanted then s.scanOn c i (page + 1)
  else s.hold.decideOn c { at_ := i, page := page, firstSeq := t.firstSeq, count := t.count } i (page + 1)

/-- A usable page met by the decision on the held page (R111). -/
def State.decidePage (s : State) (c : ReadContext) (h : HeldPage) (i page : Nat) (t : Trailer) : State :=
  if t.rewrite then
    if t.firstSeq = h.firstSeq then s.scanOn c h.at_ (h.page + 1) else s.decideOn c h i (page + 1)
  else s.standing c h

/-- A read result at an ACTIVE context (R109 to R111, R115). -/
def State.engineResult (s : State) (c : ReadContext) (g : Nat) (r : PageResult) : State :=
  let c : ReadContext := { c with request := none }
  let page := s.usable c g r
  match c.phase with
  | .search i low high candidate probe reading =>
    match page with
    | some t =>
      if t.firstSeq ≤ c.requested then s.searchOn c i (reading + 1) high (some reading)
      else s.searchOn c i low (probe - 1) candidate
    | none =>
      if reading + 1 ≤ s.lastPageOf g then s.ask c (.search i low high candidate probe (reading + 1)) i (reading + 1)
      else s.searchOn c i low (probe - 1) candidate
  | .scan i p =>
    match page with
    | some t => s.scanPage c i p t
    | none => s.scanOn c i (p + 1)
  | .decide h i p =>
    match page with
    | some t => s.decidePage c h i p t
    | none => s.decideOn c h i (p + 1)

/-- The page a read delivers stands in the read store (R78, R105); a failed read delivers none. -/
def State.storeRead (s : State) (im : Option PageImage) : State := { s with stores := { s.stores with read := im } }

/-- A Read Engine read ends; a discarded one, or one without a context, is not used (R78, R115, R116). -/
def State.engineReadEnd (s : State) (g p : Nat) (discard : Bool) (r : ReadOutcome) : State :=
  let im := outcomeImage r s.media.flash g p
  let result := judgePage s.media.generation im
  let s : State := s.endRead
  match s.engine with
  | some c => if discard then s else (s.storeRead im).engineResult c g result
  | none => s

/-- The start of an accepted READ-RECORDS, which stands in the Operation Slot: the start segment, the walk, and the first search
(R106, R107). -/
def State.startRequest (s : State) (survey index requested maximum : Nat) (hint : Option Nat) (head : Nat) : State :=
  let used := match hint with
    | some h => s.hintPasses survey index requested h
    | none => false
  let start := if used then hint.getD head else head
  let (path, links, limited) := s.walk requested 70 [start] 0
  let c : ReadContext :=
    { survey := survey, index := index, requested := requested, maximum := clamp 1 64 maximum, hintUsed := used, path := path,
      links := links, phase := .scan 0 1, wanted := requested, lastSeq := none, entries := [], request := none }
  if limited then s.endRequest c .partialRead else s.searchBack c (path.length - 1)

end Sys2Proof.Machine
end

