-- ==== Sys2Proof/Machine/MountOps.lean ====
section
/-! DEFINITION. Mount (section 10.4): the snapshot, the replay, the segments, the write points, the restore, and READY. -/

namespace Sys2Proof.Machine

/-! ### Surveys from records -/

/-- The survey that a survey record gives: confirmed, its chains absent (R175). -/
def SurveyRecord.survey (r : SurveyRecord) : Survey :=
  { number := r.number, confirmed := true, name := r.name, state := r.state, creator := r.creator,
    readThreshold := r.readThreshold, eraseThreshold := r.eraseThreshold, created := r.created, closed := r.closed,
    streamCount := 0, heads := List.replicate 8 none, tails := List.replicate 8 none, dropCount := r.dropCount,
    lastDrop := r.lastDrop, hadPowerLoss := r.hadPowerLoss, hadSuspect := r.hadSuspect, hadVoid := r.hadVoid }

/-- A survey joins the table, which stands in ascending order of survey number (R81). -/
def insertSurvey (v : Survey) : List Survey → List Survey
  | [] => [v]
  | w :: rest => if v.number < w.number then v :: w :: rest else w :: insertSurvey v rest

/-! ### The replay of an entry (R95) -/

/-- A SURVEY-OPENED entry is replayed. -/
def State.replayOpened (s : State) (r : SurveyRecord) : State :=
  let fresh : Survey :=
    { r.survey with state := .open, closed := none, dropCount := 0, lastDrop := 0, hadPowerLoss := false, hadSuspect := false,
                    hadVoid := false }
  { s with table := { s.table with
    surveys := if (s.surveyAt r.number).isSome then s.table.surveys else insertSurvey fresh s.table.surveys
    nextNumber := max s.table.nextNumber (r.number + 1) } }

/-- A DROP entry is replayed. -/
def State.replayDrop (s : State) (r : DropRecord) : State :=
  let known := s.monitor.drops.any (fun d => d.number == r.number)
  let s : State := s.modMonitor (fun m =>
    { m with drops := if known then m.drops else newest16 (m.drops ++ [r]), total := max m.total r.number })
  { s with table := { s.table with surveys := s.table.surveys.map (fun v =>
      if r.surveys.contains v.number ∧ v.lastDrop < r.number then
        { v with dropCount := satAdd 65535 v.dropCount 1, lastDrop := r.number } else v) } }

/-- An entry is replayed (R95). -/
def State.replayBody (s : State) (body : EntryBody) : State :=
  match body with
  | .surveyOpened r => s.replayOpened r
  | .surveyClosed r => s.modSurvey r.number (fun v =>
      if v.state = .open then
        { v with state := .closed, closed := r.closed, dropCount := r.dropCount, lastDrop := r.lastDrop,
                 hadPowerLoss := r.hadPowerLoss, hadSuspect := r.hadSuspect, hadVoid := r.hadVoid }
      else v)
  | .thresholdsSet n r e => s.modSurvey n (fun v => { v with readThreshold := r, eraseThreshold := e })
  | .surveyLocked n => s.modSurvey n (fun v => if v.state = .closed then { v with state := .locked } else v)
  | .surveyErased n => s.removeSurvey n
  | .ports l => { s with table := { s.table with stored := l, present := l } }
  | .shock v => s.modMonitor (fun m => { m with shock := v })
  | .gauge v => s.takeGaugeSettings v
  | .drop r => s.replayDrop r
  | .powerDown => s

/-- An entry's replay, with the clean-shutdown indication: set by POWER-DOWN, cleared by any other; an entry whose kind names no
code is passed over (R95, R189). -/
def State.replayPage (s : State) (data : List Byte) : State :=
  match entryOf data with
  | none => s
  | some body =>
    let s : State := s.replayBody body
    { s with log := { s.log with clean := body.isPowerDown } }

/-! ### READY (R178) -/

/-- The segments by state (R80). -/
def State.segCounts (s : State) : SegCounts :=
  { free := s.countSegs .free, erasing := s.countSegs .erasing, ready := s.countSegs .ready, taken := s.countSegs .taken,
    active := s.countSegs .active, full := s.countSegs .full, bad := s.countSegs .bad, index := s.countSegs .index }

/-- The mount phase becomes READY (R178). A MEDIA notice of the media-full test is raised before the MOUNTED notice, as the rule lists
them. -/
def State.becomeReady (s : State) (restored notRestored : Nat) : State :=
  let s : State := { s with power := { s.power with phase := .ready }, mount := .done }
  let s : State := s.testMediaFull false
  s.raise (.mounted s.power.unformatted s.media.generation s.segCount s.segCounts restored notRestored s.log.clean)

/-- A drive found unformatted (R147, R178): the waiting index entries are given up (R96). -/
def State.mountUnformatted (s : State) : State :=
  let left := s.port.tx.length
  let s : State := { s with
    power := { s.power with unformatted := true }
    media := { s.media with generation := 0, segs := [] }
    table := { surveys := [], nextNumber := 1, stored := formatLevels, present := formatLevels } }
  let s : State := s.numberDrops.giveUpAll left
  s.becomeReady 0 0

/-! ### The INDEX phase (R175, R100) -/

/-- Whether format generation `a` is higher than `b` across the wrap (R175). -/
def laterGeneration (a b : Nat) : Bool :=
  let d := ((a : Int) - (b : Int)) % 65535
  decide (1 ≤ d) && decide (d ≤ 32767)

/-- Whether a candidate is chosen over another (R175). -/
def SnapshotCandidate.newer (a b : SnapshotCandidate) : Bool :=
  laterGeneration a.formatGeneration b.formatGeneration
    || (a.formatGeneration == b.formatGeneration && decide (b.indexGeneration < a.indexGeneration))

/-- A page read as a snapshot candidate (R175). -/
def candidateOf (g : Nat) (im : Option PageImage) : Option SnapshotCandidate :=
  match im with
  | none => none
  | some im =>
    let t := trailerOf im.spare
    if im.crcMatches && t.kind == 4 then
      some { segment := g, formatGeneration := t.generation, indexGeneration := t.firstSeq, data := im.data }
    else none

/-- The better of two candidates. Of two with the same generations the one read first is kept (DESIGN CHOICE, log entry 55). -/
def bestCandidate (best new : Option SnapshotCandidate) : Option SnapshotCandidate :=
  match best, new with
  | some b, some n => if n.newer b then some n else some b
  | some b, none => some b
  | none, n => n

/-- The segments as mount holds them before the headers are read: 0 to 3 INDEX, the others FREE (R176). -/
def mountSegs (n : Nat) : List Segment :=
  (List.range n).map (fun g => { state := if g < 4 then .index else .free, chain := none, headerFailed := false })

/-- The chosen snapshot is loaded (R175). -/
def State.loadSnapshot (s : State) (c : SnapshotCandidate) : State :=
  let b := snapshotOf c.data
  let s : State := { s with
    table := { surveys := b.surveys.map SurveyRecord.survey, nextNumber := b.nextNumber, stored := b.stored, present := b.stored }
    media := { s.media with generation := c.formatGeneration, segs := mountSegs b.n }
    monitor := { s.monitor with shock := b.shock, drops := b.drops, total := b.dropTotal }
    log := { s.log with clean := false, generation := c.indexGeneration } }
  { (s.takeGaugeSettings b.gauge) with mount := .replay c.segment 1 b.nextSeq none }

/-! ### The SEGMENTS phase (R176) -/

/-- Whether a segment stands in a chain with a survey, stream index and sequence. -/
def Segment.hasPlace (x : Segment) (survey index seq : Nat) : Bool :=
  match x.chain with
  | some c => c.survey == survey && c.index == index && c.seq == seq
  | none => false

/-- Duplicates are resolved: the member with the lowest segment number stays (R176). `seen` holds the segments below. -/
def dropDuplicates (seen : List Segment) : List Segment → List Segment
  | [] => []
  | x :: xs =>
    let dup := match x.chain with
      | some c => seen.any (fun y => y.hasPlace c.survey c.index c.seq)
      | none => false
    let y : Segment := if dup then { x with state := .free, chain := none } else x
    y :: dropDuplicates (y :: seen) xs

/-- The members of a chain as sequence and segment number. -/
def membersOf (segs : List Segment) (survey index : Nat) : List (Nat × Nat) :=
  (List.range segs.length).filterMap (fun g =>
    match (segs[g]?).bind Segment.chain with
    | some c => if c.survey = survey ∧ c.index = index then some (c.seq, g) else none
    | none => none)

/-- The member of lowest sequence. -/
def lowestMember : List (Nat × Nat) → Option (Nat × Nat)
  | [] => none
  | m :: ms =>
    match lowestMember ms with
    | some k => if m.1 ≤ k.1 then some m else some k
    | none => some m

/-- The member of highest sequence. -/
def highestMember : List (Nat × Nat) → Option (Nat × Nat)
  | [] => none
  | m :: ms =>
    match highestMember ms with
    | some k => if k.1 ≤ m.1 then some m else some k
    | none => some m

/-- Each member is linked to the next present one (R176). -/
def linkSeg (segs : List Segment) (x : Segment) : Segment :=
  match x.chain with
  | some c =>
    { x with chain := some { c with
      next := (lowestMember ((membersOf segs c.survey c.index).filter (fun m => decide (c.seq < m.1)))).map Prod.snd } }
  | none => x

/-- A survey takes its chain heads and tails and its stream count (R176). -/
def Survey.linkChains (segs : List Segment) (v : Survey) : Survey :=
  let heads := (List.range 8).map (fun i => (lowestMember (membersOf segs v.number i)).map Prod.snd)
  { v with
    heads := heads
    tails := (List.range 8).map (fun i => (highestMember (membersOf segs v.number i)).map Prod.snd)
    streamCount := heads.countP Option.isSome }

/-- The chains in ascending survey number and stream index (R177). -/
def chainList (surveys : List Survey) : List (Nat × Nat) :=
  surveys.flatMap (fun v => (List.range 8).filterMap (fun i => if (v.headOf i).isSome then some (v.number, i) else none))

/-- The header page of a data segment places it (R176). A trailer with a stream index above 7, which R176's table leaves out, leaves the
segment FREE (DESIGN CHOICE, log entry 68). -/
def State.placeHeader (s : State) (g : Nat) (r : PageResult) : State :=
  match r with
  | .valid t _ =>
    if t.kind = 1 ∧ t.index ≤ 7 ∧ (s.surveyAt t.survey).isSome then
      let info : ChainInfo :=
        { survey := t.survey, index := t.index, seq := t.seq, firstSeq := t.firstSeq, next := none, writePoint := 256, voids := 0 }
      s.modSeg g (fun x => { x with state := .full, chain := some info })
    else s
  | _ => s

/-! ### The WRITE-POINTS phase (R177) -/

/-- Whether a page of mount's reads counts void: VOID or FAILED (R177). -/
def PageResult.countsVoid : PageResult → Bool
  | .erased => false
  | .valid _ _ => false
  | .void => true
  | .failed => true

/-- Whether a page reads ERASED. -/
def PageResult.isErased : PageResult → Bool
  | .erased => true
  | .valid _ _ => false
  | .void => false
  | .failed => false

/-- The segment before another in its chain. -/
def State.prevSeg (s : State) (g : Nat) : Option Nat :=
  (List.range s.segCount).find? (fun h => s.nextOf h == some g)

/-- The page before a page in chain order, page 1 of the chain head having none (R177). -/
def State.pageBefore (s : State) (g p : Nat) : Option (Nat × Nat) :=
  if 2 ≤ p then some (g, p - 1) else (s.prevSeg g).map (fun h => (h, 255))

/-- The records' output index of a page: that of the last record that carries one (R19, R177). -/
def lastOutputIndex (data : List Byte) (count : Nat) : Option Nat :=
  ((recordOffsets data count 0).filterMap (recordOutputIndex data)).getLast?

/-- Whether the last record of a page is a STOP marker (R19). -/
def endsInStop (data : List Byte) (count : Nat) : Bool :=
  match (recordOffsets data count 0).getLast? with
  | some off => field data off 1 == 8
  | none => false

/-- A VALID DATA page of a chain's survey and stream index (R177). -/
def chainPage (survey index : Nat) (r : PageResult) : Option (Trailer × List Byte) :=
  match r with
  | .valid t data => if t.kind = 2 ∧ t.survey = survey ∧ t.index = index then some (t, data) else none
  | _ => none

/-- Of two pages, the one whose last record sequence is higher, the one read first (the later in chain order) where equal (R177). -/
def betterPage (best : Option LastPage) (new : LastPage) : LastPage :=
  match best with
  | some b => if b.firstSeq + b.count < new.firstSeq + new.count then new else b
  | none => new

/-- Whether a chain's stream is to be restored: of an OPEN survey, its last record not a STOP marker (R19, R177). -/
def State.restorable (s : State) (r : ChainResult) : Bool :=
  !r.stopped && (match s.surveyAt r.survey with
    | some v => v.state == .open
    | none => false)

/-- The contents of a restored slot (R19). -/
def restoredSlot (r : ChainResult) (d : Descriptor) (t : Stamp) : Slot :=
  { state := .paused
    reason := some .restore
    desc := some d
    outputIndex := r.outputIndex
    nextSeq := match r.lastSeq with
      | some n => wrap32 (n + 1)
      | none => 0
    markers := { power := some { stamp := t, index := r.outputIndex, reason := .restore } } }

/-- One stream is restored into a slot: its tail becomes ACTIVE, its survey's had-power-loss flag is set (R19, R177). -/
def State.restoreOne (s : State) (i : Nat) (r : ChainResult) (d : Descriptor) : State :=
  let s : State := s.modSlot i (fun _ => restoredSlot r d s.stamp)
  let s : State := s.modSurvey r.survey (fun v => { v with hadPowerLoss := true })
  match s.tailOf r.survey r.index with
  | some g => s.setSegState g .active
  | none => s

/-- The streams are restored from slot 0 upward (R19). -/
def State.restoreAll (s : State) (i : Nat) : List (ChainResult × Descriptor) → State
  | [] => s
  | (r, d) :: rest => (s.restoreOne i r d).restoreAll (i + 1) rest

/-- Every chain has been read: the tails to restore from are read next, or mount ends (R177). -/
def State.endChains (s : State) (done : List ChainResult) : State :=
  match (done.filter s.restorable).take 16 with
  | [] => s.becomeReady 0 0
  | c :: cs => { s with mount := .restore (c :: cs) [] done }

/-- Mount goes on with the next chain, or ends (R177). -/
def State.nextChain (s : State) (left : List (Nat × Nat)) (done : List ChainResult) : State :=
  match left with
  | [] => s.endChains done
  | c :: cs => { s with mount := .chains (c :: cs) (.writePoint 1 255 false []) done }

/-- A chain is finished with its result. -/
def State.chainDone (s : State) (left : List (Nat × Nat)) (done : List ChainResult) (r : ChainResult) : State :=
  s.nextChain left.tail (done ++ [r])

/-- What a page read back gives for the output index, added to what the pages read before it gave (R19, R177). -/
def addMark (page : Option (Trailer × List Byte)) (marks : List IndexMark) : List IndexMark :=
  match page with
  | some (t, data) =>
    match lastOutputIndex data t.count with
    | some n => { firstSeq := t.firstSeq, outputIndex := n } :: marks
    | none => marks
  | none => marks

/-- Of two marks, the one of the later records. -/
def laterMark (a b : IndexMark) : IndexMark := if a.firstSeq < b.firstSeq then b else a

/-- The mark of the latest records before a sequence: that of the nearest earlier record that carries an output index (R19). -/
def nearestMark (before : Nat) : List IndexMark → Option IndexMark
  | [] => none
  | m :: ms =>
    if before ≤ m.firstSeq then nearestMark before ms
    else match nearestMark before ms with
      | some n => some (laterMark m n)
      | none => some m

/-- Whether a page read back settles the output index: a page without the rewrite flag, of earlier records than the last page, that
gives one. No page before it in chain order holds later records of the stream (R66, R177; log entry 52). -/
def settlesIndex (before : Nat) (page : Option (Trailer × List Byte)) : Bool :=
  match page with
  | some (t, data) => !t.rewrite && decide (t.firstSeq < before) && (lastOutputIndex data t.count).isSome
  | none => false

/-- The chain's result: its last record, and the output index of R19 from the last page or from the nearest earlier record read. -/
def chainResult (survey index : Nat) (b : LastPage) (marks : List IndexMark) : ChainResult :=
  { survey := survey, index := index, lastSeq := some (b.firstSeq + b.count - 1), stopped := endsInStop b.data b.count,
    outputIndex := match lastOutputIndex b.data b.count, nearestMark b.firstSeq marks with
      | some n, _ => n
      | none, some m => m.outputIndex
      | none, none => 0 }

/-- The last page is known, the backward reading having come to a page: the chain is finished, or, where the last page gives no output
index and the pages read do not settle it, mount reads further back (R19, R177; log entry 52). -/
def State.lastKnown (s : State) (survey index : Nat) (left : List (Nat × Nat)) (done : List ChainResult) (b : LastPage)
    (marks : List IndexMark) (page : Option (Trailer × List Byte)) (before : Option (Nat × Nat)) : State :=
  if (lastOutputIndex b.data b.count).isSome || settlesIndex b.firstSeq page then
    s.chainDone left done (chainResult survey index b marks)
  else match before with
    | some (g, p) => { s with mount := .chains left (.output g p b marks) done }
    | none => s.chainDone left done (chainResult survey index b marks)

/-- The backward reading has ended without a VALID DATA page, or with the last page (R177 step 3). -/
def State.lastRead (s : State) (survey index : Nat) (left : List (Nat × Nat)) (done : List ChainResult) (best : Option LastPage)
    (marks : List IndexMark) (page : Option (Trailer × List Byte)) (before : Option (Nat × Nat)) : State :=
  match best with
  | none => s.chainDone left done { survey := survey, index := index, lastSeq := none, stopped := false, outputIndex := 0 }
  | some b => s.lastKnown survey index left done b marks page before

/-- The backward reading starts below the write point (R177 step 3). -/
def State.startLast (s : State) (survey index : Nat) (left : List (Nat × Nat)) (done : List ChainResult) : State :=
  match s.tailOf survey index with
  | none => s.lastRead survey index left done none [] none none
  | some g =>
    match s.pageBefore g (match s.chainAt g with | some c => c.writePoint | none => 1) with
    | some (h, p) => { s with mount := .chains left (.last h p none []) done }
    | none => s.lastRead survey index left done none [] none none

/-- The void count of the tail is known (R177 step 2). -/
def State.voidsKnown (s : State) (survey index : Nat) (left : List (Nat × Nat)) (done : List ChainResult) (count : Nat) : State :=
  let s : State := match s.tailOf survey index with
    | some g => s.modChain g (fun c => { c with voids := count })
    | none => s
  let s : State := if 0 < count then s.modSurvey survey (fun v => { v with hadVoid := true }) else s
  s.startLast survey index left done

/-- The write point is known: pages w − 1 and w − 2 not yet read are read, and the void ones counted (R177 steps 1 and 2). -/
def State.pointKnown (s : State) (survey index : Nat) (left : List (Nat × Nat)) (done : List ChainResult) (w : Nat)
    (probed : List (Nat × Bool)) : State :=
  let s : State := match s.tailOf survey index with
    | some g => s.modChain g (fun c => { c with writePoint := w })
    | none => s
  let pages := (if 2 ≤ w then [w - 1] else []) ++ (if 3 ≤ w then [w - 2] else [])
  let unread := pages.filter (fun p => !probed.any (fun q => q.1 == p))
  let count := (pages.filter (fun p => probed.any (fun q => q.1 == p && q.2))).length
  match unread with
  | [] => s.voidsKnown survey index left done count
  | p :: ps => { s with mount := .chains left (.voids (p :: ps) count) done }

/-- The binary search goes on between its bounds (R177 step 1). -/
def State.searchPoint (s : State) (survey index : Nat) (left : List (Nat × Nat)) (done : List ChainResult) (low high : Nat)
    (probed : List (Nat × Bool)) : State :=
  if low ≤ high then { s with mount := .chains left (.writePoint low high false probed) done }
  else s.pointKnown survey index left done low probed

/-- A read of the WRITE-POINTS phase ends (R177). -/
def State.chainRead (s : State) (survey index : Nat) (left : List (Nat × Nat)) (done : List ChainResult) (work : ChainWork)
    (r : PageResult) : State :=
  match work with
  | .writePoint low high false probed =>
    let p := middle low high
    let probed := (p, r.countsVoid) :: probed
    if !r.isErased then s.searchPoint survey index left done (p + 1) high probed
    else if p + 1 ≤ 255 then { s with mount := .chains left (.writePoint low high true probed) done }
    else s.searchPoint survey index left done low (p - 1) probed
  | .writePoint low high true probed =>
    let p := middle low high
    let probed := (p + 1, r.countsVoid) :: probed
    if r.isErased then s.searchPoint survey index left done low (p - 1) probed
    else s.searchPoint survey index left done (p + 1) high probed
  | .voids pages count =>
    let count := count + (if r.countsVoid then 1 else 0)
    match pages.tail with
    | [] => s.voidsKnown survey index left done count
    | p :: ps => { s with mount := .chains left (.voids (p :: ps) count) done }
  | .last g p best marks =>
    let page := chainPage survey index r
    let marks := addMark page marks
    let best := match page with
      | some (t, data) => some (betterPage best { segment := g, page := p, firstSeq := t.firstSeq, count := t.count, data := data })
      | none => best
    let stop := match page with
      | some (t, _) => !t.rewrite
      | none => false
    match s.pageBefore g p with
    | some (h, q) => if stop then s.lastRead survey index left done best marks page (some (h, q))
        else { s with mount := .chains left (.last h q best marks) done }
    | none => s.lastRead survey index left done best marks page none
  | .output g p best marks =>
    let page := chainPage survey index r
    s.lastKnown survey index left done best (addMark page marks) page (s.pageBefore g p)

/-- The last header has been read: duplicates are resolved, the chains are built, and every FREE segment joins the Free List
(R176). -/
def State.buildChains (s : State) : State :=
  let kept := dropDuplicates [] s.media.segs
  let segs := kept.map (linkSeg kept)
  let surveys := s.table.surveys.map (Survey.linkChains segs)
  let free := (List.range segs.length).filter (fun g => (segs[g]?).any (fun x => x.state == .free))
  let s : State := { s with
    media := { s.media with segs := segs, free := free, ready := [] }
    table := { s.table with surveys := surveys }
    power := { s.power with phase := .writePoints } }
  s.nextChain (chainList surveys) []

/-- Mount goes on with the header of a data segment, or, past the last, with the chains (R176). -/
def State.nextHeader (s : State) (g : Nat) : State :=
  if g < s.segCount then { s with mount := .headers g } else s.buildChains

/-- Replay ends: the log takes its position, and the drops declared before take their numbers (R100, R147, R175). -/
def State.endReplay (s : State) (g writePoint nextSeq : Nat) : State :=
  let s : State := { s with
    log := { s.log with current := some g, writePoint := writePoint, nextSeq := nextSeq }
    power := { s.power with phase := .segments } }
  (s.numberDrops.nextHeader 4).pumpLog

/-- Replay goes on at a page, or ends after page 255 (R100). -/
def State.replayOn (s : State) (g page expect : Nat) (passed : Option Bool) : State :=
  if page ≤ 255 then { s with mount := .replay g page expect passed }
  else
    s.endReplay g (match passed with
      | some true => page - 1
      | some false => page
      | none => page) expect

/-- The end of the standing entries at a page where the page before did not stand: an ERASED page is passed over as a void one where
a written page follows it (R59, R100). -/
def passedPoint (page : Nat) (erased : Bool) (r : PageResult) : Nat := if erased && r.isErased then page - 1 else page

/-- A replay read ends (R100, R175). -/
def State.replayRead (s : State) (g page expect : Nat) (passed : Option Bool) (r : PageResult) : State :=
  match r with
  | .valid t data =>
    if t.kind = 3 ∧ t.firstSeq = expect then (s.replayPage data).replayOn g (page + 1) (wrap32 (expect + 1)) none
    else match passed with
      | some e => s.endReplay g (passedPoint page e r) expect
      | none => s.endReplay g page expect
  | _ =>
    match passed with
    | some e => s.endReplay g (passedPoint page e r) expect
    | none => s.replayOn g (page + 1) expect (some r.isErased)

/-- The descriptor a header page gives at the restore, or, where it does not read, a free value with the chain's survey and stream
index (R177; log entry 7). -/
def restoreDescriptor (g survey index : Nat) (r : PageResult) : Descriptor :=
  match r with
  | .valid t data => if t.kind = 1 then descriptorOf data else unread
  | _ => unread
where
  unread : Descriptor :=
    { descriptorOf ((List.range 32).map (Config.unreadDescriptorByte g)) with survey := survey, index := index }

/-- The last tail header has been read: the streams are restored, and mount ends (R177, R178). -/
def State.endRestore (s : State) (read : List (ChainResult × Descriptor)) (done : List ChainResult) : State :=
  (s.restoreAll 0 read).becomeReady read.length ((done.filter s.restorable).length - read.length)

/-- A mount read ends (R174 to R178). -/
def State.mountReadEnd (s : State) (g p : Nat) (o : ReadOutcome) : State :=
  let im := outcomeImage o s.media.flash g p
  let r := judgePage s.media.generation im
  let s : State := s.endRead
  match s.mount with
  | .heads next best =>
    let best := bestCandidate best (candidateOf g im)
    if next < 3 then { s with mount := .heads (next + 1) best }
    else match best with
      | some c => s.loadSnapshot c
      | none => s.mountUnformatted
  | .replay seg page expect passed => s.replayRead seg page expect passed r
  | .headers next => (s.placeHeader next r).nextHeader (next + 1)
  | .chains ((survey, index) :: left) work done => s.chainRead survey index ((survey, index) :: left) done work r
  | .chains [] _ done => s.endChains done
  | .restore (c :: left) read done =>
    let read := read ++ [(c, restoreDescriptor g c.survey c.index r)]
    if left.isEmpty then s.endRestore read done else { s with mount := .restore left read done }
  | .restore [] read done => s.endRestore read done
  | .done => s

end Sys2Proof.Machine
end

