-- ==== Sys2Proof/Machine/FormatOps.lean ====
section
/-! DEFINITION. FORMAT (R102, R103): waiting for the operation and the index entry in flight, the new tables, the erases. -/

namespace Sys2Proof.Machine

/-- N as taken (R102). -/
def takenN (asked reported : Nat) : Nat := min (clamp 64 4096 asked) reported

/-- The next format generation, wrapping from 65535 to 1 (R102). After a FORMAT that ended with MEDIA on a drive whose unformatted mark
still stands, 1 is added to the generation held, whatever the mark says (DESIGN CHOICE, log entry 59). -/
def nextGeneration (g : Nat) : Nat := if 65535 ≤ g then 1 else g + 1

/-- The tables and the pool as FORMAT sets them (R55, R80, R102). -/
def State.formatTables (s : State) (n : Nat) : State :=
  { s with
    table := { surveys := [], nextNumber := 1, stored := formatLevels, present := formatLevels }
    slots := s.slots.map (fun _ => {})
    queue := []
    pool := { s.pool with
      buffers := s.pool.buffers.map (fun b => if b.state = .queued then { b with state := .free } else b)
      streamWaiters := [] }
    media := { s.media with
      generation := nextGeneration s.media.generation
      segs := mountSegs n
      ready := []
      free := []
      takes := []
      segWaiters := []
      mediaFull := false
      fairness := 0 }
    monitor := { s.monitor with shock := {} } }

/-- The buffer that a rollover in progress holds returns to FREE (R102). -/
def State.endRollover (s : State) : State :=
  match s.log.rollover with
  | .program _ b => s.releaseBuffer b
  | .none => s
  | .erase _ => s
  | .waitBuffer _ => s

/-- The Index Log as FORMAT leaves it before its erases: its entries given up, its rollover ended, and LOG-FAILED ended where an
earlier rollover entered it while FORMAT waited (R99, R101, R102). -/
def State.formatLog (s : State) : State :=
  let left := s.port.tx.length
  let s : State := (s.endRollover).giveUpAll left
  { s with
    log := { s.log with
      current := none
      writePoint := 0
      generation := 0
      nextSeq := 0
      stage := .idle
      rollover := .none
      forceRollover := false
      failed := false
      clean := false }
    pool := { s.pool with indexWaiters := [] } }

/-- Steps 1 to 3 of R102, and the first erase requested. -/
def State.formatBegin (s : State) (r : FormatRun) : State :=
  let n := takenN r.n s.media.reportedSegments
  let s : State := (s.formatLog).formatTables n
  let s : State := s.takeGaugeSettings {}
  { s with formatRun := some { stage := .erasing 0, n := n } }.judgeVerify

/-- Whether an index entry is in flight: a program of it has been issued, and it has not ended (R102). -/
def State.entryInFlight (s : State) : Bool :=
  match s.log.waiting with
  | e :: _ => e.issued
  | [] => false

/-- A FORMAT that waits goes on once no media operation and no index entry is in flight (R102). -/
def State.formatGate (s : State) : State :=
  match s.formatRun with
  | some r =>
    if r.stage = .waiting ∧ s.media.op = none ∧ s.entryInFlight = false then s.formatBegin r else s
  | none => s

/-- A FORMAT is accepted; it empties the unusable set, and LOG-FAILED lasts until it (R99, R102). -/
def State.startFormat (s : State) (n : Nat) : State :=
  { s with log := { s.log with unusable := [], failed := false }, formatRun := some { stage := .waiting, n := n } }.formatGate

/-- FORMAT's erase of a segment ends: a data segment becomes READY at the tail of the Ready List, or BAD; a failed index segment
joins the unusable set. After the last, the rollover is made (R80, R102). -/
def State.formatEraseEnd (s : State) (g : Nat) (ok : Bool) : State :=
  let s : State := s.endErase g ok
  match s.formatRun with
  | none => s
  | some r =>
    let s : State :=
      if g < 4 then
        if ok then s else { s with log := { s.log with unusable := addUnusable g s.log.unusable } }
      else if ok then
        let s : State := s.setSegState g .ready
        { s with media := { s.media with ready := s.media.ready ++ [g] } }
      else (s.setSegState g .bad).raise (.media (.erase g))
    if g + 1 < r.n then { s with formatRun := some { r with stage := .erasing (g + 1) } }
    else { s with formatRun := some { r with stage := .rollover } }.nextRollover

end Sys2Proof.Machine
end

