-- ==== Sys2Proof/Machine/Operands.lean ====
section
/-! DEFINITION. The fields of every command's request (section 12.1), with KEEP, ranges and clamps, and the STREAM-LOAD
parameters (R3, R20, R130, R150). -/

namespace Sys2Proof.Machine

/-- Whether a command is time-taking (section 11.4). -/
def Opcode.timeTaking : Opcode → Bool
  | .status => false
  | .linkReset => false
  | .noticeMaskSet => false
  | .noticeMaskClear => false
  | .clockRead => false
  | .clockSet => false
  | .streamLoad => true
  | .streamStart => false
  | .streamPause => false
  | .streamStop => true
  | .streamClear => false
  | .streamRead => false
  | .surveyOpen => true
  | .surveyClose => true
  | .surveyThresholds => true
  | .surveyLock => true
  | .surveyErase => true
  | .surveyList => false
  | .readRecords => true
  | .dropsRead => false
  | .gaugeRead => false
  | .setLevels => true
  | .setShock => true
  | .setGauge => true
  | .doze => true
  | .format => true

/-- Whether a command is taken in every mount phase (R174, R185 test 3). -/
def Opcode.anyPhase : Opcode → Bool
  | .status => true
  | .linkReset => true
  | .clockRead => true
  | .clockSet => true
  | _ => false

/-- Whether a payload has a length that the command's fields take (R185 test 2, section 12.1). -/
def Opcode.lengthFits (o : Opcode) (n : Nat) : Bool :=
  match o with
  | .status => n == 0
  | .linkReset => n == 0
  | .noticeMaskSet => n == 1
  | .noticeMaskClear => n == 1
  | .clockRead => n == 0
  | .clockSet => n == 4
  | .streamLoad => n == 36
  | .streamStart => n == 1
  | .streamPause => n == 1
  | .streamStop => n == 1
  | .streamClear => n == 1
  | .streamRead => n == 1
  | .surveyOpen => decide (2 ≤ n) && decide (n ≤ 18)
  | .surveyClose => n == 2
  | .surveyThresholds => n == 4
  | .surveyLock => n == 2
  | .surveyErase => n == 2
  | .surveyList => n == 1
  | .readRecords => n == 12
  | .dropsRead => n == 0
  | .gaugeRead => n == 0
  | .setLevels => n == 5
  | .setShock => n == 20
  | .setGauge => n == 24
  | .doze => n == 0
  | .format => n == 2

/-- A field of `len` bytes that may hold KEEP, all ones (section 12.1). -/
def keepField (p : List Byte) (off len : Nat) : Option Nat :=
  if field p off len = 2 ^ (8 * len) - 1 then none else some (field p off len)

/-- The notice kinds of a kind set, bits 0 to 6 in code order; bit 7 stands for no kind (section 12.1; log entry 14). -/
def kindSet (c : Nat) : NoticeMask :=
  { mounted := c % 2 == 1, drop := c / 2 % 2 == 1, battery := c / 4 % 2 == 1, stream := c / 8 % 2 == 1,
    media := c / 16 % 2 == 1, sampler := c / 32 % 2 == 1, report := c / 64 % 2 == 1 }

/-- SET enables the kinds named (R184). -/
def NoticeMask.enable (m k : NoticeMask) : NoticeMask :=
  { mounted := m.mounted || k.mounted, drop := m.drop || k.drop, battery := m.battery || k.battery, stream := m.stream || k.stream,
    media := m.media || k.media, sampler := m.sampler || k.sampler, report := m.report || k.report }

/-- CLEAR disables the kinds named (R184). -/
def NoticeMask.disable (m k : NoticeMask) : NoticeMask :=
  { mounted := m.mounted && !k.mounted, drop := m.drop && !k.drop, battery := m.battery && !k.battery,
    stream := m.stream && !k.stream, media := m.media && !k.media, sampler := m.sampler && !k.sampler,
    report := m.report && !k.report }

/-- The source port of a descriptor byte: 0 to 3, or ANY (R3). The outer option is the range. -/
def sourcePortOf (c : Nat) : Option (Option Nat) :=
  if c ≤ 3 then some (some c) else if c = 255 then some none else none

/-- Whether D is one of the seven decimations (R20). -/
def decimationOk (d : Nat) : Bool := [1, 2, 4, 8, 16, 32, 64].contains d

/-- The stream that a STREAM-LOAD payload asks for, at an effective level, if every field lies in range; in window mode OFF both
bounds are stored as 0 (R3 check 1, R4, R20). -/
def loadDescriptor (p : List Byte) (level : Nat) : Option Descriptor :=
  match sourcePortOf (field p 7 1), roundingOf (field p 15 1), widthOf (field p 24 1), windowOf (field p 25 1) with
  | some port, some rounding, some width, some mode =>
    let low := signedField p 28 4
    let high := signedField p 32 4
    let r := field p 18 2
    if field p 0 1 ≤ 15 ∧ field p 6 1 ≤ 7 ∧ 8 ≤ r ∧ r ≤ 256 ∧ decimationOk (field p 13 1) = true ∧ field p 14 1 ≤ 24
        ∧ (mode = .off ∨ low ≤ high) then
      some { survey := field p 4 2, index := field p 6 1, sourcePort := port, tag := field p 8 2, mask := field p 10 2,
             ownerLevel := level, decimation := field p 13 1, shift := field p 14 1, rounding := rounding,
             gain := signedField p 16 2, recordLength := r, offset := signedField p 20 4, width := width, mode := mode,
             low := if mode = .off then 0 else low, high := if mode = .off then 0 else high }
    else none
  | _, _, _, _ => none

/-- A field that holds KEEP or a value, clamped to its range (R130, R150). -/
def keepClamp (p : List Byte) (off len old lo hi : Nat) : Nat :=
  match keepField p off len with
  | none => old
  | some v => clamp lo hi v

/-- The shock settings that a SET-SHOCK results in (R130). -/
def shockResult (old : ShockSettings) (p : List Byte) : ShockSettings :=
  { zeroX := keepClamp p 0 2 old.zeroX 0 4095, zeroY := keepClamp p 2 2 old.zeroY 0 4095, zeroZ := keepClamp p 4 2 old.zeroZ 0 4095,
    ffWindow := keepClamp p 6 2 old.ffWindow 16 1024, ffTime := keepClamp p 8 2 old.ffTime 16 512,
    impactLevel := keepClamp p 10 2 old.impactLevel 256 2047, quietDelta := keepClamp p 12 2 old.quietDelta 4 256,
    settleTime := keepClamp p 14 2 old.settleTime 64 4096, catchTime := keepClamp p 16 2 old.catchTime 32 1024,
    countsPerG := keepClamp p 18 2 old.countsPerG 100 2047 }

/-- The gauge settings that a SET-GAUGE results in (R150). -/
def gaugeResult (old : GaugeSettings) (p : List Byte) : GaugeSettings :=
  { capacity := keepClamp p 0 4 old.capacity 1000 100000, cutOff := keepClamp p 4 4 old.cutOff 5000 7000, packPresent := 2000,
    holdUpMin := keepClamp p 8 4 old.holdUpMin 3000 8000, holdUpStep := keepClamp p 12 4 old.holdUpStep 50 1000,
    reportInterval := keepClamp p 16 4 old.reportInterval 0 65535, idleToDoze := keepClamp p 20 4 old.idleToDoze 0 3600 }

/-- A level or threshold field: 0 to 3, or KEEP (R86, R91). The outer option is the range. -/
def levelField (p : List Byte) (off : Nat) : Option (Option Nat) :=
  match keepField p off 1 with
  | none => some none
  | some v => if v ≤ 3 then some (some v) else none

/-- The four level fields of SET-LEVELS, if each lies in range (R86). -/
def levelFields (p : List Byte) : Option (List (Option Nat)) :=
  match levelField p 1, levelField p 2, levelField p 3, levelField p 4 with
  | some a, some b, some c, some d => some [a, b, c, d]
  | _, _, _, _ => none

/-- Whether a name is 1 to 16 characters of codes 32 to 126 (R88). -/
def nameOk (name : List Byte) : Bool :=
  decide (1 ≤ name.length) && decide (name.length ≤ 16) && name.all (fun b => decide (32 ≤ b.toNat) && decide (b.toNat ≤ 126))

/-- The hint of READ-RECORDS, absent where it holds FFFFh (section 12.1). -/
def hintField (p : List Byte) : Option Nat := keepField p 8 2

end Sys2Proof.Machine
end

