-- ==== Sys2Proof/Machine/Settle.lean ====
section
/-! DEFINITION. The steps that the part makes of its own accord as soon as they are due, and `settle`, which makes every due one
(log entry 1). -/

namespace Sys2Proof.Machine

/-- The steps that follow at once on another event. -/
inductive Due where
  | shockTrigger | gaugeTrigger | reportAlarm | idleTimerExpiry | bufferGrant | retire | stopComplete | surveyClosedEntryRequest
  | dozeEntryComplete | shutdownPowerDownRequest | pwrKeepRelease
deriving DecidableEq, Repr

/-- Whether a FREE buffer is owed to a waiter (R47). -/
def State.grantDue (s : State) : Bool := s.freeBuffer.isSome && !s.nobodyWaits

/-- The slot whose stop completes first, lowest number first (R8; log entry 9). -/
def State.stoppedSlot (s : State) : Option Nat := (List.range s.slots.length).find? s.stopReady

/-- The survey whose SURVEY-CLOSED entry is to be requested (R90). -/
def State.closedSurvey (s : State) : Option Survey := s.table.surveys.find? s.closeReady

/-- Whether each step is due. -/
def State.isDue (s : State) : Due → Bool
  | .shockTrigger => s.sampler.shockDue
  | .gaugeTrigger => s.sampler.gaugeDue s.power.state
  | .reportAlarm => s.power.alarmDue
  | .idleTimerExpiry => s.power.idleDue
  | .bufferGrant => s.grantDue
  | .retire => s.queue.any s.retires
  | .stopComplete => s.stoppedSlot.isSome
  | .surveyClosedEntryRequest => s.closedSurvey.isSome
  | .dozeEntryComplete => s.dozeReady
  | .shutdownPowerDownRequest => s.powerDownReady
  | .pwrKeepRelease => s.keepReady

/-- The order in which due steps are made (log entry 1). -/
def dueOrder : List Due :=
  [.shockTrigger, .gaugeTrigger, .reportAlarm, .idleTimerExpiry, .bufferGrant, .retire, .stopComplete, .surveyClosedEntryRequest,
   .dozeEntryComplete, .shutdownPowerDownRequest, .pwrKeepRelease]

/-- The step that is due next. -/
def State.due (s : State) : Option Due := dueOrder.find? s.isDue

/-- SHOCK_TRIGGER (R120, R121). -/
def State.makeShockTrigger (s : State) : State :=
  { s with sampler := { s.sampler with shockDue := false }.triggerShock }

/-- GAUGE_TRIGGER (R120, R121, R124). -/
def State.makeGaugeTrigger (s : State) : State :=
  { s with sampler := { s.sampler with countdown := gaugeReload s.power.state }.triggerGauge }

/-- IDLE_TIMER_EXPIRY (R168, R169). -/
def State.makeIdleExpiry (s : State) : State :=
  ({ s with power := { s.power with idleDue := false, idleTimer := 0 } }.beginDozeEntry .idle).arbitrate

/-- A buffer granted to the oldest waiting index write (R47). -/
def State.grantIndex (s : State) (b : Nat) (w : IndexWaiter) : State :=
  match w with
  | .entry => s.grantEntry b
  | .snapshot => match s.log.rollover with
    | .waitBuffer c => s.grantSnapshot c b
    | .none => s
    | .erase _ => s
    | .program _ _ => s

/-- BUFFER_GRANT (R47): the oldest waiting index write, or else the oldest waiting stream, which writes its markers and completes
its close (R41, R45). -/
def State.makeGrant (s : State) : State :=
  match s.freeBuffer, s.pool.indexWaiters, s.pool.streamWaiters with
  | some b, w :: ws, _ =>
    (({ s with pool := { s.pool with indexWaiters := ws } }.grantIndex b w).pumpLog).arbitrate
  | some _, [], i :: is =>
    (({ s with pool := { s.pool with streamWaiters := is } }.requestClose i).pumpLog).arbitrate
  | _, _, _ => s

/-- An entry leaves the queue and its buffer becomes FREE (R48, R51, R54). -/
def State.retireEntry (s : State) (b : Nat) : State :=
  { s with queue := s.queue.filter (fun e => e.buffer != b) }.releaseBuffer b

/-- RETIRE: the oldest entry that retires leaves (R51). -/
def State.makeRetire (s : State) : State :=
  match s.queue.find? s.retires with
  | some e => s.retireEntry e.buffer
  | none => s

/-- The contents of a slot whose stop has completed (R8). -/
def Slot.stopped (x : Slot) : Slot :=
  { x with state := .stopped, stopping := false, reason := none, expected := none, openRec := none, markers := {} }

/-- The stream's ACTIVE segment becomes FULL (R8). -/
def State.fillTail (s : State) (d : Descriptor) : State :=
  match s.tailOf d.survey d.index with
  | some g => s.modSeg g (fun x => if x.state = .active then { x with state := .full } else x)
  | none => s

/-- STREAM-STOP answers OK when its stop completes (R8). -/
def State.replyStop (s : State) (i : Nat) : State :=
  match s.slot with
  | some o => if o.request = .streamStop i then s.completeOp .ok .none else s
  | none => s

/-- A stop completes (R8). -/
def State.completeStop (s : State) (i : Nat) : State :=
  let s : State := match (s.slotAt i).desc with
    | some d => s.fillTail d
    | none => s
  (s.modSlot i Slot.stopped).replyStop i

/-- STOP_COMPLETE (R8). -/
def State.makeStopComplete (s : State) : State :=
  match s.stoppedSlot with
  | some i => s.completeStop i
  | none => s

/-- SURVEY_CLOSED_ENTRY_REQUEST (R90): the closed stamp is set, and the entry carries it. -/
def State.makeClosedEntry (s : State) : State :=
  match s.closedSurvey with
  | some v =>
    let s : State := s.modSurvey v.number (fun x => { x with closed := some s.stamp })
    (s.requestEntry (.surveyClosed { v.record with state := .closed, closed := some s.stamp })).arbitrate
  | none => s

/-- SHUTDOWN_POWER_DOWN_REQUEST (R172). -/
def State.makePowerDown (s : State) : State :=
  ({ s with power := { s.power with procedure := .shutdown .entry } }.requestEntry .powerDown).arbitrate

/-- A due step is made. -/
def State.make (s : State) : Due → State
  | .shockTrigger => s.makeShockTrigger
  | .gaugeTrigger => s.makeGaugeTrigger
  | .reportAlarm => s.fireReport
  | .idleTimerExpiry => s.makeIdleExpiry
  | .bufferGrant => s.makeGrant
  | .retire => s.makeRetire
  | .stopComplete => s.makeStopComplete
  | .surveyClosedEntryRequest => s.makeClosedEntry
  | .dozeEntryComplete => s.dozeStep
  | .shutdownPowerDownRequest => s.makePowerDown
  | .pwrKeepRelease => s.keepStep

/-- A step that is due is made after the due steps that come before it in the order (R121, R172; log entry 1), up to a number of
steps. -/
def State.makeFor (s : State) (d : Due) : Nat → State
  | 0 => s
  | fuel + 1 =>
    if s.isDue d then
      match s.due with
      | some e => if e = d then (s.make d).holdIdle else ((s.make e).holdIdle).makeFor d fuel
      | none => s
    else s

/-- A step is made if it is due, the due steps before it in the order first; otherwise nothing changes (log entries 1 and 2). -/
def State.makeIfDue (s : State) (d : Due) : State := s.makeFor d 256

/-- Every due step is made, up to a number of steps. -/
def State.settleFor (s : State) : Nat → State
  | 0 => s
  | fuel + 1 =>
    match s.due with
    | some d => ((s.make d).holdIdle).settleFor fuel
    | none => s

/-- Every due step is made (log entry 1). -/
def State.settle (s : State) : State := s.settleFor 256

/-- No step is due. -/
def State.Settled (s : State) : Prop := s.due = none

end Sys2Proof.Machine
end

