-- ==== Sys2Proof/Machine/Port.lean ====
section
/-! DEFINITION. The Frame Port's events: FRAME_ARRIVAL (R180, R181), and the sending of a frame (R183). -/

namespace Sys2Proof.Machine

/-- Changes the four port counts. -/
def State.countPort (s : State) (f : PortCounts → PortCounts) : State :=
  { s with port := { s.port with counts := f s.port.counts } }

/-- A framing error (R180). -/
def PortCounts.raiseFraming (c : PortCounts) : PortCounts := { c with framing := satAdd max32 c.framing 1 }

/-- A malformed sample (R180). -/
def PortCounts.raiseMalformed (c : PortCounts) : PortCounts := { c with malformed := satAdd max32 c.malformed 1 }

/-- An overrun (R180). -/
def PortCounts.raiseOverrun (c : PortCounts) : PortCounts := { c with overrun := satAdd max32 c.overrun 1 }

/-- An unmatched frame (R12, R174). -/
def PortCounts.raiseUnmatched (c : PortCounts) : PortCounts := { c with unmatched := satAdd max32 c.unmatched 1 }

/-- A kept frame: it takes a receive slot, HOLD is judged, and Power Control is told (R168, R170, R171, R181). -/
def State.keepFrame (s : State) (f : Frame) : State :=
  ({ s with port := { s.port with rx := s.port.rx ++ [f] } }.judgeHold).frameKept

/-- The third and fourth tests of R180. -/
def State.admitFrame (s : State) (f : Frame) : State :=
  if f.kind = .sample ∧ f.sampleFormed = false then s.countPort PortCounts.raiseMalformed
  else if 8 ≤ s.port.rx.length then s.countPort PortCounts.raiseOverrun
  else s.keepFrame f

/-- The judgement of an arriving frame (R180); in OFF every arrival is counted as an overrun. -/
def State.arrive (s : State) (bytes : List Byte) : State :=
  if s.power.state = .off then s.countPort PortCounts.raiseOverrun
  else if framed bytes = false then s.countPort PortCounts.raiseFraming
  else match inboundKind bytes with
    | none => s.countPort PortCounts.raiseFraming
    | some k => s.admitFrame (frameOf k bytes)

/-- What a shutdown still waits for after one more frame is sent (R172). -/
def Procedure.oneSent : Procedure → Procedure
  | .shutdown (.drain left) => .shutdown (.drain (left - 1))
  | p => p

/-- The frame on the line is sent whole: it leaves the Transmit List, and the next is begun (R183). -/
def State.sent (s : State) : State :=
  match s.port.tx with
  | [] => s
  | _ :: rest =>
    { s with port := { s.port with tx := rest }, power := { s.power with procedure := s.power.procedure.oneSent } }

/-- FRAME_ARRIVAL (R180). -/
def execFrameArrival (bytes : List Byte) (s : State) : Host.Outcome State Fault Refusal := .next ((s.settle.arrive bytes).holdIdle)

end Sys2Proof.Machine
end

