-- ==== Sys2Proof/Machine/Capture.lean ====
section
/-! DEFINITION. SAMPLE_FRAME: matching, the sequence test, admission, loss accounting and processing (R12 to R17). -/

namespace Sys2Proof.Machine

/-- Whether a slot matches a frame (R12). -/
def Slot.takes (x : Slot) (f : Frame) : Bool :=
  (x.state == .running || x.state == .paused) &&
    (match x.desc with
      | some d => (f.tag &&& d.mask) == (d.tag &&& d.mask) && (d.sourcePort == none || d.sourcePort == some f.port)
      | none => false)

/-- The lowest-numbered slot that matches (R12). -/
def State.matchSlot (s : State) (f : Frame) : Option Nat := s.slots.findIdx? (fun x => x.takes f)

/-- How a frame stands to the expected sequence (R13). -/
inductive SeqTest where
  | inOrder
  | gap (diff : Nat)
  | stale
deriving DecidableEq, Repr

/-- The sequence test (R13). -/
def seqTest (expected : Option Nat) (seq : Nat) : SeqTest :=
  match expected with
  | none => .inOrder
  | some e =>
    let diff := (seq + 256 - e) % 256
    if diff = 0 then .inOrder else if diff ≤ 127 then .gap diff else .stale

/-- The admission test; `none` admits (R14). -/
def State.admission (s : State) (i : Nat) : Option LossReason :=
  if s.gauge.limit ≤ s.queue.length ∨ s.media.mediaFull = true then some .limit
  else if (s.slotAt i).page.isNone ∧ s.freeBuffer.isNone then some .pool
  else none

/-- Changes a slot's counters. -/
def Slot.count (x : Slot) (f : SlotCounters → SlotCounters) : Slot := { x with counters := f x.counters }

/-- The counter of a loss (R16, R17). -/
def SlotCounters.raiseLost (c : SlotCounters) : LossReason → SlotCounters
  | .pool => { c with lostPool := satAdd max32 c.lostPool 1 }
  | .limit => { c with lostLimit := satAdd max32 c.lostLimit 1 }

/-- A gapped frame: the GAP marker, the counter, and the partial sum discarded (R13). -/
def Slot.gapped (x : Slot) (t : Stamp) (diff : Nat) : Slot :=
  ((x.raiseGap t diff).discardSum).count (fun c => { c with gapEvents := satAdd max32 c.gapEvents 1 })

/-- An admitted frame is processed whole (R15). -/
def State.processFrame (s : State) (i : Nat) (d : Descriptor) (f : Frame) : State :=
  (s.modSlot i (fun x => x.count (fun c => { c with taken := satAdd max32 c.taken 1 }))).takeSamples i d s.stamp f.mark false f.samples

/-- A frame that goes to admission (R13 to R16). -/
def State.admitOrLose (s : State) (i : Nat) (f : Frame) : State :=
  let s : State := s.modSlot i (fun x => { x with expected := some ((f.code + 1) % 256) })
  match s.admission i with
  | some reason => (s.modSlot i (fun x => x.count (fun c => c.raiseLost reason))).loseFrame i reason
  | none =>
    match (s.slotAt i).desc with
    | some d => s.processFrame i d f
    | none => s

/-- A frame matched by a RUNNING slot (R13). -/
def State.sequenceFrame (s : State) (i : Nat) (f : Frame) : State :=
  match seqTest (s.slotAt i).expected f.code with
  | .inOrder => s.admitOrLose i f
  | .gap diff => (s.modSlot i (fun x => x.gapped s.stamp diff)).admitOrLose i f
  | .stale => s.modSlot i (fun x => x.count (fun c => { c with stale := satAdd max32 c.stale 1 }))

/-- A sample frame at the Capture Unit; during mount every one is unmatched (R12, R174). -/
def State.capture (s : State) (f : Frame) : State :=
  if s.power.phase ≠ .ready then s.countPort PortCounts.raiseUnmatched
  else match s.matchSlot f with
    | none => s.countPort PortCounts.raiseUnmatched
    | some i =>
      if (s.slotAt i).state = .running then s.sequenceFrame i f
      else s.modSlot i (fun x => x.count (fun c => { c with lostPaused := satAdd max32 c.lostPaused 1 }))

/-- The sample frame at the head of the receive buffer. -/
def State.headSample (s : State) : Option Frame :=
  match s.port.rx with
  | f :: _ => if f.kind = .sample then some f else none
  | [] => none

/-- A sample frame is taken; its receive slot is freed when its handling ends (R15, R181). -/
def State.takeSample (s : State) : State :=
  match s.headSample with
  | some f =>
    if s.power.state = .off then s
    else
      let s : State := s.capture f
      ({ s with port := { s.port with rx := s.port.rx.tail } }.judgeHold).arbitrate
  | none => s

/-- SAMPLE_FRAME (R12). -/
def execSampleFrame (s : State) : Host.Outcome State Fault Refusal := .next (s.settle.takeSample.holdIdle)

end Sys2Proof.Machine
end

