-- ==== Sys2Proof/Machine/MediaEnds.lean ====
section
/-! DEFINITION. The ends of media operations (R52 to R54, R65, R74 to R78, R96, R99, R102, R115, R175). -/

namespace Sys2Proof.Machine

/-- A survey's had-void flag is set (R83). -/
def State.flagVoid (s : State) (n : Nat) : State := s.modSurvey n (fun v => { v with hadVoid := true })

/-- After an operation's end: the monitor's judgement of VERIFY, a waiting FORMAT, and the arbiter's choice (R70, R102, R138). The
choice comes before Power Control judges the conditions of R169 and R172 and takes its hold (DESIGN CHOICE, log entry 67). -/
def State.afterOp (s : State) : State := s.judgeVerify.formatGate.arbitrate

/-! ### Data page programs (R50, R52, R53, R75) -/

/-- A data page program succeeds: the entry goes to HELD, or to SUSPECT under the park flag (R50, R53, R140). -/
def State.programOk (s : State) (e : Entry) : State :=
  if s.monitor.park then
    let s : State := s.modEntry e.buffer (fun e => { e with retire := 0, state := .suspect })
    (s.flagSuspect e.survey).countPages (fun c => { c with suspect := min 255 (c.suspect + 1) })
  else s.modEntry e.buffer (fun e => { e with retire := 0, state := .held })

/-- An entry as it goes back to WAITING after a failure of its own (R52, R54). -/
def Entry.failed (e : Entry) : Entry :=
  { e with state := .waiting, rewrite := true, target := none, failures := min 255 (e.failures + 1) }

/-- A data page program fails: the page counts void, and the entry goes to the head of the queue (R52, R75). A BAD notice is raised
before the PROGRAM notice (DESIGN CHOICE, log entry 54). -/
def State.programFail (s : State) (e : Entry) (g : Nat) : State :=
  let s : State := (s.countVoid g).flagVoid e.survey
  let s : State := { s with queue := e.failed :: s.queue.filter (fun x => x.buffer != e.buffer) }
  s.raise (.media (.program e.slot e.failed.failures))

/-- A data page program ends (R75). -/
def State.dataEnd (s : State) (b g p : Nat) (ok : Bool) : State :=
  let s : State := s.endProgram g p ok
  match s.entryAt b with
  | some e => (if ok then s.programOk e else s.programFail e g).afterOp
  | none => s.afterOp

/-! ### Verification reads (R54, R76) -/

/-- Whether the page read matches the entry's buffer and the trailer it was issued with (R76). -/
def State.verifies (s : State) (e : Entry) (g : Nat) (r : PageResult) : Bool :=
  match r with
  | .valid t data =>
    data == s.bufferBytes e.buffer && t.survey == e.survey && t.index == e.index && t.firstSeq == e.firstSeq && t.count == e.count
      && t.used == e.used && t.rewrite == e.rewrite && (s.chainAt g).any (fun c => c.seq == t.seq)
  | .erased => false
  | .void => false
  | .failed => false

/-- The entries that stand later in the queue than buffer `b`. -/
def laterThan (b : Nat) : List Entry → List Entry
  | [] => []
  | e :: es => if e.buffer = b then es else laterThan b es

/-- A follower as it goes back to WAITING (R54). -/
def Entry.followed (e : Entry) : Entry := { e with state := .waiting, rewrite := true, target := none }

/-- The SUSPECT followers of an entry (R54). -/
def followersOf (e : Entry) (queue : List Entry) : List Entry :=
  (laterThan e.buffer queue).filter (fun x => x.state == .suspect && x.slot == e.slot)

/-- The queue after a mismatch: the failed entry at its head, its followers behind it, the others in their order (R54). -/
def requeue (e : Entry) (queue : List Entry) : List Entry :=
  let fs := followersOf e queue
  e.failed :: fs.map Entry.followed
    ++ queue.filter (fun x => x.buffer != e.buffer && !fs.any (fun y => y.buffer == x.buffer))

/-- A verification read matches: the entry retires (R54, R76, R140). -/
def State.verifyMatch (s : State) (e : Entry) : State :=
  (s.retireEntry e.buffer).countPages (fun c => { c with confirmed := min 255 (c.confirmed + 1) })

/-- A verification read does not match (R54, R76, R140). A BAD notice is raised before the VERIFY notice (DESIGN CHOICE, log
entry 54). -/
def State.verifyMismatch (s : State) (e : Entry) (g : Nat) : State :=
  let n := (followersOf e s.queue).length
  let s : State := (s.countVoid g).flagVoid e.survey
  let s : State := { s with queue := requeue e s.queue }
  let s : State := s.countPages (fun c => { c with bad := min 255 (c.bad + 1), requeued := min 255 (c.requeued + n) })
  s.raise (.media (.verify e.slot e.failed.failures))

/-- A verification read ends (R76). -/
def State.verifyEnd (s : State) (b g p : Nat) (o : ReadOutcome) : State :=
  let r := judgePage s.media.generation (outcomeImage o s.media.flash g p)
  let s : State := s.endRead
  match s.entryAt b with
  | some e => (if s.verifies e g r then s.verifyMatch e else s.verifyMismatch e g).afterOp
  | none => s.afterOp

/-! ### The end of the operation in flight, whichever it is -/

/-- The outcome an operation ends with: of a program or an erase, or of a read. -/
inductive OpOutcome where
  | done (ok : Bool)
  | read (r : ReadOutcome)
deriving DecidableEq, Repr

/-- Whether an operation succeeds. -/
def OpOutcome.ok : OpOutcome → Bool
  | .done b => b
  | .read _ => false

/-- What a read delivers. -/
def OpOutcome.result : OpOutcome → ReadOutcome
  | .done _ => .failed
  | .read r => r

/-- DATA_PAGE_PROGRAM_END's effect on an operation in flight. -/
def State.endDataProgram (s : State) (ok : Bool) : State :=
  match s.media.op with
  | some (.dataProgram b g p) => s.dataEnd b g p ok
  | _ => s

/-- HEADER_PROGRAM_END's effect on an operation in flight. -/
def State.endHeaderProgram (s : State) (ok : Bool) : State :=
  match s.media.op with
  | some (.headerProgram g) => (s.headerEnd g ok).afterOp
  | _ => s

/-- SEGMENT_ERASE_END's effect on an operation in flight. -/
def State.endSegmentErase (s : State) (ok : Bool) : State :=
  match s.media.op with
  | some (.takeErase g) => (s.takeEraseEnd g ok).afterOp
  | some (.aheadErase g) => (s.aheadEnd g ok).afterOp
  | _ => s

/-- FORMAT_ERASE_END's effect on an operation in flight. -/
def State.endFormatErase (s : State) (ok : Bool) : State :=
  match s.media.op with
  | some (.formatErase g) => (s.formatEraseEnd g ok).afterOp
  | _ => s

/-- INDEX_ENTRY_PROGRAM_END's effect on an operation in flight. -/
def State.endIndexEntry (s : State) (ok : Bool) : State :=
  match s.media.op with
  | some (.indexProgram g p) => (s.indexProgramEnd g p ok).afterOp
  | _ => s

/-- INDEX_SEGMENT_ERASE_END's effect on an operation in flight. -/
def State.endIndexErase (s : State) (ok : Bool) : State :=
  match s.media.op with
  | some (.indexErase c) => (s.indexEraseEnd c ok).afterOp
  | _ => s

/-- SNAPSHOT_PROGRAM_END's effect on an operation in flight. -/
def State.endSnapshot (s : State) (ok : Bool) : State :=
  match s.media.op with
  | some (.snapshotProgram c) => (s.snapshotEnd c ok).afterOp
  | _ => s

/-- VERIFICATION_READ_END's effect on an operation in flight. -/
def State.endVerification (s : State) (r : ReadOutcome) : State :=
  match s.media.op with
  | some (.verifyRead b g p) => s.verifyEnd b g p r
  | _ => s

/-- READ_ENGINE_READ_END's effect on an operation in flight. -/
def State.endEngineRead (s : State) (r : ReadOutcome) : State :=
  match s.media.op with
  | some (.engineRead g p discard) => (s.engineReadEnd g p discard r).afterOp
  | _ => s

/-- MOUNT_READ_END's effect on an operation in flight. -/
def State.endMountRead (s : State) (r : ReadOutcome) : State :=
  match s.media.op with
  | some (.mountRead g p) => (s.mountReadEnd g p r).afterOp
  | _ => s

/-- The timeout of the operation in flight: its outcome is applied as a failure (R74). -/
def State.timeout (s : State) : State :=
  match s.media.op with
  | none => s
  | some (.dataProgram _ _ _) => s.endDataProgram false
  | some (.headerProgram _) => s.endHeaderProgram false
  | some (.takeErase _) => s.endSegmentErase false
  | some (.aheadErase _) => s.endSegmentErase false
  | some (.formatErase _) => s.endFormatErase false
  | some (.indexErase _) => s.endIndexErase false
  | some (.indexProgram _ _) => s.endIndexEntry false
  | some (.snapshotProgram _) => s.endSnapshot false
  | some (.verifyRead _ _ _) => s.endVerification .failed
  | some (.engineRead _ _ _) => s.endEngineRead .failed
  | some (.mountRead _ _) => s.endMountRead .failed

/-! ### The meanings -/

/-- DATA_PAGE_PROGRAM_END (R75). -/
def execDataPageProgramEnd (ok : Bool) (s : State) : Host.Outcome State Fault Refusal :=
  .next ((s.settle.endDataProgram ok).holdIdle)

/-- HEADER_PROGRAM_END (R65). -/
def execHeaderProgramEnd (ok : Bool) (s : State) : Host.Outcome State Fault Refusal :=
  .next ((s.settle.endHeaderProgram ok).holdIdle)

/-- SEGMENT_ERASE_END (R77). -/
def execSegmentEraseEnd (ok : Bool) (s : State) : Host.Outcome State Fault Refusal :=
  .next ((s.settle.endSegmentErase ok).holdIdle)

/-- FORMAT_ERASE_END (R102). -/
def execFormatEraseEnd (ok : Bool) (s : State) : Host.Outcome State Fault Refusal :=
  .next ((s.settle.endFormatErase ok).holdIdle)

/-- INDEX_ENTRY_PROGRAM_END (R96). -/
def execIndexEntryProgramEnd (ok : Bool) (s : State) : Host.Outcome State Fault Refusal :=
  .next ((s.settle.endIndexEntry ok).holdIdle)

/-- INDEX_SEGMENT_ERASE_END (R99). -/
def execIndexSegmentEraseEnd (ok : Bool) (s : State) : Host.Outcome State Fault Refusal :=
  .next ((s.settle.endIndexErase ok).holdIdle)

/-- SNAPSHOT_PROGRAM_END (R99). -/
def execSnapshotProgramEnd (ok : Bool) (s : State) : Host.Outcome State Fault Refusal :=
  .next ((s.settle.endSnapshot ok).holdIdle)

/-- VERIFICATION_READ_END (R76). -/
def execVerificationReadEnd (r : ReadOutcome) (s : State) : Host.Outcome State Fault Refusal :=
  .next ((s.settle.endVerification r).holdIdle)

/-- READ_ENGINE_READ_END (R115). -/
def execReadEngineReadEnd (r : ReadOutcome) (s : State) : Host.Outcome State Fault Refusal :=
  .next ((s.settle.endEngineRead r).holdIdle)

/-- MOUNT_READ_END (R175). -/
def execMountReadEnd (r : ReadOutcome) (s : State) : Host.Outcome State Fault Refusal :=
  .next ((s.settle.endMountRead r).holdIdle)

/-- OPERATION_TIMEOUT (R74). -/
def execOperationTimeout (s : State) : Host.Outcome State Fault Refusal := .next (s.settle.timeout.holdIdle)

end Sys2Proof.Machine
end

