-- ==== Sys2Proof/Machine/Resets.lean ====
section
/-! DEFINITION. POWER_ON and RST_LINE (R18, R55, R80, R101, R116, R127, R147, R163, R167, R174, R179, R182). -/

namespace Sys2Proof.Machine

/-- The operation in flight is lost: what it was writing is left open (R80; log entry 3). -/
def State.loseOp (s : State) : State :=
  match s.media.op with
  | none => s
  | some (.dataProgram _ g p) => s.disturbPage g p
  | some (.headerProgram g) => s.disturbPage g 0
  | some (.takeErase g) => s.disturbSegment g
  | some (.aheadErase g) => s.disturbSegment g
  | some (.formatErase g) => s.disturbSegment g
  | some (.indexErase g) => s.disturbSegment g
  | some (.indexProgram g p) => s.disturbPage g p
  | some (.snapshotProgram g) => s.disturbPage g 0
  | some (.verifyRead _ _ _) => s
  | some (.engineRead _ _ _) => s
  | some (.mountRead _ _) => s

/-- Power-on, in front of an array that reports `n` segments: every block takes its power-on values, and what the flash holds
stays. -/
def State.powerOn (s : State) (n : Nat) : State :=
  let s : State := s.loseOp
  { State.reset with media := Media.reset n s.media.flash, freeCount := s.freeCount, pending := s.pending }

/-- The gauge after the RST line: the always-on items and settings are kept (R149, R163). -/
def Gauge.rst (g : Gauge) : Gauge :=
  { Gauge.reset with
    remaining := g.remaining
    acc := g.acc
    level := g.level
    estimatePending := g.estimatePending
    estimate := g.estimate
    settings := g.settings }

/-- The RST line: every block but the always-on domain is reset, no start-up self-check is made, and a kept level CRITICAL begins
shutdown (R127, R163, R167, R172, R179). -/
def State.rst (s : State) : State :=
  let s : State := s.loseOp
  let power : Power :=
    if s.gauge.level = .critical then { Power.reset with procedure := .shutdown .conditions } else Power.reset
  { State.reset with
    clock := s.clock
    gauge := s.gauge.rst
    sampler := Sampler.reset none
    media := Media.reset s.media.reportedSegments s.media.flash
    power := power
    freeCount := s.freeCount
    pending := s.pending }

/-- POWER_ON (R174). -/
def execPowerOn (reportedSegments : Nat) (s : State) : Host.Outcome State Fault Refusal :=
  .next (s.settle.powerOn reportedSegments)

/-- RST_LINE (R174). -/
def execRstLine (s : State) : Host.Outcome State Fault Refusal := .next s.settle.rst

end Sys2Proof.Machine
end

