-- ==== Sys2Proof/Machine/Scans.lean ====
section
/-! DEFINITION. The ends of scans: SHOCK_SCAN_END (R123), GAUGE_SCAN_END (R124), START_UP_SELF_CHECK_END (R125); and WAKE_WAIT_END
(R171). -/

namespace Sys2Proof.Machine

/-- The next pending scan starts after a scan's delivery (R121). -/
def State.nextScan (s : State) : State := { s with sampler := s.sampler.next s.power.state }

/-- A shock scan ends: latest results, the delivery to the Drop Monitor and to the gauge, the next scan (R119, R123). An erase that
the park flag abandons is an end that a waiting FORMAT waits for (R72, R102). -/
def State.shockEnd (s : State) (ax ay az vhold : Code) : State :=
  if s.sampler.running = some .shock then
    let s : State := { s with sampler := s.sampler.latch 0 [ax.toNat, ay.toNat, az.toNat, vhold.toNat] }
    (((((s.monitorScan (s.view ax ay az vhold)).gaugeShock (vhold.toNat * 4)).nextScan).formatGate).arbitrate)
  else s

/-- A gauge scan ends: latest results, the verdict of a self-check, the delivery to the gauge, the next scan (R119, R124, R125). -/
def State.gaugeEnd (s : State) (vhold vpack ipack tpack zeroRef fullRef : Code) : State :=
  match s.sampler.running with
  | some (.gauge interval carries) =>
    let s : State := { s with sampler := s.sampler.latch 3 [vhold.toNat, vpack.toNat, ipack.toNat, tpack.toNat] }
    let s : State := if carries then s.selfCheck zeroRef.toNat fullRef.toNat else s
    ((s.gaugeScan vhold.toNat vpack.toNat ipack.toNat tpack.toNat interval).nextScan).arbitrate
  | _ => s

/-- The start-up self-check ends (R125). -/
def State.startUpEnd (s : State) (zeroRef fullRef : Code) : State :=
  if s.sampler.running = some .startUp then (s.selfCheck zeroRef.toNat fullRef.toNat).nextScan else s

/-- The wake wait ends, and the arbiter chooses (R171). -/
def State.wakeEnd (s : State) : State :=
  if s.power.procedure = .wakeWait then s.endWake.arbitrate else s

/-- SHOCK_SCAN_END (R123). -/
def execShockScanEnd (ax ay az vhold : Code) (s : State) : Host.Outcome State Fault Refusal :=
  .next ((s.settle.shockEnd ax ay az vhold).holdIdle)

/-- GAUGE_SCAN_END (R124). -/
def execGaugeScanEnd (vhold vpack ipack tpack zeroRef fullRef : Code) (s : State) : Host.Outcome State Fault Refusal :=
  .next ((s.settle.gaugeEnd vhold vpack ipack tpack zeroRef fullRef).holdIdle)

/-- START_UP_SELF_CHECK_END (R125). -/
def execStartUpSelfCheckEnd (zeroRef fullRef : Code) (s : State) : Host.Outcome State Fault Refusal :=
  .next ((s.settle.startUpEnd zeroRef fullRef).holdIdle)

/-- WAKE_WAIT_END (R171). -/
def execWakeWaitEnd (s : State) : Host.Outcome State Fault Refusal := .next (s.settle.wakeEnd.holdIdle)

end Sys2Proof.Machine
end

