-- ==== Sys2Proof/Machine/CommandUnit.lean ====
section
/-! DEFINITION. The Command Unit (section 11.4): taking a control frame, the tests of R185, refusing, answering and accepting; and
the port's own commands (R165, R184, R187, R188). -/

namespace Sys2Proof.Machine

/-! ### Taking a frame (R181, R183) -/

/-- The control frame at the head of the receive buffer. -/
def State.headControl (s : State) : Option Frame :=
  match s.port.rx with
  | f :: _ => if f.kind = .control then some f else none
  | [] => none

/-- The effective level of a control frame (R84). -/
def State.effective (s : State) (f : Frame) : Nat := max (s.table.present.getD f.port 3) f.asked

/-- Whether the Transmit List has the places that taking a frame needs; in OFF no frame is taken (R173, R183). -/
def State.placesFree (s : State) (timeTaking : Bool) : Bool :=
  s.power.state != .off && decide (ordinaryReplies s.port.tx < 8) && (!timeTaking || !keptOccupied s.port.tx)

/-- The slot of the frame taken is freed when its event ends, and HOLD is judged (R181). -/
def State.freeHead (s : State) : State := { s with port := { s.port with rx := s.port.rx.tail } }.judgeHold

/-! ### Replies (R185) -/

/-- A reply in an ordinary place. -/
def State.reply (s : State) (f : Frame) (level : Nat) (status : Status) (payload : Payload) : State :=
  s.pushReply { port := f.port, tag := f.tag, level := level, status := status, kept := false, payload := payload }

/-- The payload of a refusal: the survey number and stream index for READ-RECORDS (R114), none for the others (R185). -/
def refusalPayload (o : Opcode) (f : Frame) : Payload :=
  if o = .readRecords then .readRefused (field f.payload 0 2) (field f.payload 2 1) else .none

/-- A command is refused: it changes no state, and its reply takes an ordinary place (R185). -/
def State.refuse (s : State) (o : Opcode) (f : Frame) (level : Nat) (status : Status) : State :=
  s.reply f level status (refusalPayload o f)

/-- An immediate command's reply OK (R185). -/
def State.answer (s : State) (f : Frame) (level : Nat) (payload : Payload) : State := s.reply f level .ok payload

/-- A time-taking command enters the Operation Slot (R186). -/
def State.accept (s : State) (o : Opcode) (f : Frame) (level : Nat) (request : Request) : State :=
  { s with slot := some { opcode := o, port := f.port, tag := f.tag, level := level, suppressed := false, request := request } }

/-- The tests of R185 after the first, in their order, for a frame that carries command `o`; `none` where all pass. -/
def State.refusedBy (s : State) (o : Opcode) (f : Frame) : Option Status :=
  if o.lengthFits f.payload.length = false then some .param
  else if s.power.phase ≠ .ready ∧ o.anyPhase = false then some .notReady
  else if o.timeTaking = true ∧ s.slot.isSome = true then some .busy
  else none

/-- A frame that carries command `o` is taken: refused by a test of R185, or handed to the command's own rule. -/
def State.takeFrame (s : State) (o : Opcode) (f : Frame) (body : State → Frame → Nat → State) : State :=
  match s.refusedBy o f with
  | some status => s.refuse o f (s.effective f) status
  | none => body s f (s.effective f)

/-- If the frame at the head carries command `o` and may be taken, it is taken whole and its slot freed (R181, R183). Otherwise
nothing changes (log entry 2). -/
def State.takeHead (s : State) (o : Opcode) (body : State → Frame → Nat → State) : State :=
  match s.headControl with
  | some f =>
    if opcodeOf f.code = some o ∧ s.placesFree o.timeTaking = true then ((s.takeFrame o f body).freeHead).holdIdle else s
  | none => s

/-- A control command's row: every due step is made, then the frame at the head is taken. -/
def State.command (s : State) (o : Opcode) (body : State → Frame → Nat → State) : State := s.settle.takeHead o body

/-! ### UNKNOWN_OPCODE (R185) -/

/-- A control frame at the head whose opcode names no command is refused with PARAM. -/
def State.takeUnknown (s : State) : State :=
  match s.headControl with
  | some f =>
    if opcodeOf f.code = none ∧ s.placesFree false = true then
      ((s.reply f (s.effective f) .param .none).freeHead).holdIdle
    else s
  | none => s

/-- UNKNOWN_OPCODE's row: every due step is made, then the frame at the head is refused. -/
def State.unknown (s : State) : State := s.settle.takeUnknown

/-! ### LINK-RESET (R116, R187) -/

/-- The operation in flight after a READ-RECORDS is abandoned: a Read Engine read runs on, its result discarded (R78, R116). -/
def discardRead : Option MediaOp → Option MediaOp
  | some (.engineRead g p _) => some (.engineRead g p true)
  | op => op

/-- The Operation Slot at a LINK-RESET: a READ-RECORDS is abandoned, any other command's reply is suppressed (R187). -/
def State.resetSlot (s : State) : State :=
  match s.slot with
  | none => s
  | some o =>
    if o.opcode = .readRecords then
      { s with slot := none, engine := none, media := { s.media with op := discardRead s.media.op } }
    else { s with slot := some { o with suppressed := true } }

/-- What a shutdown waits to be sent, with only `kept` of the Transmit List left (R172, R187). -/
def Procedure.keepDrain (p : Procedure) (kept : Nat) : Procedure :=
  match p with
  | .shutdown (.drain left) => .shutdown (.drain (min left kept))
  | _ => p

/-- The Frame Port's part of a LINK-RESET: the frames behind are discarded, and of the Transmit List only the frame on the line
stays (R182, R187). -/
def State.resetPort (s : State) : State :=
  { s with
    port := { s.port with rx := s.port.rx.take 1, tx := s.port.tx.take 1, counts := {} }
    power := { s.power with procedure := s.power.procedure.keepDrain (s.port.tx.take 1).length } }

/-- LINK-RESET's own effect; the Read Engine's page stores are cleared (R116, R187). -/
def State.linkReset (s : State) (f : Frame) (level : Nat) : State :=
  { s.resetPort.resetSlot with stores := {} }.answer f level .none

/-! ### NOTICE-MASK-SET and -CLEAR (R184) -/

/-- NOTICE-MASK-SET's own rule. -/
def State.maskSet (s : State) (f : Frame) (level : Nat) : State :=
  if 1 < level then s.refuse .noticeMaskSet f level .level
  else
    let m := s.port.mask.enable (kindSet (field f.payload 0 1))
    { s with port := { s.port with mask := m } }.answer f level (.mask m)

/-- NOTICE-MASK-CLEAR's own rule. -/
def State.maskClear (s : State) (f : Frame) (level : Nat) : State :=
  if 1 < level then s.refuse .noticeMaskClear f level .level
  else
    let m := s.port.mask.disable (kindSet (field f.payload 0 1))
    { s with port := { s.port with mask := m } }.answer f level (.mask m)

/-! ### CLOCK-READ and CLOCK-SET (R165) -/

/-- CLOCK-READ's own rule. -/
def State.clockRead (s : State) (f : Frame) (level : Nat) : State :=
  s.answer f level (.clock s.stamp s.gauge.settings.reportInterval s.clock.nextReport)

/-- CLOCK-SET's own rule. -/
def State.clockSet (s : State) (f : Frame) (level : Nat) : State :=
  if 1 < level then s.refuse .clockSet f level .level
  else
    let s : State :=
      { s with clock := { s.clock with prescaler := 0, ticks := 0, seconds := field f.payload 0 4, valid := true } }.restartReport
    s.answer f level (.clockSet s.stamp)

/-! ### STATUS (R56, R80, R101, R128, R188) -/

/-- The buffers in a state. -/
def State.countBuffers (s : State) (t : BufferState) : Nat := s.pool.buffers.countP (fun b => b.state == t)

/-- The queue entries in a state. -/
def State.countEntries (s : State) (t : EntryState) : Nat := s.queue.countP (fun e => e.state == t)

/-- The report of the pool and the queue (R56). -/
def State.poolReport (s : State) : PoolReport :=
  { free := s.countBuffers .free, filling := s.countBuffers .filling, queued := s.countBuffers .queued,
    index := s.countBuffers .index, waiting := s.countEntries .waiting, programming := s.countEntries .programming,
    held := s.countEntries .held, suspect := s.countEntries .suspect, verifying := s.countEntries .verifying,
    waitList := s.pool.indexWaiters.length + s.pool.streamWaiters.length,
    greatestFailures := (s.queue.map Entry.failures).foldl max 0 }

/-- The report of the Media Controller, its identity fields and counts zero during mount (R80). -/
def State.mediaReport (s : State) : MediaReport :=
  let mounted := s.power.phase == .ready
  { n := if mounted then s.segCount else 0, generation := if mounted then s.media.generation else 0,
    counts := if mounted then s.segCounts else {}, ready := s.media.ready.length, free := s.media.free.length,
    mediaFull := s.media.mediaFull, park := s.monitor.park, waitingStreams := s.media.segWaiters.length }

/-- The report of the Index Log, zero during mount (R101). Without a current segment it reports segment 0 (DESIGN CHOICE, log entry
66). -/
def State.logReport (s : State) : LogReport :=
  if s.power.phase = .ready then
    { current := s.log.current.getD 0, writePoint := s.log.writePoint, generation := s.log.generation, nextSeq := s.log.nextSeq,
      waiting := s.log.waiting.length, rollover := s.log.rollover != .none, unusable := s.log.unusable, failed := s.log.failed,
      clean := s.log.clean }
  else
    { current := 0, writePoint := 0, generation := 0, nextSeq := 0, waiting := 0, rollover := false, unusable := [],
      failed := false, clean := false }

/-- The report of the Sense Sampler (R128). -/
def State.samplerReport (s : State) : SamplerReport :=
  let m := s.sampler
  { latest := m.latest, zeroRef := m.zeroRef, fullRef := m.fullRef, fault := m.fault, selfCheckCounter := m.selfCheckCounter,
    overruns := m.overruns, checks := m.checks, fails := m.fails, rates := s.power.state }

/-- The kinds of the notices whose transmission has not begun (R184, R188). -/
def pendingKinds (tx : List TxEntry) : List NoticeKind :=
  tx.tail.filterMap (fun e => match e with
    | .notice n => some n.kind
    | .reply _ => none)

/-- The STATUS report (R188). -/
def State.statusReport (s : State) : StatusReport :=
  { phase := s.power.phase, unformatted := s.power.unformatted, power := s.power.state, procedure := s.power.procedure,
    slot := s.slot.map (fun o => (o.opcode, o.port, o.tag, o.suppressed)), slotsInUse := s.port.rx.length, hold := s.port.hold,
    repliesWaiting := ordinaryReplies s.port.tx + (if keptOccupied s.port.tx then 1 else 0),
    pendingNotices := pendingKinds s.port.tx, mask := s.port.mask, counts := s.port.counts, pool := s.poolReport,
    media := s.mediaReport, log := s.logReport, sampler := s.samplerReport, monitor := s.monitor.state, park := s.monitor.park,
    dropTotal := s.monitor.total, level := s.gauge.level, limit := s.gauge.limit, clock := s.stamp }

/-- STATUS's own rule. -/
def State.status (s : State) (f : Frame) (level : Nat) : State := s.answer f level (.status s.statusReport)

/-! ### DROPS-READ and GAUGE-READ (R146, R162) -/

/-- DROPS-READ's own rule. -/
def State.dropsRead (s : State) (f : Frame) (level : Nat) : State :=
  let m := s.monitor
  s.answer f level (.drops m.state m.park m.total (m.drop.map (fun r => r.computed m.shock)) m.drops.reverse)

/-- GAUGE-READ's own rule. -/
def State.gaugeRead (s : State) (f : Frame) (level : Nat) : State := s.answer f level (.gauge s.gaugeReport)

end Sys2Proof.Machine
end

