-- ==== Sys2Proof/Machine/PortCommands.lean ====
section
/-! DEFINITION. The meanings of the Command Unit's and the port's rows, of the clock's commands, and of DROPS-READ and GAUGE-READ. -/

namespace Sys2Proof.Machine

/-- UNKNOWN_OPCODE (R185). -/
def execUnknownOpcode (s : State) : Host.Outcome State Fault Refusal := .next s.unknown

/-- STATUS (R188). -/
def execStatus (s : State) : Host.Outcome State Fault Refusal := .next (s.command .status State.status)

/-- LINK_RESET (R187). -/
def execLinkReset (s : State) : Host.Outcome State Fault Refusal := .next (s.command .linkReset State.linkReset)

/-- NOTICE_MASK_SET (R184). -/
def execNoticeMaskSet (s : State) : Host.Outcome State Fault Refusal := .next (s.command .noticeMaskSet State.maskSet)

/-- NOTICE_MASK_CLEAR (R184). -/
def execNoticeMaskClear (s : State) : Host.Outcome State Fault Refusal := .next (s.command .noticeMaskClear State.maskClear)

/-- CLOCK_READ (R165). -/
def execClockRead (s : State) : Host.Outcome State Fault Refusal := .next (s.command .clockRead State.clockRead)

/-- CLOCK_SET (R165). -/
def execClockSet (s : State) : Host.Outcome State Fault Refusal := .next (s.command .clockSet State.clockSet)

/-- DROPS_READ (R146). -/
def execDropsRead (s : State) : Host.Outcome State Fault Refusal := .next (s.command .dropsRead State.dropsRead)

/-- GAUGE_READ (R162). -/
def execGaugeRead (s : State) : Host.Outcome State Fault Refusal := .next (s.command .gaugeRead State.gaugeRead)

end Sys2Proof.Machine
end

