-- ==== Sys2Proof/Machine/SettingsCommands.lean ====
section
/-! DEFINITION. SET-LEVELS (R86), SET-SHOCK (R130), SET-GAUGE (R150), DOZE (R169) and FORMAT (R102). -/

namespace Sys2Proof.Machine

/-! ### SET-LEVELS (R86) -/

/-- Scope PRESENT: done in the event of acceptance. -/
def State.setPresent (s : State) (f : Frame) (level : Nat) (named : List (Option Nat)) : State :=
  let levels := namedLevels s.table.present named
  { s.accept .setLevels f level (.setLevels named) with table := { s.table with present := levels } }.completeOp .ok (.levels levels)

/-- Scope STORED: refused where no port would keep stored level 0, and on a drive found unformatted (R178; log entry 13). -/
def State.setStored (s : State) (f : Frame) (level : Nat) (named : List (Option Nat)) : State :=
  let levels := namedLevels s.table.stored named
  if levels.contains 0 = false then s.refuse .setLevels f level .param
  else if s.power.unformatted then s.refuse .setLevels f level .state
  else ((s.accept .setLevels f level (.setLevels named)).requestEntry (.ports levels)).arbitrate

/-- SET-LEVELS' own rule. -/
def State.setLevels (s : State) (f : Frame) (level : Nat) : State :=
  if level ≠ 0 then s.refuse .setLevels f level .level
  else match levelFields f.payload with
    | none => s.refuse .setLevels f level .param
    | some named =>
      match field f.payload 0 1 with
      | 1 => s.setPresent f level named
      | 2 => s.setStored f level named
      | _ => s.refuse .setLevels f level .param

/-! ### SET-SHOCK and SET-GAUGE -/

/-- SET-SHOCK's own rule; on a drive found unformatted it is refused with STATE after the level (R178; log entry 13). -/
def State.setShock (s : State) (f : Frame) (level : Nat) : State :=
  if 1 < level then s.refuse .setShock f level .level
  else if s.power.unformatted then s.refuse .setShock f level .state
  else ((s.accept .setShock f level .setShock).requestEntry (.shock (shockResult s.monitor.shock f.payload))).arbitrate

/-- SET-GAUGE's own rule; on a drive found unformatted it is refused with STATE after the level (R178; log entry 13). -/
def State.setGauge (s : State) (f : Frame) (level : Nat) : State :=
  if 1 < level then s.refuse .setGauge f level .level
  else if s.power.unformatted then s.refuse .setGauge f level .state
  else ((s.accept .setGauge f level .setGauge).requestEntry (.gauge (gaugeResult s.gauge.settings f.payload))).arbitrate

/-! ### DOZE (R169) -/

/-- Whether a procedure is a shutdown. -/
def Procedure.isShutdown : Procedure → Bool
  | .shutdown _ => true
  | .none => false
  | .dozeEntry _ => false
  | .wakeWait => false

/-- Whether DOZE is refused with STATE. -/
def State.dozeRefused (s : State) : Bool :=
  s.slots.any (fun x => x.state == .running) || s.power.state != .active || s.power.procedure.isShutdown

/-- DOZE's own rule. Taken while a DOZE entry of cause IDLE is in progress, it turns the entry's cause to COMMAND and makes the requested
closes again (R169 does not say; DESIGN CHOICE, log entry 62). -/
def State.doze (s : State) (f : Frame) (level : Nat) : State :=
  if s.dozeRefused then s.refuse .doze f level .state
  else ((s.accept .doze f level .doze).beginDozeEntry .command).arbitrate

/-! ### FORMAT (R102) -/

/-- FORMAT's own rule. -/
def State.format (s : State) (f : Frame) (level : Nat) : State :=
  if level ≠ 0 then s.refuse .format f level .level
  else if s.slots.any (fun x => x.live || x.loading) then s.refuse .format f level .state
  else ((s.accept .format f level .format).startFormat (field f.payload 0 2)).arbitrate

/-! ### The meanings -/

/-- SET_LEVELS (R86). -/
def execSetLevels (s : State) : Host.Outcome State Fault Refusal := .next (s.command .setLevels State.setLevels)

/-- SET_SHOCK (R130). -/
def execSetShock (s : State) : Host.Outcome State Fault Refusal := .next (s.command .setShock State.setShock)

/-- SET_GAUGE (R150). -/
def execSetGauge (s : State) : Host.Outcome State Fault Refusal := .next (s.command .setGauge State.setGauge)

/-- DOZE (R169). -/
def execDoze (s : State) : Host.Outcome State Fault Refusal := .next (s.command .doze State.doze)

/-- FORMAT (R102). -/
def execFormat (s : State) : Host.Outcome State Fault Refusal := .next (s.command .format State.format)

end Sys2Proof.Machine
end

