-- ==== Sys2Proof/Machine/StreamCommands.lean ====
section
/-! DEFINITION. The stream commands (R2 to R10). -/

namespace Sys2Proof.Machine

/-- The slot a stream command names (R2). -/
def Frame.slotField (f : Frame) : Nat := field f.payload 0 1

/-- Checks 1 to 3 of R2; `none` where they pass. -/
def State.slotRefused (s : State) (i level : Nat) : Option Status :=
  if 15 < i then some .param
  else if (s.slotAt i).state = .empty then some .state
  else match (s.slotAt i).desc with
    | some d => if d.ownerLevel < level then some .level else none
    | none => none

/-! ### STREAM-START (R5) -/

/-- Whether the gauge level keeps streams from starting (R5). -/
def BatteryLevel.stopsStarts : BatteryLevel → Bool
  | .normal => false
  | .low => false
  | .reserve => true
  | .critical => true

/-- Checks 4 and 5 of STREAM-START. -/
def State.startRefused (s : State) (x : Slot) : Option Status :=
  if x.stopping ∨ ¬ (x.state = .loaded ∨ x.state = .paused) then some .state
  else if s.media.mediaFull = true ∨ s.gauge.level.stopsStarts = true then some .full
  else none

/-- A slot that a start takes to RUNNING. -/
def Slot.started (x : Slot) (t : Stamp) : Slot :=
  if x.state = .paused then { x.raiseResume t with state := .running, reason := none, expected := none }
  else { x with state := .running }

/-- STREAM-START's own rule; a DOZE entry in progress is abandoned (R5, R170). -/
def State.streamStart (s : State) (f : Frame) (level : Nat) : State :=
  let i := f.slotField
  match s.slotRefused i level with
  | some status => s.refuse .streamStart f level status
  | none =>
    match s.startRefused (s.slotAt i) with
    | some status => s.refuse .streamStart f level status
    | none => ((s.modSlot i (fun x => x.started s.stamp)).abandonDoze).answer f level .none

/-! ### STREAM-PAUSE (R6) -/

/-- A running stream is paused by command. -/
def State.pauseSlot (s : State) (i : Nat) : State :=
  (s.closeOpen i).modSlot i (fun x =>
    { x.discardSum.raisePause s.stamp .command with state := .paused, reason := some .command })

/-- STREAM-PAUSE's own rule. -/
def State.streamPause (s : State) (f : Frame) (level : Nat) : State :=
  let i := f.slotField
  match s.slotRefused i level with
  | some status => s.refuse .streamPause f level status
  | none =>
    if (s.slotAt i).state = .running then (s.pauseSlot i).answer f level .none
    else s.refuse .streamPause f level .state

/-! ### STREAM-STOP (R7) -/

/-- STREAM-STOP's own rule. -/
def State.streamStop (s : State) (f : Frame) (level : Nat) : State :=
  let i := f.slotField
  match s.slotRefused i level with
  | some status => s.refuse .streamStop f level status
  | none =>
    if (s.slotAt i).live && !(s.slotAt i).stopping then
      ((s.accept .streamStop f level (.streamStop i)).beginStop i).arbitrate
    else s.refuse .streamStop f level .state

/-! ### STREAM-CLEAR (R9) -/

/-- STREAM-CLEAR's own rule; media-full is then tested for clearing (R69). A MEDIA-AVAILABLE notice joins the Transmit List before the
reply (DESIGN CHOICE, log entry 54). -/
def State.streamClear (s : State) (f : Frame) (level : Nat) : State :=
  let i := f.slotField
  match s.slotRefused i level with
  | some status => s.refuse .streamClear f level status
  | none =>
    if (s.slotAt i).state = .stopped ∧ (s.slotAt i).loading = false then
      ((s.modSlot i (fun _ => {})).testMediaAvailable).answer f level .none
    else s.refuse .streamClear f level .state

/-! ### STREAM-READ (R10) -/

/-- The contents of a slot that is not EMPTY. -/
def Slot.report (x : Slot) : StreamReport :=
  { state := x.state, reason := x.reason, loading := x.loading, stopping := x.stopping, desc := x.desc, expected := x.expected,
    outputIndex := x.outputIndex, nextSeq := x.nextSeq, markers := x.markers, openRec := x.openRec.isSome,
    page := x.page.isSome, counters := x.counters }

/-- STREAM-READ's own rule. -/
def State.streamRead (s : State) (f : Frame) (level : Nat) : State :=
  let i := f.slotField
  if 15 < i then s.refuse .streamRead f level .param
  else
    let x := s.slotAt i
    s.answer f level (if x.state = .empty then .streamEmpty else .stream x.report)

/-! ### STREAM-LOAD (R3) -/

/-- Checks 2 to 9 of R3, for a stream in range; `none` where all pass. On a drive found unformatted the load is refused with STATE
before them (R178; log entry 13). -/
def State.loadRefused (s : State) (i : Nat) (d : Descriptor) (level : Nat) : Option Status :=
  let x := s.slotAt i
  if s.power.unformatted then some .state
  else if ¬ (x.state = .empty ∨ x.state = .stopped) ∨ x.loading then some .state
  else if x.state = .stopped ∧ (match x.desc with | some o => o.ownerLevel | none => 3) < level then some .level
  else match s.confirmedSurvey d.survey with
    | none => some .noSuch
    | some v =>
      if v.state ≠ .open then some .state
      else if v.creator < level then some .level
      else if 8 ≤ v.streamCount then some .full
      else if (v.headOf d.index).isSome then some .state
      else if s.media.mediaFull ∨ ¬ (s.liveCount + 1 < s.unused - 1) then some .full
      else none

/-- The take of an accepted load (R64). -/
def loadTake (i : Nat) (d : Descriptor) : Take :=
  { load := true, slot := i, survey := d.survey, index := d.index, firstSeq := 0, phase := .remake, headerFails := 0 }

/-- STREAM-LOAD's own rule: the loading mark is set and the segment taken in the event of acceptance. -/
def State.streamLoad (s : State) (f : Frame) (level : Nat) : State :=
  let i := f.slotField
  match loadDescriptor f.payload level with
  | none => s.refuse .streamLoad f level .param
  | some d =>
    match s.loadRefused i d level with
    | some status => s.refuse .streamLoad f level status
    | none =>
      let s : State := (s.accept .streamLoad f level (.streamLoad i d)).modSlot i (fun x => { x with loading := true })
      (s.makeTake (loadTake i d)).arbitrate

/-! ### The meanings -/

/-- STREAM_LOAD (R3). -/
def execStreamLoad (s : State) : Host.Outcome State Fault Refusal := .next (s.command .streamLoad State.streamLoad)

/-- STREAM_START (R5). -/
def execStreamStart (s : State) : Host.Outcome State Fault Refusal := .next (s.command .streamStart State.streamStart)

/-- STREAM_PAUSE (R6). -/
def execStreamPause (s : State) : Host.Outcome State Fault Refusal := .next (s.command .streamPause State.streamPause)

/-- STREAM_STOP (R7). -/
def execStreamStop (s : State) : Host.Outcome State Fault Refusal := .next (s.command .streamStop State.streamStop)

/-- STREAM_CLEAR (R9). -/
def execStreamClear (s : State) : Host.Outcome State Fault Refusal := .next (s.command .streamClear State.streamClear)

/-- STREAM_READ (R10). -/
def execStreamRead (s : State) : Host.Outcome State Fault Refusal := .next (s.command .streamRead State.streamRead)

end Sys2Proof.Machine
end

