-- ==== Sys2Proof/Machine/SurveyCommands.lean ====
section
/-! DEFINITION. The survey commands (R87 to R94) and READ-RECORDS (R104). -/

namespace Sys2Proof.Machine

/-- The survey number a command names. -/
def Frame.surveyField (f : Frame) : Nat := field f.payload 0 2

/-! ### SURVEY-OPEN (R88) -/

/-- The name a SURVEY-OPEN carries. -/
def Frame.nameField (f : Frame) : List Byte := f.payload.drop 2

/-- The new entry of a SURVEY-OPEN. -/
def State.newSurvey (s : State) (f : Frame) (level : Nat) : Survey :=
  { number := s.table.nextNumber, confirmed := false, name := f.nameField, state := .open, creator := level,
    readThreshold := clamp level 3 (field f.payload 0 1), eraseThreshold := clamp level 3 (field f.payload 1 1),
    created := s.stamp, closed := none, streamCount := 0, heads := List.replicate 8 none, tails := List.replicate 8 none,
    dropCount := 0, lastDrop := 0, hadPowerLoss := false, hadSuspect := false, hadVoid := false }

/-- The checks of SURVEY-OPEN; on a drive found unformatted it is refused with STATE after the field ranges (R178; log entry 13). -/
def State.openRefused (s : State) (f : Frame) : Option Status :=
  if nameOk f.nameField = false ∨ 3 < field f.payload 0 1 ∨ 3 < field f.payload 1 1 then some .param
  else if s.power.unformatted then some .state
  else if 64 ≤ s.table.surveys.length ∨ 65536 ≤ s.table.nextNumber then some .full
  else none

/-- SURVEY-OPEN's own rule. -/
def State.surveyOpen (s : State) (f : Frame) (level : Nat) : State :=
  match s.openRefused f with
  | some status => s.refuse .surveyOpen f level status
  | none =>
    let v := s.newSurvey f level
    let s : State := s.accept .surveyOpen f level (.surveyOpen v.number)
    let s : State := { s with table := { s.table with
      surveys := insertSurvey v s.table.surveys, nextNumber := s.table.nextNumber + 1 } }
    (s.requestEntry (.surveyOpened v.record)).arbitrate

/-! ### The checks that name one survey (R87) -/

/-- Checks 1 to 3 of R87; `limit` gives the level that the survey allows, `inRange` says whether every other field lies in
range. -/
def State.surveyCheck (s : State) (n level : Nat) (inRange : Bool) (limit : Survey → Nat) : Status ⊕ Survey :=
  if n = 0 ∨ inRange = false then .inl .param
  else match s.confirmedSurvey n with
    | none => .inl .noSuch
    | some v => if limit v < level then .inl .level else .inr v

/-! ### SURVEY-CLOSE (R89) -/

/-- The live slots bound to a survey whose stop marks are clear. -/
def State.liveSlotsOf (s : State) (n : Nat) : List Nat :=
  s.slotsWhere (fun x => x.live && !x.stopping && (match x.desc with | some d => d.survey == n | none => false))

/-- SURVEY-CLOSE's own rule. -/
def State.surveyClose (s : State) (f : Frame) (level : Nat) : State :=
  match s.surveyCheck f.surveyField level true Survey.creator with
  | .inl status => s.refuse .surveyClose f level status
  | .inr v =>
    if v.state = .open then
      let s : State := s.accept .surveyClose f level (.surveyClose v.number)
      let s : State := s.modSurvey v.number (fun x => { x with state := .closing })
      (s.beginStops (s.liveSlotsOf v.number)).arbitrate
    else s.refuse .surveyClose f level .state

/-! ### SURVEY-THRESHOLDS (R91) -/

/-- A threshold that a field results in: clamped to creator level to 3, or kept. -/
def newThreshold (creator old : Nat) : Option Nat → Nat
  | some t => clamp creator 3 t
  | none => old

/-- SURVEY-THRESHOLDS' own rule. -/
def State.surveyThresholds (s : State) (f : Frame) (level : Nat) : State :=
  let r := levelField f.payload 2
  let e := levelField f.payload 3
  match s.surveyCheck f.surveyField level (r.isSome && e.isSome) Survey.creator with
  | .inl status => s.refuse .surveyThresholds f level status
  | .inr v =>
    let nr := newThreshold v.creator v.readThreshold r.join
    let ne := newThreshold v.creator v.eraseThreshold e.join
    if v.readThreshold < nr ∨ v.eraseThreshold < ne then s.refuse .surveyThresholds f level .level
    else
      ((s.accept .surveyThresholds f level (.surveyThresholds v.number)).requestEntry (.thresholdsSet v.number nr ne)).arbitrate

/-! ### SURVEY-LOCK (R92) and SURVEY-ERASE (R93) -/

/-- SURVEY-LOCK's own rule. -/
def State.surveyLock (s : State) (f : Frame) (level : Nat) : State :=
  match s.surveyCheck f.surveyField level true Survey.creator with
  | .inl status => s.refuse .surveyLock f level status
  | .inr v =>
    if v.state = .closed then
      ((s.accept .surveyLock f level (.surveyLock v.number)).requestEntry (.surveyLocked v.number)).arbitrate
    else s.refuse .surveyLock f level .state

/-- SURVEY-ERASE's own rule. -/
def State.surveyErase (s : State) (f : Frame) (level : Nat) : State :=
  match s.surveyCheck f.surveyField level true Survey.eraseThreshold with
  | .inl status => s.refuse .surveyErase f level status
  | .inr v =>
    if v.state = .closed then
      ((s.accept .surveyErase f level (.surveyErase v.number)).requestEntry (.surveyErased v.number)).arbitrate
    else s.refuse .surveyErase f level .state

/-! ### SURVEY-LIST (R94) -/

/-- A listed entry. -/
def Survey.listing (v : Survey) : SurveyListing :=
  { number := v.number, confirmed := v.confirmed, name := v.name, state := v.state, creator := v.creator,
    readThreshold := v.readThreshold, eraseThreshold := v.eraseThreshold, created := v.created, closed := v.closed,
    streamCount := v.streamCount, dropCount := v.dropCount, hadPowerLoss := v.hadPowerLoss, hadSuspect := v.hadSuspect,
    hadVoid := v.hadVoid }

/-- SURVEY-LIST's own rule. -/
def State.surveyList (s : State) (f : Frame) (level : Nat) : State :=
  let position := field f.payload 0 1
  if 63 < position then s.refuse .surveyList f level .param
  else
    s.answer f level (.surveyList s.table.surveys.length (((s.table.surveys.drop position).take 16).map Survey.listing))

/-! ### READ-RECORDS (R104) -/

/-- READ-RECORDS' own rule. -/
def State.readRecords (s : State) (f : Frame) (level : Nat) : State :=
  let n := f.surveyField
  let index := field f.payload 2 1
  match s.surveyCheck n level (decide (index ≤ 7)) Survey.readThreshold with
  | .inl status => s.refuse .readRecords f level status
  | .inr v =>
    match v.headOf index with
    | none => s.refuse .readRecords f level .noSuch
    | some head =>
      ((s.accept .readRecords f level .readRecords).startRequest n index (field f.payload 4 4) (field f.payload 3 1)
        (hintField f.payload) head).arbitrate

/-! ### The meanings -/

/-- SURVEY_OPEN (R88). -/
def execSurveyOpen (s : State) : Host.Outcome State Fault Refusal := .next (s.command .surveyOpen State.surveyOpen)

/-- SURVEY_CLOSE (R89). -/
def execSurveyClose (s : State) : Host.Outcome State Fault Refusal := .next (s.command .surveyClose State.surveyClose)

/-- SURVEY_THRESHOLDS (R91). -/
def execSurveyThresholds (s : State) : Host.Outcome State Fault Refusal :=
  .next (s.command .surveyThresholds State.surveyThresholds)

/-- SURVEY_LOCK (R92). -/
def execSurveyLock (s : State) : Host.Outcome State Fault Refusal := .next (s.command .surveyLock State.surveyLock)

/-- SURVEY_ERASE (R93). -/
def execSurveyErase (s : State) : Host.Outcome State Fault Refusal := .next (s.command .surveyErase State.surveyErase)

/-- SURVEY_LIST (R94). -/
def execSurveyList (s : State) : Host.Outcome State Fault Refusal := .next (s.command .surveyList State.surveyList)

/-- READ_RECORDS (R104). -/
def execReadRecords (s : State) : Host.Outcome State Fault Refusal := .next (s.command .readRecords State.readRecords)

end Sys2Proof.Machine
end

