-- ==== Sys2Proof/Machine/Taking.lean ====
section
/-! DEFINITION. FRAME_SENT (R183): the frame on the line leaves the Transmit List, and a control frame that waited for its place is
taken in the same event. -/

namespace Sys2Proof.Machine

/-- The rule of each command, which its own row and a taking at FRAME_SENT share. -/
def Opcode.rule : Opcode → State → Frame → Nat → State
  | .status => State.status
  | .linkReset => State.linkReset
  | .noticeMaskSet => State.maskSet
  | .noticeMaskClear => State.maskClear
  | .clockRead => State.clockRead
  | .clockSet => State.clockSet
  | .streamLoad => State.streamLoad
  | .streamStart => State.streamStart
  | .streamPause => State.streamPause
  | .streamStop => State.streamStop
  | .streamClear => State.streamClear
  | .streamRead => State.streamRead
  | .surveyOpen => State.surveyOpen
  | .surveyClose => State.surveyClose
  | .surveyThresholds => State.surveyThresholds
  | .surveyLock => State.surveyLock
  | .surveyErase => State.surveyErase
  | .surveyList => State.surveyList
  | .readRecords => State.readRecords
  | .dropsRead => State.dropsRead
  | .gaugeRead => State.gaugeRead
  | .setLevels => State.setLevels
  | .setShock => State.setShock
  | .setGauge => State.setGauge
  | .doze => State.doze
  | .format => State.format

/-- Whether a frame's opcode names a time-taking command. -/
def Frame.timeTaking (f : Frame) : Bool :=
  match opcodeOf f.code with
  | some o => o.timeTaking
  | none => false

/-- Whether a control frame stands at the head of the receive buffer for want of a place on the Transmit List (R183). -/
def State.waitsForPlace (s : State) : Bool :=
  match s.headControl with
  | some f => !s.placesFree f.timeTaking
  | none => false

/-- The control frame at the head is taken, whichever command it carries, if it may be. -/
def State.takeAny (s : State) : State :=
  match s.headControl with
  | some f =>
    match opcodeOf f.code with
    | some o => s.takeHead o o.rule
    | none => s.takeUnknown
  | none => s

/-- FRAME_SENT's effect: a place becomes free, and the control frame that waited for it is taken in the same event (R183; log
entry 33). -/
def State.sendFrame (s : State) : State := if s.waitsForPlace then s.sent.takeAny else s.sent

/-- FRAME_SENT (R183). -/
def execFrameSent (s : State) : Host.Outcome State Fault Refusal := .next (s.settle.sendFrame.holdIdle)

end Sys2Proof.Machine
end

