-- ==== Sys2Proof/Machine/Ticks.lean ====
section
/-! DEFINITION. TICK_BOUNDARY (R164), the crystal period of an empty queue, and the rows of the steps that the part makes of its own
accord. -/

namespace Sys2Proof.Machine

/-- The retire counts and the WATCH count rise (R49, R51, R131). -/
def State.tickCounts (s : State) : State :=
  { s with
    queue := s.queue.map (fun e => { e with retire := min 8 (e.retire + 1) })
    monitor := { s.monitor with watchCount := min 8 (s.monitor.watchCount + 1) } }

/-- The tick boundary at every block that counts ticks (R164). -/
def State.tick (s : State) : State :=
  let s : State := { s with clock := { s.clock with prescaler := 0 } }
  let s : State := s.tickClock.tickCounts
  { s with sampler := s.sampler.tick s.power.state }.tickIdle

/-- One crystal period: the prescaler rises, and passing 31 makes a tick boundary (R164). -/
def State.crystal (s : State) : State :=
  if s.clock.prescaler + 1 ≤ 31 then { s with clock := { s.clock with prescaler := s.clock.prescaler + 1 } } else s.tick

/-- What the part does with no command: a due step, or else one crystal period (log entries 1 and 11). -/
def State.idle (s : State) : State :=
  match s.due with
  | some d => (s.make d).holdIdle
  | none => s.crystal

/-- TICK_BOUNDARY (R164). -/
def execTickBoundary (s : State) : Host.Outcome State Fault Refusal := .next (s.settle.tick.holdIdle)

/-- SHOCK_TRIGGER (R120). -/
def execShockTrigger (s : State) : Host.Outcome State Fault Refusal := .next (s.makeIfDue .shockTrigger)

/-- GAUGE_TRIGGER (R120). -/
def execGaugeTrigger (s : State) : Host.Outcome State Fault Refusal := .next (s.makeIfDue .gaugeTrigger)

/-- RETIRE (R51). -/
def execRetire (s : State) : Host.Outcome State Fault Refusal := .next (s.makeIfDue .retire)

/-- IDLE_TIMER_EXPIRY (R168). -/
def execIdleTimerExpiry (s : State) : Host.Outcome State Fault Refusal := .next (s.makeIfDue .idleTimerExpiry)

/-- REPORT_ALARM (R166). -/
def execReportAlarm (s : State) : Host.Outcome State Fault Refusal := .next (s.makeIfDue .reportAlarm)

/-- BUFFER_GRANT (R47). -/
def execBufferGrant (s : State) : Host.Outcome State Fault Refusal := .next (s.makeIfDue .bufferGrant)

/-- STOP_COMPLETE (R8). -/
def execStopComplete (s : State) : Host.Outcome State Fault Refusal := .next (s.makeIfDue .stopComplete)

/-- SURVEY_CLOSED_ENTRY_REQUEST (R90). -/
def execSurveyClosedEntryRequest (s : State) : Host.Outcome State Fault Refusal := .next (s.makeIfDue .surveyClosedEntryRequest)

/-- DOZE_ENTRY_COMPLETE (R169). -/
def execDozeEntryComplete (s : State) : Host.Outcome State Fault Refusal := .next (s.makeIfDue .dozeEntryComplete)

/-- SHUTDOWN_POWER_DOWN_REQUEST (R172). -/
def execShutdownPowerDownRequest (s : State) : Host.Outcome State Fault Refusal :=
  .next (s.makeIfDue .shutdownPowerDownRequest)

/-- PWR_KEEP_RELEASE (R172). -/
def execPwrKeepRelease (s : State) : Host.Outcome State Fault Refusal := .next (s.makeIfDue .pwrKeepRelease)

end Sys2Proof.Machine
end

