-- ==== Sys2Proof/Machine/Dispatch.lean ====
section
/-! DEFINITION. One arm for each command: its meaning. -/

namespace Sys2Proof.Machine

/-- The effect of a command on everything but the queue. -/
def exec (i : Instr) (s : State) : Host.Outcome State Fault Refusal :=
  match i with
  | .powerOn reportedSegments => Sys2Proof.Machine.execPowerOn reportedSegments s
  | .rstLine => Sys2Proof.Machine.execRstLine s
  | .frameArrival bytes => Sys2Proof.Machine.execFrameArrival bytes s
  | .sampleFrame => Sys2Proof.Machine.execSampleFrame s
  | .unknownOpcode => Sys2Proof.Machine.execUnknownOpcode s
  | .status => Sys2Proof.Machine.execStatus s
  | .linkReset => Sys2Proof.Machine.execLinkReset s
  | .noticeMaskSet => Sys2Proof.Machine.execNoticeMaskSet s
  | .noticeMaskClear => Sys2Proof.Machine.execNoticeMaskClear s
  | .clockRead => Sys2Proof.Machine.execClockRead s
  | .clockSet => Sys2Proof.Machine.execClockSet s
  | .streamLoad => Sys2Proof.Machine.execStreamLoad s
  | .streamStart => Sys2Proof.Machine.execStreamStart s
  | .streamPause => Sys2Proof.Machine.execStreamPause s
  | .streamStop => Sys2Proof.Machine.execStreamStop s
  | .streamClear => Sys2Proof.Machine.execStreamClear s
  | .streamRead => Sys2Proof.Machine.execStreamRead s
  | .surveyOpen => Sys2Proof.Machine.execSurveyOpen s
  | .surveyClose => Sys2Proof.Machine.execSurveyClose s
  | .surveyThresholds => Sys2Proof.Machine.execSurveyThresholds s
  | .surveyLock => Sys2Proof.Machine.execSurveyLock s
  | .surveyErase => Sys2Proof.Machine.execSurveyErase s
  | .surveyList => Sys2Proof.Machine.execSurveyList s
  | .readRecords => Sys2Proof.Machine.execReadRecords s
  | .dropsRead => Sys2Proof.Machine.execDropsRead s
  | .gaugeRead => Sys2Proof.Machine.execGaugeRead s
  | .setLevels => Sys2Proof.Machine.execSetLevels s
  | .setShock => Sys2Proof.Machine.execSetShock s
  | .setGauge => Sys2Proof.Machine.execSetGauge s
  | .doze => Sys2Proof.Machine.execDoze s
  | .format => Sys2Proof.Machine.execFormat s
  | .tickBoundary => Sys2Proof.Machine.execTickBoundary s
  | .shockTrigger => Sys2Proof.Machine.execShockTrigger s
  | .gaugeTrigger => Sys2Proof.Machine.execGaugeTrigger s
  | .retire => Sys2Proof.Machine.execRetire s
  | .idleTimerExpiry => Sys2Proof.Machine.execIdleTimerExpiry s
  | .reportAlarm => Sys2Proof.Machine.execReportAlarm s
  | .shockScanEnd ax ay az vhold => Sys2Proof.Machine.execShockScanEnd ax ay az vhold s
  | .gaugeScanEnd vhold vpack ipack tpack zeroRef fullRef => Sys2Proof.Machine.execGaugeScanEnd vhold vpack ipack tpack zeroRef fullRef s
  | .startUpSelfCheckEnd zeroRef fullRef => Sys2Proof.Machine.execStartUpSelfCheckEnd zeroRef fullRef s
  | .dataPageProgramEnd ok => Sys2Proof.Machine.execDataPageProgramEnd ok s
  | .headerProgramEnd ok => Sys2Proof.Machine.execHeaderProgramEnd ok s
  | .segmentEraseEnd ok => Sys2Proof.Machine.execSegmentEraseEnd ok s
  | .formatEraseEnd ok => Sys2Proof.Machine.execFormatEraseEnd ok s
  | .indexEntryProgramEnd ok => Sys2Proof.Machine.execIndexEntryProgramEnd ok s
  | .indexSegmentEraseEnd ok => Sys2Proof.Machine.execIndexSegmentEraseEnd ok s
  | .snapshotProgramEnd ok => Sys2Proof.Machine.execSnapshotProgramEnd ok s
  | .verificationReadEnd result => Sys2Proof.Machine.execVerificationReadEnd result s
  | .readEngineReadEnd result => Sys2Proof.Machine.execReadEngineReadEnd result s
  | .mountReadEnd result => Sys2Proof.Machine.execMountReadEnd result s
  | .operationTimeout => Sys2Proof.Machine.execOperationTimeout s
  | .wakeWaitEnd => Sys2Proof.Machine.execWakeWaitEnd s
  | .frameSent => Sys2Proof.Machine.execFrameSent s
  | .bufferGrant => Sys2Proof.Machine.execBufferGrant s
  | .stopComplete => Sys2Proof.Machine.execStopComplete s
  | .surveyClosedEntryRequest => Sys2Proof.Machine.execSurveyClosedEntryRequest s
  | .dozeEntryComplete => Sys2Proof.Machine.execDozeEntryComplete s
  | .shutdownPowerDownRequest => Sys2Proof.Machine.execShutdownPowerDownRequest s
  | .pwrKeepRelease => Sys2Proof.Machine.execPwrKeepRelease s

end Sys2Proof.Machine
end

