-- ==== Sys2Proof/Machine/Step.lean ====
section
/-! DEFINITION. One step of the block: the command at the front of the queue, or one internal step where none waits. -/

namespace Sys2Proof.Machine

/-- One step of the block. The command at the front of the queue leaves it and is carried out with the queue's rest. On an empty
queue the block does what needs no command: the internal step that is due, and where none is due a period of the crystal (R164,
R174; log 1 and log 11). -/
def step (s : State) : Host.Outcome State Fault Refusal :=
  match s.pending with
  | [] => .next s.idle
  | c :: rest => exec c { s with pending := rest }

/-- The state with the command that the word spells put at the front of its queue; unchanged where it spells none, which is every
word, since no row of the table gives bits. -/
def State.withFetchWord (s : State) (nbits w : Nat) : State :=
  match decodeTableWord nbits w with
  | some c => { s with pending := c :: s.pending }
  | none => s

end Sys2Proof.Machine
end

