-- ==== Sys2Proof/Safety.lean ====
section
/-! DEFINITION. What a safe run keeps, and the terms that the statements use: the row of a command or of a due step, and when a
control command is offered and taken. -/

namespace Sys2Proof.Machine

/-! ### Invariants -/

/-- The Frame Port: HOLD stands as R181 says, the receive buffer holds at most 8 frames (R181), and in OFF no procedure is in
progress and no idle expiry waits (R172, R173). -/
def State.PortInv (s : State) : Prop :=
  s.port.hold = s.holdWanted ∧ s.port.rx.length ≤ 8 ∧
    (s.power.state = .off → s.power.procedure = .none ∧ s.power.idleDue = false)

/-- The Survey Clock's three counters lie in their ranges (R164). -/
def State.ClockInv (s : State) : Prop :=
  s.clock.prescaler ≤ 31 ∧ s.clock.ticks ≤ 1023 ∧ s.clock.seconds ≤ 4294967295

/-- The admission limit is the smaller of the hold-up pages and the level cap, and the hold-up pages lie in 0..24 (R161). -/
def State.LimitInv (s : State) : Prop :=
  s.gauge.limit = min s.gauge.holdUpPages (levelCap s.gauge.level) ∧ s.gauge.holdUpPages ≤ 24

/-- The flash array stands in its canonical form. -/
def State.FlashInv (s : State) : Prop := Flash.wf s.media.flash = true

/-- The Drop Monitor: the park flag and the drop in progress as each state has them (R131). -/
def State.DropInv (s : State) : Prop :=
  match s.monitor.state with
  | .watch => s.monitor.park = false ∧ s.monitor.drop = none
  | .fallWait => s.monitor.drop = none
  | .falling => s.monitor.park = true ∧ s.monitor.drop.isSome = true
  | .impact => s.monitor.park = true ∧ s.monitor.drop.isSome = true
  | .settling => s.monitor.park = true ∧ s.monitor.drop.isSome = true
  | .verify => s.monitor.park = true

/-- The Stream Table has 16 slots (section 1.1), and the Page Pool 32 buffers (R46). -/
def State.ShapeInv (s : State) : Prop := s.slots.length = 16 ∧ s.pool.buffers.length = 32

/-- A safe state. -/
def State.Safe (s : State) : Prop :=
  s.PortInv ∧ s.ClockInv ∧ s.LimitInv ∧ s.FlashInv ∧ s.DropInv ∧ s.ShapeInv

/-! ### Rows -/

end Sys2Proof.Machine

namespace Sys2Proof

open Sys2Proof.Machine

/-- The row of a command. -/
def Machine.Opcode.row : Opcode → Instr
  | .status => .status
  | .linkReset => .linkReset
  | .noticeMaskSet => .noticeMaskSet
  | .noticeMaskClear => .noticeMaskClear
  | .clockRead => .clockRead
  | .clockSet => .clockSet
  | .streamLoad => .streamLoad
  | .streamStart => .streamStart
  | .streamPause => .streamPause
  | .streamStop => .streamStop
  | .streamClear => .streamClear
  | .streamRead => .streamRead
  | .surveyOpen => .surveyOpen
  | .surveyClose => .surveyClose
  | .surveyThresholds => .surveyThresholds
  | .surveyLock => .surveyLock
  | .surveyErase => .surveyErase
  | .surveyList => .surveyList
  | .readRecords => .readRecords
  | .dropsRead => .dropsRead
  | .gaugeRead => .gaugeRead
  | .setLevels => .setLevels
  | .setShock => .setShock
  | .setGauge => .setGauge
  | .doze => .doze
  | .format => .format

/-- The row of a step that the part makes of its own accord. -/
def Machine.Due.row : Due → Instr
  | .shockTrigger => .shockTrigger
  | .gaugeTrigger => .gaugeTrigger
  | .reportAlarm => .reportAlarm
  | .idleTimerExpiry => .idleTimerExpiry
  | .bufferGrant => .bufferGrant
  | .retire => .retire
  | .stopComplete => .stopComplete
  | .surveyClosedEntryRequest => .surveyClosedEntryRequest
  | .dozeEntryComplete => .dozeEntryComplete
  | .shutdownPowerDownRequest => .shutdownPowerDownRequest
  | .pwrKeepRelease => .pwrKeepRelease

end Sys2Proof

namespace Sys2Proof.Machine

/-- Every due step has been made, the control frame at the head of the receive buffer carries command `o`, and the Transmit List
has the places that taking it needs (R181, R183). -/
structure State.Offers (s : State) (o : Opcode) (f : Frame) : Prop where
  settled : s.Settled
  head : s.headControl = some f
  opcode : opcodeOf f.code = some o
  places : s.placesFree o.timeTaking = true

/-- A command that is offered and passes the tests of R185. -/
structure State.Takes (s : State) (o : Opcode) (f : Frame) : Prop extends s.Offers o f where
  passes : s.refusedBy o f = none

end Sys2Proof.Machine
end

