-- ==== Sys2Proof/Certificates/Slice0/Obligations.lean ====
section
/-! DEFINITION. The statements for the provers. "Settled" (no due step is waiting) is a hypothesis of most of them; `DueSteps` says
what a row does in an unsettled state. A frame is written `t = { s with port := t.port }`: `t` is `s` but for its port. -/

open Sys2Proof Sys2Proof.Machine

/-! ### The machine -/

/-- A step carries out the command at the front of the queue with the queue's rest; on an empty queue it makes the due step, or
else counts one crystal period. The empty queue's step is the model's own (log 1, log 11). -/
def Obligations.StepTakesFront : Prop :=
  (∀ (c : Instr) (s : State), step { s with pending := c :: s.pending } = exec c s) ∧
  (∀ s : State, s.pending = [] → ∀ d, s.due = some d → step s = .next (s.make d).holdIdle) ∧
  (∀ s : State, s.pending = [] → s.Settled → s.clock.prescaler < 31 →
    step s = .next { s with clock := { s.clock with prescaler := s.clock.prescaler + 1 } }) ∧
  (∀ s : State, s.pending = [] → s.Settled → 31 ≤ s.clock.prescaler → step s = .next s.tick)

/-- No command touches the queue of commands. -/
def Obligations.ExecKeepsQueue : Prop :=
  ∀ (c : Instr) (s t : State), exec c s = .next t → t.pending = s.pending

/-- A row that is not itself a due step first makes every due step (the model's order of internal steps, log 1). A due step's row makes
the step where it is the next one due, makes first a due step that comes before it (log 1), and does nothing where the step is not due
(log 2). What ends a row, the arbiter's choice and the idle timer held at 0, leaves the blocks that are named as they are. The arbiter:
with an operation in flight, the hold taken, or in OFF nothing starts. In VERIFY the oldest SUSPECT entry is read, if no verification read
stands; else nothing starts while the park flag is raised; else class 2 (FORMAT's erase, the rollover's erase or snapshot, the oldest
index entry), class 3 (mount's next read, whose page is said), class 4 (a take's erase or header program, a load's first; then the drain,
and what its takes request), class 5 (the engine's read) and class 6 (erase-ahead), the first that has a request. With the engine's
request waiting each commit-class program raises the fairness count, and at 4 the engine's read comes first. (`GrantAndRetire` says what
the drain does.) That FORMAT's erase puts its data segment in ERASING is the model's reading (log 21), and so is when the fairness count
returns to 0 under the park flag (log 53). -/
def Obligations.DueSteps : Prop :=
  (∀ (c : Instr) (s : State), (∀ d : Due, c ≠ d.row) → s.settle.Settled → exec c s = exec c s.settle) ∧
  (∀ (d : Due) (s : State), s.isDue d = false → exec d.row s = .next s) ∧
  (∀ (d : Due) (s : State), s.due = some d → exec d.row s = .next (s.make d).holdIdle) ∧
  (∀ (d e : Due) (s : State), s.isDue d = true → s.due = some e → e ≠ d → (s.make e).holdIdle.due = some d →
    exec d.row s = .next (((s.make e).holdIdle).make d).holdIdle) ∧
  (∀ s : State, s.holdIdle = { s with power := { s.power with idleTimer := if s.idleHeld = true then 0 else s.power.idleTimer } }) ∧
  (∀ s : State, let t := s.arbitrate
    t.clock = s.clock ∧ t.table = s.table ∧ t.engine = s.engine ∧ t.sampler = s.sampler ∧ t.monitor = s.monitor ∧
    t.gauge = s.gauge ∧ t.power = s.power ∧ t.mount = s.mount ∧ t.freeCount = s.freeCount ∧ t.pending = s.pending ∧
    t.port = { s.port with tx := t.port.tx } ∧ t.media.flash = s.media.flash ∧ t.media.hold = s.media.hold) ∧
  (∀ s : State, (s.media.op ≠ none ∨ s.media.hold = true ∨ s.power.state = .off → s.arbitrate = s) ∧
  (s.media.op = none → s.media.hold = false → s.power.state ≠ .off →
    let calm := if (s.engine.bind ReadContext.request).isSome then s.media.fairness else 0
    let begins (op : MediaOp) (image : Option PageImage) : State :=
      { s with media := { s.media with op := some op, image := image, fairness := calm } }
    (∀ before e after g p, s.queue = before ++ e :: after → (∀ x ∈ before, x.state ≠ .suspect) → e.state = .suspect →
      e.target = some (g, p) → s.monitor.state = .verify → (∀ x ∈ s.queue, x.state ≠ .verifying) →
      s.arbitrate = { begins (.verifyRead e.buffer g p) none with
        queue := s.queue.map (fun x => if x.buffer = e.buffer then { x with state := .verifying } else x) }) ∧
    (s.monitor.state ≠ .verify ∨ (∃ x ∈ s.queue, x.state = .verifying) ∨ (∀ x ∈ s.queue, x.state ≠ .suspect) →
      (s.monitor.park = true → s.arbitrate = s) ∧
      (s.monitor.park = false →
        (∀ r g, s.formatRun = some r → r.stage = .erasing g → s.arbitrate = (begins (.formatErase g) none).setSegState g
          (if g < 4 then .index else .erasing)) ∧
        ((∀ r g, s.formatRun = some r → r.stage ≠ .erasing g) →
          (∀ c, s.log.rollover = .erase c → s.arbitrate = begins (.indexErase c) none) ∧
          (∀ c b, s.log.rollover = .program c b → s.arbitrate = begins (.snapshotProgram c)
            (some (composePage (s.bufferBytes b)
              { kind := 4, rewrite := false, index := c, survey := 0, generation := s.media.generation, seq := 0, count := 1, used := 3680,
                firstSeq := leVal (((s.bufferBytes b).drop 16).take 4), seconds := s.clock.seconds, ticks := s.clock.ticks }))) ∧
          (∀ e rest g b, s.log.rollover = .none → s.log.stage = .request → s.log.waiting = e :: rest → s.log.current = some g →
            e.buffer = some b →
            s.arbitrate = { begins (.indexProgram g s.log.writePoint) (some (composePage (s.bufferBytes b)
                { kind := 3, rewrite := false, index := g, survey := 0, generation := s.media.generation, seq := 0, count := 1,
                  used := 16 + e.body.bytes.length, firstSeq := e.seq.getD 0, seconds := s.clock.seconds, ticks := s.clock.ticks })) with
              log := { s.log with writePoint := s.log.writePoint + 1, stage := .inFlight, waiting := { e with issued := true } :: rest } }) ∧
          ((∃ c, s.log.rollover = .waitBuffer c) ∨ (s.log.rollover = .none ∧
              (s.log.stage ≠ .request ∨ s.log.waiting = [] ∨ s.log.current = none)) →
            (∀ g p, s.mountTarget = some (g, p) → s.arbitrate = begins (.mountRead g p) none) ∧
            (s.mountTarget = none →
              let v : State := { s with media := { s.media with fairness := calm } }
              let raised (u : State) : Nat := if (s.engine.bind ReadContext.request).isSome then min 4 (u.media.fairness + 1) else u.media.fairness
              let waits (t : Take) : Prop := t.phase = .onAhead ∨ t.phase = .remake
              let starts (u : State) : Prop := ∀ before t after,
                u.media.takes.filter (fun x => x.load) ++ u.media.takes.filter (fun x => !x.load) = before ++ t :: after →
                (∀ x ∈ before, waits x) →
                (∀ g, t.phase = .erase g → s.arbitrate = { u with media := { u.media with op := some (.takeErase g), image := none } }) ∧
                (∀ g, t.phase = .header g → s.arbitrate = { u with media := { u.media with
                  op := some (.headerProgram g)
                  image := some (composePage (match u.takeDescriptor t with | some d => d.bytes | none => [])
                    { kind := 1, rewrite := false, index := t.index, survey := t.survey, generation := u.media.generation,
                      seq := u.takeSeq t, count := 0, used := 32, firstSeq := t.firstSeq, seconds := u.clock.seconds,
                      ticks := u.clock.ticks })
                  fairness := raised u } })
              let reads (u : State) : Prop := ∀ c g p, s.engine = some c → c.request = some (g, p) →
                s.arbitrate = { u with media := { u.media with op := some (.engineRead g p false), image := none, fairness := 0 } }
              let d := v.drain [] s.queue
              (calm = 4 → reads v) ∧
              (calm ≠ 4 → starts v ∧ ((∀ t ∈ s.media.takes, waits t) →
                (d.2 = true → s.arbitrate = { d.1 with media := { d.1.media with fairness := raised d.1 } }) ∧
                (d.2 = false → starts d.1 ∧ ((∀ t ∈ d.1.media.takes, waits t) →
                  reads d.1 ∧ (s.engine.bind ReadContext.request = none →
                    let free := d.1.media.ready.length < 4 ∧ d.1.media.takes = [] ∧ s.formatRun = none ∧ s.power.phase = .ready
                    (∀ g rest, free → d.1.media.free = g :: rest → s.arbitrate = { d.1 with media := { d.1.media with
                      op := some (.aheadErase g)
                      image := none
                      free := rest
                      segs := d.1.media.segs.modify g (fun x => { x with state := .erasing }) } }) ∧
                    (¬ free ∨ d.1.media.free = [] → s.arbitrate = d.1))))))))))))) ∧
  (∀ (s : State) (t : Take),
    (t.load = true → s.takeSeq t = 0 ∧ ∀ o i d, s.slot = some o → o.request = .streamLoad i d → s.takeDescriptor t = some d) ∧
    (t.load = false → s.takeDescriptor t = (s.slotAt t.slot).desc ∧
      ∀ tail c, s.tailOf t.survey t.index = some tail → s.chainAt tail = some c → s.takeSeq t = c.seq + 1)) ∧
  (∀ s : State,
    (∀ next best, s.mount = .heads next best → s.mountTarget = some (next, 0)) ∧
    (∀ g p expect passed, s.mount = .replay g p expect passed → s.mountTarget = some (g, p)) ∧
    (∀ next, s.mount = .headers next → s.mountTarget = some (next, 0)) ∧
    (∀ survey index left done,
      (∀ low high probed tail, s.tailOf survey index = some tail →
        (s.mount = .chains ((survey, index) :: left) (.writePoint low high false probed) done →
          s.mountTarget = some (tail, (low + high) / 2)) ∧
        (s.mount = .chains ((survey, index) :: left) (.writePoint low high true probed) done →
          s.mountTarget = some (tail, (low + high) / 2 + 1))) ∧
      (∀ p ps count tail, s.tailOf survey index = some tail →
        s.mount = .chains ((survey, index) :: left) (.voids (p :: ps) count) done → s.mountTarget = some (tail, p)) ∧
      (∀ g p best marks, s.mount = .chains ((survey, index) :: left) (.last g p best marks) done → s.mountTarget = some (g, p)) ∧
      (∀ g p best marks, s.mount = .chains ((survey, index) :: left) (.output g p best marks) done → s.mountTarget = some (g, p))) ∧
    (∀ c left read done tail, s.mount = .restore (c :: left) read done → s.tailOf c.survey c.index = some tail →
      s.mountTarget = some (tail, 0)) ∧
    (s.mount = .done → s.mountTarget = none))

/-- Every step keeps HOLD as R181 says, at most 8 frames in the receive buffer, and, in OFF, no procedure and no idle expiry due (the
model's reading of OFF, log 22). -/
def Obligations.StepKeepsPort : Prop := ∀ s t : State, step s = .next t → s.PortInv → t.PortInv

/-- Every step keeps the prescaler, the tick counter and the seconds counter in their ranges. -/
def Obligations.StepKeepsClock : Prop := ∀ s t : State, step s = .next t → s.ClockInv → t.ClockInv

/-- Every step keeps the admission limit at the smaller of the hold-up pages and the level cap. -/
def Obligations.StepKeepsLimit : Prop := ∀ s t : State, step s = .next t → s.LimitInv → t.LimitInv

/-- Every step keeps the flash array in its canonical form. -/
def Obligations.StepKeepsFlash : Prop := ∀ s t : State, step s = .next t → s.FlashInv → t.FlashInv

/-- Every step keeps the park flag and the drop in progress as each state of the Drop Monitor has them. -/
def Obligations.StepKeepsDrop : Prop := ∀ s t : State, step s = .next t → s.DropInv → t.DropInv

/-- Every step keeps the 16 slots of the Stream Table and the 32 buffers of the Page Pool. -/
def Obligations.StepKeepsShape : Prop := ∀ s t : State, step s = .next t → s.ShapeInv → t.ShapeInv

/-- The reset state meets every invariant that the steps keep: of the port, the clock, the limit, the flash array, the Drop Monitor, and
the shape of the Stream Table and the Page Pool. Where a reset value is the model's, log 8 names it. -/
def Obligations.ResetIsSafe : Prop := State.reset.Safe

/-! ### Power-on and the RST line -/

/-- What a lost operation leaves of the flash array (R80: a page may be partly programmed, a segment partly erased): an idle port
or a read leaves all of it; a program leaves every other page; an erase leaves every page of the other segments. -/
def Obligations.LostOperation : Prop :=
  ∀ s : State, s.FlashInv →
    ((s.media.op = none ∨ (∃ b g p, s.media.op = some (.verifyRead b g p)) ∨ (∃ g p d, s.media.op = some (.engineRead g p d)) ∨
        (∃ g p, s.media.op = some (.mountRead g p))) → s.loseOp = s) ∧
    (∀ g p, ((∃ b, s.media.op = some (.dataProgram b g p)) ∨ (s.media.op = some (.headerProgram g) ∧ p = 0) ∨
        s.media.op = some (.indexProgram g p) ∨ (s.media.op = some (.snapshotProgram g) ∧ p = 0)) →
      ∀ k, k ≠ Flash.key g p → Flash.read s.loseOp.media.flash k = Flash.read s.media.flash k) ∧
    (∀ g, (s.media.op = some (.takeErase g) ∨ s.media.op = some (.aheadErase g) ∨ s.media.op = some (.formatErase g) ∨
        s.media.op = some (.indexErase g)) →
      ∀ k, k / 256 ≠ g → Flash.read s.loseOp.media.flash k = Flash.read s.media.flash k)

/-- POWER_ON puts every block at its power-on values in front of the array it finds: the pages of the flash stay, but for what the
lost operation leaves.
Values that the spec does not state are the model's (log 8). -/
def Obligations.PowerOn : Prop :=
  ∀ (n : Nat) (s : State), s.Settled →
    exec (.powerOn n) s = .next
      { State.reset with
        media := Media.reset n s.loseOp.media.flash
        freeCount := s.loseOp.freeCount
        pending := s.pending }

/-- The Survey Clock through power-on, the RST line and LINK-RESET: power-on leaves prescaler, ticks and seconds 0, the valid flag
clear and the alarm restarted with the default interval of 60 s, so that every stamp carries the flag clear; the RST line and
LINK-RESET keep the counters, the flag and the next report time, and no row sets the flag but CLOCK-SET, taken in its own row or in
FRAME_SENT's event where it waited for a place on the Transmit List (R183). -/
def Obligations.ClockThroughResets : Prop :=
  (∀ (n : Nat) (s : State), ∃ t, exec (.powerOn n) s = .next t ∧
    t.clock = { prescaler := 0, ticks := 0, seconds := 0, valid := false, nextReport := some 60 } ∧ t.stamp = { seconds := 0, ticks := 0, valid := false }) ∧
  (∀ s : State, s.Settled → ∃ t, exec .rstLine s = .next t ∧ t.clock = s.clock) ∧
  (∀ s : State, s.Settled → ∃ t, exec .linkReset s = .next t ∧ t.clock = s.clock) ∧
  (∀ (c : Instr) (s t : State), c ≠ .clockSet →
    (c = .frameSent → ∀ f, s.settle.headControl = some f → opcodeOf f.code ≠ some .clockSet) →
    exec c s = .next t → s.clock.valid = false → t.clock.valid = false)

/-- RST_LINE resets every block but the always-on domain: the clock, and of the gauge Remaining, A, the level, the estimate flags
and the settings, are kept, every other field of the gauge and of Power Control takes its power-on value, a kept level CRITICAL
begins shutdown, and no start-up self-check is made. LINK-RESET: the frames behind it and the entries of the Transmit List that are
not on the line are discarded, the four port counts become 0 and the Read Engine's page stores are cleared; a READ-RECORDS in flight
is abandoned, its read in flight to be discarded, and any other command's reply is suppressed; its own reply joins the list; of a
shutdown only the number of entries it waits to be sent falls to those left. Nothing else changes.
Values that the spec does not state for a reset are the model's (log 8). -/
def Obligations.RstAndLinkReset : Prop :=
  (∀ s : State, s.Settled → exec .rstLine s = .next { State.reset with
      clock := s.clock
      gauge := { Gauge.reset with
        remaining := s.gauge.remaining
        acc := s.gauge.acc
        level := s.gauge.level
        estimatePending := s.gauge.estimatePending
        estimate := s.gauge.estimate
        settings := s.gauge.settings }
      sampler := Sampler.reset none
      media := Media.reset s.media.reportedSegments s.loseOp.media.flash
      power := { Power.reset with procedure := if s.gauge.level = .critical then .shutdown .conditions else .none }
      freeCount := s.loseOp.freeCount
      pending := s.pending }) ∧
  ∀ (s : State) (f : Frame), s.Takes .linkReset f →
    let reading := ∃ c, s.slot = some c ∧ c.opcode = .readRecords
    ∃ t : State, exec .linkReset s = .next (State.holdIdle t) ∧
      t = { s with
        port := { s.port with
          rx := []
          hold := false
          counts := {}
          tx := s.port.tx.take 1 ++ [.reply
            { port := f.port, tag := f.tag, level := s.effective f, status := .ok, kept := false, payload := .none }] }
        slot := t.slot
        engine := t.engine
        stores := {}
        media := { s.media with op := t.media.op }
        power := { s.power with procedure := match s.power.procedure with
          | .shutdown (.drain left) => .shutdown (.drain (min left (min 1 s.port.tx.length)))
          | p => p } } ∧
      (reading → t.slot = none ∧ t.engine = none ∧
        (∀ g p d, s.media.op = some (.engineRead g p d) → t.media.op = some (.engineRead g p true)) ∧
        ((∀ g p d, s.media.op ≠ some (.engineRead g p d)) → t.media.op = s.media.op)) ∧
      (¬ reading → t.slot = s.slot.map (fun c => { c with suppressed := true }) ∧ t.engine = s.engine ∧ t.media.op = s.media.op)

/-! ### The Frame Port -/

/-- FRAME_ARRIVAL keeps a frame that passes the four tests: it joins the receive buffer's end, HOLD is judged, the idle timer
returns to 0, a DOZE entry of cause IDLE is abandoned, and in DOZE the wake begins. -/
def Obligations.FrameKept : Prop :=
  ∀ (bytes : List Byte) (k : FrameKind) (s : State), s.Settled → s.power.state ≠ .off → framed bytes = true →
    inboundKind bytes = some k → (k = .sample → (frameOf k bytes).sampleFormed = true) → s.port.rx.length < 8 →
    ∃ t, exec (.frameArrival bytes) s = .next t ∧
      t = { s with port := t.port, power := t.power, media := { s.media with hold := t.media.hold } } ∧
      t.port = { s.port with rx := s.port.rx ++ [frameOf k bytes], hold := decide (6 ≤ s.port.rx.length) } ∧
      t.power.idleTimer = 0 ∧ t.power.state = s.power.state ∧
      (s.power.procedure = .dozeEntry .idle → t.power.procedure = .none ∧ t.media.hold = false) ∧
      (s.power.procedure ≠ .dozeEntry .idle → t.media.hold = s.media.hold) ∧
      (s.power.state = .doze → s.power.procedure = .none → t.power.procedure = .wakeWait) ∧
      (s.power.state = .active → s.power.procedure ≠ .dozeEntry .idle → t.power.procedure = s.power.procedure)

/-- FRAME_ARRIVAL discards a frame at the first test it fails, raising that test's count and nothing else: the framing error count
for a bad length or kind, the malformed sample count, the overrun count; in OFF every arrival is an overrun. -/
def Obligations.FrameDiscarded : Prop :=
  ∀ (bytes : List Byte) (s : State), s.Settled →
    (s.power.state = .off ∨ (∃ k, framed bytes = true ∧ inboundKind bytes = some k ∧
        (k = .sample → (frameOf k bytes).sampleFormed = true) ∧ 8 ≤ s.port.rx.length) →
      exec (.frameArrival bytes) s = .next (State.holdIdle { s with port := { s.port with
        counts := { s.port.counts with overrun := min 4294967295 (s.port.counts.overrun + 1) } } })) ∧
    (s.power.state ≠ .off → (framed bytes = false ∨ inboundKind bytes = none) →
      exec (.frameArrival bytes) s = .next (State.holdIdle { s with port := { s.port with
        counts := { s.port.counts with framing := min 4294967295 (s.port.counts.framing + 1) } } })) ∧
    (s.power.state ≠ .off → framed bytes = true → inboundKind bytes = some .sample →
      (frameOf .sample bytes).sampleFormed = false →
      exec (.frameArrival bytes) s = .next (State.holdIdle { s with port := { s.port with
        counts := { s.port.counts with malformed := min 4294967295 (s.port.counts.malformed + 1) } } }))

/-- The Transmit List. FRAME_SENT takes the frame on the line off it, so that the entry behind it is on the line; a shutdown that
waits for the list counts it; with an empty list it changes nothing (the model's, log 2). A control frame at the head of the
receive buffer that waited for a place is taken in the same event, as by its own row (that one frame at most is taken is the
model's reading, log 33). A notice of a disabled kind is dropped; a pending notice of the kind behind the frame on the line takes
the new payload in its place, so that the list keeps its length; otherwise the notice joins the tail. The head of the list counts
as begun (log 47). Nothing else changes. -/
def Obligations.TransmitList : Prop :=
  (∀ s : State, s.Settled →
      (s.port.tx = [] → exec .frameSent s = .next s.holdIdle) ∧
      (∀ e rest, s.port.tx = e :: rest → ∃ t : State,
        t = { s with port := { s.port with tx := rest }, power := { s.power with procedure := t.power.procedure } } ∧
        (∀ n, s.power.procedure = .shutdown (.drain n) → t.power.procedure = .shutdown (.drain (n - 1))) ∧
        ((∀ n, s.power.procedure ≠ .shutdown (.drain n)) → t.power.procedure = s.power.procedure) ∧
        (s.waitsForPlace = false ∨ t.waitsForPlace = true → exec .frameSent s = .next (State.holdIdle t)) ∧
        (∀ f, s.headControl = some f → s.waitsForPlace = true → t.waitsForPlace = false → t.Settled →
          (∀ o, opcodeOf f.code = some o → exec .frameSent s = exec o.row t) ∧
          (opcodeOf f.code = none → exec .frameSent s = exec .unknownOpcode t)))) ∧
  ∀ (s : State) (n : Notice),
      (s.port.mask.enabled n.kind = false → s.raise n = s) ∧
      (s.port.mask.enabled n.kind = true →
        s.raise n = { s with port := { s.port with tx := (s.raise n).port.tx } } ∧
        ((s.port.tx.tail.any (TxEntry.isNotice n.kind)) = false → (s.raise n).port.tx = s.port.tx ++ [.notice n]) ∧
        ((s.port.tx.tail.any (TxEntry.isNotice n.kind)) = true →
          (s.raise n).port.tx.length = s.port.tx.length ∧ (s.raise n).port.tx.head? = s.port.tx.head? ∧
          ∀ i e, s.port.tx[i + 1]? = some e →
            (s.raise n).port.tx[i + 1]? = some (if e.isNotice n.kind then .notice n else e)))

/-! ### The Command Unit -/

/-- The tests of R185 after the first, in their order, over every command: a payload length that the fields do not take is PARAM,
a command not taken during mount is NOT-READY, a time-taking command while the Operation Slot is occupied is BUSY. The refusal
changes no state but for its reply in an ordinary place and the receive slot it frees. A refused READ-RECORDS repeats its survey and
stream index, a byte that a short payload does not hold being 0 (log 35). -/
def Obligations.RefusedByTests : Prop :=
  ∀ (o : Opcode) (s : State) (f : Frame), s.Offers o f →
    let refused (st : Status) : Host.Outcome State Fault Refusal :=
      .next (State.freeHead { s with port := { s.port with tx := s.port.tx ++ [.reply
        { port := f.port, tag := f.tag, level := max (s.table.present.getD f.port 3) f.asked, status := st, kept := false,
          payload := refusalPayload o f }] } }).holdIdle
    (o.lengthFits f.payload.length = false → exec o.row s = refused .param) ∧
    (o.lengthFits f.payload.length = true → s.power.phase ≠ .ready → o.anyPhase = false → exec o.row s = refused .notReady) ∧
    (o.lengthFits f.payload.length = true → s.power.phase = .ready → o.timeTaking = true → s.slot.isSome = true →
      exec o.row s = refused .busy)

/-- UNKNOWN_OPCODE: an opcode that names no command is refused with PARAM and an empty payload. A command's row does nothing where
the head of the receive buffer is not a control frame that carries the command, or where the Transmit List has no place for its
reply, or in OFF (log 2). -/
def Obligations.FramesNotTaken : Prop :=
  (∀ (s : State) (f : Frame), s.Settled → s.headControl = some f → opcodeOf f.code = none → s.placesFree false = true →
    exec .unknownOpcode s = .next (State.freeHead { s with port := { s.port with tx := s.port.tx ++ [.reply
      { port := f.port, tag := f.tag, level := max (s.table.present.getD f.port 3) f.asked, status := .param, kept := false,
        payload := .none }] } }).holdIdle) ∧
  (∀ (o : Opcode) (s : State), s.Settled → (∀ f, ¬ s.Offers o f) → exec o.row s = .next s)

/-- STATUS, CLOCK-READ, DROPS-READ, GAUGE-READ and STREAM-READ are taken at any level, those that R185 allows in every mount phase,
and change nothing but the Transmit List, which takes the reply with the report, and the receive slot freed. STREAM-READ answers
PARAM to a slot number above 15, EMPTY alone for an EMPTY slot, and the contents of any other. -/
def Obligations.ReadingCommands : Prop :=
  (∀ (o : Opcode) (s : State) (f : Frame), s.Takes o f →
      let answered (p : Payload) : Host.Outcome State Fault Refusal :=
        .next (State.freeHead { s with port := { s.port with tx := s.port.tx ++ [.reply
          { port := f.port, tag := f.tag, level := s.effective f, status := .ok, kept := false, payload := p }] } }).holdIdle
      (o = .status → exec .status s = answered (.status s.statusReport)) ∧
      (o = .clockRead → exec .clockRead s = answered (.clock s.stamp s.gauge.settings.reportInterval s.clock.nextReport)) ∧
      (o = .dropsRead → exec .dropsRead s = answered (.drops s.monitor.state s.monitor.park s.monitor.total
        (s.monitor.drop.map (fun r => r.computed s.monitor.shock)) s.monitor.drops.reverse)) ∧
      (o = .gaugeRead → exec .gaugeRead s = answered (.gauge s.gaugeReport))) ∧
  ∀ (s : State) (f : Frame), s.Takes .streamRead f →
      let i := leVal (f.payload.take 1)
      let replied (st : Status) (p : Payload) : Host.Outcome State Fault Refusal :=
        .next (State.freeHead { s with port := { s.port with tx := s.port.tx ++ [.reply
          { port := f.port, tag := f.tag, level := s.effective f, status := st, kept := false, payload := p }] } }).holdIdle
      (15 < i → exec .streamRead s = replied .param .none) ∧
      (i ≤ 15 → (s.slotAt i).state = .empty → exec .streamRead s = replied .ok .streamEmpty) ∧
      (i ≤ 15 → (s.slotAt i).state ≠ .empty → exec .streamRead s = replied .ok (.stream (s.slotAt i).report))

/-- CLOCK-SET: refused with LEVEL above level 1; otherwise the seconds take the given value, ticks and prescaler become 0, the valid
flag is set, the report alarm is restarted, and the reply OK carries the clock as loaded. Nothing else changes. -/
def Obligations.ClockSet : Prop :=
  ∀ (s : State) (f : Frame), s.Takes .clockSet f →
    (1 < s.effective f → exec .clockSet s = .next ((s.refuse .clockSet f (s.effective f) .level).freeHead).holdIdle) ∧
    (s.effective f ≤ 1 →
      let seconds := leVal (f.payload.take 4)
      exec .clockSet s = .next (State.freeHead { s with
        clock := { prescaler := 0, ticks := 0, seconds := seconds, valid := true,
                   nextReport := if s.gauge.settings.reportInterval = 0 then none
                     else some ((seconds + s.gauge.settings.reportInterval) % 4294967296) }
        port := { s.port with tx := s.port.tx ++ [.reply
          { port := f.port, tag := f.tag, level := s.effective f, status := .ok, kept := false,
            payload := .clockSet { seconds := seconds, ticks := 0, valid := true } }] } }).holdIdle)

/-- NOTICE-MASK-SET and NOTICE-MASK-CLEAR: refused with LEVEL above level 1; otherwise SET enables the kinds named, CLEAR disables
them, kinds not named are unchanged, nothing on the Transmit List leaves it, and the reply OK carries the mask after the change.
Bit 7 of the named kinds stands for none (log 14). -/
def Obligations.NoticeMasks : Prop :=
  ∀ (s : State) (f : Frame),
    (s.Takes .noticeMaskSet f →
      (1 < s.effective f →
        exec .noticeMaskSet s = .next ((s.refuse .noticeMaskSet f (s.effective f) .level).freeHead).holdIdle) ∧
      (s.effective f ≤ 1 → ∃ m : NoticeMask,
        (∀ k, m.enabled k = (s.port.mask.enabled k || (kindSet (leVal (f.payload.take 1))).enabled k)) ∧
        exec .noticeMaskSet s = .next (State.freeHead { s with port := { s.port with mask := m, tx := s.port.tx ++ [.reply
          { port := f.port, tag := f.tag, level := s.effective f, status := .ok, kept := false, payload := .mask m }] } }).holdIdle)) ∧
    (s.Takes .noticeMaskClear f →
      (1 < s.effective f →
        exec .noticeMaskClear s = .next ((s.refuse .noticeMaskClear f (s.effective f) .level).freeHead).holdIdle) ∧
      (s.effective f ≤ 1 → ∃ m : NoticeMask,
        (∀ k, m.enabled k = (s.port.mask.enabled k && !(kindSet (leVal (f.payload.take 1))).enabled k)) ∧
        exec .noticeMaskClear s = .next (State.freeHead { s with port := { s.port with mask := m, tx := s.port.tx ++ [.reply
          { port := f.port, tag := f.tag, level := s.effective f, status := .ok, kept := false, payload := .mask m }] } }).holdIdle))

/-! ### Mount -/

/-- Mount after its first four reads. Replay: an entry page with the sequence expected is replayed by its kind, with the clean-shutdown
indication that POWER-DOWN alone sets, and the next page is read; one page that does not read VALID is passed over; at the end of the
standing entries the log takes its position, the drops declared before take their numbers, and the headers are read. The WRITE-POINTS
phase: the binary search for the tail's write point, a probe that reads ERASED being judged by the page after it; the void count of the
two pages below it; the last record and its output index, which where the last page gives none is that of the nearest earlier record read
(log 52). The restore: slots from 0 on take what R19 gives, their tails are ACTIVE, their surveys' had-power-loss flags set, and mount
ends with READY; a header page that does not read is log 7's, the write point at the end of the standing entries log 17's. The last header
of SEGMENTS: of the members with one survey, stream index and sequence the lowest segment stays and the others become FREE; each is linked
to the next by sequence; the surveys take their heads, tails and stream counts; the FREE segments make the Free List in ascending order,
the Ready List is empty, and the chains are worked through in the table's order, or, with none, mount is READY. An index page whose entry
kind names none of R95's eight is passed over (log 6). A header page with a stream index above 7 leaves its segment FREE (log 68). -/
def Obligations.Mount : Prop :=
  (∀ (s : State) (data : List Byte), (entryOf data = none → s.replayPage data = s) ∧ ∀ body, entryOf data = some body →
    let u := s.replayPage data
    let onSurvey (n : Nat) (g : Survey → Survey) : List Survey := s.table.surveys.map (fun v => if v.number = n then g v else v)
    u.log = { s.log with clean := decide (body = .powerDown) } ∧
    (∀ r, body = .surveyOpened r → u.table.nextNumber = max s.table.nextNumber (r.number + 1) ∧
      (∀ v, s.surveyAt r.number = some v → u.table.surveys = s.table.surveys) ∧
      (s.surveyAt r.number = none → u.surveyAt r.number = some
        { number := r.number, confirmed := true, name := r.name, state := .open, creator := r.creator, readThreshold := r.readThreshold,
          eraseThreshold := r.eraseThreshold, created := r.created, closed := none, streamCount := 0,
          heads := List.replicate 8 none, tails := List.replicate 8 none, dropCount := 0, lastDrop := 0, hadPowerLoss := false,
          hadSuspect := false, hadVoid := false })) ∧
    (∀ r, body = .surveyClosed r → u.table = { s.table with surveys := onSurvey r.number (fun v => if v.state = .open then
      { v with state := .closed, closed := r.closed, dropCount := r.dropCount, lastDrop := r.lastDrop, hadPowerLoss := r.hadPowerLoss,
               hadSuspect := r.hadSuspect, hadVoid := r.hadVoid } else v) }) ∧
    (∀ n a b, body = .thresholdsSet n a b →
      u.table = { s.table with surveys := onSurvey n (fun v => { v with readThreshold := a, eraseThreshold := b }) }) ∧
    (∀ n, body = .surveyLocked n → u.table = { s.table with
      surveys := onSurvey n (fun v => if v.state = .closed then { v with state := .locked } else v) }) ∧
    (∀ n, body = .surveyErased n → u.table = { s.table with surveys := s.table.surveys.filter (fun v => v.number != n) }) ∧
    (∀ l, body = .ports l → u.table = { s.table with stored := l, present := l }) ∧
    (∀ v, body = .shock v → u.monitor = { s.monitor with shock := v }) ∧
    (∀ v, body = .gauge v → u.gauge.settings = v) ∧
    (∀ r, body = .drop r → u.monitor.total = max s.monitor.total r.number ∧
      (let l := s.monitor.drops ++ [r]
       u.monitor.drops = if s.monitor.drops.any (fun x => x.number == r.number) then s.monitor.drops else l.drop (l.length - 16)) ∧
      u.table = { s.table with surveys := s.table.surveys.map (fun v => if v.number ∈ r.surveys ∧ v.lastDrop < r.number then
        { v with dropCount := min 65535 (v.dropCount + 1), lastDrop := r.number } else v) })) ∧
  (∀ (s : State) (g p : Nat) (o : ReadOutcome), s.Settled → s.media.op = some (.mountRead g p) →
    let idle : State := { s with media := { s.media with op := none } }
    let result := judgePage s.media.generation (outcomeImage o s.media.flash g p)
    let void := decide (result = .void ∨ result = .failed)
    let goes (t : State) : Prop := exec (.mountReadEnd o) s = .next ((t.afterOp).holdIdle)
    (∀ seg page expect passed, s.mount = .replay seg page expect passed →
      (∀ t data, result = .valid t data → t.kind = 3 → t.firstSeq = expect → page < 255 →
        goes { idle.replayPage data with mount := .replay seg (page + 1) ((expect + 1) % 4294967296) none }) ∧
      ((∀ t data, result ≠ .valid t data) → passed = none → page < 255 →
        goes { idle with mount := .replay seg (page + 1) expect (some (decide (result = .erased))) }) ∧
      ((∃ t data, result = .valid t data ∧ ¬ (t.kind = 3 ∧ t.firstSeq = expect)) ∨
          ((∀ t data, result ≠ .valid t data) ∧ passed ≠ none) →
        s.log.waiting = [] → 4 < s.media.segs.length →
        goes { idle with
          log := { s.log with
            current := some seg
            writePoint := if passed = some true ∧ result = .erased then page - 1 else page
            nextSeq := expect }
          power := { s.power with phase := .segments }
          monitor := idle.numberDrops.monitor
          mount := .headers 4 })) ∧
    (∀ survey index left after low high probed done,
      s.mount = .chains ((survey, index) :: left) (.writePoint low high after probed) done →
      let mid := (low + high) / 2
      let here := if after = true then mid + 1 else mid
      let probes := (here, void) :: probed
      let on (t : State) (work : ChainWork) : Prop := goes { t with mount := .chains ((survey, index) :: left) work done }
      (after = false → result = .erased → mid + 1 ≤ 255 → on idle (.writePoint low high true probes)) ∧
      (after = true → result = .erased → low ≤ mid - 1 → on idle (.writePoint low (mid - 1) false probes)) ∧
      (result ≠ .erased → mid + 1 ≤ high → on idle (.writePoint (mid + 1) high false probes)) ∧
      (∀ w tail x c q qs, s.tailOf survey index = some tail → s.media.segs[tail]? = some x → x.chain = some c →
        (result ≠ .erased ∧ high < mid + 1 ∧ w = mid + 1) ∨ (after = true ∧ result = .erased ∧ mid - 1 < low ∧ w = low) →
        [w - 1, w - 2].filter (fun k => decide (1 ≤ k ∧ ∀ e ∈ probes, e.1 ≠ k)) = q :: qs → 3 ≤ w →
        on { idle with media := { idle.media with segs := s.media.segs.set tail { x with chain := some { c with writePoint := w } } } }
          (.voids (q :: qs) ([w - 1, w - 2].countP (fun k => decide ((k, true) ∈ probes))))) ) ∧
    (∀ survey index left q n done tail x c, s.mount = .chains ((survey, index) :: left) (.voids [q] n) done →
      s.tailOf survey index = some tail → s.media.segs[tail]? = some x → x.chain = some c → 2 ≤ c.writePoint →
      let total := n + (if void = true then 1 else 0)
      goes { idle with
        media := { idle.media with segs := s.media.segs.set tail { x with chain := some { c with voids := total } } }
        table := if 0 < total then { s.table with surveys := s.table.surveys.map (fun v =>
          if v.number = survey then { v with hadVoid := true } else v) } else s.table
        mount := .chains ((survey, index) :: left) (.last tail (c.writePoint - 1) none []) done }) ∧
    (∀ survey index next left h k done t data n, s.mount = .chains ((survey, index) :: next :: left) (.last h k none []) done →
      result = .valid t data → t.kind = 2 → t.survey = survey → t.index = index → t.rewrite = false →
      lastOutputIndex data t.count = some n →
      goes { idle with mount := .chains (next :: left) (.writePoint 1 255 false []) (done ++
        [{ survey := survey, index := index, lastSeq := some (t.firstSeq + t.count - 1), stopped := endsInStop data t.count,
           outputIndex := n }]) }) ∧
    (∀ c read done t data, s.mount = .restore [c] read done → result = .valid t data → t.kind = 1 →
      let all := read ++ [(c, descriptorOf data)]
      ∃ u : State, goes u ∧ u.power = { s.power with phase := .ready } ∧ u.mount = .done ∧
        (∀ k r d, all[k]? = some (r, d) → k < s.slots.length →
          u.slotAt k = { state := .paused, reason := some .restore, desc := some d, outputIndex := r.outputIndex
                         nextSeq := match r.lastSeq with | some n => (n + 1) % 4294967296 | none => 0
                         markers := { power := some { stamp := s.stamp, index := r.outputIndex, reason := .restore } } } ∧
          (∀ v, s.surveyAt r.survey = some v → u.surveyAt r.survey = some { v with hadPowerLoss := true }) ∧
          (∀ tail x, s.tailOf r.survey r.index = some tail → s.media.segs[tail]? = some x →
            u.media.segs[tail]? = some { x with state := .active })) ∧
        ∀ k, all.length ≤ k → u.slotAt k = s.slotAt k)) ∧
  (∀ (survey index : Nat) (b : LastPage) (marks : List IndexMark), lastOutputIndex b.data b.count = none →
    let n := (chainResult survey index b marks).outputIndex
    ((∀ m ∈ marks, b.firstSeq ≤ m.firstSeq) → n = 0) ∧
    (∀ m ∈ marks, m.firstSeq < b.firstSeq → ∃ k ∈ marks, k.firstSeq < b.firstSeq ∧ n = k.outputIndex ∧
      ∀ j ∈ marks, j.firstSeq < b.firstSeq → j.firstSeq ≤ k.firstSeq)) ∧
  (∀ (s : State) (g p next : Nat) (o : ReadOutcome), s.Settled → s.media.op = some (.mountRead g p) → s.mount = .headers next →
    next + 1 = s.media.segs.length →
    let idle : State := { s with media := { s.media with op := none } }
    ∃ (placed : List Segment) (u : State), exec (.mountReadEnd o) s = .next ((u.afterOp).holdIdle) ∧
      placed.length = s.media.segs.length ∧ (∀ h, h ≠ next → placed[h]? = s.media.segs[h]?) ∧
      (∀ x, s.media.segs[next]? = some x →
        (∀ t data, judgePage s.media.generation (outcomeImage o s.media.flash g p) = .valid t data → t.kind = 1 → t.index ≤ 7 →
          s.surveyAt t.survey ≠ none → placed[next]? = some { x with
            state := .full
            chain := some { survey := t.survey, index := t.index, seq := t.seq, firstSeq := t.firstSeq, next := none,
                            writePoint := 256, voids := 0 } }) ∧
        ((∀ t data, judgePage s.media.generation (outcomeImage o s.media.flash g p) = .valid t data →
          ¬ (t.kind = 1 ∧ t.index ≤ 7 ∧ s.surveyAt t.survey ≠ none)) → placed[next]? = some x)) ∧
      (let at_ (h : Nat) : Option ChainInfo := placed[h]?.bind Segment.chain
       let stays (h : Nat) (c : ChainInfo) : Prop := at_ h = some c ∧
         ∀ k d, k < h → at_ k = some d → ¬ (d.survey = c.survey ∧ d.index = c.index ∧ d.seq = c.seq)
       let member (n i h : Nat) (c : ChainInfo) : Prop := stays h c ∧ c.survey = n ∧ c.index = i
       (∀ h x, placed[h]? = some x →
         (x.chain = none → u.media.segs[h]? = some x) ∧
         (∀ c, x.chain = some c →
           (¬ stays h c → u.media.segs[h]? = some { x with state := .free, chain := none }) ∧
           (stays h c → ∃ n, u.media.segs[h]? = some { x with chain := some { c with next := n } } ∧
             ((∀ k d, member c.survey c.index k d → d.seq ≤ c.seq) → n = none) ∧
             (∀ k d, member c.survey c.index k d → c.seq < d.seq →
               (∀ j e, member c.survey c.index j e → c.seq < e.seq → d.seq ≤ e.seq) → n = some k)))) ∧
       u.media.free = (List.range s.media.segs.length).filter (fun h => (u.media.segs[h]?).any (fun x => x.state == .free)) ∧
       u.media.ready = [] ∧
       ∃ link : Survey → Survey, u.table = { s.table with surveys := s.table.surveys.map link } ∧
         (∀ v, link v = { v with
            heads := (link v).heads
            tails := (link v).tails
            streamCount := (List.range 8).countP (fun i => ((link v).headOf i).isSome) } ∧
          ∀ i, i < 8 →
            ((∀ h c, ¬ member v.number i h c) → (link v).headOf i = none ∧ (link v).tailOf i = none) ∧
            (∀ h c, member v.number i h c →
              ((∀ k d, member v.number i k d → c.seq ≤ d.seq) → (link v).headOf i = some h) ∧
              ((∀ k d, member v.number i k d → d.seq ≤ c.seq) → (link v).tailOf i = some h))) ∧
         (let chains := u.table.surveys.flatMap (fun v =>
            (List.range 8).filterMap (fun i => if (v.headOf i).isSome then some (v.number, i) else none))
          (chains = [] → u.power = { s.power with phase := .ready } ∧ u.mount = .done) ∧
          (chains ≠ [] → u = { idle with
            media := { idle.media with segs := u.media.segs, free := u.media.free, ready := [] }
            table := u.table
            power := { s.power with phase := .writePoints }
            mount := .chains chains (.writePoint 1 255 false []) [] }))))

/-- The reply of the command in the Operation Slot: it takes the kept place at the tail of the Transmit List, or none where it is
suppressed, and the slot becomes empty. Nothing else changes. -/
def Obligations.SlotReply : Prop :=
  ∀ (s : State) (c : OpSlot) (st : Status) (p : Payload), s.slot = some c →
    (c.suppressed = true → s.completeOp st p = { s with slot := none }) ∧
    (c.suppressed = false → s.completeOp st p = { s with
      slot := none
      port := { s.port with tx := s.port.tx ++ [.reply
        { port := c.port, tag := c.tag, level := c.level, status := st, kept := true, payload := p }] } })

/-! ### Streams -/

/-- Checks 1 to 3 of R2, for the stream commands other than STREAM-LOAD and STREAM-READ: a slot number above 15 is PARAM, an EMPTY
slot is STATE, a level above the slot's owner level is LEVEL, in this order; nothing else changes. -/
def Obligations.StreamChecks : Prop :=
  ∀ (o : Opcode) (s : State) (f : Frame), s.Takes o f →
    o = .streamStart ∨ o = .streamPause ∨ o = .streamStop ∨ o = .streamClear →
    let i := leVal (f.payload.take 1)
    let refused (st : Status) : Host.Outcome State Fault Refusal :=
      .next (State.freeHead { s with port := { s.port with tx := s.port.tx ++ [.reply
        { port := f.port, tag := f.tag, level := s.effective f, status := st, kept := false, payload := .none }] } }).holdIdle
    (15 < i → exec o.row s = refused .param) ∧
    (i ≤ 15 → (s.slotAt i).state = .empty → exec o.row s = refused .state) ∧
    (∀ d, i ≤ 15 → (s.slotAt i).state ≠ .empty → (s.slotAt i).desc = some d → d.ownerLevel < s.effective f →
      exec o.row s = refused .level)

/-- STREAM-START of a slot that checks 1 to 3 let pass: STATE for a slot that is RUNNING or STOPPED or being stopped; then FULL while
media-full is set or the level is RESERVE or CRITICAL; otherwise the slot runs, from PAUSED with a RESUME marker and no expected
sequence, and the reply is OK. No other slot changes, and nothing beyond the slot and the reply where no DOZE entry is in progress.
Where a DOZE entry is abandoned, its reply comes first (log 34). -/
def Obligations.StreamStart : Prop :=
  ∀ (s : State) (f : Frame) (d : Descriptor), s.Takes .streamStart f →
    let i := leVal (f.payload.take 1)
    let x := s.slotAt i
    i ≤ 15 → i < s.slots.length → x.state ≠ .empty → x.desc = some d → s.effective f ≤ d.ownerLevel →
    ((x.stopping = true ∨ x.state = .running ∨ x.state = .stopped) →
      exec .streamStart s = .next ((s.refuse .streamStart f (s.effective f) .state).freeHead).holdIdle) ∧
    (x.stopping = false → (x.state = .loaded ∨ x.state = .paused) →
      ((s.media.mediaFull = true ∨ s.gauge.level = .reserve ∨ s.gauge.level = .critical) →
        exec .streamStart s = .next ((s.refuse .streamStart f (s.effective f) .full).freeHead).holdIdle) ∧
      (s.media.mediaFull = false → (s.gauge.level = .normal ∨ s.gauge.level = .low) →
        ∃ y : Slot,
          (x.state = .loaded → y = { x with state := .running }) ∧
          (x.state = .paused → y = { x with
            state := .running
            reason := none
            expected := none
            markers := { x.markers with resume := some (x.markers.resume.getD
              { stamp := s.stamp, index := x.outputIndex, afterPower := x.markers.power.isSome }) } }) ∧
          ((∀ c, s.power.procedure ≠ .dozeEntry c) →
            exec .streamStart s = .next (State.freeHead { s with
              slots := s.slots.set i y
              port := { s.port with tx := s.port.tx ++ [.reply
                { port := f.port, tag := f.tag, level := s.effective f, status := .ok, kept := false, payload := .none }] } }).holdIdle) ∧
          (∀ c, s.power.procedure = .dozeEntry c →
            exec .streamStart s = .next ((((State.abandonDoze { s with slots := s.slots.set i y }).answer f (s.effective f)
              .none).freeHead).holdIdle))))

/-- STREAM-PAUSE of a slot that checks 1 to 3 let pass: STATE unless it is RUNNING; otherwise the open record's bytes join its fill
page, the partial sum is discarded, a PAUSE marker with reason COMMAND is added (a pending RESUME leaves, a pending PAUSE keeps its
reason), the slot is PAUSED(COMMAND), its expected sequence is kept, and the reply is OK. No other slot and no other buffer
changes. -/
def Obligations.StreamPause : Prop :=
  ∀ (s : State) (f : Frame) (d : Descriptor), s.Takes .streamPause f →
    let i := leVal (f.payload.take 1)
    let x := s.slotAt i
    i ≤ 15 → i < s.slots.length → x.state ≠ .empty → x.desc = some d → s.effective f ≤ d.ownerLevel →
    (x.state ≠ .running →
      exec .streamPause s = .next ((s.refuse .streamPause f (s.effective f) .state).freeHead).holdIdle) ∧
    (x.state = .running → x.stopping = false → (x.openRec.isSome = true → x.page.isSome = true) →
      ∃ u : State, exec .streamPause s = .next ((u.answer f (s.effective f) .none).freeHead).holdIdle ∧
        u = { s with slots := s.slots.set i (u.slotAt i), pool := { s.pool with buffers := u.pool.buffers } } ∧
        u.slotAt i = { x with
          openRec := none
          acc := 0
          fill := 0
          markers := { x.markers with
            resume := none
            pause := some (x.markers.pause.getD { stamp := s.stamp, index := x.outputIndex, reason := .command }) }
          state := .paused
          reason := some .command } ∧
        (x.openRec = none → u.pool.buffers = s.pool.buffers) ∧
        (∀ r p, x.openRec = some r → x.page = some p →
          u.pool.buffers = s.pool.buffers.modify p.buffer (fun b => { b with bytes := b.bytes ++ r.bytes d })))

/-- STREAM-STOP of a slot that checks 1 to 3 let pass: STATE for a STOPPED slot or one whose stop mark is set; otherwise the command
occupies the Operation Slot and, in one event, the open record's bytes join the fill page, the partial sum is discarded, the STOP
marker is added, the slot is PAUSED, with reason COMMAND if it was not PAUSED already, and its stop mark is set; the close it
requests and the arbiter's choice follow. A requested close, for a stream without an open record: with room in its fill page the
pending markers are written and the page goes to the tail of the Commit Queue, its retire count 0 (log 48); with no page and no
marker nothing changes; with markers, no page and no FREE buffer the stream joins the wait list, once.
STOP_COMPLETE, where it is the next due step, on the lowest-numbered slot (log 9) whose STOP marker is written, whose page is pushed and
of which no queue entry is left: it becomes STOPPED with its stop mark, pause reason, expected sequence, open record and markers
cleared, its other fields and every other slot kept; its ACTIVE tail segment becomes FULL; the STREAM-STOP in the Operation Slot
answers OK, and a slot stopped by a survey's close answers nothing. -/
def Obligations.StreamStop : Prop :=
  (∀ (s : State) (f : Frame) (d : Descriptor), s.Takes .streamStop f →
    let i := leVal (f.payload.take 1)
    let x := s.slotAt i
    i ≤ 15 → i < s.slots.length → x.state ≠ .empty → x.desc = some d → s.effective f ≤ d.ownerLevel →
    ((x.state = .stopped ∨ x.stopping = true) →
      exec .streamStop s = .next ((s.refuse .streamStop f (s.effective f) .state).freeHead).holdIdle) ∧
    (x.state ≠ .stopped → x.stopping = false → (x.openRec.isSome = true → x.page.isSome = true) →
      ∃ u : State, exec .streamStop s = .next ((((u.requestClose i).arbitrate).freeHead).holdIdle) ∧
        u = { s with
          slot := some { opcode := .streamStop, port := f.port, tag := f.tag, level := s.effective f, suppressed := false,
                         request := .streamStop i }
          slots := s.slots.set i { x with
            openRec := none
            acc := 0
            fill := 0
            markers := { x.markers with stop := some { stamp := s.stamp, index := x.outputIndex } }
            state := .paused
            reason := if x.state = .paused then x.reason else some .command
            stopping := true }
          pool := { s.pool with buffers := u.pool.buffers } } ∧
        (x.openRec = none → u.pool.buffers = s.pool.buffers) ∧
        (∀ r p, x.openRec = some r → x.page = some p →
          u.pool.buffers = s.pool.buffers.modify p.buffer (fun b => { b with bytes := b.bytes ++ r.bytes d })))) ∧
  (∀ (s : State) (i : Nat) (d : Descriptor), i < s.slots.length →
    let x := s.slotAt i
    let n := x.markers.order.length
    x.desc = some d → x.openRec = none →
    (∀ p, x.page = some p → p.buffer < s.pool.buffers.length → (s.bufferBytes p.buffer).length + 20 * n ≤ 4096 →
      ∃ e : Entry, (s.requestClose i).queue = s.queue ++ [e] ∧
        e = { buffer := p.buffer, slot := i, survey := d.survey, index := d.index, firstSeq := e.firstSeq, count := p.count + n,
              used := e.used, target := none, state := .waiting, rewrite := false, failures := 0, retire := 0 } ∧
        (p.count ≠ 0 ∨ n = 0 → e.firstSeq = p.firstSeq) ∧ (p.count = 0 → n ≠ 0 → e.firstSeq = x.nextSeq) ∧
        ((s.requestClose i).slotAt i).page = none ∧ ((s.requestClose i).slotAt i).markers.order = [] ∧
        ((s.requestClose i).pool.buffers.getD p.buffer {}).state = .queued) ∧
    (x.page = none → n = 0 → s.requestClose i = s) ∧
    (x.page = none → n ≠ 0 → s.freeBuffer = none → s.requestClose i =
      (if i ∈ s.pool.streamWaiters then s
       else { s with pool := { s.pool with streamWaiters := s.pool.streamWaiters ++ [i] } }))) ∧
  (∀ (s : State) (i : Nat), s.due = some .stopComplete →
    let ends (j : Nat) : Prop := (s.slotAt j).stopping = true ∧ (s.slotAt j).markers.stop = none ∧ (s.slotAt j).page = none ∧
      j ∉ s.pool.streamWaiters ∧ ∀ e ∈ s.queue, e.slot ≠ j
    i < s.slots.length → ends i → (∀ j, j < i → ¬ ends j) →
    ∃ u : State, exec .stopComplete s = .next (u.replyStop i).holdIdle ∧
      u = { s with slots := s.slots.modify i (fun x =>
              { x with state := .stopped, stopping := false, reason := none, expected := none, openRec := none, markers := {} }),
                   media := { s.media with segs := u.media.segs } } ∧
      (∀ d, (s.slotAt i).desc = some d →
        (s.tailOf d.survey d.index = none → u.media.segs = s.media.segs) ∧
        ∀ g, s.tailOf d.survey d.index = some g →
          (∀ h, h ≠ g → u.media.segs[h]? = s.media.segs[h]?) ∧
          ∀ y, s.media.segs[g]? = some y →
            u.media.segs[g]? = some { y with state := if y.state = .active then .full else y.state }) ∧
      ((∀ c, s.slot = some c → c.request ≠ .streamStop i) → (u.replyStop i) = u) ∧
      (∀ c, s.slot = some c → c.request = .streamStop i → (u.replyStop i) = { u with
        slot := none
        port := if c.suppressed = true then s.port else { s.port with tx := s.port.tx ++ [.reply
          { port := c.port, tag := c.tag, level := c.level, status := .ok, kept := true, payload := .none }] } }))

/-- STREAM-CLEAR of a slot that checks 1 to 3 let pass: STATE unless it is STOPPED with its loading mark clear; otherwise every field
of the slot becomes absent or zero, media-full is tested for clearing, and the reply is OK. By the test, a set media-full clears
where the unused segments outnumber the live streams, and a MEDIA notice says so with both numbers; that it joins the Transmit List
before the reply is the model's choice (log 54). -/
def Obligations.StreamClear : Prop :=
  (∀ s : State,
    (s.media.mediaFull = true → s.liveCount < s.unused →
      s.testMediaAvailable = State.raise { s with media := { s.media with mediaFull := false } }
        (.media (.mediaAvailable s.unused s.liveCount))) ∧
    (s.media.mediaFull = false ∨ s.unused ≤ s.liveCount → s.testMediaAvailable = s)) ∧
  ∀ (s : State) (f : Frame) (d : Descriptor), s.Takes .streamClear f →
    let i := leVal (f.payload.take 1)
    let x := s.slotAt i
    i ≤ 15 → i < s.slots.length → x.state ≠ .empty → x.desc = some d → s.effective f ≤ d.ownerLevel →
    ((x.state ≠ .stopped ∨ x.loading = true) →
      exec .streamClear s = .next ((s.refuse .streamClear f (s.effective f) .state).freeHead).holdIdle) ∧
    (x.state = .stopped → x.loading = false →
      exec .streamClear s = .next ((((State.testMediaAvailable { s with slots := s.slots.set i {} }).answer f (s.effective f)
        .none).freeHead).holdIdle))

/-- STREAM-LOAD and its nine checks, in their order, with the status of each: 1 field ranges PARAM (the survey number is not among them,
log 30); on a drive found unformatted STATE (the order of this check is the model's, log 13); 2 slot state and loading mark STATE;
3 the owner level of a STOPPED slot LEVEL; 4 the survey's entry NO-SUCH; 5 its state STATE; 6 its creator level LEVEL; 7 its stream
count FULL; 8 its stream index STATE; 9 media-full and the segments left FULL. A load that passes them occupies the Operation Slot,
sets the loading mark, and takes its segment in the same event: where the Ready List is not empty, its first segment becomes TAKEN
for the load's header program. (A STOPPED slot carries its descriptor.) -/
def Obligations.StreamLoad : Prop :=
  (∀ (s : State) (f : Frame), s.Takes .streamLoad f →
    let b (off len : Nat) : Nat := leVal ((f.payload.drop off).take len)
    let z (off len : Nat) : Int :=
      if b off len < 2 ^ (8 * len - 1) then (b off len : Int) else (b off len : Int) - (2 ^ (8 * len) : Nat)
    let i := b 0 1
    let level := s.effective f
    let x := s.slotAt i
    let inRange : Prop := i ≤ 15 ∧ (b 7 1 ≤ 3 ∨ b 7 1 = 255) ∧ b 6 1 ≤ 7 ∧ 8 ≤ b 18 2 ∧ b 18 2 ≤ 256 ∧
      b 13 1 ∈ [1, 2, 4, 8, 16, 32, 64] ∧ b 14 1 ≤ 24 ∧ b 15 1 ≤ 2 ∧ (b 24 1 = 0x10 ∨ b 24 1 = 0x20) ∧ b 25 1 ≤ 3 ∧
      (b 25 1 = 0 ∨ z 28 4 ≤ z 32 4)
    let refused (st : Status) : Prop := exec .streamLoad s = .next ((s.refuse .streamLoad f level st).freeHead).holdIdle
    let unused := s.media.ready.length + s.media.free.length + (match s.media.op with | some (.aheadErase _) => 1 | _ => 0)
    (¬ inRange → refused .param) ∧
    (inRange → ∃ d : Descriptor,
      (d.survey = b 4 2 ∧ d.index = b 6 1 ∧ d.sourcePort = (if b 7 1 = 255 then none else some (b 7 1)) ∧ d.tag = b 8 2 ∧
        d.mask = b 10 2 ∧ d.ownerLevel = level ∧ d.decimation = b 13 1 ∧ d.shift = b 14 1 ∧ d.gain = z 16 2 ∧
        d.recordLength = b 18 2 ∧ d.offset = z 20 4 ∧
        d.rounding = (if b 15 1 = 0 then .floor else if b 15 1 = 1 then .halfUp else .halfEven) ∧
        d.width = (if b 24 1 = 0x10 then .w16 else .w32) ∧
        d.mode = (if b 25 1 = 0 then .off else if b 25 1 = 1 then .mark else if b 25 1 = 2 then .keepInside else .keepOutside) ∧
        d.low = (if b 25 1 = 0 then 0 else z 28 4) ∧ d.high = (if b 25 1 = 0 then 0 else z 32 4) ∧ d.stored = none) ∧
      (s.power.unformatted = true → refused .state) ∧
      (s.power.unformatted = false →
        ((x.state ≠ .empty ∧ x.state ≠ .stopped) ∨ x.loading = true → refused .state) ∧
        (x.state = .empty ∨ x.state = .stopped → x.loading = false →
          (∀ o, x.state = .stopped → x.desc = some o → o.ownerLevel < level → refused .level) ∧
          ((x.state = .stopped → ∃ o, x.desc = some o ∧ level ≤ o.ownerLevel) →
            (s.confirmedSurvey d.survey = none → refused .noSuch) ∧
            ∀ v, s.confirmedSurvey d.survey = some v →
              (v.state ≠ .open → refused .state) ∧
              (v.state = .open → v.creator < level → refused .level) ∧
              (v.state = .open → level ≤ v.creator → 8 ≤ v.streamCount → refused .full) ∧
              (v.state = .open → level ≤ v.creator → v.streamCount < 8 → v.headOf d.index ≠ none → refused .state) ∧
              (v.state = .open → level ≤ v.creator → v.streamCount < 8 → v.headOf d.index = none →
                (s.media.mediaFull = true ∨ unused - 1 ≤ s.liveCount + 1 → refused .full) ∧
                (s.media.mediaFull = false → s.liveCount + 1 < unused - 1 →
                  exec .streamLoad s = .next (((State.makeTake { s with
                    slot := some { opcode := .streamLoad, port := f.port, tag := f.tag, level := level, suppressed := false,
                                   request := .streamLoad i d }
                    slots := s.slots.modify i (fun y => { y with loading := true }) }
                    { load := true, slot := i, survey := d.survey, index := d.index, firstSeq := 0, phase := .remake,
                      headerFails := 0 }).arbitrate).freeHead).holdIdle))))))) ∧
  (∀ (s : State) (t : Take) (g : Nat) (rest : List Nat), s.media.ready = g :: rest → t.load = true →
    (∀ u ∈ s.media.takes, ¬ (u.load = true ∧ u.slot = t.slot)) →
    s.makeTake t = State.testMediaFull { s with media := { s.media with
      ready := rest
      segs := s.media.segs.modify g (fun y => { y with state := .taken })
      takes := s.media.takes ++ [{ t with phase := .header g }] } } true)

/-! ### The Drop Monitor -/

/-- The Drop Monitor: a scan in WATCH, FALL-WAIT, FALLING, IMPACT, SETTLING and VERIFY (R132 to R136, R139); the judgement of VERIFY
(R138); the finish of a drop (R141), whose notice carries number 0 for a drop that has none yet (log 49); and a drop's declaration with
its seven steps (R137), the order of internal steps within them being the model's (log 1). The raised park flag abandons an erase in flight
(R72): the port is idle and the segment's pages are disturbed (free values, log 3); the segment of an erase-ahead or a take returns FREE
to the head of the Free List, the takes that waited on it are to be made again, in their places (log 63), and waiting streams are offered
takes (`GrantAndRetire` says how); an index segment's erase and FORMAT's are left to be asked for again, and a data segment under FORMAT's
is FREE and on no list (log 21). The start is given in OFF too (log 22). A scan is credited by the power state at its delivery (log 31),
the scan that finishes a drop counts for its lowest hold-up (log 16), a FALL drop holds fall time 0 until R134 sets it (log 56), stored
counts per g of 0 give 0 tenths of g (log 45), and at the lowering of the park flag the takes left by an abandoned erase are made again in
the order in which they began (log 9), each with the first record sequence it began with (log 58). After every scan the gauge takes VHOLD,
the next scan starts, and the arbiter chooses. -/
def Obligations.DropMonitor : Prop :=
  (∀ (s : State) (ax ay az vhold : Code), s.Settled → s.sampler.running = some .shock →
    let v := s.monitor.shock
    let d : Int × Int × Int := ((ax.toNat : Int) - v.zeroX, (ay.toNat : Int) - v.zeroY, (az.toNat : Int) - v.zeroZ)
    let big := max d.1.natAbs (max d.2.1.natAbs d.2.2.natAbs)
    let impact := v.impactLevel ≤ big
    let free := ¬ impact ∧ big ≤ v.ffWindow
    let held := ¬ impact ∧ ¬ big ≤ v.ffWindow
    let quiet := held ∧ ∃ q, s.monitor.previous = some q ∧ (d.1 - q.1).natAbs ≤ v.quietDelta ∧ (d.2.1 - q.2.1).natAbs ≤ v.quietDelta ∧
      (d.2.2 - q.2.2).natAbs ≤ v.quietDelta
    let rail := (ax.toNat = 0 ∨ ax.toNat = 4095) ∨ (ay.toNat = 0 ∨ ay.toNat = 4095) ∨ az.toNat = 0 ∨ az.toNat = 4095
    let credit := if s.power.state = .doze then 4 else 1
    let mv := vhold.toNat * 4
    let m : Monitor := { s.monitor with drop := s.monitor.drop.map (fun r => { r with lowestHoldUp := min r.lowestHoldUp mv }) }
    let base : State := { s with
      sampler := s.sampler.latch 0 [ax.toNat, ay.toNat, az.toNat, vhold.toNat]
      monitor := m }
    let clock := min 65535 (m.fallClock + credit)
    let fell (time : Nat) (kind : DropKind) : Option DropRecord := m.drop.map (fun r => { r with fallTime := time, kind := kind })
    let ends (x : State) : Prop := exec (.shockScanEnd ax ay az vhold) s = .next ((((((State.gaugeShock { x with
      monitor := { x.monitor with previous := some d } } mv).nextScan).formatGate).arbitrate)).holdIdle)
    let settling (x : State) : Prop :=
      (quiet → v.settleTime ≤ min 65535 (x.monitor.settle + credit) → ends (State.judgeVerify { x with
        monitor := { x.monitor with settle := min 65535 (x.monitor.settle + credit), state := .verify } })) ∧
      (quiet → min 65535 (x.monitor.settle + credit) < v.settleTime → ends { x with
        monitor := { x.monitor with settle := min 65535 (x.monitor.settle + credit) } }) ∧
      (¬ quiet → 1 ≤ v.settleTime → ends { x with monitor := { x.monitor with settle := 0 } })
    let struck (x : State) : Prop := ∃ r' : Option DropRecord,
      (rail → r' = x.monitor.drop.map (fun r => { r with peak := max r.peak big, rail := true })) ∧
      (¬ rail → r' = x.monitor.drop.map (fun r => { r with peak := max r.peak big })) ∧
      settling { x with monitor := { x.monitor with drop := r' } }
    let unresolved := s.queue.countP (fun e => e.state == .suspect || e.state == .verifying)
    let declared (x : State) : Prop := let y := x.declareDrop .impact s.stamp mv
      struck { y with monitor := { y.monitor with state := .impact, settle := 0 } }
    (s.monitor.state = .watch →
      (impact → declared base) ∧
      (free → ends { base with monitor := { m with state := .fallWait, fallStart := s.stamp, fallClock := 0 } }) ∧
      (held → ends base)) ∧
    (s.monitor.state = .fallWait →
      (impact → declared { base with monitor := { m with fallClock := clock } }) ∧
      (free → v.ffTime ≤ clock → let y := State.declareDrop { base with monitor := { m with fallClock := clock } } .fall m.fallStart mv
        ends { y with monitor := { y.monitor with state := .falling, catchMark := none } }) ∧
      (free → clock < v.ffTime → ends { base with monitor := { m with fallClock := clock } }) ∧
      (held → m.park = false → ends { base with monitor := { m with fallClock := 0, state := .watch, watchCount := 0 } }) ∧
      (held → m.park = true → ends (State.judgeVerify { base with monitor := { m with fallClock := 0, state := .verify } }))) ∧
    (s.monitor.state = .falling →
      (impact → struck { base with monitor := { m with
        fallClock := clock, drop := fell (min clock 2048) .fallImpact, state := .impact, settle := 0 } }) ∧
      (held → let mark := m.catchMark.getD clock
        (v.catchTime ≤ clock - mark → ends { base with monitor := { m with
          fallClock := clock, catchMark := some mark, drop := fell (min mark 2048) .fallCaught, state := .settling, settle := 0 } }) ∧
        (clock - mark < v.catchTime → clock < 2048 → ends { base with monitor := { m with
          fallClock := clock, catchMark := some mark } }) ∧
        (clock - mark < v.catchTime → 2048 ≤ clock → ends { base with monitor := { m with
          fallClock := clock, catchMark := some mark, drop := fell 2048 .fallImpact, state := .impact, settle := 0 } })) ∧
      (free → clock < 2048 → ends { base with monitor := { m with fallClock := clock, catchMark := none } }) ∧
      (free → 2048 ≤ clock → ends { base with monitor := { m with
        fallClock := clock, catchMark := none, drop := fell 2048 .fallImpact, state := .impact, settle := 0 } })) ∧
    (s.monitor.state = .impact → struck base) ∧
    (s.monitor.state = .settling →
      (impact → struck { base with monitor := { m with state := .impact, settle := 0 } }) ∧
      (¬ impact → settling base)) ∧
    (s.monitor.state = .verify →
      (held → ends base) ∧
      (impact → declared (base.finishDrop unresolved)) ∧
      (free → let y := base.finishDrop unresolved
        ends { y with monitor := { y.monitor with state := .fallWait, fallStart := s.stamp, fallClock := 0 } }))) ∧
  (∀ s : State,
    ((s.monitor.state ≠ .verify ∨ ∃ e ∈ s.queue, e.state = .suspect ∨ e.state = .verifying ∨ e.state = .programming) →
      s.judgeVerify = s) ∧
    (s.monitor.state = .verify → (∀ e ∈ s.queue, e.state = .waiting ∨ e.state = .held) →
      let y := s.finishDrop 0
      s.judgeVerify = State.remakeTakes { y with monitor := { y.monitor with state := .watch, park := false, watchCount := 0 } }
        (y.media.takes.filter (fun t => t.phase == .remake)))) ∧
  (∀ (s : State) (n : Nat),
    (s.monitor.drop = none → s.finishDrop n = s) ∧
    (∀ r, s.monitor.drop = some r →
      let r' : DropRecord := { r with
        height := r.fallTime * r.fallTime * 4903 / 1048576
        peakTenths := r.peak * 10 / s.monitor.shock.countsPerG
        pages := { r.pages with unresolved := min 255 n } }
      let l := s.monitor.drops ++ [r']
      s.finishDrop n = State.raise (State.requestEntry { s with
        monitor := if s.monitor.loaded = true then { s.monitor with drop := none, drops := l.drop (l.length - 16) }
          else { s.monitor with drop := none, unnumbered := s.monitor.unnumbered ++ [r'] } } (.drop r'))
        (.dropFinished r'.number r'.kind r'.height r'.peakTenths r'.pages.bad r'.pages.unresolved))) ∧
  (∀ (s : State) (kind : DropKind) (start : Stamp) (holdUp : Nat),
    let number := if s.monitor.loaded = true then min 4294967295 (s.monitor.total + 1) else 0
    let counts (slots : List Slot) (v : Survey) : Bool := (v.state == .open || v.state == .closing) && slots.any (fun x =>
      (x.state == .loaded || x.state == .running || x.state == .paused) && (match x.desc with | some d => d.survey == v.number | none => false))
    let suspects (v : Survey) : Bool := s.queue.any (fun e => e.state == .held && e.survey == v.number)
    let parked : State := { s with
      monitor := { s.monitor with
        park := true
        total := if s.monitor.loaded = true then number else s.monitor.total
        ordinals := if s.monitor.loaded = true then s.monitor.ordinals else s.monitor.ordinals + 1
        drop := some
          { number := number, ordinal := if s.monitor.loaded = true then 0 else s.monitor.ordinals + 1, kind := kind, start := start,
            fallTime := 0, height := 0, peak := 0, peakTenths := 0, rail := false, packLost := s.gauge.packLost,
            lowestHoldUp := holdUp, power := s.power.state.detected,
            pages := { suspect := min 255 (s.queue.countP (fun e => e.state == .held)),
                       carried := min 255 (s.queue.countP (fun e => e.state == .suspect || e.state == .verifying)) }
            surveys := ((s.table.surveys.filter (counts s.slots)).map Survey.number).take 16 } }
      queue := s.queue.map (fun e => if e.state = .held then { e with state := .suspect } else e)
      table := { s.table with surveys := s.table.surveys.map (fun v => { v with hadSuspect := v.hadSuspect || suspects v }) } }
    let u : State := if s.monitor.park = true then parked else parked.abandonErase
    s.declareDrop kind start holdUp = State.raise { u with
      slots := u.slots.map (fun x =>
        if x.state = .running ∨ x.state = .paused then { x.raiseDrop s.stamp number kind with acc := 0, fill := 0 } else x)
      table := { s.table with surveys := s.table.surveys.map (fun v =>
        let w : Survey := { v with hadSuspect := v.hadSuspect || suspects v }
        if counts u.slots v then { w with dropCount := min 65535 (v.dropCount + 1), lastDrop := number } else w) }
      power := { s.power with procedure :=
        if s.power.state = .doze ∧ s.power.procedure = .none then .wakeWait else s.power.procedure } }
      (.dropDeclared number kind start s.power.state)) ∧
  (∀ s : State,
    let ended (g : Nat) : State := { s with
      media := { s.media with op := none, flash := Flash.disturbSegment s.media.flash g s.freeCount }
      freeCount := s.freeCount + 256 }
    let freed (g : Nat) : List Segment := s.media.segs.modify g (fun x => { x with state := .free })
    (∀ g, s.media.op = some (.aheadErase g) ∨ s.media.op = some (.takeErase g) →
      s.abandonErase = State.offerAll { ended g with media := { (ended g).media with
        segs := freed g
        free := g :: s.media.free
        takes := s.media.takes.map (fun t => if t.phase = .onAhead ∨ t.phase = .erase g then { t with phase := .remake } else t) } }) ∧
    (∀ g, s.media.op = some (.formatErase g) → (g < 4 → s.abandonErase = ended g) ∧
      (4 ≤ g → s.abandonErase = { ended g with media := { (ended g).media with segs := freed g } })) ∧
    (∀ g, s.media.op = some (.indexErase g) → s.abandonErase = ended g) ∧
    ((∀ g, s.media.op ≠ some (.aheadErase g) ∧ s.media.op ≠ some (.takeErase g) ∧ s.media.op ≠ some (.formatErase g) ∧
      s.media.op ≠ some (.indexErase g)) → s.abandonErase = s))

/-! ### Sample frames and conditioning -/

/-- SAMPLE_FRAME, a frame that is discarded: during mount or matching no slot it counts as unmatched; matched by a PAUSED slot it
counts as lost(PAUSED); judged stale (128 to 255 ahead of the expected sequence, modulo 256) it counts as stale. Its receive slot is
freed, and nothing else changes but for the arbiter's choice. -/
def Obligations.SampleDiscarded : Prop :=
  ∀ (s : State) (f : Frame), s.Settled → s.headSample = some f → s.power.state ≠ .off →
    ((s.power.phase ≠ .ready ∨ s.matchSlot f = none) →
      exec .sampleFrame s = .next ((State.judgeHold { s with port := { s.port with
        rx := s.port.rx.tail
        counts := { s.port.counts with unmatched := min 4294967295 (s.port.counts.unmatched + 1) } } }).arbitrate).holdIdle) ∧
    (∀ i, s.power.phase = .ready → s.matchSlot f = some i → (s.slotAt i).state = .paused →
      exec .sampleFrame s = .next ((State.judgeHold { s with
        port := { s.port with rx := s.port.rx.tail }
        slots := s.slots.modify i (fun x => { x with counters := { x.counters with
          lostPaused := min 4294967295 (x.counters.lostPaused + 1) } }) }).arbitrate).holdIdle) ∧
    (∀ i e, s.power.phase = .ready → s.matchSlot f = some i → (s.slotAt i).state = .running → (s.slotAt i).expected = some e →
      128 ≤ (f.code + 256 - e) % 256 →
      exec .sampleFrame s = .next ((State.judgeHold { s with
        port := { s.port with rx := s.port.rx.tail }
        slots := s.slots.modify i (fun x => { x with counters := { x.counters with
          stale := min 4294967295 (x.counters.stale + 1) } }) }).arbitrate).holdIdle)

/-- SAMPLE_FRAME, a frame of a RUNNING slot that goes to admission: whether it is admitted or lost, the expected sequence becomes the
frame's plus 1 modulo 256; a gap of 1 to 127 counts one gap event; an admitted frame counts one frame taken, a lost one counts under the
reason of its loss, and no other of these counts rises. The clock, the gauge, the sampler, the monitor and the survey table stay as they
are. An admitted frame's samples go through the accumulator in turn: an output outside the window closes the open record, a kept one is
placed. Placing: pending markers are written first; then the value joins the open record while it fits the page, and the record closes at
R samples; a page without room joins the Commit Queue, padded, and the sample opens a record at the head of a new page; with no page and
no FREE buffer it has no place, which raises LOSS(POOL), and the rest of the frame is lost under it. A frame lost at admission raises LOSS
under its reason; a new LOSS marker raises the STREAM notice, one that adds to a pending one does not, and a slot whose STOP was written
takes none. (`Conditioning` says what the accumulator does, `MarkerOrder` how markers are written.) A page joins the queue with retire
count 0 (log 48), and a record closes by the stored R, whatever its range (log 45). -/
def Obligations.SampleToAdmission : Prop :=
  (∀ (s : State) (f : Frame) (i : Nat) (d : Descriptor), s.Settled → s.headSample = some f → s.power.state ≠ .off →
    s.power.phase = .ready → s.matchSlot f = some i → (s.slotAt i).state = .running → (s.slotAt i).desc = some d →
    (∀ e, (s.slotAt i).expected = some e → (f.code + 256 - e) % 256 ≤ 127) →
    let c := (s.slotAt i).counters
    let gap := ∃ e, (s.slotAt i).expected = some e ∧ (f.code + 256 - e) % 256 ≠ 0
    ∃ t, exec .sampleFrame s = .next t ∧
      (t.slotAt i).expected = some ((f.code + 1) % 256) ∧
      (gap → (t.slotAt i).counters.gapEvents = min 4294967295 (c.gapEvents + 1)) ∧
      (¬ gap → (t.slotAt i).counters.gapEvents = c.gapEvents) ∧
      (s.admission i = none →
        (t.slotAt i).counters.taken = min 4294967295 (c.taken + 1) ∧ (t.slotAt i).counters.lostLimit = c.lostLimit ∧
          (t.slotAt i).counters.lostPool = c.lostPool) ∧
      (s.admission i = some .limit →
        (t.slotAt i).counters.taken = c.taken ∧ (t.slotAt i).counters.lostLimit = min 4294967295 (c.lostLimit + 1) ∧
          (t.slotAt i).counters.lostPool = c.lostPool) ∧
      (s.admission i = some .pool →
        (t.slotAt i).counters.taken = c.taken ∧ (t.slotAt i).counters.lostLimit = c.lostLimit ∧
          (t.slotAt i).counters.lostPool = min 4294967295 (c.lostPool + 1)) ∧
      t.port.rx = s.port.rx.tail ∧ t.clock = s.clock ∧ t.gauge = s.gauge ∧ t.sampler = s.sampler ∧ t.monitor = s.monitor ∧
      t.table = s.table ∧ t.media.flash = s.media.flash) ∧
  (∀ (s : State) (f : Frame) (i : Nat) (d : Descriptor) (y : Slot), s.Settled → s.headSample = some f → s.power.state ≠ .off →
    s.power.phase = .ready → s.matchSlot f = some i → (s.slotAt i).state = .running → (s.slotAt i).desc = some d →
    (∀ e, (s.slotAt i).expected = some e → (f.code + 256 - e) % 256 ≤ 127) →
    let x := s.slotAt i
    let ends (u : State) : Prop :=
      exec .sampleFrame s = .next ((State.judgeHold { u with port := { u.port with rx := u.port.rx.tail } }).arbitrate).holdIdle
    ((∀ e, x.expected = some e → (f.code + 256 - e) % 256 = 0) ∧ y = { x with expected := some ((f.code + 1) % 256) } ∨
      (∃ e, x.expected = some e ∧ (f.code + 256 - e) % 256 ≠ 0 ∧ y = { x.raiseGap s.stamp ((f.code + 256 - e) % 256) with
        expected := some ((f.code + 1) % 256)
        acc := 0
        fill := 0
        counters := { x.counters with gapEvents := min 4294967295 (x.counters.gapEvents + 1) } })) →
    (s.admission i = none → ends (State.takeSamples { s with slots := s.slots.set i { y with
      counters := { y.counters with taken := min 4294967295 (y.counters.taken + 1) } } } i d s.stamp f.mark false f.samples)) ∧
    (s.admission i = some .limit → ends (State.loseFrame { s with slots := s.slots.set i { y with
      counters := { y.counters with lostLimit := min 4294967295 (y.counters.lostLimit + 1) } } } i .limit)) ∧
    (s.admission i = some .pool → ends (State.loseFrame { s with slots := s.slots.set i { y with
      counters := { y.counters with lostPool := min 4294967295 (y.counters.lostPool + 1) } } } i .pool))) ∧
  (∀ (f : Frame) (k : Nat), leVal (f.payload.take 1) = 0x10 ∧ k = 2 ∨ leVal (f.payload.take 1) = 0x18 ∧ k = 3 →
    let n := leVal ((f.payload.drop 1).take 1)
    f.mark = (if f.timeMark = true then some ((f.payload.drop 4).take 4) else none) ∧ f.samples.length = n ∧ ∀ j, j < n →
      let v := leVal ((f.payload.drop ((if f.timeMark = true then 8 else 4) + j * k)).take k)
      f.samples[j]? = some (if v < 2 ^ (8 * k - 1) then (v : Int) else (v : Int) - (2 ^ (8 * k) : Nat))) ∧
  (∀ (s : State) (i : Nat) (d : Descriptor) (t : Stamp) (mark : Option (List Byte)) (lost : Bool), i < s.slots.length →
    s.takeSamples i d t mark lost [] = s ∧ ∀ (raw : Int) (rest : List Int),
    let v : State := { s with slots := s.slots.set i ((s.slotAt i).accumulate d raw).1 }
    let whole := s.takeSamples i d t mark lost (raw :: rest)
    (((s.slotAt i).accumulate d raw).2 = none → whole = v.takeSamples i d t mark lost rest) ∧
    (∀ o, ((s.slotAt i).accumulate d raw).2 = some o →
      (o.kept = false → whole = (v.closeOpen i).takeSamples i d t mark lost rest) ∧
      (o.kept = true → lost = true → whole = v.takeSamples i d t mark true rest) ∧
      (o.kept = true → lost = false → ∀ u : State,
        (v.placeSample i d o t mark = (u, true) → whole = u.takeSamples i d t mark false rest) ∧
        (v.placeSample i d o t mark = (u, false) → whole = (u.loseFrame i .pool).takeSamples i d t mark true rest)))) ∧
  (∀ (s : State) (i : Nat) (d : Descriptor) (o : Output) (t : Stamp) (mark : Option (List Byte)),
    i < s.slots.length →
    let x := s.slotAt i
    let size (timeMark : Bool) (n : Nat) : Nat := (20 + (if timeMark then 4 else 0) + n * (match d.width with | .w16 => 2 | .w32 => 4) +
      (if d.mode = .mark then (n + 3) / 4 else 0) + 3) / 4 * 4
    let place := s.placeSample i d o t mark
    let opened (p : FillPage) : List Slot := s.slots.set i { x with
      nextSeq := (x.nextSeq + 1) % 4294967296
      page := some { p with firstSeq := if p.count = 0 then x.nextSeq else p.firstSeq, count := p.count + 1 }
      openRec := some { sequence := x.nextSeq, stamp := t, timeMark := mark, firstIndex := o.index, clipped := o.clipped,
                        values := [o.value], marks := [o.mark] } }
    x.desc = some d →
    (x.markers.order = [] → x.openRec = none →
      (∀ p, x.page = some p → (s.bufferBytes p.buffer).length + size mark.isSome 1 ≤ 4096 → place = ({ s with slots := opened p }, true)) ∧
      (∀ p, x.page = some p → 4096 < (s.bufferBytes p.buffer).length + size mark.isSome 1 → place = (s.pushPage i).placeSample i d o t mark) ∧
      (∀ b, x.page = none → s.freeBuffer = some b → place = ({ s with
        slots := opened { buffer := b, firstSeq := 0, count := 0 }
        pool := { s.pool with buffers := s.pool.buffers.set b { state := .filling, bytes := [] } } }, true)) ∧
      (x.page = none → s.freeBuffer = none → place = (s, false))) ∧
    (∀ r p, x.markers.order = [] → x.openRec = some r → x.page = some p →
      let n := r.values.length + 1
      let longer : OpenRecord := { r with values := r.values ++ [o.value], marks := r.marks ++ [o.mark], clipped := r.clipped || o.clipped }
      ((s.bufferBytes p.buffer).length + size r.timeMark.isSome n ≤ 4096 →
        (n < d.recordLength → place = ({ s with slots := s.slots.set i { x with openRec := some longer } }, true)) ∧
        (d.recordLength ≤ n → place = ({ s with
          slots := s.slots.set i { x with openRec := none }
          pool := { s.pool with buffers := s.pool.buffers.modify p.buffer (fun b => { b with bytes := b.bytes ++ longer.bytes d }) } }, true))) ∧
      (4096 < (s.bufferBytes p.buffer).length + size r.timeMark.isSome n → place = (s.pushPage i).placeSample i d o t mark))) ∧
  (∀ (s u : State) (i : Nat) (d : Descriptor) (o : Output) (t : Stamp) (mark : Option (List Byte)), i < s.slots.length →
    (s.slotAt i).desc = some d → ((s.slotAt i).openRec.isSome = true → (s.slotAt i).page.isSome = true) → (s.slotAt i).markers.order ≠ [] →
    ((s.closeOpen i).writeMarkers i = (u, true) → s.placeSample i d o t mark = u.placeSample i d o t mark) ∧
    ((s.closeOpen i).writeMarkers i = (u, false) → s.placeSample i d o t mark = (u, false))) ∧
  (∀ (s : State) (i : Nat) (d : Descriptor) (p : FillPage), i < s.slots.length → p.buffer < s.pool.buffers.length →
    let x := s.slotAt i
    let bytes := s.bufferBytes p.buffer ++ (match x.openRec with | some r => r.bytes d | none => [])
    x.desc = some d → x.page = some p → s.pushPage i = { s with
      slots := s.slots.set i { x with page := none, openRec := none }
      pool := { s.pool with buffers := s.pool.buffers.set p.buffer { state := .queued, bytes := padOnes 4096 bytes } }
      queue := s.queue ++ [{ buffer := p.buffer, slot := i, survey := d.survey, index := d.index, firstSeq := p.firstSeq, count := p.count,
                             used := bytes.length, target := none, state := .waiting, rewrite := false, failures := 0, retire := 0 }] }) ∧
  (∀ (s : State) (i : Nat) (d : Descriptor), i < s.slots.length → (s.slotAt i).desc = some d →
    ((s.slotAt i).openRec = none → s.closeOpen i = s) ∧
    (∀ r p, (s.slotAt i).openRec = some r → (s.slotAt i).page = some p → s.closeOpen i = { s with
      slots := s.slots.set i { s.slotAt i with openRec := none }
      pool := { s.pool with buffers := s.pool.buffers.modify p.buffer (fun b => { b with bytes := b.bytes ++ r.bytes d }) } })) ∧
  (∀ (s : State) (i : Nat) (r : LossReason), i < s.slots.length →
    let x := s.slotAt i
    let marked (l : LossMarker) : State := { s with slots := s.slots.set i { x with markers := { x.markers with loss := some l } } }
    (x.stopping = true ∧ x.markers.stop = none → s.loseFrame i r = s) ∧
    (¬ (x.stopping = true ∧ x.markers.stop = none) →
      (∀ l, x.markers.loss = some l → s.loseFrame i r = marked { l with count := min 65535 (l.count + 1) }) ∧
      (x.markers.loss = none →
        s.loseFrame i r = (marked { stamp := s.stamp, count := 1, reason := r }).raise (.stream i .running (.loss r)))))

/-- Which slot a frame matches: the lowest-numbered slot that is RUNNING or PAUSED and whose tag and port filters take the frame.
The admission test: admitted exactly when the Commit Queue is below L, media-full is clear and the slot holds a fill page or the
pool a FREE buffer; a failure of the first two is LIMIT, of the third alone POOL. In every state that keeps the limit's invariant, L
is 0 at CRITICAL, so that every frame is then lost for the limit, at most 8 at RESERVE and at most 24 at every level. -/
def Obligations.CaptureTests : Prop :=
  (∀ (s : State) (f : Frame) (i : Nat),
    let fits (j : Nat) : Prop := ∃ d, ((s.slotAt j).state = .running ∨ (s.slotAt j).state = .paused) ∧ (s.slotAt j).desc = some d ∧
      f.tag &&& d.mask = d.tag &&& d.mask ∧ (d.sourcePort = none ∨ d.sourcePort = some f.port)
    (s.matchSlot f = some i ↔ i < s.slots.length ∧ fits i ∧ ∀ j, j < i → ¬ fits j)) ∧
  (∀ (s : State) (i : Nat),
    let below := s.queue.length < s.gauge.limit ∧ s.media.mediaFull = false
    let room := (s.slotAt i).page.isSome = true ∨ ∃ b ∈ s.pool.buffers, b.state = .free
    (s.admission i = none ↔ below ∧ room) ∧ (s.admission i = some .limit ↔ ¬ below) ∧ (s.admission i = some .pool ↔ below ∧ ¬ room)) ∧
  (∀ s : State, s.LimitInv →
      (s.gauge.level = .critical → s.gauge.limit = 0 ∧ ∀ i, s.admission i = some .limit) ∧
      (s.gauge.level = .reserve → s.gauge.limit ≤ 8) ∧ s.gauge.limit ≤ 24)

/-- Rounding, for every total shift T = k + S with D = 2^k: q = p at T = 0, and otherwise the table of R26 on the floor quotient f and
the remainder r, with its examples. -/
def Obligations.Rounding : Prop :=
  (∀ (d : Descriptor) (k : Nat), d.decimation = 2 ^ k → d.totalShift = k + d.shift) ∧
  (∀ (p : List Byte) (level : Nat) (d : Descriptor), loadDescriptor p level = some d → d.totalShift ≤ 30) ∧
  (∀ (mode : Machine.Rounding) (p : Int), roundShift mode 0 p = p) ∧
  (∀ (mode : Machine.Rounding) (t : Nat) (p f r : Int), 1 ≤ t → p = f * 2 ^ t + r → 0 ≤ r → r < 2 ^ t →
    let h : Int := 2 ^ (t - 1)
    (mode = .floor → roundShift mode t p = f) ∧
    (mode ≠ .floor → r < h → roundShift mode t p = f) ∧
    (mode ≠ .floor → h < r → roundShift mode t p = f + 1) ∧
    (mode = .halfUp → r = h → roundShift mode t p = f + 1) ∧
    (mode = .halfEven → r = h → f % 2 = 0 → roundShift mode t p = f) ∧
    (mode = .halfEven → r = h → f % 2 = 1 → roundShift mode t p = f + 1)) ∧
  (roundShift .floor 2 (-9) = -3 ∧ roundShift .halfUp 1 5 = 3 ∧ roundShift .halfUp 1 (-5) = -2 ∧ roundShift .halfEven 1 5 = 2 ∧
    roundShift .halfEven 1 7 = 4 ∧ roundShift .halfEven 1 (-5) = -2 ∧ roundShift .halfEven 1 (-7) = -4)

/-- One raw sample: below D samples it joins the sum; the D-th produces one output sample that takes the output index, which rises
by 1 modulo 2^32, and the sum and fill count return to 0. The output sample: the product is exact, the offset is added, the value is
clamped to the width's range and is clipped exactly when it was changed, the window keeps or gates it, and the mark is the first
line of R29's table that holds. What a stored D outside its seven values does is the model's choice (log 45). -/
def Obligations.Conditioning : Prop :=
  (∀ (x : Slot) (d : Descriptor) (raw : Int),
    (x.fill + 1 < d.decimation → x.accumulate d raw = ({ x with acc := x.acc + raw, fill := x.fill + 1 }, none)) ∧
    (d.decimation ≤ x.fill + 1 → ∃ y o, x.accumulate d raw = (y, some o) ∧ o = conditionGroup d (x.acc + raw) x.outputIndex ∧
      y = { x with acc := 0, fill := 0, outputIndex := (x.outputIndex + 1) % 4294967296, counters := y.counters } ∧
      y.counters = { x.counters with
        samplesClipped := min 4294967295 (x.counters.samplesClipped + (if o.clipped then 1 else 0))
        samplesOut := min 4294967295 (x.counters.samplesOut + (if o.kept then 1 else 0))
        samplesGated := min 4294967295 (x.counters.samplesGated + (if o.kept then 0 else 1)) })) ∧
  ∀ (d : Descriptor) (acc : Int) (index : Nat),
    let v := roundShift d.rounding d.totalShift (acc * d.gain) + d.offset
    let o := conditionGroup d acc index
    o.index = index ∧
    d.width.lowest ≤ o.value ∧ o.value ≤ d.width.highest ∧
    (d.width.lowest ≤ v → v ≤ d.width.highest → o.value = v ∧ o.clipped = false) ∧
    (v < d.width.lowest → o.value = d.width.lowest ∧ o.clipped = true) ∧
    (d.width.highest < v → o.value = d.width.highest ∧ o.clipped = true) ∧
    (d.mode = .off ∨ d.mode = .mark → o.kept = true) ∧
    (d.mode = .keepInside → (o.kept = true ↔ d.low ≤ o.value ∧ o.value ≤ d.high)) ∧
    (d.mode = .keepOutside → (o.kept = true ↔ ¬ (d.low ≤ o.value ∧ o.value ≤ d.high))) ∧
    (o.clipped = true → o.mark = 3) ∧
    (o.clipped = false → o.value < d.low → o.mark = 1) ∧
    (o.clipped = false → d.low ≤ o.value → d.high < o.value → o.mark = 2) ∧
    (o.clipped = false → d.low ≤ o.value → o.value ≤ d.high → o.mark = 0)

/-- The order in which pending markers are written: LOSS, GAP, DROP, PAUSE, RESUME, POWER, STOP, but POWER immediately before RESUME where
both are pending and POWER was raised first. A written marker carries the next record sequence, which rises by 1, so that the markers of
one write (here into a fill page with room for all) stand one after another in that order in consecutive sequences. That a RESUME left
pending after its POWER was written no longer follows a later POWER is the model's reading (log 38). Each marker is written at the end of
the fill page, or, where it has no room, at the head of a new one, the full page joining the Commit Queue; with no FREE buffer the writing
stops and the rest stay pending. A requested close closes the open record, writes every pending marker, then queues the page; a stream
that stops short of a buffer joins the pool's wait list once. -/
def Obligations.MarkerOrder : Prop :=
  (∀ m : Markers,
    let pending (k : MarkerKind) : Bool := match k with
      | .loss => m.loss.isSome
      | .gap => m.gap.isSome
      | .drop => m.drop.isSome
      | .pause => m.pause.isSome
      | .resume => m.resume.isSome
      | .power => m.power.isSome
      | .stop => m.stop.isSome
    ((∀ r, m.resume = some r → m.power.isSome = true → r.afterPower = false) →
      m.order = [MarkerKind.loss, .gap, .drop, .pause, .resume, .power, .stop].filter pending) ∧
    (∀ r, m.resume = some r → m.power.isSome = true → r.afterPower = true →
      m.order = [MarkerKind.loss, .gap, .drop, .pause, .power, .resume, .stop].filter pending)) ∧
  (∀ (x : Slot) (t : Stamp) (r : ResumeMarker), x.markers.resume = none → (x.raiseResume t).markers.resume = some r →
    r.afterPower = x.markers.power.isSome) ∧
  (∀ (x : Slot) (t : Stamp) (r : PowerReason), (x.raisePower t r).markers.resume = x.markers.resume) ∧
  (∀ (m : Markers) (r : ResumeMarker), (m.without .power).resume = some r → r.afterPower = false) ∧
  (∀ (s : State) (d : Descriptor) (x : Slot) (k : MarkerKind), x.markers.order.contains k = true →
    leVal (((s.markerRecord x d k).drop 4).take 4) = x.nextSeq % 4294967296) ∧
  (∀ (s u : State) (i : Nat) (k : MarkerKind), i < s.slots.length → s.writeMarker i k = (u, true) →
    (u.slotAt i).nextSeq = ((s.slotAt i).nextSeq + 1) % 4294967296) ∧
  (∀ (s : State) (i : Nat) (d : Descriptor) (p : FillPage), i < s.slots.length →
    let x := s.slotAt i
    x.desc = some d → x.page = some p → x.openRec = none → p.buffer < s.pool.buffers.length →
    (s.bufferBytes p.buffer).length + 20 * x.markers.order.length ≤ 4096 →
    ∃ u, s.writeMarkers i = (u, true) ∧ (u.slotAt i).markers.order = [] ∧
      u.bufferBytes p.buffer = s.bufferBytes p.buffer ++
        x.markers.order.zipIdx.flatMap (fun e => s.markerRecord { x with nextSeq := x.nextSeq + e.2 } d e.1)) ∧
  (∀ (s u : State) (i : Nat) (k : MarkerKind) (ks : List MarkerKind), i < s.slots.length → (s.slotAt i).openRec = none →
    ((s.slotAt i).markers.order = [] → s.writeMarkers i = (s, true)) ∧
    ((s.slotAt i).markers.order = k :: ks →
      (s.writeMarker i k = (u, false) → s.writeMarkers i = (u, false)) ∧
      (s.writeMarker i k = (u, true) → s.writeMarkers i = u.writeMarkers i ∧ (u.slotAt i).markers = (s.slotAt i).markers.without k ∧
        (u.slotAt i).markers.order = ks))) ∧
  (∀ (s : State) (i : Nat) (d : Descriptor) (k : MarkerKind), i < s.slots.length →
    let x := s.slotAt i
    let write := s.writeMarker i k
    let taken (p : FillPage) : List Slot := s.slots.set i { x with
      nextSeq := (x.nextSeq + 1) % 4294967296
      markers := x.markers.without k
      page := some { p with firstSeq := if p.count = 0 then x.nextSeq else p.firstSeq, count := p.count + 1 } }
    x.desc = some d → x.openRec = none →
    (∀ p, x.page = some p → (s.bufferBytes p.buffer).length + 20 ≤ 4096 → write = ({ s with
      slots := taken p
      pool := { s.pool with buffers := s.pool.buffers.modify p.buffer (fun b => { b with bytes := b.bytes ++ s.markerRecord x d k }) } }, true)) ∧
    (∀ p, x.page = some p → 4096 < (s.bufferBytes p.buffer).length + 20 → write = (s.pushPage i).writeMarker i k) ∧
    (∀ b, x.page = none → s.freeBuffer = some b → write = ({ s with
      slots := taken { buffer := b, firstSeq := 0, count := 0 }
      pool := { s.pool with buffers := s.pool.buffers.set b { state := .filling, bytes := s.markerRecord x d k } } }, true)) ∧
    (x.page = none → s.freeBuffer = none → write = (s, false))) ∧
  (∀ (s u : State) (i : Nat),
    ((s.closeOpen i).writeMarkers i = (u, true) → s.requestClose i = (if (u.slotAt i).page = none then u else u.pushPage i)) ∧
    ((s.closeOpen i).writeMarkers i = (u, false) → s.requestClose i = (if i ∈ u.pool.streamWaiters then u
      else { u with pool := { u.pool with streamWaiters := u.pool.streamWaiters ++ [i] } })))

/-- Raising a marker. Into a pending one of its kind: GAP and LOSS counts add up to 65535, LOSS, PAUSE and POWER keep the first reason,
DROP keeps the first number, RESUME stays as it is, and every merge keeps the first stamp. With none of its kind pending a new
marker takes the stamp, and the output index where its kind carries one. A PAUSE removes a pending RESUME, whether or not a PAUSE is
pending. A slot whose STOP marker has been written, its stop mark set and no STOP pending, takes no marker. -/
def Obligations.MarkersMerge : Prop :=
  ∀ (x : Slot) (t : Stamp),
    (x.takesMarkers = false ↔ x.stopping = true ∧ x.markers.stop = none) ∧
    (x.takesMarkers = false →
      (∀ n, x.raiseGap t n = x) ∧ (∀ r, x.raiseLoss t r = x) ∧ (∀ n k, x.raiseDrop t n k = x) ∧ (∀ r, x.raisePause t r = x) ∧
      x.raiseResume t = x ∧ (∀ r, x.raisePower t r = x)) ∧
    (x.takesMarkers = true →
      (∀ n, x.raiseGap t n = { x with markers := { x.markers with gap := some (match x.markers.gap with
        | some g => { g with count := min 65535 (g.count + n) }
        | none => { stamp := t, index := x.outputIndex, count := n }) } }) ∧
      (∀ r, x.raiseLoss t r = { x with markers := { x.markers with loss := some (match x.markers.loss with
        | some l => { l with count := min 65535 (l.count + 1) }
        | none => { stamp := t, count := 1, reason := r }) } }) ∧
      (∀ n k, x.raiseDrop t n k = { x with markers := { x.markers with drop := some (match x.markers.drop with
        | some m => m
        | none => { stamp := t, number := n, kind := k }) } }) ∧
      (∀ r, x.raisePause t r = { x with markers := { x.markers with resume := none, pause := some (match x.markers.pause with
        | some m => m
        | none => { stamp := t, index := x.outputIndex, reason := r }) } }) ∧
      (x.raiseResume t = { x with markers := { x.markers with resume := some (match x.markers.resume with
        | some m => m
        | none => { stamp := t, index := x.outputIndex, afterPower := x.markers.power.isSome }) } }) ∧
      (∀ r, x.raisePower t r = { x with markers := { x.markers with power := some (match x.markers.power with
        | some m => m
        | none => { stamp := t, index := x.outputIndex, reason := r }) } }))

/-! ### Surveys -/

/-- SURVEY-OPEN: PARAM for a name or threshold out of range; STATE on a drive found unformatted (the order of this check is the
model's, log 13); FULL with 64 entries or the numbers used up; otherwise the command occupies the Operation Slot, the new entry
joins the table unconfirmed with its thresholds clamped to creator level..3, next-survey-number rises, and its entry is requested
from the Index Log. -/
def Obligations.SurveyOpen : Prop :=
  ∀ (s : State) (f : Frame), s.Takes .surveyOpen f →
    let r := leVal (f.payload.take 1)
    let e := leVal ((f.payload.drop 1).take 1)
    let name := f.payload.drop 2
    let level := s.effective f
    let inRange := (1 ≤ name.length ∧ name.length ≤ 16 ∧ ∀ b ∈ name, 32 ≤ b.toNat ∧ b.toNat ≤ 126) ∧ r ≤ 3 ∧ e ≤ 3
    let refused (st : Status) : Host.Outcome State Fault Refusal :=
      .next ((s.refuse .surveyOpen f level st).freeHead).holdIdle
    (¬ inRange → exec .surveyOpen s = refused .param) ∧
    (inRange → s.power.unformatted = true → exec .surveyOpen s = refused .state) ∧
    (inRange → s.power.unformatted = false → (64 ≤ s.table.surveys.length ∨ 65536 ≤ s.table.nextNumber) →
      exec .surveyOpen s = refused .full) ∧
    (inRange → s.power.unformatted = false → s.table.surveys.length < 64 → s.table.nextNumber < 65536 →
      let v : Survey :=
        { number := s.table.nextNumber, confirmed := false, name := name, state := .open, creator := level,
          readThreshold := max level r, eraseThreshold := max level e, created := s.stamp, closed := none, streamCount := 0,
          heads := List.replicate 8 none, tails := List.replicate 8 none, dropCount := 0, lastDrop := 0, hadPowerLoss := false,
          hadSuspect := false, hadVoid := false }
      exec .surveyOpen s = .next ((((State.requestEntry { s with
        slot := some { opcode := .surveyOpen, port := f.port, tag := f.tag, level := level, suppressed := false,
                       request := .surveyOpen v.number }
        table := { s.table with surveys := insertSurvey v s.table.surveys, nextNumber := s.table.nextNumber + 1 } }
        (.surveyOpened v.record)).arbitrate).freeHead).holdIdle))

/-- SURVEY-CLOSE: PARAM, NO-SUCH, LEVEL and STATE in the order of R87; otherwise the survey goes to CLOSING and every live slot bound to
it whose stop mark is clear begins its stop. SURVEY_CLOSED_ENTRY_REQUEST, where it is the next due step: for the first survey in table
order (log 9) that is CLOSING with no closed stamp and has no LOADED, RUNNING or PAUSED slot bound to it, the closed stamp is set and the
entry that carries it is requested. The slots are stopped in ascending order (log 9); the record in the entry names state CLOSED (log 23).
Each stop closes the open record into its page, drops the partial group, raises the STOP marker, sets the stop mark and pauses the slot
(reason COMMAND where it was not PAUSED before), then closes the page on request. -/
def Obligations.SurveyClose : Prop :=
  (∀ (s : State) (f : Frame), s.Takes .surveyClose f →
    let n := leVal (f.payload.take 2)
    let level := s.effective f
    let refused (st : Status) : Host.Outcome State Fault Refusal :=
      .next ((s.refuse .surveyClose f level st).freeHead).holdIdle
    (n = 0 → exec .surveyClose s = refused .param) ∧
    (n ≠ 0 → s.confirmedSurvey n = none → exec .surveyClose s = refused .noSuch) ∧
    (∀ v, n ≠ 0 → s.confirmedSurvey n = some v →
      (v.creator < level → exec .surveyClose s = refused .level) ∧
      (level ≤ v.creator → v.state ≠ .open → exec .surveyClose s = refused .state) ∧
      (level ≤ v.creator → v.state = .open → ∃ ids : List Nat,
        (∀ i, i ∈ ids ↔ i < s.slots.length ∧ (s.slotAt i).stopping = false ∧
          ((s.slotAt i).state = .loaded ∨ (s.slotAt i).state = .running ∨ (s.slotAt i).state = .paused) ∧
          ∃ d, (s.slotAt i).desc = some d ∧ d.survey = n) ∧ ids.Pairwise (· < ·) ∧
        exec .surveyClose s = .next ((((State.beginStops { s with
          slot := some { opcode := .surveyClose, port := f.port, tag := f.tag, level := level, suppressed := false,
                         request := .surveyClose n }
          table := { s.table with
            surveys := s.table.surveys.map (fun x => if x.number = n then { x with state := .closing } else x) } }
          ids).arbitrate).freeHead).holdIdle)))) ∧
  (∀ (s : State) (before after : List Survey) (v : Survey), s.due = some .surveyClosedEntryRequest →
    let ends (w : Survey) : Prop := w.state = .closing ∧ w.closed = none ∧ ∀ x ∈ s.slots,
      x.state = .loaded ∨ x.state = .running ∨ x.state = .paused → ∀ d, x.desc = some d → d.survey ≠ w.number
    s.table.surveys = before ++ v :: after → ends v → (∀ w ∈ before, ¬ ends w) →
    exec .surveyClosedEntryRequest s = .next (((State.requestEntry { s with table := { s.table with
      surveys := s.table.surveys.map (fun x => if x.number = v.number then { x with closed := some s.stamp } else x) } }
      (.surveyClosed { v.record with state := .closed, closed := some s.stamp })).arbitrate).holdIdle)) ∧
  (∀ (s : State) (ids : List Nat), s.beginStops ids = ids.foldl (fun u i => u.beginStop i) s) ∧
  (∀ (s : State) (i : Nat) (d : Descriptor), i < s.slots.length →
    let x := s.slotAt i
    x.desc = some d → (x.openRec.isSome = true → x.page.isSome = true) →
    ∃ u : State, s.beginStop i = u.requestClose i ∧
      u = { s with
        slots := s.slots.set i { x with
          openRec := none
          acc := 0
          fill := 0
          markers := { x.markers with stop := some { stamp := s.stamp, index := x.outputIndex } }
          state := .paused
          reason := if x.state = .paused then x.reason else some .command
          stopping := true }
        pool := { s.pool with buffers := u.pool.buffers } } ∧
      (x.openRec = none → u.pool.buffers = s.pool.buffers) ∧
      (∀ r p, x.openRec = some r → x.page = some p →
        u.pool.buffers = s.pool.buffers.modify p.buffer (fun b => { b with bytes := b.bytes ++ r.bytes d })))

/-- SURVEY-THRESHOLDS, SURVEY-LOCK and SURVEY-ERASE: the checks of R87 in their order; THRESHOLDS refuses with LEVEL where a clamped
value would raise a threshold; LOCK and ERASE need the survey CLOSED; the accepted command occupies the Operation Slot and requests
its entry, and the table keeps its old values until the entry ends. -/
def Obligations.SurveyEntries : Prop :=
  ∀ (o : Opcode) (s : State) (f : Frame), s.Takes o f → o = .surveyThresholds ∨ o = .surveyLock ∨ o = .surveyErase →
    let n := leVal (f.payload.take 2)
    let level := s.effective f
    let refused (st : Status) : Host.Outcome State Fault Refusal := .next ((s.refuse o f level st).freeHead).holdIdle
    let requested (q : Request) (body : EntryBody) : Host.Outcome State Fault Refusal :=
      .next ((((State.requestEntry { s with
        slot := some { opcode := o, port := f.port, tag := f.tag, level := level, suppressed := false, request := q } }
        body).arbitrate).freeHead).holdIdle)
    let fieldOk (off : Nat) : Prop := o = .surveyThresholds →
      leVal ((f.payload.drop off).take 1) ≤ 3 ∨ leVal ((f.payload.drop off).take 1) = 255
    (n = 0 ∨ ¬ fieldOk 2 ∨ ¬ fieldOk 3 → exec o.row s = refused .param) ∧
    (n ≠ 0 → fieldOk 2 → fieldOk 3 → s.confirmedSurvey n = none → exec o.row s = refused .noSuch) ∧
    (∀ v, n ≠ 0 → fieldOk 2 → fieldOk 3 → s.confirmedSurvey n = some v →
      ((if o = .surveyErase then v.eraseThreshold else v.creator) < level → exec o.row s = refused .level) ∧
      (level ≤ v.creator → o = .surveyThresholds →
        let next (off old : Nat) : Nat :=
          if leVal ((f.payload.drop off).take 1) = 255 then old else max v.creator (min 3 (leVal ((f.payload.drop off).take 1)))
        (v.readThreshold < next 2 v.readThreshold ∨ v.eraseThreshold < next 3 v.eraseThreshold → exec o.row s = refused .level) ∧
        (next 2 v.readThreshold ≤ v.readThreshold → next 3 v.eraseThreshold ≤ v.eraseThreshold →
          exec o.row s = requested (.surveyThresholds n) (.thresholdsSet n (next 2 v.readThreshold) (next 3 v.eraseThreshold)))) ∧
      (level ≤ v.creator → o = .surveyLock →
        (v.state ≠ .closed → exec o.row s = refused .state) ∧
        (v.state = .closed → exec o.row s = requested (.surveyLock n) (.surveyLocked n))) ∧
      (level ≤ v.eraseThreshold → o = .surveyErase →
        (v.state ≠ .closed → exec o.row s = refused .state) ∧
        (v.state = .closed → exec o.row s = requested (.surveyErase n) (.surveyErased n))))

/-- SURVEY-LIST: PARAM above position 63, else OK with the number of entries and up to 16 of them from the position on, nothing else
changed. READ-RECORDS: the checks of R104 in their order; else the request starts from the segment of a hint that passes R106, or from the
chain head, and the chain is walked over links while the next segment's first record sequence is at most the requested one; the reached
segment, or the nearest before it on the path with a written page, is searched from the middle of its written pages, and with no written
page on the path the scan starts. A walk that would follow a 65th link ends the request at once with PARTIAL, no records, the requested
sequence, and the reached segment as hint. (`ReadEnds` says what the links and first sequences of a segment are.) -/
def Obligations.SurveyReads : Prop :=
  (∀ (s : State) (f : Frame), s.Takes .surveyList f →
    let position := leVal (f.payload.take 1)
    (63 < position → exec .surveyList s = .next ((s.refuse .surveyList f (s.effective f) .param).freeHead).holdIdle) ∧
    (position ≤ 63 → exec .surveyList s = .next (State.freeHead { s with port := { s.port with tx := s.port.tx ++ [.reply
      { port := f.port, tag := f.tag, level := s.effective f, status := .ok, kept := false,
        payload := .surveyList s.table.surveys.length
          (((s.table.surveys.drop position).take 16).map Survey.listing) }] } }).holdIdle)) ∧
  (∀ (s : State) (f : Frame), s.Takes .readRecords f →
    let n := leVal (f.payload.take 2)
    let index := leVal ((f.payload.drop 2).take 1)
    let maximum := leVal ((f.payload.drop 3).take 1)
    let first := leVal ((f.payload.drop 4).take 4)
    let hint := leVal ((f.payload.drop 8).take 2)
    let level := s.effective f
    let passes : Prop := hint ≠ 65535 ∧ 4 ≤ hint ∧ hint < s.media.segs.length ∧
      ∃ x, s.chainAt hint = some x ∧ x.survey = n ∧ x.index = index ∧ x.firstSeq ≤ first
    let refused (st : Status) : Host.Outcome State Fault Refusal :=
      .next (State.freeHead { s with port := { s.port with tx := s.port.tx ++ [.reply
        { port := f.port, tag := f.tag, level := level, status := st, kept := false, payload := .readRefused n index }] } }).holdIdle
    (n = 0 ∨ 7 < index → exec .readRecords s = refused .param) ∧
    (n ≠ 0 → index ≤ 7 → s.confirmedSurvey n = none → exec .readRecords s = refused .noSuch) ∧
    (∀ v, n ≠ 0 → index ≤ 7 → s.confirmedSurvey n = some v →
      (v.readThreshold < level → exec .readRecords s = refused .level) ∧
      (level ≤ v.readThreshold → v.headOf index = none → exec .readRecords s = refused .noSuch) ∧
      (∀ head start used, level ≤ v.readThreshold → v.headOf index = some head →
        (passes ∧ start = hint ∧ used = true) ∨ (¬ passes ∧ start = head ∧ used = false) →
        ∀ gs last, List.IsChain (fun a g => s.nextOf a = some g ∧ s.segFirstSeq g ≤ first) (start :: gs) → gs.length ≤ 64 →
          (start :: gs).getLast? = some last →
          let o : OpSlot := { opcode := .readRecords, port := f.port, tag := f.tag, level := level, suppressed := false,
                              request := .readRecords }
          ((∀ g, s.nextOf last = some g → first < s.segFirstSeq g) → exec .readRecords s = .next ((((State.searchBack
            { s with slot := some o }
            { survey := n, index := index, requested := first, maximum := max 1 (min 64 maximum), hintUsed := used, path := start :: gs,
              links := gs.length, phase := .scan 0 1, wanted := first, lastSeq := none, entries := [], request := none }
            gs.length).arbitrate).freeHead).holdIdle)) ∧
          (∀ g, gs.length = 64 → s.nextOf last = some g → s.segFirstSeq g ≤ first → exec .readRecords s = .next (((State.arbitrate { s with
            slot := none
            engine := none
            port := { s.port with tx := s.port.tx ++ [.reply
              { port := f.port, tag := f.tag, level := level, status := .partialRead, kept := true,
                payload := .records { survey := n, index := index, entries := 0, maximum := max 1 (min 64 maximum), hintUsed := used,
                                      links := 64, resumeSeq := first, resumeHint := last } [] }] } }).freeHead).holdIdle))))) ∧
  (∀ (s : State) (c : ReadContext) (i : Nat),
    ((∀ j, j ≤ i → s.lastPageOf (c.path.getD j 0) = 0) → s.searchBack c i = s.scanOn c 0 1) ∧
    (∀ j, j ≤ i → let high := s.lastPageOf (c.path.getD j 0)
      1 ≤ high → (∀ k, j < k → k ≤ i → s.lastPageOf (c.path.getD k 0) = 0) → s.searchBack c i = { s with engine := some { c with
        phase := .search j 1 high none ((1 + high) / 2) ((1 + high) / 2), request := some (c.path.getD j 0, (1 + high) / 2) } }))

/-! ### Settings, DOZE and FORMAT -/

/-- SET-LEVELS: LEVEL unless the effective level is 0, PARAM for a level or a scope out of range; scope PRESENT changes the present
levels named at once and replies in the same event; scope STORED requests its entry, refused with PARAM where no port would keep
stored level 0. SET-SHOCK and SET-GAUGE: LEVEL above level 1; otherwise the entry with the resulting settings is requested. On a
drive found unformatted all but scope PRESENT are refused with STATE (log 13). Every field of SET-SHOCK and SET-GAUGE that holds
KEEP, all ones, keeps the value in effect, and any other is clamped to its range in R130 or R150. -/
def Obligations.SettingsCommands : Prop :=
  ∀ (o : Opcode) (s : State) (f : Frame), s.Takes o f →
    let level := s.effective f
    let b (off len : Nat) : Nat := leVal ((f.payload.drop off).take len)
    let kept (off len old lo hi : Nat) : Nat := if b off len = 2 ^ (8 * len) - 1 then old else max lo (min hi (b off len))
    let refused (st : Status) : Host.Outcome State Fault Refusal := .next ((s.refuse o f level st).freeHead).holdIdle
    let accepted (q : Request) : State :=
      { s with slot := some { opcode := o, port := f.port, tag := f.tag, level := level, suppressed := false, request := q } }
    let requested (q : Request) (body : EntryBody) : Host.Outcome State Fault Refusal :=
      .next (((((accepted q).requestEntry body).arbitrate).freeHead).holdIdle)
    (o = .setLevels →
      let inRange := ∀ k, 1 ≤ k → k ≤ 4 → b k 1 ≤ 3 ∨ b k 1 = 255
      let named := [1, 2, 3, 4].map (fun k => if b k 1 = 255 then none else some (b k 1))
      let scope := b 0 1
      let present := List.zipWith (fun l n => n.getD l) s.table.present named
      let stored := List.zipWith (fun l n => n.getD l) s.table.stored named
      (level ≠ 0 → exec .setLevels s = refused .level) ∧
      (level = 0 → ¬ inRange → exec .setLevels s = refused .param) ∧
      (level = 0 → inRange →
        (scope ≠ 1 → scope ≠ 2 → exec .setLevels s = refused .param) ∧
        (scope = 1 → exec .setLevels s = .next (State.freeHead { s with
          slot := none
          table := { s.table with present := present }
          port := { s.port with tx := s.port.tx ++ [.reply
            { port := f.port, tag := f.tag, level := 0, status := .ok, kept := true, payload := .levels present }] } }).holdIdle) ∧
        (scope = 2 → 0 ∉ stored → exec .setLevels s = refused .param) ∧
        (scope = 2 → 0 ∈ stored → s.power.unformatted = true → exec .setLevels s = refused .state) ∧
        (scope = 2 → 0 ∈ stored → s.power.unformatted = false →
          exec .setLevels s = requested (.setLevels named) (.ports stored)))) ∧
    (o = .setShock →
      let v := s.monitor.shock
      (1 < level → exec .setShock s = refused .level) ∧
      (level ≤ 1 → s.power.unformatted = true → exec .setShock s = refused .state) ∧
      (level ≤ 1 → s.power.unformatted = false → exec .setShock s = requested .setShock (.shock
        { zeroX := kept 0 2 v.zeroX 0 4095, zeroY := kept 2 2 v.zeroY 0 4095, zeroZ := kept 4 2 v.zeroZ 0 4095,
          ffWindow := kept 6 2 v.ffWindow 16 1024, ffTime := kept 8 2 v.ffTime 16 512,
          impactLevel := kept 10 2 v.impactLevel 256 2047, quietDelta := kept 12 2 v.quietDelta 4 256,
          settleTime := kept 14 2 v.settleTime 64 4096, catchTime := kept 16 2 v.catchTime 32 1024,
          countsPerG := kept 18 2 v.countsPerG 100 2047 }))) ∧
    (o = .setGauge →
      let v := s.gauge.settings
      (1 < level → exec .setGauge s = refused .level) ∧
      (level ≤ 1 → s.power.unformatted = true → exec .setGauge s = refused .state) ∧
      (level ≤ 1 → s.power.unformatted = false → exec .setGauge s = requested .setGauge (.gauge
        { capacity := kept 0 4 v.capacity 1000 100000, cutOff := kept 4 4 v.cutOff 5000 7000, packPresent := 2000,
          holdUpMin := kept 8 4 v.holdUpMin 3000 8000, holdUpStep := kept 12 4 v.holdUpStep 50 1000,
          reportInterval := kept 16 4 v.reportInterval 0 65535, idleToDoze := kept 20 4 v.idleToDoze 0 3600 })))

/-- DOZE and the wake. DOZE is refused with STATE while a stream runs, outside ACTIVE and in a shutdown; else, as at IDLE_TIMER_EXPIRY
where it is the next due step, DOZE entry begins and the page of every LOADED, RUNNING or PAUSED slot is closed on request, in ascending
order (log 9); the arbiter's choice follows. DOZE_ENTRY_COMPLETE, where it is the next due step: with the port idle the part dozes at
once, and cause COMMAND answers OK, or nothing where the reply is suppressed; with an operation in flight the hold is taken first. An
abandoned entry releases the hold, and cause COMMAND answers STATE. WAKE_WAIT_END makes the part ACTIVE, or begins the shutdown asked for
meanwhile. That a hold once taken leads to DOZE although a condition no longer holds is the model's choice (log 46). A shutdown asked for
in DOZE is kept until the wake has ended (log 26). That a DOZE taken during an entry of cause IDLE makes the closes again and turns its
cause to COMMAND is the model's choice (log 62). So is that the arbiter chooses before the conditions of DOZE entry are judged in one
event (log 67). -/
def Obligations.DozeAndWake : Prop :=
  let live (s : State) (ids : List Nat) : Prop := ids.Pairwise (· < ·) ∧ ∀ i, i ∈ ids ↔ i < s.slots.length ∧
    ((s.slotAt i).state = .loaded ∨ (s.slotAt i).state = .running ∨ (s.slotAt i).state = .paused)
  (∀ (s : State) (f : Frame), s.Takes .doze f →
    ((∃ x ∈ s.slots, x.state = .running) ∨ s.power.state ≠ .active ∨ (∃ g, s.power.procedure = .shutdown g) →
      exec .doze s = .next ((s.refuse .doze f (s.effective f) .state).freeHead).holdIdle) ∧
    ((∀ x ∈ s.slots, x.state ≠ .running) → s.power.state = .active → (∀ g, s.power.procedure ≠ .shutdown g) →
      ∃ ids : List Nat, live s ids ∧ exec .doze s = .next ((((State.requestCloses { s with
        power := { s.power with procedure := .dozeEntry .command }
        slot := some { opcode := .doze, port := f.port, tag := f.tag, level := s.effective f, suppressed := false,
                       request := .doze } } ids).arbitrate).freeHead).holdIdle))) ∧
  (∀ s : State, s.due = some .idleTimerExpiry → ∃ ids : List Nat, live s ids ∧
    exec .idleTimerExpiry s = .next (((State.requestCloses { s with
      power := { s.power with idleDue := false, idleTimer := 0, procedure := .dozeEntry .idle } } ids).arbitrate).holdIdle)) ∧
  (∀ (s : State) (cause : DozeCause), s.power.procedure = .dozeEntry cause → s.due = some .dozeEntryComplete →
    let ready := s.pool.streamWaiters = [] ∧ s.queue = [] ∧ s.monitor.state = .watch ∧ s.log.waiting = [] ∧ s.log.rollover = .none
    (s.media.hold = false → ready → s.media.op ≠ none →
      exec .dozeEntryComplete s = .next (State.holdIdle { s with media := { s.media with hold := true } })) ∧
    (s.media.hold = true ∨ ready → s.media.op = none →
      ∃ u : State, exec .dozeEntryComplete s = .next (State.holdIdle u) ∧
        u = { s with
          media := { s.media with hold := true }
          power := { s.power with state := .doze, procedure := .none }
          sampler := { s.sampler with divider := 0, powered := s.sampler.powered && s.sampler.running.isSome }
          slot := u.slot
          port := u.port } ∧
        (cause = .idle → u.slot = s.slot ∧ u.port = s.port) ∧
        (∀ c, cause = .command → s.slot = some c → c.suppressed = true → u.slot = none ∧ u.port = s.port) ∧
        (∀ c, cause = .command → s.slot = some c → c.suppressed = false → u.slot = none ∧
          u.port = { s.port with tx := s.port.tx ++ [.reply
            { port := c.port, tag := c.tag, level := c.level, status := .ok, kept := true, payload := .none }] }))) ∧
  (∀ s : State,
    (s.power.procedure = .dozeEntry .idle →
      s.abandonDoze = { s with power := { s.power with procedure := .none, idleTimer := 0 }, media := { s.media with hold := false } }) ∧
    (s.power.procedure = .dozeEntry .command → ∀ c, s.slot = some c →
      s.abandonDoze = { s with
        power := { s.power with procedure := .none }
        media := { s.media with hold := false }
        slot := none
        port := if c.suppressed = true then s.port else { s.port with tx := s.port.tx ++ [.reply
          { port := c.port, tag := c.tag, level := c.level, status := .state, kept := true, payload := .none }] } })) ∧
  (∀ s : State, s.Settled → s.power.procedure = .wakeWait →
    exec .wakeWaitEnd s = .next ((State.arbitrate { s with
      power := { s.power with state := .active, shutdownAsked := false, idleTimer := 0,
                              procedure := if s.power.shutdownAsked = true then .shutdown .conditions else .none }
      sampler := { s.sampler with countdown := min s.sampler.countdown 1024 }
      media := { s.media with hold := false } }).holdIdle))

/-- FORMAT: LEVEL unless the effective level is 0, STATE while a slot is live or loading; with an operation in flight, or an index entry
in flight, it waits; otherwise the tables, the slots, the queue, the buffers, the segments and their lists, the log and the settings take
the values of R55, R80 and R102, the format generation rises by 1 (65535 to 1), Remaining is clamped to the default capacity, the report
alarm is restarted with the default interval, the Operation Slot keeps the FORMAT, and the erases begin at segment 0. (Of the log's
entries only DROP and POWER-DOWN can wait while the Operation Slot is free for the FORMAT.) When the log's marks are cleared, and which
entry counts as in flight, is the model's reading (logs 21, 20). The generation rises by 1 from the one held, whatever the unformatted
mark (log 59). -/
def Obligations.FormatStart : Prop :=
  ∀ (s : State) (f : Frame), s.Takes .format f →
    let level := s.effective f
    let held := ∃ x ∈ s.slots, x.state = .loaded ∨ x.state = .running ∨ x.state = .paused ∨ x.loading = true
    let asked := leVal (f.payload.take 2)
    let slot : OpSlot := { opcode := .format, port := f.port, tag := f.tag, level := level, suppressed := false, request := .format }
    let waits : State := { s with
      slot := some slot
      log := { s.log with unusable := [], failed := false }
      formatRun := some { stage := .waiting, n := asked } }
    (level ≠ 0 → exec .format s = .next ((s.refuse .format f level .level).freeHead).holdIdle) ∧
    (level = 0 → held → exec .format s = .next ((s.refuse .format f level .state).freeHead).holdIdle) ∧
    (level = 0 → ¬ held → s.media.op ≠ none → exec .format s = .next (waits.freeHead).holdIdle) ∧
    (level = 0 → ¬ held → s.media.op = none → (∃ e, s.log.waiting.head? = some e ∧ e.issued = true) →
      exec .format s = .next ((waits.arbitrate).freeHead).holdIdle) ∧
    (level = 0 → ¬ held → s.media.op = none → (∀ e, s.log.waiting.head? = some e → e.issued = false) →
      (∀ e ∈ s.log.waiting, (∃ r, e.body = .drop r) ∨ e.body = .powerDown) → ∃ u : State,
      exec .format s = .next (((u.judgeVerify.arbitrate).freeHead).holdIdle) ∧
      let n := min (max 64 (min 4096 asked)) s.media.reportedSegments
      let freed (b : Nat) : Prop := (s.pool.buffers.getD b {}).state = .queued ∨ (∃ e ∈ s.log.waiting, e.buffer = some b) ∨
        ∃ c, s.log.rollover = .program c b
      u = { s with
        clock := { s.clock with nextReport := some ((s.clock.seconds + 60) % 4294967296) }
        slot := some slot
        slots := s.slots.map (fun _ => {})
        pool := { buffers := u.pool.buffers, indexWaiters := [], streamWaiters := [] }
        queue := []
        media := { s.media with
          generation := if 65535 ≤ s.media.generation then 1 else s.media.generation + 1
          segs := (List.range n).map (fun g => { state := if g < 4 then .index else .free, chain := none, headerFailed := false })
          ready := []
          free := []
          takes := []
          segWaiters := []
          mediaFull := false
          fairness := 0 }
        table := { surveys := [], nextNumber := 1, stored := [0, 2, 2, 1], present := [0, 2, 2, 1] }
        log := { current := none, writePoint := 0, generation := 0, nextSeq := 0, waiting := [], stage := .idle, rollover := .none,
                 forceRollover := false, unusable := [], failed := false, clean := false }
        formatRun := some { stage := .erasing 0, n := n }
        monitor := { s.monitor with shock := {} }
        gauge := { s.gauge with
          remaining := min 34000 s.gauge.remaining
          acc := if 34000 < s.gauge.remaining then 0 else s.gauge.acc
          settings := {} }
        power := { s.power with procedure := u.power.procedure } } ∧
      u.pool.buffers.length = s.pool.buffers.length ∧
      (∀ b, b < s.pool.buffers.length → (freed b → (u.pool.buffers.getD b {}).state = .free) ∧
        (¬ freed b → u.pool.buffers.getD b {} = s.pool.buffers.getD b {})) ∧
      (s.power.procedure = .shutdown .entry → (∃ e ∈ s.log.waiting, e.body = .powerDown) →
        u.power.procedure = .shutdown (.drain s.port.tx.length)) ∧
      ((s.power.procedure ≠ .shutdown .entry ∨ ∀ e ∈ s.log.waiting, e.body ≠ .powerDown) →
        u.power.procedure = s.power.procedure))

/-! ### Page Pool and Commit Queue -/

/-- BUFFER_GRANT gives the lowest-numbered FREE buffer to the oldest waiting index write, else to the oldest waiting stream, and the
grantee leaves the list. RETIRE, in WATCH with the WATCH count at 8, removes the oldest HELD entry whose retire count is 8 and frees its
buffer. A granted stream's requested close writes its markers into the granted buffer, pads the page and queues it, with retire count 0
(log 48). A granted entry takes the next sequence if it has none, its page is composed in the buffer, and its program is requested, or a
rollover where one is forced (at this entry's grant: log 19) or the segment is full; a granted snapshot is composed, with the stamp of
that time (log 24). The drain passes over a stream that waits for a segment, or whose take or older entry stands; the oldest WAITING entry
of the first stream left is issued at the write point of its ACTIVE tail, which rises, and goes to PROGRAMMING with its page sent; with no
such tail a take is made. A take takes the head of the Ready List, else waits on an erase-ahead in flight, else takes the head of the Free
List for an erase, else is not made: a load ends with MEDIA, a stream is marked as waiting once, with its notice. An offer makes the take
of each marked stream's oldest WAITING entry in the order of the marks (log 9). A take made again keeps its place among the takes (log
63). -/
def Obligations.GrantAndRetire : Prop :=
  (∀ (s : State) (b : Nat), s.due = some .bufferGrant → s.freeBuffer = some b →
    (s.pool.buffers.getD b {}).state = .free ∧ (∀ c, c < b → (s.pool.buffers.getD c {}).state ≠ .free) ∧
    (∀ w ws, s.pool.indexWaiters = w :: ws → exec .bufferGrant s =
      .next (((((State.grantIndex { s with pool := { s.pool with indexWaiters := ws } } b w).pumpLog).arbitrate).holdIdle))) ∧
    (∀ i is, s.pool.indexWaiters = [] → s.pool.streamWaiters = i :: is → exec .bufferGrant s =
      .next (((((State.requestClose { s with pool := { s.pool with streamWaiters := is } } i).pumpLog).arbitrate).holdIdle)))) ∧
  (∀ (s : State) (e : Entry) (before after : List Entry), s.queue = before ++ e :: after →
    (∀ x ∈ before, ¬ (x.state = .held ∧ 8 ≤ x.retire)) → e.state = .held → 8 ≤ e.retire → s.monitor.state = .watch →
    8 ≤ s.monitor.watchCount → s.due = some .retire →
    exec .retire s = .next (State.holdIdle { s with
      queue := s.queue.filter (fun x => x.buffer != e.buffer)
      pool := { s.pool with buffers := s.pool.buffers.modify e.buffer (fun b => { b with state := .free }) } })) ∧
  (∀ (s : State) (i b : Nat) (d : Descriptor), s.freeBuffer = some b → i < s.slots.length →
    let x := s.slotAt i
    let order := x.markers.order
    let records := order.zipIdx.flatMap (fun e => s.markerRecord { x with nextSeq := x.nextSeq + e.2 } d e.1)
    x.desc = some d → x.openRec = none → x.page = none → order ≠ [] → s.requestClose i = { s with
      slots := s.slots.set i { x with markers := {}, nextSeq := (x.nextSeq + order.length) % 4294967296 }
      pool := { s.pool with buffers := s.pool.buffers.set b { state := .queued, bytes := padOnes 4096 records } }
      queue := s.queue ++ [{ buffer := b, slot := i, survey := d.survey, index := d.index, firstSeq := x.nextSeq, count := order.length,
                             used := 20 * order.length, target := none, state := .waiting, rewrite := false, failures := 0,
                             retire := 0 }] }) ∧
  (∀ (s : State) (b : Nat) (ws : List IndexWaiter), s.due = some .bufferGrant → s.freeBuffer = some b →
    (∀ e rest, s.pool.indexWaiters = .entry :: ws → s.log.waiting = e :: rest →
      let composed : IndexEntry := { e with seq := some (e.seq.getD s.log.nextSeq), buffer := some b }
      let u : State := { s with
        pool := { s.pool with
          indexWaiters := ws
          buffers := s.pool.buffers.modify b (fun _ => { state := .index, bytes := entryPage composed }) }
        log := { s.log with
          waiting := composed :: rest
          nextSeq := if e.seq = none then (s.log.nextSeq + 1) % 4294967296 else s.log.nextSeq
          stage := .idle } }
      (s.log.forceRollover = false → s.log.writePoint ≤ 255 →
        exec .bufferGrant s = .next ((State.arbitrate { u with log := { u.log with stage := .request } }).holdIdle)) ∧
      (s.log.forceRollover = true ∨ 256 ≤ s.log.writePoint →
        (∀ c, s.log.candidate = some c →
          exec .bufferGrant s = .next ((State.arbitrate { u with log := { u.log with rollover := .erase c } }).holdIdle)) ∧
        (s.log.candidate = none → exec .bufferGrant s = .next (((u.enterLogFailed).pumpLog).arbitrate).holdIdle))) ∧
    (∀ c, s.pool.indexWaiters = .snapshot :: ws → s.log.rollover = .waitBuffer c →
      exec .bufferGrant s = .next ((State.arbitrate { s with
        pool := { s.pool with
          indexWaiters := ws
          buffers := s.pool.buffers.modify b (fun _ => { state := .index, bytes := snapshotPage s.snapshotBody s.stamp }) }
        log := { s.log with rollover := .program c b } }).holdIdle))) ∧
  (∀ (s : State) (seen : List Nat), s.drain seen [] = (s, false) ∧ ∀ (e : Entry) (es : List Entry),
    let passed := e.slot ∈ seen ∨ e.slot ∈ s.media.segWaiters ∨ ∃ t ∈ s.media.takes, t.load = false ∧ t.slot = e.slot
    (e.state ≠ .waiting → s.drain seen (e :: es) = s.drain seen es) ∧
    (e.state = .waiting → passed → s.drain seen (e :: es) = s.drain (e.slot :: seen) es) ∧
    (e.state = .waiting → ¬ passed →
      (∀ g x c, s.tailOf e.survey e.index = some g → s.media.segs[g]? = some x → x.state = .active → x.chain = some c →
        c.writePoint ≤ 255 → s.drain seen (e :: es) = ({ s with
          queue := s.queue.map (fun y => if y.buffer = e.buffer then { y with target := some (g, c.writePoint), state := .programming } else y)
          media := { s.media with
            segs := s.media.segs.set g { x with chain := some { c with writePoint := c.writePoint + 1 } }
            op := some (.dataProgram e.buffer g c.writePoint)
            image := some (composePage (s.bufferBytes e.buffer)
              { kind := 2, rewrite := e.rewrite, index := e.index, survey := e.survey, generation := s.media.generation, seq := c.seq,
                count := e.count, used := e.used, firstSeq := e.firstSeq, seconds := s.clock.seconds, ticks := s.clock.ticks }) } }, true)) ∧
      ((∀ g x c, s.tailOf e.survey e.index = some g → s.media.segs[g]? = some x → x.state = .active → x.chain = some c →
          256 ≤ c.writePoint) →
        s.drain seen (e :: es) = (s.makeTake
          { load := false, slot := e.slot, survey := e.survey, index := e.index, firstSeq := e.firstSeq, phase := .remake,
            headerFails := 0 }).drain (e.slot :: seen) es))) ∧
  (∀ (s : State) (t : Take),
    let put (phase : TakePhase) : Media :=
      let made := { t with phase := phase }
      { s.media with
        takes := if s.media.takes.any (fun u => u.load == t.load && u.slot == t.slot)
          then s.media.takes.map (fun u => if u.load = t.load ∧ u.slot = t.slot then made else u) else s.media.takes ++ [made]
        segWaiters := if t.load then s.media.segWaiters else s.media.segWaiters.filter (fun i => i != t.slot) }
    let dropped : State := { s with media := { s.media with takes := s.media.takes.filter (fun u => !(u.load == t.load && u.slot == t.slot)) } }
    (∀ g rest, s.media.ready = g :: rest → s.makeTake t = State.testMediaFull { s with media := { put (.header g) with
      ready := rest, segs := s.media.segs.modify g (fun x => { x with state := .taken }) } } true) ∧
    (s.media.ready = [] →
      (∀ h, s.media.op = some (.aheadErase h) → s.makeTake t = { s with media := put .onAhead }) ∧
      ((∀ h, s.media.op ≠ some (.aheadErase h)) →
        (∀ g rest, s.media.free = g :: rest → s.makeTake t = State.testMediaFull { s with media := { put (.erase g) with
          free := rest, segs := s.media.segs.modify g (fun x => { x with state := .erasing }) } } true) ∧
        (s.media.free = [] →
          (t.load = true → s.makeTake t = State.completeOp { dropped with
            slots := s.slots.modify t.slot (fun x => { x with loading := false }) } .media .none) ∧
          (t.load = false → t.slot ∈ s.media.segWaiters → s.makeTake t = dropped) ∧
          (t.load = false → t.slot ∉ s.media.segWaiters → s.makeTake t = State.raise { dropped with
            media := { dropped.media with segWaiters := s.media.segWaiters ++ [t.slot] } } (.media (.noSegment t.slot))))))) ∧
  (∀ s : State, s.offerAll = s.media.segWaiters.foldl (fun u i =>
    match u.queue.find? (fun e => e.state == .waiting && e.slot == i) with
    | some e => u.makeTake { load := false, slot := e.slot, survey := e.survey, index := e.index, firstSeq := e.firstSeq,
                             phase := .remake, headerFails := 0 }
    | none => u) s)

/-! ### Media operations -/

/-- What the end of an operation leaves of the flash array: a program's page holds what was sent, or, where it failed, a free value
(log 3); an erased segment reads as all ones, or, where the erase failed, is left open; every other page, and every page after a
read, is unchanged. -/
def Obligations.MediaEnds : Prop :=
  ∀ (s : State) (ok : Bool) (r : ReadOutcome), s.Settled → s.FlashInv →
    (∀ (c : Instr) (g p : Nat) (im : PageImage), s.media.image = some im →
      ((∃ b, s.media.op = some (.dataProgram b g p)) ∧ c = .dataPageProgramEnd ok) ∨
        (s.media.op = some (.headerProgram g) ∧ p = 0 ∧ c = .headerProgramEnd ok) ∨
        (s.media.op = some (.indexProgram g p) ∧ c = .indexEntryProgramEnd ok) ∨
        (s.media.op = some (.snapshotProgram g) ∧ p = 0 ∧ c = .snapshotProgramEnd ok) →
      ∃ t, exec c s = .next t ∧
        Flash.read t.media.flash (Flash.key g p) = (if ok then im else (FlashCell.disturbed s.freeCount).image) ∧
        ∀ k, k ≠ Flash.key g p → Flash.read t.media.flash k = Flash.read s.media.flash k) ∧
    (∀ (c : Instr) (g : Nat),
      ((s.media.op = some (.takeErase g) ∨ s.media.op = some (.aheadErase g)) ∧ c = .segmentEraseEnd ok) ∨
        (s.media.op = some (.formatErase g) ∧ c = .formatEraseEnd ok) ∨
        (s.media.op = some (.indexErase g) ∧ c = .indexSegmentEraseEnd ok) →
      ∃ t, exec c s = .next t ∧ (ok = true → ∀ k, k / 256 = g → Flash.read t.media.flash k = PageImage.erased) ∧
        ∀ k, k / 256 ≠ g → Flash.read t.media.flash k = Flash.read s.media.flash k) ∧
    (∀ c : Instr,
      ((∃ b g p, s.media.op = some (.verifyRead b g p)) ∧ c = .verificationReadEnd r) ∨
        ((∃ g p d, s.media.op = some (.engineRead g p d)) ∧ c = .readEngineReadEnd r) ∨
        ((∃ g p, s.media.op = some (.mountRead g p)) ∧ c = .mountReadEnd r) →
      ∃ t, exec c s = .next t ∧ t.media.flash = s.media.flash)

/-- OPERATION_TIMEOUT is the failing end of the operation in flight, whichever it is; with none in flight nothing changes (the
model's, log 2). -/
def Obligations.TimeoutIsFailure : Prop :=
  ∀ s : State, s.Settled →
    (∃ t, exec .operationTimeout s = .next t ∧ t.pending = s.pending) ∧
    (s.media.op = none → exec .operationTimeout s = .next s.holdIdle) ∧
    (∀ b g p, s.media.op = some (.dataProgram b g p) → exec .operationTimeout s = exec (.dataPageProgramEnd false) s) ∧
    (∀ g, s.media.op = some (.headerProgram g) → exec .operationTimeout s = exec (.headerProgramEnd false) s) ∧
    (∀ g, s.media.op = some (.takeErase g) ∨ s.media.op = some (.aheadErase g) →
      exec .operationTimeout s = exec (.segmentEraseEnd false) s) ∧
    (∀ g, s.media.op = some (.formatErase g) → exec .operationTimeout s = exec (.formatEraseEnd false) s) ∧
    (∀ g p, s.media.op = some (.indexProgram g p) → exec .operationTimeout s = exec (.indexEntryProgramEnd false) s) ∧
    (∀ g, s.media.op = some (.indexErase g) → exec .operationTimeout s = exec (.indexSegmentEraseEnd false) s) ∧
    (∀ g, s.media.op = some (.snapshotProgram g) → exec .operationTimeout s = exec (.snapshotProgramEnd false) s) ∧
    (∀ b g p, s.media.op = some (.verifyRead b g p) → exec .operationTimeout s = exec (.verificationReadEnd .failed) s) ∧
    (∀ g p d, s.media.op = some (.engineRead g p d) → exec .operationTimeout s = exec (.readEngineReadEnd .failed) s) ∧
    (∀ g p, s.media.op = some (.mountRead g p) → exec .operationTimeout s = exec (.mountReadEnd .failed) s)

/-- The queue entry of a data page program and of a verification read at the operation's end. A success goes to HELD, or to SUSPECT
under the park flag; a failure goes back to the head of the queue as a rewrite, and the page counts void at its segment. A match
retires the entry and frees its buffer; a mismatch sends the entry to the head of the queue as a rewrite, and behind it, in their
order, the SUSPECT entries of its stream that stood later, WAITING with their rewrite flag set, no target and their failure counts
kept; the others keep their order. A verification matches when the page reads VALID, at the current format generation, its data are the
buffer's and its trailer's fields those it was issued with; a mismatch counts the page void at its segment as a failed program does. -/
def Obligations.DataPageEnds : Prop :=
  ∀ (s : State) (b g p : Nat) (e : Entry), s.Settled → s.entryAt b = some e →
    let failed : Entry := { e with state := .waiting, rewrite := true, target := none, failures := min 255 (e.failures + 1) }
    (s.media.op = some (.dataProgram b g p) →
      (∃ u : State, exec (.dataPageProgramEnd true) s = .next (u.afterOp).holdIdle ∧ u.media.op = none ∧
        u.queue = s.queue.map (fun x => if x.buffer = b then
          { x with retire := 0, state := if s.monitor.park = true then .suspect else .held } else x) ∧
        (s.monitor.park = false → u.monitor = s.monitor ∧ u.table = s.table) ∧
        (s.monitor.park = true →
          u.monitor = { s.monitor with drop := s.monitor.drop.map (fun r =>
            { r with pages := { r.pages with suspect := min 255 (r.pages.suspect + 1) } }) } ∧
          u.table = { s.table with surveys := s.table.surveys.map (fun v =>
            if v.number = e.survey then { v with hadSuspect := true } else v) })) ∧
      (∃ u : State, exec (.dataPageProgramEnd false) s = .next (u.afterOp).holdIdle ∧ u.media.op = none ∧
        u.queue = failed :: s.queue.filter (fun x => x.buffer != b) ∧
        u.table = { s.table with surveys := s.table.surveys.map (fun v =>
          if v.number = e.survey then { v with hadVoid := true } else v) } ∧
        (∀ h, h ≠ g → u.media.segs[h]? = s.media.segs[h]?) ∧
        ∀ x c, s.media.segs[g]? = some x → x.chain = some c → u.media.segs[g]? = some { x with
          chain := some { c with voids := min 255 (c.voids + 1) }
          state := if 1 ≤ c.voids then .bad else x.state })) ∧
    (∀ r : ReadOutcome, s.media.op = some (.verifyRead b g p) →
      let result := judgePage s.media.generation (outcomeImage r s.media.flash g p)
      let matches_ : Prop := ∃ t data x c, result = .valid t data ∧ data = s.bufferBytes b ∧ t.survey = e.survey ∧ t.index = e.index ∧
        t.firstSeq = e.firstSeq ∧ t.count = e.count ∧ t.used = e.used ∧ t.rewrite = e.rewrite ∧
        s.media.segs[g]? = some x ∧ x.chain = some c ∧ t.seq = c.seq
      (matches_ → ∃ u : State, exec (.verificationReadEnd r) s = .next (u.afterOp).holdIdle ∧
        u.media.op = none ∧ u.queue = s.queue.filter (fun x => x.buffer != b) ∧
        u.pool = { s.pool with buffers := s.pool.buffers.modify b (fun x => { x with state := .free }) } ∧
        u.monitor = { s.monitor with drop := s.monitor.drop.map (fun d =>
          { d with pages := { d.pages with confirmed := min 255 (d.pages.confirmed + 1) } }) }) ∧
      (¬ matches_ → ∀ before after, s.queue = before ++ e :: after → (∀ x ∈ before, x.buffer ≠ b) →
        let followers := after.filter (fun x => x.state == .suspect && x.slot == e.slot)
        ∃ u : State, exec (.verificationReadEnd r) s = .next (u.afterOp).holdIdle ∧ u.media.op = none ∧ u.pool = s.pool ∧
          u.queue = failed :: followers.map (fun x => { x with state := .waiting, rewrite := true, target := none }) ++
            s.queue.filter (fun x => decide (x.buffer ≠ b ∧ ∀ y ∈ followers, y.buffer ≠ x.buffer)) ∧
          u.monitor = { s.monitor with drop := s.monitor.drop.map (fun d =>
            { d with pages := { d.pages with
              bad := min 255 (d.pages.bad + 1), requeued := min 255 (d.pages.requeued + followers.length) } }) } ∧
          u.table = { s.table with surveys := s.table.surveys.map (fun v =>
            if v.number = e.survey then { v with hadVoid := true } else v) } ∧
          (∀ h, h ≠ g → u.media.segs[h]? = s.media.segs[h]?) ∧
          ∀ x c, s.media.segs[g]? = some x → x.chain = some c → u.media.segs[g]? = some { x with
            chain := some { c with voids := min 255 (c.voids + 1) }
            state := if 1 ≤ c.voids then .bad else x.state }))

/-- HEADER_PROGRAM_END. A success joins the segment to its stream's chain as its ACTIVE tail, at write point 1: for a page issue the
previous tail takes a link to it and becomes FULL if it was ACTIVE; for a load the chain begins with sequence 0, the slot becomes LOADED
with its descriptor and every other field absent, and STREAM-LOAD answers OK, or nothing where its reply is suppressed. A failure puts the
segment at the tail of the Free List with its header-failed mark, or, with the mark set already, makes it BAD; the take is then made
again, or a load that failed twice ends. The order of takes made again is the model's (log 9), as are the first record sequence (log 58)
and the place (log 63) that the take keeps. -/
def Obligations.HeaderEnds : Prop :=
  ∀ (s : State) (g : Nat) (t : Take) (x : Segment), s.Settled → s.media.op = some (.headerProgram g) →
    s.media.takes.find? (fun u => u.phase == .header g) = some t → s.media.segs[g]? = some x →
    let joined (seq : Nat) : Segment := { x with
      state := .active
      chain := some { survey := t.survey, index := t.index, seq := seq, firstSeq := t.firstSeq, next := none, writePoint := 1, voids := 0 } }
    let gone := s.media.takes.filter (fun u => !Take.same t u)
    (∀ old y c, t.load = false → s.tailOf t.survey t.index = some old → old ≠ g → s.media.segs[old]? = some y → y.chain = some c →
      ∃ u : State, exec (.headerProgramEnd true) s = .next (u.afterOp).holdIdle ∧ u.media.op = none ∧ u.media.takes = gone ∧
        u.media.segs[g]? = some (joined (c.seq + 1)) ∧
        u.media.segs[old]? = some { y with
          chain := some { c with next := some g }, state := if y.state = .active then .full else y.state } ∧
        (∀ h, h ≠ g → h ≠ old → u.media.segs[h]? = s.media.segs[h]?) ∧ u.slots = s.slots ∧ u.slot = s.slot ∧ u.queue = s.queue ∧
        u.table = { s.table with surveys := s.table.surveys.map (fun v =>
          if v.number = t.survey then { v with tails := v.tails.set t.index (some g) } else v) }) ∧
    (∀ d, t.load = true → s.takeDescriptor t = some d → t.slot < s.slots.length →
      ∃ u : State, exec (.headerProgramEnd true) s = .next (u.afterOp).holdIdle ∧ u.media.op = none ∧ u.media.takes = gone ∧
        u.media.segs[g]? = some (joined 0) ∧ (∀ h, h ≠ g → u.media.segs[h]? = s.media.segs[h]?) ∧
        u.slots = s.slots.set t.slot { state := .loaded, desc := some d } ∧ u.slot = none ∧ u.queue = s.queue ∧
        (∀ c, s.slot = some c → u.port = if c.suppressed = true then s.port else { s.port with tx := s.port.tx ++ [.reply
          { port := c.port, tag := c.tag, level := c.level, status := .ok, kept := true, payload := .none }] }) ∧
        ∀ v, s.surveyAt t.survey = some v → u.surveyAt t.survey = some { v with
          tails := v.tails.set t.index (some g), heads := v.heads.set t.index (some g), streamCount := v.streamCount + 1 }) ∧
    (∃ u : State, u.media.op = none ∧ (∀ h, h ≠ g → u.media.segs[h]? = s.media.segs[h]?) ∧ u.table = s.table ∧ u.slots = s.slots ∧
      u.media.takes = s.media.takes ∧
      (x.headerFailed = false →
        u.media.segs[g]? = some { x with state := .free, headerFailed := true } ∧ u.media.free = s.media.free ++ [g]) ∧
      (x.headerFailed = true → u.media.segs[g]? = some { x with state := .bad } ∧ u.media.free = s.media.free) ∧
      (t.load = false ∨ t.headerFails = 0 → exec (.headerProgramEnd false) s =
        .next ((((u.makeTake { t with headerFails := t.headerFails + 1 }).offerAll).afterOp).holdIdle)) ∧
      (t.load = true → 1 ≤ t.headerFails → exec (.headerProgramEnd false) s =
        .next ((((State.failLoad { u with media := { u.media with takes := gone } } t.slot).offerAll).afterOp).holdIdle)))

/-- SEGMENT_ERASE_END and FORMAT_ERASE_END. An erase-ahead erase makes its segment READY at the tail of the Ready List, or gives it to the
take that waits on it; an erase for a take goes on to the header program; a failure makes the segment BAD outside all lists and the
waiting takes are made again. FORMAT's erase makes a data segment READY or BAD, a failed index segment joins the unusable set, and the
next erase follows, up to segment N - 1. The state of the segments between is the model's reading (log 21), and so is the test of
media-full after a segment given to a waiting take (log 51). The last one is followed by the rollover's first erase, or, with no candidate
left, by LOG-FAILED. A take made again keeps the first record sequence it began with (log 58). -/
def Obligations.EraseEnds : Prop :=
  (∀ (s : State) (g : Nat) (x : Segment), s.Settled → s.media.segs[g]? = some x →
    let waiting := s.media.takes.filter (fun t => t.phase == .onAhead)
    let others (u : State) : Prop := u.media.op = none ∧ (∀ h, h ≠ g → u.media.segs[h]? = s.media.segs[h]?) ∧ u.table = s.table ∧
      u.slots = s.slots ∧ u.queue = s.queue
    (s.media.op = some (.aheadErase g) →
      (waiting = [] → ∃ u : State, exec (.segmentEraseEnd true) s = .next (((u.offerAll).afterOp).holdIdle) ∧ others u ∧
        u.media.segs[g]? = some { x with state := .ready, chain := none } ∧ u.media.ready = s.media.ready ++ [g]) ∧
      (∀ t ts, waiting = t :: ts → ∃ u : State,
        exec (.segmentEraseEnd true) s = .next (((((u.testMediaFull true).remakeTakes ts).afterOp)).holdIdle) ∧
        others u ∧ u.media.segs[g]? = some { x with state := .taken, chain := none } ∧ u.media.ready = s.media.ready ∧
        { t with phase := .header g } ∈ u.media.takes) ∧
      (∃ u : State, exec (.segmentEraseEnd false) s = .next (((u.remakeTakes waiting).afterOp).holdIdle) ∧ others u ∧
        u.media.segs[g]? = some { x with state := .bad, chain := none } ∧ u.media.ready = s.media.ready)) ∧
    (∀ t, s.media.op = some (.takeErase g) → s.media.takes.find? (fun u => u.phase == .erase g) = some t →
      (∃ u : State, exec (.segmentEraseEnd true) s = .next ((u.afterOp).holdIdle) ∧ others u ∧
        u.media.segs[g]? = some { x with state := .taken, chain := none } ∧ { t with phase := .header g } ∈ u.media.takes) ∧
      (∃ u : State, exec (.segmentEraseEnd false) s = .next (((u.makeTake t).afterOp).holdIdle) ∧ others u ∧
        u.media.segs[g]? = some { x with state := .bad, chain := none })) ∧
    (∀ r, s.media.op = some (.formatErase g) → s.formatRun = some r → g + 1 < r.n → ∀ ok : Bool,
      ∃ u : State, exec (.formatEraseEnd ok) s = .next ((u.afterOp).holdIdle) ∧ others u ∧
        u.formatRun = some { r with stage := .erasing (g + 1) } ∧
        (ok = true → u.log = s.log ∧
          (4 ≤ g → u.media.segs[g]? = some { x with state := .ready } ∧ u.media.ready = s.media.ready ++ [g]) ∧
          (g < 4 → u.media.segs[g]? = some x ∧ u.media.ready = s.media.ready)) ∧
        (ok = false → u.media.ready = s.media.ready ∧
          (4 ≤ g → u.media.segs[g]? = some { x with state := .bad } ∧ u.log = s.log) ∧
          (g < 4 → u.media.segs[g]? = some x ∧ u.log = { s.log with
            unusable := if g ∈ s.log.unusable then s.log.unusable else s.log.unusable ++ [g] })))) ∧
  (∀ (s : State) (g : Nat) (x : Segment) (r : FormatRun) (ok : Bool), s.Settled → s.media.segs[g]? = some x →
    s.media.op = some (.formatErase g) → s.formatRun = some r → r.n ≤ g + 1 →
    ∃ u : State,
      (∀ c, u.log.candidate = some c → exec (.formatEraseEnd ok) s =
        .next ((State.afterOp { u with log := { u.log with rollover := .erase c } }).holdIdle)) ∧
      (u.log.candidate = none → exec (.formatEraseEnd ok) s = .next (((u.enterLogFailed).afterOp).holdIdle)) ∧
      u.formatRun = some { r with stage := .rollover } ∧ u.media.op = none ∧ (∀ h, h ≠ g → u.media.segs[h]? = s.media.segs[h]?) ∧
      u.slot = s.slot ∧ u.table = s.table ∧
      (ok = true → u.log = s.log ∧
        (4 ≤ g → u.media.segs[g]? = some { x with state := .ready } ∧ u.media.ready = s.media.ready ++ [g]) ∧
        (g < 4 → u.media.segs[g]? = some x ∧ u.media.ready = s.media.ready)) ∧
      (ok = false → u.media.ready = s.media.ready ∧
        (4 ≤ g → u.media.segs[g]? = some { x with state := .bad } ∧ u.log = s.log) ∧
        (g < 4 → u.media.segs[g]? = some x ∧ u.log = { s.log with
          unusable := if g ∈ s.log.unusable then s.log.unusable else s.log.unusable ++ [g] })))

/-- The rollover. INDEX_SEGMENT_ERASE_END: with a FREE buffer the snapshot is composed in the lowest-numbered one, and its program is
requested; a failed candidate joins the unusable set, and the next in ring order is erased, or, with none left, the log enters LOG-FAILED.
SNAPSHOT_PROGRAM_END: the candidate becomes the current segment at write point 1, the index generation rises by 1 and the snapshot's
buffer becomes FREE; a FORMAT that made this rollover then answers OK, and one that still waits goes on waiting. The stamp in the
snapshot's head and the plain count of the generation are the model's (logs 24, 15), and so is its reading that a FORMAT that still waits
is neither ended nor answered by another rollover (log 21). With no FREE buffer the log waits for one. The candidate is the first segment
that is not unusable in ring order after the current one, itself left out, or from 0 where there is none. The snapshot holds the confirmed
surveys, a CLOSING one as OPEN without its closed stamp, the stored levels, the settings and the drops, and the sequence of the oldest
waiting entry or the next one. With no entry pending LOG-FAILED raises INDEX-FAILED, and a FORMAT whose own rollover it was answers MEDIA.
The notice comes before that reply (log 54), and the snapshot's buffer becomes FREE after a failed program too (log 65). -/
def Obligations.RolloverEnds : Prop :=
  (∀ (s : State) (c : Nat), s.Settled →
    let failed : IndexLog := { s.log with
      unusable := if c ∈ s.log.unusable then s.log.unusable else s.log.unusable ++ [c], rollover := .none }
    (∀ b, s.media.op = some (.indexErase c) → s.freeBuffer = some b →
      ∃ u : State, exec (.indexSegmentEraseEnd true) s = .next ((u.afterOp).holdIdle) ∧
        u.log = { s.log with rollover := .program c b } ∧
        u.pool = { s.pool with buffers := s.pool.buffers.modify b (fun _ =>
          { state := .index, bytes := snapshotPage s.snapshotBody s.stamp }) }) ∧
    (∀ d, s.media.op = some (.indexErase c) → failed.candidate = some d →
      ∃ u : State, exec (.indexSegmentEraseEnd false) s = .next ((u.afterOp).holdIdle) ∧ u.log = { failed with rollover := .erase d } ∧
        u.slot = s.slot) ∧
    (s.media.op = some (.indexErase c) → failed.candidate = none →
      ∃ u : State, exec (.indexSegmentEraseEnd false) s = .next ((u.afterOp).holdIdle) ∧ u.log.failed = true ∧ u.log.waiting = [] ∧
        u.log.rollover = .none ∧
        (∀ r, s.formatRun = some r → r.stage = .rollover → u.formatRun = none) ∧
        ((∀ r, s.formatRun = some r → r.stage ≠ .rollover) → u.formatRun = s.formatRun)) ∧
    (∀ b, s.media.op = some (.snapshotProgram c) → s.log.rollover = .program c b →
      (∀ r, s.formatRun = some r → r.stage ≠ .rollover) →
      (∃ u : State, exec (.snapshotProgramEnd true) s = .next (((u.pumpLog).afterOp).holdIdle) ∧
        u.log = { s.log with
          current := some c, writePoint := 1, generation := s.log.generation + 1, forceRollover := false, rollover := .none } ∧
        u.pool = { s.pool with buffers := s.pool.buffers.modify b (fun x => { x with state := .free }) } ∧ u.slot = s.slot) ∧
      (∀ d, failed.candidate = some d → ∃ u : State, exec (.snapshotProgramEnd false) s = .next ((u.afterOp).holdIdle) ∧
        u.log = { failed with rollover := .erase d } ∧
        u.pool = { s.pool with buffers := s.pool.buffers.modify b (fun x => { x with state := .free }) })) ∧
    (∀ b r o, s.media.op = some (.snapshotProgram c) → s.log.rollover = .program c b → s.formatRun = some r →
      r.stage = .rollover → s.slot = some o →
      o.suppressed = false → ∃ u : State, exec (.snapshotProgramEnd true) s = .next (((u.pumpLog).afterOp).holdIdle) ∧
        u.formatRun = none ∧ u.power = { s.power with unformatted := false } ∧ u.slot = none ∧
        u.port = { s.port with tx := s.port.tx ++ [.reply
          { port := o.port, tag := o.tag, level := o.level, status := .ok, kept := true,
            payload := .formatted s.media.segs.length s.media.generation (s.media.segs.countP (fun x => x.state == .bad))
              s.log.unusable.length }] })) ∧
  (∀ (s : State) (c : Nat), s.Settled → s.media.op = some (.indexErase c) → s.freeBuffer = none →
    ∃ u : State, exec (.indexSegmentEraseEnd true) s = .next ((u.afterOp).holdIdle) ∧ u = { s with
      media := { s.media with op := none, flash := u.media.flash }
      log := { s.log with rollover := .waitBuffer c }
      pool := { s.pool with indexWaiters := s.pool.indexWaiters ++ [.snapshot] } }) ∧
  (∀ l : IndexLog,
    (∀ g, l.current = some g →
      (∀ k, 1 ≤ k → k ≤ 3 → (g + k) % 4 ∉ l.unusable → (∀ j, 1 ≤ j → j < k → (g + j) % 4 ∈ l.unusable) →
        l.candidate = some ((g + k) % 4)) ∧
      ((∀ k, 1 ≤ k → k ≤ 3 → (g + k) % 4 ∈ l.unusable) → l.candidate = none)) ∧
    (l.current = none →
      (∀ k, k ≤ 3 → k ∉ l.unusable → (∀ j, j < k → j ∈ l.unusable) → l.candidate = some k) ∧
      ((∀ k, k ≤ 3 → k ∈ l.unusable) → l.candidate = none))) ∧
  (∀ s : State, s.snapshotBody =
    { indexGeneration := s.log.generation + 1
      nextSeq := match s.log.waiting with
        | e :: _ => e.seq.getD s.log.nextSeq
        | [] => s.log.nextSeq
      formatGeneration := s.media.generation
      n := s.media.segs.length
      nextNumber := s.table.nextNumber
      stored := s.table.stored
      dropTotal := s.monitor.total
      shock := s.monitor.shock
      gauge := s.gauge.settings
      surveys := (s.table.surveys.filter (fun v => v.confirmed)).map (fun v =>
        { number := v.number, state := if v.state = .closing then .open else v.state, creator := v.creator,
          readThreshold := v.readThreshold, eraseThreshold := v.eraseThreshold, hadPowerLoss := v.hadPowerLoss,
          hadSuspect := v.hadSuspect, hadVoid := v.hadVoid, name := v.name, created := v.created,
          closed := if v.state = .closing then none else v.closed, dropCount := v.dropCount, lastDrop := v.lastDrop })
      drops := s.monitor.drops }) ∧
  (∀ s : State, s.log.waiting = [] →
    let rolls : Prop := ∃ r, s.formatRun = some r ∧ r.stage = .rollover
    let u : State := { s with log := { s.log with failed := true, rollover := .none, stage := .idle } }
    (rolls → s.enterLogFailed = (State.raise { u with formatRun := none } (.media .indexFailed)).completeOp .media .none) ∧
    (¬ rolls → s.enterLogFailed = State.raise u (.media .indexFailed)))

/-- Reads. READ_ENGINE_READ_END: a read that is to be discarded changes nothing but the port; in the search a usable page whose first
record is not above the requested one becomes the candidate and the upper half is searched, one above it leaves the lower half; in the
scan a page that is not usable, or whose records are all below the next wanted one, is passed over. MOUNT_READ_END: in the INDEX phase
pages 0 of segments 0 to 3 are read in order and the best candidate kept: a page whose CRC matches and whose kind is SNAPSHOT is one, and
a later one replaces it where its format generation is higher across the wrap (1 to 32767 ahead, modulo 65535), or equal with a higher
index generation; without one the drive is unformatted and READY; in the SEGMENTS phase a header page of a survey in the table places its
segment in the chain as FULL, and the next header follows. On an unformatted drive media-full is set (log 32); of two candidates with
equal generations the one read first is kept (log 55). Going forward: the next page of the segment, then page 1 of the next segment of the
path, then of the next link, a 65th link ending the request with PARTIAL and the chain's end with END (or, with a page held, with that
page standing). A page that starts above its bounds ends the search at its candidate, or steps back along the path. A usable page with a
wanted record is held; a rewrite of it supersedes it, a page programmed for the first time lets it stand, any other page lets the reading
go on. A standing page's records are copied from the next wanted one until the maximum (OK) or the payload's 2,048 bytes (PARTIAL, before
the first record too: log 60), with their sizes (log 44), void-nearby and break-before. The end frees the engine and the slot and answers
with the resume sequence and hint (log 61 where no segment of the path qualifies). Sequences are compared as stored numbers, without wrap
(log 37). -/
def Obligations.ReadEnds : Prop :=
  (∀ (s : State) (g p : Nat) (r : ReadOutcome), s.Settled →
    let idle : State := { s with media := { s.media with op := none } }
    let image := outcomeImage r s.media.flash g p
    let usable := fun c => s.usable c g (judgePage s.media.generation image)
    (s.media.op = some (.engineRead g p true) → exec (.readEngineReadEnd r) s = .next ((idle.afterOp).holdIdle)) ∧
    (∀ c i low high candidate probe reading, s.media.op = some (.engineRead g p false) → s.engine = some c →
      c.phase = .search i low high candidate probe reading → ∀ t, usable { c with request := none } = some t →
      let from_ (low high : Nat) (candidate : Option Nat) : Host.Outcome State Fault Refusal :=
        .next ((State.afterOp { idle with stores := { s.stores with read := image }, engine := some { c with
          phase := .search i low high candidate ((low + high) / 2) ((low + high) / 2)
          request := some (c.segAt i, (low + high) / 2) } }).holdIdle)
      (t.firstSeq ≤ c.requested → reading + 1 ≤ high →
        exec (.readEngineReadEnd r) s = from_ (reading + 1) high (some reading)) ∧
      (c.requested < t.firstSeq → low ≤ probe - 1 → exec (.readEngineReadEnd r) s = from_ low (probe - 1) candidate)) ∧
    (∀ c i q, s.media.op = some (.engineRead g p false) → s.engine = some c → c.phase = .scan i q → q + 1 ≤ s.lastPageOf (c.segAt i) →
      (usable { c with request := none } = none ∨
        ∃ t, usable { c with request := none } = some t ∧ t.firstSeq + t.count ≤ c.wanted) →
      exec (.readEngineReadEnd r) s = .next ((State.afterOp { idle with stores := { s.stores with read := image }, engine := some { c with
        phase := .scan i (q + 1), request := some (c.segAt i, q + 1) } }).holdIdle))) ∧
  (∀ (g : Nat) (im : PageImage), candidateOf g none = none ∧
    candidateOf g (some im) = if im.crcMatches = true ∧ (trailerOf im.spare).kind = 4 then
        some { segment := g, formatGeneration := (trailerOf im.spare).generation, indexGeneration := (trailerOf im.spare).firstSeq,
               data := im.data }
      else none) ∧
  (∀ a b : SnapshotCandidate,
    let ahead := ((b.formatGeneration : Int) - a.formatGeneration) % 65535
    bestCandidate none (some b) = some b ∧ bestCandidate (some a) none = some a ∧
    bestCandidate (some a) (some b) =
      if (1 ≤ ahead ∧ ahead ≤ 32767) ∨ (b.formatGeneration = a.formatGeneration ∧ a.indexGeneration < b.indexGeneration) then some b
      else some a) ∧
  (∀ (s : State) (g p : Nat) (r : ReadOutcome), s.Settled → s.media.op = some (.mountRead g p) →
    let idle : State := { s with media := { s.media with op := none } }
    let image := outcomeImage r s.media.flash g p
    (∀ next best, s.mount = .heads next best →
      (next < 3 → exec (.mountReadEnd r) s = .next ((State.afterOp { idle with
        mount := .heads (next + 1) (bestCandidate best (candidateOf g image)) }).holdIdle)) ∧
      (3 ≤ next → bestCandidate best (candidateOf g image) = none → ∃ u : State,
        exec (.mountReadEnd r) s = .next ((u.afterOp).holdIdle) ∧ u.power.unformatted = true ∧ u.power.phase = .ready ∧
        u.media.segs = [] ∧ u.media.generation = 0 ∧ u.log.waiting = [] ∧
        (s.media.ready = [] → s.media.free = [] → u.media.mediaFull = true) ∧
        u.table = { surveys := [], nextNumber := 1, stored := [0, 2, 2, 1], present := [0, 2, 2, 1] }) ∧
      (∀ c, 3 ≤ next → bestCandidate best (candidateOf g image) = some c → ∃ u : State,
        exec (.mountReadEnd r) s = .next ((u.afterOp).holdIdle) ∧ u.media.generation = c.formatGeneration ∧
        u.log.generation = c.indexGeneration ∧ u.mount = .replay c.segment 1 (snapshotOf c.data).nextSeq none ∧
        u.table.nextNumber = (snapshotOf c.data).nextNumber ∧ u.table.stored = (snapshotOf c.data).stored ∧
        u.table.present = (snapshotOf c.data).stored ∧ u.monitor.drops = (snapshotOf c.data).drops ∧
        u.monitor.total = (snapshotOf c.data).dropTotal ∧ u.media.segs.length = (snapshotOf c.data).n)) ∧
    (∀ next x t data v, s.mount = .headers next → next + 1 < s.media.segs.length → s.media.segs[next]? = some x →
      judgePage s.media.generation image = .valid t data → t.kind = 1 → t.index ≤ 7 → s.surveyAt t.survey = some v →
      exec (.mountReadEnd r) s = .next ((State.afterOp { idle with
        mount := .headers (next + 1)
        media := { idle.media with segs := s.media.segs.set next { x with
          state := .full
          chain := some { survey := t.survey, index := t.index, seq := t.seq, firstSeq := t.firstSeq, next := none,
                          writePoint := 256, voids := 0 } } } }).holdIdle))) ∧
  (∀ (s : State) (g : Nat) (y : Segment) (x : ChainInfo), s.media.segs[g]? = some y → y.chain = some x →
    s.lastPageOf g = x.writePoint - 1 ∧ s.segFirstSeq g = x.firstSeq ∧ s.nextOf g = x.next ∧
    (∀ (c : ReadContext) (t : Trailer) (data : List Byte),
      s.usable c g (.valid t data) =
        if t.kind = 2 ∧ t.survey = c.survey ∧ t.index = c.index ∧ t.seq = x.seq then some t else none)) ∧
  (∀ (s : State) (c : ReadContext) (g : Nat), s.usable c g .void = none ∧ s.usable c g .erased = none ∧ s.usable c g .failed = none) ∧
  (∀ (s : State) (c : ReadContext) (i page : Nat), i < c.path.length → c.path.length ≤ 65 → c.links ≤ 64 →
    let g := c.path.getD i 0
    let asks (phase : EnginePhase) : State := { s with engine := some { c with phase := phase, request := some (g, page) } }
    let goes (d : ReadContext) (j p : Nat) : Prop :=
      s.scanOn c i page = s.scanOn d j p ∧ ∀ h, s.decideOn c h i page = s.decideOn d h j p
    (page ≤ s.lastPageOf g →
      s.scanOn c i page = asks (.scan i page) ∧ ∀ h, s.decideOn c h i page = asks (.decide h i page)) ∧
    (s.lastPageOf g < page → i + 1 < c.path.length → goes c (i + 1) 1) ∧
    (s.lastPageOf g < page → i + 1 = c.path.length →
      (s.nextOf g = none → s.scanOn c i page = s.endRequest c .endOfData ∧ ∀ h, s.decideOn c h i page = s.standing c h) ∧
      (∀ n, s.nextOf g = some n →
        (c.links = 64 → s.scanOn c i page = s.endRequest c .partialRead ∧
          ∀ h, s.decideOn c h i page = s.endRequest c .partialRead) ∧
        (c.links < 64 → goes { c with path := c.path ++ [n], links := c.links + 1 } (i + 1) 1)))) ∧
  (∀ (s : State) (c : ReadContext) (h : HeldPage) (im : PageImage), s.stores.held = some im →
    let fault := match s.chainAt (c.path.getD h.at_ 0) with
      | some x => decide (0 < x.voids)
      | none => false
    (∀ d status, c.copy fault im.data h.firstSeq (recordOffsets im.data h.count 0) = (d, some status) →
      s.standing c h = s.endRequest d status) ∧
    (∀ d, c.copy fault im.data h.firstSeq (recordOffsets im.data h.count 0) = (d, none) →
      s.standing c h = s.scanOn d h.at_ (h.page + 1))) ∧
  (∀ (data : List Byte) (off n : Nat), recordOffsets data 0 off = [] ∧
    recordOffsets data (n + 1) off = off :: recordOffsets data n (off + recordSizeAt data off) ∧
    (let flags := leVal ((data.drop (off + 1)).take 1)
     let n := leVal ((data.drop (off + 2)).take 2)
     let width := if leVal ((data.drop (off + 15)).take 1) = 0x20 then 4 else 2
     leVal ((data.drop off).take 1) = 1 → recordSizeAt data off =
       (20 + (if flags / 2 % 2 = 1 then 4 else 0) + n * width + (if flags / 4 % 2 = 1 then (n + 3) / 4 else 0) + 3) / 4 * 4) ∧
    (leVal ((data.drop off).take 1) ≠ 1 → recordSizeAt data off = 20)) ∧
  (∀ (c : ReadContext) (fault : Bool) (data : List Byte) (seq off : Nat) (rest : List Nat), c.copy fault data seq [] = (c, none) ∧
    (seq < c.wanted → c.copy fault data seq (off :: rest) = c.copy fault data (seq + 1) rest) ∧
    (c.wanted ≤ seq →
      let record := (data.drop off).take (recordSizeAt data off)
      let size := 16 + (c.entries.map (fun e => 4 + e.bytes.length)).sum
      let expected := match c.lastSeq with
        | some l => (l + 1) % 4294967296
        | none => c.requested
      let d : ReadContext := { c with
        entries := c.entries ++ [{ voidNearby := fault, breakBefore := seq % 4294967296 != expected, bytes := record }]
        lastSeq := some (seq % 4294967296)
        wanted := (seq + 1) % 4294967296 }
      (2048 < size + 4 + record.length → c.copy fault data seq (off :: rest) = (c, some .partialRead)) ∧
      (size + 4 + record.length ≤ 2048 →
        (c.maximum ≤ c.entries.length + 1 → c.copy fault data seq (off :: rest) = (d, some .ok)) ∧
        (c.entries.length + 1 < c.maximum → c.copy fault data seq (off :: rest) = d.copy fault data (seq + 1) rest)))) ∧
  (∀ (s : State) (c : ReadContext) (status : Status) (o : OpSlot), s.slot = some o → ∃ hint : Nat,
    (o.suppressed = false → s.endRequest c status = { s with
      engine := none
      slot := none
      port := { s.port with tx := s.port.tx ++ [.reply
        { port := o.port, tag := o.tag, level := o.level, status := status, kept := true,
          payload := .records { survey := c.survey, index := c.index, entries := c.entries.length, maximum := c.maximum,
                                hintUsed := c.hintUsed, links := c.links, resumeSeq := c.wanted, resumeHint := hint } c.entries }] } }) ∧
    (o.suppressed = true → s.endRequest c status = { s with engine := none, slot := none }) ∧
    (∀ before g after, c.path = before ++ g :: after → s.segFirstSeq g ≤ c.wanted → (∀ x ∈ after, c.wanted < s.segFirstSeq x) →
      hint = g) ∧
    ((∀ x ∈ c.path, c.wanted < s.segFirstSeq x) → hint = c.path.getD 0 0)) ∧
  (∀ (s : State) (g p : Nat) (r : ReadOutcome) (c : ReadContext), s.Settled → s.media.op = some (.engineRead g p false) →
    s.engine = some c →
    let image := outcomeImage r s.media.flash g p
    let met := s.usable { c with request := none } g (judgePage s.media.generation image)
    let v : State := { s with media := { s.media with op := none }, stores := { s.stores with read := image } }
    let d : ReadContext := { c with request := none }
    let goes (t : State) : Prop := exec (.readEngineReadEnd r) s = .next ((t.afterOp).holdIdle)
    (∀ i low high candidate probe reading, c.phase = .search i low high candidate probe reading →
      let lower : Prop := (∃ t, met = some t ∧ c.requested < t.firstSeq) ∨ (met = none ∧ s.lastPageOf g < reading + 1)
      (met = none → reading + 1 ≤ s.lastPageOf g → goes { v with engine := some { c with
        phase := .search i low high candidate probe (reading + 1), request := some (c.path.getD i 0, reading + 1) } }) ∧
      (lower → low ≤ probe - 1 → goes { v with engine := some { c with
        phase := .search i low (probe - 1) candidate ((low + (probe - 1)) / 2) ((low + (probe - 1)) / 2)
        request := some (c.path.getD i 0, (low + (probe - 1)) / 2) } }) ∧
      (∀ t, met = some t → t.firstSeq ≤ c.requested → high < reading + 1 → goes (v.scanOn d i reading)) ∧
      (lower → probe - 1 < low → (∀ q, candidate = some q → goes (v.scanOn d i q)) ∧
        (candidate = none → (i = 0 → goes (v.scanOn d 0 1)) ∧ ∀ j, i = j + 1 → goes (v.searchBack d j)))) ∧
    (∀ i q, c.phase = .scan i q →
      (met = none ∨ (∃ t, met = some t ∧ t.firstSeq + t.count ≤ c.wanted) → goes (v.scanOn d i (q + 1))) ∧
      (∀ t, met = some t → c.wanted < t.firstSeq + t.count →
        goes ({ v with stores := { read := image, held := image } }.decideOn d
          { at_ := i, page := q, firstSeq := t.firstSeq, count := t.count } i (q + 1)))) ∧
    (∀ h i q, c.phase = .decide h i q →
      (met = none → goes (v.decideOn d h i (q + 1))) ∧
      (∀ t, met = some t →
        (t.rewrite = false → goes (v.standing d h)) ∧
        (t.rewrite = true → t.firstSeq = h.firstSeq → goes (v.scanOn d h.at_ (h.page + 1))) ∧
        (t.rewrite = true → t.firstSeq ≠ h.firstSeq → goes (v.decideOn d h i (q + 1))))))

/-- Index entries. A request joins the tail of the pending list; on an idle log with a page left and a FREE buffer that nobody waits for,
it takes the next entry sequence and the lowest-numbered FREE buffer at once, and its program is requested; while the log is at another
entry or a rollover, or mount has not set its position, it only joins the tail (a 17th DROP entry apart). The end of its program: durable,
it leaves the list, its buffer becomes FREE and its change is made; a first failure keeps it at the head for one retry; a second gives it
up and forces a rollover. When a forced rollover is made is the model's reading (log 19). A durable SURVEY-ERASED releases its survey's
chains: BAD segments leave them, the others become FREE and join the Free List in ascending order; media-full clears, with its notice,
where the unused segments then exceed the live streams; waiting streams are offered takes; the entry leaves the table and the reply is OK.
A given-up SURVEY-CLOSED returns its survey to OPEN with no closed stamp and answers MEDIA. Gauge settings with a capacity below Remaining
lower it and set A to 0, and restart the report alarm. The log goes on with its oldest entry when nothing holds it: it asks for a buffer,
and requests the program or a rollover first. A MEDIA or INDEX notice comes before the reply of its event (log 54); an entry counts as in
flight, and FORMAT holds the log, once a program of it was issued (log 20); and a buffer that is FREE while others wait for one is left to
them (log 1). -/
def Obligations.IndexEntries : Prop :=
  (∀ (s : State) (body : EntryBody) (b cur : Nat), s.log.failed = false → s.power.unformatted = false → s.log.waiting = [] → s.log.stage = .idle →
    s.log.rollover = .none → s.log.forceRollover = false → s.log.current = some cur → s.log.writePoint ≤ 255 → s.formatRun = none →
    s.freeBuffer = some b → s.pool.indexWaiters = [] → s.pool.streamWaiters = [] →
    let e : IndexEntry :=
      { body := body, stamp := s.stamp, seq := some s.log.nextSeq, buffer := some b, failures := 0, issued := false }
    s.requestEntry body = { s with
      log := { s.log with waiting := [e], nextSeq := (s.log.nextSeq + 1) % 4294967296, stage := .request }
      pool := { s.pool with buffers := s.pool.buffers.modify b (fun _ => { state := .index, bytes := entryPage e }) } }) ∧
  (∀ (s : State) (body : EntryBody), s.log.failed = false → s.power.unformatted = false →
    (s.log.stage ≠ .idle ∨ s.log.rollover ≠ .none ∨ s.log.current = none) →
    ((∀ r, body ≠ .drop r) ∨ s.log.waiting.countP (fun e => e.body.isDrop) < 16) →
    s.requestEntry body = { s with log := { s.log with waiting := s.log.waiting ++
      [{ body := body, stamp := s.stamp, seq := none, buffer := none, failures := 0, issued := false }] } }) ∧
  (∀ (s : State) (g p : Nat) (e : IndexEntry) (rest : List IndexEntry), s.Settled → s.media.op = some (.indexProgram g p) →
    s.log.waiting = e :: rest →
    (∃ u : State, exec (.indexEntryProgramEnd true) s = .next (((u.pumpLog).afterOp).holdIdle) ∧
      u.log = { s.log with waiting := rest, stage := .idle } ∧
      (∀ b, e.buffer = some b → u.pool.buffers.map Buffer.state = (s.pool.buffers.map Buffer.state).set b .free) ∧
      (∀ n, e.body = .surveyLocked n → u.table = { s.table with
        surveys := s.table.surveys.map (fun v => if v.number = n then { v with state := .locked } else v) }) ∧
      (∀ n r q, e.body = .thresholdsSet n r q → u.table = { s.table with
        surveys := s.table.surveys.map (fun v => if v.number = n then { v with readThreshold := r, eraseThreshold := q } else v) }) ∧
      (∀ n, e.body = .surveyErased n → u.surveyAt n = none) ∧
      (∀ x, e.body = .surveyOpened x → u.table = { s.table with
        surveys := s.table.surveys.map (fun v => if v.number = x.number then { v with confirmed := true } else v) }) ∧
      (∀ x, e.body = .surveyClosed x → u.table = { s.table with
        surveys := s.table.surveys.map (fun v => if v.number = x.number then { v with state := .closed } else v) }) ∧
      (∀ l c named, e.body = .ports l → s.slot = some c → c.request = .setLevels named →
        u.table = { s.table with stored := l, present := List.zipWith (fun a n => n.getD a) s.table.present named }) ∧
      (∀ v, e.body = .shock v → u.monitor = { s.monitor with shock := v }) ∧
      (∀ v, e.body = .gauge v → u.gauge.settings = v ∧ u.gauge.level = s.gauge.level ∧ u.gauge.limit = s.gauge.limit) ∧
      (∀ c, s.slot = some c → (∀ d, e.body ≠ .drop d) → e.body ≠ .powerDown → u.slot = none)) ∧
    (e.failures = 0 → ∃ u : State, exec (.indexEntryProgramEnd false) s = .next (((u.pumpLog).afterOp).holdIdle) ∧
      u.log = { s.log with waiting := { e with failures := 1 } :: rest, stage := .idle } ∧ u.table = s.table ∧ u.slot = s.slot) ∧
    (e.failures ≠ 0 → ∃ u : State, exec (.indexEntryProgramEnd false) s = .next (((u.pumpLog).afterOp).holdIdle) ∧
      u.log = { s.log with waiting := rest, stage := .idle, forceRollover := true } ∧ u.monitor = s.monitor ∧ u.gauge = s.gauge ∧
      (∀ x, e.body = .surveyOpened x → u.surveyAt x.number = none) ∧
      (∀ c, s.slot = some c → (∀ d, e.body ≠ .drop d) → e.body ≠ .powerDown → u.slot = none))) ∧
  (∀ s : State,
    let held : Prop := ∃ r, s.formatRun = some r ∧ (r.stage ≠ .waiting ∨ ∀ e rest, s.log.waiting = e :: rest → e.issued = false)
    (held ∨ s.log.current = none ∨ s.log.stage ≠ .idle ∨ s.log.rollover ≠ .none ∨ s.log.waiting = [] → s.pumpLog = s) ∧
    (∀ e rest, ¬ held → s.log.current ≠ none → s.log.stage = .idle → s.log.rollover = .none → s.log.waiting = e :: rest →
      (e.buffer ≠ none → s.log.forceRollover = false → s.log.writePoint ≤ 255 →
        s.pumpLog = { s with log := { s.log with stage := .request } }) ∧
      (e.buffer ≠ none → s.log.forceRollover = true ∨ 256 ≤ s.log.writePoint → s.pumpLog = s.nextRollover) ∧
      (e.buffer = none → s.freeBuffer = none → s.pumpLog = { s with
        log := { s.log with stage := .waitBuffer }
        pool := { s.pool with indexWaiters := s.pool.indexWaiters ++ [.entry] } }) ∧
      (∀ b, e.buffer = none → s.freeBuffer = some b →
        (s.pool.indexWaiters ≠ [] ∨ s.pool.streamWaiters ≠ [] → s.pumpLog = s) ∧
        (s.pool.indexWaiters = [] → s.pool.streamWaiters = [] → s.pumpLog = s.grantIndex b .entry))) ∧
    (∀ c, s.log.candidate = some c → s.nextRollover = { s with log := { s.log with rollover := .erase c } }) ∧
    (s.log.candidate = none → s.nextRollover = s.enterLogFailed)) ∧
  (∀ (s : State) (b : Nat) (e : IndexEntry) (rest : List IndexEntry), s.log.waiting = e :: rest →
    let composed : IndexEntry := { e with seq := some (e.seq.getD s.log.nextSeq), buffer := some b }
    let u : State := { s with
      pool := { s.pool with buffers := s.pool.buffers.modify b (fun _ => { state := .index, bytes := entryPage composed }) }
      log := { s.log with
        waiting := composed :: rest
        nextSeq := if e.seq = none then (s.log.nextSeq + 1) % 4294967296 else s.log.nextSeq
        stage := .idle } }
    (s.log.forceRollover = false → s.log.writePoint ≤ 255 →
      s.grantIndex b .entry = { u with log := { u.log with stage := .request } }) ∧
    (s.log.forceRollover = true ∨ 256 ≤ s.log.writePoint → s.grantIndex b .entry = u.nextRollover)) ∧
  (∀ (s : State) (g p : Nat) (e : IndexEntry) (rest : List IndexEntry), s.Settled → s.media.op = some (.indexProgram g p) →
    s.log.waiting = e :: rest →
    (∀ n, e.body = .surveyErased n → ∃ w v : State,
      exec (.indexEntryProgramEnd true) s = .next ((((State.completeOp { v.offerAll with
        table := { v.offerAll.table with surveys := v.offerAll.table.surveys.filter (fun x => x.number != n) } }
        .ok .none).pumpLog).afterOp).holdIdle) ∧
      (let owned (x : Segment) : Bool := match x.chain with
         | some c => c.survey == n
         | none => false
       w = { s with
        log := { s.log with waiting := rest, stage := .idle }
        freeCount := w.freeCount
        pool := w.pool
        media := { s.media with
          op := none
          image := none
          flash := w.media.flash
          free := s.media.free ++ (List.range s.media.segs.length).filter (fun h => match s.media.segs[h]? with
            | some x => owned x && x.state != .bad
            | none => false)
          segs := s.media.segs.map (fun x =>
            if owned x then { x with chain := none, state := if x.state = .bad then .bad else .free } else x) } }) ∧
      (let unused := w.media.ready.length + w.media.free.length
       let live := s.slots.countP (fun x => x.live || x.loading)
       (s.media.mediaFull = true → live < unused →
         v = State.raise { w with media := { w.media with mediaFull := false } } (.media (.mediaAvailable unused live))) ∧
       (s.media.mediaFull = false ∨ unused ≤ live → v = w))) ∧
    (∀ v, e.body = .gauge v → ∃ u : State, exec (.indexEntryProgramEnd true) s = .next (((u.pumpLog).afterOp).holdIdle) ∧
      (v.capacity < s.gauge.remaining → u.gauge = { s.gauge with remaining := v.capacity, acc := 0, settings := v }) ∧
      (s.gauge.remaining ≤ v.capacity → u.gauge = { s.gauge with settings := v }) ∧
      u.clock = { s.clock with nextReport :=
        if v.reportInterval = 0 then none else some ((s.clock.seconds + v.reportInterval) % 4294967296) }) ∧
    (∀ x, e.body = .surveyClosed x → e.failures ≠ 0 → ∃ u : State,
      exec (.indexEntryProgramEnd false) s = .next (((u.pumpLog).afterOp).holdIdle) ∧ u.slots = s.slots ∧
      u.table = { s.table with surveys := s.table.surveys.map (fun v =>
        if v.number = x.number then { v with state := .open, closed := none } else v) } ∧
      ∀ o, s.slot = some o → o.suppressed = false → ∃ tx, u.port.tx = tx ++ [.reply
        { port := o.port, tag := o.tag, level := o.level, status := .media, kept := true, payload := .none }]))

/-! ### The clock and the scans -/

/-- TICK_BOUNDARY: the prescaler returns to 0; the tick counter rises, and past 1023 the seconds counter, which is compared with the
next report time; the retire counts and the WATCH count rise up to 8; the sampler's gauge interval, gauge countdown and shock
divider move as the power state has them, and a shock trigger falls due at every boundary in ACTIVE and at every fourth in DOZE; the
idle timer rises unless it is held at 0, and expires at the idle-to-doze setting.
That a trigger, the alarm and the expiry fall due as flags, made by rows of their own, is the model's order of steps (log 1); that
the alarm is not compared in OFF, its reading (log 22); that divider and countdown stand in OFF, its choice (log 50). -/
def Obligations.TickBoundary : Prop :=
  ∀ s : State, s.Settled → ∃ u : State, exec .tickBoundary s = .next u.holdIdle ∧
    u = { s with clock := u.clock, queue := s.queue.map (fun e => { e with retire := min 8 (e.retire + 1) }), sampler := u.sampler,
                 monitor := { s.monitor with watchCount := min 8 (s.monitor.watchCount + 1) },
                 power := { s.power with idleTimer := u.power.idleTimer, idleDue := u.power.idleDue, alarmDue := u.power.alarmDue } } ∧
    (s.clock.ticks < 1023 → u.clock = { s.clock with prescaler := 0, ticks := s.clock.ticks + 1 } ∧
      u.power.alarmDue = s.power.alarmDue) ∧
    (1023 ≤ s.clock.ticks → u.clock = { s.clock with prescaler := 0, ticks := 0, seconds := (s.clock.seconds + 1) % 4294967296 } ∧
      (u.power.alarmDue = true ↔ s.power.state ≠ .off ∧ s.clock.nextReport = some ((s.clock.seconds + 1) % 4294967296))) ∧
    (s.power.state = .active → u.sampler = { s.sampler with
      interval := min 65535 (s.sampler.interval + 1), countdown := s.sampler.countdown - 1, shockDue := true }) ∧
    (s.power.state = .doze → s.sampler.divider < 3 → u.sampler = { s.sampler with
      interval := min 65535 (s.sampler.interval + 1), countdown := s.sampler.countdown - 1, divider := s.sampler.divider + 1 }) ∧
    (s.power.state = .doze → 3 ≤ s.sampler.divider → u.sampler = { s.sampler with
      interval := min 65535 (s.sampler.interval + 1), countdown := s.sampler.countdown - 1, divider := 0, shockDue := true }) ∧
    (s.power.state = .off → u.sampler = { s.sampler with interval := min 65535 (s.sampler.interval + 1) }) ∧
    (s.idleHeld = true → u.power.idleTimer = 0 ∧ u.power.idleDue = s.power.idleDue) ∧
    (s.idleHeld = false → u.power.idleTimer = min 3686400 (s.power.idleTimer + 1) ∧
      (u.power.idleDue = true ↔ 0 < s.gauge.settings.idleToDoze ∧ s.gauge.settings.idleToDoze * 1024 ≤ u.power.idleTimer))

/-- Triggers and the self-check. A trigger due starts its scan on an idle converter, joins the pending set while another kind runs, and is
an overrun where its kind runs or is pending already; of both kinds due at one boundary on an idle converter the shock scan starts and the
gauge scan is pending; a gauge trigger reloads the countdown, and one that is taken carries the interval and sets it to 0; each 64th gauge
scan that starts carries a self-check. The start-up self-check's end applies its verdict. What starts when a scan ends: in OFF nothing;
else the pending shock scan; else the pending gauge scan, with its self-check where its count has come; with none pending the sensor is
powered off in DOZE (log 50). -/
def Obligations.Triggers : Prop :=
  (∀ s : State, s.sampler.shockDue = true →
    let m : Sampler := { s.sampler with shockDue := false }
    let made (n : Sampler) : Host.Outcome State Fault Refusal := .next (State.holdIdle { s with sampler := n })
    (m.running = none → exec .shockTrigger s = made { m with powered := true, running := some .shock }) ∧
    (m.running = some .shock → exec .shockTrigger s = made { m with overruns := min 4294967295 (m.overruns + 1) }) ∧
    (m.running ≠ none → m.running ≠ some .shock → m.pendingShock = false →
      exec .shockTrigger s = made { m with pendingShock := true }) ∧
    (m.running ≠ none → m.pendingShock = true →
      exec .shockTrigger s = made { m with overruns := min 4294967295 (m.overruns + 1) })) ∧
  (∀ s : State, s.sampler.countdown = 0 → s.power.state ≠ .off → s.sampler.shockDue = false →
    let m : Sampler := { s.sampler with countdown := if s.power.state = .doze then 8192 else 1024 }
    let made (n : Sampler) : Host.Outcome State Fault Refusal := .next (State.holdIdle { s with sampler := n })
    (m.running = none → m.selfCheckCounter < 63 → exec .gaugeTrigger s = made { m with
      interval := 0, powered := true, running := some (.gauge m.interval false), selfCheckCounter := m.selfCheckCounter + 1 }) ∧
    (m.running = none → 63 ≤ m.selfCheckCounter → exec .gaugeTrigger s = made { m with
      interval := 0, powered := true, running := some (.gauge m.interval true), selfCheckCounter := 0 }) ∧
    (∀ i k, m.running = some (.gauge i k) →
      exec .gaugeTrigger s = made { m with overruns := min 4294967295 (m.overruns + 1) }) ∧
    (m.running = some .shock ∨ m.running = some .startUp → m.pendingGauge = none →
      exec .gaugeTrigger s = made { m with interval := 0, pendingGauge := some m.interval }) ∧
    (∀ i, m.running = some .shock ∨ m.running = some .startUp → m.pendingGauge = some i →
      exec .gaugeTrigger s = made { m with overruns := min 4294967295 (m.overruns + 1) })) ∧
  (∀ s : State, s.sampler.countdown = 0 → s.power.state ≠ .off → s.sampler.shockDue = true → s.sampler.running = none →
    s.sampler.pendingGauge = none →
    exec .gaugeTrigger s = .next (State.holdIdle { s with sampler := { s.sampler with
      shockDue := false, countdown := if s.power.state = .doze then 8192 else 1024, interval := 0, powered := true,
      running := some .shock, pendingGauge := some s.sampler.interval } })) ∧
  (∀ (s : State) (zero full : Code), s.Settled → s.sampler.running = some .startUp →
    let fails := decide (8 < zero.toNat ∨ full.toNat < 4087)
    ∃ u : State, exec (.startUpSelfCheckEnd zero full) s = .next (State.holdIdle { u with sampler := u.sampler.next s.power.state }) ∧
      u.sampler = { s.sampler with
        fault := fails, zeroRef := some zero.toNat, fullRef := some full.toNat
        checks := min 4294967295 (s.sampler.checks + 1)
        fails := min 4294967295 (s.sampler.fails + (if fails then 1 else 0)) } ∧
      (fails = true ∨ s.sampler.fault = true → u = State.raise { s with sampler := u.sampler }
        (.sampler fails zero.toNat full.toNat u.sampler.checks)) ∧
      (fails = false → s.sampler.fault = false → u = { s with sampler := u.sampler })) ∧
  (∀ (m : Sampler) (p : PowerState),
    let idle : Sampler := { m with running := none }
    (p = .off → m.next p = idle) ∧
    (p ≠ .off → m.pendingShock = true → m.next p = { idle with pendingShock := false, powered := true, running := some .shock }) ∧
    (∀ i, p ≠ .off → m.pendingShock = false → m.pendingGauge = some i →
      (m.selfCheckCounter < 63 → m.next p = { idle with
        pendingGauge := none, powered := true, running := some (.gauge i false), selfCheckCounter := m.selfCheckCounter + 1 }) ∧
      (63 ≤ m.selfCheckCounter → m.next p = { idle with
        pendingGauge := none, powered := true, running := some (.gauge i true), selfCheckCounter := 0 })) ∧
    (p ≠ .off → m.pendingShock = false → m.pendingGauge = none →
      m.next p = { idle with powered := if p = .doze then false else m.powered }))

/-- SHOCK_SCAN_END. At the gauge, unless the sampler fault stands, VHOLD moves the hold-up pages and L is the smaller of them and
the level cap. At the Drop Monitor in WATCH: a held scan changes nothing but the deviations kept, a free scan goes to FALL-WAIT
with its stamp, and an impact scan declares a drop of kind IMPACT, raises the park flag, makes every HELD entry SUSPECT and goes
to IMPACT, this scan giving the first peak; the drop's number is 0 before mount's load, and its record names the power state, OFF
too (log 22). A stored hold-up step of 0 gives 0 pages (log 45). (`DropMonitor` states the whole declaration, with
the erase that the park flag abandons, and the other states of the monitor.) -/
def Obligations.ShockScan : Prop :=
  ∀ (s : State) (ax ay az vhold : Code), s.Settled → s.sampler.running = some .shock →
    let v := s.monitor.shock
    let d : Int × Int × Int := ((ax.toNat : Int) - v.zeroX, (ay.toNat : Int) - v.zeroY, (az.toNat : Int) - v.zeroZ)
    let impact := v.impactLevel ≤ d.1.natAbs ∨ v.impactLevel ≤ d.2.1.natAbs ∨ v.impactLevel ≤ d.2.2.natAbs
    let free := d.1.natAbs ≤ v.ffWindow ∧ d.2.1.natAbs ≤ v.ffWindow ∧ d.2.2.natAbs ≤ v.ffWindow
    let mv := vhold.toNat * 4
    let pages := if mv < s.gauge.settings.holdUpMin then 0 else min 24 ((mv - s.gauge.settings.holdUpMin) / s.gauge.settings.holdUpStep)
    let cap := match s.gauge.level with | .normal => 24 | .low => 24 | .reserve => 8 | .critical => 0
    ∃ u : State, exec (.shockScanEnd ax ay az vhold) s = .next ((((u.nextScan).formatGate).arbitrate).holdIdle) ∧ u.clock = s.clock ∧
      u.media.hold = s.media.hold ∧ u.sampler.fault = s.sampler.fault ∧ u.monitor.previous = some d ∧
      (s.sampler.fault = true → u.gauge = s.gauge) ∧
      (s.sampler.fault = false → u.gauge = { s.gauge with vhold := some mv, holdUpPages := pages, limit := min pages cap }) ∧
      (s.monitor.state = .watch → s.monitor.drop = none →
        (¬ impact → ¬ free → u.monitor = { s.monitor with previous := some d }) ∧
        (¬ impact → free → u.monitor = { s.monitor with
          previous := some d, state := .fallWait, fallStart := s.stamp, fallClock := 0 }) ∧
        (impact → 1 ≤ v.settleTime →
          u.monitor.state = .impact ∧ u.monitor.park = true ∧ u.monitor.settle = 0 ∧
          u.monitor.total = (if s.monitor.loaded = true then min 4294967295 (s.monitor.total + 1) else s.monitor.total) ∧
          u.queue = s.queue.map (fun e => if e.state = .held then { e with state := .suspect } else e) ∧
          ∃ r, u.monitor.drop = some r ∧ r.kind = .impact ∧ r.start = s.stamp ∧ r.fallTime = 0 ∧
            r.peak = max d.1.natAbs (max d.2.1.natAbs d.2.2.natAbs) ∧ r.lowestHoldUp = mv ∧ r.power = s.power.state.detected ∧
            r.number = (if s.monitor.loaded = true then min 4294967295 (s.monitor.total + 1) else 0) ∧
            r.pages.suspect = min 255 (s.queue.countP (fun e => e.state == .held))))

/-- GAUGE_SCAN_END. Under the sampler fault the gauge is unchanged; otherwise the codes are converted, VHOLD gives the hold-up pages,
pack presence is judged, and with the pack present the estimate of R154 is made, once the settings are known, or the charge of the
interval is integrated by R155, and the level is judged (`LevelTable` states the judgement); L is the smaller of the hold-up pages
and the level cap. Entry to CRITICAL in ACTIVE begins shutdown, and its end cancels one. A scan that carries a self-check applies the
verdict first. From when the settings are known for the estimate, and that a step down taken at Remaining 0 is a lowering, is the
model's reading (logs 27, 28), and a stored hold-up step of 0 gives 0 pages (log 45).
A change of the pack's presence raises its BATTERY notice, with L as it stood before (log 29), and a change of the level raises
BATTERY(LEVEL); entry to RESERVE then pauses every RUNNING stream, entry to CRITICAL every RUNNING and PAUSED one, in ascending slot
order (log 9), and asks for shutdown, the end of CRITICAL cancels one, and a dozing part begins to wake. A pause adds the open record's
bytes to the fill page, discards the partial sum, adds its marker and raises a STREAM notice; CRITICAL also requests the close of the
page, and keeps the reason of a slot that is being stopped, whose STREAM notice carries it (log 18). The media-full test, where no more segments are unused than streams are
live, sets the condition, pauses every RUNNING stream in the same way and raises MEDIA(MEDIA-FULL) after them (log 54). -/
def Obligations.GaugeScan : Prop :=
  (∀ (s : State) (vhold vpack ipack tpack zero full : Code) (interval : Nat) (carries : Bool), s.Settled →
    s.sampler.running = some (.gauge interval carries) →
    let fault := if carries then decide (8 < zero.toNat ∨ full.toNat < 4087) else s.sampler.fault
    let mv := vhold.toNat * 4
    let volts := vpack.toNat * 12 / 5
    let current := ((ipack.toNat : Int) - 2048) * 2
    let tenths := ((tpack.toNat / 2 : Nat) : Int) - 400
    let pages := if mv < s.gauge.settings.holdUpMin then 0 else min 24 ((mv - s.gauge.settings.holdUpMin) / s.gauge.settings.holdUpStep)
    let read : Gauge :=
      { s.gauge with vpack := some volts, ipack := some current, tpack := some tenths, vhold := some mv, holdUpPages := pages }
    let present : Gauge :=
      if volts < read.settings.packPresent then
        (if read.packLost = true then read else { read with packLost := true, lowRun := 0, recoveryRun := 0 })
      else { read with packLost := false }
    let v := max 6000 (min 8400 volts)
    let hundredths :=
      if v ≤ 6800 then (v - 6000) * 1000 / 800
      else if v ≤ 7200 then 1000 + (v - 6800) * 2000 / 400
      else if v ≤ 7500 then 3000 + (v - 7200) * 2000 / 300
      else if v ≤ 7900 then 5000 + (v - 7500) * 3000 / 400
      else 8000 + (v - 7900) * 2000 / 500
    let a : Int := present.acc + current * (max 1 (min 8192 interval) : Nat)
    let down := a.toNat / 368640
    let up := (-a).toNat / 368640
    let cap (l : BatteryLevel) : Nat := match l with | .normal => 24 | .low => 24 | .reserve => 8 | .critical => 0
    ∃ t, exec (.gaugeScanEnd vhold vpack ipack tpack zero full) s = .next t ∧ t.sampler.fault = fault ∧ t.clock = s.clock ∧
      (fault = true → t.gauge = s.gauge) ∧
      (fault = false → ∃ g : Gauge, t.gauge = { g with limit := min g.holdUpPages (cap g.level) } ∧
        (present.packLost = true → g = present) ∧
        (present.packLost = false → present.estimatePending = true →
          (s.power.phase = .index → g = present) ∧
          (s.power.phase ≠ .index → g = Gauge.judge { present with
            remaining := present.settings.capacity * hundredths / 10000, acc := 0, estimate := true, estimatePending := false }
            volts current tenths true)) ∧
        (present.packLost = false → present.estimatePending = false →
          (-368640 < a → a < 368640 → g = Gauge.judge { present with acc := a } volts current tenths false) ∧
          (368640 ≤ a → down ≤ present.remaining → g = Gauge.judge { present with
            remaining := present.remaining - down, acc := a - (down * 368640 : Nat) } volts current tenths true) ∧
          (368640 ≤ a → present.remaining < down →
            g = Gauge.judge { present with remaining := 0, acc := 0 } volts current tenths true) ∧
          (a ≤ -368640 → present.remaining + up ≤ present.settings.capacity → g = Gauge.judge { present with
            remaining := present.remaining + up, acc := a + (up * 368640 : Nat) } volts current tenths false) ∧
          (a ≤ -368640 → present.settings.capacity < present.remaining + up → g = Gauge.judge { present with
            remaining := present.settings.capacity, acc := 0, estimate := false } volts current tenths false)) ∧
        (g.level = .critical → s.gauge.level ≠ .critical → s.power.state = .active → ∃ x, t.power.procedure = .shutdown x) ∧
        (s.gauge.level = .critical → g.level ≠ .critical → s.power.state ≠ .off → ∀ x, t.power.procedure ≠ .shutdown x))) ∧
  (∀ (s : State) (vhold vpack ipack tpack zero full : Code) (interval : Nat) (carries : Bool), s.Settled →
    s.sampler.running = some (.gauge interval carries) →
    (if carries then decide (8 < zero.toNat ∨ full.toNat < 4087) else s.sampler.fault) = false →
    let latched : State := { s with sampler := s.sampler.latch 3 [vhold.toNat, vpack.toNat, ipack.toNat, tpack.toNat] }
    let y := if carries then latched.selfCheck zero.toNat full.toNat else latched
    let mv := vhold.toNat * 4
    let volts := vpack.toNat * 12 / 5
    let x : State :=
      if volts < s.gauge.settings.packPresent ∧ s.gauge.packLost = false then State.raise { y with
        monitor := { s.monitor with drop := s.monitor.drop.map (fun r => { r with packLost := true }) } }
        (.packLost volts mv s.gauge.limit s.gauge.level)
      else if s.gauge.settings.packPresent ≤ volts ∧ s.gauge.packLost = true then
        y.raise (.packReturned volts mv s.gauge.limit s.gauge.level)
      else y
    ∃ t w : State, exec (.gaugeScanEnd vhold vpack ipack tpack zero full) s = .next t ∧ w = { x with gauge := t.gauge } ∧
      t = ((((if t.gauge.level = s.gauge.level then w else w.levelChanged s.gauge.level).nextScan).arbitrate).holdIdle)) ∧
  (∀ (s : State) (old : BatteryLevel),
    let g := s.gauge
    let soc := match g.judged with | some j => j.soc.getD 0 | none => 0
    let told := s.raise (.batteryLevel old g.level soc g.remaining (g.vpack.getD 0) (g.vhold.getD 0) g.limit)
    let wakes (u : State) : State := { u with power := { u.power with procedure :=
      if u.power.state = .doze ∧ u.power.procedure = .none then .wakeWait else u.power.procedure } }
    (g.level = .normal ∨ g.level = .low → old ≠ .critical → s.levelChanged old = wakes told) ∧
    (g.level = .reserve → old = .normal ∨ old = .low → s.levelChanged old = wakes (told.pauseRunning .reserve)) ∧
    (g.level = .critical → old ≠ .critical → s.levelChanged old = wakes told.enterCriticalStreams.askShutdown) ∧
    (g.level ≠ .critical → old = .critical → s.levelChanged old = wakes told.cancelShutdown)) ∧
  (∀ (s : State) (r : PauseReason), ∃ ids : List Nat, ids.Pairwise (· < ·) ∧
    (∀ i, i ∈ ids ↔ i < s.slots.length ∧ (s.slotAt i).state = .running) ∧
    s.pauseRunning r = ids.foldl (fun u i => u.imposePause r i) s) ∧
  (∀ s : State, ∃ ids : List Nat, ids.Pairwise (· < ·) ∧
    (∀ i, i ∈ ids ↔ i < s.slots.length ∧ ((s.slotAt i).state = .running ∨ (s.slotAt i).state = .paused)) ∧
    s.enterCriticalStreams = ids.foldl (fun u i => u.criticalPause i) s) ∧
  (∀ (s : State) (i : Nat) (d : Descriptor), i < s.slots.length →
    let x := s.slotAt i
    x.desc = some d → (x.openRec.isSome = true → x.page.isSome = true) →
    let paused (u : State) (m : Markers) (reason : Option PauseReason) : Prop :=
      u = { s with
        slots := s.slots.set i { x with openRec := none, acc := 0, fill := 0, markers := m, state := .paused, reason := reason }
        pool := { s.pool with buffers := u.pool.buffers } } ∧
      (x.openRec = none → u.pool.buffers = s.pool.buffers) ∧
      (∀ rec p, x.openRec = some rec → x.page = some p →
        u.pool.buffers = s.pool.buffers.modify p.buffer (fun b => { b with bytes := b.bytes ++ rec.bytes d }))
    (∀ r, x.state = .running → x.stopping = false → ∃ u : State,
      paused u { x.markers with
        resume := none
        pause := some (x.markers.pause.getD { stamp := s.stamp, index := x.outputIndex, reason := r }) } (some r) ∧
      s.imposePause r i = u.raise (.stream i .paused (.pause (some r)))) ∧
    (x.state = .running ∨ x.state = .paused → ∃ u : State,
      let reason := if x.stopping = true then x.reason else some .critical
      paused u (if x.stopping = true ∧ x.markers.stop = none then x.markers else { x.markers with
        power := some (x.markers.power.getD { stamp := s.stamp, index := x.outputIndex, reason := .critical }) }) reason ∧
      s.criticalPause i = (u.requestClose i).raise (.stream i .paused (.pause reason)))) ∧
  (∀ s : State,
    let unused := s.media.ready.length + s.media.free.length + (match s.media.op with | some (.aheadErase _) => 1 | _ => 0)
    let live := s.slots.countP (fun x => x.state == .loaded || x.state == .running || x.state == .paused || x.loading)
    let full : State := { s with media := { s.media with mediaFull := true } }
    (s.media.mediaFull = true ∨ live < unused → ∀ p, s.testMediaFull p = s) ∧
    (s.media.mediaFull = false → unused ≤ live →
      s.testMediaFull true = (full.pauseRunning .mediaFull).raise (.media (.mediaFull unused live)) ∧
      s.testMediaFull false = full.raise (.media (.mediaFull unused live))))

/-- The level judgement of step 5. Outside CRITICAL the tests for CRITICAL come first; if they do not enter it, the level moves by
the state of charge just formed, as R157's table says. In CRITICAL only the exit test is made.
That a step down taken at Remaining 0 is a lowering is the model's reading (log 28), SOC 0 for a stored capacity of 0 its choice
(log 45). -/
def Obligations.LevelTable : Prop :=
  ∀ (g : Gauge) (vpack : Nat) (ipack tpack : Int) (emptied : Bool),
    let factor := if 100 ≤ tpack then 16 else if 0 ≤ tpack then 14 else if -100 ≤ tpack then 12 else 10
    let usable := g.settings.capacity * factor / 16
    let soc := min 100 (g.remaining * 100 / usable)
    let run := if vpack < g.settings.cutOff then g.lowRun + 1 else 0
    let j := g.judge vpack ipack tpack emptied
    (g.level ≠ .critical → (3 ≤ run ∨ (g.remaining = 0 ∧ emptied = true)) →
      j = { g with remaining := 0, acc := 0, estimate := false, lowRun := 0, recoveryRun := 0, level := .critical,
                   judged := some { soc := none, factor := factor, usable := usable } }) ∧
    (g.level ≠ .critical → run < 3 → ¬ (g.remaining = 0 ∧ emptied = true) →
      j = { g with lowRun := run, level := j.level, judged := some { soc := some soc, factor := factor, usable := usable } } ∧
      (g.level = .normal → (soc ≤ 8 → j.level = .reserve) ∧ (9 ≤ soc → soc ≤ 20 → j.level = .low) ∧ (21 ≤ soc → j.level = .normal)) ∧
      (g.level = .low → (soc ≤ 8 → j.level = .reserve) ∧ (23 ≤ soc → j.level = .normal) ∧ (9 ≤ soc → soc ≤ 22 → j.level = .low)) ∧
      (g.level = .reserve →
        (23 ≤ soc → j.level = .normal) ∧ (10 ≤ soc → soc ≤ 22 → j.level = .low) ∧ (soc ≤ 9 → j.level = .reserve))) ∧
    (g.level = .critical →
      let passes := ipack < -50 ∧ g.settings.cutOff + 200 ≤ vpack
      (¬ passes → j.level = .critical ∧ j.recoveryRun = 0) ∧
      (passes → g.recoveryRun < 7 → j.level = .critical ∧ j.recoveryRun = g.recoveryRun + 1) ∧
      (passes → 7 ≤ g.recoveryRun → j.recoveryRun = 0 ∧
        (23 ≤ soc → j.level = .normal) ∧ (10 ≤ soc → soc ≤ 22 → j.level = .low) ∧ (soc ≤ 9 → j.level = .reserve)))

/-! ### Shutdown and the report alarm -/

/-- SHUTDOWN_POWER_DOWN_REQUEST, once the four conditions hold, requests the POWER-DOWN entry, after every step that is due before it.
PWR_KEEP_RELEASE, once the list is drained, goes OFF with the port idle, else takes the hold first: PWR-KEEP is released, the command in
the Operation Slot is lost and HOLD is asserted. REPORT_ALARM raises a REPORT notice with the gauge report and moves the next report time
by the interval. What is left of the other blocks in OFF is the model's reading (log 22). In one event the arbiter chooses before the
conditions and the drained list are judged (log 67). -/
def Obligations.ShutdownSteps : Prop :=
  (∀ s : State, s.power.procedure = .shutdown .conditions → s.pool.streamWaiters = [] → s.queue = [] → s.monitor.state = .watch →
    s.log.waiting = [] → s.log.rollover = .none → s.due = some .shutdownPowerDownRequest →
    exec .shutdownPowerDownRequest s = .next (((State.requestEntry { s with
      power := { s.power with procedure := .shutdown .entry } } .powerDown).arbitrate).holdIdle)) ∧
  (∀ s : State, s.due = some .pwrKeepRelease →
    (s.power.procedure = .shutdown (.drain 0) → s.media.op ≠ none →
      exec .pwrKeepRelease s = .next (State.holdIdle { s with
        power := { s.power with procedure := .shutdown .holding }, media := { s.media with hold := true } })) ∧
    (s.power.procedure = .shutdown (.drain 0) ∨ s.power.procedure = .shutdown .holding → s.media.op = none →
      exec .pwrKeepRelease s = .next (State.holdIdle { s with
        power := { s.power with
          state := .off, procedure := .none, pwrKeep := false, shutdownAsked := false, idleDue := false, alarmDue := false }
        sampler := { s.sampler with pendingShock := false, pendingGauge := none, shockDue := false }
        media := { s.media with hold := true }
        port := { s.port with hold := true }
        slot := none
        engine := none }))) ∧
  (∀ (s : State) (n : Nat), s.due = some .reportAlarm → s.clock.nextReport = some n →
    exec .reportAlarm s = .next (State.holdIdle (State.raise { s with
      clock := { s.clock with nextReport := some ((n + s.gauge.settings.reportInterval) % 4294967296) }
      power := { s.power with alarmDue := false } } (.report s.gaugeReport))))
end

