-- ==== Sys2Proof/Laws/State.lean ====
section
/-! SUPPORT. The basic updates of the state, field by field: the field an update writes takes the new value, and every other field
stays. Each is true by unfolding the update, and no later proof has to unfold one. -/

namespace Sys2Proof.Machine

/-! ### modSlot -/

@[simp] theorem modSlot_clock (s : State) (i : Nat) (f : Slot → Slot) : (s.modSlot i f).clock = s.clock := rfl
@[simp] theorem modSlot_port (s : State) (i : Nat) (f : Slot → Slot) : (s.modSlot i f).port = s.port := rfl
@[simp] theorem modSlot_slot (s : State) (i : Nat) (f : Slot → Slot) : (s.modSlot i f).slot = s.slot := rfl
@[simp] theorem modSlot_slots (s : State) (i : Nat) (f : Slot → Slot) : (s.modSlot i f).slots = s.slots.modify i f := rfl
@[simp] theorem modSlot_pool (s : State) (i : Nat) (f : Slot → Slot) : (s.modSlot i f).pool = s.pool := rfl
@[simp] theorem modSlot_queue (s : State) (i : Nat) (f : Slot → Slot) : (s.modSlot i f).queue = s.queue := rfl
@[simp] theorem modSlot_media (s : State) (i : Nat) (f : Slot → Slot) : (s.modSlot i f).media = s.media := rfl
@[simp] theorem modSlot_table (s : State) (i : Nat) (f : Slot → Slot) : (s.modSlot i f).table = s.table := rfl
@[simp] theorem modSlot_log (s : State) (i : Nat) (f : Slot → Slot) : (s.modSlot i f).log = s.log := rfl
@[simp] theorem modSlot_formatRun (s : State) (i : Nat) (f : Slot → Slot) : (s.modSlot i f).formatRun = s.formatRun := rfl
@[simp] theorem modSlot_engine (s : State) (i : Nat) (f : Slot → Slot) : (s.modSlot i f).engine = s.engine := rfl
@[simp] theorem modSlot_stores (s : State) (i : Nat) (f : Slot → Slot) : (s.modSlot i f).stores = s.stores := rfl
@[simp] theorem modSlot_sampler (s : State) (i : Nat) (f : Slot → Slot) : (s.modSlot i f).sampler = s.sampler := rfl
@[simp] theorem modSlot_monitor (s : State) (i : Nat) (f : Slot → Slot) : (s.modSlot i f).monitor = s.monitor := rfl
@[simp] theorem modSlot_gauge (s : State) (i : Nat) (f : Slot → Slot) : (s.modSlot i f).gauge = s.gauge := rfl
@[simp] theorem modSlot_power (s : State) (i : Nat) (f : Slot → Slot) : (s.modSlot i f).power = s.power := rfl
@[simp] theorem modSlot_mount (s : State) (i : Nat) (f : Slot → Slot) : (s.modSlot i f).mount = s.mount := rfl
@[simp] theorem modSlot_freeCount (s : State) (i : Nat) (f : Slot → Slot) : (s.modSlot i f).freeCount = s.freeCount := rfl
@[simp] theorem modSlot_pending (s : State) (i : Nat) (f : Slot → Slot) : (s.modSlot i f).pending = s.pending := rfl

/-! ### modBuffer -/

@[simp] theorem modBuffer_clock (s : State) (b : Nat) (f : Buffer → Buffer) : (s.modBuffer b f).clock = s.clock := rfl
@[simp] theorem modBuffer_port (s : State) (b : Nat) (f : Buffer → Buffer) : (s.modBuffer b f).port = s.port := rfl
@[simp] theorem modBuffer_slot (s : State) (b : Nat) (f : Buffer → Buffer) : (s.modBuffer b f).slot = s.slot := rfl
@[simp] theorem modBuffer_slots (s : State) (b : Nat) (f : Buffer → Buffer) : (s.modBuffer b f).slots = s.slots := rfl
@[simp] theorem modBuffer_pool (s : State) (b : Nat) (f : Buffer → Buffer) :
    (s.modBuffer b f).pool = { s.pool with buffers := s.pool.buffers.modify b f } := rfl
@[simp] theorem modBuffer_queue (s : State) (b : Nat) (f : Buffer → Buffer) : (s.modBuffer b f).queue = s.queue := rfl
@[simp] theorem modBuffer_media (s : State) (b : Nat) (f : Buffer → Buffer) : (s.modBuffer b f).media = s.media := rfl
@[simp] theorem modBuffer_table (s : State) (b : Nat) (f : Buffer → Buffer) : (s.modBuffer b f).table = s.table := rfl
@[simp] theorem modBuffer_log (s : State) (b : Nat) (f : Buffer → Buffer) : (s.modBuffer b f).log = s.log := rfl
@[simp] theorem modBuffer_formatRun (s : State) (b : Nat) (f : Buffer → Buffer) : (s.modBuffer b f).formatRun = s.formatRun := rfl
@[simp] theorem modBuffer_engine (s : State) (b : Nat) (f : Buffer → Buffer) : (s.modBuffer b f).engine = s.engine := rfl
@[simp] theorem modBuffer_stores (s : State) (b : Nat) (f : Buffer → Buffer) : (s.modBuffer b f).stores = s.stores := rfl
@[simp] theorem modBuffer_sampler (s : State) (b : Nat) (f : Buffer → Buffer) : (s.modBuffer b f).sampler = s.sampler := rfl
@[simp] theorem modBuffer_monitor (s : State) (b : Nat) (f : Buffer → Buffer) : (s.modBuffer b f).monitor = s.monitor := rfl
@[simp] theorem modBuffer_gauge (s : State) (b : Nat) (f : Buffer → Buffer) : (s.modBuffer b f).gauge = s.gauge := rfl
@[simp] theorem modBuffer_power (s : State) (b : Nat) (f : Buffer → Buffer) : (s.modBuffer b f).power = s.power := rfl
@[simp] theorem modBuffer_mount (s : State) (b : Nat) (f : Buffer → Buffer) : (s.modBuffer b f).mount = s.mount := rfl
@[simp] theorem modBuffer_freeCount (s : State) (b : Nat) (f : Buffer → Buffer) : (s.modBuffer b f).freeCount = s.freeCount := rfl
@[simp] theorem modBuffer_pending (s : State) (b : Nat) (f : Buffer → Buffer) : (s.modBuffer b f).pending = s.pending := rfl

/-! ### releaseBuffer -/

@[simp] theorem releaseBuffer_clock (s : State) (b : Nat) : (s.releaseBuffer b).clock = s.clock := rfl
@[simp] theorem releaseBuffer_port (s : State) (b : Nat) : (s.releaseBuffer b).port = s.port := rfl
@[simp] theorem releaseBuffer_slot (s : State) (b : Nat) : (s.releaseBuffer b).slot = s.slot := rfl
@[simp] theorem releaseBuffer_slots (s : State) (b : Nat) : (s.releaseBuffer b).slots = s.slots := rfl
@[simp] theorem releaseBuffer_pool (s : State) (b : Nat) :
    (s.releaseBuffer b).pool = { s.pool with buffers := s.pool.buffers.modify b (fun x => { x with state := .free }) } := rfl
@[simp] theorem releaseBuffer_queue (s : State) (b : Nat) : (s.releaseBuffer b).queue = s.queue := rfl
@[simp] theorem releaseBuffer_media (s : State) (b : Nat) : (s.releaseBuffer b).media = s.media := rfl
@[simp] theorem releaseBuffer_table (s : State) (b : Nat) : (s.releaseBuffer b).table = s.table := rfl
@[simp] theorem releaseBuffer_log (s : State) (b : Nat) : (s.releaseBuffer b).log = s.log := rfl
@[simp] theorem releaseBuffer_formatRun (s : State) (b : Nat) : (s.releaseBuffer b).formatRun = s.formatRun := rfl
@[simp] theorem releaseBuffer_engine (s : State) (b : Nat) : (s.releaseBuffer b).engine = s.engine := rfl
@[simp] theorem releaseBuffer_stores (s : State) (b : Nat) : (s.releaseBuffer b).stores = s.stores := rfl
@[simp] theorem releaseBuffer_sampler (s : State) (b : Nat) : (s.releaseBuffer b).sampler = s.sampler := rfl
@[simp] theorem releaseBuffer_monitor (s : State) (b : Nat) : (s.releaseBuffer b).monitor = s.monitor := rfl
@[simp] theorem releaseBuffer_gauge (s : State) (b : Nat) : (s.releaseBuffer b).gauge = s.gauge := rfl
@[simp] theorem releaseBuffer_power (s : State) (b : Nat) : (s.releaseBuffer b).power = s.power := rfl
@[simp] theorem releaseBuffer_mount (s : State) (b : Nat) : (s.releaseBuffer b).mount = s.mount := rfl
@[simp] theorem releaseBuffer_freeCount (s : State) (b : Nat) : (s.releaseBuffer b).freeCount = s.freeCount := rfl
@[simp] theorem releaseBuffer_pending (s : State) (b : Nat) : (s.releaseBuffer b).pending = s.pending := rfl

/-! ### modSeg -/

@[simp] theorem modSeg_clock (s : State) (g : Nat) (f : Segment → Segment) : (s.modSeg g f).clock = s.clock := rfl
@[simp] theorem modSeg_port (s : State) (g : Nat) (f : Segment → Segment) : (s.modSeg g f).port = s.port := rfl
@[simp] theorem modSeg_slot (s : State) (g : Nat) (f : Segment → Segment) : (s.modSeg g f).slot = s.slot := rfl
@[simp] theorem modSeg_slots (s : State) (g : Nat) (f : Segment → Segment) : (s.modSeg g f).slots = s.slots := rfl
@[simp] theorem modSeg_pool (s : State) (g : Nat) (f : Segment → Segment) : (s.modSeg g f).pool = s.pool := rfl
@[simp] theorem modSeg_queue (s : State) (g : Nat) (f : Segment → Segment) : (s.modSeg g f).queue = s.queue := rfl
@[simp] theorem modSeg_media (s : State) (g : Nat) (f : Segment → Segment) :
    (s.modSeg g f).media = { s.media with segs := s.media.segs.modify g f } := rfl
@[simp] theorem modSeg_table (s : State) (g : Nat) (f : Segment → Segment) : (s.modSeg g f).table = s.table := rfl
@[simp] theorem modSeg_log (s : State) (g : Nat) (f : Segment → Segment) : (s.modSeg g f).log = s.log := rfl
@[simp] theorem modSeg_formatRun (s : State) (g : Nat) (f : Segment → Segment) : (s.modSeg g f).formatRun = s.formatRun := rfl
@[simp] theorem modSeg_engine (s : State) (g : Nat) (f : Segment → Segment) : (s.modSeg g f).engine = s.engine := rfl
@[simp] theorem modSeg_stores (s : State) (g : Nat) (f : Segment → Segment) : (s.modSeg g f).stores = s.stores := rfl
@[simp] theorem modSeg_sampler (s : State) (g : Nat) (f : Segment → Segment) : (s.modSeg g f).sampler = s.sampler := rfl
@[simp] theorem modSeg_monitor (s : State) (g : Nat) (f : Segment → Segment) : (s.modSeg g f).monitor = s.monitor := rfl
@[simp] theorem modSeg_gauge (s : State) (g : Nat) (f : Segment → Segment) : (s.modSeg g f).gauge = s.gauge := rfl
@[simp] theorem modSeg_power (s : State) (g : Nat) (f : Segment → Segment) : (s.modSeg g f).power = s.power := rfl
@[simp] theorem modSeg_mount (s : State) (g : Nat) (f : Segment → Segment) : (s.modSeg g f).mount = s.mount := rfl
@[simp] theorem modSeg_freeCount (s : State) (g : Nat) (f : Segment → Segment) : (s.modSeg g f).freeCount = s.freeCount := rfl
@[simp] theorem modSeg_pending (s : State) (g : Nat) (f : Segment → Segment) : (s.modSeg g f).pending = s.pending := rfl

/-! ### modChain -/

@[simp] theorem modChain_clock (s : State) (g : Nat) (f : ChainInfo → ChainInfo) : (s.modChain g f).clock = s.clock := rfl
@[simp] theorem modChain_port (s : State) (g : Nat) (f : ChainInfo → ChainInfo) : (s.modChain g f).port = s.port := rfl
@[simp] theorem modChain_slot (s : State) (g : Nat) (f : ChainInfo → ChainInfo) : (s.modChain g f).slot = s.slot := rfl
@[simp] theorem modChain_slots (s : State) (g : Nat) (f : ChainInfo → ChainInfo) : (s.modChain g f).slots = s.slots := rfl
@[simp] theorem modChain_pool (s : State) (g : Nat) (f : ChainInfo → ChainInfo) : (s.modChain g f).pool = s.pool := rfl
@[simp] theorem modChain_queue (s : State) (g : Nat) (f : ChainInfo → ChainInfo) : (s.modChain g f).queue = s.queue := rfl
@[simp] theorem modChain_media (s : State) (g : Nat) (f : ChainInfo → ChainInfo) :
    (s.modChain g f).media = { s.media with segs := s.media.segs.modify g (fun x => { x with chain := x.chain.map f }) } := rfl
@[simp] theorem modChain_table (s : State) (g : Nat) (f : ChainInfo → ChainInfo) : (s.modChain g f).table = s.table := rfl
@[simp] theorem modChain_log (s : State) (g : Nat) (f : ChainInfo → ChainInfo) : (s.modChain g f).log = s.log := rfl
@[simp] theorem modChain_formatRun (s : State) (g : Nat) (f : ChainInfo → ChainInfo) :
    (s.modChain g f).formatRun = s.formatRun := rfl
@[simp] theorem modChain_engine (s : State) (g : Nat) (f : ChainInfo → ChainInfo) : (s.modChain g f).engine = s.engine := rfl
@[simp] theorem modChain_stores (s : State) (g : Nat) (f : ChainInfo → ChainInfo) : (s.modChain g f).stores = s.stores := rfl
@[simp] theorem modChain_sampler (s : State) (g : Nat) (f : ChainInfo → ChainInfo) : (s.modChain g f).sampler = s.sampler := rfl
@[simp] theorem modChain_monitor (s : State) (g : Nat) (f : ChainInfo → ChainInfo) : (s.modChain g f).monitor = s.monitor := rfl
@[simp] theorem modChain_gauge (s : State) (g : Nat) (f : ChainInfo → ChainInfo) : (s.modChain g f).gauge = s.gauge := rfl
@[simp] theorem modChain_power (s : State) (g : Nat) (f : ChainInfo → ChainInfo) : (s.modChain g f).power = s.power := rfl
@[simp] theorem modChain_mount (s : State) (g : Nat) (f : ChainInfo → ChainInfo) : (s.modChain g f).mount = s.mount := rfl
@[simp] theorem modChain_freeCount (s : State) (g : Nat) (f : ChainInfo → ChainInfo) :
    (s.modChain g f).freeCount = s.freeCount := rfl
@[simp] theorem modChain_pending (s : State) (g : Nat) (f : ChainInfo → ChainInfo) : (s.modChain g f).pending = s.pending := rfl

/-! ### setSegState -/

@[simp] theorem setSegState_clock (s : State) (g : Nat) (t : SegState) : (s.setSegState g t).clock = s.clock := rfl
@[simp] theorem setSegState_port (s : State) (g : Nat) (t : SegState) : (s.setSegState g t).port = s.port := rfl
@[simp] theorem setSegState_slot (s : State) (g : Nat) (t : SegState) : (s.setSegState g t).slot = s.slot := rfl
@[simp] theorem setSegState_slots (s : State) (g : Nat) (t : SegState) : (s.setSegState g t).slots = s.slots := rfl
@[simp] theorem setSegState_pool (s : State) (g : Nat) (t : SegState) : (s.setSegState g t).pool = s.pool := rfl
@[simp] theorem setSegState_queue (s : State) (g : Nat) (t : SegState) : (s.setSegState g t).queue = s.queue := rfl
@[simp] theorem setSegState_media (s : State) (g : Nat) (t : SegState) :
    (s.setSegState g t).media = { s.media with segs := s.media.segs.modify g (fun x => { x with state := t }) } := rfl
@[simp] theorem setSegState_table (s : State) (g : Nat) (t : SegState) : (s.setSegState g t).table = s.table := rfl
@[simp] theorem setSegState_log (s : State) (g : Nat) (t : SegState) : (s.setSegState g t).log = s.log := rfl
@[simp] theorem setSegState_formatRun (s : State) (g : Nat) (t : SegState) : (s.setSegState g t).formatRun = s.formatRun := rfl
@[simp] theorem setSegState_engine (s : State) (g : Nat) (t : SegState) : (s.setSegState g t).engine = s.engine := rfl
@[simp] theorem setSegState_stores (s : State) (g : Nat) (t : SegState) : (s.setSegState g t).stores = s.stores := rfl
@[simp] theorem setSegState_sampler (s : State) (g : Nat) (t : SegState) : (s.setSegState g t).sampler = s.sampler := rfl
@[simp] theorem setSegState_monitor (s : State) (g : Nat) (t : SegState) : (s.setSegState g t).monitor = s.monitor := rfl
@[simp] theorem setSegState_gauge (s : State) (g : Nat) (t : SegState) : (s.setSegState g t).gauge = s.gauge := rfl
@[simp] theorem setSegState_power (s : State) (g : Nat) (t : SegState) : (s.setSegState g t).power = s.power := rfl
@[simp] theorem setSegState_mount (s : State) (g : Nat) (t : SegState) : (s.setSegState g t).mount = s.mount := rfl
@[simp] theorem setSegState_freeCount (s : State) (g : Nat) (t : SegState) : (s.setSegState g t).freeCount = s.freeCount := rfl
@[simp] theorem setSegState_pending (s : State) (g : Nat) (t : SegState) : (s.setSegState g t).pending = s.pending := rfl

/-! ### modSurvey -/

@[simp] theorem modSurvey_clock (s : State) (n : Nat) (f : Survey → Survey) : (s.modSurvey n f).clock = s.clock := rfl
@[simp] theorem modSurvey_port (s : State) (n : Nat) (f : Survey → Survey) : (s.modSurvey n f).port = s.port := rfl
@[simp] theorem modSurvey_slot (s : State) (n : Nat) (f : Survey → Survey) : (s.modSurvey n f).slot = s.slot := rfl
@[simp] theorem modSurvey_slots (s : State) (n : Nat) (f : Survey → Survey) : (s.modSurvey n f).slots = s.slots := rfl
@[simp] theorem modSurvey_pool (s : State) (n : Nat) (f : Survey → Survey) : (s.modSurvey n f).pool = s.pool := rfl
@[simp] theorem modSurvey_queue (s : State) (n : Nat) (f : Survey → Survey) : (s.modSurvey n f).queue = s.queue := rfl
@[simp] theorem modSurvey_media (s : State) (n : Nat) (f : Survey → Survey) : (s.modSurvey n f).media = s.media := rfl
@[simp] theorem modSurvey_table (s : State) (n : Nat) (f : Survey → Survey) :
    (s.modSurvey n f).table = { s.table with surveys := s.table.surveys.map (fun v => if v.number = n then f v else v) } := rfl
@[simp] theorem modSurvey_log (s : State) (n : Nat) (f : Survey → Survey) : (s.modSurvey n f).log = s.log := rfl
@[simp] theorem modSurvey_formatRun (s : State) (n : Nat) (f : Survey → Survey) : (s.modSurvey n f).formatRun = s.formatRun := rfl
@[simp] theorem modSurvey_engine (s : State) (n : Nat) (f : Survey → Survey) : (s.modSurvey n f).engine = s.engine := rfl
@[simp] theorem modSurvey_stores (s : State) (n : Nat) (f : Survey → Survey) : (s.modSurvey n f).stores = s.stores := rfl
@[simp] theorem modSurvey_sampler (s : State) (n : Nat) (f : Survey → Survey) : (s.modSurvey n f).sampler = s.sampler := rfl
@[simp] theorem modSurvey_monitor (s : State) (n : Nat) (f : Survey → Survey) : (s.modSurvey n f).monitor = s.monitor := rfl
@[simp] theorem modSurvey_gauge (s : State) (n : Nat) (f : Survey → Survey) : (s.modSurvey n f).gauge = s.gauge := rfl
@[simp] theorem modSurvey_power (s : State) (n : Nat) (f : Survey → Survey) : (s.modSurvey n f).power = s.power := rfl
@[simp] theorem modSurvey_mount (s : State) (n : Nat) (f : Survey → Survey) : (s.modSurvey n f).mount = s.mount := rfl
@[simp] theorem modSurvey_freeCount (s : State) (n : Nat) (f : Survey → Survey) : (s.modSurvey n f).freeCount = s.freeCount := rfl
@[simp] theorem modSurvey_pending (s : State) (n : Nat) (f : Survey → Survey) : (s.modSurvey n f).pending = s.pending := rfl

/-! ### modEntry -/

@[simp] theorem modEntry_clock (s : State) (b : Nat) (f : Entry → Entry) : (s.modEntry b f).clock = s.clock := rfl
@[simp] theorem modEntry_port (s : State) (b : Nat) (f : Entry → Entry) : (s.modEntry b f).port = s.port := rfl
@[simp] theorem modEntry_slot (s : State) (b : Nat) (f : Entry → Entry) : (s.modEntry b f).slot = s.slot := rfl
@[simp] theorem modEntry_slots (s : State) (b : Nat) (f : Entry → Entry) : (s.modEntry b f).slots = s.slots := rfl
@[simp] theorem modEntry_pool (s : State) (b : Nat) (f : Entry → Entry) : (s.modEntry b f).pool = s.pool := rfl
@[simp] theorem modEntry_queue (s : State) (b : Nat) (f : Entry → Entry) :
    (s.modEntry b f).queue = s.queue.map (fun e => if e.buffer = b then f e else e) := rfl
@[simp] theorem modEntry_media (s : State) (b : Nat) (f : Entry → Entry) : (s.modEntry b f).media = s.media := rfl
@[simp] theorem modEntry_table (s : State) (b : Nat) (f : Entry → Entry) : (s.modEntry b f).table = s.table := rfl
@[simp] theorem modEntry_log (s : State) (b : Nat) (f : Entry → Entry) : (s.modEntry b f).log = s.log := rfl
@[simp] theorem modEntry_formatRun (s : State) (b : Nat) (f : Entry → Entry) : (s.modEntry b f).formatRun = s.formatRun := rfl
@[simp] theorem modEntry_engine (s : State) (b : Nat) (f : Entry → Entry) : (s.modEntry b f).engine = s.engine := rfl
@[simp] theorem modEntry_stores (s : State) (b : Nat) (f : Entry → Entry) : (s.modEntry b f).stores = s.stores := rfl
@[simp] theorem modEntry_sampler (s : State) (b : Nat) (f : Entry → Entry) : (s.modEntry b f).sampler = s.sampler := rfl
@[simp] theorem modEntry_monitor (s : State) (b : Nat) (f : Entry → Entry) : (s.modEntry b f).monitor = s.monitor := rfl
@[simp] theorem modEntry_gauge (s : State) (b : Nat) (f : Entry → Entry) : (s.modEntry b f).gauge = s.gauge := rfl
@[simp] theorem modEntry_power (s : State) (b : Nat) (f : Entry → Entry) : (s.modEntry b f).power = s.power := rfl
@[simp] theorem modEntry_mount (s : State) (b : Nat) (f : Entry → Entry) : (s.modEntry b f).mount = s.mount := rfl
@[simp] theorem modEntry_freeCount (s : State) (b : Nat) (f : Entry → Entry) : (s.modEntry b f).freeCount = s.freeCount := rfl
@[simp] theorem modEntry_pending (s : State) (b : Nat) (f : Entry → Entry) : (s.modEntry b f).pending = s.pending := rfl

/-! ### pushReply -/

@[simp] theorem pushReply_clock (s : State) (r : Reply) : (s.pushReply r).clock = s.clock := rfl
@[simp] theorem pushReply_port (s : State) (r : Reply) :
    (s.pushReply r).port = { s.port with tx := s.port.tx ++ [.reply r] } := rfl
@[simp] theorem pushReply_slot (s : State) (r : Reply) : (s.pushReply r).slot = s.slot := rfl
@[simp] theorem pushReply_slots (s : State) (r : Reply) : (s.pushReply r).slots = s.slots := rfl
@[simp] theorem pushReply_pool (s : State) (r : Reply) : (s.pushReply r).pool = s.pool := rfl
@[simp] theorem pushReply_queue (s : State) (r : Reply) : (s.pushReply r).queue = s.queue := rfl
@[simp] theorem pushReply_media (s : State) (r : Reply) : (s.pushReply r).media = s.media := rfl
@[simp] theorem pushReply_table (s : State) (r : Reply) : (s.pushReply r).table = s.table := rfl
@[simp] theorem pushReply_log (s : State) (r : Reply) : (s.pushReply r).log = s.log := rfl
@[simp] theorem pushReply_formatRun (s : State) (r : Reply) : (s.pushReply r).formatRun = s.formatRun := rfl
@[simp] theorem pushReply_engine (s : State) (r : Reply) : (s.pushReply r).engine = s.engine := rfl
@[simp] theorem pushReply_stores (s : State) (r : Reply) : (s.pushReply r).stores = s.stores := rfl
@[simp] theorem pushReply_sampler (s : State) (r : Reply) : (s.pushReply r).sampler = s.sampler := rfl
@[simp] theorem pushReply_monitor (s : State) (r : Reply) : (s.pushReply r).monitor = s.monitor := rfl
@[simp] theorem pushReply_gauge (s : State) (r : Reply) : (s.pushReply r).gauge = s.gauge := rfl
@[simp] theorem pushReply_power (s : State) (r : Reply) : (s.pushReply r).power = s.power := rfl
@[simp] theorem pushReply_mount (s : State) (r : Reply) : (s.pushReply r).mount = s.mount := rfl
@[simp] theorem pushReply_freeCount (s : State) (r : Reply) : (s.pushReply r).freeCount = s.freeCount := rfl
@[simp] theorem pushReply_pending (s : State) (r : Reply) : (s.pushReply r).pending = s.pending := rfl

/-! ### countPort -/

@[simp] theorem countPort_clock (s : State) (f : PortCounts → PortCounts) : (s.countPort f).clock = s.clock := rfl
@[simp] theorem countPort_port (s : State) (f : PortCounts → PortCounts) :
    (s.countPort f).port = { s.port with counts := f s.port.counts } := rfl
@[simp] theorem countPort_slot (s : State) (f : PortCounts → PortCounts) : (s.countPort f).slot = s.slot := rfl
@[simp] theorem countPort_slots (s : State) (f : PortCounts → PortCounts) : (s.countPort f).slots = s.slots := rfl
@[simp] theorem countPort_pool (s : State) (f : PortCounts → PortCounts) : (s.countPort f).pool = s.pool := rfl
@[simp] theorem countPort_queue (s : State) (f : PortCounts → PortCounts) : (s.countPort f).queue = s.queue := rfl
@[simp] theorem countPort_media (s : State) (f : PortCounts → PortCounts) : (s.countPort f).media = s.media := rfl
@[simp] theorem countPort_table (s : State) (f : PortCounts → PortCounts) : (s.countPort f).table = s.table := rfl
@[simp] theorem countPort_log (s : State) (f : PortCounts → PortCounts) : (s.countPort f).log = s.log := rfl
@[simp] theorem countPort_formatRun (s : State) (f : PortCounts → PortCounts) : (s.countPort f).formatRun = s.formatRun := rfl
@[simp] theorem countPort_engine (s : State) (f : PortCounts → PortCounts) : (s.countPort f).engine = s.engine := rfl
@[simp] theorem countPort_stores (s : State) (f : PortCounts → PortCounts) : (s.countPort f).stores = s.stores := rfl
@[simp] theorem countPort_sampler (s : State) (f : PortCounts → PortCounts) : (s.countPort f).sampler = s.sampler := rfl
@[simp] theorem countPort_monitor (s : State) (f : PortCounts → PortCounts) : (s.countPort f).monitor = s.monitor := rfl
@[simp] theorem countPort_gauge (s : State) (f : PortCounts → PortCounts) : (s.countPort f).gauge = s.gauge := rfl
@[simp] theorem countPort_power (s : State) (f : PortCounts → PortCounts) : (s.countPort f).power = s.power := rfl
@[simp] theorem countPort_mount (s : State) (f : PortCounts → PortCounts) : (s.countPort f).mount = s.mount := rfl
@[simp] theorem countPort_freeCount (s : State) (f : PortCounts → PortCounts) : (s.countPort f).freeCount = s.freeCount := rfl
@[simp] theorem countPort_pending (s : State) (f : PortCounts → PortCounts) : (s.countPort f).pending = s.pending := rfl

/-! ### judgeHold -/

@[simp] theorem judgeHold_clock (s : State) : (s.judgeHold).clock = s.clock := rfl
@[simp] theorem judgeHold_port (s : State) : (s.judgeHold).port = { s.port with hold := s.holdWanted } := rfl
@[simp] theorem judgeHold_slot (s : State) : (s.judgeHold).slot = s.slot := rfl
@[simp] theorem judgeHold_slots (s : State) : (s.judgeHold).slots = s.slots := rfl
@[simp] theorem judgeHold_pool (s : State) : (s.judgeHold).pool = s.pool := rfl
@[simp] theorem judgeHold_queue (s : State) : (s.judgeHold).queue = s.queue := rfl
@[simp] theorem judgeHold_media (s : State) : (s.judgeHold).media = s.media := rfl
@[simp] theorem judgeHold_table (s : State) : (s.judgeHold).table = s.table := rfl
@[simp] theorem judgeHold_log (s : State) : (s.judgeHold).log = s.log := rfl
@[simp] theorem judgeHold_formatRun (s : State) : (s.judgeHold).formatRun = s.formatRun := rfl
@[simp] theorem judgeHold_engine (s : State) : (s.judgeHold).engine = s.engine := rfl
@[simp] theorem judgeHold_stores (s : State) : (s.judgeHold).stores = s.stores := rfl
@[simp] theorem judgeHold_sampler (s : State) : (s.judgeHold).sampler = s.sampler := rfl
@[simp] theorem judgeHold_monitor (s : State) : (s.judgeHold).monitor = s.monitor := rfl
@[simp] theorem judgeHold_gauge (s : State) : (s.judgeHold).gauge = s.gauge := rfl
@[simp] theorem judgeHold_power (s : State) : (s.judgeHold).power = s.power := rfl
@[simp] theorem judgeHold_mount (s : State) : (s.judgeHold).mount = s.mount := rfl
@[simp] theorem judgeHold_freeCount (s : State) : (s.judgeHold).freeCount = s.freeCount := rfl
@[simp] theorem judgeHold_pending (s : State) : (s.judgeHold).pending = s.pending := rfl

/-! ### modMonitor -/

@[simp] theorem modMonitor_clock (s : State) (f : Monitor → Monitor) : (s.modMonitor f).clock = s.clock := rfl
@[simp] theorem modMonitor_port (s : State) (f : Monitor → Monitor) : (s.modMonitor f).port = s.port := rfl
@[simp] theorem modMonitor_slot (s : State) (f : Monitor → Monitor) : (s.modMonitor f).slot = s.slot := rfl
@[simp] theorem modMonitor_slots (s : State) (f : Monitor → Monitor) : (s.modMonitor f).slots = s.slots := rfl
@[simp] theorem modMonitor_pool (s : State) (f : Monitor → Monitor) : (s.modMonitor f).pool = s.pool := rfl
@[simp] theorem modMonitor_queue (s : State) (f : Monitor → Monitor) : (s.modMonitor f).queue = s.queue := rfl
@[simp] theorem modMonitor_media (s : State) (f : Monitor → Monitor) : (s.modMonitor f).media = s.media := rfl
@[simp] theorem modMonitor_table (s : State) (f : Monitor → Monitor) : (s.modMonitor f).table = s.table := rfl
@[simp] theorem modMonitor_log (s : State) (f : Monitor → Monitor) : (s.modMonitor f).log = s.log := rfl
@[simp] theorem modMonitor_formatRun (s : State) (f : Monitor → Monitor) : (s.modMonitor f).formatRun = s.formatRun := rfl
@[simp] theorem modMonitor_engine (s : State) (f : Monitor → Monitor) : (s.modMonitor f).engine = s.engine := rfl
@[simp] theorem modMonitor_stores (s : State) (f : Monitor → Monitor) : (s.modMonitor f).stores = s.stores := rfl
@[simp] theorem modMonitor_sampler (s : State) (f : Monitor → Monitor) : (s.modMonitor f).sampler = s.sampler := rfl
@[simp] theorem modMonitor_monitor (s : State) (f : Monitor → Monitor) : (s.modMonitor f).monitor = f s.monitor := rfl
@[simp] theorem modMonitor_gauge (s : State) (f : Monitor → Monitor) : (s.modMonitor f).gauge = s.gauge := rfl
@[simp] theorem modMonitor_power (s : State) (f : Monitor → Monitor) : (s.modMonitor f).power = s.power := rfl
@[simp] theorem modMonitor_mount (s : State) (f : Monitor → Monitor) : (s.modMonitor f).mount = s.mount := rfl
@[simp] theorem modMonitor_freeCount (s : State) (f : Monitor → Monitor) : (s.modMonitor f).freeCount = s.freeCount := rfl
@[simp] theorem modMonitor_pending (s : State) (f : Monitor → Monitor) : (s.modMonitor f).pending = s.pending := rfl

/-! ### modDrop -/

@[simp] theorem modDrop_clock (s : State) (f : DropRecord → DropRecord) : (s.modDrop f).clock = s.clock := rfl
@[simp] theorem modDrop_port (s : State) (f : DropRecord → DropRecord) : (s.modDrop f).port = s.port := rfl
@[simp] theorem modDrop_slot (s : State) (f : DropRecord → DropRecord) : (s.modDrop f).slot = s.slot := rfl
@[simp] theorem modDrop_slots (s : State) (f : DropRecord → DropRecord) : (s.modDrop f).slots = s.slots := rfl
@[simp] theorem modDrop_pool (s : State) (f : DropRecord → DropRecord) : (s.modDrop f).pool = s.pool := rfl
@[simp] theorem modDrop_queue (s : State) (f : DropRecord → DropRecord) : (s.modDrop f).queue = s.queue := rfl
@[simp] theorem modDrop_media (s : State) (f : DropRecord → DropRecord) : (s.modDrop f).media = s.media := rfl
@[simp] theorem modDrop_table (s : State) (f : DropRecord → DropRecord) : (s.modDrop f).table = s.table := rfl
@[simp] theorem modDrop_log (s : State) (f : DropRecord → DropRecord) : (s.modDrop f).log = s.log := rfl
@[simp] theorem modDrop_formatRun (s : State) (f : DropRecord → DropRecord) : (s.modDrop f).formatRun = s.formatRun := rfl
@[simp] theorem modDrop_engine (s : State) (f : DropRecord → DropRecord) : (s.modDrop f).engine = s.engine := rfl
@[simp] theorem modDrop_stores (s : State) (f : DropRecord → DropRecord) : (s.modDrop f).stores = s.stores := rfl
@[simp] theorem modDrop_sampler (s : State) (f : DropRecord → DropRecord) : (s.modDrop f).sampler = s.sampler := rfl
@[simp] theorem modDrop_monitor (s : State) (f : DropRecord → DropRecord) :
    (s.modDrop f).monitor = { s.monitor with drop := s.monitor.drop.map f } := rfl
@[simp] theorem modDrop_gauge (s : State) (f : DropRecord → DropRecord) : (s.modDrop f).gauge = s.gauge := rfl
@[simp] theorem modDrop_power (s : State) (f : DropRecord → DropRecord) : (s.modDrop f).power = s.power := rfl
@[simp] theorem modDrop_mount (s : State) (f : DropRecord → DropRecord) : (s.modDrop f).mount = s.mount := rfl
@[simp] theorem modDrop_freeCount (s : State) (f : DropRecord → DropRecord) : (s.modDrop f).freeCount = s.freeCount := rfl
@[simp] theorem modDrop_pending (s : State) (f : DropRecord → DropRecord) : (s.modDrop f).pending = s.pending := rfl

/-! ### setHold -/

@[simp] theorem setHold_clock (s : State) (h : Bool) : (s.setHold h).clock = s.clock := rfl
@[simp] theorem setHold_port (s : State) (h : Bool) : (s.setHold h).port = s.port := rfl
@[simp] theorem setHold_slot (s : State) (h : Bool) : (s.setHold h).slot = s.slot := rfl
@[simp] theorem setHold_slots (s : State) (h : Bool) : (s.setHold h).slots = s.slots := rfl
@[simp] theorem setHold_pool (s : State) (h : Bool) : (s.setHold h).pool = s.pool := rfl
@[simp] theorem setHold_queue (s : State) (h : Bool) : (s.setHold h).queue = s.queue := rfl
@[simp] theorem setHold_media (s : State) (h : Bool) : (s.setHold h).media = { s.media with hold := h } := rfl
@[simp] theorem setHold_table (s : State) (h : Bool) : (s.setHold h).table = s.table := rfl
@[simp] theorem setHold_log (s : State) (h : Bool) : (s.setHold h).log = s.log := rfl
@[simp] theorem setHold_formatRun (s : State) (h : Bool) : (s.setHold h).formatRun = s.formatRun := rfl
@[simp] theorem setHold_engine (s : State) (h : Bool) : (s.setHold h).engine = s.engine := rfl
@[simp] theorem setHold_stores (s : State) (h : Bool) : (s.setHold h).stores = s.stores := rfl
@[simp] theorem setHold_sampler (s : State) (h : Bool) : (s.setHold h).sampler = s.sampler := rfl
@[simp] theorem setHold_monitor (s : State) (h : Bool) : (s.setHold h).monitor = s.monitor := rfl
@[simp] theorem setHold_gauge (s : State) (h : Bool) : (s.setHold h).gauge = s.gauge := rfl
@[simp] theorem setHold_power (s : State) (h : Bool) : (s.setHold h).power = s.power := rfl
@[simp] theorem setHold_mount (s : State) (h : Bool) : (s.setHold h).mount = s.mount := rfl
@[simp] theorem setHold_freeCount (s : State) (h : Bool) : (s.setHold h).freeCount = s.freeCount := rfl
@[simp] theorem setHold_pending (s : State) (h : Bool) : (s.setHold h).pending = s.pending := rfl

/-! ### startOp -/

@[simp] theorem startOp_clock (s : State) (op : MediaOp) (image : Option PageImage) : (s.startOp op image).clock = s.clock := rfl
@[simp] theorem startOp_port (s : State) (op : MediaOp) (image : Option PageImage) : (s.startOp op image).port = s.port := rfl
@[simp] theorem startOp_slot (s : State) (op : MediaOp) (image : Option PageImage) : (s.startOp op image).slot = s.slot := rfl
@[simp] theorem startOp_slots (s : State) (op : MediaOp) (image : Option PageImage) : (s.startOp op image).slots = s.slots := rfl
@[simp] theorem startOp_pool (s : State) (op : MediaOp) (image : Option PageImage) : (s.startOp op image).pool = s.pool := rfl
@[simp] theorem startOp_queue (s : State) (op : MediaOp) (image : Option PageImage) : (s.startOp op image).queue = s.queue := rfl
@[simp] theorem startOp_media (s : State) (op : MediaOp) (image : Option PageImage) :
    (s.startOp op image).media = { s.media with op := some op, image := image } := rfl
@[simp] theorem startOp_table (s : State) (op : MediaOp) (image : Option PageImage) : (s.startOp op image).table = s.table := rfl
@[simp] theorem startOp_log (s : State) (op : MediaOp) (image : Option PageImage) : (s.startOp op image).log = s.log := rfl
@[simp] theorem startOp_formatRun (s : State) (op : MediaOp) (image : Option PageImage) :
    (s.startOp op image).formatRun = s.formatRun := rfl
@[simp] theorem startOp_engine (s : State) (op : MediaOp) (image : Option PageImage) :
    (s.startOp op image).engine = s.engine := rfl
@[simp] theorem startOp_stores (s : State) (op : MediaOp) (image : Option PageImage) :
    (s.startOp op image).stores = s.stores := rfl
@[simp] theorem startOp_sampler (s : State) (op : MediaOp) (image : Option PageImage) :
    (s.startOp op image).sampler = s.sampler := rfl
@[simp] theorem startOp_monitor (s : State) (op : MediaOp) (image : Option PageImage) :
    (s.startOp op image).monitor = s.monitor := rfl
@[simp] theorem startOp_gauge (s : State) (op : MediaOp) (image : Option PageImage) : (s.startOp op image).gauge = s.gauge := rfl
@[simp] theorem startOp_power (s : State) (op : MediaOp) (image : Option PageImage) : (s.startOp op image).power = s.power := rfl
@[simp] theorem startOp_mount (s : State) (op : MediaOp) (image : Option PageImage) : (s.startOp op image).mount = s.mount := rfl
@[simp] theorem startOp_freeCount (s : State) (op : MediaOp) (image : Option PageImage) :
    (s.startOp op image).freeCount = s.freeCount := rfl
@[simp] theorem startOp_pending (s : State) (op : MediaOp) (image : Option PageImage) :
    (s.startOp op image).pending = s.pending := rfl

/-! ### endRead -/

@[simp] theorem endRead_clock (s : State) : (s.endRead).clock = s.clock := rfl
@[simp] theorem endRead_port (s : State) : (s.endRead).port = s.port := rfl
@[simp] theorem endRead_slot (s : State) : (s.endRead).slot = s.slot := rfl
@[simp] theorem endRead_slots (s : State) : (s.endRead).slots = s.slots := rfl
@[simp] theorem endRead_pool (s : State) : (s.endRead).pool = s.pool := rfl
@[simp] theorem endRead_queue (s : State) : (s.endRead).queue = s.queue := rfl
@[simp] theorem endRead_media (s : State) : (s.endRead).media = { s.media with op := none } := rfl
@[simp] theorem endRead_table (s : State) : (s.endRead).table = s.table := rfl
@[simp] theorem endRead_log (s : State) : (s.endRead).log = s.log := rfl
@[simp] theorem endRead_formatRun (s : State) : (s.endRead).formatRun = s.formatRun := rfl
@[simp] theorem endRead_engine (s : State) : (s.endRead).engine = s.engine := rfl
@[simp] theorem endRead_stores (s : State) : (s.endRead).stores = s.stores := rfl
@[simp] theorem endRead_sampler (s : State) : (s.endRead).sampler = s.sampler := rfl
@[simp] theorem endRead_monitor (s : State) : (s.endRead).monitor = s.monitor := rfl
@[simp] theorem endRead_gauge (s : State) : (s.endRead).gauge = s.gauge := rfl
@[simp] theorem endRead_power (s : State) : (s.endRead).power = s.power := rfl
@[simp] theorem endRead_mount (s : State) : (s.endRead).mount = s.mount := rfl
@[simp] theorem endRead_freeCount (s : State) : (s.endRead).freeCount = s.freeCount := rfl
@[simp] theorem endRead_pending (s : State) : (s.endRead).pending = s.pending := rfl

/-! ### nextScan -/

@[simp] theorem nextScan_clock (s : State) : (s.nextScan).clock = s.clock := rfl
@[simp] theorem nextScan_port (s : State) : (s.nextScan).port = s.port := rfl
@[simp] theorem nextScan_slot (s : State) : (s.nextScan).slot = s.slot := rfl
@[simp] theorem nextScan_slots (s : State) : (s.nextScan).slots = s.slots := rfl
@[simp] theorem nextScan_pool (s : State) : (s.nextScan).pool = s.pool := rfl
@[simp] theorem nextScan_queue (s : State) : (s.nextScan).queue = s.queue := rfl
@[simp] theorem nextScan_media (s : State) : (s.nextScan).media = s.media := rfl
@[simp] theorem nextScan_table (s : State) : (s.nextScan).table = s.table := rfl
@[simp] theorem nextScan_log (s : State) : (s.nextScan).log = s.log := rfl
@[simp] theorem nextScan_formatRun (s : State) : (s.nextScan).formatRun = s.formatRun := rfl
@[simp] theorem nextScan_engine (s : State) : (s.nextScan).engine = s.engine := rfl
@[simp] theorem nextScan_stores (s : State) : (s.nextScan).stores = s.stores := rfl
@[simp] theorem nextScan_sampler (s : State) : (s.nextScan).sampler = s.sampler.next s.power.state := rfl
@[simp] theorem nextScan_monitor (s : State) : (s.nextScan).monitor = s.monitor := rfl
@[simp] theorem nextScan_gauge (s : State) : (s.nextScan).gauge = s.gauge := rfl
@[simp] theorem nextScan_power (s : State) : (s.nextScan).power = s.power := rfl
@[simp] theorem nextScan_mount (s : State) : (s.nextScan).mount = s.mount := rfl
@[simp] theorem nextScan_freeCount (s : State) : (s.nextScan).freeCount = s.freeCount := rfl
@[simp] theorem nextScan_pending (s : State) : (s.nextScan).pending = s.pending := rfl

/-! ### ask -/

@[simp] theorem ask_clock (s : State) (c : ReadContext) (phase : EnginePhase) (i page : Nat) :
    (s.ask c phase i page).clock = s.clock := rfl
@[simp] theorem ask_port (s : State) (c : ReadContext) (phase : EnginePhase) (i page : Nat) :
    (s.ask c phase i page).port = s.port := rfl
@[simp] theorem ask_slot (s : State) (c : ReadContext) (phase : EnginePhase) (i page : Nat) :
    (s.ask c phase i page).slot = s.slot := rfl
@[simp] theorem ask_slots (s : State) (c : ReadContext) (phase : EnginePhase) (i page : Nat) :
    (s.ask c phase i page).slots = s.slots := rfl
@[simp] theorem ask_pool (s : State) (c : ReadContext) (phase : EnginePhase) (i page : Nat) :
    (s.ask c phase i page).pool = s.pool := rfl
@[simp] theorem ask_queue (s : State) (c : ReadContext) (phase : EnginePhase) (i page : Nat) :
    (s.ask c phase i page).queue = s.queue := rfl
@[simp] theorem ask_media (s : State) (c : ReadContext) (phase : EnginePhase) (i page : Nat) :
    (s.ask c phase i page).media = s.media := rfl
@[simp] theorem ask_table (s : State) (c : ReadContext) (phase : EnginePhase) (i page : Nat) :
    (s.ask c phase i page).table = s.table := rfl
@[simp] theorem ask_log (s : State) (c : ReadContext) (phase : EnginePhase) (i page : Nat) :
    (s.ask c phase i page).log = s.log := rfl
@[simp] theorem ask_formatRun (s : State) (c : ReadContext) (phase : EnginePhase) (i page : Nat) :
    (s.ask c phase i page).formatRun = s.formatRun := rfl
@[simp] theorem ask_engine (s : State) (c : ReadContext) (phase : EnginePhase) (i page : Nat) :
    (s.ask c phase i page).engine = some { c with phase := phase, request := some (c.segAt i, page) } := rfl
@[simp] theorem ask_stores (s : State) (c : ReadContext) (phase : EnginePhase) (i page : Nat) :
    (s.ask c phase i page).stores = s.stores := rfl
@[simp] theorem ask_sampler (s : State) (c : ReadContext) (phase : EnginePhase) (i page : Nat) :
    (s.ask c phase i page).sampler = s.sampler := rfl
@[simp] theorem ask_monitor (s : State) (c : ReadContext) (phase : EnginePhase) (i page : Nat) :
    (s.ask c phase i page).monitor = s.monitor := rfl
@[simp] theorem ask_gauge (s : State) (c : ReadContext) (phase : EnginePhase) (i page : Nat) :
    (s.ask c phase i page).gauge = s.gauge := rfl
@[simp] theorem ask_power (s : State) (c : ReadContext) (phase : EnginePhase) (i page : Nat) :
    (s.ask c phase i page).power = s.power := rfl
@[simp] theorem ask_mount (s : State) (c : ReadContext) (phase : EnginePhase) (i page : Nat) :
    (s.ask c phase i page).mount = s.mount := rfl
@[simp] theorem ask_freeCount (s : State) (c : ReadContext) (phase : EnginePhase) (i page : Nat) :
    (s.ask c phase i page).freeCount = s.freeCount := rfl
@[simp] theorem ask_pending (s : State) (c : ReadContext) (phase : EnginePhase) (i page : Nat) :
    (s.ask c phase i page).pending = s.pending := rfl

/-! ### removeSurvey -/

@[simp] theorem removeSurvey_clock (s : State) (n : Nat) : (s.removeSurvey n).clock = s.clock := rfl
@[simp] theorem removeSurvey_port (s : State) (n : Nat) : (s.removeSurvey n).port = s.port := rfl
@[simp] theorem removeSurvey_slot (s : State) (n : Nat) : (s.removeSurvey n).slot = s.slot := rfl
@[simp] theorem removeSurvey_slots (s : State) (n : Nat) : (s.removeSurvey n).slots = s.slots := rfl
@[simp] theorem removeSurvey_pool (s : State) (n : Nat) : (s.removeSurvey n).pool = s.pool := rfl
@[simp] theorem removeSurvey_queue (s : State) (n : Nat) : (s.removeSurvey n).queue = s.queue := rfl
@[simp] theorem removeSurvey_media (s : State) (n : Nat) : (s.removeSurvey n).media = s.media := rfl
@[simp] theorem removeSurvey_table (s : State) (n : Nat) :
    (s.removeSurvey n).table = { s.table with surveys := s.table.surveys.filter (fun v => v.number != n) } := rfl
@[simp] theorem removeSurvey_log (s : State) (n : Nat) : (s.removeSurvey n).log = s.log := rfl
@[simp] theorem removeSurvey_formatRun (s : State) (n : Nat) : (s.removeSurvey n).formatRun = s.formatRun := rfl
@[simp] theorem removeSurvey_engine (s : State) (n : Nat) : (s.removeSurvey n).engine = s.engine := rfl
@[simp] theorem removeSurvey_stores (s : State) (n : Nat) : (s.removeSurvey n).stores = s.stores := rfl
@[simp] theorem removeSurvey_sampler (s : State) (n : Nat) : (s.removeSurvey n).sampler = s.sampler := rfl
@[simp] theorem removeSurvey_monitor (s : State) (n : Nat) : (s.removeSurvey n).monitor = s.monitor := rfl
@[simp] theorem removeSurvey_gauge (s : State) (n : Nat) : (s.removeSurvey n).gauge = s.gauge := rfl
@[simp] theorem removeSurvey_power (s : State) (n : Nat) : (s.removeSurvey n).power = s.power := rfl
@[simp] theorem removeSurvey_mount (s : State) (n : Nat) : (s.removeSurvey n).mount = s.mount := rfl
@[simp] theorem removeSurvey_freeCount (s : State) (n : Nat) : (s.removeSurvey n).freeCount = s.freeCount := rfl
@[simp] theorem removeSurvey_pending (s : State) (n : Nat) : (s.removeSurvey n).pending = s.pending := rfl

end Sys2Proof.Machine
end

