-- ==== Sys2Proof/Laws/Frame.lean ====
section
/-! SUPPORT. What each shared operation on records, replies and notices leaves alone. A lemma names every part of the state that its operation
never writes; the simp set takes each clause, so a proof about a command needs to unfold none of them. -/

namespace Sys2Proof.Machine

@[simp] theorem raise_frame (s : State) (n : Notice) :
    (s.raise n).clock = s.clock ∧ (s.raise n).slot = s.slot ∧ (s.raise n).slots = s.slots ∧ (s.raise n).pool = s.pool ∧
    (s.raise n).queue = s.queue ∧ (s.raise n).media = s.media ∧ (s.raise n).table = s.table ∧ (s.raise n).log = s.log ∧
    (s.raise n).formatRun = s.formatRun ∧ (s.raise n).engine = s.engine ∧ (s.raise n).stores = s.stores ∧
    (s.raise n).sampler = s.sampler ∧
    (s.raise n).monitor = s.monitor ∧ (s.raise n).gauge = s.gauge ∧ (s.raise n).power = s.power ∧ (s.raise n).mount = s.mount ∧
    (s.raise n).freeCount = s.freeCount ∧ (s.raise n).pending = s.pending := by
  unfold State.raise
  split <;> simp

@[simp] theorem completeOp_frame (s : State) (status : Status) (payload : Payload) :
    (s.completeOp status payload).clock = s.clock ∧ (s.completeOp status payload).slots = s.slots ∧
    (s.completeOp status payload).pool = s.pool ∧ (s.completeOp status payload).queue = s.queue ∧
    (s.completeOp status payload).media = s.media ∧ (s.completeOp status payload).table = s.table ∧
    (s.completeOp status payload).log = s.log ∧ (s.completeOp status payload).formatRun = s.formatRun ∧
    (s.completeOp status payload).engine = s.engine ∧ (s.completeOp status payload).stores = s.stores ∧
    (s.completeOp status payload).sampler = s.sampler ∧
    (s.completeOp status payload).monitor = s.monitor ∧ (s.completeOp status payload).gauge = s.gauge ∧
    (s.completeOp status payload).power = s.power ∧ (s.completeOp status payload).mount = s.mount ∧
    (s.completeOp status payload).freeCount = s.freeCount ∧ (s.completeOp status payload).pending = s.pending := by
  unfold State.completeOp
  repeat' split
  all_goals simp

@[simp] theorem countVoid_frame (s : State) (g : Nat) :
    (s.countVoid g).clock = s.clock ∧ (s.countVoid g).slot = s.slot ∧ (s.countVoid g).slots = s.slots ∧
    (s.countVoid g).pool = s.pool ∧ (s.countVoid g).queue = s.queue ∧ (s.countVoid g).table = s.table ∧
    (s.countVoid g).log = s.log ∧ (s.countVoid g).formatRun = s.formatRun ∧ (s.countVoid g).engine = s.engine ∧
    (s.countVoid g).stores = s.stores ∧
    (s.countVoid g).sampler = s.sampler ∧ (s.countVoid g).monitor = s.monitor ∧ (s.countVoid g).gauge = s.gauge ∧
    (s.countVoid g).power = s.power ∧ (s.countVoid g).mount = s.mount ∧ (s.countVoid g).freeCount = s.freeCount ∧
    (s.countVoid g).pending = s.pending := by
  unfold State.countVoid
  dsimp only
  repeat' split
  all_goals simp

@[simp] theorem disturbSegment_frame (s : State) (g : Nat) :
    (s.disturbSegment g).clock = s.clock ∧ (s.disturbSegment g).port = s.port ∧ (s.disturbSegment g).slot = s.slot ∧
    (s.disturbSegment g).slots = s.slots ∧ (s.disturbSegment g).pool = s.pool ∧ (s.disturbSegment g).queue = s.queue ∧
    (s.disturbSegment g).table = s.table ∧ (s.disturbSegment g).log = s.log ∧ (s.disturbSegment g).formatRun = s.formatRun ∧
    (s.disturbSegment g).engine = s.engine ∧ (s.disturbSegment g).stores = s.stores ∧ (s.disturbSegment g).sampler = s.sampler ∧
    (s.disturbSegment g).monitor = s.monitor ∧ (s.disturbSegment g).gauge = s.gauge ∧ (s.disturbSegment g).power = s.power ∧
    (s.disturbSegment g).mount = s.mount ∧ (s.disturbSegment g).pending = s.pending := by
  unfold State.disturbSegment
  simp

@[simp] theorem disturbPage_frame (s : State) (g p : Nat) :
    (s.disturbPage g p).clock = s.clock ∧ (s.disturbPage g p).port = s.port ∧ (s.disturbPage g p).slot = s.slot ∧
    (s.disturbPage g p).slots = s.slots ∧ (s.disturbPage g p).pool = s.pool ∧ (s.disturbPage g p).queue = s.queue ∧
    (s.disturbPage g p).table = s.table ∧ (s.disturbPage g p).log = s.log ∧ (s.disturbPage g p).formatRun = s.formatRun ∧
    (s.disturbPage g p).engine = s.engine ∧ (s.disturbPage g p).stores = s.stores ∧ (s.disturbPage g p).sampler = s.sampler ∧
    (s.disturbPage g p).monitor = s.monitor ∧
    (s.disturbPage g p).gauge = s.gauge ∧ (s.disturbPage g p).power = s.power ∧ (s.disturbPage g p).mount = s.mount ∧
    (s.disturbPage g p).pending = s.pending := by
  unfold State.disturbPage
  simp

@[simp] theorem endProgram_frame (s : State) (g p : Nat) (ok : Bool) :
    (s.endProgram g p ok).clock = s.clock ∧ (s.endProgram g p ok).port = s.port ∧ (s.endProgram g p ok).slot = s.slot ∧
    (s.endProgram g p ok).slots = s.slots ∧ (s.endProgram g p ok).pool = s.pool ∧ (s.endProgram g p ok).queue = s.queue ∧
    (s.endProgram g p ok).table = s.table ∧ (s.endProgram g p ok).log = s.log ∧ (s.endProgram g p ok).formatRun = s.formatRun ∧
    (s.endProgram g p ok).engine = s.engine ∧ (s.endProgram g p ok).stores = s.stores ∧
    (s.endProgram g p ok).sampler = s.sampler ∧
    (s.endProgram g p ok).monitor = s.monitor ∧ (s.endProgram g p ok).gauge = s.gauge ∧ (s.endProgram g p ok).power = s.power ∧
    (s.endProgram g p ok).mount = s.mount ∧ (s.endProgram g p ok).pending = s.pending := by
  unfold State.endProgram
  repeat' split
  all_goals simp

@[simp] theorem endErase_frame (s : State) (g : Nat) (ok : Bool) :
    (s.endErase g ok).clock = s.clock ∧ (s.endErase g ok).port = s.port ∧ (s.endErase g ok).slot = s.slot ∧
    (s.endErase g ok).slots = s.slots ∧ (s.endErase g ok).pool = s.pool ∧ (s.endErase g ok).queue = s.queue ∧
    (s.endErase g ok).table = s.table ∧ (s.endErase g ok).log = s.log ∧ (s.endErase g ok).formatRun = s.formatRun ∧
    (s.endErase g ok).engine = s.engine ∧ (s.endErase g ok).stores = s.stores ∧ (s.endErase g ok).sampler = s.sampler ∧
    (s.endErase g ok).monitor = s.monitor ∧
    (s.endErase g ok).gauge = s.gauge ∧ (s.endErase g ok).power = s.power ∧ (s.endErase g ok).mount = s.mount ∧
    (s.endErase g ok).pending = s.pending := by
  unfold State.endErase
  split <;> simp

@[simp] theorem holdIdle_frame (s : State) :
    s.holdIdle.clock = s.clock ∧ s.holdIdle.port = s.port ∧ s.holdIdle.slot = s.slot ∧ s.holdIdle.slots = s.slots ∧
    s.holdIdle.pool = s.pool ∧ s.holdIdle.queue = s.queue ∧ s.holdIdle.media = s.media ∧ s.holdIdle.table = s.table ∧
    s.holdIdle.log = s.log ∧ s.holdIdle.formatRun = s.formatRun ∧ s.holdIdle.engine = s.engine ∧ s.holdIdle.stores = s.stores ∧
    s.holdIdle.sampler = s.sampler ∧ s.holdIdle.monitor = s.monitor ∧ s.holdIdle.gauge = s.gauge ∧ s.holdIdle.mount = s.mount ∧
    s.holdIdle.freeCount = s.freeCount ∧ s.holdIdle.pending = s.pending := by
  unfold State.holdIdle
  split <;> simp

@[simp] theorem closeOpen_frame (s : State) (i : Nat) :
    (s.closeOpen i).clock = s.clock ∧ (s.closeOpen i).port = s.port ∧ (s.closeOpen i).slot = s.slot ∧
    (s.closeOpen i).queue = s.queue ∧ (s.closeOpen i).media = s.media ∧ (s.closeOpen i).table = s.table ∧
    (s.closeOpen i).log = s.log ∧ (s.closeOpen i).formatRun = s.formatRun ∧ (s.closeOpen i).engine = s.engine ∧
    (s.closeOpen i).stores = s.stores ∧
    (s.closeOpen i).sampler = s.sampler ∧ (s.closeOpen i).monitor = s.monitor ∧ (s.closeOpen i).gauge = s.gauge ∧
    (s.closeOpen i).power = s.power ∧ (s.closeOpen i).mount = s.mount ∧ (s.closeOpen i).freeCount = s.freeCount ∧
    (s.closeOpen i).pending = s.pending := by
  unfold State.closeOpen
  dsimp only
  split <;> simp

theorem takeBuffer_frame (s : State) (i : Nat) (u : State) (h : s.takeBuffer i = some u) :
    u.clock = s.clock ∧ u.port = s.port ∧ u.slot = s.slot ∧ u.queue = s.queue ∧ u.media = s.media ∧ u.table = s.table ∧
    u.log = s.log ∧ u.formatRun = s.formatRun ∧ u.engine = s.engine ∧ u.stores = s.stores ∧ u.sampler = s.sampler ∧
    u.monitor = s.monitor ∧
    u.gauge = s.gauge ∧ u.power = s.power ∧ u.mount = s.mount ∧ u.freeCount = s.freeCount ∧ u.pending = s.pending := by
  unfold State.takeBuffer at h
  split at h
  all_goals cases h
  simp

@[simp] theorem pushPage_frame (s : State) (i : Nat) :
    (s.pushPage i).clock = s.clock ∧ (s.pushPage i).port = s.port ∧ (s.pushPage i).slot = s.slot ∧
    (s.pushPage i).media = s.media ∧ (s.pushPage i).table = s.table ∧ (s.pushPage i).log = s.log ∧
    (s.pushPage i).formatRun = s.formatRun ∧ (s.pushPage i).engine = s.engine ∧ (s.pushPage i).stores = s.stores ∧
    (s.pushPage i).sampler = s.sampler ∧
    (s.pushPage i).monitor = s.monitor ∧ (s.pushPage i).gauge = s.gauge ∧ (s.pushPage i).power = s.power ∧
    (s.pushPage i).mount = s.mount ∧ (s.pushPage i).freeCount = s.freeCount ∧ (s.pushPage i).pending = s.pending := by
  unfold State.pushPage
  dsimp only
  split <;> simp

@[simp] theorem makeRoom_frame (s : State) (i need : Nat) :
    (s.makeRoom i need).1.clock = s.clock ∧ (s.makeRoom i need).1.port = s.port ∧ (s.makeRoom i need).1.slot = s.slot ∧
    (s.makeRoom i need).1.media = s.media ∧ (s.makeRoom i need).1.table = s.table ∧ (s.makeRoom i need).1.log = s.log ∧
    (s.makeRoom i need).1.formatRun = s.formatRun ∧ (s.makeRoom i need).1.engine = s.engine ∧
    (s.makeRoom i need).1.stores = s.stores ∧
    (s.makeRoom i need).1.sampler = s.sampler ∧ (s.makeRoom i need).1.monitor = s.monitor ∧
    (s.makeRoom i need).1.gauge = s.gauge ∧ (s.makeRoom i need).1.power = s.power ∧ (s.makeRoom i need).1.mount = s.mount ∧
    (s.makeRoom i need).1.freeCount = s.freeCount ∧ (s.makeRoom i need).1.pending = s.pending := by
  unfold State.makeRoom
  grind [takeBuffer_frame, pushPage_frame]

@[simp] theorem writeMarker_frame (s : State) (i : Nat) (k : MarkerKind) :
    (s.writeMarker i k).1.clock = s.clock ∧ (s.writeMarker i k).1.port = s.port ∧ (s.writeMarker i k).1.slot = s.slot ∧
    (s.writeMarker i k).1.media = s.media ∧ (s.writeMarker i k).1.table = s.table ∧ (s.writeMarker i k).1.log = s.log ∧
    (s.writeMarker i k).1.formatRun = s.formatRun ∧ (s.writeMarker i k).1.engine = s.engine ∧
    (s.writeMarker i k).1.stores = s.stores ∧
    (s.writeMarker i k).1.sampler = s.sampler ∧ (s.writeMarker i k).1.monitor = s.monitor ∧
    (s.writeMarker i k).1.gauge = s.gauge ∧ (s.writeMarker i k).1.power = s.power ∧ (s.writeMarker i k).1.mount = s.mount ∧
    (s.writeMarker i k).1.freeCount = s.freeCount ∧ (s.writeMarker i k).1.pending = s.pending := by
  unfold State.writeMarker
  have h := makeRoom_frame s i 20
  generalize s.makeRoom i 20 = r at h
  obtain ⟨t, room⟩ := r
  dsimp only at h ⊢
  split <;> simp [h]

@[simp] theorem writeMarkerList_frame (s : State) (i : Nat) (l : List MarkerKind) :
    (s.writeMarkerList i l).1.clock = s.clock ∧ (s.writeMarkerList i l).1.port = s.port ∧
    (s.writeMarkerList i l).1.slot = s.slot ∧ (s.writeMarkerList i l).1.media = s.media ∧
    (s.writeMarkerList i l).1.table = s.table ∧ (s.writeMarkerList i l).1.log = s.log ∧
    (s.writeMarkerList i l).1.formatRun = s.formatRun ∧ (s.writeMarkerList i l).1.engine = s.engine ∧
    (s.writeMarkerList i l).1.stores = s.stores ∧
    (s.writeMarkerList i l).1.sampler = s.sampler ∧ (s.writeMarkerList i l).1.monitor = s.monitor ∧
    (s.writeMarkerList i l).1.gauge = s.gauge ∧ (s.writeMarkerList i l).1.power = s.power ∧
    (s.writeMarkerList i l).1.mount = s.mount ∧ (s.writeMarkerList i l).1.freeCount = s.freeCount ∧
    (s.writeMarkerList i l).1.pending = s.pending := by
  induction l generalizing s with
  | nil => simp [State.writeMarkerList]
  | cons a l ih =>
    unfold State.writeMarkerList
    have := writeMarker_frame s i a
    grind

@[simp] theorem writeMarkers_frame (s : State) (i : Nat) :
    (s.writeMarkers i).1.clock = s.clock ∧ (s.writeMarkers i).1.port = s.port ∧ (s.writeMarkers i).1.slot = s.slot ∧
    (s.writeMarkers i).1.media = s.media ∧ (s.writeMarkers i).1.table = s.table ∧ (s.writeMarkers i).1.log = s.log ∧
    (s.writeMarkers i).1.formatRun = s.formatRun ∧ (s.writeMarkers i).1.engine = s.engine ∧
    (s.writeMarkers i).1.stores = s.stores ∧
    (s.writeMarkers i).1.sampler = s.sampler ∧ (s.writeMarkers i).1.monitor = s.monitor ∧
    (s.writeMarkers i).1.gauge = s.gauge ∧ (s.writeMarkers i).1.power = s.power ∧ (s.writeMarkers i).1.mount = s.mount ∧
    (s.writeMarkers i).1.freeCount = s.freeCount ∧ (s.writeMarkers i).1.pending = s.pending := by
  unfold State.writeMarkers
  simp

@[simp] theorem joinWaitList_frame (s : State) (i : Nat) :
    (s.joinWaitList i).clock = s.clock ∧ (s.joinWaitList i).port = s.port ∧ (s.joinWaitList i).slot = s.slot ∧
    (s.joinWaitList i).slots = s.slots ∧ (s.joinWaitList i).queue = s.queue ∧ (s.joinWaitList i).media = s.media ∧
    (s.joinWaitList i).table = s.table ∧ (s.joinWaitList i).log = s.log ∧ (s.joinWaitList i).formatRun = s.formatRun ∧
    (s.joinWaitList i).engine = s.engine ∧ (s.joinWaitList i).stores = s.stores ∧ (s.joinWaitList i).sampler = s.sampler ∧
    (s.joinWaitList i).monitor = s.monitor ∧
    (s.joinWaitList i).gauge = s.gauge ∧ (s.joinWaitList i).power = s.power ∧ (s.joinWaitList i).mount = s.mount ∧
    (s.joinWaitList i).freeCount = s.freeCount ∧ (s.joinWaitList i).pending = s.pending := by
  unfold State.joinWaitList
  split <;> simp

@[simp] theorem requestClose_frame (s : State) (i : Nat) :
    (s.requestClose i).clock = s.clock ∧ (s.requestClose i).port = s.port ∧ (s.requestClose i).slot = s.slot ∧
    (s.requestClose i).media = s.media ∧ (s.requestClose i).table = s.table ∧ (s.requestClose i).log = s.log ∧
    (s.requestClose i).formatRun = s.formatRun ∧ (s.requestClose i).engine = s.engine ∧ (s.requestClose i).stores = s.stores ∧
    (s.requestClose i).sampler = s.sampler ∧ (s.requestClose i).monitor = s.monitor ∧ (s.requestClose i).gauge = s.gauge ∧
    (s.requestClose i).power = s.power ∧ (s.requestClose i).mount = s.mount ∧ (s.requestClose i).freeCount = s.freeCount ∧
    (s.requestClose i).pending = s.pending := by
  unfold State.requestClose
  have h := writeMarkers_frame (s.closeOpen i) i
  split <;> rename_i e <;> rw [e] at h <;> simp at h <;> (try split) <;> simp [h]

@[simp] theorem requestCloses_frame (s : State) (l : List Nat) :
    (s.requestCloses l).clock = s.clock ∧ (s.requestCloses l).port = s.port ∧ (s.requestCloses l).slot = s.slot ∧
    (s.requestCloses l).media = s.media ∧ (s.requestCloses l).table = s.table ∧ (s.requestCloses l).log = s.log ∧
    (s.requestCloses l).formatRun = s.formatRun ∧ (s.requestCloses l).engine = s.engine ∧ (s.requestCloses l).stores = s.stores ∧
    (s.requestCloses l).sampler = s.sampler ∧ (s.requestCloses l).monitor = s.monitor ∧ (s.requestCloses l).gauge = s.gauge ∧
    (s.requestCloses l).power = s.power ∧ (s.requestCloses l).mount = s.mount ∧ (s.requestCloses l).freeCount = s.freeCount ∧
    (s.requestCloses l).pending = s.pending := by
  induction l generalizing s with
  | nil => simp [State.requestCloses]
  | cons a l ih => simp [State.requestCloses, ih]

@[simp] theorem openData_frame (s : State) (i : Nat) (d : Descriptor) (o : Output) (t : Stamp) (mark : Option (List Byte)) :
    (s.openData i d o t mark).1.clock = s.clock ∧ (s.openData i d o t mark).1.port = s.port ∧
    (s.openData i d o t mark).1.slot = s.slot ∧ (s.openData i d o t mark).1.media = s.media ∧
    (s.openData i d o t mark).1.table = s.table ∧ (s.openData i d o t mark).1.log = s.log ∧
    (s.openData i d o t mark).1.formatRun = s.formatRun ∧ (s.openData i d o t mark).1.engine = s.engine ∧
    (s.openData i d o t mark).1.stores = s.stores ∧
    (s.openData i d o t mark).1.sampler = s.sampler ∧ (s.openData i d o t mark).1.monitor = s.monitor ∧
    (s.openData i d o t mark).1.gauge = s.gauge ∧ (s.openData i d o t mark).1.power = s.power ∧
    (s.openData i d o t mark).1.mount = s.mount ∧ (s.openData i d o t mark).1.freeCount = s.freeCount ∧
    (s.openData i d o t mark).1.pending = s.pending := by
  unfold State.openData
  dsimp only
  split <;> simp

@[simp] theorem appendSample_frame (s : State) (i : Nat) (d : Descriptor) (r : OpenRecord) (o : Output) (t : Stamp) (mark : Option (List Byte)) :
    (s.appendSample i d r o t mark).1.clock = s.clock ∧ (s.appendSample i d r o t mark).1.port = s.port ∧
    (s.appendSample i d r o t mark).1.slot = s.slot ∧ (s.appendSample i d r o t mark).1.media = s.media ∧
    (s.appendSample i d r o t mark).1.table = s.table ∧ (s.appendSample i d r o t mark).1.log = s.log ∧
    (s.appendSample i d r o t mark).1.formatRun = s.formatRun ∧ (s.appendSample i d r o t mark).1.engine = s.engine ∧
    (s.appendSample i d r o t mark).1.stores = s.stores ∧
    (s.appendSample i d r o t mark).1.sampler = s.sampler ∧ (s.appendSample i d r o t mark).1.monitor = s.monitor ∧
    (s.appendSample i d r o t mark).1.gauge = s.gauge ∧ (s.appendSample i d r o t mark).1.power = s.power ∧
    (s.appendSample i d r o t mark).1.mount = s.mount ∧ (s.appendSample i d r o t mark).1.freeCount = s.freeCount ∧
    (s.appendSample i d r o t mark).1.pending = s.pending := by
  unfold State.appendSample
  dsimp only
  repeat' split
  all_goals simp

@[simp] theorem placeSample_frame (s : State) (i : Nat) (d : Descriptor) (o : Output) (t : Stamp) (mark : Option (List Byte)) :
    (s.placeSample i d o t mark).1.clock = s.clock ∧ (s.placeSample i d o t mark).1.port = s.port ∧
    (s.placeSample i d o t mark).1.slot = s.slot ∧ (s.placeSample i d o t mark).1.media = s.media ∧
    (s.placeSample i d o t mark).1.table = s.table ∧ (s.placeSample i d o t mark).1.log = s.log ∧
    (s.placeSample i d o t mark).1.formatRun = s.formatRun ∧ (s.placeSample i d o t mark).1.engine = s.engine ∧
    (s.placeSample i d o t mark).1.stores = s.stores ∧
    (s.placeSample i d o t mark).1.sampler = s.sampler ∧ (s.placeSample i d o t mark).1.monitor = s.monitor ∧
    (s.placeSample i d o t mark).1.gauge = s.gauge ∧ (s.placeSample i d o t mark).1.power = s.power ∧
    (s.placeSample i d o t mark).1.mount = s.mount ∧ (s.placeSample i d o t mark).1.freeCount = s.freeCount ∧
    (s.placeSample i d o t mark).1.pending = s.pending := by
  unfold State.placeSample
  have h1 := writeMarkers_frame (s.closeOpen i) i
  have h2 := closeOpen_frame s i
  grind [openData_frame, appendSample_frame]

@[simp] theorem loseFrame_frame (s : State) (i : Nat) (reason : LossReason) :
    (s.loseFrame i reason).clock = s.clock ∧ (s.loseFrame i reason).slot = s.slot ∧ (s.loseFrame i reason).pool = s.pool ∧
    (s.loseFrame i reason).queue = s.queue ∧ (s.loseFrame i reason).media = s.media ∧ (s.loseFrame i reason).table = s.table ∧
    (s.loseFrame i reason).log = s.log ∧ (s.loseFrame i reason).formatRun = s.formatRun ∧
    (s.loseFrame i reason).engine = s.engine ∧ (s.loseFrame i reason).stores = s.stores ∧
    (s.loseFrame i reason).sampler = s.sampler ∧
    (s.loseFrame i reason).monitor = s.monitor ∧ (s.loseFrame i reason).gauge = s.gauge ∧
    (s.loseFrame i reason).power = s.power ∧ (s.loseFrame i reason).mount = s.mount ∧
    (s.loseFrame i reason).freeCount = s.freeCount ∧ (s.loseFrame i reason).pending = s.pending := by
  unfold State.loseFrame
  dsimp only
  split <;> simp

@[simp] theorem takeSamples_frame (s : State) (i : Nat) (d : Descriptor) (t : Stamp) (mark : Option (List Byte)) (noPlace : Bool) (l : List Int) :
    (s.takeSamples i d t mark noPlace l).clock = s.clock ∧ (s.takeSamples i d t mark noPlace l).slot = s.slot ∧
    (s.takeSamples i d t mark noPlace l).media = s.media ∧ (s.takeSamples i d t mark noPlace l).table = s.table ∧
    (s.takeSamples i d t mark noPlace l).log = s.log ∧ (s.takeSamples i d t mark noPlace l).formatRun = s.formatRun ∧
    (s.takeSamples i d t mark noPlace l).engine = s.engine ∧ (s.takeSamples i d t mark noPlace l).stores = s.stores ∧
    (s.takeSamples i d t mark noPlace l).sampler = s.sampler ∧
    (s.takeSamples i d t mark noPlace l).monitor = s.monitor ∧ (s.takeSamples i d t mark noPlace l).gauge = s.gauge ∧
    (s.takeSamples i d t mark noPlace l).power = s.power ∧ (s.takeSamples i d t mark noPlace l).mount = s.mount ∧
    (s.takeSamples i d t mark noPlace l).freeCount = s.freeCount ∧ (s.takeSamples i d t mark noPlace l).pending = s.pending := by
  induction l generalizing s noPlace with
  | nil => simp [State.takeSamples]
  | cons a l ih =>
    unfold State.takeSamples
    dsimp only
    split
    · simp [ih]
    · split
      · simp [ih]
      · split
        · simp [ih]
        · have h := placeSample_frame (s.modSlot i fun _ => ((s.slotAt i).accumulate d a).1) i d ‹Output› t mark
          split <;> rename_i e <;> rw [e] at h <;> simp at h <;> simp [ih, h]

@[simp] theorem imposePause_frame (s : State) (reason : PauseReason) (i : Nat) :
    (s.imposePause reason i).clock = s.clock ∧ (s.imposePause reason i).slot = s.slot ∧
    (s.imposePause reason i).queue = s.queue ∧ (s.imposePause reason i).media = s.media ∧
    (s.imposePause reason i).table = s.table ∧ (s.imposePause reason i).log = s.log ∧
    (s.imposePause reason i).formatRun = s.formatRun ∧ (s.imposePause reason i).engine = s.engine ∧
    (s.imposePause reason i).stores = s.stores ∧
    (s.imposePause reason i).sampler = s.sampler ∧ (s.imposePause reason i).monitor = s.monitor ∧
    (s.imposePause reason i).gauge = s.gauge ∧ (s.imposePause reason i).power = s.power ∧
    (s.imposePause reason i).mount = s.mount ∧ (s.imposePause reason i).freeCount = s.freeCount ∧
    (s.imposePause reason i).pending = s.pending := by
  unfold State.imposePause
  simp

@[simp] theorem imposePauses_frame (s : State) (reason : PauseReason) (l : List Nat) :
    (s.imposePauses reason l).clock = s.clock ∧ (s.imposePauses reason l).slot = s.slot ∧
    (s.imposePauses reason l).queue = s.queue ∧ (s.imposePauses reason l).media = s.media ∧
    (s.imposePauses reason l).table = s.table ∧ (s.imposePauses reason l).log = s.log ∧
    (s.imposePauses reason l).formatRun = s.formatRun ∧ (s.imposePauses reason l).engine = s.engine ∧
    (s.imposePauses reason l).stores = s.stores ∧
    (s.imposePauses reason l).sampler = s.sampler ∧ (s.imposePauses reason l).monitor = s.monitor ∧
    (s.imposePauses reason l).gauge = s.gauge ∧ (s.imposePauses reason l).power = s.power ∧
    (s.imposePauses reason l).mount = s.mount ∧ (s.imposePauses reason l).freeCount = s.freeCount ∧
    (s.imposePauses reason l).pending = s.pending := by
  induction l generalizing s reason with
  | nil => simp [State.imposePauses]
  | cons a l ih => simp [State.imposePauses, ih]

@[simp] theorem pauseRunning_frame (s : State) (reason : PauseReason) :
    (s.pauseRunning reason).clock = s.clock ∧ (s.pauseRunning reason).slot = s.slot ∧ (s.pauseRunning reason).queue = s.queue ∧
    (s.pauseRunning reason).media = s.media ∧ (s.pauseRunning reason).table = s.table ∧ (s.pauseRunning reason).log = s.log ∧
    (s.pauseRunning reason).formatRun = s.formatRun ∧ (s.pauseRunning reason).engine = s.engine ∧
    (s.pauseRunning reason).stores = s.stores ∧
    (s.pauseRunning reason).sampler = s.sampler ∧ (s.pauseRunning reason).monitor = s.monitor ∧
    (s.pauseRunning reason).gauge = s.gauge ∧ (s.pauseRunning reason).power = s.power ∧
    (s.pauseRunning reason).mount = s.mount ∧ (s.pauseRunning reason).freeCount = s.freeCount ∧
    (s.pauseRunning reason).pending = s.pending := by
  unfold State.pauseRunning
  simp

@[simp] theorem criticalPause_frame (s : State) (i : Nat) :
    (s.criticalPause i).clock = s.clock ∧ (s.criticalPause i).slot = s.slot ∧ (s.criticalPause i).media = s.media ∧
    (s.criticalPause i).table = s.table ∧ (s.criticalPause i).log = s.log ∧ (s.criticalPause i).formatRun = s.formatRun ∧
    (s.criticalPause i).engine = s.engine ∧ (s.criticalPause i).stores = s.stores ∧ (s.criticalPause i).sampler = s.sampler ∧
    (s.criticalPause i).monitor = s.monitor ∧
    (s.criticalPause i).gauge = s.gauge ∧ (s.criticalPause i).power = s.power ∧ (s.criticalPause i).mount = s.mount ∧
    (s.criticalPause i).freeCount = s.freeCount ∧ (s.criticalPause i).pending = s.pending := by
  unfold State.criticalPause
  simp

@[simp] theorem criticalPauses_frame (s : State) (l : List Nat) :
    (s.criticalPauses l).clock = s.clock ∧ (s.criticalPauses l).slot = s.slot ∧ (s.criticalPauses l).media = s.media ∧
    (s.criticalPauses l).table = s.table ∧ (s.criticalPauses l).log = s.log ∧ (s.criticalPauses l).formatRun = s.formatRun ∧
    (s.criticalPauses l).engine = s.engine ∧ (s.criticalPauses l).stores = s.stores ∧ (s.criticalPauses l).sampler = s.sampler ∧
    (s.criticalPauses l).monitor = s.monitor ∧ (s.criticalPauses l).gauge = s.gauge ∧ (s.criticalPauses l).power = s.power ∧
    (s.criticalPauses l).mount = s.mount ∧ (s.criticalPauses l).freeCount = s.freeCount ∧
    (s.criticalPauses l).pending = s.pending := by
  induction l generalizing s with
  | nil => simp [State.criticalPauses]
  | cons a l ih => simp [State.criticalPauses, ih]

@[simp] theorem enterCriticalStreams_frame (s : State) :
    s.enterCriticalStreams.clock = s.clock ∧ s.enterCriticalStreams.slot = s.slot ∧ s.enterCriticalStreams.media = s.media ∧
    s.enterCriticalStreams.table = s.table ∧ s.enterCriticalStreams.log = s.log ∧
    s.enterCriticalStreams.formatRun = s.formatRun ∧ s.enterCriticalStreams.engine = s.engine ∧
    s.enterCriticalStreams.stores = s.stores ∧
    s.enterCriticalStreams.sampler = s.sampler ∧ s.enterCriticalStreams.monitor = s.monitor ∧
    s.enterCriticalStreams.gauge = s.gauge ∧ s.enterCriticalStreams.power = s.power ∧ s.enterCriticalStreams.mount = s.mount ∧
    s.enterCriticalStreams.freeCount = s.freeCount ∧ s.enterCriticalStreams.pending = s.pending := by
  unfold State.enterCriticalStreams
  simp

@[simp] theorem beginStop_frame (s : State) (i : Nat) :
    (s.beginStop i).clock = s.clock ∧ (s.beginStop i).port = s.port ∧ (s.beginStop i).slot = s.slot ∧
    (s.beginStop i).media = s.media ∧ (s.beginStop i).table = s.table ∧ (s.beginStop i).log = s.log ∧
    (s.beginStop i).formatRun = s.formatRun ∧ (s.beginStop i).engine = s.engine ∧ (s.beginStop i).stores = s.stores ∧
    (s.beginStop i).sampler = s.sampler ∧
    (s.beginStop i).monitor = s.monitor ∧ (s.beginStop i).gauge = s.gauge ∧ (s.beginStop i).power = s.power ∧
    (s.beginStop i).mount = s.mount ∧ (s.beginStop i).freeCount = s.freeCount ∧ (s.beginStop i).pending = s.pending := by
  unfold State.beginStop
  simp

@[simp] theorem beginStops_frame (s : State) (l : List Nat) :
    (s.beginStops l).clock = s.clock ∧ (s.beginStops l).port = s.port ∧ (s.beginStops l).slot = s.slot ∧
    (s.beginStops l).media = s.media ∧ (s.beginStops l).table = s.table ∧ (s.beginStops l).log = s.log ∧
    (s.beginStops l).formatRun = s.formatRun ∧ (s.beginStops l).engine = s.engine ∧ (s.beginStops l).stores = s.stores ∧
    (s.beginStops l).sampler = s.sampler ∧
    (s.beginStops l).monitor = s.monitor ∧ (s.beginStops l).gauge = s.gauge ∧ (s.beginStops l).power = s.power ∧
    (s.beginStops l).mount = s.mount ∧ (s.beginStops l).freeCount = s.freeCount ∧ (s.beginStops l).pending = s.pending := by
  induction l generalizing s with
  | nil => simp [State.beginStops]
  | cons a l ih => simp [State.beginStops, ih]

end Sys2Proof.Machine
end

