-- ==== Sys2Proof/Laws/MediaFrame.lean ====
section
/-! SUPPORT. What each operation of the Media Controller (chapter 4) leaves alone. -/

namespace Sys2Proof.Machine

@[simp] theorem testMediaFull_frame (s : State) (pausing : Bool) :
    (s.testMediaFull pausing).clock = s.clock ∧ (s.testMediaFull pausing).slot = s.slot ∧
    (s.testMediaFull pausing).queue = s.queue ∧ (s.testMediaFull pausing).table = s.table ∧
    (s.testMediaFull pausing).log = s.log ∧ (s.testMediaFull pausing).formatRun = s.formatRun ∧
    (s.testMediaFull pausing).engine = s.engine ∧ (s.testMediaFull pausing).stores = s.stores ∧
    (s.testMediaFull pausing).sampler = s.sampler ∧
    (s.testMediaFull pausing).monitor = s.monitor ∧ (s.testMediaFull pausing).gauge = s.gauge ∧
    (s.testMediaFull pausing).power = s.power ∧ (s.testMediaFull pausing).mount = s.mount ∧
    (s.testMediaFull pausing).freeCount = s.freeCount ∧ (s.testMediaFull pausing).pending = s.pending := by
  unfold State.testMediaFull
  repeat' split
  all_goals simp

@[simp] theorem testMediaAvailable_frame (s : State) :
    s.testMediaAvailable.clock = s.clock ∧ s.testMediaAvailable.slot = s.slot ∧ s.testMediaAvailable.slots = s.slots ∧
    s.testMediaAvailable.pool = s.pool ∧ s.testMediaAvailable.queue = s.queue ∧ s.testMediaAvailable.table = s.table ∧
    s.testMediaAvailable.log = s.log ∧ s.testMediaAvailable.formatRun = s.formatRun ∧ s.testMediaAvailable.engine = s.engine ∧
    s.testMediaAvailable.stores = s.stores ∧
    s.testMediaAvailable.sampler = s.sampler ∧ s.testMediaAvailable.monitor = s.monitor ∧
    s.testMediaAvailable.gauge = s.gauge ∧ s.testMediaAvailable.power = s.power ∧ s.testMediaAvailable.mount = s.mount ∧
    s.testMediaAvailable.freeCount = s.freeCount ∧ s.testMediaAvailable.pending = s.pending := by
  unfold State.testMediaAvailable
  split <;> simp

@[simp] theorem putTake_frame (s : State) (t : Take) :
    (s.putTake t).clock = s.clock ∧ (s.putTake t).port = s.port ∧ (s.putTake t).slot = s.slot ∧ (s.putTake t).slots = s.slots ∧
    (s.putTake t).pool = s.pool ∧ (s.putTake t).queue = s.queue ∧ (s.putTake t).table = s.table ∧ (s.putTake t).log = s.log ∧
    (s.putTake t).formatRun = s.formatRun ∧ (s.putTake t).engine = s.engine ∧ (s.putTake t).stores = s.stores ∧
    (s.putTake t).sampler = s.sampler ∧
    (s.putTake t).monitor = s.monitor ∧ (s.putTake t).gauge = s.gauge ∧ (s.putTake t).power = s.power ∧
    (s.putTake t).mount = s.mount ∧ (s.putTake t).freeCount = s.freeCount ∧ (s.putTake t).pending = s.pending := by
  unfold State.putTake
  simp

@[simp] theorem dropTake_frame (s : State) (t : Take) :
    (s.dropTake t).clock = s.clock ∧ (s.dropTake t).port = s.port ∧ (s.dropTake t).slot = s.slot ∧
    (s.dropTake t).slots = s.slots ∧ (s.dropTake t).pool = s.pool ∧ (s.dropTake t).queue = s.queue ∧
    (s.dropTake t).table = s.table ∧ (s.dropTake t).log = s.log ∧ (s.dropTake t).formatRun = s.formatRun ∧
    (s.dropTake t).engine = s.engine ∧ (s.dropTake t).stores = s.stores ∧ (s.dropTake t).sampler = s.sampler ∧
    (s.dropTake t).monitor = s.monitor ∧
    (s.dropTake t).gauge = s.gauge ∧ (s.dropTake t).power = s.power ∧ (s.dropTake t).mount = s.mount ∧
    (s.dropTake t).freeCount = s.freeCount ∧ (s.dropTake t).pending = s.pending := by
  unfold State.dropTake
  simp

@[simp] theorem failLoad_frame (s : State) (slot : Nat) :
    (s.failLoad slot).clock = s.clock ∧ (s.failLoad slot).pool = s.pool ∧ (s.failLoad slot).queue = s.queue ∧
    (s.failLoad slot).media = s.media ∧ (s.failLoad slot).table = s.table ∧ (s.failLoad slot).log = s.log ∧
    (s.failLoad slot).formatRun = s.formatRun ∧ (s.failLoad slot).engine = s.engine ∧ (s.failLoad slot).stores = s.stores ∧
    (s.failLoad slot).sampler = s.sampler ∧
    (s.failLoad slot).monitor = s.monitor ∧ (s.failLoad slot).gauge = s.gauge ∧ (s.failLoad slot).power = s.power ∧
    (s.failLoad slot).mount = s.mount ∧ (s.failLoad slot).freeCount = s.freeCount ∧ (s.failLoad slot).pending = s.pending := by
  unfold State.failLoad
  simp

@[simp] theorem refuseTake_frame (s : State) (t : Take) :
    (s.refuseTake t).clock = s.clock ∧ (s.refuseTake t).pool = s.pool ∧ (s.refuseTake t).queue = s.queue ∧
    (s.refuseTake t).table = s.table ∧ (s.refuseTake t).log = s.log ∧ (s.refuseTake t).formatRun = s.formatRun ∧
    (s.refuseTake t).engine = s.engine ∧ (s.refuseTake t).stores = s.stores ∧ (s.refuseTake t).sampler = s.sampler ∧
    (s.refuseTake t).monitor = s.monitor ∧
    (s.refuseTake t).gauge = s.gauge ∧ (s.refuseTake t).power = s.power ∧ (s.refuseTake t).mount = s.mount ∧
    (s.refuseTake t).freeCount = s.freeCount ∧ (s.refuseTake t).pending = s.pending := by
  unfold State.refuseTake
  dsimp only
  repeat' split
  all_goals simp

@[simp] theorem makeTake_frame (s : State) (t : Take) :
    (s.makeTake t).clock = s.clock ∧ (s.makeTake t).queue = s.queue ∧ (s.makeTake t).table = s.table ∧
    (s.makeTake t).log = s.log ∧ (s.makeTake t).formatRun = s.formatRun ∧ (s.makeTake t).engine = s.engine ∧
    (s.makeTake t).stores = s.stores ∧
    (s.makeTake t).sampler = s.sampler ∧ (s.makeTake t).monitor = s.monitor ∧ (s.makeTake t).gauge = s.gauge ∧
    (s.makeTake t).power = s.power ∧ (s.makeTake t).mount = s.mount ∧ (s.makeTake t).freeCount = s.freeCount ∧
    (s.makeTake t).pending = s.pending := by
  unfold State.makeTake
  repeat' split
  all_goals simp

@[simp] theorem remakeTakes_frame (s : State) (l : List Take) :
    (s.remakeTakes l).clock = s.clock ∧ (s.remakeTakes l).queue = s.queue ∧ (s.remakeTakes l).table = s.table ∧
    (s.remakeTakes l).log = s.log ∧ (s.remakeTakes l).formatRun = s.formatRun ∧ (s.remakeTakes l).engine = s.engine ∧
    (s.remakeTakes l).stores = s.stores ∧
    (s.remakeTakes l).sampler = s.sampler ∧ (s.remakeTakes l).monitor = s.monitor ∧ (s.remakeTakes l).gauge = s.gauge ∧
    (s.remakeTakes l).power = s.power ∧ (s.remakeTakes l).mount = s.mount ∧ (s.remakeTakes l).freeCount = s.freeCount ∧
    (s.remakeTakes l).pending = s.pending := by
  induction l generalizing s with
  | nil => simp [State.remakeTakes]
  | cons a l ih => simp [State.remakeTakes, ih]

@[simp] theorem offerTakes_frame (s : State) (l : List Nat) :
    (s.offerTakes l).clock = s.clock ∧ (s.offerTakes l).queue = s.queue ∧ (s.offerTakes l).table = s.table ∧
    (s.offerTakes l).log = s.log ∧ (s.offerTakes l).formatRun = s.formatRun ∧ (s.offerTakes l).engine = s.engine ∧
    (s.offerTakes l).stores = s.stores ∧
    (s.offerTakes l).sampler = s.sampler ∧ (s.offerTakes l).monitor = s.monitor ∧ (s.offerTakes l).gauge = s.gauge ∧
    (s.offerTakes l).power = s.power ∧ (s.offerTakes l).mount = s.mount ∧ (s.offerTakes l).freeCount = s.freeCount ∧
    (s.offerTakes l).pending = s.pending := by
  induction l generalizing s with
  | nil => simp [State.offerTakes]
  | cons a l ih =>
    unfold State.offerTakes
    split <;> simp [ih]

@[simp] theorem offerAll_frame (s : State) :
    s.offerAll.clock = s.clock ∧ s.offerAll.queue = s.queue ∧ s.offerAll.table = s.table ∧ s.offerAll.log = s.log ∧
    s.offerAll.formatRun = s.formatRun ∧ s.offerAll.engine = s.engine ∧ s.offerAll.stores = s.stores ∧
    s.offerAll.sampler = s.sampler ∧
    s.offerAll.monitor = s.monitor ∧ s.offerAll.gauge = s.gauge ∧ s.offerAll.power = s.power ∧ s.offerAll.mount = s.mount ∧
    s.offerAll.freeCount = s.freeCount ∧ s.offerAll.pending = s.pending := by
  unfold State.offerAll
  simp

@[simp] theorem joinChain_frame (s : State) (g : Nat) (t : Take) :
    (s.joinChain g t).clock = s.clock ∧ (s.joinChain g t).port = s.port ∧ (s.joinChain g t).slot = s.slot ∧
    (s.joinChain g t).slots = s.slots ∧ (s.joinChain g t).pool = s.pool ∧ (s.joinChain g t).queue = s.queue ∧
    (s.joinChain g t).log = s.log ∧ (s.joinChain g t).formatRun = s.formatRun ∧ (s.joinChain g t).engine = s.engine ∧
    (s.joinChain g t).stores = s.stores ∧
    (s.joinChain g t).sampler = s.sampler ∧ (s.joinChain g t).monitor = s.monitor ∧ (s.joinChain g t).gauge = s.gauge ∧
    (s.joinChain g t).power = s.power ∧ (s.joinChain g t).mount = s.mount ∧ (s.joinChain g t).freeCount = s.freeCount ∧
    (s.joinChain g t).pending = s.pending := by
  unfold State.joinChain
  split <;> simp

@[simp] theorem completeLoad_frame (s : State) (g : Nat) (t : Take) :
    (s.completeLoad g t).clock = s.clock ∧ (s.completeLoad g t).pool = s.pool ∧ (s.completeLoad g t).queue = s.queue ∧
    (s.completeLoad g t).log = s.log ∧ (s.completeLoad g t).formatRun = s.formatRun ∧ (s.completeLoad g t).engine = s.engine ∧
    (s.completeLoad g t).stores = s.stores ∧
    (s.completeLoad g t).sampler = s.sampler ∧ (s.completeLoad g t).monitor = s.monitor ∧
    (s.completeLoad g t).gauge = s.gauge ∧ (s.completeLoad g t).power = s.power ∧ (s.completeLoad g t).mount = s.mount ∧
    (s.completeLoad g t).freeCount = s.freeCount ∧ (s.completeLoad g t).pending = s.pending := by
  unfold State.completeLoad
  split <;> simp

@[simp] theorem rejectHeader_frame (s : State) (g : Nat) :
    (s.rejectHeader g).clock = s.clock ∧ (s.rejectHeader g).slot = s.slot ∧ (s.rejectHeader g).slots = s.slots ∧
    (s.rejectHeader g).pool = s.pool ∧ (s.rejectHeader g).queue = s.queue ∧ (s.rejectHeader g).table = s.table ∧
    (s.rejectHeader g).log = s.log ∧ (s.rejectHeader g).formatRun = s.formatRun ∧ (s.rejectHeader g).engine = s.engine ∧
    (s.rejectHeader g).stores = s.stores ∧
    (s.rejectHeader g).sampler = s.sampler ∧ (s.rejectHeader g).monitor = s.monitor ∧ (s.rejectHeader g).gauge = s.gauge ∧
    (s.rejectHeader g).power = s.power ∧ (s.rejectHeader g).mount = s.mount ∧ (s.rejectHeader g).freeCount = s.freeCount ∧
    (s.rejectHeader g).pending = s.pending := by
  unfold State.rejectHeader
  repeat' split
  all_goals simp

@[simp] theorem headerEnd_frame (s : State) (g : Nat) (ok : Bool) :
    (s.headerEnd g ok).clock = s.clock ∧ (s.headerEnd g ok).queue = s.queue ∧ (s.headerEnd g ok).log = s.log ∧
    (s.headerEnd g ok).formatRun = s.formatRun ∧ (s.headerEnd g ok).engine = s.engine ∧ (s.headerEnd g ok).stores = s.stores ∧
    (s.headerEnd g ok).sampler = s.sampler ∧ (s.headerEnd g ok).monitor = s.monitor ∧ (s.headerEnd g ok).gauge = s.gauge ∧
    (s.headerEnd g ok).power = s.power ∧ (s.headerEnd g ok).mount = s.mount ∧ (s.headerEnd g ok).pending = s.pending := by
  unfold State.headerEnd
  dsimp only
  repeat' split
  all_goals simp

@[simp] theorem badErase_frame (s : State) (g : Nat) :
    (s.badErase g).clock = s.clock ∧ (s.badErase g).slot = s.slot ∧ (s.badErase g).slots = s.slots ∧
    (s.badErase g).pool = s.pool ∧ (s.badErase g).queue = s.queue ∧ (s.badErase g).table = s.table ∧
    (s.badErase g).log = s.log ∧ (s.badErase g).formatRun = s.formatRun ∧ (s.badErase g).engine = s.engine ∧
    (s.badErase g).stores = s.stores ∧
    (s.badErase g).sampler = s.sampler ∧ (s.badErase g).monitor = s.monitor ∧ (s.badErase g).gauge = s.gauge ∧
    (s.badErase g).power = s.power ∧ (s.badErase g).mount = s.mount ∧ (s.badErase g).freeCount = s.freeCount ∧
    (s.badErase g).pending = s.pending := by
  unfold State.badErase
  simp

@[simp] theorem aheadEnd_frame (s : State) (g : Nat) (ok : Bool) :
    (s.aheadEnd g ok).clock = s.clock ∧ (s.aheadEnd g ok).queue = s.queue ∧ (s.aheadEnd g ok).table = s.table ∧
    (s.aheadEnd g ok).log = s.log ∧ (s.aheadEnd g ok).formatRun = s.formatRun ∧ (s.aheadEnd g ok).engine = s.engine ∧
    (s.aheadEnd g ok).stores = s.stores ∧
    (s.aheadEnd g ok).sampler = s.sampler ∧ (s.aheadEnd g ok).monitor = s.monitor ∧ (s.aheadEnd g ok).gauge = s.gauge ∧
    (s.aheadEnd g ok).power = s.power ∧ (s.aheadEnd g ok).mount = s.mount ∧ (s.aheadEnd g ok).pending = s.pending := by
  unfold State.aheadEnd
  dsimp only
  repeat' split
  all_goals simp

@[simp] theorem takeEraseEnd_frame (s : State) (g : Nat) (ok : Bool) :
    (s.takeEraseEnd g ok).clock = s.clock ∧ (s.takeEraseEnd g ok).queue = s.queue ∧ (s.takeEraseEnd g ok).table = s.table ∧
    (s.takeEraseEnd g ok).log = s.log ∧ (s.takeEraseEnd g ok).formatRun = s.formatRun ∧
    (s.takeEraseEnd g ok).engine = s.engine ∧ (s.takeEraseEnd g ok).stores = s.stores ∧
    (s.takeEraseEnd g ok).sampler = s.sampler ∧
    (s.takeEraseEnd g ok).monitor = s.monitor ∧ (s.takeEraseEnd g ok).gauge = s.gauge ∧ (s.takeEraseEnd g ok).power = s.power ∧
    (s.takeEraseEnd g ok).mount = s.mount ∧ (s.takeEraseEnd g ok).pending = s.pending := by
  unfold State.takeEraseEnd
  dsimp only
  repeat' split
  all_goals simp

@[simp] theorem returnErasing_frame (s : State) (g : Nat) :
    (s.returnErasing g).clock = s.clock ∧ (s.returnErasing g).queue = s.queue ∧ (s.returnErasing g).table = s.table ∧
    (s.returnErasing g).log = s.log ∧ (s.returnErasing g).formatRun = s.formatRun ∧ (s.returnErasing g).engine = s.engine ∧
    (s.returnErasing g).stores = s.stores ∧
    (s.returnErasing g).sampler = s.sampler ∧ (s.returnErasing g).monitor = s.monitor ∧ (s.returnErasing g).gauge = s.gauge ∧
    (s.returnErasing g).power = s.power ∧ (s.returnErasing g).mount = s.mount ∧ (s.returnErasing g).freeCount = s.freeCount ∧
    (s.returnErasing g).pending = s.pending := by
  unfold State.returnErasing
  simp

@[simp] theorem abandonErase_frame (s : State) :
    s.abandonErase.clock = s.clock ∧ s.abandonErase.queue = s.queue ∧ s.abandonErase.table = s.table ∧
    s.abandonErase.log = s.log ∧ s.abandonErase.formatRun = s.formatRun ∧ s.abandonErase.engine = s.engine ∧
    s.abandonErase.stores = s.stores ∧
    s.abandonErase.sampler = s.sampler ∧ s.abandonErase.monitor = s.monitor ∧ s.abandonErase.gauge = s.gauge ∧
    s.abandonErase.power = s.power ∧ s.abandonErase.mount = s.mount ∧ s.abandonErase.pending = s.pending := by
  unfold State.abandonErase
  repeat' split
  all_goals simp

@[simp] theorem parkLowered_frame (s : State) :
    s.parkLowered.clock = s.clock ∧ s.parkLowered.queue = s.queue ∧ s.parkLowered.table = s.table ∧ s.parkLowered.log = s.log ∧
    s.parkLowered.formatRun = s.formatRun ∧ s.parkLowered.engine = s.engine ∧ s.parkLowered.stores = s.stores ∧
    s.parkLowered.sampler = s.sampler ∧
    s.parkLowered.monitor = s.monitor ∧ s.parkLowered.gauge = s.gauge ∧ s.parkLowered.power = s.power ∧
    s.parkLowered.mount = s.mount ∧ s.parkLowered.freeCount = s.freeCount ∧ s.parkLowered.pending = s.pending := by
  unfold State.parkLowered
  simp

@[simp] theorem releaseChains_frame (s : State) (survey : Nat) :
    (s.releaseChains survey).clock = s.clock ∧ (s.releaseChains survey).port = s.port ∧
    (s.releaseChains survey).slot = s.slot ∧ (s.releaseChains survey).slots = s.slots ∧
    (s.releaseChains survey).pool = s.pool ∧ (s.releaseChains survey).queue = s.queue ∧
    (s.releaseChains survey).table = s.table ∧ (s.releaseChains survey).log = s.log ∧
    (s.releaseChains survey).formatRun = s.formatRun ∧ (s.releaseChains survey).engine = s.engine ∧
    (s.releaseChains survey).stores = s.stores ∧
    (s.releaseChains survey).sampler = s.sampler ∧ (s.releaseChains survey).monitor = s.monitor ∧
    (s.releaseChains survey).gauge = s.gauge ∧ (s.releaseChains survey).power = s.power ∧
    (s.releaseChains survey).mount = s.mount ∧ (s.releaseChains survey).freeCount = s.freeCount ∧
    (s.releaseChains survey).pending = s.pending := by
  unfold State.releaseChains
  simp

@[simp] theorem issueEntry_frame (s : State) (e : Entry) (g p : Nat) :
    (s.issueEntry e g p).clock = s.clock ∧ (s.issueEntry e g p).port = s.port ∧ (s.issueEntry e g p).slot = s.slot ∧
    (s.issueEntry e g p).slots = s.slots ∧ (s.issueEntry e g p).pool = s.pool ∧ (s.issueEntry e g p).table = s.table ∧
    (s.issueEntry e g p).log = s.log ∧ (s.issueEntry e g p).formatRun = s.formatRun ∧ (s.issueEntry e g p).engine = s.engine ∧
    (s.issueEntry e g p).stores = s.stores ∧
    (s.issueEntry e g p).sampler = s.sampler ∧ (s.issueEntry e g p).monitor = s.monitor ∧
    (s.issueEntry e g p).gauge = s.gauge ∧ (s.issueEntry e g p).power = s.power ∧ (s.issueEntry e g p).mount = s.mount ∧
    (s.issueEntry e g p).freeCount = s.freeCount ∧ (s.issueEntry e g p).pending = s.pending := by
  unfold State.issueEntry
  simp

@[simp] theorem drain_frame (s : State) (seen : List Nat) (l : List Entry) :
    (s.drain seen l).1.clock = s.clock ∧ (s.drain seen l).1.table = s.table ∧ (s.drain seen l).1.log = s.log ∧
    (s.drain seen l).1.formatRun = s.formatRun ∧ (s.drain seen l).1.engine = s.engine ∧ (s.drain seen l).1.stores = s.stores ∧
    (s.drain seen l).1.sampler = s.sampler ∧ (s.drain seen l).1.monitor = s.monitor ∧ (s.drain seen l).1.gauge = s.gauge ∧
    (s.drain seen l).1.power = s.power ∧ (s.drain seen l).1.mount = s.mount ∧ (s.drain seen l).1.freeCount = s.freeCount ∧
    (s.drain seen l).1.pending = s.pending := by
  induction l generalizing s seen with
  | nil => simp [State.drain]
  | cons a l ih =>
    unfold State.drain
    repeat' split
    all_goals simp [ih]

@[simp] theorem countFairness_frame (s : State) :
    s.countFairness.clock = s.clock ∧ s.countFairness.port = s.port ∧ s.countFairness.slot = s.slot ∧
    s.countFairness.slots = s.slots ∧ s.countFairness.pool = s.pool ∧ s.countFairness.queue = s.queue ∧
    s.countFairness.table = s.table ∧ s.countFairness.log = s.log ∧ s.countFairness.formatRun = s.formatRun ∧
    s.countFairness.engine = s.engine ∧ s.countFairness.stores = s.stores ∧ s.countFairness.sampler = s.sampler ∧
    s.countFairness.monitor = s.monitor ∧
    s.countFairness.gauge = s.gauge ∧ s.countFairness.power = s.power ∧ s.countFairness.mount = s.mount ∧
    s.countFairness.freeCount = s.freeCount ∧ s.countFairness.pending = s.pending := by
  unfold State.countFairness
  split <;> simp

theorem startVerify_frame (s : State) (u : State) (h : s.startVerify = some u) :
    u.clock = s.clock ∧ u.port = s.port ∧ u.slot = s.slot ∧ u.slots = s.slots ∧ u.pool = s.pool ∧ u.table = s.table ∧
    u.log = s.log ∧ u.formatRun = s.formatRun ∧ u.engine = s.engine ∧ u.stores = s.stores ∧ u.sampler = s.sampler ∧
    u.monitor = s.monitor ∧
    u.gauge = s.gauge ∧ u.power = s.power ∧ u.mount = s.mount ∧ u.freeCount = s.freeCount ∧ u.pending = s.pending := by
  unfold State.startVerify at h
  repeat' split at h
  all_goals cases h
  simp

theorem startIndex_frame (s : State) (u : State) (h : s.startIndex = some u) :
    u.clock = s.clock ∧ u.port = s.port ∧ u.slot = s.slot ∧ u.slots = s.slots ∧ u.pool = s.pool ∧ u.queue = s.queue ∧
    u.table = s.table ∧ u.formatRun = s.formatRun ∧ u.engine = s.engine ∧ u.stores = s.stores ∧ u.sampler = s.sampler ∧
    u.monitor = s.monitor ∧
    u.gauge = s.gauge ∧ u.power = s.power ∧ u.mount = s.mount ∧ u.freeCount = s.freeCount ∧ u.pending = s.pending := by
  unfold State.startIndex at h
  repeat' split at h
  all_goals cases h
  all_goals simp

theorem startMount_frame (s : State) (u : State) (h : s.startMount = some u) :
    u.clock = s.clock ∧ u.port = s.port ∧ u.slot = s.slot ∧ u.slots = s.slots ∧ u.pool = s.pool ∧ u.queue = s.queue ∧
    u.table = s.table ∧ u.log = s.log ∧ u.formatRun = s.formatRun ∧ u.engine = s.engine ∧ u.stores = s.stores ∧
    u.sampler = s.sampler ∧
    u.monitor = s.monitor ∧ u.gauge = s.gauge ∧ u.power = s.power ∧ u.mount = s.mount ∧ u.freeCount = s.freeCount ∧
    u.pending = s.pending := by
  obtain ⟨p, _, rfl⟩ := Option.map_eq_some_iff.mp h
  simp

theorem startTake_frame (s : State) (t : Take) (u : State) (h : s.startTake t = some u) :
    u.clock = s.clock ∧ u.port = s.port ∧ u.slot = s.slot ∧ u.slots = s.slots ∧ u.pool = s.pool ∧ u.queue = s.queue ∧
    u.table = s.table ∧ u.log = s.log ∧ u.formatRun = s.formatRun ∧ u.engine = s.engine ∧ u.stores = s.stores ∧
    u.sampler = s.sampler ∧
    u.monitor = s.monitor ∧ u.gauge = s.gauge ∧ u.power = s.power ∧ u.mount = s.mount ∧ u.freeCount = s.freeCount ∧
    u.pending = s.pending := by
  unfold State.startTake at h
  split at h
  all_goals simp at h
  all_goals subst h
  all_goals simp

theorem startFirst_frame (s : State) (l : List Take) (u : State) (h : s.startFirst l = some u) :
    u.clock = s.clock ∧ u.port = s.port ∧ u.slot = s.slot ∧ u.slots = s.slots ∧ u.pool = s.pool ∧ u.queue = s.queue ∧
    u.table = s.table ∧ u.log = s.log ∧ u.formatRun = s.formatRun ∧ u.engine = s.engine ∧ u.stores = s.stores ∧
    u.sampler = s.sampler ∧
    u.monitor = s.monitor ∧ u.gauge = s.gauge ∧ u.power = s.power ∧ u.mount = s.mount ∧ u.freeCount = s.freeCount ∧
    u.pending = s.pending := by
  induction l with
  | nil => simp [State.startFirst] at h
  | cons a l ih =>
    unfold State.startFirst at h
    split at h
    · rename_i e
      cases h
      exact startTake_frame s a _ e
    · exact ih h

theorem startTakes_frame (s : State) (u : State) (h : s.startTakes = some u) :
    u.clock = s.clock ∧ u.port = s.port ∧ u.slot = s.slot ∧ u.slots = s.slots ∧ u.pool = s.pool ∧ u.queue = s.queue ∧
    u.table = s.table ∧ u.log = s.log ∧ u.formatRun = s.formatRun ∧ u.engine = s.engine ∧ u.stores = s.stores ∧
    u.sampler = s.sampler ∧
    u.monitor = s.monitor ∧ u.gauge = s.gauge ∧ u.power = s.power ∧ u.mount = s.mount ∧ u.freeCount = s.freeCount ∧
    u.pending = s.pending := by
  exact startFirst_frame s _ u h

@[simp] theorem startCommit_frame (s : State) :
    s.startCommit.1.clock = s.clock ∧ s.startCommit.1.table = s.table ∧ s.startCommit.1.log = s.log ∧
    s.startCommit.1.formatRun = s.formatRun ∧ s.startCommit.1.engine = s.engine ∧ s.startCommit.1.stores = s.stores ∧
    s.startCommit.1.sampler = s.sampler ∧
    s.startCommit.1.monitor = s.monitor ∧ s.startCommit.1.gauge = s.gauge ∧ s.startCommit.1.power = s.power ∧
    s.startCommit.1.mount = s.mount ∧ s.startCommit.1.freeCount = s.freeCount ∧ s.startCommit.1.pending = s.pending := by
  unfold State.startCommit
  split
  · rename_i e
    simp [startTakes_frame s _ e]
  · have h := drain_frame s [] s.queue
    generalize s.drain [] s.queue = r at h
    obtain ⟨t, b⟩ := r
    cases b
    · dsimp only at h ⊢
      split
      · rename_i e
        simp [startTakes_frame t _ e, h]
      · exact h
    · simpa using h

theorem startRead_frame (s : State) (u : State) (h : s.startRead = some u) :
    u.clock = s.clock ∧ u.port = s.port ∧ u.slot = s.slot ∧ u.slots = s.slots ∧ u.pool = s.pool ∧ u.queue = s.queue ∧
    u.table = s.table ∧ u.log = s.log ∧ u.formatRun = s.formatRun ∧ u.engine = s.engine ∧ u.stores = s.stores ∧
    u.sampler = s.sampler ∧
    u.monitor = s.monitor ∧ u.gauge = s.gauge ∧ u.power = s.power ∧ u.mount = s.mount ∧ u.freeCount = s.freeCount ∧
    u.pending = s.pending := by
  unfold State.startRead at h
  repeat' split at h
  all_goals cases h
  simp

@[simp] theorem startAhead_frame (s : State) :
    s.startAhead.clock = s.clock ∧ s.startAhead.port = s.port ∧ s.startAhead.slot = s.slot ∧ s.startAhead.slots = s.slots ∧
    s.startAhead.pool = s.pool ∧ s.startAhead.queue = s.queue ∧ s.startAhead.table = s.table ∧ s.startAhead.log = s.log ∧
    s.startAhead.formatRun = s.formatRun ∧ s.startAhead.engine = s.engine ∧ s.startAhead.stores = s.stores ∧
    s.startAhead.sampler = s.sampler ∧
    s.startAhead.monitor = s.monitor ∧ s.startAhead.gauge = s.gauge ∧ s.startAhead.power = s.power ∧
    s.startAhead.mount = s.mount ∧ s.startAhead.freeCount = s.freeCount ∧ s.startAhead.pending = s.pending := by
  unfold State.startAhead
  dsimp only
  repeat' split
  all_goals simp

@[simp] theorem startLow_frame (s : State) :
    s.startLow.clock = s.clock ∧ s.startLow.table = s.table ∧ s.startLow.log = s.log ∧ s.startLow.formatRun = s.formatRun ∧
    s.startLow.engine = s.engine ∧ s.startLow.stores = s.stores ∧ s.startLow.sampler = s.sampler ∧
    s.startLow.monitor = s.monitor ∧
    s.startLow.gauge = s.gauge ∧ s.startLow.power = s.power ∧ s.startLow.mount = s.mount ∧ s.startLow.freeCount = s.freeCount ∧
    s.startLow.pending = s.pending := by
  unfold State.startLow
  split
  · rename_i e
    split at e
    · simp [startRead_frame s _ e]
    · cases e
  · have h := startCommit_frame s
    generalize s.startCommit = r at h
    obtain ⟨t, b⟩ := r
    cases b
    · dsimp only at h ⊢
      split
      · rename_i e
        simp [startRead_frame t _ e, h]
      · simpa using h
    · exact h

@[simp] theorem settleFairness_frame (s : State) :
    s.settleFairness.clock = s.clock ∧ s.settleFairness.table = s.table ∧ s.settleFairness.formatRun = s.formatRun ∧ s.settleFairness.engine = s.engine ∧
    s.settleFairness.stores = s.stores ∧
    s.settleFairness.sampler = s.sampler ∧ s.settleFairness.monitor = s.monitor ∧ s.settleFairness.gauge = s.gauge ∧ s.settleFairness.power = s.power ∧
    s.settleFairness.mount = s.mount ∧ s.settleFairness.freeCount = s.freeCount ∧ s.settleFairness.pending = s.pending := by
  unfold State.settleFairness
  split <;> simp

@[simp] theorem chooseLow_frame (s : State) :
    s.chooseLow.clock = s.clock ∧ s.chooseLow.table = s.table ∧ s.chooseLow.formatRun = s.formatRun ∧ s.chooseLow.engine = s.engine ∧
    s.chooseLow.stores = s.stores ∧
    s.chooseLow.sampler = s.sampler ∧ s.chooseLow.monitor = s.monitor ∧ s.chooseLow.gauge = s.gauge ∧ s.chooseLow.power = s.power ∧
    s.chooseLow.mount = s.mount ∧ s.chooseLow.freeCount = s.freeCount ∧ s.chooseLow.pending = s.pending := by
  unfold State.chooseLow
  split
  · rename_i e
    simp [startIndex_frame s _ e]
  · split
    · rename_i e
      simp [startMount_frame s _ e]
    · simp

@[simp] theorem choose_frame (s : State) :
    s.choose.clock = s.clock ∧ s.choose.table = s.table ∧ s.choose.formatRun = s.formatRun ∧ s.choose.engine = s.engine ∧
    s.choose.stores = s.stores ∧
    s.choose.sampler = s.sampler ∧ s.choose.monitor = s.monitor ∧ s.choose.gauge = s.gauge ∧ s.choose.power = s.power ∧
    s.choose.mount = s.mount ∧ s.choose.freeCount = s.freeCount ∧ s.choose.pending = s.pending := by
  unfold State.choose
  split
  · rename_i e
    simp [startVerify_frame s _ e]
  · split <;> simp

@[simp] theorem arbitrate_frame (s : State) :
    s.arbitrate.clock = s.clock ∧ s.arbitrate.table = s.table ∧ s.arbitrate.formatRun = s.formatRun ∧
    s.arbitrate.engine = s.engine ∧ s.arbitrate.stores = s.stores ∧ s.arbitrate.sampler = s.sampler ∧
    s.arbitrate.monitor = s.monitor ∧
    s.arbitrate.gauge = s.gauge ∧ s.arbitrate.power = s.power ∧ s.arbitrate.mount = s.mount ∧
    s.arbitrate.freeCount = s.freeCount ∧ s.arbitrate.pending = s.pending := by
  unfold State.arbitrate
  repeat' split
  all_goals simp

end Sys2Proof.Machine
end

