-- ==== Sys2Proof/Laws/BlockFrame.lean ====
section
/-! SUPPORT. What each operation of the other blocks leaves alone: the Index Log, the Drop Monitor, the Battery Gauge, Power Control, the Read
Engine, mount, FORMAT, the steps that follow at once, and the Command Unit's replies. -/

namespace Sys2Proof.Machine

@[simp] theorem restartReport_frame (s : State) :
    s.restartReport.port = s.port ∧ s.restartReport.slot = s.slot ∧ s.restartReport.slots = s.slots ∧
    s.restartReport.pool = s.pool ∧ s.restartReport.queue = s.queue ∧ s.restartReport.media = s.media ∧
    s.restartReport.table = s.table ∧ s.restartReport.log = s.log ∧ s.restartReport.formatRun = s.formatRun ∧
    s.restartReport.engine = s.engine ∧ s.restartReport.stores = s.stores ∧ s.restartReport.sampler = s.sampler ∧
    s.restartReport.monitor = s.monitor ∧
    s.restartReport.gauge = s.gauge ∧ s.restartReport.power = s.power ∧ s.restartReport.mount = s.mount ∧
    s.restartReport.freeCount = s.freeCount ∧ s.restartReport.pending = s.pending := by
  unfold State.restartReport
  simp

@[simp] theorem takeGaugeSettings_frame (s : State) (v : GaugeSettings) :
    (s.takeGaugeSettings v).port = s.port ∧ (s.takeGaugeSettings v).slot = s.slot ∧ (s.takeGaugeSettings v).slots = s.slots ∧
    (s.takeGaugeSettings v).pool = s.pool ∧ (s.takeGaugeSettings v).queue = s.queue ∧ (s.takeGaugeSettings v).media = s.media ∧
    (s.takeGaugeSettings v).table = s.table ∧ (s.takeGaugeSettings v).log = s.log ∧
    (s.takeGaugeSettings v).formatRun = s.formatRun ∧ (s.takeGaugeSettings v).engine = s.engine ∧
    (s.takeGaugeSettings v).stores = s.stores ∧
    (s.takeGaugeSettings v).sampler = s.sampler ∧ (s.takeGaugeSettings v).monitor = s.monitor ∧
    (s.takeGaugeSettings v).power = s.power ∧ (s.takeGaugeSettings v).mount = s.mount ∧
    (s.takeGaugeSettings v).freeCount = s.freeCount ∧ (s.takeGaugeSettings v).pending = s.pending := by
  unfold State.takeGaugeSettings
  simp

@[simp] theorem powerDownEnded_frame (s : State) (left : Nat) :
    (s.powerDownEnded left).clock = s.clock ∧ (s.powerDownEnded left).table = s.table ∧ (s.powerDownEnded left).log = s.log ∧
    (s.powerDownEnded left).formatRun = s.formatRun ∧ (s.powerDownEnded left).engine = s.engine ∧
    (s.powerDownEnded left).stores = s.stores ∧
    (s.powerDownEnded left).sampler = s.sampler ∧ (s.powerDownEnded left).monitor = s.monitor ∧
    (s.powerDownEnded left).gauge = s.gauge ∧ (s.powerDownEnded left).mount = s.mount ∧
    (s.powerDownEnded left).freeCount = s.freeCount ∧ (s.powerDownEnded left).pending = s.pending := by
  unfold State.powerDownEnded
  split <;> simp

@[simp] theorem giveUp_frame (s : State) (left : Nat) (body : EntryBody) :
    (s.giveUp left body).clock = s.clock ∧ (s.giveUp left body).log = s.log ∧ (s.giveUp left body).formatRun = s.formatRun ∧
    (s.giveUp left body).engine = s.engine ∧ (s.giveUp left body).stores = s.stores ∧ (s.giveUp left body).sampler = s.sampler ∧
    (s.giveUp left body).monitor = s.monitor ∧ (s.giveUp left body).gauge = s.gauge ∧ (s.giveUp left body).mount = s.mount ∧
    (s.giveUp left body).freeCount = s.freeCount ∧ (s.giveUp left body).pending = s.pending := by
  unfold State.giveUp
  split <;> simp

@[simp] theorem durable_frame (s : State) (body : EntryBody) :
    (s.durable body).log = s.log ∧ (s.durable body).formatRun = s.formatRun ∧ (s.durable body).engine = s.engine ∧
    (s.durable body).stores = s.stores ∧
    (s.durable body).sampler = s.sampler ∧ (s.durable body).mount = s.mount ∧ (s.durable body).freeCount = s.freeCount ∧
    (s.durable body).pending = s.pending := by
  unfold State.durable
  split <;> simp

@[simp] theorem releaseOf_frame (s : State) (e : IndexEntry) :
    (s.releaseOf e).clock = s.clock ∧ (s.releaseOf e).port = s.port ∧ (s.releaseOf e).slot = s.slot ∧
    (s.releaseOf e).slots = s.slots ∧ (s.releaseOf e).queue = s.queue ∧ (s.releaseOf e).media = s.media ∧
    (s.releaseOf e).table = s.table ∧ (s.releaseOf e).log = s.log ∧ (s.releaseOf e).formatRun = s.formatRun ∧
    (s.releaseOf e).engine = s.engine ∧ (s.releaseOf e).stores = s.stores ∧ (s.releaseOf e).sampler = s.sampler ∧
    (s.releaseOf e).monitor = s.monitor ∧
    (s.releaseOf e).gauge = s.gauge ∧ (s.releaseOf e).power = s.power ∧ (s.releaseOf e).mount = s.mount ∧
    (s.releaseOf e).freeCount = s.freeCount ∧ (s.releaseOf e).pending = s.pending := by
  unfold State.releaseOf
  split <;> simp

@[simp] theorem dropHead_frame (s : State) :
    s.dropHead.clock = s.clock ∧ s.dropHead.port = s.port ∧ s.dropHead.slot = s.slot ∧ s.dropHead.slots = s.slots ∧
    s.dropHead.queue = s.queue ∧ s.dropHead.media = s.media ∧ s.dropHead.table = s.table ∧ s.dropHead.formatRun = s.formatRun ∧
    s.dropHead.engine = s.engine ∧ s.dropHead.stores = s.stores ∧ s.dropHead.sampler = s.sampler ∧
    s.dropHead.monitor = s.monitor ∧
    s.dropHead.gauge = s.gauge ∧ s.dropHead.power = s.power ∧ s.dropHead.mount = s.mount ∧ s.dropHead.freeCount = s.freeCount ∧
    s.dropHead.pending = s.pending := by
  unfold State.dropHead
  split <;> simp

@[simp] theorem withdraw_frame (s : State) (isIt : EntryBody → Bool) :
    (s.withdraw isIt).clock = s.clock ∧ (s.withdraw isIt).port = s.port ∧ (s.withdraw isIt).slot = s.slot ∧
    (s.withdraw isIt).slots = s.slots ∧ (s.withdraw isIt).queue = s.queue ∧ (s.withdraw isIt).media = s.media ∧
    (s.withdraw isIt).table = s.table ∧ (s.withdraw isIt).formatRun = s.formatRun ∧ (s.withdraw isIt).engine = s.engine ∧
    (s.withdraw isIt).stores = s.stores ∧
    (s.withdraw isIt).sampler = s.sampler ∧ (s.withdraw isIt).monitor = s.monitor ∧ (s.withdraw isIt).gauge = s.gauge ∧
    (s.withdraw isIt).power = s.power ∧ (s.withdraw isIt).mount = s.mount ∧ (s.withdraw isIt).freeCount = s.freeCount ∧
    (s.withdraw isIt).pending = s.pending := by
  unfold State.withdraw
  split <;> simp

@[simp] theorem giveUpList_frame (s : State) (left : Nat) (l : List IndexEntry) :
    (s.giveUpList left l).clock = s.clock ∧ (s.giveUpList left l).formatRun = s.formatRun ∧
    (s.giveUpList left l).engine = s.engine ∧ (s.giveUpList left l).stores = s.stores ∧
    (s.giveUpList left l).sampler = s.sampler ∧
    (s.giveUpList left l).monitor = s.monitor ∧ (s.giveUpList left l).gauge = s.gauge ∧ (s.giveUpList left l).mount = s.mount ∧
    (s.giveUpList left l).freeCount = s.freeCount ∧ (s.giveUpList left l).pending = s.pending := by
  induction l generalizing s left with
  | nil => simp [State.giveUpList]
  | cons a l ih => simp [State.giveUpList, ih]

@[simp] theorem giveUpAll_frame (s : State) (left : Nat) :
    (s.giveUpAll left).clock = s.clock ∧ (s.giveUpAll left).formatRun = s.formatRun ∧ (s.giveUpAll left).engine = s.engine ∧
    (s.giveUpAll left).stores = s.stores ∧
    (s.giveUpAll left).sampler = s.sampler ∧ (s.giveUpAll left).monitor = s.monitor ∧ (s.giveUpAll left).gauge = s.gauge ∧
    (s.giveUpAll left).mount = s.mount ∧ (s.giveUpAll left).freeCount = s.freeCount ∧ (s.giveUpAll left).pending = s.pending := by
  unfold State.giveUpAll
  simp

@[simp] theorem enterLogFailed_frame (s : State) :
    s.enterLogFailed.clock = s.clock ∧ s.enterLogFailed.engine = s.engine ∧ s.enterLogFailed.stores = s.stores ∧
    s.enterLogFailed.sampler = s.sampler ∧
    s.enterLogFailed.monitor = s.monitor ∧ s.enterLogFailed.gauge = s.gauge ∧ s.enterLogFailed.mount = s.mount ∧
    s.enterLogFailed.freeCount = s.freeCount ∧ s.enterLogFailed.pending = s.pending := by
  unfold State.enterLogFailed
  dsimp only
  split <;> simp

@[simp] theorem nextRollover_frame (s : State) :
    s.nextRollover.clock = s.clock ∧ s.nextRollover.engine = s.engine ∧ s.nextRollover.stores = s.stores ∧
    s.nextRollover.sampler = s.sampler ∧
    s.nextRollover.monitor = s.monitor ∧ s.nextRollover.gauge = s.gauge ∧ s.nextRollover.mount = s.mount ∧
    s.nextRollover.freeCount = s.freeCount ∧ s.nextRollover.pending = s.pending := by
  unfold State.nextRollover
  split <;> simp

@[simp] theorem grantSnapshot_frame (s : State) (c b : Nat) :
    (s.grantSnapshot c b).clock = s.clock ∧ (s.grantSnapshot c b).port = s.port ∧ (s.grantSnapshot c b).slot = s.slot ∧
    (s.grantSnapshot c b).slots = s.slots ∧ (s.grantSnapshot c b).queue = s.queue ∧ (s.grantSnapshot c b).media = s.media ∧
    (s.grantSnapshot c b).table = s.table ∧ (s.grantSnapshot c b).formatRun = s.formatRun ∧
    (s.grantSnapshot c b).engine = s.engine ∧ (s.grantSnapshot c b).stores = s.stores ∧
    (s.grantSnapshot c b).sampler = s.sampler ∧
    (s.grantSnapshot c b).monitor = s.monitor ∧ (s.grantSnapshot c b).gauge = s.gauge ∧ (s.grantSnapshot c b).power = s.power ∧
    (s.grantSnapshot c b).mount = s.mount ∧ (s.grantSnapshot c b).freeCount = s.freeCount ∧
    (s.grantSnapshot c b).pending = s.pending := by
  unfold State.grantSnapshot
  simp

@[simp] theorem askSnapshot_frame (s : State) (c : Nat) :
    (s.askSnapshot c).clock = s.clock ∧ (s.askSnapshot c).port = s.port ∧ (s.askSnapshot c).slot = s.slot ∧
    (s.askSnapshot c).slots = s.slots ∧ (s.askSnapshot c).queue = s.queue ∧ (s.askSnapshot c).media = s.media ∧
    (s.askSnapshot c).table = s.table ∧ (s.askSnapshot c).formatRun = s.formatRun ∧ (s.askSnapshot c).engine = s.engine ∧
    (s.askSnapshot c).stores = s.stores ∧
    (s.askSnapshot c).sampler = s.sampler ∧ (s.askSnapshot c).monitor = s.monitor ∧ (s.askSnapshot c).gauge = s.gauge ∧
    (s.askSnapshot c).power = s.power ∧ (s.askSnapshot c).mount = s.mount ∧ (s.askSnapshot c).freeCount = s.freeCount ∧
    (s.askSnapshot c).pending = s.pending := by
  unfold State.askSnapshot
  split <;> simp

@[simp] theorem headReady_frame (s : State) :
    s.headReady.clock = s.clock ∧ s.headReady.engine = s.engine ∧ s.headReady.stores = s.stores ∧
    s.headReady.sampler = s.sampler ∧
    s.headReady.monitor = s.monitor ∧ s.headReady.gauge = s.gauge ∧ s.headReady.mount = s.mount ∧
    s.headReady.freeCount = s.freeCount ∧ s.headReady.pending = s.pending := by
  unfold State.headReady
  split <;> simp

@[simp] theorem grantEntry_frame (s : State) (b : Nat) :
    (s.grantEntry b).clock = s.clock ∧ (s.grantEntry b).engine = s.engine ∧ (s.grantEntry b).stores = s.stores ∧
    (s.grantEntry b).sampler = s.sampler ∧
    (s.grantEntry b).monitor = s.monitor ∧ (s.grantEntry b).gauge = s.gauge ∧ (s.grantEntry b).mount = s.mount ∧
    (s.grantEntry b).freeCount = s.freeCount ∧ (s.grantEntry b).pending = s.pending := by
  unfold State.grantEntry
  split <;> simp

@[simp] theorem askEntry_frame (s : State) :
    s.askEntry.clock = s.clock ∧ s.askEntry.engine = s.engine ∧ s.askEntry.stores = s.stores ∧ s.askEntry.sampler = s.sampler ∧
    s.askEntry.monitor = s.monitor ∧ s.askEntry.gauge = s.gauge ∧ s.askEntry.mount = s.mount ∧
    s.askEntry.freeCount = s.freeCount ∧ s.askEntry.pending = s.pending := by
  unfold State.askEntry
  repeat' split
  all_goals simp

@[simp] theorem pumpLog_frame (s : State) :
    s.pumpLog.clock = s.clock ∧ s.pumpLog.engine = s.engine ∧ s.pumpLog.stores = s.stores ∧ s.pumpLog.sampler = s.sampler ∧
    s.pumpLog.monitor = s.monitor ∧
    s.pumpLog.gauge = s.gauge ∧ s.pumpLog.mount = s.mount ∧ s.pumpLog.freeCount = s.freeCount ∧
    s.pumpLog.pending = s.pending := by
  unfold State.pumpLog
  repeat' split
  all_goals simp

@[simp] theorem requestEntry_frame (s : State) (body : EntryBody) :
    (s.requestEntry body).clock = s.clock ∧ (s.requestEntry body).engine = s.engine ∧ (s.requestEntry body).stores = s.stores ∧
    (s.requestEntry body).sampler = s.sampler ∧ (s.requestEntry body).monitor = s.monitor ∧
    (s.requestEntry body).gauge = s.gauge ∧ (s.requestEntry body).mount = s.mount ∧
    (s.requestEntry body).freeCount = s.freeCount ∧ (s.requestEntry body).pending = s.pending := by
  unfold State.requestEntry
  dsimp only
  repeat' split
  all_goals simp

@[simp] theorem entryDurable_frame (s : State) (e : IndexEntry) :
    (s.entryDurable e).engine = s.engine ∧ (s.entryDurable e).stores = s.stores ∧ (s.entryDurable e).sampler = s.sampler ∧
    (s.entryDurable e).mount = s.mount ∧
    (s.entryDurable e).freeCount = s.freeCount ∧ (s.entryDurable e).pending = s.pending := by
  unfold State.entryDurable
  simp

@[simp] theorem entryFailed_frame (s : State) (e : IndexEntry) :
    (s.entryFailed e).clock = s.clock ∧ (s.entryFailed e).engine = s.engine ∧ (s.entryFailed e).stores = s.stores ∧
    (s.entryFailed e).sampler = s.sampler ∧
    (s.entryFailed e).monitor = s.monitor ∧ (s.entryFailed e).gauge = s.gauge ∧ (s.entryFailed e).mount = s.mount ∧
    (s.entryFailed e).freeCount = s.freeCount ∧ (s.entryFailed e).pending = s.pending := by
  unfold State.entryFailed
  split <;> simp

@[simp] theorem indexProgramEnd_frame (s : State) (g p : Nat) (ok : Bool) :
    (s.indexProgramEnd g p ok).engine = s.engine ∧ (s.indexProgramEnd g p ok).stores = s.stores ∧
    (s.indexProgramEnd g p ok).sampler = s.sampler ∧
    (s.indexProgramEnd g p ok).mount = s.mount ∧ (s.indexProgramEnd g p ok).pending = s.pending := by
  unfold State.indexProgramEnd
  dsimp only
  repeat' split
  all_goals simp

@[simp] theorem failCandidate_frame (s : State) (c : Nat) :
    (s.failCandidate c).clock = s.clock ∧ (s.failCandidate c).engine = s.engine ∧ (s.failCandidate c).stores = s.stores ∧
    (s.failCandidate c).sampler = s.sampler ∧
    (s.failCandidate c).monitor = s.monitor ∧ (s.failCandidate c).gauge = s.gauge ∧ (s.failCandidate c).mount = s.mount ∧
    (s.failCandidate c).freeCount = s.freeCount ∧ (s.failCandidate c).pending = s.pending := by
  unfold State.failCandidate
  simp

@[simp] theorem indexEraseEnd_frame (s : State) (c : Nat) (ok : Bool) :
    (s.indexEraseEnd c ok).clock = s.clock ∧ (s.indexEraseEnd c ok).engine = s.engine ∧ (s.indexEraseEnd c ok).stores = s.stores ∧
    (s.indexEraseEnd c ok).sampler = s.sampler ∧ (s.indexEraseEnd c ok).monitor = s.monitor ∧
    (s.indexEraseEnd c ok).gauge = s.gauge ∧ (s.indexEraseEnd c ok).mount = s.mount ∧
    (s.indexEraseEnd c ok).pending = s.pending := by
  unfold State.indexEraseEnd
  split <;> simp

@[simp] theorem formatDone_frame (s : State) :
    s.formatDone.clock = s.clock ∧ s.formatDone.slots = s.slots ∧ s.formatDone.pool = s.pool ∧ s.formatDone.queue = s.queue ∧
    s.formatDone.media = s.media ∧ s.formatDone.table = s.table ∧ s.formatDone.log = s.log ∧ s.formatDone.engine = s.engine ∧
    s.formatDone.stores = s.stores ∧
    s.formatDone.sampler = s.sampler ∧ s.formatDone.monitor = s.monitor ∧ s.formatDone.gauge = s.gauge ∧
    s.formatDone.mount = s.mount ∧ s.formatDone.freeCount = s.freeCount ∧ s.formatDone.pending = s.pending := by
  unfold State.formatDone
  simp

@[simp] theorem snapshotEnd_frame (s : State) (c : Nat) (ok : Bool) :
    (s.snapshotEnd c ok).clock = s.clock ∧ (s.snapshotEnd c ok).engine = s.engine ∧ (s.snapshotEnd c ok).stores = s.stores ∧
    (s.snapshotEnd c ok).sampler = s.sampler ∧
    (s.snapshotEnd c ok).monitor = s.monitor ∧ (s.snapshotEnd c ok).gauge = s.gauge ∧ (s.snapshotEnd c ok).mount = s.mount ∧
    (s.snapshotEnd c ok).pending = s.pending := by
  unfold State.snapshotEnd
  dsimp only
  repeat' split
  all_goals simp

@[simp] theorem selfCheck_frame (s : State) (zeroRef fullRef : Nat) :
    (s.selfCheck zeroRef fullRef).clock = s.clock ∧ (s.selfCheck zeroRef fullRef).slot = s.slot ∧
    (s.selfCheck zeroRef fullRef).slots = s.slots ∧ (s.selfCheck zeroRef fullRef).pool = s.pool ∧
    (s.selfCheck zeroRef fullRef).queue = s.queue ∧ (s.selfCheck zeroRef fullRef).media = s.media ∧
    (s.selfCheck zeroRef fullRef).table = s.table ∧ (s.selfCheck zeroRef fullRef).log = s.log ∧
    (s.selfCheck zeroRef fullRef).formatRun = s.formatRun ∧ (s.selfCheck zeroRef fullRef).engine = s.engine ∧
    (s.selfCheck zeroRef fullRef).stores = s.stores ∧
    (s.selfCheck zeroRef fullRef).monitor = s.monitor ∧ (s.selfCheck zeroRef fullRef).gauge = s.gauge ∧
    (s.selfCheck zeroRef fullRef).power = s.power ∧ (s.selfCheck zeroRef fullRef).mount = s.mount ∧
    (s.selfCheck zeroRef fullRef).freeCount = s.freeCount ∧ (s.selfCheck zeroRef fullRef).pending = s.pending := by
  unfold State.selfCheck
  dsimp only
  split <;> simp

@[simp] theorem beginWake_frame (s : State) :
    s.beginWake.clock = s.clock ∧ s.beginWake.port = s.port ∧ s.beginWake.slot = s.slot ∧ s.beginWake.slots = s.slots ∧
    s.beginWake.pool = s.pool ∧ s.beginWake.queue = s.queue ∧ s.beginWake.media = s.media ∧ s.beginWake.table = s.table ∧
    s.beginWake.log = s.log ∧ s.beginWake.formatRun = s.formatRun ∧ s.beginWake.engine = s.engine ∧
    s.beginWake.stores = s.stores ∧
    s.beginWake.sampler = s.sampler ∧ s.beginWake.monitor = s.monitor ∧ s.beginWake.gauge = s.gauge ∧
    s.beginWake.mount = s.mount ∧ s.beginWake.freeCount = s.freeCount ∧ s.beginWake.pending = s.pending := by
  unfold State.beginWake
  split <;> simp

@[simp] theorem abandonDoze_frame (s : State) :
    s.abandonDoze.clock = s.clock ∧ s.abandonDoze.slots = s.slots ∧ s.abandonDoze.pool = s.pool ∧
    s.abandonDoze.queue = s.queue ∧ s.abandonDoze.table = s.table ∧ s.abandonDoze.log = s.log ∧
    s.abandonDoze.formatRun = s.formatRun ∧ s.abandonDoze.engine = s.engine ∧ s.abandonDoze.stores = s.stores ∧
    s.abandonDoze.sampler = s.sampler ∧
    s.abandonDoze.monitor = s.monitor ∧ s.abandonDoze.gauge = s.gauge ∧ s.abandonDoze.mount = s.mount ∧
    s.abandonDoze.freeCount = s.freeCount ∧ s.abandonDoze.pending = s.pending := by
  unfold State.abandonDoze
  split <;> simp

@[simp] theorem beginDozeEntry_frame (s : State) (cause : DozeCause) :
    (s.beginDozeEntry cause).clock = s.clock ∧ (s.beginDozeEntry cause).port = s.port ∧
    (s.beginDozeEntry cause).slot = s.slot ∧ (s.beginDozeEntry cause).media = s.media ∧
    (s.beginDozeEntry cause).table = s.table ∧ (s.beginDozeEntry cause).log = s.log ∧
    (s.beginDozeEntry cause).formatRun = s.formatRun ∧ (s.beginDozeEntry cause).engine = s.engine ∧
    (s.beginDozeEntry cause).stores = s.stores ∧
    (s.beginDozeEntry cause).sampler = s.sampler ∧ (s.beginDozeEntry cause).monitor = s.monitor ∧
    (s.beginDozeEntry cause).gauge = s.gauge ∧ (s.beginDozeEntry cause).mount = s.mount ∧
    (s.beginDozeEntry cause).freeCount = s.freeCount ∧ (s.beginDozeEntry cause).pending = s.pending := by
  unfold State.beginDozeEntry
  simp

@[simp] theorem enterDoze_frame (s : State) (cause : DozeCause) :
    (s.enterDoze cause).clock = s.clock ∧ (s.enterDoze cause).slots = s.slots ∧ (s.enterDoze cause).pool = s.pool ∧
    (s.enterDoze cause).queue = s.queue ∧ (s.enterDoze cause).media = s.media ∧ (s.enterDoze cause).table = s.table ∧
    (s.enterDoze cause).log = s.log ∧ (s.enterDoze cause).formatRun = s.formatRun ∧ (s.enterDoze cause).engine = s.engine ∧
    (s.enterDoze cause).stores = s.stores ∧
    (s.enterDoze cause).monitor = s.monitor ∧ (s.enterDoze cause).gauge = s.gauge ∧ (s.enterDoze cause).mount = s.mount ∧
    (s.enterDoze cause).freeCount = s.freeCount ∧ (s.enterDoze cause).pending = s.pending := by
  unfold State.enterDoze
  split <;> simp

@[simp] theorem dozeStep_frame (s : State) :
    s.dozeStep.clock = s.clock ∧ s.dozeStep.slots = s.slots ∧ s.dozeStep.pool = s.pool ∧ s.dozeStep.queue = s.queue ∧
    s.dozeStep.table = s.table ∧ s.dozeStep.log = s.log ∧ s.dozeStep.formatRun = s.formatRun ∧ s.dozeStep.engine = s.engine ∧
    s.dozeStep.stores = s.stores ∧
    s.dozeStep.monitor = s.monitor ∧ s.dozeStep.gauge = s.gauge ∧ s.dozeStep.mount = s.mount ∧
    s.dozeStep.freeCount = s.freeCount ∧ s.dozeStep.pending = s.pending := by
  unfold State.dozeStep
  repeat' split
  all_goals simp

@[simp] theorem askShutdown_frame (s : State) :
    s.askShutdown.clock = s.clock ∧ s.askShutdown.slots = s.slots ∧ s.askShutdown.pool = s.pool ∧
    s.askShutdown.queue = s.queue ∧ s.askShutdown.table = s.table ∧ s.askShutdown.log = s.log ∧
    s.askShutdown.formatRun = s.formatRun ∧ s.askShutdown.engine = s.engine ∧ s.askShutdown.stores = s.stores ∧
    s.askShutdown.sampler = s.sampler ∧
    s.askShutdown.monitor = s.monitor ∧ s.askShutdown.gauge = s.gauge ∧ s.askShutdown.mount = s.mount ∧
    s.askShutdown.freeCount = s.freeCount ∧ s.askShutdown.pending = s.pending := by
  unfold State.askShutdown
  repeat' split
  all_goals simp

@[simp] theorem cancelShutdown_frame (s : State) :
    s.cancelShutdown.clock = s.clock ∧ s.cancelShutdown.engine = s.engine ∧ s.cancelShutdown.stores = s.stores ∧
    s.cancelShutdown.sampler = s.sampler ∧
    s.cancelShutdown.monitor = s.monitor ∧ s.cancelShutdown.gauge = s.gauge ∧ s.cancelShutdown.mount = s.mount ∧
    s.cancelShutdown.freeCount = s.freeCount ∧ s.cancelShutdown.pending = s.pending := by
  unfold State.cancelShutdown
  dsimp only
  repeat' split
  all_goals simp

@[simp] theorem enterOff_frame (s : State) :
    s.enterOff.clock = s.clock ∧ s.enterOff.slots = s.slots ∧ s.enterOff.pool = s.pool ∧ s.enterOff.queue = s.queue ∧
    s.enterOff.media = s.media ∧ s.enterOff.table = s.table ∧ s.enterOff.log = s.log ∧ s.enterOff.formatRun = s.formatRun ∧
    s.enterOff.monitor = s.monitor ∧ s.enterOff.gauge = s.gauge ∧ s.enterOff.mount = s.mount ∧
    s.enterOff.freeCount = s.freeCount ∧ s.enterOff.pending = s.pending := by
  unfold State.enterOff
  simp

@[simp] theorem keepStep_frame (s : State) :
    s.keepStep.clock = s.clock ∧ s.keepStep.slots = s.slots ∧ s.keepStep.pool = s.pool ∧ s.keepStep.queue = s.queue ∧
    s.keepStep.table = s.table ∧ s.keepStep.log = s.log ∧ s.keepStep.formatRun = s.formatRun ∧ s.keepStep.monitor = s.monitor ∧
    s.keepStep.gauge = s.gauge ∧ s.keepStep.mount = s.mount ∧ s.keepStep.freeCount = s.freeCount ∧
    s.keepStep.pending = s.pending := by
  unfold State.keepStep
  split <;> simp

@[simp] theorem endWake_frame (s : State) :
    s.endWake.clock = s.clock ∧ s.endWake.port = s.port ∧ s.endWake.slot = s.slot ∧ s.endWake.slots = s.slots ∧
    s.endWake.pool = s.pool ∧ s.endWake.queue = s.queue ∧ s.endWake.table = s.table ∧ s.endWake.log = s.log ∧
    s.endWake.formatRun = s.formatRun ∧ s.endWake.engine = s.engine ∧ s.endWake.stores = s.stores ∧
    s.endWake.monitor = s.monitor ∧
    s.endWake.gauge = s.gauge ∧ s.endWake.mount = s.mount ∧ s.endWake.freeCount = s.freeCount ∧
    s.endWake.pending = s.pending := by
  unfold State.endWake
  simp

@[simp] theorem frameKept_frame (s : State) :
    s.frameKept.clock = s.clock ∧ s.frameKept.slots = s.slots ∧ s.frameKept.pool = s.pool ∧ s.frameKept.queue = s.queue ∧
    s.frameKept.table = s.table ∧ s.frameKept.log = s.log ∧ s.frameKept.formatRun = s.formatRun ∧
    s.frameKept.engine = s.engine ∧ s.frameKept.stores = s.stores ∧ s.frameKept.sampler = s.sampler ∧
    s.frameKept.monitor = s.monitor ∧
    s.frameKept.gauge = s.gauge ∧ s.frameKept.mount = s.mount ∧ s.frameKept.freeCount = s.freeCount ∧
    s.frameKept.pending = s.pending := by
  unfold State.frameKept
  dsimp only
  split <;> simp

@[simp] theorem tickIdle_frame (s : State) :
    s.tickIdle.clock = s.clock ∧ s.tickIdle.port = s.port ∧ s.tickIdle.slot = s.slot ∧ s.tickIdle.slots = s.slots ∧
    s.tickIdle.pool = s.pool ∧ s.tickIdle.queue = s.queue ∧ s.tickIdle.media = s.media ∧ s.tickIdle.table = s.table ∧
    s.tickIdle.log = s.log ∧ s.tickIdle.formatRun = s.formatRun ∧ s.tickIdle.engine = s.engine ∧ s.tickIdle.stores = s.stores ∧
    s.tickIdle.sampler = s.sampler ∧ s.tickIdle.monitor = s.monitor ∧ s.tickIdle.gauge = s.gauge ∧ s.tickIdle.mount = s.mount ∧
    s.tickIdle.freeCount = s.freeCount ∧ s.tickIdle.pending = s.pending := by
  unfold State.tickIdle
  split <;> simp

@[simp] theorem tickClock_frame (s : State) :
    s.tickClock.port = s.port ∧ s.tickClock.slot = s.slot ∧ s.tickClock.slots = s.slots ∧ s.tickClock.pool = s.pool ∧
    s.tickClock.queue = s.queue ∧ s.tickClock.media = s.media ∧ s.tickClock.table = s.table ∧ s.tickClock.log = s.log ∧
    s.tickClock.formatRun = s.formatRun ∧ s.tickClock.engine = s.engine ∧ s.tickClock.stores = s.stores ∧
    s.tickClock.sampler = s.sampler ∧
    s.tickClock.monitor = s.monitor ∧ s.tickClock.gauge = s.gauge ∧ s.tickClock.mount = s.mount ∧
    s.tickClock.freeCount = s.freeCount ∧ s.tickClock.pending = s.pending := by
  unfold State.tickClock
  split <;> simp

@[simp] theorem countPages_frame (s : State) (f : PageCounts → PageCounts) :
    (s.countPages f).clock = s.clock ∧ (s.countPages f).port = s.port ∧ (s.countPages f).slot = s.slot ∧
    (s.countPages f).slots = s.slots ∧ (s.countPages f).pool = s.pool ∧ (s.countPages f).queue = s.queue ∧
    (s.countPages f).media = s.media ∧ (s.countPages f).table = s.table ∧ (s.countPages f).log = s.log ∧
    (s.countPages f).formatRun = s.formatRun ∧ (s.countPages f).engine = s.engine ∧ (s.countPages f).stores = s.stores ∧
    (s.countPages f).sampler = s.sampler ∧
    (s.countPages f).gauge = s.gauge ∧ (s.countPages f).power = s.power ∧ (s.countPages f).mount = s.mount ∧
    (s.countPages f).freeCount = s.freeCount ∧ (s.countPages f).pending = s.pending := by
  unfold State.countPages
  simp

@[simp] theorem flagSuspect_frame (s : State) (n : Nat) :
    (s.flagSuspect n).clock = s.clock ∧ (s.flagSuspect n).port = s.port ∧ (s.flagSuspect n).slot = s.slot ∧
    (s.flagSuspect n).slots = s.slots ∧ (s.flagSuspect n).pool = s.pool ∧ (s.flagSuspect n).queue = s.queue ∧
    (s.flagSuspect n).media = s.media ∧ (s.flagSuspect n).log = s.log ∧ (s.flagSuspect n).formatRun = s.formatRun ∧
    (s.flagSuspect n).engine = s.engine ∧ (s.flagSuspect n).stores = s.stores ∧ (s.flagSuspect n).sampler = s.sampler ∧
    (s.flagSuspect n).monitor = s.monitor ∧
    (s.flagSuspect n).gauge = s.gauge ∧ (s.flagSuspect n).power = s.power ∧ (s.flagSuspect n).mount = s.mount ∧
    (s.flagSuspect n).freeCount = s.freeCount ∧ (s.flagSuspect n).pending = s.pending := by
  unfold State.flagSuspect
  simp

@[simp] theorem flagSuspects_frame (s : State) (l : List Entry) :
    (s.flagSuspects l).clock = s.clock ∧ (s.flagSuspects l).port = s.port ∧ (s.flagSuspects l).slot = s.slot ∧
    (s.flagSuspects l).slots = s.slots ∧ (s.flagSuspects l).pool = s.pool ∧ (s.flagSuspects l).queue = s.queue ∧
    (s.flagSuspects l).media = s.media ∧ (s.flagSuspects l).log = s.log ∧ (s.flagSuspects l).formatRun = s.formatRun ∧
    (s.flagSuspects l).engine = s.engine ∧ (s.flagSuspects l).stores = s.stores ∧ (s.flagSuspects l).sampler = s.sampler ∧
    (s.flagSuspects l).monitor = s.monitor ∧
    (s.flagSuspects l).gauge = s.gauge ∧ (s.flagSuspects l).power = s.power ∧ (s.flagSuspects l).mount = s.mount ∧
    (s.flagSuspects l).freeCount = s.freeCount ∧ (s.flagSuspects l).pending = s.pending := by
  induction l generalizing s with
  | nil => simp [State.flagSuspects]
  | cons a l ih => simp [State.flagSuspects, ih]

@[simp] theorem suspectHeld_frame (s : State) :
    s.suspectHeld.clock = s.clock ∧ s.suspectHeld.port = s.port ∧ s.suspectHeld.slot = s.slot ∧ s.suspectHeld.slots = s.slots ∧
    s.suspectHeld.pool = s.pool ∧ s.suspectHeld.media = s.media ∧ s.suspectHeld.log = s.log ∧
    s.suspectHeld.formatRun = s.formatRun ∧ s.suspectHeld.engine = s.engine ∧ s.suspectHeld.stores = s.stores ∧
    s.suspectHeld.sampler = s.sampler ∧
    s.suspectHeld.monitor = s.monitor ∧ s.suspectHeld.gauge = s.gauge ∧ s.suspectHeld.power = s.power ∧
    s.suspectHeld.mount = s.mount ∧ s.suspectHeld.freeCount = s.freeCount ∧ s.suspectHeld.pending = s.pending := by
  unfold State.suspectHeld
  simp

@[simp] theorem raisePark_frame (s : State) :
    s.raisePark.clock = s.clock ∧ s.raisePark.queue = s.queue ∧ s.raisePark.table = s.table ∧ s.raisePark.log = s.log ∧
    s.raisePark.formatRun = s.formatRun ∧ s.raisePark.engine = s.engine ∧ s.raisePark.stores = s.stores ∧
    s.raisePark.sampler = s.sampler ∧
    s.raisePark.gauge = s.gauge ∧ s.raisePark.power = s.power ∧ s.raisePark.mount = s.mount ∧
    s.raisePark.pending = s.pending := by
  unfold State.raisePark
  split <;> simp

@[simp] theorem markDrop_frame (s : State) (number : Nat) (kind : DropKind) :
    (s.markDrop number kind).clock = s.clock ∧ (s.markDrop number kind).port = s.port ∧
    (s.markDrop number kind).slot = s.slot ∧ (s.markDrop number kind).pool = s.pool ∧
    (s.markDrop number kind).queue = s.queue ∧ (s.markDrop number kind).media = s.media ∧
    (s.markDrop number kind).table = s.table ∧ (s.markDrop number kind).log = s.log ∧
    (s.markDrop number kind).formatRun = s.formatRun ∧ (s.markDrop number kind).engine = s.engine ∧
    (s.markDrop number kind).stores = s.stores ∧
    (s.markDrop number kind).sampler = s.sampler ∧ (s.markDrop number kind).monitor = s.monitor ∧
    (s.markDrop number kind).gauge = s.gauge ∧ (s.markDrop number kind).power = s.power ∧
    (s.markDrop number kind).mount = s.mount ∧ (s.markDrop number kind).freeCount = s.freeCount ∧
    (s.markDrop number kind).pending = s.pending := by
  unfold State.markDrop
  simp

@[simp] theorem countDrop_frame (s : State) (number : Nat) :
    (s.countDrop number).clock = s.clock ∧ (s.countDrop number).port = s.port ∧ (s.countDrop number).slot = s.slot ∧
    (s.countDrop number).slots = s.slots ∧ (s.countDrop number).pool = s.pool ∧ (s.countDrop number).queue = s.queue ∧
    (s.countDrop number).media = s.media ∧ (s.countDrop number).log = s.log ∧ (s.countDrop number).formatRun = s.formatRun ∧
    (s.countDrop number).engine = s.engine ∧ (s.countDrop number).stores = s.stores ∧ (s.countDrop number).sampler = s.sampler ∧
    (s.countDrop number).monitor = s.monitor ∧ (s.countDrop number).gauge = s.gauge ∧ (s.countDrop number).power = s.power ∧
    (s.countDrop number).mount = s.mount ∧ (s.countDrop number).freeCount = s.freeCount ∧
    (s.countDrop number).pending = s.pending := by
  unfold State.countDrop
  simp

@[simp] theorem declareDrop_frame (s : State) (kind : DropKind) (start : Stamp) (holdUp : Nat) :
    (s.declareDrop kind start holdUp).clock = s.clock ∧ (s.declareDrop kind start holdUp).log = s.log ∧
    (s.declareDrop kind start holdUp).formatRun = s.formatRun ∧ (s.declareDrop kind start holdUp).engine = s.engine ∧
    (s.declareDrop kind start holdUp).stores = s.stores ∧
    (s.declareDrop kind start holdUp).sampler = s.sampler ∧ (s.declareDrop kind start holdUp).gauge = s.gauge ∧
    (s.declareDrop kind start holdUp).mount = s.mount ∧ (s.declareDrop kind start holdUp).pending = s.pending := by
  unfold State.declareDrop
  simp

@[simp] theorem finishDrop_frame (s : State) (unresolved : Nat) :
    (s.finishDrop unresolved).clock = s.clock ∧ (s.finishDrop unresolved).engine = s.engine ∧
    (s.finishDrop unresolved).stores = s.stores ∧
    (s.finishDrop unresolved).sampler = s.sampler ∧ (s.finishDrop unresolved).gauge = s.gauge ∧
    (s.finishDrop unresolved).mount = s.mount ∧ (s.finishDrop unresolved).freeCount = s.freeCount ∧
    (s.finishDrop unresolved).pending = s.pending := by
  unfold State.finishDrop
  split <;> simp

@[simp] theorem enterWatch_frame (s : State) :
    s.enterWatch.clock = s.clock ∧ s.enterWatch.queue = s.queue ∧ s.enterWatch.table = s.table ∧ s.enterWatch.log = s.log ∧
    s.enterWatch.formatRun = s.formatRun ∧ s.enterWatch.engine = s.engine ∧ s.enterWatch.stores = s.stores ∧
    s.enterWatch.sampler = s.sampler ∧
    s.enterWatch.gauge = s.gauge ∧ s.enterWatch.power = s.power ∧ s.enterWatch.mount = s.mount ∧
    s.enterWatch.freeCount = s.freeCount ∧ s.enterWatch.pending = s.pending := by
  unfold State.enterWatch
  simp

@[simp] theorem judgeVerify_frame (s : State) :
    s.judgeVerify.clock = s.clock ∧ s.judgeVerify.engine = s.engine ∧ s.judgeVerify.stores = s.stores ∧
    s.judgeVerify.sampler = s.sampler ∧
    s.judgeVerify.gauge = s.gauge ∧ s.judgeVerify.mount = s.mount ∧ s.judgeVerify.freeCount = s.freeCount ∧
    s.judgeVerify.pending = s.pending := by
  unfold State.judgeVerify
  split <;> simp

@[simp] theorem enterVerify_frame (s : State) :
    s.enterVerify.clock = s.clock ∧ s.enterVerify.engine = s.engine ∧ s.enterVerify.stores = s.stores ∧
    s.enterVerify.sampler = s.sampler ∧
    s.enterVerify.gauge = s.gauge ∧ s.enterVerify.mount = s.mount ∧ s.enterVerify.freeCount = s.freeCount ∧
    s.enterVerify.pending = s.pending := by
  unfold State.enterVerify
  simp

@[simp] theorem judgeSettle_frame (s : State) (v : ScanView) :
    (s.judgeSettle v).clock = s.clock ∧ (s.judgeSettle v).engine = s.engine ∧ (s.judgeSettle v).stores = s.stores ∧
    (s.judgeSettle v).sampler = s.sampler ∧
    (s.judgeSettle v).gauge = s.gauge ∧ (s.judgeSettle v).mount = s.mount ∧ (s.judgeSettle v).freeCount = s.freeCount ∧
    (s.judgeSettle v).pending = s.pending := by
  unfold State.judgeSettle
  dsimp only
  split <;> simp

@[simp] theorem scanImpact_frame (s : State) (v : ScanView) :
    (s.scanImpact v).clock = s.clock ∧ (s.scanImpact v).engine = s.engine ∧ (s.scanImpact v).stores = s.stores ∧
    (s.scanImpact v).sampler = s.sampler ∧
    (s.scanImpact v).gauge = s.gauge ∧ (s.scanImpact v).mount = s.mount ∧ (s.scanImpact v).freeCount = s.freeCount ∧
    (s.scanImpact v).pending = s.pending := by
  unfold State.scanImpact
  simp

@[simp] theorem goImpact_frame (s : State) (v : ScanView) :
    (s.goImpact v).clock = s.clock ∧ (s.goImpact v).engine = s.engine ∧ (s.goImpact v).stores = s.stores ∧
    (s.goImpact v).sampler = s.sampler ∧
    (s.goImpact v).gauge = s.gauge ∧ (s.goImpact v).mount = s.mount ∧ (s.goImpact v).freeCount = s.freeCount ∧
    (s.goImpact v).pending = s.pending := by
  unfold State.goImpact
  simp

@[simp] theorem declareImpact_frame (s : State) (v : ScanView) :
    (s.declareImpact v).clock = s.clock ∧ (s.declareImpact v).engine = s.engine ∧ (s.declareImpact v).stores = s.stores ∧
    (s.declareImpact v).sampler = s.sampler ∧
    (s.declareImpact v).gauge = s.gauge ∧ (s.declareImpact v).mount = s.mount ∧ (s.declareImpact v).pending = s.pending := by
  unfold State.declareImpact
  simp

@[simp] theorem goFallWait_frame (s : State) :
    s.goFallWait.clock = s.clock ∧ s.goFallWait.port = s.port ∧ s.goFallWait.slot = s.slot ∧ s.goFallWait.slots = s.slots ∧
    s.goFallWait.pool = s.pool ∧ s.goFallWait.queue = s.queue ∧ s.goFallWait.media = s.media ∧ s.goFallWait.table = s.table ∧
    s.goFallWait.log = s.log ∧ s.goFallWait.formatRun = s.formatRun ∧ s.goFallWait.engine = s.engine ∧
    s.goFallWait.stores = s.stores ∧
    s.goFallWait.sampler = s.sampler ∧ s.goFallWait.gauge = s.gauge ∧ s.goFallWait.power = s.power ∧
    s.goFallWait.mount = s.mount ∧ s.goFallWait.freeCount = s.freeCount ∧ s.goFallWait.pending = s.pending := by
  unfold State.goFallWait
  simp

@[simp] theorem scanWatch_frame (s : State) (v : ScanView) :
    (s.scanWatch v).clock = s.clock ∧ (s.scanWatch v).engine = s.engine ∧ (s.scanWatch v).stores = s.stores ∧
    (s.scanWatch v).sampler = s.sampler ∧
    (s.scanWatch v).gauge = s.gauge ∧ (s.scanWatch v).mount = s.mount ∧ (s.scanWatch v).pending = s.pending := by
  unfold State.scanWatch
  split <;> simp

@[simp] theorem scanFallWait_frame (s : State) (v : ScanView) :
    (s.scanFallWait v).clock = s.clock ∧ (s.scanFallWait v).engine = s.engine ∧ (s.scanFallWait v).stores = s.stores ∧
    (s.scanFallWait v).sampler = s.sampler ∧
    (s.scanFallWait v).gauge = s.gauge ∧ (s.scanFallWait v).mount = s.mount ∧ (s.scanFallWait v).pending = s.pending := by
  unfold State.scanFallWait
  dsimp only
  repeat' split
  all_goals simp

@[simp] theorem endFall_frame (s : State) (t : Nat) (kind : DropKind) :
    (s.endFall t kind).clock = s.clock ∧ (s.endFall t kind).port = s.port ∧ (s.endFall t kind).slot = s.slot ∧
    (s.endFall t kind).slots = s.slots ∧ (s.endFall t kind).pool = s.pool ∧ (s.endFall t kind).queue = s.queue ∧
    (s.endFall t kind).media = s.media ∧ (s.endFall t kind).table = s.table ∧ (s.endFall t kind).log = s.log ∧
    (s.endFall t kind).formatRun = s.formatRun ∧ (s.endFall t kind).engine = s.engine ∧ (s.endFall t kind).stores = s.stores ∧
    (s.endFall t kind).sampler = s.sampler ∧ (s.endFall t kind).gauge = s.gauge ∧ (s.endFall t kind).power = s.power ∧
    (s.endFall t kind).mount = s.mount ∧ (s.endFall t kind).freeCount = s.freeCount ∧ (s.endFall t kind).pending = s.pending := by
  unfold State.endFall
  simp

@[simp] theorem capFall_frame (s : State) :
    s.capFall.clock = s.clock ∧ s.capFall.port = s.port ∧ s.capFall.slot = s.slot ∧ s.capFall.slots = s.slots ∧
    s.capFall.pool = s.pool ∧ s.capFall.queue = s.queue ∧ s.capFall.media = s.media ∧ s.capFall.table = s.table ∧
    s.capFall.log = s.log ∧ s.capFall.formatRun = s.formatRun ∧ s.capFall.engine = s.engine ∧ s.capFall.stores = s.stores ∧
    s.capFall.sampler = s.sampler ∧
    s.capFall.gauge = s.gauge ∧ s.capFall.power = s.power ∧ s.capFall.mount = s.mount ∧ s.capFall.freeCount = s.freeCount ∧
    s.capFall.pending = s.pending := by
  unfold State.capFall
  split <;> simp

@[simp] theorem scanFalling_frame (s : State) (v : ScanView) :
    (s.scanFalling v).clock = s.clock ∧ (s.scanFalling v).engine = s.engine ∧ (s.scanFalling v).stores = s.stores ∧
    (s.scanFalling v).sampler = s.sampler ∧
    (s.scanFalling v).gauge = s.gauge ∧ (s.scanFalling v).mount = s.mount ∧ (s.scanFalling v).freeCount = s.freeCount ∧
    (s.scanFalling v).pending = s.pending := by
  unfold State.scanFalling
  dsimp only
  repeat' split
  all_goals simp

@[simp] theorem scanSettling_frame (s : State) (v : ScanView) :
    (s.scanSettling v).clock = s.clock ∧ (s.scanSettling v).engine = s.engine ∧ (s.scanSettling v).stores = s.stores ∧
    (s.scanSettling v).sampler = s.sampler ∧
    (s.scanSettling v).gauge = s.gauge ∧ (s.scanSettling v).mount = s.mount ∧ (s.scanSettling v).freeCount = s.freeCount ∧
    (s.scanSettling v).pending = s.pending := by
  unfold State.scanSettling
  split <;> simp

@[simp] theorem scanVerify_frame (s : State) (v : ScanView) :
    (s.scanVerify v).clock = s.clock ∧ (s.scanVerify v).engine = s.engine ∧ (s.scanVerify v).stores = s.stores ∧
    (s.scanVerify v).sampler = s.sampler ∧
    (s.scanVerify v).gauge = s.gauge ∧ (s.scanVerify v).mount = s.mount ∧ (s.scanVerify v).pending = s.pending := by
  unfold State.scanVerify
  split <;> simp

@[simp] theorem monitorScan_frame (s : State) (v : ScanView) :
    (s.monitorScan v).clock = s.clock ∧ (s.monitorScan v).engine = s.engine ∧ (s.monitorScan v).stores = s.stores ∧
    (s.monitorScan v).sampler = s.sampler ∧
    (s.monitorScan v).gauge = s.gauge ∧ (s.monitorScan v).mount = s.mount ∧ (s.monitorScan v).pending = s.pending := by
  unfold State.monitorScan
  dsimp only
  split <;> simp

@[simp] theorem numberDrops_frame (s : State) :
    s.numberDrops.clock = s.clock ∧ s.numberDrops.port = s.port ∧ s.numberDrops.slot = s.slot ∧ s.numberDrops.slots = s.slots ∧
    s.numberDrops.pool = s.pool ∧ s.numberDrops.queue = s.queue ∧ s.numberDrops.media = s.media ∧
    s.numberDrops.table = s.table ∧ s.numberDrops.formatRun = s.formatRun ∧ s.numberDrops.engine = s.engine ∧
    s.numberDrops.stores = s.stores ∧
    s.numberDrops.sampler = s.sampler ∧ s.numberDrops.gauge = s.gauge ∧ s.numberDrops.power = s.power ∧
    s.numberDrops.mount = s.mount ∧ s.numberDrops.freeCount = s.freeCount ∧ s.numberDrops.pending = s.pending := by
  unfold State.numberDrops
  simp

@[simp] theorem gaugeShock_frame (s : State) (mv : Nat) :
    (s.gaugeShock mv).clock = s.clock ∧ (s.gaugeShock mv).port = s.port ∧ (s.gaugeShock mv).slot = s.slot ∧
    (s.gaugeShock mv).slots = s.slots ∧ (s.gaugeShock mv).pool = s.pool ∧ (s.gaugeShock mv).queue = s.queue ∧
    (s.gaugeShock mv).media = s.media ∧ (s.gaugeShock mv).table = s.table ∧ (s.gaugeShock mv).log = s.log ∧
    (s.gaugeShock mv).formatRun = s.formatRun ∧ (s.gaugeShock mv).engine = s.engine ∧ (s.gaugeShock mv).stores = s.stores ∧
    (s.gaugeShock mv).sampler = s.sampler ∧
    (s.gaugeShock mv).monitor = s.monitor ∧ (s.gaugeShock mv).power = s.power ∧ (s.gaugeShock mv).mount = s.mount ∧
    (s.gaugeShock mv).freeCount = s.freeCount ∧ (s.gaugeShock mv).pending = s.pending := by
  unfold State.gaugeShock
  split <;> simp

@[simp] theorem judgePack_frame (s : State) (vpack vhold : Nat) :
    (s.judgePack vpack vhold).clock = s.clock ∧ (s.judgePack vpack vhold).slot = s.slot ∧
    (s.judgePack vpack vhold).slots = s.slots ∧ (s.judgePack vpack vhold).pool = s.pool ∧
    (s.judgePack vpack vhold).queue = s.queue ∧ (s.judgePack vpack vhold).media = s.media ∧
    (s.judgePack vpack vhold).table = s.table ∧ (s.judgePack vpack vhold).log = s.log ∧
    (s.judgePack vpack vhold).formatRun = s.formatRun ∧ (s.judgePack vpack vhold).engine = s.engine ∧
    (s.judgePack vpack vhold).stores = s.stores ∧
    (s.judgePack vpack vhold).sampler = s.sampler ∧ (s.judgePack vpack vhold).power = s.power ∧
    (s.judgePack vpack vhold).mount = s.mount ∧ (s.judgePack vpack vhold).freeCount = s.freeCount ∧
    (s.judgePack vpack vhold).pending = s.pending := by
  unfold State.judgePack
  dsimp only
  repeat' split
  all_goals simp

@[simp] theorem levelChanged_frame (s : State) (old : BatteryLevel) :
    (s.levelChanged old).clock = s.clock ∧ (s.levelChanged old).engine = s.engine ∧ (s.levelChanged old).stores = s.stores ∧
    (s.levelChanged old).sampler = s.sampler ∧
    (s.levelChanged old).monitor = s.monitor ∧ (s.levelChanged old).gauge = s.gauge ∧ (s.levelChanged old).mount = s.mount ∧
    (s.levelChanged old).freeCount = s.freeCount ∧ (s.levelChanged old).pending = s.pending := by
  unfold State.levelChanged
  dsimp only
  repeat' split
  all_goals simp

@[simp] theorem gaugeScan_frame (s : State) (vhold vpack ipack tpack interval : Nat) :
    (s.gaugeScan vhold vpack ipack tpack interval).clock = s.clock ∧
    (s.gaugeScan vhold vpack ipack tpack interval).engine = s.engine ∧
    (s.gaugeScan vhold vpack ipack tpack interval).stores = s.stores ∧
    (s.gaugeScan vhold vpack ipack tpack interval).sampler = s.sampler ∧
    (s.gaugeScan vhold vpack ipack tpack interval).mount = s.mount ∧
    (s.gaugeScan vhold vpack ipack tpack interval).freeCount = s.freeCount ∧
    (s.gaugeScan vhold vpack ipack tpack interval).pending = s.pending := by
  unfold State.gaugeScan
  dsimp only
  repeat' split
  all_goals simp

@[simp] theorem fireReport_frame (s : State) :
    s.fireReport.slot = s.slot ∧ s.fireReport.slots = s.slots ∧ s.fireReport.pool = s.pool ∧ s.fireReport.queue = s.queue ∧
    s.fireReport.media = s.media ∧ s.fireReport.table = s.table ∧ s.fireReport.log = s.log ∧
    s.fireReport.formatRun = s.formatRun ∧ s.fireReport.engine = s.engine ∧ s.fireReport.stores = s.stores ∧
    s.fireReport.sampler = s.sampler ∧
    s.fireReport.monitor = s.monitor ∧ s.fireReport.gauge = s.gauge ∧ s.fireReport.mount = s.mount ∧
    s.fireReport.freeCount = s.freeCount ∧ s.fireReport.pending = s.pending := by
  unfold State.fireReport
  simp

@[simp] theorem endRequest_frame (s : State) (c : ReadContext) (status : Status) :
    (s.endRequest c status).clock = s.clock ∧ (s.endRequest c status).slots = s.slots ∧ (s.endRequest c status).pool = s.pool ∧
    (s.endRequest c status).queue = s.queue ∧ (s.endRequest c status).media = s.media ∧
    (s.endRequest c status).table = s.table ∧ (s.endRequest c status).log = s.log ∧
    (s.endRequest c status).formatRun = s.formatRun ∧ (s.endRequest c status).sampler = s.sampler ∧
    (s.endRequest c status).monitor = s.monitor ∧ (s.endRequest c status).gauge = s.gauge ∧
    (s.endRequest c status).power = s.power ∧ (s.endRequest c status).mount = s.mount ∧
    (s.endRequest c status).freeCount = s.freeCount ∧ (s.endRequest c status).pending = s.pending := by
  unfold State.endRequest
  simp

@[simp] theorem scanOn_frame (s : State) (c : ReadContext) (i page : Nat) :
    (s.scanOn c i page).clock = s.clock ∧ (s.scanOn c i page).slots = s.slots ∧ (s.scanOn c i page).pool = s.pool ∧
    (s.scanOn c i page).queue = s.queue ∧ (s.scanOn c i page).media = s.media ∧ (s.scanOn c i page).table = s.table ∧
    (s.scanOn c i page).log = s.log ∧ (s.scanOn c i page).formatRun = s.formatRun ∧ (s.scanOn c i page).sampler = s.sampler ∧
    (s.scanOn c i page).monitor = s.monitor ∧ (s.scanOn c i page).gauge = s.gauge ∧ (s.scanOn c i page).power = s.power ∧
    (s.scanOn c i page).mount = s.mount ∧ (s.scanOn c i page).freeCount = s.freeCount ∧
    (s.scanOn c i page).pending = s.pending := by
  unfold State.scanOn
  split <;> simp

@[simp] theorem standing_frame (s : State) (c : ReadContext) (h : HeldPage) :
    (s.standing c h).clock = s.clock ∧ (s.standing c h).slots = s.slots ∧ (s.standing c h).pool = s.pool ∧
    (s.standing c h).queue = s.queue ∧ (s.standing c h).media = s.media ∧ (s.standing c h).table = s.table ∧
    (s.standing c h).log = s.log ∧ (s.standing c h).formatRun = s.formatRun ∧ (s.standing c h).sampler = s.sampler ∧
    (s.standing c h).monitor = s.monitor ∧ (s.standing c h).gauge = s.gauge ∧ (s.standing c h).power = s.power ∧
    (s.standing c h).mount = s.mount ∧ (s.standing c h).freeCount = s.freeCount ∧ (s.standing c h).pending = s.pending := by
  unfold State.standing
  dsimp only
  split <;> simp

@[simp] theorem decideOn_frame (s : State) (c : ReadContext) (h : HeldPage) (i page : Nat) :
    (s.decideOn c h i page).clock = s.clock ∧ (s.decideOn c h i page).slots = s.slots ∧ (s.decideOn c h i page).pool = s.pool ∧
    (s.decideOn c h i page).queue = s.queue ∧ (s.decideOn c h i page).media = s.media ∧
    (s.decideOn c h i page).table = s.table ∧ (s.decideOn c h i page).log = s.log ∧
    (s.decideOn c h i page).formatRun = s.formatRun ∧ (s.decideOn c h i page).sampler = s.sampler ∧
    (s.decideOn c h i page).monitor = s.monitor ∧ (s.decideOn c h i page).gauge = s.gauge ∧
    (s.decideOn c h i page).power = s.power ∧ (s.decideOn c h i page).mount = s.mount ∧
    (s.decideOn c h i page).freeCount = s.freeCount ∧ (s.decideOn c h i page).pending = s.pending := by
  unfold State.decideOn
  split <;> simp

@[simp] theorem searchBack_frame (s : State) (c : ReadContext) (l : Nat) :
    (s.searchBack c l).clock = s.clock ∧ (s.searchBack c l).slots = s.slots ∧ (s.searchBack c l).pool = s.pool ∧
    (s.searchBack c l).queue = s.queue ∧ (s.searchBack c l).media = s.media ∧ (s.searchBack c l).table = s.table ∧
    (s.searchBack c l).log = s.log ∧ (s.searchBack c l).formatRun = s.formatRun ∧ (s.searchBack c l).sampler = s.sampler ∧
    (s.searchBack c l).monitor = s.monitor ∧ (s.searchBack c l).gauge = s.gauge ∧ (s.searchBack c l).power = s.power ∧
    (s.searchBack c l).mount = s.mount ∧ (s.searchBack c l).freeCount = s.freeCount ∧ (s.searchBack c l).pending = s.pending := by
  induction l generalizing s c with
  | zero => simp only [State.searchBack]; split <;> simp
  | succ a ih =>
    unfold State.searchBack
    dsimp only
    split <;> simp [ih]

@[simp] theorem searchDone_frame (s : State) (c : ReadContext) (i : Nat) (candidate : Option Nat) :
    (s.searchDone c i candidate).clock = s.clock ∧ (s.searchDone c i candidate).slots = s.slots ∧
    (s.searchDone c i candidate).pool = s.pool ∧ (s.searchDone c i candidate).queue = s.queue ∧
    (s.searchDone c i candidate).media = s.media ∧ (s.searchDone c i candidate).table = s.table ∧
    (s.searchDone c i candidate).log = s.log ∧ (s.searchDone c i candidate).formatRun = s.formatRun ∧
    (s.searchDone c i candidate).sampler = s.sampler ∧ (s.searchDone c i candidate).monitor = s.monitor ∧
    (s.searchDone c i candidate).gauge = s.gauge ∧ (s.searchDone c i candidate).power = s.power ∧
    (s.searchDone c i candidate).mount = s.mount ∧ (s.searchDone c i candidate).freeCount = s.freeCount ∧
    (s.searchDone c i candidate).pending = s.pending := by
  unfold State.searchDone
  repeat' split
  all_goals simp

@[simp] theorem searchOn_frame (s : State) (c : ReadContext) (i low high : Nat) (candidate : Option Nat) :
    (s.searchOn c i low high candidate).clock = s.clock ∧ (s.searchOn c i low high candidate).slots = s.slots ∧
    (s.searchOn c i low high candidate).pool = s.pool ∧ (s.searchOn c i low high candidate).queue = s.queue ∧
    (s.searchOn c i low high candidate).media = s.media ∧ (s.searchOn c i low high candidate).table = s.table ∧
    (s.searchOn c i low high candidate).log = s.log ∧ (s.searchOn c i low high candidate).formatRun = s.formatRun ∧
    (s.searchOn c i low high candidate).sampler = s.sampler ∧ (s.searchOn c i low high candidate).monitor = s.monitor ∧
    (s.searchOn c i low high candidate).gauge = s.gauge ∧ (s.searchOn c i low high candidate).power = s.power ∧
    (s.searchOn c i low high candidate).mount = s.mount ∧ (s.searchOn c i low high candidate).freeCount = s.freeCount ∧
    (s.searchOn c i low high candidate).pending = s.pending := by
  unfold State.searchOn
  split <;> simp

@[simp] theorem hold_frame (s : State) :
    s.hold.clock = s.clock ∧ s.hold.port = s.port ∧ s.hold.slot = s.slot ∧ s.hold.slots = s.slots ∧ s.hold.pool = s.pool ∧
    s.hold.queue = s.queue ∧ s.hold.media = s.media ∧ s.hold.table = s.table ∧ s.hold.log = s.log ∧
    s.hold.formatRun = s.formatRun ∧ s.hold.engine = s.engine ∧ s.hold.sampler = s.sampler ∧ s.hold.monitor = s.monitor ∧
    s.hold.gauge = s.gauge ∧ s.hold.power = s.power ∧ s.hold.mount = s.mount ∧ s.hold.freeCount = s.freeCount ∧
    s.hold.pending = s.pending := by
  unfold State.hold
  simp

@[simp] theorem scanPage_frame (s : State) (c : ReadContext) (i page : Nat) (t : Trailer) :
    (s.scanPage c i page t).clock = s.clock ∧ (s.scanPage c i page t).slots = s.slots ∧ (s.scanPage c i page t).pool = s.pool ∧
    (s.scanPage c i page t).queue = s.queue ∧ (s.scanPage c i page t).media = s.media ∧ (s.scanPage c i page t).table = s.table ∧
    (s.scanPage c i page t).log = s.log ∧ (s.scanPage c i page t).formatRun = s.formatRun ∧
    (s.scanPage c i page t).sampler = s.sampler ∧ (s.scanPage c i page t).monitor = s.monitor ∧
    (s.scanPage c i page t).gauge = s.gauge ∧ (s.scanPage c i page t).power = s.power ∧ (s.scanPage c i page t).mount = s.mount ∧
    (s.scanPage c i page t).freeCount = s.freeCount ∧ (s.scanPage c i page t).pending = s.pending := by
  unfold State.scanPage
  split <;> simp

@[simp] theorem decidePage_frame (s : State) (c : ReadContext) (h : HeldPage) (i page : Nat) (t : Trailer) :
    (s.decidePage c h i page t).clock = s.clock ∧ (s.decidePage c h i page t).slots = s.slots ∧
    (s.decidePage c h i page t).pool = s.pool ∧ (s.decidePage c h i page t).queue = s.queue ∧
    (s.decidePage c h i page t).media = s.media ∧ (s.decidePage c h i page t).table = s.table ∧
    (s.decidePage c h i page t).log = s.log ∧ (s.decidePage c h i page t).formatRun = s.formatRun ∧
    (s.decidePage c h i page t).sampler = s.sampler ∧ (s.decidePage c h i page t).monitor = s.monitor ∧
    (s.decidePage c h i page t).gauge = s.gauge ∧ (s.decidePage c h i page t).power = s.power ∧
    (s.decidePage c h i page t).mount = s.mount ∧ (s.decidePage c h i page t).freeCount = s.freeCount ∧
    (s.decidePage c h i page t).pending = s.pending := by
  unfold State.decidePage
  repeat' split
  all_goals simp

@[simp] theorem engineResult_frame (s : State) (c : ReadContext) (g : Nat) (r : PageResult) :
    (s.engineResult c g r).clock = s.clock ∧ (s.engineResult c g r).slots = s.slots ∧ (s.engineResult c g r).pool = s.pool ∧
    (s.engineResult c g r).queue = s.queue ∧ (s.engineResult c g r).media = s.media ∧ (s.engineResult c g r).table = s.table ∧
    (s.engineResult c g r).log = s.log ∧ (s.engineResult c g r).formatRun = s.formatRun ∧
    (s.engineResult c g r).sampler = s.sampler ∧ (s.engineResult c g r).monitor = s.monitor ∧
    (s.engineResult c g r).gauge = s.gauge ∧ (s.engineResult c g r).power = s.power ∧ (s.engineResult c g r).mount = s.mount ∧
    (s.engineResult c g r).freeCount = s.freeCount ∧ (s.engineResult c g r).pending = s.pending := by
  unfold State.engineResult
  dsimp only
  repeat' split
  all_goals simp

@[simp] theorem storeRead_frame (s : State) (im : Option PageImage) :
    (s.storeRead im).clock = s.clock ∧ (s.storeRead im).port = s.port ∧ (s.storeRead im).slot = s.slot ∧
    (s.storeRead im).slots = s.slots ∧ (s.storeRead im).pool = s.pool ∧ (s.storeRead im).queue = s.queue ∧
    (s.storeRead im).media = s.media ∧ (s.storeRead im).table = s.table ∧ (s.storeRead im).log = s.log ∧
    (s.storeRead im).formatRun = s.formatRun ∧ (s.storeRead im).engine = s.engine ∧ (s.storeRead im).sampler = s.sampler ∧
    (s.storeRead im).monitor = s.monitor ∧ (s.storeRead im).gauge = s.gauge ∧ (s.storeRead im).power = s.power ∧
    (s.storeRead im).mount = s.mount ∧ (s.storeRead im).freeCount = s.freeCount ∧ (s.storeRead im).pending = s.pending := by
  unfold State.storeRead
  simp

@[simp] theorem engineReadEnd_frame (s : State) (g p : Nat) (discard : Bool) (r : ReadOutcome) :
    (s.engineReadEnd g p discard r).clock = s.clock ∧ (s.engineReadEnd g p discard r).slots = s.slots ∧
    (s.engineReadEnd g p discard r).pool = s.pool ∧ (s.engineReadEnd g p discard r).queue = s.queue ∧
    (s.engineReadEnd g p discard r).table = s.table ∧ (s.engineReadEnd g p discard r).log = s.log ∧
    (s.engineReadEnd g p discard r).formatRun = s.formatRun ∧ (s.engineReadEnd g p discard r).sampler = s.sampler ∧
    (s.engineReadEnd g p discard r).monitor = s.monitor ∧ (s.engineReadEnd g p discard r).gauge = s.gauge ∧
    (s.engineReadEnd g p discard r).power = s.power ∧ (s.engineReadEnd g p discard r).mount = s.mount ∧
    (s.engineReadEnd g p discard r).freeCount = s.freeCount ∧ (s.engineReadEnd g p discard r).pending = s.pending := by
  unfold State.engineReadEnd
  dsimp only
  repeat' split
  all_goals simp

@[simp] theorem startRequest_frame (s : State) (survey index requested maximum : Nat) (hint : Option Nat) (head : Nat) :
    (s.startRequest survey index requested maximum hint head).clock = s.clock ∧
    (s.startRequest survey index requested maximum hint head).slots = s.slots ∧
    (s.startRequest survey index requested maximum hint head).pool = s.pool ∧
    (s.startRequest survey index requested maximum hint head).queue = s.queue ∧
    (s.startRequest survey index requested maximum hint head).media = s.media ∧
    (s.startRequest survey index requested maximum hint head).table = s.table ∧
    (s.startRequest survey index requested maximum hint head).log = s.log ∧
    (s.startRequest survey index requested maximum hint head).formatRun = s.formatRun ∧
    (s.startRequest survey index requested maximum hint head).sampler = s.sampler ∧
    (s.startRequest survey index requested maximum hint head).monitor = s.monitor ∧
    (s.startRequest survey index requested maximum hint head).gauge = s.gauge ∧
    (s.startRequest survey index requested maximum hint head).power = s.power ∧
    (s.startRequest survey index requested maximum hint head).mount = s.mount ∧
    (s.startRequest survey index requested maximum hint head).freeCount = s.freeCount ∧
    (s.startRequest survey index requested maximum hint head).pending = s.pending := by
  unfold State.startRequest
  dsimp only
  repeat' split
  all_goals simp

@[simp] theorem replayOpened_frame (s : State) (r : SurveyRecord) :
    (s.replayOpened r).clock = s.clock ∧ (s.replayOpened r).port = s.port ∧ (s.replayOpened r).slot = s.slot ∧
    (s.replayOpened r).slots = s.slots ∧ (s.replayOpened r).pool = s.pool ∧ (s.replayOpened r).queue = s.queue ∧
    (s.replayOpened r).media = s.media ∧ (s.replayOpened r).log = s.log ∧ (s.replayOpened r).formatRun = s.formatRun ∧
    (s.replayOpened r).engine = s.engine ∧ (s.replayOpened r).stores = s.stores ∧ (s.replayOpened r).sampler = s.sampler ∧
    (s.replayOpened r).monitor = s.monitor ∧
    (s.replayOpened r).gauge = s.gauge ∧ (s.replayOpened r).power = s.power ∧ (s.replayOpened r).mount = s.mount ∧
    (s.replayOpened r).freeCount = s.freeCount ∧ (s.replayOpened r).pending = s.pending := by
  unfold State.replayOpened
  simp

@[simp] theorem replayDrop_frame (s : State) (r : DropRecord) :
    (s.replayDrop r).clock = s.clock ∧ (s.replayDrop r).port = s.port ∧ (s.replayDrop r).slot = s.slot ∧
    (s.replayDrop r).slots = s.slots ∧ (s.replayDrop r).pool = s.pool ∧ (s.replayDrop r).queue = s.queue ∧
    (s.replayDrop r).media = s.media ∧ (s.replayDrop r).log = s.log ∧ (s.replayDrop r).formatRun = s.formatRun ∧
    (s.replayDrop r).engine = s.engine ∧ (s.replayDrop r).stores = s.stores ∧ (s.replayDrop r).sampler = s.sampler ∧
    (s.replayDrop r).gauge = s.gauge ∧
    (s.replayDrop r).power = s.power ∧ (s.replayDrop r).mount = s.mount ∧ (s.replayDrop r).freeCount = s.freeCount ∧
    (s.replayDrop r).pending = s.pending := by
  unfold State.replayDrop
  simp

@[simp] theorem replayBody_frame (s : State) (body : EntryBody) :
    (s.replayBody body).port = s.port ∧ (s.replayBody body).slot = s.slot ∧ (s.replayBody body).slots = s.slots ∧
    (s.replayBody body).pool = s.pool ∧ (s.replayBody body).queue = s.queue ∧ (s.replayBody body).media = s.media ∧
    (s.replayBody body).log = s.log ∧ (s.replayBody body).formatRun = s.formatRun ∧ (s.replayBody body).engine = s.engine ∧
    (s.replayBody body).stores = s.stores ∧
    (s.replayBody body).sampler = s.sampler ∧ (s.replayBody body).power = s.power ∧ (s.replayBody body).mount = s.mount ∧
    (s.replayBody body).freeCount = s.freeCount ∧ (s.replayBody body).pending = s.pending := by
  unfold State.replayBody
  split <;> simp

@[simp] theorem replayPage_frame (s : State) (data : List Byte) :
    (s.replayPage data).port = s.port ∧ (s.replayPage data).slot = s.slot ∧ (s.replayPage data).slots = s.slots ∧
    (s.replayPage data).pool = s.pool ∧ (s.replayPage data).queue = s.queue ∧ (s.replayPage data).media = s.media ∧
    (s.replayPage data).formatRun = s.formatRun ∧ (s.replayPage data).engine = s.engine ∧ (s.replayPage data).stores = s.stores ∧
    (s.replayPage data).sampler = s.sampler ∧ (s.replayPage data).power = s.power ∧ (s.replayPage data).mount = s.mount ∧
    (s.replayPage data).freeCount = s.freeCount ∧ (s.replayPage data).pending = s.pending := by
  unfold State.replayPage
  split <;> simp

@[simp] theorem becomeReady_frame (s : State) (restored notRestored : Nat) :
    (s.becomeReady restored notRestored).clock = s.clock ∧ (s.becomeReady restored notRestored).slot = s.slot ∧
    (s.becomeReady restored notRestored).queue = s.queue ∧ (s.becomeReady restored notRestored).table = s.table ∧
    (s.becomeReady restored notRestored).log = s.log ∧ (s.becomeReady restored notRestored).formatRun = s.formatRun ∧
    (s.becomeReady restored notRestored).engine = s.engine ∧ (s.becomeReady restored notRestored).stores = s.stores ∧
    (s.becomeReady restored notRestored).sampler = s.sampler ∧
    (s.becomeReady restored notRestored).monitor = s.monitor ∧ (s.becomeReady restored notRestored).gauge = s.gauge ∧
    (s.becomeReady restored notRestored).freeCount = s.freeCount ∧ (s.becomeReady restored notRestored).pending = s.pending := by
  unfold State.becomeReady
  simp

@[simp] theorem mountUnformatted_frame (s : State) :
    s.mountUnformatted.clock = s.clock ∧ s.mountUnformatted.formatRun = s.formatRun ∧ s.mountUnformatted.engine = s.engine ∧
    s.mountUnformatted.stores = s.stores ∧
    s.mountUnformatted.sampler = s.sampler ∧ s.mountUnformatted.gauge = s.gauge ∧ s.mountUnformatted.freeCount = s.freeCount ∧
    s.mountUnformatted.pending = s.pending := by
  unfold State.mountUnformatted
  simp

@[simp] theorem loadSnapshot_frame (s : State) (c : SnapshotCandidate) :
    (s.loadSnapshot c).port = s.port ∧ (s.loadSnapshot c).slot = s.slot ∧ (s.loadSnapshot c).slots = s.slots ∧
    (s.loadSnapshot c).pool = s.pool ∧ (s.loadSnapshot c).queue = s.queue ∧ (s.loadSnapshot c).formatRun = s.formatRun ∧
    (s.loadSnapshot c).engine = s.engine ∧ (s.loadSnapshot c).stores = s.stores ∧ (s.loadSnapshot c).sampler = s.sampler ∧
    (s.loadSnapshot c).power = s.power ∧
    (s.loadSnapshot c).freeCount = s.freeCount ∧ (s.loadSnapshot c).pending = s.pending := by
  unfold State.loadSnapshot
  simp

@[simp] theorem placeHeader_frame (s : State) (g : Nat) (r : PageResult) :
    (s.placeHeader g r).clock = s.clock ∧ (s.placeHeader g r).port = s.port ∧ (s.placeHeader g r).slot = s.slot ∧
    (s.placeHeader g r).slots = s.slots ∧ (s.placeHeader g r).pool = s.pool ∧ (s.placeHeader g r).queue = s.queue ∧
    (s.placeHeader g r).table = s.table ∧ (s.placeHeader g r).log = s.log ∧ (s.placeHeader g r).formatRun = s.formatRun ∧
    (s.placeHeader g r).engine = s.engine ∧ (s.placeHeader g r).stores = s.stores ∧ (s.placeHeader g r).sampler = s.sampler ∧
    (s.placeHeader g r).monitor = s.monitor ∧
    (s.placeHeader g r).gauge = s.gauge ∧ (s.placeHeader g r).power = s.power ∧ (s.placeHeader g r).mount = s.mount ∧
    (s.placeHeader g r).freeCount = s.freeCount ∧ (s.placeHeader g r).pending = s.pending := by
  unfold State.placeHeader
  repeat' split
  all_goals simp

@[simp] theorem restoreOne_frame (s : State) (i : Nat) (r : ChainResult) (d : Descriptor) :
    (s.restoreOne i r d).clock = s.clock ∧ (s.restoreOne i r d).port = s.port ∧ (s.restoreOne i r d).slot = s.slot ∧
    (s.restoreOne i r d).pool = s.pool ∧ (s.restoreOne i r d).queue = s.queue ∧ (s.restoreOne i r d).log = s.log ∧
    (s.restoreOne i r d).formatRun = s.formatRun ∧ (s.restoreOne i r d).engine = s.engine ∧
    (s.restoreOne i r d).stores = s.stores ∧
    (s.restoreOne i r d).sampler = s.sampler ∧ (s.restoreOne i r d).monitor = s.monitor ∧
    (s.restoreOne i r d).gauge = s.gauge ∧ (s.restoreOne i r d).power = s.power ∧ (s.restoreOne i r d).mount = s.mount ∧
    (s.restoreOne i r d).freeCount = s.freeCount ∧ (s.restoreOne i r d).pending = s.pending := by
  unfold State.restoreOne
  dsimp only
  split <;> simp

@[simp] theorem restoreAll_frame (s : State) (i : Nat) (l : List (ChainResult × Descriptor)) :
    (s.restoreAll i l).clock = s.clock ∧ (s.restoreAll i l).port = s.port ∧ (s.restoreAll i l).slot = s.slot ∧
    (s.restoreAll i l).pool = s.pool ∧ (s.restoreAll i l).queue = s.queue ∧ (s.restoreAll i l).log = s.log ∧
    (s.restoreAll i l).formatRun = s.formatRun ∧ (s.restoreAll i l).engine = s.engine ∧ (s.restoreAll i l).stores = s.stores ∧
    (s.restoreAll i l).sampler = s.sampler ∧ (s.restoreAll i l).monitor = s.monitor ∧ (s.restoreAll i l).gauge = s.gauge ∧
    (s.restoreAll i l).power = s.power ∧ (s.restoreAll i l).mount = s.mount ∧ (s.restoreAll i l).freeCount = s.freeCount ∧
    (s.restoreAll i l).pending = s.pending := by
  induction l generalizing s i with
  | nil => simp [State.restoreAll]
  | cons a l ih => simp [State.restoreAll, ih]

@[simp] theorem endChains_frame (s : State) (done : List ChainResult) :
    (s.endChains done).clock = s.clock ∧ (s.endChains done).slot = s.slot ∧ (s.endChains done).queue = s.queue ∧
    (s.endChains done).table = s.table ∧ (s.endChains done).log = s.log ∧ (s.endChains done).formatRun = s.formatRun ∧
    (s.endChains done).engine = s.engine ∧ (s.endChains done).stores = s.stores ∧ (s.endChains done).sampler = s.sampler ∧
    (s.endChains done).monitor = s.monitor ∧
    (s.endChains done).gauge = s.gauge ∧ (s.endChains done).freeCount = s.freeCount ∧ (s.endChains done).pending = s.pending := by
  unfold State.endChains
  split <;> simp

@[simp] theorem nextChain_frame (s : State) (left : List (Nat × Nat)) (done : List ChainResult) :
    (s.nextChain left done).clock = s.clock ∧ (s.nextChain left done).slot = s.slot ∧ (s.nextChain left done).queue = s.queue ∧
    (s.nextChain left done).table = s.table ∧ (s.nextChain left done).log = s.log ∧
    (s.nextChain left done).formatRun = s.formatRun ∧ (s.nextChain left done).engine = s.engine ∧
    (s.nextChain left done).stores = s.stores ∧
    (s.nextChain left done).sampler = s.sampler ∧ (s.nextChain left done).monitor = s.monitor ∧
    (s.nextChain left done).gauge = s.gauge ∧ (s.nextChain left done).freeCount = s.freeCount ∧
    (s.nextChain left done).pending = s.pending := by
  unfold State.nextChain
  split <;> simp

@[simp] theorem chainDone_frame (s : State) (left : List (Nat × Nat)) (done : List ChainResult) (r : ChainResult) :
    (s.chainDone left done r).clock = s.clock ∧ (s.chainDone left done r).slot = s.slot ∧
    (s.chainDone left done r).queue = s.queue ∧ (s.chainDone left done r).table = s.table ∧
    (s.chainDone left done r).log = s.log ∧ (s.chainDone left done r).formatRun = s.formatRun ∧
    (s.chainDone left done r).engine = s.engine ∧ (s.chainDone left done r).stores = s.stores ∧
    (s.chainDone left done r).sampler = s.sampler ∧
    (s.chainDone left done r).monitor = s.monitor ∧ (s.chainDone left done r).gauge = s.gauge ∧
    (s.chainDone left done r).freeCount = s.freeCount ∧ (s.chainDone left done r).pending = s.pending := by
  unfold State.chainDone
  simp

@[simp] theorem lastKnown_frame (s : State) (survey index : Nat) (left : List (Nat × Nat)) (done : List ChainResult) (b : LastPage) (marks : List IndexMark)
    (page : Option (Trailer × List Byte)) (before : Option (Nat × Nat)) :
    (s.lastKnown survey index left done b marks page before).clock = s.clock ∧
    (s.lastKnown survey index left done b marks page before).slot = s.slot ∧
    (s.lastKnown survey index left done b marks page before).queue = s.queue ∧
    (s.lastKnown survey index left done b marks page before).table = s.table ∧
    (s.lastKnown survey index left done b marks page before).log = s.log ∧
    (s.lastKnown survey index left done b marks page before).formatRun = s.formatRun ∧
    (s.lastKnown survey index left done b marks page before).engine = s.engine ∧
    (s.lastKnown survey index left done b marks page before).stores = s.stores ∧
    (s.lastKnown survey index left done b marks page before).sampler = s.sampler ∧
    (s.lastKnown survey index left done b marks page before).monitor = s.monitor ∧
    (s.lastKnown survey index left done b marks page before).gauge = s.gauge ∧
    (s.lastKnown survey index left done b marks page before).freeCount = s.freeCount ∧
    (s.lastKnown survey index left done b marks page before).pending = s.pending := by
  unfold State.lastKnown
  repeat' split
  all_goals simp

@[simp] theorem lastRead_frame (s : State) (survey index : Nat) (left : List (Nat × Nat)) (done : List ChainResult) (best : Option LastPage) (marks : List IndexMark)
    (page : Option (Trailer × List Byte)) (before : Option (Nat × Nat)) :
    (s.lastRead survey index left done best marks page before).clock = s.clock ∧
    (s.lastRead survey index left done best marks page before).slot = s.slot ∧
    (s.lastRead survey index left done best marks page before).queue = s.queue ∧
    (s.lastRead survey index left done best marks page before).table = s.table ∧
    (s.lastRead survey index left done best marks page before).log = s.log ∧
    (s.lastRead survey index left done best marks page before).formatRun = s.formatRun ∧
    (s.lastRead survey index left done best marks page before).engine = s.engine ∧
    (s.lastRead survey index left done best marks page before).stores = s.stores ∧
    (s.lastRead survey index left done best marks page before).sampler = s.sampler ∧
    (s.lastRead survey index left done best marks page before).monitor = s.monitor ∧
    (s.lastRead survey index left done best marks page before).gauge = s.gauge ∧
    (s.lastRead survey index left done best marks page before).freeCount = s.freeCount ∧
    (s.lastRead survey index left done best marks page before).pending = s.pending := by
  unfold State.lastRead
  split <;> simp

@[simp] theorem startLast_frame (s : State) (survey index : Nat) (left : List (Nat × Nat)) (done : List ChainResult) :
    (s.startLast survey index left done).clock = s.clock ∧ (s.startLast survey index left done).slot = s.slot ∧
    (s.startLast survey index left done).queue = s.queue ∧ (s.startLast survey index left done).table = s.table ∧
    (s.startLast survey index left done).log = s.log ∧ (s.startLast survey index left done).formatRun = s.formatRun ∧
    (s.startLast survey index left done).engine = s.engine ∧ (s.startLast survey index left done).stores = s.stores ∧
    (s.startLast survey index left done).sampler = s.sampler ∧
    (s.startLast survey index left done).monitor = s.monitor ∧ (s.startLast survey index left done).gauge = s.gauge ∧
    (s.startLast survey index left done).freeCount = s.freeCount ∧ (s.startLast survey index left done).pending = s.pending := by
  unfold State.startLast
  repeat' split
  all_goals simp

@[simp] theorem voidsKnown_frame (s : State) (survey index : Nat) (left : List (Nat × Nat)) (done : List ChainResult) (count : Nat) :
    (s.voidsKnown survey index left done count).clock = s.clock ∧ (s.voidsKnown survey index left done count).slot = s.slot ∧
    (s.voidsKnown survey index left done count).queue = s.queue ∧ (s.voidsKnown survey index left done count).log = s.log ∧
    (s.voidsKnown survey index left done count).formatRun = s.formatRun ∧
    (s.voidsKnown survey index left done count).engine = s.engine ∧
    (s.voidsKnown survey index left done count).stores = s.stores ∧
    (s.voidsKnown survey index left done count).sampler = s.sampler ∧
    (s.voidsKnown survey index left done count).monitor = s.monitor ∧
    (s.voidsKnown survey index left done count).gauge = s.gauge ∧
    (s.voidsKnown survey index left done count).freeCount = s.freeCount ∧
    (s.voidsKnown survey index left done count).pending = s.pending := by
  unfold State.voidsKnown
  repeat' split
  all_goals simp

@[simp] theorem pointKnown_frame (s : State) (survey index : Nat) (left : List (Nat × Nat)) (done : List ChainResult) (w : Nat) (probed : List (Nat × Bool)) :
    (s.pointKnown survey index left done w probed).clock = s.clock ∧
    (s.pointKnown survey index left done w probed).slot = s.slot ∧
    (s.pointKnown survey index left done w probed).queue = s.queue ∧
    (s.pointKnown survey index left done w probed).log = s.log ∧
    (s.pointKnown survey index left done w probed).formatRun = s.formatRun ∧
    (s.pointKnown survey index left done w probed).engine = s.engine ∧
    (s.pointKnown survey index left done w probed).stores = s.stores ∧
    (s.pointKnown survey index left done w probed).sampler = s.sampler ∧
    (s.pointKnown survey index left done w probed).monitor = s.monitor ∧
    (s.pointKnown survey index left done w probed).gauge = s.gauge ∧
    (s.pointKnown survey index left done w probed).freeCount = s.freeCount ∧
    (s.pointKnown survey index left done w probed).pending = s.pending := by
  unfold State.pointKnown
  dsimp only
  repeat' split
  all_goals simp

@[simp] theorem searchPoint_frame (s : State) (survey index : Nat) (left : List (Nat × Nat)) (done : List ChainResult) (low high : Nat) (probed : List (Nat × Bool)) :
    (s.searchPoint survey index left done low high probed).clock = s.clock ∧
    (s.searchPoint survey index left done low high probed).slot = s.slot ∧
    (s.searchPoint survey index left done low high probed).queue = s.queue ∧
    (s.searchPoint survey index left done low high probed).log = s.log ∧
    (s.searchPoint survey index left done low high probed).formatRun = s.formatRun ∧
    (s.searchPoint survey index left done low high probed).engine = s.engine ∧
    (s.searchPoint survey index left done low high probed).stores = s.stores ∧
    (s.searchPoint survey index left done low high probed).sampler = s.sampler ∧
    (s.searchPoint survey index left done low high probed).monitor = s.monitor ∧
    (s.searchPoint survey index left done low high probed).gauge = s.gauge ∧
    (s.searchPoint survey index left done low high probed).freeCount = s.freeCount ∧
    (s.searchPoint survey index left done low high probed).pending = s.pending := by
  unfold State.searchPoint
  split <;> simp

@[simp] theorem chainRead_frame (s : State) (survey index : Nat) (left : List (Nat × Nat)) (done : List ChainResult) (work : ChainWork) (r : PageResult) :
    (s.chainRead survey index left done work r).clock = s.clock ∧ (s.chainRead survey index left done work r).slot = s.slot ∧
    (s.chainRead survey index left done work r).queue = s.queue ∧ (s.chainRead survey index left done work r).log = s.log ∧
    (s.chainRead survey index left done work r).formatRun = s.formatRun ∧
    (s.chainRead survey index left done work r).engine = s.engine ∧
    (s.chainRead survey index left done work r).stores = s.stores ∧
    (s.chainRead survey index left done work r).sampler = s.sampler ∧
    (s.chainRead survey index left done work r).monitor = s.monitor ∧
    (s.chainRead survey index left done work r).gauge = s.gauge ∧
    (s.chainRead survey index left done work r).freeCount = s.freeCount ∧
    (s.chainRead survey index left done work r).pending = s.pending := by
  unfold State.chainRead
  dsimp only
  repeat' split
  all_goals simp

@[simp] theorem buildChains_frame (s : State) :
    s.buildChains.clock = s.clock ∧ s.buildChains.slot = s.slot ∧ s.buildChains.queue = s.queue ∧ s.buildChains.log = s.log ∧
    s.buildChains.formatRun = s.formatRun ∧ s.buildChains.engine = s.engine ∧ s.buildChains.stores = s.stores ∧
    s.buildChains.sampler = s.sampler ∧
    s.buildChains.monitor = s.monitor ∧ s.buildChains.gauge = s.gauge ∧ s.buildChains.freeCount = s.freeCount ∧
    s.buildChains.pending = s.pending := by
  unfold State.buildChains
  simp

@[simp] theorem nextHeader_frame (s : State) (g : Nat) :
    (s.nextHeader g).clock = s.clock ∧ (s.nextHeader g).slot = s.slot ∧ (s.nextHeader g).queue = s.queue ∧
    (s.nextHeader g).log = s.log ∧ (s.nextHeader g).formatRun = s.formatRun ∧ (s.nextHeader g).engine = s.engine ∧
    (s.nextHeader g).stores = s.stores ∧
    (s.nextHeader g).sampler = s.sampler ∧ (s.nextHeader g).monitor = s.monitor ∧ (s.nextHeader g).gauge = s.gauge ∧
    (s.nextHeader g).freeCount = s.freeCount ∧ (s.nextHeader g).pending = s.pending := by
  unfold State.nextHeader
  split <;> simp

@[simp] theorem endReplay_frame (s : State) (g writePoint nextSeq : Nat) :
    (s.endReplay g writePoint nextSeq).clock = s.clock ∧ (s.endReplay g writePoint nextSeq).engine = s.engine ∧
    (s.endReplay g writePoint nextSeq).stores = s.stores ∧
    (s.endReplay g writePoint nextSeq).sampler = s.sampler ∧ (s.endReplay g writePoint nextSeq).gauge = s.gauge ∧
    (s.endReplay g writePoint nextSeq).freeCount = s.freeCount ∧ (s.endReplay g writePoint nextSeq).pending = s.pending := by
  unfold State.endReplay
  simp

@[simp] theorem replayOn_frame (s : State) (g page expect : Nat) (passed : Option Bool) :
    (s.replayOn g page expect passed).clock = s.clock ∧ (s.replayOn g page expect passed).engine = s.engine ∧
    (s.replayOn g page expect passed).stores = s.stores ∧
    (s.replayOn g page expect passed).sampler = s.sampler ∧ (s.replayOn g page expect passed).gauge = s.gauge ∧
    (s.replayOn g page expect passed).freeCount = s.freeCount ∧ (s.replayOn g page expect passed).pending = s.pending := by
  unfold State.replayOn
  split <;> simp

@[simp] theorem replayRead_frame (s : State) (g page expect : Nat) (passed : Option Bool) (r : PageResult) :
    (s.replayRead g page expect passed r).engine = s.engine ∧ (s.replayRead g page expect passed r).stores = s.stores ∧
    (s.replayRead g page expect passed r).sampler = s.sampler ∧
    (s.replayRead g page expect passed r).freeCount = s.freeCount ∧
    (s.replayRead g page expect passed r).pending = s.pending := by
  unfold State.replayRead
  repeat' split
  all_goals simp

@[simp] theorem endRestore_frame (s : State) (read : List (ChainResult × Descriptor)) (done : List ChainResult) :
    (s.endRestore read done).clock = s.clock ∧ (s.endRestore read done).slot = s.slot ∧
    (s.endRestore read done).queue = s.queue ∧ (s.endRestore read done).log = s.log ∧
    (s.endRestore read done).formatRun = s.formatRun ∧ (s.endRestore read done).engine = s.engine ∧
    (s.endRestore read done).stores = s.stores ∧
    (s.endRestore read done).sampler = s.sampler ∧ (s.endRestore read done).monitor = s.monitor ∧
    (s.endRestore read done).gauge = s.gauge ∧ (s.endRestore read done).freeCount = s.freeCount ∧
    (s.endRestore read done).pending = s.pending := by
  unfold State.endRestore
  simp

@[simp] theorem mountReadEnd_frame (s : State) (g p : Nat) (o : ReadOutcome) :
    (s.mountReadEnd g p o).engine = s.engine ∧ (s.mountReadEnd g p o).stores = s.stores ∧
    (s.mountReadEnd g p o).sampler = s.sampler ∧
    (s.mountReadEnd g p o).freeCount = s.freeCount ∧ (s.mountReadEnd g p o).pending = s.pending := by
  unfold State.mountReadEnd
  dsimp only
  repeat' split
  all_goals simp

@[simp] theorem formatTables_frame (s : State) (n : Nat) :
    (s.formatTables n).clock = s.clock ∧ (s.formatTables n).port = s.port ∧ (s.formatTables n).slot = s.slot ∧
    (s.formatTables n).log = s.log ∧ (s.formatTables n).formatRun = s.formatRun ∧ (s.formatTables n).engine = s.engine ∧
    (s.formatTables n).stores = s.stores ∧
    (s.formatTables n).sampler = s.sampler ∧ (s.formatTables n).gauge = s.gauge ∧ (s.formatTables n).power = s.power ∧
    (s.formatTables n).mount = s.mount ∧ (s.formatTables n).freeCount = s.freeCount ∧ (s.formatTables n).pending = s.pending := by
  unfold State.formatTables
  simp

@[simp] theorem endRollover_frame (s : State) :
    s.endRollover.clock = s.clock ∧ s.endRollover.port = s.port ∧ s.endRollover.slot = s.slot ∧ s.endRollover.slots = s.slots ∧
    s.endRollover.queue = s.queue ∧ s.endRollover.media = s.media ∧ s.endRollover.table = s.table ∧ s.endRollover.log = s.log ∧
    s.endRollover.formatRun = s.formatRun ∧ s.endRollover.engine = s.engine ∧ s.endRollover.stores = s.stores ∧
    s.endRollover.sampler = s.sampler ∧
    s.endRollover.monitor = s.monitor ∧ s.endRollover.gauge = s.gauge ∧ s.endRollover.power = s.power ∧
    s.endRollover.mount = s.mount ∧ s.endRollover.freeCount = s.freeCount ∧ s.endRollover.pending = s.pending := by
  unfold State.endRollover
  split <;> simp

@[simp] theorem formatLog_frame (s : State) :
    s.formatLog.clock = s.clock ∧ s.formatLog.formatRun = s.formatRun ∧ s.formatLog.engine = s.engine ∧
    s.formatLog.stores = s.stores ∧
    s.formatLog.sampler = s.sampler ∧ s.formatLog.monitor = s.monitor ∧ s.formatLog.gauge = s.gauge ∧
    s.formatLog.mount = s.mount ∧ s.formatLog.freeCount = s.freeCount ∧ s.formatLog.pending = s.pending := by
  unfold State.formatLog
  simp

@[simp] theorem formatBegin_frame (s : State) (r : FormatRun) :
    (s.formatBegin r).engine = s.engine ∧ (s.formatBegin r).stores = s.stores ∧ (s.formatBegin r).sampler = s.sampler ∧
    (s.formatBegin r).mount = s.mount ∧
    (s.formatBegin r).freeCount = s.freeCount ∧ (s.formatBegin r).pending = s.pending := by
  unfold State.formatBegin
  simp

@[simp] theorem formatGate_frame (s : State) :
    s.formatGate.engine = s.engine ∧ s.formatGate.stores = s.stores ∧ s.formatGate.sampler = s.sampler ∧
    s.formatGate.mount = s.mount ∧
    s.formatGate.freeCount = s.freeCount ∧ s.formatGate.pending = s.pending := by
  unfold State.formatGate
  repeat' split
  all_goals simp

@[simp] theorem startFormat_frame (s : State) (n : Nat) :
    (s.startFormat n).engine = s.engine ∧ (s.startFormat n).stores = s.stores ∧ (s.startFormat n).sampler = s.sampler ∧
    (s.startFormat n).mount = s.mount ∧
    (s.startFormat n).freeCount = s.freeCount ∧ (s.startFormat n).pending = s.pending := by
  unfold State.startFormat
  simp

@[simp] theorem formatEraseEnd_frame (s : State) (g : Nat) (ok : Bool) :
    (s.formatEraseEnd g ok).clock = s.clock ∧ (s.formatEraseEnd g ok).engine = s.engine ∧
    (s.formatEraseEnd g ok).stores = s.stores ∧
    (s.formatEraseEnd g ok).sampler = s.sampler ∧ (s.formatEraseEnd g ok).monitor = s.monitor ∧
    (s.formatEraseEnd g ok).gauge = s.gauge ∧ (s.formatEraseEnd g ok).mount = s.mount ∧
    (s.formatEraseEnd g ok).pending = s.pending := by
  unfold State.formatEraseEnd
  dsimp only
  repeat' split
  all_goals simp

@[simp] theorem makeShockTrigger_frame (s : State) :
    s.makeShockTrigger.clock = s.clock ∧ s.makeShockTrigger.port = s.port ∧ s.makeShockTrigger.slot = s.slot ∧
    s.makeShockTrigger.slots = s.slots ∧ s.makeShockTrigger.pool = s.pool ∧ s.makeShockTrigger.queue = s.queue ∧
    s.makeShockTrigger.media = s.media ∧ s.makeShockTrigger.table = s.table ∧ s.makeShockTrigger.log = s.log ∧
    s.makeShockTrigger.formatRun = s.formatRun ∧ s.makeShockTrigger.engine = s.engine ∧ s.makeShockTrigger.stores = s.stores ∧
    s.makeShockTrigger.monitor = s.monitor ∧ s.makeShockTrigger.gauge = s.gauge ∧ s.makeShockTrigger.power = s.power ∧
    s.makeShockTrigger.mount = s.mount ∧ s.makeShockTrigger.freeCount = s.freeCount ∧ s.makeShockTrigger.pending = s.pending := by
  unfold State.makeShockTrigger
  simp

@[simp] theorem makeGaugeTrigger_frame (s : State) :
    s.makeGaugeTrigger.clock = s.clock ∧ s.makeGaugeTrigger.port = s.port ∧ s.makeGaugeTrigger.slot = s.slot ∧
    s.makeGaugeTrigger.slots = s.slots ∧ s.makeGaugeTrigger.pool = s.pool ∧ s.makeGaugeTrigger.queue = s.queue ∧
    s.makeGaugeTrigger.media = s.media ∧ s.makeGaugeTrigger.table = s.table ∧ s.makeGaugeTrigger.log = s.log ∧
    s.makeGaugeTrigger.formatRun = s.formatRun ∧ s.makeGaugeTrigger.engine = s.engine ∧ s.makeGaugeTrigger.stores = s.stores ∧
    s.makeGaugeTrigger.monitor = s.monitor ∧ s.makeGaugeTrigger.gauge = s.gauge ∧ s.makeGaugeTrigger.power = s.power ∧
    s.makeGaugeTrigger.mount = s.mount ∧ s.makeGaugeTrigger.freeCount = s.freeCount ∧ s.makeGaugeTrigger.pending = s.pending := by
  unfold State.makeGaugeTrigger
  simp

@[simp] theorem makeIdleExpiry_frame (s : State) :
    s.makeIdleExpiry.clock = s.clock ∧ s.makeIdleExpiry.table = s.table ∧ s.makeIdleExpiry.formatRun = s.formatRun ∧
    s.makeIdleExpiry.engine = s.engine ∧ s.makeIdleExpiry.stores = s.stores ∧ s.makeIdleExpiry.sampler = s.sampler ∧
    s.makeIdleExpiry.monitor = s.monitor ∧
    s.makeIdleExpiry.gauge = s.gauge ∧ s.makeIdleExpiry.mount = s.mount ∧ s.makeIdleExpiry.freeCount = s.freeCount ∧
    s.makeIdleExpiry.pending = s.pending := by
  unfold State.makeIdleExpiry
  simp

@[simp] theorem grantIndex_frame (s : State) (b : Nat) (w : IndexWaiter) :
    (s.grantIndex b w).clock = s.clock ∧ (s.grantIndex b w).engine = s.engine ∧ (s.grantIndex b w).stores = s.stores ∧
    (s.grantIndex b w).sampler = s.sampler ∧
    (s.grantIndex b w).monitor = s.monitor ∧ (s.grantIndex b w).gauge = s.gauge ∧ (s.grantIndex b w).mount = s.mount ∧
    (s.grantIndex b w).freeCount = s.freeCount ∧ (s.grantIndex b w).pending = s.pending := by
  unfold State.grantIndex
  repeat' split
  all_goals simp

@[simp] theorem makeGrant_frame (s : State) :
    s.makeGrant.clock = s.clock ∧ s.makeGrant.engine = s.engine ∧ s.makeGrant.stores = s.stores ∧
    s.makeGrant.sampler = s.sampler ∧
    s.makeGrant.monitor = s.monitor ∧ s.makeGrant.gauge = s.gauge ∧ s.makeGrant.mount = s.mount ∧
    s.makeGrant.freeCount = s.freeCount ∧ s.makeGrant.pending = s.pending := by
  unfold State.makeGrant
  split <;> simp

@[simp] theorem retireEntry_frame (s : State) (b : Nat) :
    (s.retireEntry b).clock = s.clock ∧ (s.retireEntry b).port = s.port ∧ (s.retireEntry b).slot = s.slot ∧
    (s.retireEntry b).slots = s.slots ∧ (s.retireEntry b).media = s.media ∧ (s.retireEntry b).table = s.table ∧
    (s.retireEntry b).log = s.log ∧ (s.retireEntry b).formatRun = s.formatRun ∧ (s.retireEntry b).engine = s.engine ∧
    (s.retireEntry b).stores = s.stores ∧
    (s.retireEntry b).sampler = s.sampler ∧ (s.retireEntry b).monitor = s.monitor ∧ (s.retireEntry b).gauge = s.gauge ∧
    (s.retireEntry b).power = s.power ∧ (s.retireEntry b).mount = s.mount ∧ (s.retireEntry b).freeCount = s.freeCount ∧
    (s.retireEntry b).pending = s.pending := by
  unfold State.retireEntry
  simp

@[simp] theorem makeRetire_frame (s : State) :
    s.makeRetire.clock = s.clock ∧ s.makeRetire.port = s.port ∧ s.makeRetire.slot = s.slot ∧ s.makeRetire.slots = s.slots ∧
    s.makeRetire.media = s.media ∧ s.makeRetire.table = s.table ∧ s.makeRetire.log = s.log ∧
    s.makeRetire.formatRun = s.formatRun ∧ s.makeRetire.engine = s.engine ∧ s.makeRetire.stores = s.stores ∧
    s.makeRetire.sampler = s.sampler ∧
    s.makeRetire.monitor = s.monitor ∧ s.makeRetire.gauge = s.gauge ∧ s.makeRetire.power = s.power ∧
    s.makeRetire.mount = s.mount ∧ s.makeRetire.freeCount = s.freeCount ∧ s.makeRetire.pending = s.pending := by
  unfold State.makeRetire
  split <;> simp

@[simp] theorem fillTail_frame (s : State) (d : Descriptor) :
    (s.fillTail d).clock = s.clock ∧ (s.fillTail d).port = s.port ∧ (s.fillTail d).slot = s.slot ∧
    (s.fillTail d).slots = s.slots ∧ (s.fillTail d).pool = s.pool ∧ (s.fillTail d).queue = s.queue ∧
    (s.fillTail d).table = s.table ∧ (s.fillTail d).log = s.log ∧ (s.fillTail d).formatRun = s.formatRun ∧
    (s.fillTail d).engine = s.engine ∧ (s.fillTail d).stores = s.stores ∧ (s.fillTail d).sampler = s.sampler ∧
    (s.fillTail d).monitor = s.monitor ∧
    (s.fillTail d).gauge = s.gauge ∧ (s.fillTail d).power = s.power ∧ (s.fillTail d).mount = s.mount ∧
    (s.fillTail d).freeCount = s.freeCount ∧ (s.fillTail d).pending = s.pending := by
  unfold State.fillTail
  split <;> simp

@[simp] theorem replyStop_frame (s : State) (i : Nat) :
    (s.replyStop i).clock = s.clock ∧ (s.replyStop i).slots = s.slots ∧ (s.replyStop i).pool = s.pool ∧
    (s.replyStop i).queue = s.queue ∧ (s.replyStop i).media = s.media ∧ (s.replyStop i).table = s.table ∧
    (s.replyStop i).log = s.log ∧ (s.replyStop i).formatRun = s.formatRun ∧ (s.replyStop i).engine = s.engine ∧
    (s.replyStop i).stores = s.stores ∧
    (s.replyStop i).sampler = s.sampler ∧ (s.replyStop i).monitor = s.monitor ∧ (s.replyStop i).gauge = s.gauge ∧
    (s.replyStop i).power = s.power ∧ (s.replyStop i).mount = s.mount ∧ (s.replyStop i).freeCount = s.freeCount ∧
    (s.replyStop i).pending = s.pending := by
  unfold State.replyStop
  repeat' split
  all_goals simp

@[simp] theorem completeStop_frame (s : State) (i : Nat) :
    (s.completeStop i).clock = s.clock ∧ (s.completeStop i).pool = s.pool ∧ (s.completeStop i).queue = s.queue ∧
    (s.completeStop i).table = s.table ∧ (s.completeStop i).log = s.log ∧ (s.completeStop i).formatRun = s.formatRun ∧
    (s.completeStop i).engine = s.engine ∧ (s.completeStop i).stores = s.stores ∧ (s.completeStop i).sampler = s.sampler ∧
    (s.completeStop i).monitor = s.monitor ∧
    (s.completeStop i).gauge = s.gauge ∧ (s.completeStop i).power = s.power ∧ (s.completeStop i).mount = s.mount ∧
    (s.completeStop i).freeCount = s.freeCount ∧ (s.completeStop i).pending = s.pending := by
  unfold State.completeStop
  split <;> simp

@[simp] theorem makeStopComplete_frame (s : State) :
    s.makeStopComplete.clock = s.clock ∧ s.makeStopComplete.pool = s.pool ∧ s.makeStopComplete.queue = s.queue ∧
    s.makeStopComplete.table = s.table ∧ s.makeStopComplete.log = s.log ∧ s.makeStopComplete.formatRun = s.formatRun ∧
    s.makeStopComplete.engine = s.engine ∧ s.makeStopComplete.stores = s.stores ∧ s.makeStopComplete.sampler = s.sampler ∧
    s.makeStopComplete.monitor = s.monitor ∧
    s.makeStopComplete.gauge = s.gauge ∧ s.makeStopComplete.power = s.power ∧ s.makeStopComplete.mount = s.mount ∧
    s.makeStopComplete.freeCount = s.freeCount ∧ s.makeStopComplete.pending = s.pending := by
  unfold State.makeStopComplete
  split <;> simp

@[simp] theorem makeClosedEntry_frame (s : State) :
    s.makeClosedEntry.clock = s.clock ∧ s.makeClosedEntry.engine = s.engine ∧ s.makeClosedEntry.stores = s.stores ∧
    s.makeClosedEntry.sampler = s.sampler ∧
    s.makeClosedEntry.monitor = s.monitor ∧ s.makeClosedEntry.gauge = s.gauge ∧ s.makeClosedEntry.mount = s.mount ∧
    s.makeClosedEntry.freeCount = s.freeCount ∧ s.makeClosedEntry.pending = s.pending := by
  unfold State.makeClosedEntry
  split <;> simp

@[simp] theorem makePowerDown_frame (s : State) :
    s.makePowerDown.clock = s.clock ∧ s.makePowerDown.engine = s.engine ∧ s.makePowerDown.stores = s.stores ∧
    s.makePowerDown.sampler = s.sampler ∧
    s.makePowerDown.monitor = s.monitor ∧ s.makePowerDown.gauge = s.gauge ∧ s.makePowerDown.mount = s.mount ∧
    s.makePowerDown.freeCount = s.freeCount ∧ s.makePowerDown.pending = s.pending := by
  unfold State.makePowerDown
  simp

@[simp] theorem make_frame (s : State) (l : Due) :
    (s.make l).monitor = s.monitor ∧ (s.make l).gauge = s.gauge ∧ (s.make l).mount = s.mount ∧
    (s.make l).freeCount = s.freeCount ∧ (s.make l).pending = s.pending := by
  unfold State.make
  split <;> simp

@[simp] theorem makeFor_frame (s : State) (d : Due) (n : Nat) :
    (s.makeFor d n).monitor = s.monitor ∧ (s.makeFor d n).gauge = s.gauge ∧ (s.makeFor d n).mount = s.mount ∧
    (s.makeFor d n).freeCount = s.freeCount ∧ (s.makeFor d n).pending = s.pending := by
  induction n generalizing s with
  | zero => simp [State.makeFor]
  | succ n ih =>
    unfold State.makeFor
    split
    · split
      · rename_i e _
        split
        · simp
        · have h := ih ((s.make e).holdIdle)
          simpa using h
      · simp
    · simp

@[simp] theorem makeIfDue_frame (s : State) (d : Due) :
    (s.makeIfDue d).monitor = s.monitor ∧ (s.makeIfDue d).gauge = s.gauge ∧ (s.makeIfDue d).mount = s.mount ∧
    (s.makeIfDue d).freeCount = s.freeCount ∧ (s.makeIfDue d).pending = s.pending := by
  unfold State.makeIfDue
  simp

@[simp] theorem settleFor_frame (s : State) (l : Nat) :
    (s.settleFor l).monitor = s.monitor ∧ (s.settleFor l).gauge = s.gauge ∧ (s.settleFor l).mount = s.mount ∧
    (s.settleFor l).freeCount = s.freeCount ∧ (s.settleFor l).pending = s.pending := by
  induction l generalizing s with
  | zero => simp [State.settleFor]
  | succ a ih =>
    unfold State.settleFor
    split <;> simp [ih]

@[simp] theorem settle_frame (s : State) :
    s.settle.monitor = s.monitor ∧ s.settle.gauge = s.gauge ∧ s.settle.mount = s.mount ∧ s.settle.freeCount = s.freeCount ∧
    s.settle.pending = s.pending := by
  unfold State.settle
  simp

@[simp] theorem freeHead_frame (s : State) :
    s.freeHead.clock = s.clock ∧ s.freeHead.slot = s.slot ∧ s.freeHead.slots = s.slots ∧ s.freeHead.pool = s.pool ∧
    s.freeHead.queue = s.queue ∧ s.freeHead.media = s.media ∧ s.freeHead.table = s.table ∧ s.freeHead.log = s.log ∧
    s.freeHead.formatRun = s.formatRun ∧ s.freeHead.engine = s.engine ∧ s.freeHead.stores = s.stores ∧
    s.freeHead.sampler = s.sampler ∧
    s.freeHead.monitor = s.monitor ∧ s.freeHead.gauge = s.gauge ∧ s.freeHead.power = s.power ∧ s.freeHead.mount = s.mount ∧
    s.freeHead.freeCount = s.freeCount ∧ s.freeHead.pending = s.pending := by
  unfold State.freeHead
  simp

@[simp] theorem reply_frame (s : State) (f : Frame) (level : Nat) (status : Status) (payload : Payload) :
    (s.reply f level status payload).clock = s.clock ∧ (s.reply f level status payload).slot = s.slot ∧
    (s.reply f level status payload).slots = s.slots ∧ (s.reply f level status payload).pool = s.pool ∧
    (s.reply f level status payload).queue = s.queue ∧ (s.reply f level status payload).media = s.media ∧
    (s.reply f level status payload).table = s.table ∧ (s.reply f level status payload).log = s.log ∧
    (s.reply f level status payload).formatRun = s.formatRun ∧ (s.reply f level status payload).engine = s.engine ∧
    (s.reply f level status payload).stores = s.stores ∧
    (s.reply f level status payload).sampler = s.sampler ∧ (s.reply f level status payload).monitor = s.monitor ∧
    (s.reply f level status payload).gauge = s.gauge ∧ (s.reply f level status payload).power = s.power ∧
    (s.reply f level status payload).mount = s.mount ∧ (s.reply f level status payload).freeCount = s.freeCount ∧
    (s.reply f level status payload).pending = s.pending := by
  unfold State.reply
  simp

@[simp] theorem refuse_frame (s : State) (o : Opcode) (f : Frame) (level : Nat) (status : Status) :
    (s.refuse o f level status).clock = s.clock ∧ (s.refuse o f level status).slot = s.slot ∧
    (s.refuse o f level status).slots = s.slots ∧ (s.refuse o f level status).pool = s.pool ∧
    (s.refuse o f level status).queue = s.queue ∧ (s.refuse o f level status).media = s.media ∧
    (s.refuse o f level status).table = s.table ∧ (s.refuse o f level status).log = s.log ∧
    (s.refuse o f level status).formatRun = s.formatRun ∧ (s.refuse o f level status).engine = s.engine ∧
    (s.refuse o f level status).stores = s.stores ∧
    (s.refuse o f level status).sampler = s.sampler ∧ (s.refuse o f level status).monitor = s.monitor ∧
    (s.refuse o f level status).gauge = s.gauge ∧ (s.refuse o f level status).power = s.power ∧
    (s.refuse o f level status).mount = s.mount ∧ (s.refuse o f level status).freeCount = s.freeCount ∧
    (s.refuse o f level status).pending = s.pending := by
  unfold State.refuse
  simp

@[simp] theorem answer_frame (s : State) (f : Frame) (level : Nat) (payload : Payload) :
    (s.answer f level payload).clock = s.clock ∧ (s.answer f level payload).slot = s.slot ∧
    (s.answer f level payload).slots = s.slots ∧ (s.answer f level payload).pool = s.pool ∧
    (s.answer f level payload).queue = s.queue ∧ (s.answer f level payload).media = s.media ∧
    (s.answer f level payload).table = s.table ∧ (s.answer f level payload).log = s.log ∧
    (s.answer f level payload).formatRun = s.formatRun ∧ (s.answer f level payload).engine = s.engine ∧
    (s.answer f level payload).stores = s.stores ∧
    (s.answer f level payload).sampler = s.sampler ∧ (s.answer f level payload).monitor = s.monitor ∧
    (s.answer f level payload).gauge = s.gauge ∧ (s.answer f level payload).power = s.power ∧
    (s.answer f level payload).mount = s.mount ∧ (s.answer f level payload).freeCount = s.freeCount ∧
    (s.answer f level payload).pending = s.pending := by
  unfold State.answer
  simp

@[simp] theorem accept_frame (s : State) (o : Opcode) (f : Frame) (level : Nat) (request : Request) :
    (s.accept o f level request).clock = s.clock ∧ (s.accept o f level request).slots = s.slots ∧
    (s.accept o f level request).pool = s.pool ∧ (s.accept o f level request).queue = s.queue ∧
    (s.accept o f level request).media = s.media ∧ (s.accept o f level request).table = s.table ∧
    (s.accept o f level request).log = s.log ∧ (s.accept o f level request).formatRun = s.formatRun ∧
    (s.accept o f level request).engine = s.engine ∧ (s.accept o f level request).stores = s.stores ∧
    (s.accept o f level request).sampler = s.sampler ∧
    (s.accept o f level request).monitor = s.monitor ∧ (s.accept o f level request).gauge = s.gauge ∧
    (s.accept o f level request).power = s.power ∧ (s.accept o f level request).mount = s.mount ∧
    (s.accept o f level request).freeCount = s.freeCount ∧ (s.accept o f level request).pending = s.pending := by
  unfold State.accept
  simp

@[simp] theorem takeUnknown_frame (s : State) :
    s.takeUnknown.clock = s.clock ∧ s.takeUnknown.slot = s.slot ∧ s.takeUnknown.slots = s.slots ∧ s.takeUnknown.pool = s.pool ∧
    s.takeUnknown.queue = s.queue ∧ s.takeUnknown.table = s.table ∧ s.takeUnknown.log = s.log ∧
    s.takeUnknown.formatRun = s.formatRun ∧ s.takeUnknown.engine = s.engine ∧ s.takeUnknown.stores = s.stores ∧
    s.takeUnknown.sampler = s.sampler ∧ s.takeUnknown.monitor = s.monitor ∧ s.takeUnknown.gauge = s.gauge ∧
    s.takeUnknown.mount = s.mount ∧ s.takeUnknown.freeCount = s.freeCount ∧ s.takeUnknown.pending = s.pending := by
  unfold State.takeUnknown
  split
  · split <;> simp
  · simp

@[simp] theorem unknown_frame (s : State) :
    s.unknown.monitor = s.monitor ∧ s.unknown.gauge = s.gauge ∧ s.unknown.mount = s.mount ∧ s.unknown.freeCount = s.freeCount ∧
    s.unknown.pending = s.pending := by
  unfold State.unknown
  simp

@[simp] theorem resetSlot_frame (s : State) :
    s.resetSlot.clock = s.clock ∧ s.resetSlot.port = s.port ∧ s.resetSlot.slots = s.slots ∧ s.resetSlot.pool = s.pool ∧
    s.resetSlot.queue = s.queue ∧ s.resetSlot.table = s.table ∧ s.resetSlot.log = s.log ∧ s.resetSlot.formatRun = s.formatRun ∧
    s.resetSlot.sampler = s.sampler ∧ s.resetSlot.monitor = s.monitor ∧ s.resetSlot.gauge = s.gauge ∧
    s.resetSlot.power = s.power ∧ s.resetSlot.mount = s.mount ∧ s.resetSlot.freeCount = s.freeCount ∧
    s.resetSlot.pending = s.pending := by
  unfold State.resetSlot
  repeat' split
  all_goals simp

@[simp] theorem resetPort_frame (s : State) :
    s.resetPort.clock = s.clock ∧ s.resetPort.slot = s.slot ∧ s.resetPort.slots = s.slots ∧ s.resetPort.pool = s.pool ∧
    s.resetPort.queue = s.queue ∧ s.resetPort.media = s.media ∧ s.resetPort.table = s.table ∧ s.resetPort.log = s.log ∧
    s.resetPort.formatRun = s.formatRun ∧ s.resetPort.engine = s.engine ∧ s.resetPort.stores = s.stores ∧
    s.resetPort.sampler = s.sampler ∧
    s.resetPort.monitor = s.monitor ∧ s.resetPort.gauge = s.gauge ∧ s.resetPort.mount = s.mount ∧
    s.resetPort.freeCount = s.freeCount ∧ s.resetPort.pending = s.pending := by
  unfold State.resetPort
  simp

@[simp] theorem linkReset_frame (s : State) (f : Frame) (level : Nat) :
    (s.linkReset f level).clock = s.clock ∧ (s.linkReset f level).slots = s.slots ∧ (s.linkReset f level).pool = s.pool ∧
    (s.linkReset f level).queue = s.queue ∧ (s.linkReset f level).table = s.table ∧ (s.linkReset f level).log = s.log ∧
    (s.linkReset f level).formatRun = s.formatRun ∧ (s.linkReset f level).sampler = s.sampler ∧
    (s.linkReset f level).monitor = s.monitor ∧ (s.linkReset f level).gauge = s.gauge ∧ (s.linkReset f level).mount = s.mount ∧
    (s.linkReset f level).freeCount = s.freeCount ∧ (s.linkReset f level).pending = s.pending := by
  unfold State.linkReset
  simp

@[simp] theorem maskSet_frame (s : State) (f : Frame) (level : Nat) :
    (s.maskSet f level).clock = s.clock ∧ (s.maskSet f level).slot = s.slot ∧ (s.maskSet f level).slots = s.slots ∧
    (s.maskSet f level).pool = s.pool ∧ (s.maskSet f level).queue = s.queue ∧ (s.maskSet f level).media = s.media ∧
    (s.maskSet f level).table = s.table ∧ (s.maskSet f level).log = s.log ∧ (s.maskSet f level).formatRun = s.formatRun ∧
    (s.maskSet f level).engine = s.engine ∧ (s.maskSet f level).stores = s.stores ∧ (s.maskSet f level).sampler = s.sampler ∧
    (s.maskSet f level).monitor = s.monitor ∧
    (s.maskSet f level).gauge = s.gauge ∧ (s.maskSet f level).power = s.power ∧ (s.maskSet f level).mount = s.mount ∧
    (s.maskSet f level).freeCount = s.freeCount ∧ (s.maskSet f level).pending = s.pending := by
  unfold State.maskSet
  split <;> simp

@[simp] theorem maskClear_frame (s : State) (f : Frame) (level : Nat) :
    (s.maskClear f level).clock = s.clock ∧ (s.maskClear f level).slot = s.slot ∧ (s.maskClear f level).slots = s.slots ∧
    (s.maskClear f level).pool = s.pool ∧ (s.maskClear f level).queue = s.queue ∧ (s.maskClear f level).media = s.media ∧
    (s.maskClear f level).table = s.table ∧ (s.maskClear f level).log = s.log ∧ (s.maskClear f level).formatRun = s.formatRun ∧
    (s.maskClear f level).engine = s.engine ∧ (s.maskClear f level).stores = s.stores ∧
    (s.maskClear f level).sampler = s.sampler ∧
    (s.maskClear f level).monitor = s.monitor ∧ (s.maskClear f level).gauge = s.gauge ∧ (s.maskClear f level).power = s.power ∧
    (s.maskClear f level).mount = s.mount ∧ (s.maskClear f level).freeCount = s.freeCount ∧
    (s.maskClear f level).pending = s.pending := by
  unfold State.maskClear
  split <;> simp

@[simp] theorem clockRead_frame (s : State) (f : Frame) (level : Nat) :
    (s.clockRead f level).clock = s.clock ∧ (s.clockRead f level).slot = s.slot ∧ (s.clockRead f level).slots = s.slots ∧
    (s.clockRead f level).pool = s.pool ∧ (s.clockRead f level).queue = s.queue ∧ (s.clockRead f level).media = s.media ∧
    (s.clockRead f level).table = s.table ∧ (s.clockRead f level).log = s.log ∧ (s.clockRead f level).formatRun = s.formatRun ∧
    (s.clockRead f level).engine = s.engine ∧ (s.clockRead f level).stores = s.stores ∧
    (s.clockRead f level).sampler = s.sampler ∧
    (s.clockRead f level).monitor = s.monitor ∧ (s.clockRead f level).gauge = s.gauge ∧ (s.clockRead f level).power = s.power ∧
    (s.clockRead f level).mount = s.mount ∧ (s.clockRead f level).freeCount = s.freeCount ∧
    (s.clockRead f level).pending = s.pending := by
  unfold State.clockRead
  simp

@[simp] theorem clockSet_frame (s : State) (f : Frame) (level : Nat) :
    (s.clockSet f level).slot = s.slot ∧ (s.clockSet f level).slots = s.slots ∧ (s.clockSet f level).pool = s.pool ∧
    (s.clockSet f level).queue = s.queue ∧ (s.clockSet f level).media = s.media ∧ (s.clockSet f level).table = s.table ∧
    (s.clockSet f level).log = s.log ∧ (s.clockSet f level).formatRun = s.formatRun ∧ (s.clockSet f level).engine = s.engine ∧
    (s.clockSet f level).stores = s.stores ∧
    (s.clockSet f level).sampler = s.sampler ∧ (s.clockSet f level).monitor = s.monitor ∧
    (s.clockSet f level).gauge = s.gauge ∧ (s.clockSet f level).power = s.power ∧ (s.clockSet f level).mount = s.mount ∧
    (s.clockSet f level).freeCount = s.freeCount ∧ (s.clockSet f level).pending = s.pending := by
  unfold State.clockSet
  split <;> simp

@[simp] theorem status_frame (s : State) (f : Frame) (level : Nat) :
    (s.status f level).clock = s.clock ∧ (s.status f level).slot = s.slot ∧ (s.status f level).slots = s.slots ∧
    (s.status f level).pool = s.pool ∧ (s.status f level).queue = s.queue ∧ (s.status f level).media = s.media ∧
    (s.status f level).table = s.table ∧ (s.status f level).log = s.log ∧ (s.status f level).formatRun = s.formatRun ∧
    (s.status f level).engine = s.engine ∧ (s.status f level).stores = s.stores ∧ (s.status f level).sampler = s.sampler ∧
    (s.status f level).monitor = s.monitor ∧
    (s.status f level).gauge = s.gauge ∧ (s.status f level).power = s.power ∧ (s.status f level).mount = s.mount ∧
    (s.status f level).freeCount = s.freeCount ∧ (s.status f level).pending = s.pending := by
  unfold State.status
  simp

@[simp] theorem dropsRead_frame (s : State) (f : Frame) (level : Nat) :
    (s.dropsRead f level).clock = s.clock ∧ (s.dropsRead f level).slot = s.slot ∧ (s.dropsRead f level).slots = s.slots ∧
    (s.dropsRead f level).pool = s.pool ∧ (s.dropsRead f level).queue = s.queue ∧ (s.dropsRead f level).media = s.media ∧
    (s.dropsRead f level).table = s.table ∧ (s.dropsRead f level).log = s.log ∧ (s.dropsRead f level).formatRun = s.formatRun ∧
    (s.dropsRead f level).engine = s.engine ∧ (s.dropsRead f level).stores = s.stores ∧
    (s.dropsRead f level).sampler = s.sampler ∧
    (s.dropsRead f level).monitor = s.monitor ∧ (s.dropsRead f level).gauge = s.gauge ∧ (s.dropsRead f level).power = s.power ∧
    (s.dropsRead f level).mount = s.mount ∧ (s.dropsRead f level).freeCount = s.freeCount ∧
    (s.dropsRead f level).pending = s.pending := by
  unfold State.dropsRead
  simp

@[simp] theorem gaugeRead_frame (s : State) (f : Frame) (level : Nat) :
    (s.gaugeRead f level).clock = s.clock ∧ (s.gaugeRead f level).slot = s.slot ∧ (s.gaugeRead f level).slots = s.slots ∧
    (s.gaugeRead f level).pool = s.pool ∧ (s.gaugeRead f level).queue = s.queue ∧ (s.gaugeRead f level).media = s.media ∧
    (s.gaugeRead f level).table = s.table ∧ (s.gaugeRead f level).log = s.log ∧ (s.gaugeRead f level).formatRun = s.formatRun ∧
    (s.gaugeRead f level).engine = s.engine ∧ (s.gaugeRead f level).stores = s.stores ∧
    (s.gaugeRead f level).sampler = s.sampler ∧
    (s.gaugeRead f level).monitor = s.monitor ∧ (s.gaugeRead f level).gauge = s.gauge ∧ (s.gaugeRead f level).power = s.power ∧
    (s.gaugeRead f level).mount = s.mount ∧ (s.gaugeRead f level).freeCount = s.freeCount ∧
    (s.gaugeRead f level).pending = s.pending := by
  unfold State.gaugeRead
  simp

@[simp] theorem streamStart_frame (s : State) (f : Frame) (level : Nat) :
    (s.streamStart f level).clock = s.clock ∧ (s.streamStart f level).pool = s.pool ∧ (s.streamStart f level).queue = s.queue ∧
    (s.streamStart f level).table = s.table ∧ (s.streamStart f level).log = s.log ∧
    (s.streamStart f level).formatRun = s.formatRun ∧ (s.streamStart f level).engine = s.engine ∧
    (s.streamStart f level).stores = s.stores ∧
    (s.streamStart f level).sampler = s.sampler ∧ (s.streamStart f level).monitor = s.monitor ∧
    (s.streamStart f level).gauge = s.gauge ∧ (s.streamStart f level).mount = s.mount ∧
    (s.streamStart f level).freeCount = s.freeCount ∧ (s.streamStart f level).pending = s.pending := by
  unfold State.streamStart
  dsimp only
  repeat' split
  all_goals simp

@[simp] theorem pauseSlot_frame (s : State) (i : Nat) :
    (s.pauseSlot i).monitor = s.monitor ∧ (s.pauseSlot i).gauge = s.gauge ∧ (s.pauseSlot i).mount = s.mount ∧
    (s.pauseSlot i).freeCount = s.freeCount ∧ (s.pauseSlot i).pending = s.pending := by
  unfold State.pauseSlot
  simp

@[simp] theorem streamPause_frame (s : State) (f : Frame) (level : Nat) :
    (s.streamPause f level).monitor = s.monitor ∧ (s.streamPause f level).gauge = s.gauge ∧
    (s.streamPause f level).mount = s.mount ∧ (s.streamPause f level).freeCount = s.freeCount ∧
    (s.streamPause f level).pending = s.pending := by
  unfold State.streamPause
  dsimp only
  repeat' split
  all_goals simp

@[simp] theorem streamStop_frame (s : State) (f : Frame) (level : Nat) :
    (s.streamStop f level).clock = s.clock ∧ (s.streamStop f level).table = s.table ∧
    (s.streamStop f level).formatRun = s.formatRun ∧ (s.streamStop f level).engine = s.engine ∧
    (s.streamStop f level).stores = s.stores ∧
    (s.streamStop f level).sampler = s.sampler ∧ (s.streamStop f level).monitor = s.monitor ∧
    (s.streamStop f level).gauge = s.gauge ∧ (s.streamStop f level).power = s.power ∧ (s.streamStop f level).mount = s.mount ∧
    (s.streamStop f level).freeCount = s.freeCount ∧ (s.streamStop f level).pending = s.pending := by
  unfold State.streamStop
  dsimp only
  repeat' split
  all_goals simp

@[simp] theorem streamClear_frame (s : State) (f : Frame) (level : Nat) :
    (s.streamClear f level).clock = s.clock ∧ (s.streamClear f level).slot = s.slot ∧ (s.streamClear f level).pool = s.pool ∧
    (s.streamClear f level).queue = s.queue ∧ (s.streamClear f level).table = s.table ∧ (s.streamClear f level).log = s.log ∧
    (s.streamClear f level).formatRun = s.formatRun ∧ (s.streamClear f level).engine = s.engine ∧
    (s.streamClear f level).stores = s.stores ∧
    (s.streamClear f level).sampler = s.sampler ∧ (s.streamClear f level).monitor = s.monitor ∧
    (s.streamClear f level).gauge = s.gauge ∧ (s.streamClear f level).power = s.power ∧
    (s.streamClear f level).mount = s.mount ∧ (s.streamClear f level).freeCount = s.freeCount ∧
    (s.streamClear f level).pending = s.pending := by
  unfold State.streamClear
  dsimp only
  repeat' split
  all_goals simp

@[simp] theorem streamRead_frame (s : State) (f : Frame) (level : Nat) :
    (s.streamRead f level).clock = s.clock ∧ (s.streamRead f level).slot = s.slot ∧ (s.streamRead f level).slots = s.slots ∧
    (s.streamRead f level).pool = s.pool ∧ (s.streamRead f level).queue = s.queue ∧ (s.streamRead f level).media = s.media ∧
    (s.streamRead f level).table = s.table ∧ (s.streamRead f level).log = s.log ∧
    (s.streamRead f level).formatRun = s.formatRun ∧ (s.streamRead f level).engine = s.engine ∧
    (s.streamRead f level).stores = s.stores ∧
    (s.streamRead f level).sampler = s.sampler ∧ (s.streamRead f level).monitor = s.monitor ∧
    (s.streamRead f level).gauge = s.gauge ∧ (s.streamRead f level).power = s.power ∧ (s.streamRead f level).mount = s.mount ∧
    (s.streamRead f level).freeCount = s.freeCount ∧ (s.streamRead f level).pending = s.pending := by
  unfold State.streamRead
  dsimp only
  split <;> simp

@[simp] theorem streamLoad_frame (s : State) (f : Frame) (level : Nat) :
    (s.streamLoad f level).clock = s.clock ∧ (s.streamLoad f level).table = s.table ∧
    (s.streamLoad f level).formatRun = s.formatRun ∧ (s.streamLoad f level).engine = s.engine ∧
    (s.streamLoad f level).stores = s.stores ∧
    (s.streamLoad f level).sampler = s.sampler ∧ (s.streamLoad f level).monitor = s.monitor ∧
    (s.streamLoad f level).gauge = s.gauge ∧ (s.streamLoad f level).power = s.power ∧ (s.streamLoad f level).mount = s.mount ∧
    (s.streamLoad f level).freeCount = s.freeCount ∧ (s.streamLoad f level).pending = s.pending := by
  unfold State.streamLoad
  dsimp only
  repeat' split
  all_goals simp

@[simp] theorem surveyOpen_frame (s : State) (f : Frame) (level : Nat) :
    (s.surveyOpen f level).clock = s.clock ∧ (s.surveyOpen f level).engine = s.engine ∧ (s.surveyOpen f level).stores = s.stores ∧
    (s.surveyOpen f level).sampler = s.sampler ∧ (s.surveyOpen f level).monitor = s.monitor ∧
    (s.surveyOpen f level).gauge = s.gauge ∧ (s.surveyOpen f level).mount = s.mount ∧
    (s.surveyOpen f level).freeCount = s.freeCount ∧ (s.surveyOpen f level).pending = s.pending := by
  unfold State.surveyOpen
  split <;> simp

@[simp] theorem surveyClose_frame (s : State) (f : Frame) (level : Nat) :
    (s.surveyClose f level).clock = s.clock ∧ (s.surveyClose f level).formatRun = s.formatRun ∧
    (s.surveyClose f level).engine = s.engine ∧ (s.surveyClose f level).stores = s.stores ∧
    (s.surveyClose f level).sampler = s.sampler ∧
    (s.surveyClose f level).monitor = s.monitor ∧ (s.surveyClose f level).gauge = s.gauge ∧
    (s.surveyClose f level).power = s.power ∧ (s.surveyClose f level).mount = s.mount ∧
    (s.surveyClose f level).freeCount = s.freeCount ∧ (s.surveyClose f level).pending = s.pending := by
  unfold State.surveyClose
  repeat' split
  all_goals simp

@[simp] theorem surveyThresholds_frame (s : State) (f : Frame) (level : Nat) :
    (s.surveyThresholds f level).clock = s.clock ∧ (s.surveyThresholds f level).engine = s.engine ∧
    (s.surveyThresholds f level).stores = s.stores ∧
    (s.surveyThresholds f level).sampler = s.sampler ∧ (s.surveyThresholds f level).monitor = s.monitor ∧
    (s.surveyThresholds f level).gauge = s.gauge ∧ (s.surveyThresholds f level).mount = s.mount ∧
    (s.surveyThresholds f level).freeCount = s.freeCount ∧ (s.surveyThresholds f level).pending = s.pending := by
  unfold State.surveyThresholds
  dsimp only
  repeat' split
  all_goals simp

@[simp] theorem surveyLock_frame (s : State) (f : Frame) (level : Nat) :
    (s.surveyLock f level).clock = s.clock ∧ (s.surveyLock f level).engine = s.engine ∧ (s.surveyLock f level).stores = s.stores ∧
    (s.surveyLock f level).sampler = s.sampler ∧ (s.surveyLock f level).monitor = s.monitor ∧
    (s.surveyLock f level).gauge = s.gauge ∧ (s.surveyLock f level).mount = s.mount ∧
    (s.surveyLock f level).freeCount = s.freeCount ∧ (s.surveyLock f level).pending = s.pending := by
  unfold State.surveyLock
  repeat' split
  all_goals simp

@[simp] theorem surveyErase_frame (s : State) (f : Frame) (level : Nat) :
    (s.surveyErase f level).clock = s.clock ∧ (s.surveyErase f level).engine = s.engine ∧
    (s.surveyErase f level).stores = s.stores ∧
    (s.surveyErase f level).sampler = s.sampler ∧ (s.surveyErase f level).monitor = s.monitor ∧
    (s.surveyErase f level).gauge = s.gauge ∧ (s.surveyErase f level).mount = s.mount ∧
    (s.surveyErase f level).freeCount = s.freeCount ∧ (s.surveyErase f level).pending = s.pending := by
  unfold State.surveyErase
  repeat' split
  all_goals simp

@[simp] theorem surveyList_frame (s : State) (f : Frame) (level : Nat) :
    (s.surveyList f level).clock = s.clock ∧ (s.surveyList f level).slot = s.slot ∧ (s.surveyList f level).slots = s.slots ∧
    (s.surveyList f level).pool = s.pool ∧ (s.surveyList f level).queue = s.queue ∧ (s.surveyList f level).media = s.media ∧
    (s.surveyList f level).table = s.table ∧ (s.surveyList f level).log = s.log ∧
    (s.surveyList f level).formatRun = s.formatRun ∧ (s.surveyList f level).engine = s.engine ∧
    (s.surveyList f level).stores = s.stores ∧
    (s.surveyList f level).sampler = s.sampler ∧ (s.surveyList f level).monitor = s.monitor ∧
    (s.surveyList f level).gauge = s.gauge ∧ (s.surveyList f level).power = s.power ∧ (s.surveyList f level).mount = s.mount ∧
    (s.surveyList f level).freeCount = s.freeCount ∧ (s.surveyList f level).pending = s.pending := by
  unfold State.surveyList
  dsimp only
  split <;> simp

@[simp] theorem readRecords_frame (s : State) (f : Frame) (level : Nat) :
    (s.readRecords f level).clock = s.clock ∧ (s.readRecords f level).table = s.table ∧
    (s.readRecords f level).formatRun = s.formatRun ∧ (s.readRecords f level).sampler = s.sampler ∧
    (s.readRecords f level).monitor = s.monitor ∧ (s.readRecords f level).gauge = s.gauge ∧
    (s.readRecords f level).power = s.power ∧ (s.readRecords f level).mount = s.mount ∧
    (s.readRecords f level).freeCount = s.freeCount ∧ (s.readRecords f level).pending = s.pending := by
  unfold State.readRecords
  dsimp only
  repeat' split
  all_goals simp

@[simp] theorem setPresent_frame (s : State) (f : Frame) (level : Nat) (named : List (Option Nat)) :
    (s.setPresent f level named).clock = s.clock ∧ (s.setPresent f level named).slots = s.slots ∧
    (s.setPresent f level named).pool = s.pool ∧ (s.setPresent f level named).queue = s.queue ∧
    (s.setPresent f level named).media = s.media ∧ (s.setPresent f level named).log = s.log ∧
    (s.setPresent f level named).formatRun = s.formatRun ∧ (s.setPresent f level named).engine = s.engine ∧
    (s.setPresent f level named).stores = s.stores ∧
    (s.setPresent f level named).sampler = s.sampler ∧ (s.setPresent f level named).monitor = s.monitor ∧
    (s.setPresent f level named).gauge = s.gauge ∧ (s.setPresent f level named).power = s.power ∧
    (s.setPresent f level named).mount = s.mount ∧ (s.setPresent f level named).freeCount = s.freeCount ∧
    (s.setPresent f level named).pending = s.pending := by
  unfold State.setPresent
  simp

@[simp] theorem setStored_frame (s : State) (f : Frame) (level : Nat) (named : List (Option Nat)) :
    (s.setStored f level named).clock = s.clock ∧ (s.setStored f level named).engine = s.engine ∧
    (s.setStored f level named).stores = s.stores ∧
    (s.setStored f level named).sampler = s.sampler ∧ (s.setStored f level named).monitor = s.monitor ∧
    (s.setStored f level named).gauge = s.gauge ∧ (s.setStored f level named).mount = s.mount ∧
    (s.setStored f level named).freeCount = s.freeCount ∧ (s.setStored f level named).pending = s.pending := by
  unfold State.setStored
  dsimp only
  repeat' split
  all_goals simp

@[simp] theorem setLevels_frame (s : State) (f : Frame) (level : Nat) :
    (s.setLevels f level).clock = s.clock ∧ (s.setLevels f level).engine = s.engine ∧ (s.setLevels f level).stores = s.stores ∧
    (s.setLevels f level).sampler = s.sampler ∧ (s.setLevels f level).monitor = s.monitor ∧
    (s.setLevels f level).gauge = s.gauge ∧ (s.setLevels f level).mount = s.mount ∧
    (s.setLevels f level).freeCount = s.freeCount ∧ (s.setLevels f level).pending = s.pending := by
  unfold State.setLevels
  repeat' split
  all_goals simp

@[simp] theorem setShock_frame (s : State) (f : Frame) (level : Nat) :
    (s.setShock f level).clock = s.clock ∧ (s.setShock f level).engine = s.engine ∧ (s.setShock f level).stores = s.stores ∧
    (s.setShock f level).sampler = s.sampler ∧
    (s.setShock f level).monitor = s.monitor ∧ (s.setShock f level).gauge = s.gauge ∧ (s.setShock f level).mount = s.mount ∧
    (s.setShock f level).freeCount = s.freeCount ∧ (s.setShock f level).pending = s.pending := by
  unfold State.setShock
  repeat' split
  all_goals simp

@[simp] theorem setGauge_frame (s : State) (f : Frame) (level : Nat) :
    (s.setGauge f level).clock = s.clock ∧ (s.setGauge f level).engine = s.engine ∧ (s.setGauge f level).stores = s.stores ∧
    (s.setGauge f level).sampler = s.sampler ∧
    (s.setGauge f level).monitor = s.monitor ∧ (s.setGauge f level).gauge = s.gauge ∧ (s.setGauge f level).mount = s.mount ∧
    (s.setGauge f level).freeCount = s.freeCount ∧ (s.setGauge f level).pending = s.pending := by
  unfold State.setGauge
  repeat' split
  all_goals simp

@[simp] theorem doze_frame (s : State) (f : Frame) (level : Nat) :
    (s.doze f level).monitor = s.monitor ∧ (s.doze f level).gauge = s.gauge ∧ (s.doze f level).mount = s.mount ∧
    (s.doze f level).freeCount = s.freeCount ∧ (s.doze f level).pending = s.pending := by
  unfold State.doze
  split <;> simp

@[simp] theorem format_frame (s : State) (f : Frame) (level : Nat) :
    (s.format f level).engine = s.engine ∧ (s.format f level).stores = s.stores ∧ (s.format f level).sampler = s.sampler ∧
    (s.format f level).mount = s.mount ∧
    (s.format f level).freeCount = s.freeCount ∧ (s.format f level).pending = s.pending := by
  unfold State.format
  repeat' split
  all_goals simp

@[simp] theorem keepFrame_frame (s : State) (f : Frame) :
    (s.keepFrame f).clock = s.clock ∧ (s.keepFrame f).slots = s.slots ∧ (s.keepFrame f).pool = s.pool ∧
    (s.keepFrame f).queue = s.queue ∧ (s.keepFrame f).table = s.table ∧ (s.keepFrame f).log = s.log ∧
    (s.keepFrame f).formatRun = s.formatRun ∧ (s.keepFrame f).engine = s.engine ∧ (s.keepFrame f).stores = s.stores ∧
    (s.keepFrame f).sampler = s.sampler ∧
    (s.keepFrame f).monitor = s.monitor ∧ (s.keepFrame f).gauge = s.gauge ∧ (s.keepFrame f).mount = s.mount ∧
    (s.keepFrame f).freeCount = s.freeCount ∧ (s.keepFrame f).pending = s.pending := by
  unfold State.keepFrame
  simp

@[simp] theorem admitFrame_frame (s : State) (f : Frame) :
    (s.admitFrame f).clock = s.clock ∧ (s.admitFrame f).slots = s.slots ∧ (s.admitFrame f).pool = s.pool ∧
    (s.admitFrame f).queue = s.queue ∧ (s.admitFrame f).table = s.table ∧ (s.admitFrame f).log = s.log ∧
    (s.admitFrame f).formatRun = s.formatRun ∧ (s.admitFrame f).engine = s.engine ∧ (s.admitFrame f).stores = s.stores ∧
    (s.admitFrame f).sampler = s.sampler ∧
    (s.admitFrame f).monitor = s.monitor ∧ (s.admitFrame f).gauge = s.gauge ∧ (s.admitFrame f).mount = s.mount ∧
    (s.admitFrame f).freeCount = s.freeCount ∧ (s.admitFrame f).pending = s.pending := by
  unfold State.admitFrame
  repeat' split
  all_goals simp

@[simp] theorem arrive_frame (s : State) (bytes : List Byte) :
    (s.arrive bytes).clock = s.clock ∧ (s.arrive bytes).slots = s.slots ∧ (s.arrive bytes).pool = s.pool ∧
    (s.arrive bytes).queue = s.queue ∧ (s.arrive bytes).table = s.table ∧ (s.arrive bytes).log = s.log ∧
    (s.arrive bytes).formatRun = s.formatRun ∧ (s.arrive bytes).engine = s.engine ∧ (s.arrive bytes).stores = s.stores ∧
    (s.arrive bytes).sampler = s.sampler ∧
    (s.arrive bytes).monitor = s.monitor ∧ (s.arrive bytes).gauge = s.gauge ∧ (s.arrive bytes).mount = s.mount ∧
    (s.arrive bytes).freeCount = s.freeCount ∧ (s.arrive bytes).pending = s.pending := by
  unfold State.arrive
  repeat' split
  all_goals simp

@[simp] theorem sent_frame (s : State) :
    s.sent.clock = s.clock ∧ s.sent.slot = s.slot ∧ s.sent.slots = s.slots ∧ s.sent.pool = s.pool ∧ s.sent.queue = s.queue ∧
    s.sent.media = s.media ∧ s.sent.table = s.table ∧ s.sent.log = s.log ∧ s.sent.formatRun = s.formatRun ∧
    s.sent.engine = s.engine ∧ s.sent.stores = s.stores ∧ s.sent.sampler = s.sampler ∧ s.sent.monitor = s.monitor ∧
    s.sent.gauge = s.gauge ∧
    s.sent.mount = s.mount ∧ s.sent.freeCount = s.freeCount ∧ s.sent.pending = s.pending := by
  unfold State.sent
  split <;> simp

@[simp] theorem processFrame_frame (s : State) (i : Nat) (d : Descriptor) (f : Frame) :
    (s.processFrame i d f).clock = s.clock ∧ (s.processFrame i d f).slot = s.slot ∧ (s.processFrame i d f).media = s.media ∧
    (s.processFrame i d f).table = s.table ∧ (s.processFrame i d f).log = s.log ∧
    (s.processFrame i d f).formatRun = s.formatRun ∧ (s.processFrame i d f).engine = s.engine ∧
    (s.processFrame i d f).stores = s.stores ∧
    (s.processFrame i d f).sampler = s.sampler ∧ (s.processFrame i d f).monitor = s.monitor ∧
    (s.processFrame i d f).gauge = s.gauge ∧ (s.processFrame i d f).power = s.power ∧ (s.processFrame i d f).mount = s.mount ∧
    (s.processFrame i d f).freeCount = s.freeCount ∧ (s.processFrame i d f).pending = s.pending := by
  unfold State.processFrame
  simp

@[simp] theorem admitOrLose_frame (s : State) (i : Nat) (f : Frame) :
    (s.admitOrLose i f).clock = s.clock ∧ (s.admitOrLose i f).slot = s.slot ∧ (s.admitOrLose i f).media = s.media ∧
    (s.admitOrLose i f).table = s.table ∧ (s.admitOrLose i f).log = s.log ∧ (s.admitOrLose i f).formatRun = s.formatRun ∧
    (s.admitOrLose i f).engine = s.engine ∧ (s.admitOrLose i f).stores = s.stores ∧ (s.admitOrLose i f).sampler = s.sampler ∧
    (s.admitOrLose i f).monitor = s.monitor ∧
    (s.admitOrLose i f).gauge = s.gauge ∧ (s.admitOrLose i f).power = s.power ∧ (s.admitOrLose i f).mount = s.mount ∧
    (s.admitOrLose i f).freeCount = s.freeCount ∧ (s.admitOrLose i f).pending = s.pending := by
  unfold State.admitOrLose
  dsimp only
  repeat' split
  all_goals simp

@[simp] theorem sequenceFrame_frame (s : State) (i : Nat) (f : Frame) :
    (s.sequenceFrame i f).clock = s.clock ∧ (s.sequenceFrame i f).slot = s.slot ∧ (s.sequenceFrame i f).media = s.media ∧
    (s.sequenceFrame i f).table = s.table ∧ (s.sequenceFrame i f).log = s.log ∧ (s.sequenceFrame i f).formatRun = s.formatRun ∧
    (s.sequenceFrame i f).engine = s.engine ∧ (s.sequenceFrame i f).stores = s.stores ∧
    (s.sequenceFrame i f).sampler = s.sampler ∧
    (s.sequenceFrame i f).monitor = s.monitor ∧ (s.sequenceFrame i f).gauge = s.gauge ∧ (s.sequenceFrame i f).power = s.power ∧
    (s.sequenceFrame i f).mount = s.mount ∧ (s.sequenceFrame i f).freeCount = s.freeCount ∧
    (s.sequenceFrame i f).pending = s.pending := by
  unfold State.sequenceFrame
  split <;> simp

@[simp] theorem capture_frame (s : State) (f : Frame) :
    (s.capture f).clock = s.clock ∧ (s.capture f).slot = s.slot ∧ (s.capture f).media = s.media ∧
    (s.capture f).table = s.table ∧ (s.capture f).log = s.log ∧ (s.capture f).formatRun = s.formatRun ∧
    (s.capture f).engine = s.engine ∧ (s.capture f).stores = s.stores ∧ (s.capture f).sampler = s.sampler ∧
    (s.capture f).monitor = s.monitor ∧
    (s.capture f).gauge = s.gauge ∧ (s.capture f).power = s.power ∧ (s.capture f).mount = s.mount ∧
    (s.capture f).freeCount = s.freeCount ∧ (s.capture f).pending = s.pending := by
  unfold State.capture
  repeat' split
  all_goals simp

@[simp] theorem takeSample_frame (s : State) :
    s.takeSample.clock = s.clock ∧ s.takeSample.table = s.table ∧ s.takeSample.formatRun = s.formatRun ∧
    s.takeSample.engine = s.engine ∧ s.takeSample.stores = s.stores ∧ s.takeSample.sampler = s.sampler ∧
    s.takeSample.monitor = s.monitor ∧
    s.takeSample.gauge = s.gauge ∧ s.takeSample.power = s.power ∧ s.takeSample.mount = s.mount ∧
    s.takeSample.freeCount = s.freeCount ∧ s.takeSample.pending = s.pending := by
  unfold State.takeSample
  repeat' split
  all_goals simp

@[simp] theorem tickCounts_frame (s : State) :
    s.tickCounts.clock = s.clock ∧ s.tickCounts.port = s.port ∧ s.tickCounts.slot = s.slot ∧ s.tickCounts.slots = s.slots ∧
    s.tickCounts.pool = s.pool ∧ s.tickCounts.media = s.media ∧ s.tickCounts.table = s.table ∧ s.tickCounts.log = s.log ∧
    s.tickCounts.formatRun = s.formatRun ∧ s.tickCounts.engine = s.engine ∧ s.tickCounts.stores = s.stores ∧
    s.tickCounts.sampler = s.sampler ∧
    s.tickCounts.gauge = s.gauge ∧ s.tickCounts.power = s.power ∧ s.tickCounts.mount = s.mount ∧
    s.tickCounts.freeCount = s.freeCount ∧ s.tickCounts.pending = s.pending := by
  unfold State.tickCounts
  simp

@[simp] theorem tick_frame (s : State) :
    s.tick.port = s.port ∧ s.tick.slot = s.slot ∧ s.tick.slots = s.slots ∧ s.tick.pool = s.pool ∧ s.tick.media = s.media ∧
    s.tick.table = s.table ∧ s.tick.log = s.log ∧ s.tick.formatRun = s.formatRun ∧ s.tick.engine = s.engine ∧
    s.tick.stores = s.stores ∧
    s.tick.gauge = s.gauge ∧ s.tick.mount = s.mount ∧ s.tick.freeCount = s.freeCount ∧ s.tick.pending = s.pending := by
  unfold State.tick
  simp

@[simp] theorem crystal_frame (s : State) :
    s.crystal.port = s.port ∧ s.crystal.slot = s.slot ∧ s.crystal.slots = s.slots ∧ s.crystal.pool = s.pool ∧
    s.crystal.media = s.media ∧ s.crystal.table = s.table ∧ s.crystal.log = s.log ∧ s.crystal.formatRun = s.formatRun ∧
    s.crystal.engine = s.engine ∧ s.crystal.stores = s.stores ∧ s.crystal.gauge = s.gauge ∧ s.crystal.mount = s.mount ∧
    s.crystal.freeCount = s.freeCount ∧
    s.crystal.pending = s.pending := by
  unfold State.crystal
  split <;> simp

@[simp] theorem idle_frame (s : State) :
    s.idle.gauge = s.gauge ∧ s.idle.mount = s.mount ∧ s.idle.freeCount = s.freeCount ∧ s.idle.pending = s.pending := by
  unfold State.idle
  split <;> simp

@[simp] theorem shockEnd_frame (s : State) (ax ay az vhold : Code) :
    (s.shockEnd ax ay az vhold).engine = s.engine ∧ (s.shockEnd ax ay az vhold).stores = s.stores ∧
    (s.shockEnd ax ay az vhold).mount = s.mount ∧ (s.shockEnd ax ay az vhold).pending = s.pending := by
  unfold State.shockEnd
  split <;> simp

@[simp] theorem gaugeEnd_frame (s : State) (vhold vpack ipack tpack zeroRef fullRef : Code) :
    (s.gaugeEnd vhold vpack ipack tpack zeroRef fullRef).clock = s.clock ∧
    (s.gaugeEnd vhold vpack ipack tpack zeroRef fullRef).engine = s.engine ∧
    (s.gaugeEnd vhold vpack ipack tpack zeroRef fullRef).stores = s.stores ∧
    (s.gaugeEnd vhold vpack ipack tpack zeroRef fullRef).mount = s.mount ∧
    (s.gaugeEnd vhold vpack ipack tpack zeroRef fullRef).freeCount = s.freeCount ∧
    (s.gaugeEnd vhold vpack ipack tpack zeroRef fullRef).pending = s.pending := by
  unfold State.gaugeEnd
  repeat' split
  all_goals simp

@[simp] theorem startUpEnd_frame (s : State) (zeroRef fullRef : Code) :
    (s.startUpEnd zeroRef fullRef).clock = s.clock ∧ (s.startUpEnd zeroRef fullRef).slot = s.slot ∧
    (s.startUpEnd zeroRef fullRef).slots = s.slots ∧ (s.startUpEnd zeroRef fullRef).pool = s.pool ∧
    (s.startUpEnd zeroRef fullRef).queue = s.queue ∧ (s.startUpEnd zeroRef fullRef).media = s.media ∧
    (s.startUpEnd zeroRef fullRef).table = s.table ∧ (s.startUpEnd zeroRef fullRef).log = s.log ∧
    (s.startUpEnd zeroRef fullRef).formatRun = s.formatRun ∧ (s.startUpEnd zeroRef fullRef).engine = s.engine ∧
    (s.startUpEnd zeroRef fullRef).stores = s.stores ∧
    (s.startUpEnd zeroRef fullRef).monitor = s.monitor ∧ (s.startUpEnd zeroRef fullRef).gauge = s.gauge ∧
    (s.startUpEnd zeroRef fullRef).power = s.power ∧ (s.startUpEnd zeroRef fullRef).mount = s.mount ∧
    (s.startUpEnd zeroRef fullRef).freeCount = s.freeCount ∧ (s.startUpEnd zeroRef fullRef).pending = s.pending := by
  unfold State.startUpEnd
  split <;> simp

@[simp] theorem wakeEnd_frame (s : State) :
    s.wakeEnd.clock = s.clock ∧ s.wakeEnd.table = s.table ∧ s.wakeEnd.formatRun = s.formatRun ∧ s.wakeEnd.engine = s.engine ∧
    s.wakeEnd.stores = s.stores ∧
    s.wakeEnd.monitor = s.monitor ∧ s.wakeEnd.gauge = s.gauge ∧ s.wakeEnd.mount = s.mount ∧ s.wakeEnd.freeCount = s.freeCount ∧
    s.wakeEnd.pending = s.pending := by
  unfold State.wakeEnd
  split <;> simp

@[simp] theorem flagVoid_frame (s : State) (n : Nat) :
    (s.flagVoid n).clock = s.clock ∧ (s.flagVoid n).port = s.port ∧ (s.flagVoid n).slot = s.slot ∧
    (s.flagVoid n).slots = s.slots ∧ (s.flagVoid n).pool = s.pool ∧ (s.flagVoid n).queue = s.queue ∧
    (s.flagVoid n).media = s.media ∧ (s.flagVoid n).log = s.log ∧ (s.flagVoid n).formatRun = s.formatRun ∧
    (s.flagVoid n).engine = s.engine ∧ (s.flagVoid n).stores = s.stores ∧ (s.flagVoid n).sampler = s.sampler ∧
    (s.flagVoid n).monitor = s.monitor ∧
    (s.flagVoid n).gauge = s.gauge ∧ (s.flagVoid n).power = s.power ∧ (s.flagVoid n).mount = s.mount ∧
    (s.flagVoid n).freeCount = s.freeCount ∧ (s.flagVoid n).pending = s.pending := by
  unfold State.flagVoid
  simp

@[simp] theorem afterOp_frame (s : State) :
    s.afterOp.engine = s.engine ∧ s.afterOp.stores = s.stores ∧ s.afterOp.sampler = s.sampler ∧ s.afterOp.mount = s.mount ∧
    s.afterOp.freeCount = s.freeCount ∧ s.afterOp.pending = s.pending := by
  unfold State.afterOp
  simp

@[simp] theorem programOk_frame (s : State) (e : Entry) :
    (s.programOk e).clock = s.clock ∧ (s.programOk e).port = s.port ∧ (s.programOk e).slot = s.slot ∧
    (s.programOk e).slots = s.slots ∧ (s.programOk e).pool = s.pool ∧ (s.programOk e).media = s.media ∧
    (s.programOk e).log = s.log ∧ (s.programOk e).formatRun = s.formatRun ∧ (s.programOk e).engine = s.engine ∧
    (s.programOk e).stores = s.stores ∧
    (s.programOk e).sampler = s.sampler ∧ (s.programOk e).gauge = s.gauge ∧ (s.programOk e).power = s.power ∧
    (s.programOk e).mount = s.mount ∧ (s.programOk e).freeCount = s.freeCount ∧ (s.programOk e).pending = s.pending := by
  unfold State.programOk
  split <;> simp

@[simp] theorem programFail_frame (s : State) (e : Entry) (g : Nat) :
    (s.programFail e g).clock = s.clock ∧ (s.programFail e g).slot = s.slot ∧ (s.programFail e g).slots = s.slots ∧
    (s.programFail e g).pool = s.pool ∧ (s.programFail e g).log = s.log ∧ (s.programFail e g).formatRun = s.formatRun ∧
    (s.programFail e g).engine = s.engine ∧ (s.programFail e g).stores = s.stores ∧ (s.programFail e g).sampler = s.sampler ∧
    (s.programFail e g).monitor = s.monitor ∧
    (s.programFail e g).gauge = s.gauge ∧ (s.programFail e g).power = s.power ∧ (s.programFail e g).mount = s.mount ∧
    (s.programFail e g).freeCount = s.freeCount ∧ (s.programFail e g).pending = s.pending := by
  unfold State.programFail
  simp

@[simp] theorem dataEnd_frame (s : State) (b g p : Nat) (ok : Bool) :
    (s.dataEnd b g p ok).engine = s.engine ∧ (s.dataEnd b g p ok).stores = s.stores ∧ (s.dataEnd b g p ok).sampler = s.sampler ∧
    (s.dataEnd b g p ok).mount = s.mount ∧
    (s.dataEnd b g p ok).pending = s.pending := by
  unfold State.dataEnd
  dsimp only
  repeat' split
  all_goals simp

@[simp] theorem verifyMatch_frame (s : State) (e : Entry) :
    (s.verifyMatch e).clock = s.clock ∧ (s.verifyMatch e).port = s.port ∧ (s.verifyMatch e).slot = s.slot ∧
    (s.verifyMatch e).slots = s.slots ∧ (s.verifyMatch e).media = s.media ∧ (s.verifyMatch e).table = s.table ∧
    (s.verifyMatch e).log = s.log ∧ (s.verifyMatch e).formatRun = s.formatRun ∧ (s.verifyMatch e).engine = s.engine ∧
    (s.verifyMatch e).stores = s.stores ∧
    (s.verifyMatch e).sampler = s.sampler ∧ (s.verifyMatch e).gauge = s.gauge ∧ (s.verifyMatch e).power = s.power ∧
    (s.verifyMatch e).mount = s.mount ∧ (s.verifyMatch e).freeCount = s.freeCount ∧ (s.verifyMatch e).pending = s.pending := by
  unfold State.verifyMatch
  simp

@[simp] theorem verifyMismatch_frame (s : State) (e : Entry) (g : Nat) :
    (s.verifyMismatch e g).clock = s.clock ∧ (s.verifyMismatch e g).slot = s.slot ∧ (s.verifyMismatch e g).slots = s.slots ∧
    (s.verifyMismatch e g).pool = s.pool ∧ (s.verifyMismatch e g).log = s.log ∧
    (s.verifyMismatch e g).formatRun = s.formatRun ∧ (s.verifyMismatch e g).engine = s.engine ∧
    (s.verifyMismatch e g).stores = s.stores ∧
    (s.verifyMismatch e g).sampler = s.sampler ∧ (s.verifyMismatch e g).gauge = s.gauge ∧
    (s.verifyMismatch e g).power = s.power ∧ (s.verifyMismatch e g).mount = s.mount ∧
    (s.verifyMismatch e g).freeCount = s.freeCount ∧ (s.verifyMismatch e g).pending = s.pending := by
  unfold State.verifyMismatch
  simp

@[simp] theorem verifyEnd_frame (s : State) (b g p : Nat) (o : ReadOutcome) :
    (s.verifyEnd b g p o).engine = s.engine ∧ (s.verifyEnd b g p o).stores = s.stores ∧
    (s.verifyEnd b g p o).sampler = s.sampler ∧
    (s.verifyEnd b g p o).mount = s.mount ∧ (s.verifyEnd b g p o).freeCount = s.freeCount ∧
    (s.verifyEnd b g p o).pending = s.pending := by
  unfold State.verifyEnd
  dsimp only
  repeat' split
  all_goals simp

@[simp] theorem endDataProgram_frame (s : State) (ok : Bool) :
    (s.endDataProgram ok).engine = s.engine ∧ (s.endDataProgram ok).stores = s.stores ∧
    (s.endDataProgram ok).sampler = s.sampler ∧
    (s.endDataProgram ok).mount = s.mount ∧ (s.endDataProgram ok).pending = s.pending := by
  unfold State.endDataProgram
  split <;> simp

@[simp] theorem endHeaderProgram_frame (s : State) (ok : Bool) :
    (s.endHeaderProgram ok).engine = s.engine ∧ (s.endHeaderProgram ok).stores = s.stores ∧
    (s.endHeaderProgram ok).sampler = s.sampler ∧
    (s.endHeaderProgram ok).mount = s.mount ∧ (s.endHeaderProgram ok).pending = s.pending := by
  unfold State.endHeaderProgram
  split <;> simp

@[simp] theorem endSegmentErase_frame (s : State) (ok : Bool) :
    (s.endSegmentErase ok).engine = s.engine ∧ (s.endSegmentErase ok).stores = s.stores ∧
    (s.endSegmentErase ok).sampler = s.sampler ∧
    (s.endSegmentErase ok).mount = s.mount ∧ (s.endSegmentErase ok).pending = s.pending := by
  unfold State.endSegmentErase
  split <;> simp

@[simp] theorem endFormatErase_frame (s : State) (ok : Bool) :
    (s.endFormatErase ok).engine = s.engine ∧ (s.endFormatErase ok).stores = s.stores ∧
    (s.endFormatErase ok).sampler = s.sampler ∧
    (s.endFormatErase ok).mount = s.mount ∧ (s.endFormatErase ok).pending = s.pending := by
  unfold State.endFormatErase
  split <;> simp

@[simp] theorem endIndexEntry_frame (s : State) (ok : Bool) :
    (s.endIndexEntry ok).engine = s.engine ∧ (s.endIndexEntry ok).stores = s.stores ∧ (s.endIndexEntry ok).sampler = s.sampler ∧
    (s.endIndexEntry ok).mount = s.mount ∧
    (s.endIndexEntry ok).pending = s.pending := by
  unfold State.endIndexEntry
  split <;> simp

@[simp] theorem endIndexErase_frame (s : State) (ok : Bool) :
    (s.endIndexErase ok).engine = s.engine ∧ (s.endIndexErase ok).stores = s.stores ∧ (s.endIndexErase ok).sampler = s.sampler ∧
    (s.endIndexErase ok).mount = s.mount ∧
    (s.endIndexErase ok).pending = s.pending := by
  unfold State.endIndexErase
  split <;> simp

@[simp] theorem endSnapshot_frame (s : State) (ok : Bool) :
    (s.endSnapshot ok).engine = s.engine ∧ (s.endSnapshot ok).stores = s.stores ∧ (s.endSnapshot ok).sampler = s.sampler ∧
    (s.endSnapshot ok).mount = s.mount ∧
    (s.endSnapshot ok).pending = s.pending := by
  unfold State.endSnapshot
  split <;> simp

@[simp] theorem endVerification_frame (s : State) (r : ReadOutcome) :
    (s.endVerification r).engine = s.engine ∧ (s.endVerification r).stores = s.stores ∧
    (s.endVerification r).sampler = s.sampler ∧
    (s.endVerification r).mount = s.mount ∧ (s.endVerification r).freeCount = s.freeCount ∧
    (s.endVerification r).pending = s.pending := by
  unfold State.endVerification
  split <;> simp

@[simp] theorem endEngineRead_frame (s : State) (r : ReadOutcome) :
    (s.endEngineRead r).sampler = s.sampler ∧ (s.endEngineRead r).mount = s.mount ∧
    (s.endEngineRead r).freeCount = s.freeCount ∧ (s.endEngineRead r).pending = s.pending := by
  unfold State.endEngineRead
  split <;> simp

@[simp] theorem endMountRead_frame (s : State) (r : ReadOutcome) :
    (s.endMountRead r).engine = s.engine ∧ (s.endMountRead r).stores = s.stores ∧ (s.endMountRead r).sampler = s.sampler ∧
    (s.endMountRead r).freeCount = s.freeCount ∧ (s.endMountRead r).pending = s.pending := by
  unfold State.endMountRead
  split <;> simp

@[simp] theorem timeout_frame (s : State) :
    s.timeout.sampler = s.sampler ∧ s.timeout.pending = s.pending := by
  unfold State.timeout
  split <;> simp

@[simp] theorem loseOp_frame (s : State) :
    s.loseOp.clock = s.clock ∧ s.loseOp.port = s.port ∧ s.loseOp.slot = s.slot ∧ s.loseOp.slots = s.slots ∧
    s.loseOp.pool = s.pool ∧ s.loseOp.queue = s.queue ∧ s.loseOp.table = s.table ∧ s.loseOp.log = s.log ∧
    s.loseOp.formatRun = s.formatRun ∧ s.loseOp.engine = s.engine ∧ s.loseOp.stores = s.stores ∧ s.loseOp.sampler = s.sampler ∧
    s.loseOp.monitor = s.monitor ∧ s.loseOp.gauge = s.gauge ∧ s.loseOp.power = s.power ∧ s.loseOp.mount = s.mount ∧
    s.loseOp.pending = s.pending := by
  unfold State.loseOp
  split <;> simp

end Sys2Proof.Machine
end

