-- ==== Sys2Proof/Laws/Chains.lean ====
section
/-! SUPPORT. Laws of the Read Engine's moves over chains (R107, R111) and of mount's building of chains (R176). -/

namespace Sys2Proof.Machine

/-- The fuel of a move forward does not matter where it exceeds the segments and links left (R107, R111). -/
theorem forward_fuel (s : State) : ∀ n m (c : ReadContext) (i p : Nat), i < c.path.length → c.links ≤ 64 →
    (c.path.length - i) + (64 - c.links) < n → (c.path.length - i) + (64 - c.links) < m → s.forward n c i p = s.forward m c i p := by
  intro n
  induction n with
  | zero => intro m c i p h1 h2 h3; omega
  | succ n ih =>
    intro m c i p h1 h2 h3 h4
    cases m with
    | zero => omega
    | succ m =>
      unfold State.forward
      split
      · rfl
      · split
        · next h => exact ih m c (i + 1) 1 h h2 (by omega) (by omega)
        · split
          · rfl
          · split
            · rfl
            · next g hg hl =>
              exact ih m _ (i + 1) 1 (by simp; omega) (by simp; omega) (by simp; omega) (by simp; omega)

/-- What a move forward does at a place on the path (R107, R111). -/
theorem forward_next (s : State) (c : ReadContext) (i p : Nat) (h1 : i < c.path.length) (h2 : c.path.length ≤ 65) (h3 : c.links ≤ 64) :
    s.forward 200 c i p =
      if p ≤ s.lastPageOf (c.segAt i) then .page c i p
      else if i + 1 < c.path.length then s.forward 200 c (i + 1) 1
      else match s.nextOf (c.segAt i) with
        | none => .chainEnd c
        | some g => if c.links = 64 then .linkLimit c else s.forward 200 { c with path := c.path ++ [g], links := c.links + 1 } (i + 1) 1 := by
  conv => lhs; rw [show (200 : Nat) = 199 + 1 from rfl]; unfold State.forward
  split
  · rfl
  · split
    · next h => exact forward_fuel s _ _ _ _ _ h h3 (by omega) (by omega)
    · cases hn : s.nextOf (c.segAt i) with
      | none => rfl
      | some g =>
        dsimp only
        by_cases hl : c.links = 64
        · rw [if_pos hl, if_pos hl]
        · rw [if_neg hl, if_neg hl]
          exact forward_fuel s _ _ _ _ _ (by simp only [List.length_append, List.length_singleton]; omega) (by dsimp only; omega)
              (by simp only [List.length_append, List.length_singleton]; omega) (by simp only [List.length_append, List.length_singleton]; omega)

/-- The walk over a chain of links whose first record sequences are at most the requested one (R107). -/
theorem walk_chain (s : State) (first : Nat) : ∀ (gs : List Nat) (fuel : Nat) (pre : List Nat) (start last links : Nat),
    List.IsChain (fun a g => s.nextOf a = some g ∧ s.segFirstSeq g ≤ first) (start :: gs) → gs.length + links ≤ 64 → gs.length < fuel →
    (start :: gs).getLast? = some last →
    ((∀ g, s.nextOf last = some g → first < s.segFirstSeq g) →
      s.walk first fuel (pre ++ [start]) links = (pre ++ start :: gs, links + gs.length, false)) ∧
    (∀ g, gs.length + links = 64 → s.nextOf last = some g → s.segFirstSeq g ≤ first →
      s.walk first fuel (pre ++ [start]) links = (pre ++ start :: gs, 64, true)) := by
  intro gs
  induction gs with
  | nil =>
    intro fuel pre start last links hc hl hf hla
    obtain rfl : start = last := by simpa using hla
    cases fuel with
    | zero => simp at hf
    | succ fuel =>
      refine ⟨fun h => ?_, fun g h1 h2 h3 => ?_⟩
      · unfold State.walk
        rw [List.getLastD_concat]
        cases hn : s.nextOf start with
        | none => rfl
        | some g => simp only [if_pos (h g hn)]; rfl
      · unfold State.walk
        rw [List.getLastD_concat, h2]
        simp only [if_neg (Nat.not_lt.mpr h3)]
        have : links = 64 := by simpa using h1
        rw [if_pos this, this]
  | cons x xs ih =>
    intro fuel pre start last links hc hl hf hla
    rw [List.isChain_cons_cons] at hc
    obtain ⟨⟨hn, hq⟩, hc⟩ := hc
    cases fuel with
    | zero => simp at hf
    | succ fuel =>
      have st : s.walk first (fuel + 1) (pre ++ [start]) links = s.walk first fuel ((pre ++ [start]) ++ [x]) (links + 1) := by
        conv => lhs; unfold State.walk
        rw [List.getLastD_concat, hn]
        simp only [if_neg (Nat.not_lt.mpr hq), if_neg (show ¬ links = 64 by simp at hl; omega)]
      have := ih fuel (pre ++ [start]) x last (links + 1) hc (by simp at hl; omega) (by simpa using hf) (by simpa using hla)
      rw [st]
      refine ⟨fun h => ?_, fun g h1 h2 h3 => ?_⟩
      · rw [this.1 h]; simp; omega
      · rw [this.2 g (by simp at h1; omega) h2 h3]; simp

/-- What the lowest member is. -/
theorem lowestMember_spec : ∀ l : List (Nat × Nat), (lowestMember l = none → l = []) ∧ ∀ m, lowestMember l = some m → m ∈ l ∧ ∀ k ∈ l, m.1 ≤ k.1 := by
  intro l
  induction l with
  | nil => exact ⟨fun _ => rfl, fun m h => by cases h⟩
  | cons a l ih =>
    unfold lowestMember
    cases h : lowestMember l with
    | none =>
      have := ih.1 h; subst this
      exact ⟨(fun h => by cases h), fun m hm => by cases hm; simp⟩
    | some k =>
      obtain ⟨h1, h2⟩ := ih.2 k h
      dsimp only
      refine ⟨(fun hc => by split at hc <;> cases hc), fun m hm => ?_⟩
      split at hm
      · cases hm; refine ⟨by simp, fun k' hk' => ?_⟩
        rcases List.mem_cons.mp hk' with rfl | hk'
        · exact Nat.le_refl _
        · have := h2 k' hk'; omega
      · cases hm; refine ⟨by simp [h1], fun k' hk' => ?_⟩
        rcases List.mem_cons.mp hk' with rfl | hk'
        · omega
        · exact h2 k' hk'

/-- What the highest member is. -/
theorem highestMember_spec : ∀ l : List (Nat × Nat), (highestMember l = none → l = []) ∧ ∀ m, highestMember l = some m → m ∈ l ∧ ∀ k ∈ l,
    k.1 ≤ m.1 := by
  intro l
  induction l with
  | nil => exact ⟨fun _ => rfl, fun m h => by cases h⟩
  | cons a l ih =>
    unfold highestMember
    cases h : highestMember l with
    | none =>
      have := ih.1 h; subst this
      exact ⟨(fun h => by cases h), fun m hm => by cases hm; simp⟩
    | some k =>
      obtain ⟨h1, h2⟩ := ih.2 k h
      dsimp only
      refine ⟨(fun hc => by split at hc <;> cases hc), fun m hm => ?_⟩
      split at hm
      · cases hm; refine ⟨by simp, fun k' hk' => ?_⟩
        rcases List.mem_cons.mp hk' with rfl | hk'
        · exact Nat.le_refl _
        · have := h2 k' hk'; omega
      · cases hm; refine ⟨by simp [h1], fun k' hk' => ?_⟩
        rcases List.mem_cons.mp hk' with rfl | hk'
        · omega
        · exact h2 k' hk'

/-- A member that is lowest and alone in its sequence is the lowest member. -/
theorem lowestMember_eq (l : List (Nat × Nat)) (m : Nat × Nat) (h : m ∈ l) (hm : ∀ k ∈ l, m.1 ≤ k.1) (hu : ∀ k ∈ l, k.1 = m.1 → k = m) :
    lowestMember l = some m := by
  cases hl : lowestMember l with
  | none => rw [(lowestMember_spec l).1 hl] at h; cases h
  | some k =>
    obtain ⟨h1, h2⟩ := (lowestMember_spec l).2 k hl
    have := hm k h1; have := h2 m h
    rw [hu k h1 (by omega)]

/-- A member that is highest and alone in its sequence is the highest member. -/
theorem highestMember_eq (l : List (Nat × Nat)) (m : Nat × Nat) (h : m ∈ l) (hm : ∀ k ∈ l, k.1 ≤ m.1) (hu : ∀ k ∈ l, k.1 = m.1 → k = m) :
    highestMember l = some m := by
  cases hl : highestMember l with
  | none => rw [(highestMember_spec l).1 hl] at h; cases h
  | some k =>
    obtain ⟨h1, h2⟩ := (highestMember_spec l).2 k hl
    have := hm k h1; have := h2 m h
    rw [hu k h1 (by omega)]

/-- When a segment stands at a place. -/
theorem hasPlace_iff (x : Segment) (a b q : Nat) : x.hasPlace a b q = true ↔ ∃ d, x.chain = some d ∧ d.survey = a ∧ d.index = b ∧ d.seq = q := by
  unfold Segment.hasPlace
  cases x.chain <;> simp [and_assoc]

/-- What a segment becomes when duplicates are resolved (R176). -/
theorem dropDuplicates_at : ∀ (l seen : List Segment) (g : Nat) (x : Segment), l[g]? = some x →
    (x.chain = none → (dropDuplicates seen l)[g]? = some x) ∧
    (∀ c, x.chain = some c →
      ((∃ y ∈ seen, y.hasPlace c.survey c.index c.seq = true) ∨ (∃ h y, h < g ∧ l[h]? = some y ∧ y.hasPlace c.survey c.index c.seq = true) →
        (dropDuplicates seen l)[g]? = some { x with state := .free, chain := none }) ∧
      (¬ ((∃ y ∈ seen, y.hasPlace c.survey c.index c.seq = true) ∨ (∃ h y, h < g ∧ l[h]? = some y ∧ y.hasPlace c.survey c.index c.seq = true)) →
        (dropDuplicates seen l)[g]? = some x)) := by
  intro l
  induction l with
  | nil => intro seen g x h; simp at h
  | cons a l ih =>
    intro seen g x hx
    unfold dropDuplicates
    dsimp only
    cases g with
    | zero =>
      obtain rfl : a = x := by simpa using hx
      refine ⟨fun hc => by simp [hc], fun c hc => ?_⟩
      refine ⟨fun h => ?_, fun h => ?_⟩
      · rcases h with ⟨y, hy, hp⟩ | ⟨h, y, hl, -⟩
        · have : (seen.any fun y => y.hasPlace c.survey c.index c.seq) = true := List.any_eq_true.mpr ⟨y, hy, hp⟩
          simp [hc, this]
        · omega
      · have : (seen.any fun y => y.hasPlace c.survey c.index c.seq) = false := by
          rw [List.any_eq_false]; intro y hy hp; exact h (.inl ⟨y, hy, hp⟩)
        simp [hc, this]
    | succ g =>
      have hx' : l[g]? = some x := by simpa using hx
      rw [List.getElem?_cons_succ]
      generalize hb : (if (match a.chain with
          | some c => seen.any (fun y => y.hasPlace c.survey c.index c.seq)
          | none => false) = true then ({ a with state := .free, chain := none } : Segment) else a) = b
      have hb2 : b = a ∨ (b.chain = none ∧ ∃ d, a.chain = some d ∧ ∃ y ∈ seen, y.hasPlace d.survey d.index d.seq = true) := by
        rw [← hb]
        cases hc : a.chain with
        | none => left; simp
        | some d =>
          dsimp only
          by_cases hy : (seen.any fun y => y.hasPlace d.survey d.index d.seq) = true
          · right; rw [if_pos hy]; exact ⟨rfl, d, rfl, by simpa using hy⟩
          · left; rw [if_neg hy]
      have eqv : ∀ c : ChainInfo, ((∃ y ∈ b :: seen, y.hasPlace c.survey c.index c.seq = true) ∨ (∃ h y, h < g ∧ l[h]? = some y ∧
          y.hasPlace c.survey c.index c.seq = true)) ↔
          ((∃ y ∈ seen, y.hasPlace c.survey c.index c.seq = true) ∨ (∃ h y, h < g + 1 ∧ (a :: l)[h]? = some y ∧
              y.hasPlace c.survey c.index c.seq = true)) := by
        intro c
        constructor
        · rintro (⟨y, hy, hp⟩ | ⟨h, y, hl, hy, hp⟩)
          · rcases List.mem_cons.mp hy with rfl | hy
            · refine .inr ⟨0, a, by omega, by simp, ?_⟩
              rcases hb2 with e | ⟨e, -⟩
              · rw [← e]; exact hp
              · obtain ⟨d, hd, -⟩ := (hasPlace_iff _ _ _ _).mp hp
                rw [e] at hd; cases hd
            · exact .inl ⟨y, hy, hp⟩
          · exact .inr ⟨h + 1, y, by omega, by simpa using hy, hp⟩
        · rintro (⟨y, hy, hp⟩ | ⟨h, y, hl, hy, hp⟩)
          · exact .inl ⟨y, by simp [hy], hp⟩
          · cases h with
            | zero =>
              obtain rfl : a = y := by simpa using hy
              rcases hb2 with e | ⟨-, d, hd, z, hz, hz2⟩
              · exact .inl ⟨b, by simp, by rw [e]; exact hp⟩
              · obtain ⟨d', hd1, hd2, hd3, hd4⟩ := (hasPlace_iff _ _ _ _).mp hp
                rw [hd] at hd1; cases hd1
                rw [hd2, hd3, hd4] at hz2
                exact .inl ⟨z, by simp [hz], hz2⟩
            | succ h => exact .inr ⟨h, y, by omega, by simpa using hy, hp⟩
      obtain ⟨i1, i2⟩ := ih (b :: seen) g x hx'
      refine ⟨i1, fun c hc => ?_⟩
      have := i2 c hc
      rw [eqv c] at this
      exact this

/-- Resolving duplicates keeps the number of segments. -/
theorem dropDuplicates_length : ∀ (l seen : List Segment), (dropDuplicates seen l).length = l.length := by
  intro l
  induction l with
  | nil => intro seen; rfl
  | cons a l ih => intro seen; unfold dropDuplicates; simp [ih]

/-- The members of a chain. -/
theorem mem_membersOf (segs : List Segment) (a b : Nat) (m : Nat × Nat) :
    m ∈ membersOf segs a b ↔ ∃ c, segs[m.2]?.bind Segment.chain = some c ∧ c.survey = a ∧ c.index = b ∧ c.seq = m.1 := by
  unfold membersOf
  rw [List.mem_filterMap]
  constructor
  · rintro ⟨g, hg, h⟩
    cases hc : segs[g]?.bind Segment.chain with
    | none => rw [hc] at h; cases h
    | some c =>
      rw [hc] at h
      simp only at h
      split at h
      · next hh => cases h; exact ⟨c, hc, hh.1, hh.2, rfl⟩
      · cases h
  · rintro ⟨c, hc, h1, h2, h3⟩
    refine ⟨m.2, ?_, ?_⟩
    · rw [List.mem_range]
      by_contra hn
      rw [List.getElem?_eq_none (by omega)] at hc; cases hc
    · rw [hc]; simp [h1, h2, h3]

/-- The chain fields of a linked segment (R176). -/
theorem linkSeg_chain (segs : List Segment) (x : Segment) : (linkSeg segs x).chain = x.chain.map (fun c => { c with
      next := (lowestMember ((membersOf segs c.survey c.index).filter (fun m => decide (c.seq < m.1)))).map Prod.snd }) := by
  unfold linkSeg; cases h : x.chain <;> simp [h]

/-- Linking keeps the members of every chain. -/
theorem membersOf_linked (segs : List Segment) (a b : Nat) : membersOf (segs.map (linkSeg segs)) a b = membersOf segs a b := by
  unfold membersOf
  rw [List.length_map]
  apply List.filterMap_congr
  intro g _
  rw [List.getElem?_map]
  cases h : segs[g]? with
  | none => rfl
  | some x =>
    simp only [Option.map_some, Option.bind_some, linkSeg_chain]
    cases hc : x.chain <;> simp

end Sys2Proof.Machine
end

