-- ==== Sys2Proof/Laws/Flash.lean ====
section
/-! SUPPORT. The flash array: reading what was written, and the canonical form that every operation keeps. -/

namespace Sys2Proof.Machine

/-- The canonical form, as a proposition: keys strictly rising, and no page that reads as all ones. -/
theorem Flash.wf_iff (flash : List (Nat × FlashCell)) :
    Flash.wf flash = true ↔
      flash.Pairwise (fun a b => a.1 < b.1) ∧ ∀ e ∈ flash, e.2 ≠ .page PageImage.erased := by
  have rising_iff : ∀ l : List (Nat × FlashCell), Flash.rising l = true ↔ l.Pairwise (fun a b => a.1 < b.1) := by
    intro l
    induction l with
    | nil => simp [Flash.rising]
    | cons a l ih =>
      cases l with
      | nil => simp [Flash.rising]
      | cons b l =>
        simp only [Flash.rising, Bool.and_eq_true, decide_eq_true_eq, ih, List.pairwise_cons, List.mem_cons, forall_eq_or_imp]
        constructor
        · rintro ⟨h, hb, hl⟩
          exact ⟨⟨h, fun e he => h.trans (hb e he)⟩, hb, hl⟩
        · rintro ⟨⟨h, _⟩, hb, hl⟩
          exact ⟨h, hb, hl⟩
  simp [Flash.wf, rising_iff, List.all_eq_true]

/-- The empty array stands in canonical form. -/
theorem Flash.wf_nil : Flash.wf [] = true := rfl

/-- A page listed after a put stood there before, or is the page put. -/
theorem Flash.mem_put {k : Nat} {c : FlashCell} {flash : List (Nat × FlashCell)} {e : Nat × FlashCell}
    (h : e ∈ Flash.put k c flash) : e = (k, c) ∨ e ∈ flash := by
  induction flash with
  | nil => simpa [Flash.put] using h
  | cons a l ih =>
    unfold Flash.put at h
    split at h
    · simpa using h
    · split at h
      · rcases List.mem_cons.mp h with h | h
        · exact .inl h
        · exact .inr (List.mem_cons_of_mem _ h)
      · rcases List.mem_cons.mp h with h | h
        · exact .inr (by simp [h])
        · exact (ih h).imp id (List.mem_cons_of_mem _)

/-- A put keeps the keys strictly rising. -/
theorem Flash.pairwise_put (k : Nat) (c : FlashCell) {flash : List (Nat × FlashCell)}
    (h : flash.Pairwise (fun a b => a.1 < b.1)) : (Flash.put k c flash).Pairwise (fun a b => a.1 < b.1) := by
  induction flash with
  | nil => simp [Flash.put]
  | cons a l ih =>
    obtain ⟨ha, hl⟩ := List.pairwise_cons.mp h
    unfold Flash.put
    split
    · rename_i hk
      refine List.pairwise_cons.mpr ⟨fun e he => ?_, h⟩
      rcases List.mem_cons.mp he with rfl | he
      · exact hk
      · exact hk.trans (ha e he)
    · split
      · rename_i hk
        exact List.pairwise_cons.mpr ⟨fun e he => by have := ha e he; simpa [hk] using this, hl⟩
      · refine List.pairwise_cons.mpr ⟨fun e he => ?_, ih hl⟩
        rcases Flash.mem_put he with rfl | he
        · show a.1 < k
          omega
        · exact ha e he

/-- Taking pages out keeps the canonical form. -/
theorem Flash.wf_filter {flash : List (Nat × FlashCell)} (f : Nat × FlashCell → Bool) (h : Flash.wf flash = true) :
    Flash.wf (flash.filter f) = true := by
  rw [Flash.wf_iff] at h ⊢
  exact ⟨h.1.filter f, fun e he => h.2 e (List.mem_of_mem_filter he)⟩

/-- A write keeps the canonical form. -/
theorem Flash.wf_write {flash : List (Nat × FlashCell)} (k : Nat) (c : FlashCell) (h : Flash.wf flash = true) :
    Flash.wf (Flash.write flash k c) = true := by
  unfold Flash.write
  split
  · exact Flash.wf_filter _ h
  · rename_i hc
    rw [Flash.wf_iff] at h ⊢
    refine ⟨Flash.pairwise_put k c h.1, fun e he => ?_⟩
    rcases Flash.mem_put he with rfl | he
    · exact hc
    · exact h.2 e he

/-- A segment erase keeps the canonical form. -/
theorem Flash.wf_eraseSegment {flash : List (Nat × FlashCell)} (g : Nat) (h : Flash.wf flash = true) :
    Flash.wf (Flash.eraseSegment flash g) = true := Flash.wf_filter _ h

/-- A disturbance of several pages keeps the canonical form. -/
theorem Flash.wf_disturbPages {flash : List (Nat × FlashCell)} (g first n : Nat) (h : Flash.wf flash = true) :
    Flash.wf (Flash.disturbPages flash g first n) = true := by
  induction n with
  | zero => exact h
  | succ n ih => exact Flash.wf_write _ _ ih

/-- A disturbance of a segment keeps the canonical form. -/
theorem Flash.wf_disturbSegment {flash : List (Nat × FlashCell)} (g first : Nat) (h : Flash.wf flash = true) :
    Flash.wf (Flash.disturbSegment flash g first) = true := Flash.wf_disturbPages g first 256 h

/-- What stands at a key after a put. -/
theorem Flash.find_put (k j : Nat) (c : FlashCell) {flash : List (Nat × FlashCell)}
    (h : flash.Pairwise (fun a b => a.1 < b.1)) :
    (Flash.put k c flash).find? (fun e => e.1 == j) = if j = k then some (k, c) else flash.find? (fun e => e.1 == j) := by
  induction flash with
  | nil =>
    by_cases hj : j = k
    · simp [Flash.put, hj]
    · simp [Flash.put, hj, Ne.symm hj]
  | cons a l ih =>
    obtain ⟨ha, hl⟩ := List.pairwise_cons.mp h
    unfold Flash.put
    by_cases hj : j = k
    · subst hj
      simp only [if_true]
      split
      · simp
      · split
        · simp
        · rename_i h1 h2
          have : (a.1 == j) = false := by simpa using Ne.symm h2
          simp [this, ih hl]
    · have hk : (k == j) = false := by simpa using Ne.symm hj
      split
      · simp [List.find?_cons, hk]
      · split
        · rename_i h1 h2
          have : (a.1 == j) = false := by simpa [← h2] using Ne.symm hj
          simp [hk, this]
        · simp [List.find?_cons, ih hl, hj]

/-- A read after a write to the same page gives what was written. -/
theorem Flash.read_write_same {flash : List (Nat × FlashCell)} (k : Nat) (c : FlashCell) (h : Flash.wf flash = true) :
    Flash.read (Flash.write flash k c) k = c.image := by
  unfold Flash.read Flash.write
  by_cases hc : c = .page PageImage.erased
  · subst hc
    have : (flash.filter (fun e => e.1 != k)).find? (fun e => e.1 == k) = none := by
      simp [List.find?_eq_none]
    rw [if_pos rfl, this]
    rfl
  · rw [if_neg hc, Flash.find_put k k c ((Flash.wf_iff _).mp h).1]
    simp

/-- A write leaves every other page alone. -/
theorem Flash.read_write_other {flash : List (Nat × FlashCell)} (k j : Nat) (c : FlashCell) (h : Flash.wf flash = true)
    (hj : j ≠ k) : Flash.read (Flash.write flash k c) j = Flash.read flash j := by
  unfold Flash.read Flash.write
  by_cases hc : c = .page PageImage.erased
  · rw [if_pos hc, List.find?_filter]
    have : (fun e : Nat × FlashCell => decide ((e.1 != k) = true ∧ (e.1 == j) = true)) = fun e => e.1 == j := by
      funext e
      by_cases he : e.1 = j
      · simp [he, hj]
      · simp [he]
    rw [this]
  · rw [if_neg hc, Flash.find_put k j c ((Flash.wf_iff _).mp h).1]
    simp [hj]

/-- Taking out other pages leaves a page alone. -/
theorem Flash.read_filter {f : Nat × FlashCell → Bool} {l : List (Nat × FlashCell)} {k : Nat}
    (h : ∀ e : Nat × FlashCell, e.1 = k → f e = true) :
    Flash.read (l.filter f) k = Flash.read l k := by
  unfold Flash.read
  have : (l.filter f).find? (fun e => e.1 == k) = l.find? (fun e => e.1 == k) := by
    rw [List.find?_filter]
    congr 1
    funext e
    by_cases he : e.1 = k
    · simp [he, h e he]
    · simp [he]
  rw [this]

/-- A segment erase makes every page of the segment read as all ones and leaves every other page alone. -/
theorem Flash.read_eraseSegment (l : List (Nat × FlashCell)) (g k : Nat) :
    Flash.read (Flash.eraseSegment l g) k = if k / 256 = g then PageImage.erased else Flash.read l k := by
  split
  · rename_i h
    unfold Flash.read Flash.eraseSegment
    have : (l.filter (fun e => e.1 / 256 != g)).find? (fun e => e.1 == k) = none := by
      rw [List.find?_eq_none]
      intro e he hk
      simp at hk he
      rw [hk] at he
      exact he.2 h
    rw [this]
  · rename_i h
    apply Flash.read_filter
    intro e he; rw [he]; simpa using h

/-- Disturbing pages of a segment leaves every page of every other segment alone. -/
theorem Flash.read_disturbPages {l : List (Nat × FlashCell)} (hl : Flash.wf l = true) (g first n k : Nat)
    (hk : k / 256 ≠ g) (hn : n ≤ 256) :
    Flash.read (Flash.disturbPages l g first n) k = Flash.read l k := by
  induction n with
  | zero => rfl
  | succ n ih =>
    unfold Flash.disturbPages
    rw [Flash.read_write_other _ _ _ (Flash.wf_disturbPages _ _ _ hl), ih (by omega)]
    unfold Flash.key; omega

end Sys2Proof.Machine
end

