-- ==== Sys2Proof/Laws/Effects.lean ====
section
/-! SUPPORT. What each shared operation does to the parts of the state that it does change: one lemma an operation, which says
all of it or the part that a proof about a command needs. -/

namespace Sys2Proof.Machine

/-! ### Reading a part after a change of it -/

/-- A slot after a slot is changed. -/
theorem slotAt_modSlot (s : State) (i j : Nat) (f : Slot → Slot) :
    (s.modSlot i f).slotAt j = if i = j ∧ j < s.slots.length then f (s.slotAt j) else s.slotAt j := by
  simp only [State.modSlot, State.slotAt, List.getD, List.getElem?_modify]
  by_cases h : i = j
  · subst h
    by_cases hl : i < s.slots.length
    · simp [hl]
    · simp [hl]
  · simp [h]

/-- A segment after a segment is changed. -/
theorem segAt_modSeg (s : State) (g h : Nat) (f : Segment → Segment) :
    (s.modSeg g f).segAt h = if g = h then (s.segAt h).map f else s.segAt h := by
  unfold State.segAt State.modSeg
  rw [List.getElem?_modify]
  cases s.media.segs[h]? <;> split <;> simp

/-- A Survey Table entry after that entry is changed, where the change keeps its number. -/
theorem surveyAt_modSurvey (s : State) (n : Nat) (f : Survey → Survey) (hf : ∀ v, (f v).number = v.number) :
    (s.modSurvey n f).surveyAt n = (s.surveyAt n).map f := by
  unfold State.surveyAt State.modSurvey
  dsimp only
  induction s.table.surveys with
  | nil => rfl
  | cons a l ih =>
    rw [List.map_cons, List.find?_cons, List.find?_cons]
    by_cases ha : a.number = n
    · simp [ha, hf]
    · have hb : (a.number == n) = false := by simpa using ha
      simp [ha, hb, ih]

/-- No entry has the number of a survey just removed. -/
theorem surveyAt_removeSurvey (s : State) (n : Nat) : (s.removeSurvey n).surveyAt n = none := by
  unfold State.surveyAt State.removeSurvey
  rw [List.find?_eq_none]
  intro v hv
  simp at hv ⊢
  exact hv.2

/-- The entry found for a buffer is that buffer's. -/
theorem buffer_of_entryAt {s : State} {b : Nat} {e : Entry} (h : s.entryAt b = some e) : e.buffer = b := by
  unfold State.entryAt at h; simpa using List.find?_some h

/-! ### Notices, replies and the idle timer -/

/-- Raising a notice changes the Transmit List alone (R184). -/
theorem raise_eq (s : State) (n : Notice) : ∃ tx, s.raise n = { s with port := { s.port with tx := tx } } := by
  unfold State.raise; split
  · exact ⟨_, rfl⟩
  · exact ⟨s.port.tx, rfl⟩

/-- A command that holds the Operation Slot ends: the slot empties and, unless the reply is suppressed, its reply joins the
Transmit List in the kept place (R183, R186). -/
theorem completeOp_of_slot (s : State) (o : OpSlot) (status : Status) (payload : Payload) (h : s.slot = some o) :
    s.completeOp status payload = { s with
      slot := none
      port := if o.suppressed then s.port else { s.port with tx := s.port.tx ++ [.reply
        { port := o.port, tag := o.tag, level := o.level, status := status, kept := true, payload := payload }] } } := by
  unfold State.completeOp
  rw [h]
  dsimp only
  split <;> rfl

/-- With the Operation Slot empty, ending a command does nothing. -/
theorem completeOp_of_empty (s : State) (status : Status) (payload : Payload) (h : s.slot = none) :
    s.completeOp status payload = s := by
  unfold State.completeOp
  rw [h]

/-- Holding the idle timer changes the timer alone (R168). -/
theorem holdIdle_eq (s : State) : ∃ n, s.holdIdle = { s with power := { s.power with idleTimer := n } } := by
  unfold State.holdIdle; split
  · exact ⟨_, rfl⟩
  · exact ⟨_, rfl⟩

/-! ### The flash and the port -/

/-- A disturbance of a segment changes its pages and the counter of disturbances (log entry 3). -/
theorem disturbSegment_eq (s : State) (g : Nat) :
    ∃ fl, s.disturbSegment g = { s with media := { s.media with flash := fl }, freeCount := s.freeCount + 256 } := by
  unfold State.disturbSegment; generalize Flash.disturbSegment _ _ _ = x; exact ⟨x, rfl⟩

/-- A disturbance of a page changes that page and the counter of disturbances (log entry 3). -/
theorem disturbPage_eq (s : State) (g p : Nat) :
    ∃ fl, s.disturbPage g p = { s with media := { s.media with flash := fl }, freeCount := s.freeCount + 1 } := by
  unfold State.disturbPage; generalize Flash.write _ _ _ = x; exact ⟨x, rfl⟩

/-- The end of a program changes the array, the operation in flight and its image (R70, R74). -/
theorem endProgram_eq (s : State) (g p : Nat) (ok : Bool) :
    ∃ fl n, s.endProgram g p ok = { s with media := { s.media with flash := fl, op := none, image := none }, freeCount := n } := by
  unfold State.endProgram
  cases ok with
  | true =>
    simp only [if_true]
    split
    · generalize Flash.write _ _ _ = x
      exact ⟨x, s.freeCount, rfl⟩
    · exact ⟨s.media.flash, s.freeCount, rfl⟩
  | false =>
    obtain ⟨fl, e⟩ := disturbPage_eq s g p
    simp only [Bool.false_eq_true, if_false]
    rw [e]
    exact ⟨fl, s.freeCount + 1, rfl⟩

/-- The end of an erase changes the array and the operation in flight (R57, R74). -/
theorem endErase_eq (s : State) (g : Nat) (ok : Bool) :
    ∃ w : State, s.endErase g ok = w ∧ ∃ fl n, w = { s with media := { s.media with flash := fl, op := none }, freeCount := n } := by
  unfold State.endErase
  cases ok with
  | true =>
    simp only [if_true]
    generalize Flash.eraseSegment _ _ = x
    exact ⟨_, rfl, x, s.freeCount, rfl⟩
  | false =>
    obtain ⟨fl, e⟩ := disturbSegment_eq s g
    simp only [Bool.false_eq_true, if_false]
    rw [e]
    exact ⟨_, rfl, fl, s.freeCount + 256, rfl⟩

/-- Losing the operation in flight at a reset changes the array alone (R174). -/
theorem loseOp_eq (s : State) : ∃ fl n, s.loseOp = { s with media := { s.media with flash := fl }, freeCount := n } := by
  have h1 := fun g => show ∃ fl n, (s.disturbSegment g) = { s with media := { s.media with flash := fl }, freeCount := n } from by
    obtain ⟨fl, e⟩ := disturbSegment_eq s g; exact ⟨fl, _, e⟩
  have h2 := fun g p => show ∃ fl n, (s.disturbPage g p) = { s with media := { s.media with flash := fl }, freeCount := n } from by
    obtain ⟨fl, e⟩ := disturbPage_eq s g p; exact ⟨fl, _, e⟩
  unfold State.loseOp
  split
  · exact ⟨s.media.flash, s.freeCount, rfl⟩
  · exact h2 _ _
  · exact h2 _ _
  · exact h1 _
  · exact h1 _
  · exact h1 _
  · exact h1 _
  · exact h2 _ _
  · exact h2 _ _
  all_goals exact ⟨s.media.flash, s.freeCount, rfl⟩

/-- Counting a page void: its segment's count rises by one up to 255, the segment becomes BAD at 2, and no other segment changes
(R75, R76). -/
theorem countVoid_eq (s : State) (g : Nat) :
    ∃ tx, s.countVoid g = { s with
        port := { s.port with tx := tx }
        media := { s.media with segs := (s.countVoid g).media.segs } } ∧
      (∀ h, h ≠ g → (s.countVoid g).media.segs[h]? = s.media.segs[h]?) ∧
      ∀ x c, s.media.segs[g]? = some x → x.chain = some c → (s.countVoid g).media.segs[g]? = some { x with
        chain := some { c with voids := min 255 (c.voids + 1) }
        state := if 1 ≤ c.voids then .bad else x.state } := by
  unfold State.countVoid
  dsimp only
  have hm : (s.modChain g (fun c => { c with voids := satAdd 255 c.voids 1 })).media.segs =
      s.media.segs.modify g (fun x => { x with chain := x.chain.map (fun c => { c with voids := satAdd 255 c.voids 1 }) }) := rfl
  have hother : ∀ h, h ≠ g →
      (s.modChain g (fun c => { c with voids := satAdd 255 c.voids 1 })).media.segs[h]? = s.media.segs[h]? := by
    intro h hh; rw [hm, List.getElem?_modify]; cases s.media.segs[h]? <;> simp [Ne.symm hh]
  have hself : ∀ x c, s.media.segs[g]? = some x → x.chain = some c →
      (s.modChain g (fun c => { c with voids := satAdd 255 c.voids 1 })).media.segs[g]? =
        some { x with chain := some { c with voids := min 255 (c.voids + 1) } } := by
    intro x c hx hc; rw [hm, List.getElem?_modify, hx]; simp [hc, satAdd]
  generalize hu : s.modChain g (fun c => { c with voids := satAdd 255 c.voids 1 }) = u at *
  have hsu : u = { s with media := { s.media with segs := u.media.segs } } := by rw [← hu]; rfl
  have bad : ∃ tx, (u.setSegState g .bad).raise (.media (.bad g)) = { s with
      port := { s.port with tx := tx }
      media := { s.media with segs := u.media.segs.modify g (fun x => { x with state := .bad }) } } := by
    obtain ⟨tx, e⟩ := raise_eq (u.setSegState g .bad) (.media (.bad g))
    refine ⟨tx, ?_⟩
    rw [e]
    unfold State.setSegState State.modSeg
    rw [hsu]
  cases hch : u.chainAt g with
  | none =>
    dsimp only
    refine ⟨s.port.tx, by rw [hsu], hother, fun x c hx hc => ?_⟩
    have := hself x c hx hc
    simp [State.chainAt, State.segAt, this] at hch
  | some c0 =>
    dsimp only
    have hv : ∀ x c, s.media.segs[g]? = some x → x.chain = some c → c0.voids = min 255 (c.voids + 1) := by
      intro x c hx hc
      have := hself x c hx hc
      simp [State.chainAt, State.segAt, this] at hch
      rw [← hch]
    split
    · obtain ⟨tx, e⟩ := bad
      rw [e]
      refine ⟨tx, rfl, fun h hh => ?_, fun x c hx hc => ?_⟩
      · dsimp only; rw [List.getElem?_modify, ← hother h hh]; cases u.media.segs[h]? <;> simp [Ne.symm hh]
      · dsimp only; rw [List.getElem?_modify, hself x c hx hc]
        have := hv x c hx hc
        simp; intro h0; exact absurd h0 (by omega)
    · refine ⟨s.port.tx, by rw [hsu], hother, fun x c hx hc => ?_⟩
      have := hv x c hx hc
      rw [hself x c hx hc, if_neg (by omega)]

/-! ### Takes and the log -/

/-- A take put in place stands among the takes (R64). -/
theorem putTake_parts (s : State) (t : Take) :
    ∃ tk sw, s.putTake t = { s with media := { s.media with takes := tk, segWaiters := sw } } ∧ t ∈ tk := by
  unfold State.putTake
  dsimp only
  refine ⟨_, _, rfl, ?_⟩
  split
  · rename_i h
    rw [List.any_eq_true] at h
    obtain ⟨u, hu, hs⟩ := h
    rw [List.mem_map]
    exact ⟨u, hu, by rw [if_pos hs]⟩
  · simp

/-- The head of the log's pending list leaves it, and the buffer it held is FREE (R96, R97). -/
theorem dropHead_eq {s : State} {e : IndexEntry} {rest : List IndexEntry} (h : s.log.waiting = e :: rest) :
    ∃ bs iw, s.dropHead = { s with
      log := { s.log with waiting := rest, stage := .idle }
      pool := { s.pool with buffers := bs, indexWaiters := iw } } ∧
    (∀ b, e.buffer = some b → bs.map Buffer.state = (s.pool.buffers.map Buffer.state).set b .free) := by
  unfold State.dropHead
  rw [h]
  dsimp only
  unfold State.releaseOf
  cases hb : e.buffer with
  | none => exact ⟨_, _, rfl, by intro b hb; cases hb⟩
  | some b =>
    refine ⟨_, _, rfl, ?_⟩
    intro b' hb'; cases hb'
    show (s.pool.buffers.modify b _).map Buffer.state = _
    apply List.ext_getElem?
    intro n
    rw [List.getElem?_map, List.getElem?_modify, List.getElem?_set]
    cases hn : s.pool.buffers[n]? with
    | none => 
      have := List.getElem?_eq_none_iff.mp hn
      simp [hn]; intro h1; omega
    | some x =>
      have := (List.getElem?_eq_some_iff.mp hn).1
      by_cases hbn : b = n
      · subst hbn; simp [this]
      · simp [hbn, hn]

/-! ### Settling and taking a command -/

/-- With no due step waiting, settling changes nothing. -/
theorem settle_of_settled {s : State} (h : s.Settled) : s.settle = s := by
  unfold State.settle State.settleFor
  rw [show s.due = none from h]

/-- The next due step's row makes it (log entry 1). -/
theorem makeIfDue_of_due {s : State} {d : Due} (h : s.due = some d) : s.makeIfDue d = (s.make d).holdIdle := by
  have hd : s.isDue d = true := List.find?_some h
  unfold State.makeIfDue State.makeFor
  simp [hd, h]

/-- The row of a step that is not due changes nothing (log entry 2). -/
theorem makeIfDue_of_not {s : State} {d : Due} (h : s.isDue d = false) : s.makeIfDue d = s := by
  unfold State.makeIfDue State.makeFor
  simp [h]

/-- A control frame that may be taken is taken from the head of the receive buffer, in any event (R181, R183). -/
theorem takeHead_of_offered {s : State} {o : Opcode} {f : Frame} (hf : s.headControl = some f) (ho : opcodeOf f.code = some o)
    (hp : s.placesFree o.timeTaking = true) (body : State → Frame → Nat → State) :
    s.takeHead o body = ((s.takeFrame o f body).freeHead).holdIdle := by
  unfold State.takeHead
  simp [hf, ho, hp]

/-- A command that is offered is taken from the head of the receive buffer (R181, R185). -/
theorem command_of_offers {s : State} {o : Opcode} {f : Frame} (h : s.Offers o f) (body : State → Frame → Nat → State) :
    s.command o body = ((s.takeFrame o f body).freeHead).holdIdle := by
  unfold State.command
  rw [settle_of_settled h.settled]
  exact takeHead_of_offered h.head h.opcode h.places body

/-- A command that passes the tests of R185 runs its own rule at its effective level. -/
theorem command_of_takes {s : State} {o : Opcode} {f : Frame} (h : s.Takes o f) (body : State → Frame → Nat → State) :
    s.command o body = ((body s f (s.effective f)).freeHead).holdIdle := by
  rw [command_of_offers h.toOffers]
  unfold State.takeFrame
  rw [h.passes]

/-! ### Pauses imposed on streams (R11), and the match of a verification read (R76) -/

theorem slotsWhere_spec (s : State) (f : Slot → Bool) :
    (s.slotsWhere f).Pairwise (· < ·) ∧ ∀ i, i ∈ s.slotsWhere f ↔ i < s.slots.length ∧ f (s.slotAt i) = true :=
  ⟨List.Pairwise.filter _ List.pairwise_lt_range, fun i => by simp [State.slotsWhere]⟩

theorem imposePauses_foldl (s : State) (r : PauseReason) (l : List Nat) :
    s.imposePauses r l = l.foldl (fun u i => u.imposePause r i) s := by
  induction l generalizing s with
  | nil => rfl
  | cons a l ih => exact ih _

theorem criticalPauses_foldl (s : State) (l : List Nat) : s.criticalPauses l = l.foldl (fun u i => u.criticalPause i) s := by
  induction l generalizing s with
  | nil => rfl
  | cons a l ih => exact ih _

/-- The open record of a slot with a page is closed: its bytes join the page's buffer, and nothing else changes (R38). -/
theorem closeOpen_eq (s : State) (i : Nat) (d : Descriptor) (h : i < s.slots.length) (hd : (s.slotAt i).desc = some d)
    (hp : (s.slotAt i).openRec.isSome = true → (s.slotAt i).page.isSome = true) :
    ∃ bufs, s.closeOpen i = { s with
        slots := s.slots.set i { s.slotAt i with openRec := none }, pool := { s.pool with buffers := bufs } } ∧
      ((s.slotAt i).openRec = none → bufs = s.pool.buffers) ∧
      ∀ r p, (s.slotAt i).openRec = some r → (s.slotAt i).page = some p →
        bufs = s.pool.buffers.modify p.buffer (fun b => { b with bytes := b.bytes ++ r.bytes d }) := by
  have hm : ∀ (l : List Slot) (f : Slot → Slot), i < l.length → l.modify i f = l.set i (f (l.getD i {})) := by
    intro l f hl
    apply List.ext_getElem?
    intro j
    rw [List.getElem?_modify, List.getElem?_set]
    by_cases hj : i = j
    · subst hj; simp [hl]
    · simp [hj]
  unfold State.closeOpen
  dsimp only
  cases hop : (s.slotAt i).openRec with
  | none =>
    refine ⟨s.pool.buffers, ?_, fun _ => rfl, fun _ _ h => nomatch h⟩
    have e1 : ({ s.slotAt i with openRec := none } : Slot) = s.slotAt i := by rw [← hop]
    have e2 : s.slots.set i (s.slotAt i) = s.slots := by simp [State.slotAt, h]
    rw [e1, e2]
  | some r =>
    cases hpg : (s.slotAt i).page with
    | none => rw [hpg] at hp; simp [hop] at hp
    | some p =>
      refine ⟨s.pool.buffers.modify p.buffer (fun b => { b with bytes := b.bytes ++ r.bytes d }), ?_, (fun h => nomatch h), ?_⟩
      · simp only [hd, State.modSlot, State.modBuffer]
        rw [hm _ _ h, ← hd, ← hpg]
        rfl
      · intro r' p' hr' hp'; cases hr'; cases hp'; rfl

/-- What raising a POWER marker leaves: a slot whose STOP marker is written takes none, and a pending one stays (R39). -/
theorem raisePower_eq (x : Slot) (t : Stamp) (r : PowerReason) : x.raisePower t r =
    { x with markers := if x.stopping = true ∧ x.markers.stop = none then x.markers else
      { x.markers with power := some (x.markers.power.getD { stamp := t, index := x.outputIndex, reason := r }) } } := by
  unfold Slot.raisePower Slot.takesMarkers
  by_cases hc : x.stopping = true ∧ x.markers.stop = none
  · rw [if_pos hc, if_neg (by simp [hc.1, hc.2])]
  · rw [if_neg hc, if_pos]
    cases h1 : x.stopping <;> cases h2 : x.markers.stop <;> simp_all

/-- A verification read matches exactly when the page is VALID with the entry's data and the trailer it was issued with (R76). -/
theorem verifies_iff (s : State) (e : Entry) (g : Nat) (r : PageResult) : s.verifies e g r = true ↔
    ∃ t data c, r = .valid t data ∧ s.chainAt g = some c ∧ data = s.bufferBytes e.buffer ∧ t.survey = e.survey ∧ t.index = e.index ∧
      t.firstSeq = e.firstSeq ∧ t.count = e.count ∧ t.used = e.used ∧ t.rewrite = e.rewrite ∧ c.seq = t.seq := by
  cases r with
  | valid t data =>
    simp only [State.verifies, Bool.and_eq_true, beq_iff_eq, Option.any_eq_true, PageResult.valid.injEq]
    constructor
    · rintro ⟨⟨⟨⟨⟨⟨⟨h1, h2⟩, h3⟩, h4⟩, h5⟩, h6⟩, h7⟩, c, h8, h9⟩
      exact ⟨t, data, c, ⟨rfl, rfl⟩, h8, h1, h2, h3, h4, h5, h6, h7, h9⟩
    · rintro ⟨t', data', c, ⟨rfl, rfl⟩, h8, h1, h2, h3, h4, h5, h6, h7, h9⟩
      exact ⟨⟨⟨⟨⟨⟨⟨h1, h2⟩, h3⟩, h4⟩, h5⟩, h6⟩, h7⟩, c, h8, h9⟩
  | erased => simp [State.verifies]
  | void => simp [State.verifies]
  | failed => simp [State.verifies]

end Sys2Proof.Machine
end

