-- ==== Sys2Proof/Laws/Format.lean ====
section
/-! SUPPORT. The formats read back: numbers through their bytes, and a page whose spare area holds its trailer and its CRC is VALID
(R59, R189, R190). -/

namespace Sys2Proof.Machine

theorem leBytes_length (k n : Nat) : (leBytes k n).length = k := by
  induction k generalizing n with
  | zero => rfl
  | succ k ih => simp [leBytes, ih]

/-- A number below 256^k is what its k bytes spell. -/
theorem leVal_leBytes (k n : Nat) (h : n < 256 ^ k) : leVal (leBytes k n) = n := by
  induction k generalizing n with
  | zero => simp only [Nat.pow_zero, Nat.lt_one_iff] at h; exact h.symm
  | succ k ih =>
    have h2 : n / 256 < 256 ^ k := Nat.div_lt_of_lt_mul (by rwa [Nat.pow_succ, Nat.mul_comm] at h)
    simp only [leBytes, leVal, ih _ h2, BitVec.toNat_ofNat]
    omega

/-- A field in the first part of a list does not see the rest. -/
theorem field_append (a b : List Byte) (off len : Nat) (h : off + len ≤ a.length) : field (a ++ b) off len = field a off len := by
  unfold field slice
  rw [List.drop_append_of_le_length (by omega), List.take_append_of_le_length (by rw [List.length_drop]; omega)]

/-- A field that fills the second part of a list. -/
theorem field_second (a b c : List Byte) : field (a ++ b ++ c) a.length b.length = leVal b := by
  unfold field slice
  rw [List.append_assoc, List.drop_left, List.take_left]

theorem Trailer.bytes_length (t : Trailer) : t.bytes.length = 28 := by
  simp [Trailer.bytes, leBytes_length, zeros]

theorem leInt_length (k : Nat) (z : Int) : (leInt k z).length = k := leBytes_length _ _

theorem Descriptor.bytes_length (d : Descriptor) : d.bytes.length = 32 := by
  simp [Descriptor.bytes, leBytes_length, leInt_length, zeros]

/-- Every descriptor writes zero in bytes 22 and 23 (section 12.3), a restored one too. -/
theorem Descriptor.bytes_zero (d : Descriptor) : slice d.bytes 22 2 = zeros 2 := by
  simp [Descriptor.bytes, leBytes, leInt, slice, zeros]

/-- Every descriptor begins with its stream's survey number and index (R65), a restored one too. -/
theorem Descriptor.bytes_stream (d : Descriptor) : slice d.bytes 0 3 = leBytes 2 d.survey ++ [byte d.index] := by
  simp [Descriptor.bytes, leBytes, slice]

/-- The spare area that goes with data bytes and a trailer. -/
def spareOf (data : List Byte) (t : Trailer) : List Byte := t.bytes ++ leBytes 4 (crc32 (data ++ t.bytes)).toNat ++ ones 32

theorem composePage_eq (data : List Byte) (t : Trailer) :
    composePage data t = { data := padOnes 4096 data, spare := spareOf (padOnes 4096 data) t } := rfl

/-- A page with its own CRC is VALID at its generation, and gives its trailer's fields and its data (R59, R190). -/
theorem judgePage_spareOf (gen : Nat) (data : List Byte) (t : Trailer) (h : (trailerOf t.bytes).generation = gen) :
    judgePage gen (some { data := data, spare := spareOf data t }) = .valid (trailerOf t.bytes) data := by
  have trailer : trailerOf (spareOf data t) = trailerOf t.bytes := by
    unfold trailerOf spareOf
    simp only [List.append_assoc]
    repeat rw [field_append t.bytes _ _ _ (by rw [Trailer.bytes_length]; omega)]
  have crc : PageImage.crcMatches { data := data, spare := spareOf data t } = true := by
    unfold PageImage.crcMatches spareOf
    have h1 := field_second t.bytes (leBytes 4 (crc32 (data ++ t.bytes)).toNat) (ones 32)
    rw [Trailer.bytes_length, leBytes_length, leVal_leBytes _ _ (crc32 (data ++ t.bytes)).isLt] at h1
    have h2 : List.take 28 (t.bytes ++ leBytes 4 (crc32 (data ++ t.bytes)).toNat ++ ones 32) = t.bytes := by
      rw [List.append_assoc, ← Trailer.bytes_length t, List.take_left]
    simp only [h1, h2, beq_self_eq_true]
  have written : PageImage.allOnes { data := data, spare := spareOf data t } = false := by
    unfold PageImage.allOnes
    have : (spareOf data t).all (· == 255#8) = false := by
      rw [List.all_eq_false]
      exact ⟨0#8, by simp [spareOf, Trailer.bytes], by decide⟩
    simp only [this, Bool.and_false]
  simp only [judgePage, written, crc, trailer, h, beq_self_eq_true, Bool.and_self, if_true, Bool.false_eq_true, if_false]

/-- A drop record with its counted surveys is 66 bytes, 32 of them its own. -/
theorem DropRecord.wholeBytes_length (r : DropRecord) : r.wholeBytes.length = 66 := by
  simp [DropRecord.wholeBytes, DropRecord.bytes, Stamp.bytes, leBytes_length, padZeros, zeros]
  omega

/-- A payload that the spec lays out by fields only fits a frame. -/
theorem Payload.openBytes_length (p : Payload) : p.openBytes.length ≤ 2048 := by
  simp only [Payload.openBytes, List.length_take, payloadRoom]; omega

theorem Notice.openBytes_length (n : Notice) : n.openBytes.length ≤ 2048 := by
  simp only [Notice.openBytes, List.length_take, payloadRoom]; omega

/-- A DROPS-READ reply with at most 16 records in the list fits a frame. -/
theorem drops_bytes_length (m : MonitorState) (park : Bool) (total : Nat) (now : Option DropRecord) (list : List DropRecord)
    (h : list.length ≤ 16) : (Payload.drops m park total now list).bytes.length ≤ 2048 := by
  have h1 : ∀ l : List DropRecord, (l.flatMap DropRecord.wholeBytes).length = 66 * l.length := by
    intro l
    induction l with
    | nil => rfl
    | cons a l ih => rw [List.flatMap_cons, List.length_append, ih, DropRecord.wholeBytes_length, List.length_cons]; omega
  have h2 : now.toList.length ≤ 1 := by cases now <;> simp
  simp only [Payload.bytes, dropReports, List.length_append, List.length_take, h1, payloadRoom]
  omega

end Sys2Proof.Machine
end

