-- ==== Sys2Proof/WellFormed.lean ====
section
/-! DEFINITION. Which commands are well formed: those that the connections of section 2 can bring. -/

namespace Sys2Proof

/-- A returned page holds 4096 data bytes and a 64-byte spare area (R57). -/
def ReadOutcome.wellFormed : ReadOutcome → Bool
  | .stored => true
  | .returned data spare => data.length == 4096 && spare.length == 64
  | .failed => true

/-- A command that the outside can bring. The flash array holds at least 64 segments (R57), a frame on the line has at least
its first byte (section 11.1), and a page read returns a whole page. Every other operand is any value of its type. -/
def Instr.wellFormed : Instr → Bool
  | .powerOn n => decide (64 ≤ n)
  | .frameArrival bytes => !bytes.isEmpty
  | .verificationReadEnd r => r.wellFormed
  | .readEngineReadEnd r => r.wellFormed
  | .mountReadEnd r => r.wellFormed
  | .rstLine => true
  | .sampleFrame => true
  | .unknownOpcode => true
  | .status => true
  | .linkReset => true
  | .noticeMaskSet => true
  | .noticeMaskClear => true
  | .clockRead => true
  | .clockSet => true
  | .streamLoad => true
  | .streamStart => true
  | .streamPause => true
  | .streamStop => true
  | .streamClear => true
  | .streamRead => true
  | .surveyOpen => true
  | .surveyClose => true
  | .surveyThresholds => true
  | .surveyLock => true
  | .surveyErase => true
  | .surveyList => true
  | .readRecords => true
  | .dropsRead => true
  | .gaugeRead => true
  | .setLevels => true
  | .setShock => true
  | .setGauge => true
  | .doze => true
  | .format => true
  | .tickBoundary => true
  | .shockTrigger => true
  | .gaugeTrigger => true
  | .retire => true
  | .idleTimerExpiry => true
  | .reportAlarm => true
  | .shockScanEnd _ _ _ _ => true
  | .gaugeScanEnd _ _ _ _ _ _ => true
  | .startUpSelfCheckEnd _ _ => true
  | .dataPageProgramEnd _ => true
  | .headerProgramEnd _ => true
  | .segmentEraseEnd _ => true
  | .formatEraseEnd _ => true
  | .indexEntryProgramEnd _ => true
  | .indexSegmentEraseEnd _ => true
  | .snapshotProgramEnd _ => true
  | .operationTimeout => true
  | .wakeWaitEnd => true
  | .frameSent => true
  | .bufferGrant => true
  | .stopComplete => true
  | .surveyClosedEntryRequest => true
  | .dozeEntryComplete => true
  | .shutdownPowerDownRequest => true
  | .pwrKeepRelease => true

end Sys2Proof
end

