-- ==== Sys2Proof/Laws/PerInstr.lean ====
section
/-! SUPPORT. Well-formedness, command by command: what the connections of section 2 require of a command's operands, said as a
proposition, is exactly what the check accepts. -/

namespace Sys2Proof.Laws.WellFormedIff

/-- A page that a read returns is whole: 4096 data bytes and a spare area of 64 (R57). -/
def Whole (r : ReadOutcome) : Prop :=
  ∀ data spare, r = .returned data spare → data.length = 4096 ∧ spare.length = 64

/-- What the outside must keep to: an array of at least 64 segments (R57), a frame of at least one byte (section 11.1), and whole
pages. -/
def Demand (i : Instr) : Prop :=
  (∀ n, i = .powerOn n → 64 ≤ n) ∧
  (∀ bytes, i = .frameArrival bytes → bytes ≠ []) ∧
  (∀ r, i = .verificationReadEnd r → Whole r) ∧
  (∀ r, i = .readEngineReadEnd r → Whole r) ∧
  ∀ r, i = .mountReadEnd r → Whole r

/-- The check accepts a command exactly where its operands are what the outside can bring. -/
def Statement (i : Instr) : Prop := i.wellFormed = true ↔ Demand i

/-- The check of a read's outcome. -/
theorem whole_iff (r : ReadOutcome) : r.wellFormed = true ↔ Whole r := by
  cases r <;> simp [ReadOutcome.wellFormed, Whole]

/-- The statement of every command, by the shape of its operands. -/
theorem of_command (i : Instr) : Statement i := by
  cases i <;> simp [Statement, Demand, Instr.wellFormed, whole_iff]

theorem powerOn (reportedSegments : Nat) : Statement (.powerOn reportedSegments) := of_command _

theorem rstLine : Statement .rstLine := of_command _

theorem frameArrival (bytes : List Byte) : Statement (.frameArrival bytes) := of_command _

theorem sampleFrame : Statement .sampleFrame := of_command _

theorem unknownOpcode : Statement .unknownOpcode := of_command _

theorem status : Statement .status := of_command _

theorem linkReset : Statement .linkReset := of_command _

theorem noticeMaskSet : Statement .noticeMaskSet := of_command _

theorem noticeMaskClear : Statement .noticeMaskClear := of_command _

theorem clockRead : Statement .clockRead := of_command _

theorem clockSet : Statement .clockSet := of_command _

theorem streamLoad : Statement .streamLoad := of_command _

theorem streamStart : Statement .streamStart := of_command _

theorem streamPause : Statement .streamPause := of_command _

theorem streamStop : Statement .streamStop := of_command _

theorem streamClear : Statement .streamClear := of_command _

theorem streamRead : Statement .streamRead := of_command _

theorem surveyOpen : Statement .surveyOpen := of_command _

theorem surveyClose : Statement .surveyClose := of_command _

theorem surveyThresholds : Statement .surveyThresholds := of_command _

theorem surveyLock : Statement .surveyLock := of_command _

theorem surveyErase : Statement .surveyErase := of_command _

theorem surveyList : Statement .surveyList := of_command _

theorem readRecords : Statement .readRecords := of_command _

theorem dropsRead : Statement .dropsRead := of_command _

theorem gaugeRead : Statement .gaugeRead := of_command _

theorem setLevels : Statement .setLevels := of_command _

theorem setShock : Statement .setShock := of_command _

theorem setGauge : Statement .setGauge := of_command _

theorem doze : Statement .doze := of_command _

theorem format : Statement .format := of_command _

theorem tickBoundary : Statement .tickBoundary := of_command _

theorem shockTrigger : Statement .shockTrigger := of_command _

theorem gaugeTrigger : Statement .gaugeTrigger := of_command _

theorem retire : Statement .retire := of_command _

theorem idleTimerExpiry : Statement .idleTimerExpiry := of_command _

theorem reportAlarm : Statement .reportAlarm := of_command _

theorem shockScanEnd (ax ay az vhold : Code) : Statement (.shockScanEnd ax ay az vhold) := of_command _

theorem gaugeScanEnd (vhold vpack ipack tpack zeroRef fullRef : Code) : Statement (.gaugeScanEnd vhold vpack ipack tpack zeroRef fullRef) := of_command _

theorem startUpSelfCheckEnd (zeroRef fullRef : Code) : Statement (.startUpSelfCheckEnd zeroRef fullRef) := of_command _

theorem dataPageProgramEnd (ok : Bool) : Statement (.dataPageProgramEnd ok) := of_command _

theorem headerProgramEnd (ok : Bool) : Statement (.headerProgramEnd ok) := of_command _

theorem segmentEraseEnd (ok : Bool) : Statement (.segmentEraseEnd ok) := of_command _

theorem formatEraseEnd (ok : Bool) : Statement (.formatEraseEnd ok) := of_command _

theorem indexEntryProgramEnd (ok : Bool) : Statement (.indexEntryProgramEnd ok) := of_command _

theorem indexSegmentEraseEnd (ok : Bool) : Statement (.indexSegmentEraseEnd ok) := of_command _

theorem snapshotProgramEnd (ok : Bool) : Statement (.snapshotProgramEnd ok) := of_command _

theorem verificationReadEnd (result : ReadOutcome) : Statement (.verificationReadEnd result) := of_command _

theorem readEngineReadEnd (result : ReadOutcome) : Statement (.readEngineReadEnd result) := of_command _

theorem mountReadEnd (result : ReadOutcome) : Statement (.mountReadEnd result) := of_command _

theorem operationTimeout : Statement .operationTimeout := of_command _

theorem wakeWaitEnd : Statement .wakeWaitEnd := of_command _

theorem frameSent : Statement .frameSent := of_command _

theorem bufferGrant : Statement .bufferGrant := of_command _

theorem stopComplete : Statement .stopComplete := of_command _

theorem surveyClosedEntryRequest : Statement .surveyClosedEntryRequest := of_command _

theorem dozeEntryComplete : Statement .dozeEntryComplete := of_command _

theorem shutdownPowerDownRequest : Statement .shutdownPowerDownRequest := of_command _

theorem pwrKeepRelease : Statement .pwrKeepRelease := of_command _

end Sys2Proof.Laws.WellFormedIff
end

