-- ==== Sys2Proof/Tests/Slice0.lean ====
section
/-! SUPPORT. Tests: what WellFormed refuses, worked values of the spec, one step of several rows, and for each statement with
hypotheses a concrete state that meets them. Expected values are the spec's or computed by hand from it. -/

open Sys2Proof Sys2Proof.Machine

namespace Sys2Proof.Tests

/-! ### WellFormed -/

theorem test_wellFormed_refuses_small_array : (Instr.powerOn 63).wellFormed = false := by decide
theorem test_wellFormed_takes_smallest_array : (Instr.powerOn 64).wellFormed = true := by decide
theorem test_wellFormed_refuses_empty_frame : (Instr.frameArrival []).wellFormed = false := by decide
theorem test_wellFormed_refuses_short_verification : (Instr.verificationReadEnd (.returned [] [])).wellFormed = false := by decide
theorem test_wellFormed_refuses_short_engine_read : (Instr.readEngineReadEnd (.returned [1] [])).wellFormed = false := by decide
theorem test_wellFormed_refuses_short_mount_read : (Instr.mountReadEnd (.returned [] [2])).wellFormed = false := by decide
theorem test_no_word_spells_a_command : decodeTableWord 16 7 = none := by decide

/-! ### States -/

/-- A part that mount has brought to READY on a formatted drive with default levels, its pool free and its port idle. -/
def ready : State :=
  { State.reset with
    power := { State.reset.power with phase := .ready }
    mount := .done
    media := { State.reset.media with op := none, segs := mountSegs 64, free := [10, 11], ready := [5, 6, 7, 8, 9], generation := 1 }
    table := { surveys := [], nextNumber := 1, stored := [0, 2, 2, 1], present := [0, 2, 2, 1] }
    log := { State.reset.log with current := some 0, writePoint := 1, generation := 1 }
    sampler := { State.reset.sampler with running := none, countdown := 9 }
    monitor := { State.reset.monitor with loaded := true }
    gauge := { State.reset.gauge with holdUpPages := 20, limit := 20 } }

/-- An OPEN survey 1, created at level 0. -/
def survey : Survey :=
  { number := 1, confirmed := true, name := [65], state := .open, creator := 0, readThreshold := 2, eraseThreshold := 1,
    created := { seconds := 0, ticks := 0, valid := false }, closed := none, streamCount := 0, heads := List.replicate 8 none, tails := List.replicate 8 none,
    dropCount := 0, lastDrop := 0, hadPowerLoss := false, hadSuspect := false, hadVoid := false }

/-- A stream of survey 1. -/
def stream : Descriptor :=
  { survey := 1, index := 0, sourcePort := none, tag := 5, mask := 255, ownerLevel := 2, decimation := 1, shift := 0,
    rounding := .floor, gain := 1, recordLength := 64, offset := 0, width := .w16, mode := .off, low := 0, high := 0 }

/-- A part with survey 1, and one slot in a state. -/
def withSlot (st : StreamState) : State :=
  { ready with table := { ready.table with surveys := [survey] }, slots := ready.slots.set 3 { state := st, desc := some stream } }

/-- A control frame of a command, on port 0. -/
def frame (o : Opcode) (payload : List Byte) : Frame :=
  { kind := .control, port := 0, asked := 0, tag := 9, code := o.code, timeMark := false, payload := payload }

/-- A state with a frame at the head of its receive buffer. -/
def offer (s : State) (f : Frame) : State := { s with port := { s.port with rx := [f] } }

theorem offers_of {s : State} {o : Opcode} {f : Frame}
    (h : (decide (s.due = none) && s.headControl == some f && opcodeOf f.code == some o && s.placesFree o.timeTaking) = true) :
    s.Offers o f := by
  simp only [Bool.and_eq_true, decide_eq_true_eq, beq_iff_eq] at h
  obtain ⟨⟨⟨a, b⟩, c⟩, d⟩ := h
  exact { settled := a, head := b, opcode := c, places := d }

theorem takes_of {s : State} {o : Opcode} {f : Frame}
    (h : (decide (s.due = none) && s.headControl == some f && opcodeOf f.code == some o && s.placesFree o.timeTaking
      && (s.refusedBy o f).isNone) = true) : s.Takes o f := by
  simp only [Bool.and_eq_true, decide_eq_true_eq, beq_iff_eq, Option.isNone_iff_eq_none] at h
  obtain ⟨⟨⟨⟨a, b⟩, c⟩, d⟩, e⟩ := h
  exact { settled := a, head := b, opcode := c, places := d, passes := e }


/-- A state with another operation on the Media Port. -/
def onPort (s : State) (op : MediaOp) : State := { s with media := { s.media with op := some op } }

/-- A state with another procedure. -/
def inProcedure (s : State) (p : Procedure) : State := { s with power := { s.power with procedure := p } }

/-- A command in the Operation Slot. -/
def slotOf (o : Opcode) (r : Request) : OpSlot :=
  { opcode := o, port := 0, tag := 9, level := 0, suppressed := false, request := r }

/-- A Commit Queue entry of slot 3 in buffer 2. -/
def entry (st : EntryState) (retire : Nat) : Entry :=
  { buffer := 2, slot := 3, survey := 1, index := 0, firstSeq := 0, count := 1, used := 40, target := some (12, 1), state := st,
    rewrite := false, failures := 0, retire := retire }

/-- A pending index entry. -/
def pendingEntry (failures : Nat) : IndexEntry :=
  { body := .surveyLocked 1, stamp := { seconds := 0, ticks := 0, valid := false }, seq := some 4, buffer := some 2, failures := failures, issued := true }

/-- A formatted part with survey 1 OPEN and empty. -/
def opened : State := { ready with table := { ready.table with surveys := [survey] } }

/-- A take of slot 3. -/
def takeOf (load : Bool) (phase : TakePhase) (fails : Nat) : Take :=
  { load := load, slot := 3, survey := 1, index := 0, firstSeq := 0, phase := phase, headerFails := fails }

/-- The chain data of segment 12, alone in stream 0 of survey 1, its write point 9. -/
def segment12 : Segment :=
  { state := .active, headerFailed := false,
    chain := some { survey := 1, index := 0, seq := 0, firstSeq := 0, next := none, writePoint := 9, voids := 0 } }

/-- `survey` with segment 12 as its stream 0's chain. -/
def chainedSurvey : Survey :=
  { survey with heads := survey.heads.set 0 (some 12), tails := survey.tails.set 0 (some 12), streamCount := 1 }

/-- Survey 1 with a chain of one segment, 12, whose write point is 9. -/
def chained : State :=
  { withSlot .running with
    table := { ready.table with surveys := [chainedSurvey] }
    media := { ready.media with segs := ready.media.segs.set 12 segment12 } }

/-- A data page of survey 1. -/
def dataPage (first : Nat) : PageResult :=
  .valid { kind := 2, rewrite := false, index := 0, survey := 1, generation := 1, seq := 0, count := 1, used := 20, firstSeq := first,
           seconds := 0, ticks := 0 } []

/-- A read context. -/
def context (phase : EnginePhase) : ReadContext :=
  { survey := 1, index := 0, requested := 0, maximum := 1, hintUsed := false, path := [12], links := 0, phase := phase, wanted := 0,
    lastSeq := none, entries := [], request := none }

/-- A drop in progress. -/
def dropRecord : DropRecord :=
  { number := 1, ordinal := 0, kind := .fall, start := { seconds := 0, ticks := 0, valid := false }, fallTime := 0, height := 0, peak := 0,
    peakTenths := 0, rail := false, pages := { suspect := 0, carried := 0 }, packLost := false, lowestHoldUp := 8000, power := .active,
    surveys := [] }

/-- A part whose shock scan runs, its Drop Monitor in a state with a drop in progress. -/
def scanning (st : MonitorState) (fallClock : Nat) : State :=
  { ready with
    sampler := { ready.sampler with running := some .shock }
    monitor := { ready.monitor with
      state := st, drop := some dropRecord, park := true, fallClock := fallClock, previous := some (0, 0, 700) } }

/-- A trailer of survey 1, stream 0, format generation 1. -/
def trailer (kind first : Nat) : Trailer :=
  { kind := kind, rewrite := false, index := 0, survey := 1, generation := 1, seq := 0, count := 1, used := 20, firstSeq := first,
    seconds := 0, ticks := 0 }

/-- A page with a trailer and its CRC. -/
def returned (kind first : Nat) (data : List Byte) : ReadOutcome := .returned data (spareOf data (trailer kind first))

/-- A page with its own CRC reads VALID. -/
theorem returned_valid (kind first : Nat) (data : List Byte) (h : (trailerOf (trailer kind first).bytes).generation = 1)
    (flash : List (Nat × FlashCell)) (g p : Nat) :
    judgePage 1 (outcomeImage (returned kind first data) flash g p) = .valid (trailerOf (trailer kind first).bytes) data :=
  judgePage_spareOf 1 data (trailer kind first) h

/-- The pages of a list that no probe has read. -/
def unprobed (probes : List (Nat × Bool)) (l : List Nat) : List Nat := l.filter (fun k => decide (1 ≤ k ∧ ∀ e ∈ probes, e.1 ≠ k))

/-- A reply, in an ordinary place. -/
def ordinaryReply : TxEntry :=
  .reply { port := 0, tag := 9, level := 0, status := .ok, kept := false, payload := .none }

/-! ### Worked values -/

set_option maxRecDepth 20000 in
/-- The check value of the CRC of R190: "123456789" gives CBF43926H. -/
theorem test_crc : (crc32 [0x31, 0x32, 0x33, 0x34, 0x35, 0x36, 0x37, 0x38, 0x39]).toNat = 0xCBF43926 := by rfl
/-- R26's ties. -/
theorem test_round_half_up_tie : roundShift .halfUp 1 (-5) = -2 := by decide
theorem test_round_half_even_tie : roundShift .halfEven 1 (-5) = -2 ∧ roundShift .halfEven 1 (-7) = -4 := by decide
theorem test_round_floor : roundShift .floor 2 (-9) = -3 := by decide

/-- R142's heights. -/
theorem test_fall_heights : fallHeight 64 = 19 ∧ fallHeight 256 = 306 ∧ fallHeight 2048 = 19612 := by decide
theorem test_peak_tenths : tenthsOf 1800 410 = 43 := by decide
/-- R154's points, and its clamp at both ends. -/
theorem test_estimate_points :
    estimateOf 5999 = 0 ∧ estimateOf 6800 = 1000 ∧ estimateOf 7200 = 3000 ∧ estimateOf 7500 = 5000 ∧ estimateOf 8401 = 10000 := by
  decide
theorem test_estimate_between : estimateOf 7351 = 4006 := by decide
/-- R155: the largest step of one scan is 92 tenths of a mAh. -/
theorem test_integrate_most : (({ Gauge.reset with acc := -368639 } : Gauge).integrate (-4096) 8192).1.remaining = 92 := by decide
/-- R161's example at RESERVE. -/
theorem test_limit_reserve : (({ Gauge.reset with level := .reserve } : Gauge).takeHold 8000).recompute.limit = 8 := by decide
theorem test_limit_sagging : (Gauge.reset.takeHold 4900).recompute.limit = 0 ∧ (Gauge.reset.takeHold 5300).recompute.limit = 2 := by
  decide
/-- R175: generations are compared across their wrap. -/
theorem test_generation_wrap : laterGeneration 1 65535 = true ∧ laterGeneration 65535 1 = false := by decide
/-- R102: N is clamped to 64 to 4096 and to what the array reports. -/
theorem test_format_n : takenN 0 4096 = 64 ∧ takenN 5000 4096 = 4096 ∧ takenN 4096 100 = 100 := by decide
/-- R166: the alarm of an interval of 0 is off. -/
theorem test_alarm_off : ({ ready with gauge := { ready.gauge with settings := { reportInterval := 0 } } } : State).restartReport.clock.nextReport = none := by
  decide

/-- R65, R189: a descriptor restored with a code that names nothing is written with that code, and with its zero bytes zero. -/
theorem test_restored_descriptor_bytes :
    (descriptorOf [1, 0, 0, 255, 5, 0, 255, 0, 2, 1, 0, 7, 1, 0, 64, 0, 254, 255, 255, 255, 0x10, 0, 9, 9, 0, 0, 0, 0, 0, 0, 0, 128]).bytes
      = [1, 0, 0, 255, 5, 0, 255, 0, 2, 1, 0, 7, 1, 0, 64, 0, 254, 255, 255, 255, 0x10, 0, 0, 0, 0, 0, 0, 0, 0, 0, 0, 128] := by
  decide
/-- R65: a stream restored without its header page writes its own survey number and index. -/
theorem test_unread_descriptor_stream : slice (restoreDescriptor 12 300 2 .failed).bytes 0 3 = [44, 1, 2] := by
  rw [Descriptor.bytes_stream]; decide

/-! ### Steps -/

/-- A step that changes a state shows in one field. -/
def after (s : State) : State :=
  match step s with
  | .next t => t
  | .fault _ => s
  | .refused _ => s

theorem test_step_takes_front : (after { ready with pending := [.tickBoundary, .status] }).pending = [.status] := by decide
theorem test_tick_carries : (after { ready with clock := { ready.clock with ticks := 1023 }, pending := [.tickBoundary] }).clock.seconds = 1 := by
  decide
theorem test_tick_wraps_seconds :
    (after { ready with clock := { ready.clock with ticks := 1023, seconds := 4294967295 }, pending := [.tickBoundary] }).clock.seconds = 0 := by
  decide
theorem test_arrival_raises_hold :
    (after { ready with
      port := { ready.port with rx := List.replicate 6 (frame .status []) }
      pending := [.frameArrival [2, 0, 0, 0, 0, 0, 1, 0]] }).port.hold = true := by
  decide
theorem test_bad_kind_counts : (after { ready with pending := [.frameArrival [7, 0, 0, 0, 0, 0, 0, 0]] }).port.counts.framing = 1 := by decide
theorem test_clock_set_valid : (after { offer ready (frame .clockSet [0, 1, 0, 0]) with pending := [.clockSet] }).clock.seconds = 256 := by
  decide
theorem test_survey_open_unconfirmed :
    ((after { offer ready (frame .surveyOpen [3, 0, 65]) with pending := [.surveyOpen] }).table.surveys.map Survey.confirmed) = [false] := by
  decide
theorem test_start_refused_in_reserve :
    (((after { offer { withSlot .loaded with gauge := { ready.gauge with level := .reserve, limit := 8 } } (frame .streamStart [3]) with
      pending := [.streamStart] }).slotAt 3).state) = .loaded := by
  decide
theorem test_start_runs : (((after { offer (withSlot .loaded) (frame .streamStart [3]) with pending := [.streamStart] }).slotAt 3).state) = .running := by
  decide
theorem test_shock_scan_lowers_limit :
    (after { ready with sampler := { ready.sampler with running := some .shock }, pending := [.shockScanEnd 2048 2048 2048 1300] }).gauge.limit = 1 := by
  decide
theorem test_impact_raises_park :
    (after { ready with sampler := { ready.sampler with running := some .shock }, pending := [.shockScanEnd 4095 2048 2048 2000] }).monitor.park
      = true := by
  decide
theorem test_mount_unformatted :
    (after { onPort ready (.mountRead 3 0) with mount := .heads 3 none, pending := [.mountReadEnd .failed] }).power.unformatted = true := by
  decide
theorem test_power_on_restarts_mount : (after { ready with pending := [.powerOn 64] }).power.phase = .index := by decide
theorem test_rst_keeps_clock :
    (after { ready with clock := { ready.clock with seconds := 77, valid := true }, pending := [.rstLine] }).clock.seconds = 77 := by
  decide

/-- R183: a command that waited for its place is taken as the frame on the line leaves. -/
theorem test_frame_sent_takes_waiting_frame :
    (let s : State := { offer ready (frame .status []) with
       port := { (offer ready (frame .status [])).port with tx := List.replicate 8 ordinaryReply }, pending := [.frameSent] }
     (after s).port.tx.length = 8 ∧ (after s).port.rx = []) := by
  decide
/-- R19: the output index is that of the nearest earlier record, though it was read in a page later in chain order. -/
theorem test_output_index_of_nearest_record :
    (chainResult 1 0 { segment := 12, page := 8, firstSeq := 10, count := 0, data := [] }
      [{ firstSeq := 3, outputIndex := 7 }, { firstSeq := 30, outputIndex := 9 }, { firstSeq := 5, outputIndex := 8 }]).outputIndex = 8 := by
  decide

/-! ### Witnesses: a concrete state and operands that meet the hypotheses of each statement, clause by clause -/

theorem witness_StepTakesFront :
    (({ ready with sampler := { ready.sampler with shockDue := true } } : State).pending = [] ∧
      ({ ready with sampler := { ready.sampler with shockDue := true } } : State).due = some .shockTrigger) ∧
    (ready.pending = [] ∧ ready.due = none ∧ ready.clock.prescaler < 31) ∧
    (({ ready with clock := { ready.clock with prescaler := 31 } } : State).due = none) := by
  decide
theorem witness_ExecKeepsQueue : ∃ t, exec .status ready = .next t := ⟨_, rfl⟩
theorem witness_DueSteps :
    (∀ d : Due, Instr.status ≠ d.row) ∧ ({ ready with sampler := { ready.sampler with shockDue := true } } : State).settle.due = none ∧
      ready.isDue .shockTrigger = false ∧
      (let s : State := { ready with sampler := { ready.sampler with shockDue := true, countdown := 0 } }
       s.isDue .gaugeTrigger = true ∧ s.due = some .shockTrigger ∧ (s.make .shockTrigger).holdIdle.due = some .gaugeTrigger) := by
  refine ⟨?_, by decide, by decide, by decide⟩
  intro d
  cases d <;> decide
theorem witness_DueSteps_arbiter :
    ((onPort ready (.aheadErase 10)).media.op ≠ none ∧ ready.media.op = none ∧ ready.media.hold = false ∧ ready.power.state ≠ .off) ∧
    -- class 1: a SUSPECT entry behind a HELD one, in VERIFY
    (let s : State := { scanning .verify 0 with queue := [entry .held 0] ++ { entry .suspect 0 with buffer := 3 } :: [] }
     (∀ x ∈ [entry .held 0], x.state ≠ .suspect) ∧ (entry .suspect 0).target = some (12, 1) ∧ s.monitor.state = .verify ∧
       (∀ x ∈ s.queue, x.state ≠ .verifying)) ∧
    (ready.monitor.state ≠ .verify ∧ (scanning .fallWait 0).monitor.park = true ∧ ready.monitor.park = false) ∧
    -- class 2: an entry; class 3; class 4: a take, an entry for the drain; class 5; class 6
    ((pendingEntry 0).buffer = some 2 ∧ ready.log.current = some 0 ∧ ready.log.rollover = .none ∧ ready.log.stage ≠ .request) ∧
    -- class 2: FORMAT's erase of an index segment and of a data segment, and a rollover at its snapshot's program
    ((∀ g ∈ [3, 4], ∃ r, ({ ready with formatRun := some { stage := .erasing g, n := 64 } } : State).formatRun = some r ∧
        r.stage = .erasing g) ∧ (3 < 4 ∧ ¬ 4 < 4)) ∧
    (let s : State := { ready with log := { ready.log with rollover := .program 1 2 } }
     s.media.op = none ∧ s.media.hold = false ∧ s.power.state ≠ .off ∧ s.monitor.park = false ∧ s.log.rollover = .program 1 2 ∧
       s.formatRun = none) ∧
    -- the fairness count at 4 and at 3, with the engine's request waiting, and at 4 without one
    (let s (n : Nat) : State :=
       { ready with engine := some { context (.scan 0 1) with request := some (12, 1) }, media := { ready.media with fairness := n } }
     let calm (s : State) : Nat := if (s.engine.bind ReadContext.request).isSome then s.media.fairness else 0
     calm (s 4) = 4 ∧ calm (s 3) ≠ 4 ∧ calm { s 4 with engine := none } ≠ 4 ∧ (s 4).mountTarget = none ∧ (s 4).log.rollover = .none ∧
       (s 4).log.waiting = []) ∧
    (({ ready with mount := .headers 4 } : State).mountTarget = some (4, 0) ∧ ready.mountTarget = none) ∧
    (∀ p ∈ [TakePhase.header 5, .erase 10],
      let l := [takeOf false .remake 0, takeOf true p 0]
      l.filter (fun x => x.load) ++ l.filter (fun x => !x.load) = [] ++ takeOf true p 0 :: [takeOf false .remake 0]) ∧
    (({ chained with queue := [{ entry .waiting 0 with target := none }] } : State).drain [] [{ entry .waiting 0 with target := none }]).2
      = true ∧
    (ready.drain [] []).2 = false ∧
    (({ context (.scan 0 1) with request := some (12, 1) } : ReadContext).request = some (12, 1)) ∧
    ([5].length < 4 ∧ ready.media.takes = [] ∧ ready.formatRun = none ∧ ready.power.phase = .ready ∧ ready.media.free = 10 :: [11]) ∧
    -- a take's parts, and what mount reads in its chains
    (({ ready with slot := some (slotOf .streamLoad (.streamLoad 3 stream)) } : State).slot.any
      (fun o => o.request == .streamLoad 3 stream) = true ∧ chained.tailOf 1 0 = some 12 ∧ (chained.chainAt 12).isSome = true) := by
  decide
theorem witness_StepKeepsPort : ∃ t, step ready = .next t ∧ ready.PortInv :=
  ⟨_, rfl, by decide, by decide, fun h => absurd h (by decide)⟩
theorem witness_StepKeepsClock : ∃ t, step ready = .next t ∧ ready.ClockInv := ⟨_, rfl, by decide, by decide, by decide⟩
theorem witness_StepKeepsLimit : ∃ t, step ready = .next t ∧ ready.LimitInv := ⟨_, rfl, by decide, by decide⟩
theorem witness_StepKeepsFlash : ∃ t, step ready = .next t ∧ ready.FlashInv := ⟨_, rfl, rfl⟩
theorem witness_StepKeepsDrop : ∃ t, step ready = .next t ∧ ready.DropInv := ⟨_, rfl, rfl, rfl⟩
theorem witness_StepKeepsShape : ∃ t, step ready = .next t ∧ ready.ShapeInv := ⟨_, rfl, by decide, by decide⟩
theorem witness_LostOperation :
    Flash.wf ready.media.flash = true ∧ ready.media.op = none ∧ (onPort ready (.verifyRead 2 12 1)).media.op = some (.verifyRead 2 12 1) ∧
    (onPort ready (.dataProgram 2 12 255)).media.op = some (.dataProgram 2 12 255) ∧
    (onPort ready (.headerProgram 63)).media.op = some (.headerProgram 63) ∧
    (onPort ready (.takeErase 4)).media.op = some (.takeErase 4) := by
  decide
theorem witness_PowerOn : ready.due = none := by decide
theorem witness_ClockThroughResets :
    (ready.due = none ∧ Instr.status ≠ .clockSet ∧ Instr.status ≠ .frameSent ∧ ready.clock.valid = false ∧ ∃ t, exec .status ready = .next t) ∧
    (Instr.frameSent ≠ .clockSet ∧ ready.settle.headControl = none ∧
      (offer ready (frame .status [])).settle.headControl = some (frame .status []) ∧
      opcodeOf (frame .status []).code ≠ some .clockSet ∧ ∃ t, exec .frameSent (offer ready (frame .status [])) = .next t) :=
  ⟨⟨by decide, by decide, by decide, by decide, _, rfl⟩, by decide, by decide, by decide, by decide, _, rfl⟩
theorem witness_RstAndLinkReset :
    ready.gauge.level ≠ .critical ∧ ({ ready with gauge := { ready.gauge with level := .critical, limit := 0 } } : State).due = none ∧
    (offer ready (frame .linkReset [])).Takes .linkReset (frame .linkReset []) ∧
    (offer { onPort ready (.engineRead 12 1 false) with slot := some (slotOf .readRecords .readRecords) } (frame .linkReset [])).Takes
      .linkReset (frame .linkReset []) ∧
    (slotOf .readRecords .readRecords).opcode = .readRecords ∧
    (offer { ready with slot := some (slotOf .surveyLock (.surveyLock 1)) } (frame .linkReset [])).Takes .linkReset (frame .linkReset []) ∧
    (offer (inProcedure ready (.shutdown (.drain 2))) (frame .linkReset [])).Takes .linkReset (frame .linkReset []) :=
  ⟨by decide, by decide, takes_of (by decide), takes_of (by decide), by decide, takes_of (by decide), takes_of (by decide)⟩
theorem witness_FrameKept :
    ready.due = none ∧ ready.power.state ≠ .off ∧ framed [2, 0, 0, 0, 0, 0, 1, 0] = true ∧
    inboundKind [2, 0, 0, 0, 0, 0, 1, 0] = some .control ∧
    ({ ready with port := { ready.port with rx := List.replicate 7 (frame .status []) } } : State).port.rx.length < 8 ∧
    inboundKind ([1, 0, 6, 0, 0, 0, 0, 0] ++ [0x10, 1, 0, 0, 5, 0]) = some .sample ∧
    (frameOf .sample ([1, 0, 6, 0, 0, 0, 0, 0] ++ [0x10, 1, 0, 0, 5, 0])).sampleFormed = true ∧
    (inProcedure ready (.dozeEntry .idle)).power.procedure = .dozeEntry .idle ∧
    (inProcedure { ready with power := { ready.power with state := .doze } } .none).due = none := by
  decide
theorem witness_FrameDiscarded :
    ready.due = none ∧ framed [2, 0, 0, 0, 0, 0, 1] = false ∧ inboundKind [3, 0, 0, 0, 0, 0, 0, 0] = none ∧
    framed ([1, 0, 4, 0, 0, 0, 0, 0] ++ [0x11, 1, 0, 0]) = true ∧ inboundKind ([1, 0, 4, 0, 0, 0, 0, 0] ++ [0x11, 1, 0, 0]) = some .sample ∧
    (frameOf .sample ([1, 0, 4, 0, 0, 0, 0, 0] ++ [0x11, 1, 0, 0])).sampleFormed = false ∧
    ({ ready with port := { ready.port with rx := List.replicate 8 (frame .status []), hold := true } } : State).due = none ∧
    ({ ready with power := { ready.power with state := .off } } : State).due = none := by
  decide
theorem witness_TransmitList :
    ready.port.tx = [] ∧ ready.due = none ∧
    (let s : State := { inProcedure ready (.shutdown (.drain 2)) with port := { ready.port with tx := [.notice (.media .indexFailed)] } }
     s.due = none ∧ s.waitsForPlace = false) ∧
    (∀ f ∈ [frame .status [], { frame .status [] with code := 0x7F }],
      let s : State := { offer ready f with port := { (offer ready f).port with tx := List.replicate 8 ordinaryReply } }
      let t : State := { s with port := { s.port with tx := s.port.tx.tail } }
      s.due = none ∧ s.headControl = some f ∧ s.waitsForPlace = true ∧ t.waitsForPlace = false ∧ t.due = none) ∧
    (opcodeOf (frame .status []).code = some .status ∧ opcodeOf 0x7F = none) ∧
    (let s : State := { offer ready (frame .status []) with
       port := { (offer ready (frame .status [])).port with tx := List.replicate 9 ordinaryReply } }
     s.due = none ∧ ({ s with port := { s.port with tx := s.port.tx.tail } } : State).waitsForPlace = true) ∧
    (NoticeMask.enabled { media := false } .media = false) ∧ (NoticeMask.enabled {} .media = true) ∧
    (List.any [TxEntry.notice (.media .indexFailed)] (TxEntry.isNotice .media)) = true := by
  decide
theorem witness_RefusedByTests :
    (offer ready (frame .status [1])).Offers .status (frame .status [1]) ∧ Opcode.lengthFits .status 1 = false ∧
    (offer State.reset (frame .streamRead [1])).Offers .streamRead (frame .streamRead [1]) ∧
    State.reset.power.phase ≠ .ready ∧ Opcode.anyPhase .streamRead = false ∧
    (offer { ready with slot := some (slotOf .doze .doze) } (frame .surveyLock [1, 0])).Offers .surveyLock (frame .surveyLock [1, 0]) ∧
    Opcode.timeTaking .surveyLock = true :=
  ⟨offers_of (by decide), by decide, offers_of (by decide), by decide, by decide, offers_of (by decide), by decide⟩
theorem witness_FramesNotTaken :
    (opcodeOf 0x7F = none ∧ (offer ready { frame .status [] with code := 0x7F }).due = none ∧
      (offer ready { frame .status [] with code := 0x7F }).headControl = some { frame .status [] with code := 0x7F } ∧
      (offer ready { frame .status [] with code := 0x7F }).placesFree false = true) ∧
    (ready.due = none ∧ ∀ f, ¬ ready.Offers .status f) := by
  refine ⟨by decide, by decide, fun f h => ?_⟩
  exact absurd h.head (by show (none : Option Frame) ≠ some f; simp)
theorem witness_ReadingCommands :
    (offer State.reset (frame .status [])).Takes .status (frame .status []) ∧
    (offer ready (frame .clockRead [])).Takes .clockRead (frame .clockRead []) ∧
    (offer ready (frame .dropsRead [])).Takes .dropsRead (frame .dropsRead []) ∧
    (offer ready (frame .gaugeRead [])).Takes .gaugeRead (frame .gaugeRead []) ∧
    (offer ready (frame .streamRead [16])).Takes .streamRead (frame .streamRead [16]) ∧
    (offer ready (frame .streamRead [15])).Takes .streamRead (frame .streamRead [15]) ∧ (ready.slotAt 15).state = .empty ∧
    (offer (withSlot .paused) (frame .streamRead [3])).Takes .streamRead (frame .streamRead [3]) :=
  ⟨takes_of (by decide), takes_of (by decide), takes_of (by decide), takes_of (by decide), takes_of (by decide), takes_of (by decide),
    by decide, takes_of (by decide)⟩
theorem witness_ClockSet :
    (offer ready (frame .clockSet [1, 0, 0, 0])).Takes .clockSet (frame .clockSet [1, 0, 0, 0]) ∧
    ready.effective (frame .clockSet [1, 0, 0, 0]) ≤ 1 ∧ 1 < ready.effective { frame .clockSet [1, 0, 0, 0] with port := 1 } ∧
    (offer ready { frame .clockSet [1, 0, 0, 0] with port := 1 }).Takes .clockSet { frame .clockSet [1, 0, 0, 0] with port := 1 } :=
  ⟨takes_of (by decide), by decide, by decide, takes_of (by decide)⟩
theorem witness_NoticeMasks :
    (offer ready (frame .noticeMaskSet [127])).Takes .noticeMaskSet (frame .noticeMaskSet [127]) ∧
    (offer ready (frame .noticeMaskClear [1])).Takes .noticeMaskClear (frame .noticeMaskClear [1]) ∧
    (offer ready { frame .noticeMaskSet [1] with asked := 3 }).Takes .noticeMaskSet { frame .noticeMaskSet [1] with asked := 3 } ∧
    (offer ready { frame .noticeMaskClear [1] with asked := 3 }).Takes .noticeMaskClear { frame .noticeMaskClear [1] with asked := 3 } :=
  ⟨takes_of (by decide), takes_of (by decide), takes_of (by decide), takes_of (by decide)⟩
theorem witness_Mount :
    ((∀ k ∈ [1, 2, 3, 4, 5, 7, 8], (entryOf [byte k]).isSome = true) ∧
      (∀ k ∈ [1, 2, 3], (entryOf (byte 6 :: zeros 15 ++ [byte k])).isSome = true) ∧ entryOf [byte 9] = none ∧
      (entryOf (entryPage (pendingEntry 0)) = some (.surveyLocked 1))) ∧
    -- replay
    (({ onPort ready (.mountRead 0 5) with mount := .replay 0 5 7 none } : State).due = none ∧
      judgePage 1 (outcomeImage (returned 3 7 [8]) [] 0 5) = .valid (trailerOf (trailer 3 7).bytes) [8] ∧
      (trailerOf (trailer 3 7).bytes).kind = 3 ∧ (trailerOf (trailer 3 7).bytes).firstSeq = 7 ∧ 5 < 255 ∧
      judgePage 1 (outcomeImage .failed [] 0 5) = .failed ∧ judgePage 1 (outcomeImage (.returned [] []) [] 0 5) = .erased ∧
      judgePage 1 (outcomeImage (returned 3 8 [8]) [] 0 5) = .valid (trailerOf (trailer 3 8).bytes) [8] ∧
      ¬ ((trailerOf (trailer 3 8).bytes).kind = 3 ∧ (trailerOf (trailer 3 8).bytes).firstSeq = 7) ∧
      ({ onPort ready (.mountRead 0 5) with mount := .replay 0 5 7 (some true) } : State).due = none ∧
      ready.log.waiting = [] ∧ 4 < ready.media.segs.length) ∧
    -- the write point's search, its end after a page that does not read ERASED and after one that does, and the void pages
    ((∀ w ∈ [ChainWork.writePoint 1 255 false [], .writePoint 1 255 true [], .writePoint 9 9 false [], .writePoint 5 5 true [], .voids [8] 1],
        ({ onPort chained (.mountRead 12 9) with mount := .chains [(1, 0)] w [] } : State).due = none) ∧
      (1 + 255) / 2 + 1 ≤ 255 ∧ 1 ≤ (1 + 255) / 2 - 1 ∧
      (9 < (9 + 9) / 2 + 1 ∧ unprobed [((9 + 9) / 2, true)] [10 - 1, 10 - 2] = 8 :: []) ∧
      ((5 + 5) / 2 - 1 < 5 ∧ unprobed [((5 + 5) / 2 + 1, false)] [5 - 1, 5 - 2] = 4 :: [3]) ∧
      chained.tailOf 1 0 = some 12 ∧ chained.media.segs[12]? = some segment12 ∧ segment12.chain.any (fun c => decide (2 ≤ c.writePoint)) = true) ∧
    -- the last record
    (({ onPort chained (.mountRead 12 8) with mount := .chains [(1, 0), (1, 1)] (.last 12 8 none []) [] } : State).due = none ∧
      judgePage 1 (outcomeImage (returned 2 7 [7]) [] 12 8) = .valid (trailerOf (trailer 2 7).bytes) [7] ∧
      (trailerOf (trailer 2 7).bytes).kind = 2 ∧ (trailerOf (trailer 2 7).bytes).survey = 1 ∧ (trailerOf (trailer 2 7).bytes).index = 0 ∧
      (trailerOf (trailer 2 7).bytes).rewrite = false ∧ lastOutputIndex [7] (trailerOf (trailer 2 7).bytes).count = some 0) ∧
    -- the restore
    (let c : ChainResult := { survey := 1, index := 0, lastSeq := some 3, stopped := false, outputIndex := 4 }
     ({ onPort chained (.mountRead 12 0) with mount := .restore [c] [] [c] } : State).due = none ∧
      judgePage 1 (outcomeImage (returned 1 0 []) [] 12 0) = .valid (trailerOf (trailer 1 0).bytes) [] ∧
      (trailerOf (trailer 1 0).bytes).kind = 1 ∧ 0 < chained.slots.length ∧ chained.surveyAt 1 = some chainedSurvey) ∧
    -- the output index
    (lastOutputIndex [] 0 = none ∧ (∀ m ∈ ([{ firstSeq := 30, outputIndex := 9 }] : List IndexMark), 10 ≤ m.firstSeq) ∧
      ({ firstSeq := 3, outputIndex := 7 } : IndexMark).firstSeq < 10) := by
  refine ⟨by decide, ⟨by decide, returned_valid 3 7 [8] (by decide) _ _ _, by decide, by decide, by decide, by decide, by decide,
    returned_valid 3 8 [8] (by decide) _ _ _, by decide, by decide, by decide, by decide⟩, by decide,
    ⟨by decide, returned_valid 2 7 [7] (by decide) _ _ _, by decide⟩,
    ⟨by decide, returned_valid 1 0 [] (by decide) _ _ _, by decide⟩, by decide⟩
/-- A part in the SEGMENTS phase, two segments with one place. -/
def twins : State :=
  { onPort opened (.mountRead 63 0) with
    mount := .headers 63
    media := { (onPort opened (.mountRead 63 0)).media with
      segs := ((mountSegs 64).set 12 segment12).set 13 segment12 } }

theorem witness_Mount_chains :
    (twins.due = none ∧ twins.media.op = some (.mountRead 63 0) ∧ 63 + 1 = twins.media.segs.length ∧ (twins.media.segs[63]?).isSome = true ∧
      twins.surveyAt 1 ≠ none ∧ twins.media.segs[12]? = some segment12 ∧ twins.media.segs[13]? = some segment12) ∧
    judgePage 1 (outcomeImage (returned 1 0 []) [] 63 0) = .valid (trailerOf (trailer 1 0).bytes) [] ∧
    ((trailerOf (trailer 1 0).bytes).kind = 1 ∧ (trailerOf (trailer 1 0).bytes).index ≤ 7 ∧ (trailerOf (trailer 1 0).bytes).survey = 1) ∧
    judgePage 1 (outcomeImage .failed [] 63 0) = .failed ∧
    -- the twin in the higher segment goes, the lower one is the chain; without a survey there is no chain
    (twins.buildChains.media.segs.map Segment.state)[13]? = some .free ∧ (twins.buildChains.surveyAt 1).any (fun v => v.headOf 0 == some 12) = true ∧
    chainList twins.buildChains.table.surveys ≠ [] ∧ chainList ready.table.surveys = [] := by
  refine ⟨by decide, returned_valid 1 0 [] (by decide) _ _ _, by decide, by decide, by decide, by decide, by decide, by decide⟩
theorem witness_SlotReply :
    ({ ready with slot := some (slotOf .doze .doze) } : State).slot = some (slotOf .doze .doze) ∧ (slotOf .doze .doze).suppressed = false ∧
    ({ slotOf .doze .doze with suppressed := true } : OpSlot).suppressed = true := by
  decide
theorem witness_StreamChecks :
    (offer ready (frame .streamStart [16])).Takes .streamStart (frame .streamStart [16]) ∧
    (offer ready (frame .streamPause [15])).Takes .streamPause (frame .streamPause [15]) ∧ (ready.slotAt 15).state = .empty ∧
    (offer (withSlot .running) { frame .streamStop [3] with port := 1, asked := 3 }).Takes .streamStop
      { frame .streamStop [3] with port := 1, asked := 3 } ∧
    stream.ownerLevel < (withSlot .running).effective { frame .streamStop [3] with port := 1, asked := 3 } ∧
    (offer (withSlot .stopped) (frame .streamClear [16])).Takes .streamClear (frame .streamClear [16]) :=
  ⟨takes_of (by decide), takes_of (by decide), by decide, takes_of (by decide), by decide, takes_of (by decide)⟩
theorem witness_StreamStart :
    ((offer (withSlot .paused) (frame .streamStart [3])).Takes .streamStart (frame .streamStart [3]) ∧
      ((withSlot .paused).slotAt 3).desc = some stream ∧ ((withSlot .paused).slotAt 3).state = .paused ∧ ready.media.mediaFull = false ∧
      ready.gauge.level = .normal ∧ (∀ c, (withSlot .paused).power.procedure ≠ .dozeEntry c)) ∧
    (offer (withSlot .running) (frame .streamStart [3])).Takes .streamStart (frame .streamStart [3]) ∧
    (offer (inProcedure (withSlot .loaded) (.dozeEntry .idle)) (frame .streamStart [3])).power.procedure = .dozeEntry .idle ∧
    (offer { withSlot .loaded with gauge := { ready.gauge with level := .reserve, limit := 8 } } (frame .streamStart [3])).Takes .streamStart
      (frame .streamStart [3]) := by
  refine ⟨⟨takes_of (by decide), by decide, by decide, by decide, by decide, fun c h => ?_⟩, takes_of (by decide), by decide, takes_of (by decide)⟩
  exact Procedure.noConfusion h
theorem witness_StreamPause :
    (offer (withSlot .running) (frame .streamPause [3])).Takes .streamPause (frame .streamPause [3]) ∧
    ((withSlot .running).slotAt 3).stopping = false ∧ ((withSlot .running).slotAt 3).openRec = none ∧
    (offer (withSlot .loaded) (frame .streamPause [3])).Takes .streamPause (frame .streamPause [3]) :=
  ⟨takes_of (by decide), by decide, by decide, takes_of (by decide)⟩
/-- A slot with a fill page, POWER pending before RESUME. -/
def marked : Slot :=
  { state := .running, desc := some stream, page := some { buffer := 2, firstSeq := 0, count := 0 }
    markers := { power := some { stamp := { seconds := 0, ticks := 0, valid := false }, index := 0, reason := .restore },
                 resume := some { stamp := { seconds := 1, ticks := 0, valid := false }, index := 0, afterPower := true } } }

theorem witness_StreamStop :
    ((offer (withSlot .running) (frame .streamStop [3])).Takes .streamStop (frame .streamStop [3]) ∧
      ((withSlot .running).slotAt 3).stopping = false ∧ ((withSlot .running).slotAt 3).openRec = none ∧
      (offer (withSlot .stopped) (frame .streamStop [3])).Takes .streamStop (frame .streamStop [3])) ∧
    -- a requested close: with room in its page, with nothing to write, and without a FREE buffer, waiting already or not
    ((let s : State := { ready with slots := ready.slots.set 3 marked }
      (s.slotAt 3).desc = some stream ∧ (s.slotAt 3).openRec = none ∧ (s.slotAt 3).page = some { buffer := 2, firstSeq := 0, count := 0 } ∧
        2 < s.pool.buffers.length ∧ (s.bufferBytes 2).length + 20 * (s.slotAt 3).markers.order.length ≤ 4096) ∧
      ((withSlot .running).slotAt 3).page = none ∧ ((withSlot .running).slotAt 3).markers.order.length = 0 ∧
      (let s : State := { ready with slots := ready.slots.set 3 { marked with page := none }, pool := { ready.pool with buffers := [] } }
       (s.slotAt 3).page = none ∧ (s.slotAt 3).markers.order.length ≠ 0 ∧ s.freeBuffer = none ∧ 3 ∉ s.pool.streamWaiters)) ∧
    -- the completion, for a STREAM-STOP and for a stop that answers nothing, with a tail segment
    (∀ c ∈ [none, some (slotOf .streamStop (.streamStop 3))],
      let s : State := { chained with
        slots := ready.slots.set 3 { state := .paused, stopping := true, desc := some stream, markers := {} }, slot := c }
      s.due = some .stopComplete ∧ (s.slotAt 3).stopping = true ∧ (s.slotAt 3).markers.stop = none ∧ (s.slotAt 3).page = none ∧
        3 ∉ s.pool.streamWaiters ∧ (∀ e ∈ s.queue, e.slot ≠ 3) ∧ (∀ j, j < 3 → (s.slotAt j).stopping = false) ∧
        s.tailOf 1 0 = some 12 ∧ s.media.segs[12]? = some segment12) :=
  ⟨⟨takes_of (by decide), by decide, by decide, takes_of (by decide)⟩, by decide, by decide⟩
theorem witness_StreamClear :
    (offer (withSlot .stopped) (frame .streamClear [3])).Takes .streamClear (frame .streamClear [3]) ∧
    ((withSlot .stopped).slotAt 3).loading = false ∧
    (offer (withSlot .running) (frame .streamClear [3])).Takes .streamClear (frame .streamClear [3]) ∧
    ({ ready with media := { ready.media with mediaFull := true } } : State).liveCount
      < ({ ready with media := { ready.media with mediaFull := true } } : State).unused :=
  ⟨takes_of (by decide), by decide, takes_of (by decide), by decide⟩

/-- A STREAM-LOAD payload for slot 3 of survey 1, with a decimation. -/
def loadPayload (d : Byte) : List Byte :=
  [3, 0, 0, 0, 1, 0, 0, 255, 5, 0, 255, 0, 0, d, 0, 0, 1, 0, 64, 0, 0, 0, 0, 0, 0x10, 0, 0, 0, 0, 0, 0, 0, 0, 0, 0, 0]

theorem witness_StreamLoad :
    (∀ d ∈ [(1 : Byte), 3],
      (offer opened (frame .streamLoad (loadPayload d))).Takes .streamLoad (frame .streamLoad (loadPayload d))) ∧
    -- check 1 fails for a decimation of 3; the payload with 1 lies in range
    leVal (((loadPayload 3).drop 13).take 1) = 3 ∧
    (leVal (((loadPayload 1).drop 0).take 1) ≤ 15 ∧ leVal (((loadPayload 1).drop 7).take 1) = 255 ∧
      leVal (((loadPayload 1).drop 6).take 1) ≤ 7 ∧ leVal (((loadPayload 1).drop 18).take 2) = 64 ∧
      leVal (((loadPayload 1).drop 13).take 1) = 1 ∧ leVal (((loadPayload 1).drop 14).take 1) ≤ 24 ∧
      leVal (((loadPayload 1).drop 15).take 1) ≤ 2 ∧ leVal (((loadPayload 1).drop 24).take 1) = 0x10 ∧
      leVal (((loadPayload 1).drop 25).take 1) = 0) ∧
    -- the drive found unformatted, and checks 2 to 9 in their order
    (∀ s ∈ [({ opened with power := { ready.power with unformatted := true } } : State), withSlot .running, ready,
        { ready with table := { ready.table with surveys := [{ survey with state := .closed }] } },
        { ready with table := { ready.table with surveys := [{ survey with streamCount := 8 }] } },
        { ready with table := { ready.table with surveys := [chainedSurvey] } },
        { opened with media := { ready.media with mediaFull := true } },
        { opened with media := { ready.media with ready := [5], free := [] } }],
      (offer s (frame .streamLoad (loadPayload 1))).Takes .streamLoad (frame .streamLoad (loadPayload 1))) ∧
    (∀ s ∈ [withSlot .stopped, opened],
      (offer s { frame .streamLoad (loadPayload 1) with asked := 3 }).Takes .streamLoad { frame .streamLoad (loadPayload 1) with asked := 3 } ∧
        s.effective { frame .streamLoad (loadPayload 1) with asked := 3 } = 3) ∧
    (stream.ownerLevel < 3 ∧ survey.creator < 3 ∧ ready.confirmedSurvey 1 = none ∧ opened.confirmedSurvey 1 = some survey ∧
      (opened.slotAt 3).state = .empty ∧ survey.headOf 0 = none ∧ chainedSurvey.headOf 0 ≠ none) ∧
    (opened.media.mediaFull = false ∧ opened.media.op = none ∧
      opened.liveCount + 1 < opened.media.ready.length + opened.media.free.length + 0 - 1 ∧ [5].length + 0 - 1 ≤ opened.liveCount + 1) ∧
    -- the take from the Ready List
    (ready.media.ready = 5 :: [6, 7, 8, 9] ∧ (takeOf true .remake 0).load = true ∧ ready.media.takes = []) := by
  refine ⟨?_, by decide, by decide, ?_, ?_, by decide, by decide, by decide⟩
  · intro d h
    fin_cases h <;> exact takes_of (by decide)
  · intro s h
    fin_cases h <;> exact takes_of (by decide)
  · intro s h
    fin_cases h <;> exact ⟨takes_of (by decide), by decide⟩
theorem witness_DropMonitor :
    -- deviations of 2000 (impact), 100 (free) and 700 (held, quiet after 700, not after 800), and a code at the rail
    (let v := ready.monitor.shock
     (v.zeroX = 2048 ∧ v.zeroY = 2048 ∧ v.zeroZ = 2048) ∧
      (v.impactLevel ≤ (4048 - 2048 : Int).natAbs ∧ ¬ v.impactLevel ≤ (2148 - 2048 : Int).natAbs ∧ (2148 - 2048 : Int).natAbs ≤ v.ffWindow) ∧
      (¬ v.impactLevel ≤ (2748 - 2048 : Int).natAbs ∧ ¬ (2748 - 2048 : Int).natAbs ≤ v.ffWindow) ∧
      ((700 - 700 : Int).natAbs ≤ v.quietDelta ∧ ¬ (800 - 700 : Int).natAbs ≤ v.quietDelta) ∧
      (v.ffTime ≤ min 65535 (63 + 1) ∧ min 65535 (0 + 1) < v.ffTime ∧ v.catchTime ≤ 500 - 0 ∧ 1 - 1 < v.catchTime ∧
        v.settleTime ≤ min 65535 (65534 + 1) ∧ min 65535 (0 + 1) < v.settleTime ∧ 1 ≤ v.settleTime)) ∧
    (∀ st ∈ [MonitorState.watch, .fallWait, .falling, .impact, .settling, .verify], ∀ n ∈ [0, 63, 2047],
      ((scanning st n).due = none ∧ (scanning st n).sampler.running = some .shock ∧ (scanning st n).monitor.state = st ∧
        (scanning st n).monitor.park = true)) ∧
    ({ scanning .fallWait 0 with monitor := { (scanning .fallWait 0).monitor with park := false, drop := none } } : State).due = none ∧
    -- the judgement of VERIFY
    ((scanning .watch 0).monitor.state ≠ .verify ∧
      (∃ e ∈ ({ scanning .verify 0 with queue := [entry .suspect 0] } : State).queue, e.state = .suspect) ∧
      (∀ e ∈ ({ scanning .verify 0 with queue := [entry .waiting 0] } : State).queue, e.state = .waiting ∨ e.state = .held)) ∧
    -- the finish, and the declaration under the park flag and without it
    (ready.monitor.drop = none ∧ (scanning .verify 0).monitor.drop = some dropRecord ∧ ready.monitor.park = false ∧
      (scanning .verify 0).monitor.park = true) ∧
    -- an erase that the park flag abandons, of each kind, and an operation that runs on
    (∀ op ∈ [MediaOp.aheadErase 10, .takeErase 10, .formatErase 3, .formatErase 4, .indexErase 1], (onPort ready op).media.op = some op) ∧
    (3 < 4 ∧ 4 ≤ 4 ∧ ready.media.op = none) := by
  decide
set_option maxRecDepth 8000 in
/-- R72: the segment of an abandoned take's erase heads the Free List, its take is to be made again, and nothing starts. -/
theorem test_park_abandons_erase :
    (let s := onPort ready (.takeErase 12)
     let t := after { s with
       media := { s.media with takes := [takeOf false (.erase 12) 0] }
       sampler := { ready.sampler with running := some .shock }
       pending := [.shockScanEnd 4095 2048 2048 2000] }
     t.media.op = none ∧ t.media.free = [12, 10, 11] ∧ t.media.takes = [takeOf false .remake 0] ∧
       t.media.segs.map Segment.state = s.media.segs.map Segment.state) := by
  decide

/-- A sample frame of the stream with a sequence. -/
def sample (seq : Nat) : Frame :=
  { kind := .sample, port := 0, asked := 0, tag := 5, code := seq, timeMark := false, payload := [0x10, 1, 0, 0, 7, 0] }

theorem witness_SampleDiscarded :
    (offer ready (sample 0)).headSample = some (sample 0) ∧ (offer ready (sample 0)).due = none ∧ ready.matchSlot (sample 0) = none ∧
    ((offer State.reset (sample 0)).headSample = some (sample 0) ∧ (offer State.reset (sample 0)).due = none ∧
      State.reset.power.phase ≠ .ready ∧ State.reset.power.state ≠ .off) ∧
    (withSlot .paused).matchSlot (sample 0) = some 3 ∧
    ({ withSlot .running with slots := ready.slots.set 3 { state := .running, desc := some stream, expected := some 128 } } : State).matchSlot
      (sample 0) = some 3 ∧ 128 ≤ (0 + 256 - 128) % 256 := by
  decide
theorem witness_SampleToAdmission :
    (offer (withSlot .running) (sample 127)).due = none ∧ (withSlot .running).matchSlot (sample 127) = some 3 ∧
    (127 + 256 - 0) % 256 ≤ 127 ∧ (withSlot .running).admission 3 = none ∧
    ({ withSlot .running with gauge := { ready.gauge with holdUpPages := 0, limit := 0 } } : State).admission 3 = some .limit ∧
    ({ withSlot .running with pool := { ready.pool with buffers := [] } } : State).admission 3 = some .pool := by
  decide
/-- A slot with a fill page and an open record of one value. -/
def recording : Slot :=
  { state := .running, desc := some stream, page := some { buffer := 2, firstSeq := 0, count := 1 }
    openRec := some { sequence := 0, stamp := { seconds := 0, ticks := 0, valid := false }, timeMark := none, firstIndex := 0,
                      clipped := false, values := [7], marks := [0] } }

/-- A part whose slot 3 holds a given slot, and whose buffer 2 holds `n` bytes. -/
def filled (x : Slot) (n : Nat) : State :=
  { ready with
    slots := ready.slots.set 3 x
    pool := { ready.pool with buffers := ready.pool.buffers.set 2 { state := .filling, bytes := List.replicate n 0 } } }

theorem filled_bytes (x : Slot) (n : Nat) : ((filled x n).bufferBytes 2).length = n := by
  show (List.replicate n (0 : Byte)).length = n
  simp

theorem witness_SampleToAdmission_places :
    -- an admitted frame without and with a gap
    ((offer (withSlot .running) (sample 127)).headSample = some (sample 127) ∧ ((withSlot .running).slotAt 3).expected = none ∧
      (127 + 256 - 0) % 256 ≠ 0 ∧ leVal ((sample 0).payload.take 1) = 0x10) ∧
    -- an output that does not complete, is not kept, and is kept
    ((({} : Slot).accumulate { stream with decimation := 8 } 7).2 = none ∧
      (({} : Slot).accumulate { stream with mode := .keepOutside, low := 0, high := 9 } 7).2.any (fun o => !o.kept) = true ∧
      (({} : Slot).accumulate stream 7).2.any (fun o => o.kept) = true) ∧
    -- a page with and without room for a first sample, no page with and without a FREE buffer
    ((({} : Markers).order = [] ∧ ({ recording with openRec := none } : Slot).page = some { buffer := 2, firstSeq := 0, count := 1 }) ∧
      ((filled { recording with openRec := none } 4072).bufferBytes 2).length + 24 ≤ 4096 ∧
      4096 < ((filled { recording with openRec := none } 4076).bufferBytes 2).length + 24 ∧
      ready.freeBuffer = some 0 ∧ ({ ready with pool := { ready.pool with buffers := [] } } : State).freeBuffer = none) ∧
    -- an open record with and without room for one more, and its last one
    (((filled recording 4072).bufferBytes 2).length + 24 ≤ 4096 ∧ 4096 < ((filled recording 4076).bufferBytes 2).length + 24 ∧
      2 < stream.recordLength ∧ ({ stream with recordLength := 2 } : Descriptor).recordLength ≤ 2) ∧
    -- markers that are written, and that find no buffer
    (let s : State := { ready with slots := ready.slots.set 3 marked }
     (s.slotAt 3).markers.order ≠ [] ∧ ((s.closeOpen 3).writeMarkers 3).2 = true) ∧
    (let s : State := { ready with slots := ready.slots.set 3 { marked with page := none }, pool := { ready.pool with buffers := [] } }
     ((s.closeOpen 3).writeMarkers 3).2 = false) ∧
    -- a loss: on a slot that takes none, into a pending one, and a new one
    (({ marked with stopping := true } : Slot).markers.stop = none ∧
      ({ loss := some { stamp := { seconds := 0, ticks := 0, valid := false }, count := 65535, reason := .pool } } : Markers).loss.isSome = true ∧
      marked.markers.loss = none ∧ 3 < ready.slots.length) := by
  refine ⟨by decide, by decide, ⟨by decide, ?_, ?_, by decide, by decide⟩, ⟨?_, ?_, by decide, by decide⟩, by decide, by decide, by decide⟩
  all_goals first | (rw [filled_bytes]; done) | (rw [filled_bytes]; decide)
theorem witness_CaptureTests :
    ready.LimitInv ∧ ({ ready with gauge := { ready.gauge with level := .critical, limit := 0 } } : State).LimitInv :=
  ⟨⟨by decide, by decide⟩, ⟨by decide, by decide⟩⟩
theorem witness_Rounding :
    ({ stream with decimation := 64 } : Descriptor).decimation = 2 ^ 6 ∧ (∃ d, loadDescriptor (loadPayload 64) 0 = some d) ∧
    (-7 : Int) = -4 * 2 ^ 1 + 1 ∧ (0 : Int) ≤ 1 ∧ (1 : Int) < 2 ^ 1 :=
  ⟨by decide, ⟨_, rfl⟩, by decide, by decide, by decide⟩
theorem witness_Conditioning :
    ({ fill := 6 } : Slot).fill + 1 < ({ stream with decimation := 8 } : Descriptor).decimation ∧
    ({ stream with decimation := 8 } : Descriptor).decimation ≤ ({ fill := 7 } : Slot).fill + 1 ∧
    stream.width.highest < roundShift stream.rounding stream.totalShift (32768 * stream.gain) + stream.offset ∧
    ({ stream with mode := .keepInside } : Descriptor).mode = .keepInside := by
  decide

theorem witness_MarkerOrder :
    marked.markers.power.isSome = true ∧ marked.markers.order = [.power, .resume] ∧
    ({ ready with slots := ready.slots.set 3 marked } : State).bufferBytes 2 = [] ∧
    (({ ready with slots := ready.slots.set 3 marked } : State).writeMarker 3 .power).2 = true ∧
    (marked.markers.without .power).resume.isSome = true := by
  decide
theorem witness_MarkerOrder_writes :
    -- with room, without room, without a page
    (marked.openRec = none ∧ marked.page = some { buffer := 2, firstSeq := 0, count := 0 } ∧
      ((filled marked 4076).bufferBytes 2).length + 20 ≤ 4096 ∧ 4096 < ((filled marked 4077).bufferBytes 2).length + 20) ∧
    ({ marked with page := none } : Slot).markers.order = .power :: [.resume] ∧
    -- the writing done, and stopped without a FREE buffer
    ((({ ready with slots := ready.slots.set 3 marked } : State).closeOpen 3).writeMarkers 3).2 = true ∧
    (let s : State := { ready with slots := ready.slots.set 3 { marked with page := none }, pool := { ready.pool with buffers := [] } }
     (s.writeMarker 3 .power).2 = false ∧ ((s.closeOpen 3).writeMarkers 3).2 = false) := by
  refine ⟨⟨by decide, by decide, ?_, ?_⟩, by decide, by decide, by decide⟩
  all_goals first | (rw [filled_bytes]; done) | (rw [filled_bytes]; decide)
theorem witness_MarkersMerge :
    marked.takesMarkers = true ∧ ({ marked with stopping := true } : Slot).takesMarkers = false ∧ marked.markers.resume.isSome = true ∧
    marked.markers.pause = none ∧
    ({ gap := some { stamp := { seconds := 0, ticks := 0, valid := false }, index := 0, count := 65535 } } : Markers).gap.isSome = true := by
  decide
theorem witness_SurveyOpen :
    (offer ready (frame .surveyOpen [3, 3, 126])).Takes .surveyOpen (frame .surveyOpen [3, 3, 126]) ∧
    (offer ready (frame .surveyOpen [4, 0, 31])).Takes .surveyOpen (frame .surveyOpen [4, 0, 31]) ∧
    (offer { ready with power := { ready.power with unformatted := true } } (frame .surveyOpen [0, 0, 65])).Takes .surveyOpen
      (frame .surveyOpen [0, 0, 65]) ∧
    65536 ≤ ({ ready.table with nextNumber := 65536 } : SurveyTable).nextNumber :=
  ⟨takes_of (by decide), takes_of (by decide), takes_of (by decide), by decide⟩

/-- Survey 1 CLOSING, all its streams stopped. -/
def closing : State := { ready with table := { ready.table with surveys := [{ survey with state := .closing }] } }

/-- Survey 1 CLOSED. -/
def closed : State :=
  { ready with table := { ready.table with surveys := [{ survey with state := .closed, closed := some { seconds := 1, ticks := 0, valid := false } }] } }

theorem witness_SurveyClose :
    (offer (withSlot .running) (frame .surveyClose [1, 0])).Takes .surveyClose (frame .surveyClose [1, 0]) ∧
    (offer (withSlot .running) (frame .surveyClose [0, 0])).Takes .surveyClose (frame .surveyClose [0, 0]) ∧
    (withSlot .running).confirmedSurvey 1 = some survey ∧
    (offer opened { frame .surveyClose [1, 0] with asked := 1 }).Takes .surveyClose { frame .surveyClose [1, 0] with asked := 1 } ∧
    survey.creator < opened.effective { frame .surveyClose [1, 0] with asked := 1 } ∧
    (offer closed (frame .surveyClose [1, 0])).Takes .surveyClose (frame .surveyClose [1, 0]) ∧
    (offer ready (frame .surveyClose [2, 0])).Takes .surveyClose (frame .surveyClose [2, 0]) ∧ ready.confirmedSurvey 2 = none ∧
    (closing.due = some .surveyClosedEntryRequest ∧
      (∀ x ∈ closing.slots, ¬ (x.state = .loaded ∨ x.state = .running ∨ x.state = .paused)) ∧
      closing.table.surveys = [] ++ { survey with state := .closing } :: []) ∧
    (let s : State := { ready with table := { ready.table with surveys := [survey] ++ { survey with number := 2, state := .closing } :: [] } }
     s.due = some .surveyClosedEntryRequest ∧ ∀ w ∈ [survey], w.state ≠ .closing) :=
  ⟨takes_of (by decide), takes_of (by decide), by decide, takes_of (by decide), by decide, takes_of (by decide), takes_of (by decide),
    by decide, by decide, by decide⟩
theorem witness_SurveyClose_stops :
    ∀ x ∈ [marked, recording, { recording with state := .paused, reason := some .reserve }],
      let s : State := { ready with slots := ready.slots.set 3 x }
      3 < s.slots.length ∧ (s.slotAt 3).desc = some stream ∧ ((s.slotAt 3).openRec.isSome = true → (s.slotAt 3).page.isSome = true) := by
  decide
theorem witness_SurveyEntries :
    (offer closed (frame .surveyThresholds [1, 0, 255, 0])).Takes .surveyThresholds (frame .surveyThresholds [1, 0, 255, 0]) ∧
    (offer closed (frame .surveyThresholds [1, 0, 3, 255])).Takes .surveyThresholds (frame .surveyThresholds [1, 0, 3, 255]) ∧
    (offer closed (frame .surveyLock [1, 0])).Takes .surveyLock (frame .surveyLock [1, 0]) ∧
    (offer opened (frame .surveyLock [1, 0])).Takes .surveyLock (frame .surveyLock [1, 0]) ∧
    (offer closed (frame .surveyErase [1, 0])).Takes .surveyErase (frame .surveyErase [1, 0]) ∧
    (offer opened { frame .surveyErase [1, 0] with port := 1 }).Takes .surveyErase { frame .surveyErase [1, 0] with port := 1 } ∧
    survey.eraseThreshold < opened.effective { frame .surveyErase [1, 0] with port := 1 } ∧
    (offer ready (frame .surveyErase [0, 0])).Takes .surveyErase (frame .surveyErase [0, 0]) :=
  ⟨takes_of (by decide), takes_of (by decide), takes_of (by decide), takes_of (by decide), takes_of (by decide), takes_of (by decide),
    by decide, takes_of (by decide)⟩
theorem witness_SurveyReads :
    (offer ready (frame .surveyList [63])).Takes .surveyList (frame .surveyList [63]) ∧
    (offer ready (frame .surveyList [64])).Takes .surveyList (frame .surveyList [64]) ∧
    (offer chained (frame .readRecords [1, 0, 0, 4, 0, 0, 0, 0, 255, 255, 0, 0])).Takes .readRecords
      (frame .readRecords [1, 0, 0, 4, 0, 0, 0, 0, 255, 255, 0, 0]) ∧
    (chained.confirmedSurvey 1).any (fun v => v.headOf 0 == some 12) = true ∧ chained.nextOf 12 = none ∧ 1 ≤ chained.lastPageOf 12 ∧
    (offer chained (frame .readRecords [1, 0, 8, 4, 0, 0, 0, 0, 255, 255, 0, 0])).Takes .readRecords
      (frame .readRecords [1, 0, 8, 4, 0, 0, 0, 0, 255, 255, 0, 0]) :=
  ⟨takes_of (by decide), takes_of (by decide), takes_of (by decide), by decide, by decide, by decide, takes_of (by decide)⟩
/-- A part with one chain over all its data segments, 4 to 99, each of one page. -/
def longChain : State :=
  { chained with
    table := { ready.table with surveys := [{ chainedSurvey with heads := survey.heads.set 0 (some 4) }] }
    media := { chained.media with segs := (List.range 100).map (fun g =>
      { state := .full, headerFailed := false
        chain := some { survey := 1, index := 0, seq := g - 4, firstSeq := 0, next := if g < 99 then some (g + 1) else none,
                        writePoint := 2, voids := 0 } }) } }

set_option maxRecDepth 20000 in
theorem witness_SurveyReads_walk :
    -- a hint that passes, one that does not, and none
    (∀ h ∈ [(12 : Byte), 3, 255],
      (offer longChain (frame .readRecords [1, 0, 0, 4, 0, 0, 0, 0, h, if h = 255 then 255 else 0, 0, 0])).Takes .readRecords
        (frame .readRecords [1, 0, 0, 4, 0, 0, 0, 0, h, if h = 255 then 255 else 0, 0, 0])) ∧
    ((longChain.chainAt 12).any (fun x => x.survey == 1 && x.index == 0 && x.firstSeq == 0) = true ∧ 4 ≤ 12 ∧ 12 < longChain.media.segs.length ∧
      (longChain.confirmedSurvey 1).any (fun v => v.headOf 0 == some 4) = true) ∧
    -- a walk that ends at the chain's tail, and one of 64 links with a 65th to follow
    (((95 :: [96, 97, 98, 99]).getLast? = some 99 ∧ longChain.nextOf 99 = none) ∧
      List.IsChain (fun a g => longChain.nextOf a = some g ∧ longChain.segFirstSeq g ≤ 0) (95 :: [96, 97, 98, 99])) ∧
    (List.IsChain (fun a g => longChain.nextOf a = some g ∧ longChain.segFirstSeq g ≤ 0) (4 :: (List.range 64).map (fun k => k + 5)) ∧
      ((List.range 64).map (fun k => k + 5)).length = 64 ∧ (4 :: (List.range 64).map (fun k => k + 5)).getLast? = some 68 ∧
      longChain.nextOf 68 = some 69 ∧ longChain.segFirstSeq 69 ≤ 0) ∧
    -- the search: from a segment with a written page, past one without, and with none on the path
    (1 ≤ longChain.lastPageOf 12 ∧ ready.lastPageOf 12 = 0) := by
  refine ⟨?_, by decide, by decide, by decide, by decide⟩
  intro h hh
  fin_cases hh <;> exact takes_of (by decide)
theorem witness_SettingsCommands :
    -- SET-LEVELS: above level 0, a level out of range, a scope out of range, scope PRESENT, scope STORED without and with a level 0
    (∀ p ∈ [([1, 255, 4, 0, 1] : List Byte), [3, 255, 3, 0, 1], [1, 255, 3, 0, 1], [2, 3, 3, 3, 3], [2, 255, 3, 0, 1]],
      (offer ready (frame .setLevels p)).Takes .setLevels (frame .setLevels p)) ∧
    (offer ready { frame .setLevels [1, 0, 0, 0, 0] with asked := 1 }).Takes .setLevels { frame .setLevels [1, 0, 0, 0, 0] with asked := 1 } ∧
    (0 ∉ List.zipWith (fun l n => n.getD l) ready.table.stored [some 3, some 3, some 3, some 3] ∧
      0 ∈ List.zipWith (fun l n => n.getD l) ready.table.stored [none, some 3, some 0, some 1]) ∧
    -- the drive found unformatted, and a formatted one
    (∀ s ∈ [({ ready with power := { ready.power with unformatted := true } } : State), ready],
      (offer s (frame .setLevels [2, 255, 3, 0, 1])).Takes .setLevels (frame .setLevels [2, 255, 3, 0, 1]) ∧
      (offer s (frame .setShock (List.replicate 20 255))).Takes .setShock (frame .setShock (List.replicate 20 255)) ∧
      (offer s (frame .setGauge (List.replicate 24 0))).Takes .setGauge (frame .setGauge (List.replicate 24 0))) ∧
    (offer ready { frame .setShock (List.replicate 20 255) with asked := 2 }).Takes .setShock
      { frame .setShock (List.replicate 20 255) with asked := 2 } ∧
    (offer ready { frame .setGauge (List.replicate 24 0) with asked := 2 }).Takes .setGauge
      { frame .setGauge (List.replicate 24 0) with asked := 2 } ∧
    leVal (([255, 255] : List Byte).drop 0 |>.take 2) = 2 ^ (8 * 2) - 1 := by
  refine ⟨?_, takes_of (by decide), by decide, ?_, takes_of (by decide), takes_of (by decide), by decide⟩
  · intro p h
    fin_cases h <;> exact takes_of (by decide)
  · intro s h
    fin_cases h <;> exact ⟨takes_of (by decide), takes_of (by decide), takes_of (by decide)⟩
theorem witness_DozeAndWake :
    (offer (withSlot .paused) (frame .doze [])).Takes .doze (frame .doze []) ∧ (∀ x ∈ (withSlot .paused).slots, x.state ≠ .running) ∧
    (withSlot .paused).power.state = .active ∧
    (∀ s ∈ [withSlot .running, { ready with power := { ready.power with state := .doze } }, inProcedure ready (.shutdown .entry)],
      (offer s (frame .doze [])).Takes .doze (frame .doze [])) ∧
    ({ ready with power := { ready.power with idleDue := true } } : State).due = some .idleTimerExpiry ∧
    -- the completion: with an operation in flight, with the hold taken, and at once; for cause COMMAND suppressed or not
    ((inProcedure (onPort ready (.aheadErase 10)) (.dozeEntry .command)).due = some .dozeEntryComplete ∧ ready.media.hold = false ∧
      ready.pool.streamWaiters = [] ∧ ready.queue = [] ∧ ready.monitor.state = .watch ∧ ready.log.waiting = [] ∧ ready.log.rollover = .none) ∧
    (∀ c ∈ [slotOf .doze .doze, { slotOf .doze .doze with suppressed := true }], ∀ cause ∈ [DozeCause.idle, .command],
      ({ inProcedure ready (.dozeEntry cause) with slot := some c, media := { ready.media with hold := true } } : State).due
          = some .dozeEntryComplete ∧
      ({ inProcedure ready (.dozeEntry cause) with slot := some c } : State).due = some .dozeEntryComplete) ∧
    (∀ asked ∈ [true, false], ({ ready with
      power := { ready.power with state := .doze, procedure := .wakeWait, shutdownAsked := asked } } : State).due = none) := by
  refine ⟨takes_of (by decide), by decide, by decide, ?_, by decide, by decide, by decide, by decide⟩
  intro s h
  fin_cases h <;> exact takes_of (by decide)
theorem witness_FormatStart :
    (offer ready (frame .format [64, 0])).Takes .format (frame .format [64, 0]) ∧
    (∀ x ∈ ready.slots, ¬ (x.state = .loaded ∨ x.state = .running ∨ x.state = .paused ∨ x.loading = true)) ∧
    (∀ e ∈ ready.log.waiting, e.issued = false) ∧ ready.media.op = none ∧
    (offer (onPort ready (.aheadErase 10)) (frame .format [64, 0])).Takes .format (frame .format [64, 0]) ∧
    (offer (withSlot .running) (frame .format [64, 0])).Takes .format (frame .format [64, 0]) ∧
    (offer ready { frame .format [64, 0] with asked := 1 }).Takes .format { frame .format [64, 0] with asked := 1 } ∧
    -- an entry in flight with the port idle, and waiting DROP and POWER-DOWN entries that are not
    (∀ e ∈ [{ pendingEntry 0 with body := .drop dropRecord }, { pendingEntry 0 with body := .drop dropRecord, issued := false },
        { pendingEntry 0 with body := .powerDown, issued := false }],
      (offer { inProcedure ready (.shutdown .entry) with log := { ready.log with waiting := [e], stage := .request } }
        (frame .format [64, 0])).Takes .format (frame .format [64, 0])) := by
  refine ⟨takes_of (by decide), by decide, by decide, by decide, takes_of (by decide), takes_of (by decide), takes_of (by decide), ?_⟩
  intro e h
  fin_cases h <;> exact takes_of (by decide)
theorem witness_GrantAndRetire :
    ready.freeBuffer = some 0 ∧
    ({ ready with pool := { ready.pool with indexWaiters := [.entry] } } : State).due = some .bufferGrant ∧
    ({ ready with pool := { ready.pool with streamWaiters := [3] } } : State).due = some .bufferGrant ∧
    ({ ready with queue := [entry .held 7, entry .held 8] } : State).queue = [entry .held 7] ++ entry .held 8 :: [] ∧
    (∀ x ∈ [entry .held 7], ¬ (x.state = .held ∧ 8 ≤ x.retire)) ∧ ready.monitor.state = .watch ∧
    ({ ready with queue := [entry .held 7, entry .held 8], monitor := { ready.monitor with watchCount := 8 } } : State).due = some .retire := by
  decide
theorem witness_GrantAndRetire_grants :
    (let s : State := { ready with slots := ready.slots.set 3 { marked with page := none } }
     s.freeBuffer = some 0 ∧ 3 < s.slots.length ∧ (s.slotAt 3).desc = some stream ∧ (s.slotAt 3).openRec = none ∧ (s.slotAt 3).page = none ∧
       (s.slotAt 3).markers.order ≠ []) ∧
    -- an entry before and at the end of its segment, with and without a candidate; a snapshot
    (∀ l ∈ [ready.log, { ready.log with writePoint := 255 }, { ready.log with writePoint := 256 },
        { ready.log with writePoint := 256, unusable := [1, 2, 3] }],
      ({ ready with
        pool := { ready.pool with indexWaiters := [.entry] }
        log := { l with waiting := [{ pendingEntry 0 with buffer := none }], stage := .waitBuffer } } : State).due = some .bufferGrant) ∧
    (ready.log.candidate = some 1 ∧ ({ ready.log with unusable := [1, 2, 3] } : IndexLog).candidate = none) ∧
    ({ ready with pool := { ready.pool with indexWaiters := [.snapshot] }, log := { ready.log with rollover := .waitBuffer 1 } } : State).due
      = some .bufferGrant := by
  decide
theorem witness_GrantAndRetire_drain :
    ((entry .held 0).state ≠ .waiting ∧ (entry .waiting 0).state = .waiting ∧ (3 : Nat) ∈ [3] ∧ (3 : Nat) ∉ ([] : List Nat)) ∧
    (chained.tailOf 1 0 = some 12 ∧ chained.media.segs[12]? = some segment12 ∧ segment12.state = .active ∧
      segment12.chain.any (fun c => decide (c.writePoint ≤ 255)) = true ∧ ready.tailOf 1 0 = none) ∧
    -- a take from each list, on an erase-ahead, and refused: for a load, for a stream marked and not
    (ready.media.ready = 5 :: [6, 7, 8, 9] ∧ (onPort ready (.aheadErase 10)).media.op = some (.aheadErase 10) ∧
      ready.media.free = 10 :: [11] ∧ (takeOf true .remake 0).load = true ∧ (takeOf false .remake 0).load = false ∧
      (takeOf false .remake 0).slot ∈ [3] ∧ (takeOf false .remake 0).slot ∉ ready.media.segWaiters) := by
  decide
theorem witness_MediaEnds :
    (onPort ready (.dataProgram 2 12 1)).due = none ∧ Flash.wf ready.media.flash = true ∧
    ({ onPort ready (.dataProgram 2 12 1) with media := { (onPort ready (.dataProgram 2 12 1)).media with image := some ⟨[], []⟩ } } : State).media.image
      = some ⟨[], []⟩ ∧
    (onPort ready (.aheadErase 10)).due = none ∧ (onPort ready (.mountRead 0 0)).due = none := by
  decide
theorem witness_TimeoutIsFailure :
    ready.due = none ∧ (onPort ready (.headerProgram 5)).due = none ∧ (onPort ready (.indexProgram 0 1)).due = none ∧
    (onPort ready (.snapshotProgram 1)).due = none ∧ (onPort ready (.engineRead 12 1 true)).due = none := by
  decide
theorem witness_DataPageEnds :
    (onPort { chained with queue := [entry .programming 0] } (.dataProgram 2 12 1)).due = none ∧
    ({ chained with queue := [entry .programming 0] } : State).entryAt 2 = some (entry .programming 0) ∧
    (chained.media.segs[12]?).any (fun x => x.chain.isSome) = true ∧
    (onPort { chained with queue := [entry .verifying 0] } (.verifyRead 2 12 1)).due = none ∧
    -- a match
    (let e := { entry .verifying 0 with used := 20 }
     let s : State := { onPort chained (.verifyRead 2 12 1) with queue := [e] }
     let t := trailerOf (trailer 2 0).bytes
     s.due = none ∧ s.entryAt 2 = some e ∧ judgePage s.media.generation (outcomeImage (returned 2 0 []) s.media.flash 12 1) = .valid t [] ∧
       [] = s.bufferBytes 2 ∧ (t.survey = e.survey ∧ t.index = e.index ∧ t.firstSeq = e.firstSeq ∧ t.count = e.count ∧ t.used = e.used ∧
       t.rewrite = e.rewrite) ∧ (s.media.segs[12]?).any (fun x => x.chain.any (fun c => t.seq == c.seq)) = true) ∧
    -- a mismatch, with an entry before and two behind, one of them SUSPECT and of the same stream
    (let before := [{ entry .held 0 with buffer := 1 }]
     let after := [{ entry .suspect 0 with buffer := 3 }, { entry .suspect 0 with buffer := 4, slot := 5 }]
     let s : State := { chained with queue := before ++ entry .verifying 0 :: after }
     (onPort s (.verifyRead 2 12 1)).due = none ∧ s.entryAt 2 = some (entry .verifying 0) ∧ (∀ x ∈ before, x.buffer ≠ 2) ∧
       judgePage s.media.generation (outcomeImage .failed s.media.flash 12 1) = .failed) :=
  ⟨by decide, by decide, by decide, by decide,
    ⟨by decide, by decide, returned_valid 2 0 [] (by decide) _ _ _, by decide, by decide, by decide⟩, by decide⟩
theorem witness_HeaderEnds :
    (onPort chained (.headerProgram 5)).due = none ∧
    ([takeOf false (.header 5) 0].find? (fun u => u.phase == .header 5)) = some (takeOf false (.header 5) 0) ∧
    (chained.media.segs[5]?).isSome = true ∧ chained.tailOf 1 0 = some 12 ∧ (12 ≠ 5) ∧ (chained.media.segs[12]?).any (fun y => y.chain.isSome) = true ∧
    (({ chained with slot := some (slotOf .streamLoad (.streamLoad 3 stream)) } : State).takeDescriptor (takeOf true (.header 5) 0)) = some stream ∧
    3 < chained.slots.length ∧ 1 ≤ (takeOf true (.header 5) 1).headerFails := by
  decide
theorem witness_EraseEnds :
    (onPort ready (.aheadErase 10)).due = none ∧ (ready.media.segs[10]?).isSome = true ∧ ready.media.takes = [] ∧
    ([takeOf true .onAhead 0].filter (fun t => t.phase == .onAhead)) = takeOf true .onAhead 0 :: [] ∧
    ([takeOf true (.erase 10) 0].find? (fun u => u.phase == .erase 10)) = some (takeOf true (.erase 10) 0) ∧
    (∀ g ∈ [3, 4, 62], ({ onPort ready (.formatErase g) with formatRun := some { stage := .erasing g, n := 64 } } : State).due = none ∧
      (ready.media.segs[g]?).isSome = true ∧ g + 1 < 64) := by
  decide
theorem witness_EraseEnds_last :
    ∀ g ∈ [3, 4, 63], ∀ l ∈ [{ ready.log with current := none }, { ready.log with current := none, unusable := [0, 1, 2, 3] }],
      ({ onPort ready (.formatErase g) with log := l, formatRun := some { stage := .erasing g, n := g + 1 } } : State).due = none ∧
        (ready.media.segs[g]?).isSome = true ∧ g + 1 ≤ g + 1 := by
  decide
theorem witness_RolloverEnds :
    (onPort ready (.indexErase 1)).due = none ∧ ready.freeBuffer = some 0 ∧
    ({ ready.log with unusable := [1], rollover := .none } : IndexLog).candidate = some 2 ∧
    ({ ready.log with unusable := [2, 3] ++ [1], rollover := .none } : IndexLog).candidate = none ∧
    (∀ r ∈ [none, some { stage := .waiting, n := 64 }],
      ({ onPort ready (.snapshotProgram 1) with log := { ready.log with rollover := .program 1 0 }, formatRun := r } : State).due = none) ∧
    (∀ r ∈ [some { stage := .rollover, n := 64 }, some { stage := .waiting, n := 64 }],
      ({ onPort ready (.indexErase 1) with log := { ready.log with unusable := [2, 3] }, formatRun := r } : State).due = none) ∧
    ({ onPort ready (.snapshotProgram 1) with
      log := { ready.log with rollover := .program 1 0 }
      slot := some (slotOf .format .format)
      formatRun := some { stage := .rollover, n := 64 } } : State).due = none := by
  decide
theorem witness_RolloverEnds_parts :
    ({ onPort ready (.indexErase 1) with pool := { ready.pool with buffers := [] } } : State).due = none ∧
    ({ ready with pool := { ready.pool with buffers := [] } } : State).freeBuffer = none ∧
    -- the ring from 3 with 0 unusable, none left, and the order without a current segment
    ((∀ j, 1 ≤ j → j < 2 → (3 + j) % 4 ∈ [0]) ∧ (3 + 2) % 4 ∉ [0]) ∧ (∀ k, 1 ≤ k → k ≤ 3 → (3 + k) % 4 ∈ [0, 1, 2]) ∧
    ((∀ j, j < 1 → j ∈ [0]) ∧ 1 ∉ [0]) ∧ (∀ k, k ≤ 3 → k ∈ [0, 1, 2, 3]) ∧ ready.log.waiting = [] ∧ ready.formatRun = none := by
  refine ⟨by decide, by decide, ⟨fun j h1 h2 => ?_, by decide⟩, fun k h1 h2 => ?_, ⟨fun j h => ?_, by decide⟩, fun k h => ?_, by decide, by decide⟩
  · interval_cases j; decide
  · interval_cases k <;> decide
  · interval_cases j; decide
  · interval_cases k <;> decide

theorem witness_ReadEnds :
    ({ onPort chained (.engineRead 12 4 false) with engine := some (context (.search 0 1 8 none 4 4)) } : State).due = none ∧
    (onPort chained (.engineRead 12 4 true)).due = none ∧
    (chained.usable (context (.search 0 1 8 none 4 4)) 12 (dataPage 0)).isSome = true ∧ (0 ≤ 0 ∧ 4 + 1 ≤ 8) ∧
    (chained.usable (context (.search 0 1 8 none 4 4)) 12 (dataPage 1)).isSome = true ∧ (0 < 1 ∧ 1 ≤ 4 - 1) ∧
    (7 + 1 ≤ chained.lastPageOf ((context (.scan 0 7)).segAt 0) ∧ (chained.usable (context (.scan 0 7)) 12 .void).isNone = true) ∧
    ((chained.usable { context (.scan 0 7) with wanted := 1 } 12 (dataPage 0)) = some (trailerOf (trailer 2 0).bytes) ∧ 0 + 1 ≤ 1) ∧
    (bestCandidate none (candidateOf 3 none) = none) ∧
    (bestCandidate (some { segment := 0, formatGeneration := 1, indexGeneration := 1, data := [] }) none).isSome = true ∧
    (∀ next ∈ [0, 3], ({ onPort ready (.mountRead next 0) with mount := .heads next none } : State).due = none) ∧
    (State.reset.media.ready = [] ∧ State.reset.media.free = []) ∧
    (({ onPort opened (.mountRead 62 0) with mount := .headers 62 } : State).due = none ∧ 62 + 1 < opened.media.segs.length ∧
      opened.surveyAt 1 = some survey ∧
      judgePage 1 (outcomeImage (returned 1 0 []) [] 62 0) = .valid (trailerOf (trailer 1 0).bytes) [] ∧
      (trailerOf (trailer 1 0).bytes).kind = 1 ∧ (trailerOf (trailer 1 0).bytes).index ≤ 7 ∧ (trailerOf (trailer 1 0).bytes).survey = 1) := by
  refine ⟨by decide, by decide, by decide, by decide, by decide, by decide, by decide, by decide, by decide, by decide, by decide, by decide,
    by decide, by decide, by decide, returned_valid 1 0 [] (by decide) _ _ _, by decide⟩
theorem witness_ReadEnds_forward :
    (chained.media.segs[12]? = some segment12 ∧ segment12.chain.isSome = true) ∧
    -- a page in the segment, and past it: on the path, at the chain's end, along the last link allowed, and along one too many
    (0 < (context (.scan 0 8)).path.length ∧ (context (.scan 0 8)).links ≤ 64 ∧ 8 ≤ chained.lastPageOf 12 ∧ chained.lastPageOf 12 < 9 ∧
      0 + 1 < [12, 13].length ∧ 0 + 1 = [12].length ∧ chained.nextOf 12 = none ∧ longChain.nextOf 12 = some 13 ∧
      ({ context (.scan 0 8) with links := 64 } : ReadContext).links = 64 ∧ ({ context (.scan 0 8) with links := 63 } : ReadContext).links < 64) ∧
    -- a record below the wanted one, the last of the maximum, one more, and one that does not fit
    ((0 < ({ context (.scan 0 8) with wanted := 1 } : ReadContext).wanted ∧ (context (.scan 0 8)).wanted ≤ 0) ∧
      (context (.scan 0 8)).maximum ≤ 0 + 1 ∧ 0 + 1 < ({ context (.scan 0 8) with maximum := 2 } : ReadContext).maximum ∧
      16 + 4 + ((zeros 20).take (recordSizeAt (zeros 20) 0)).length ≤ 2048 ∧ recordSizeAt (zeros 20) 0 = 20 ∧
      2048 < 16 + 4 + recordSizeAt [1, 0, 0, 4] 0) ∧
    -- the end, and its hint
    (slotOf .readRecords .readRecords).suppressed = false ∧
    ((context (.scan 0 8)).path = [] ++ 12 :: [] ∧ chained.segFirstSeq 12 ≤ (context (.scan 0 8)).wanted) ∧
    (({ chained with media := { ready.media with segs := ready.media.segs.set 12 { segment12 with
      chain := some { survey := 1, index := 0, seq := 0, firstSeq := 5, next := none, writePoint := 9, voids := 0 } } } } : State).segFirstSeq 12
      = 5) := by
  decide
theorem witness_ReadEnds_engine :
    (∀ p ∈ [EnginePhase.search 0 1 8 none 4 4, .search 0 4 4 (some 3) 4 4, .search 0 4 8 none 4 8, .search 1 1 8 none 1 1, .scan 0 7,
        .decide { at_ := 0, page := 6, firstSeq := 0, count := 1 } 0 7],
      ({ onPort chained (.engineRead 12 4 false) with engine := some (context p) } : State).due = none) ∧
    -- the search: an unusable page, one past the last, and the bounds crossed upward and downward
    ((chained.usable (context (.scan 0 7)) 12 .void).isNone = true ∧ 4 + 1 ≤ chained.lastPageOf 12 ∧ chained.lastPageOf 12 < 8 + 1 ∧
      4 < 4 + 1 ∧ 4 - 1 < 4 ∧ 1 ≤ 4 - 1 ∧ 1 - 1 < 1) ∧
    -- the scan: a page with a wanted record
    ((chained.usable (context (.scan 0 7)) 12 (dataPage 0)).any (fun t => decide ((context (.scan 0 7)).wanted < t.firstSeq + t.count)) = true) ∧
    -- the decision: a first program, a rewrite of the held page, and one of another
    (∀ q ∈ [(false, 0), (true, 0), (true, 1)],
      (chained.usable (context (.scan 0 7)) 12 (.valid { trailer 2 q.2 with rewrite := q.1 } [])).any
        (fun t => decide (t.rewrite = q.1 ∧ t.firstSeq = q.2)) = true) := by
  decide
theorem witness_IndexEntries :
    (ready.log.failed = false ∧ ready.power.unformatted = false ∧ ready.log.waiting = [] ∧ ready.log.stage = .idle ∧
      ready.log.rollover = .none ∧ ready.log.forceRollover = false ∧ ready.log.current = some 0 ∧ ready.log.writePoint ≤ 255 ∧
      ready.formatRun = none ∧ ready.freeBuffer = some 0 ∧ ready.pool.indexWaiters = [] ∧ ready.pool.streamWaiters = []) ∧
    -- a log at another entry, and 15 DROP entries waiting
    (let l : IndexLog := { ready.log with waiting := List.replicate 15 { pendingEntry 0 with body := .drop dropRecord }, stage := .inFlight }
     l.stage ≠ .idle ∧ l.waiting.countP (fun e => e.body.isDrop) < 16 ∧ State.reset.log.current = none) ∧
    -- the end of each entry's program, with and without a command in the Operation Slot
    (∀ n ≤ 1, ∀ b ∈ [EntryBody.surveyLocked 1, .thresholdsSet 1 0 0, .surveyErased 1, .ports [0, 2, 2, 1], .shock {}, .gauge {}, .powerDown,
        .surveyOpened survey.record, .surveyClosed survey.record],
      ∀ c ∈ [none, some (slotOf .setLevels (.setLevels [none, some 3, none, none]))],
      ({ onPort closed (.indexProgram 0 1) with
        slot := c, log := { closed.log with waiting := [{ pendingEntry n with body := b }], stage := .inFlight } } : State).due = none) := by
  decide
theorem witness_IndexEntries_effects :
    -- the log goes on: with the head's buffer, without one, and with a buffer that is FREE for it or for others
    (∀ l ∈ [{ ready.log with waiting := [pendingEntry 0] }, { ready.log with waiting := [{ pendingEntry 0 with buffer := none }] }],
      l.current ≠ none ∧ l.stage = .idle ∧ l.rollover = .none ∧ l.forceRollover = false ∧ l.writePoint ≤ 255) ∧
    (ready.formatRun = none ∧ ready.freeBuffer = some 0 ∧ ({ ready with pool := { ready.pool with buffers := [] } } : State).freeBuffer = none ∧
      ({ ready.pool with streamWaiters := [3] } : Pool).streamWaiters ≠ []) ∧
    -- a durable SURVEY-ERASED with media-full to clear and to stay, and gauge settings below and at Remaining
    (∀ l ∈ [[10, 11], []],
      let s : State := { onPort closed (.indexProgram 0 1) with
        media := { (onPort closed (.indexProgram 0 1)).media with mediaFull := true, ready := [], free := l }
        log := { closed.log with waiting := [{ pendingEntry 0 with body := .surveyErased 1 }], stage := .inFlight } }
      s.due = none ∧ s.media.mediaFull = true ∧ (s.slots.countP (fun x => x.live || x.loading) < l.length ∨ l = [])) ∧
    (({} : GaugeSettings).capacity < ({} : GaugeSettings).capacity + 1 ∧
      ({ Gauge.reset with remaining := ({} : GaugeSettings).capacity } : Gauge).remaining ≤ ({} : GaugeSettings).capacity) ∧
    (pendingEntry 1).failures ≠ 0 := by
  decide
theorem witness_TickBoundary :
    ready.due = none ∧ ready.clock.ticks < 1023 ∧ ({ ready with clock := { ready.clock with ticks := 1023 } } : State).due = none ∧
    ready.power.state = .active ∧
    ({ ready with power := { ready.power with state := .doze }, sampler := { ready.sampler with divider := 2 } } : State).due = none ∧
    ({ ready with power := { ready.power with state := .doze }, sampler := { ready.sampler with divider := 3 } } : State).due = none ∧
    ({ ready with power := { ready.power with state := .off } } : State).due = none ∧ ready.idleHeld = false ∧
    (withSlot .running).idleHeld = true := by
  decide
theorem witness_Triggers :
    ({ ready.sampler with shockDue := true } : Sampler).shockDue = true ∧ ready.sampler.running = none ∧
    ({ ready.sampler with running := some .shock } : Sampler).running = some .shock ∧
    ({ ready.sampler with running := some (.gauge 5 false) } : Sampler).running ≠ none ∧ ready.sampler.pendingShock = false ∧
    ({ ready.sampler with countdown := 0, selfCheckCounter := 62 } : Sampler).selfCheckCounter < 63 ∧
    63 ≤ ({ ready.sampler with countdown := 0, selfCheckCounter := 63 } : Sampler).selfCheckCounter ∧ ready.power.state ≠ .off ∧
    ready.sampler.shockDue = false ∧ ready.sampler.pendingGauge = none ∧
    (let m : Sampler := { ready.sampler with countdown := 0, shockDue := true }
     m.countdown = 0 ∧ m.shockDue = true ∧ m.running = none ∧ m.pendingGauge = none) ∧
    ({ ready with sampler := { ready.sampler with running := some .startUp } } : State).due = none := by
  decide
theorem witness_Triggers_next :
    ({ ready.sampler with pendingShock := true } : Sampler).pendingShock = true ∧ PowerState.doze ≠ .off ∧ ready.sampler.pendingShock = false ∧
    (∀ n ∈ [62, 63], ({ ready.sampler with pendingGauge := some 5, selfCheckCounter := n } : Sampler).pendingGauge = some 5) ∧
    ready.sampler.pendingGauge = none := by
  decide
theorem witness_ShockScan :
    ({ ready with sampler := { ready.sampler with running := some .shock } } : State).due = none ∧ ready.sampler.fault = false ∧
    ready.monitor.state = .watch ∧ ready.monitor.drop = none ∧ (1640 ≤ ((3688 : Int) - 2048).natAbs) ∧
    (((2168 : Int) - 2048).natAbs ≤ 120 ∧ ¬ 1640 ≤ ((2168 : Int) - 2048).natAbs) ∧
    (¬ ((2169 : Int) - 2048).natAbs ≤ 120 ∧ ¬ 1640 ≤ ((3687 : Int) - 2048).natAbs) ∧ 1 ≤ ready.monitor.shock.settleTime := by
  decide
theorem witness_GaugeScan :
    ({ ready with sampler := { ready.sampler with running := some (.gauge 1024 false) } } : State).due = none ∧
    ({ ready with sampler := { ready.sampler with running := some (.gauge 1024 true) } } : State).due = none ∧
    (ready.sampler.fault = false ∧ (8 < 9 ∨ 4095 < 4087) ∧ ¬ (8 < 8 ∨ 4087 < 4087)) ∧
    -- a pack below and at the pack-present minimum, and the estimate pending, in and out of the INDEX phase
    ((833 * 12 / 5 < ready.gauge.settings.packPresent) ∧ ¬ (834 * 12 / 5 < ready.gauge.settings.packPresent) ∧ ready.power.phase ≠ .index ∧
      ready.gauge.estimatePending = true) ∧
    -- the charge of 1024 ticks: a step of none, down with and without enough left, up with and without room
    ((-368640 < (0 + 100 * 1024 : Int) ∧ (0 + 100 * 1024 : Int) < 368640) ∧ 368640 ≤ (0 + 400 * 1024 : Int) ∧ (0 + -400 * 1024 : Int) ≤ -368640 ∧
      (409600 / 368640 ≤ 20000 ∧ 0 < 409600 / 368640 ∧ 20000 + 409600 / 368640 ≤ 34000 ∧ 34000 < 34000 + 409600 / 368640)) ∧
    ((ready.gauge.count true 1024 5999 0 250).level = .critical ∧ ready.gauge.level ≠ .critical ∧ ready.power.state = .active) ∧
    ((({ ready.gauge with level := .critical, estimatePending := false, remaining := 20000, recoveryRun := 7 } : Gauge).count true 1024 7000
      (-100) 250).level ≠ .critical) ∧
    -- a pack lost and one returned, a slot to pause, running and paused, with a page and without an open record, one being stopped
    (ready.gauge.packLost = false ∧ ready.gauge.settings.packPresent ≤ 834 * 12 / 5 ∧ ({ ready.gauge with packLost := true }).packLost = true) ∧
    (∀ x ∈ [marked, { marked with state := .paused }, { marked with state := .paused, stopping := true }],
      let s : State := { ready with slots := ready.slots.set 3 x }
      3 < s.slots.length ∧ (s.slotAt 3).desc = some stream ∧ ((s.slotAt 3).openRec.isSome = true → (s.slotAt 3).page.isSome = true) ∧
        ((s.slotAt 3).state = .running ∧ (s.slotAt 3).stopping = false ∨ (s.slotAt 3).state = .paused)) ∧
    -- media-full to be set: no unused segment and no live stream
    (({ ready with media := { ready.media with ready := [], free := [] } } : State).liveCount = 0 ∧ ready.media.mediaFull = false) := by
  decide
theorem witness_LevelTable :
    Gauge.reset.level ≠ .critical ∧ (3 ≤ 2 + 1) ∧ ¬ (Gauge.reset.remaining = 0 ∧ false = true) ∧
    ({ Gauge.reset with level := .critical } : Gauge).level = .critical ∧ ((-51 : Int) < -50 ∧ 6000 + 200 ≤ 6200) := by
  decide
theorem witness_ShutdownSteps :
    ((inProcedure ready (.shutdown .conditions)).due = some .shutdownPowerDownRequest ∧ ready.pool.streamWaiters = [] ∧ ready.queue = [] ∧
      ready.monitor.state = .watch ∧ ready.log.waiting = [] ∧ ready.log.rollover = .none) ∧
    (inProcedure (onPort ready (.aheadErase 10)) (.shutdown (.drain 0))).due = some .pwrKeepRelease ∧
    (inProcedure ready (.shutdown (.drain 0))).due = some .pwrKeepRelease ∧
    (inProcedure ready (.shutdown .holding)).due = some .pwrKeepRelease ∧
    ({ ready with power := { ready.power with alarmDue := true } } : State).due = some .reportAlarm ∧ ready.clock.nextReport = some 60 := by
  decide

end Sys2Proof.Tests
end

