-- ==== Sys2Proof/Proofs/Slots.lean ====
section
/-! SUPPORT. Rules for one slot of the Stream Table, for the taking of a control command and for the checks of R2, which the statements
about the stream commands share. -/

open Sys2Proof Sys2Proof.Machine

namespace Sys2Proof.Machine

/-! ### Slots -/

/-- Changing an element of a list is setting it to its changed value. -/
theorem modify_eq_set {α : Type} (l : List α) (i : Nat) (f : α → α) (x : α) (h : i < l.length) :
    l.modify i f = l.set i (f (l.getD i x)) := by
  apply List.ext_getElem?
  intro j
  rw [List.getElem?_modify, List.getElem?_set]
  by_cases hj : i = j
  · subst hj; simp [h]
  · simp [hj]

/-- Changing a slot that stands in the table is setting it to its changed value. -/
theorem modSlot_eq_set (s : State) (i : Nat) (f : Slot → Slot) (h : i < s.slots.length) :
    s.modSlot i f = { s with slots := s.slots.set i (f (s.slotAt i)) } := by
  unfold State.modSlot State.slotAt
  rw [modify_eq_set _ _ _ _ h]

/-- A slot number outside the table reads as an EMPTY slot. -/
theorem slotAt_of_length_le (s : State) (i : Nat) (h : s.slots.length ≤ i) : s.slotAt i = {} := by
  simp [State.slotAt, h]

/-- The slot just set. -/
theorem getD_set_same (l : List Slot) (i : Nat) (x : Slot) (h : i < l.length) : (l.set i x).getD i {} = x := by simp [h]

/-- Setting a slot to what it holds changes nothing. -/
theorem set_slotAt (s : State) (i : Nat) : s.slots.set i (s.slotAt i) = s.slots := by
  by_cases h : i < s.slots.length
  · simp [State.slotAt, h]
  · exact List.set_eq_of_length_le (by omega)

/-! ### Taking a control command -/

/-- A command's row hands the frame to the command's rule. -/
theorem exec_row (o : Opcode) (s : State) : exec o.row s = .next (s.command o o.rule) := by
  cases o <;> rfl

/-- The row of a command that R185 lets pass runs its rule at the effective level, and the frame's receive slot is freed. -/
theorem exec_row_of_takes {s : State} {o : Opcode} {f : Frame} (h : s.Takes o f) :
    exec o.row s = .next (((o.rule s f (s.effective f)).freeHead).holdIdle) := by
  rw [exec_row, command_of_takes h]

/-- A refusal of any command but READ-RECORDS carries no payload. -/
theorem refuse_eq (s : State) (o : Opcode) (f : Frame) (level : Nat) (st : Status) (h : o ≠ .readRecords) :
    s.refuse o f level st = { s with port := { s.port with tx := s.port.tx ++ [.reply
      { port := f.port, tag := f.tag, level := level, status := st, kept := false, payload := .none }] } } := by
  unfold State.refuse refusalPayload
  rw [if_neg h]
  rfl

/-! ### Checks 1 to 3 of the stream commands (R2) -/

theorem slotRefused_high (s : State) (i level : Nat) (h : 15 < i) : s.slotRefused i level = some .param := by
  unfold State.slotRefused
  rw [if_pos h]

theorem slotRefused_empty (s : State) (i level : Nat) (h : i ≤ 15) (he : (s.slotAt i).state = .empty) :
    s.slotRefused i level = some .state := by
  unfold State.slotRefused
  rw [if_neg (by omega), if_pos he]

theorem slotRefused_level (s : State) (i level : Nat) (d : Descriptor) (h : i ≤ 15) (he : (s.slotAt i).state ≠ .empty)
    (hd : (s.slotAt i).desc = some d) (hl : d.ownerLevel < level) : s.slotRefused i level = some .level := by
  unfold State.slotRefused
  rw [if_neg (by omega), if_neg he, hd]
  exact if_pos hl

theorem slotRefused_none (s : State) (i level : Nat) (d : Descriptor) (h : i ≤ 15) (he : (s.slotAt i).state ≠ .empty)
    (hd : (s.slotAt i).desc = some d) (hl : level ≤ d.ownerLevel) : s.slotRefused i level = none := by
  unfold State.slotRefused
  rw [if_neg (by omega), if_neg he, hd]
  exact if_neg (by omega)

/-- The stream commands that make checks 1 to 3 refuse with the check's status. -/
theorem rule_of_slotRefused {o : Opcode} {s : State} {f : Frame} {level : Nat} {st : Status}
    (ho : o = .streamStart ∨ o = .streamPause ∨ o = .streamStop ∨ o = .streamClear) (h : s.slotRefused f.slotField level = some st) :
    o.rule s f level = s.refuse o f level st := by
  rcases ho with rfl | rfl | rfl | rfl
  · simp only [Opcode.rule, State.streamStart, h]
  · simp only [Opcode.rule, State.streamPause, h]
  · simp only [Opcode.rule, State.streamStop, h]
  · simp only [Opcode.rule, State.streamClear, h]

end Sys2Proof.Machine
end

