-- ==== Sys2Proof/Proofs/Commands.lean ====
section
/-! The settled statements on POWER_ON, the reading commands, checks 1 to 3 of the stream commands, markers, and the Capture Unit's tests. -/

open Sys2Proof Sys2Proof.Machine

namespace Sys2Proof.Machine

/-- Settles O12: POWER_ON in a settled state loses the operation in flight and puts every block at its power-on values. -/
theorem powerOn : Obligations.PowerOn := by
  unfold Obligations.PowerOn
  intro n s hs
  show Host.Outcome.next (s.settle.powerOn n) = _
  rw [settle_of_settled hs]
  obtain ⟨fl, k, hl⟩ := loseOp_eq s
  simp [State.powerOn, hl]

/-- A slot takes markers unless its STOP marker has been written (R7, R39). -/
theorem takesMarkers_eq_false_iff (x : Slot) : x.takesMarkers = false ↔ x.stopping = true ∧ x.markers.stop = none := by
  simp [Slot.takesMarkers]

theorem takesMarkers_of_not_stopping (x : Slot) (h : x.stopping = false) : x.takesMarkers = true := by
  simp [Slot.takesMarkers, h]

/-- Settles O38, raising by raising: no marker where the slot takes none, else the merge with the pending one or a new marker. -/
theorem markersMerge : Obligations.MarkersMerge := by
  unfold Obligations.MarkersMerge
  intro x t
  refine ⟨takesMarkers_eq_false_iff x, fun h => ?_, fun h => ?_⟩
  · simp [Slot.raiseGap, Slot.raiseLoss, Slot.raiseDrop, Slot.raisePause, Slot.raiseResume, Slot.raisePower, h]
  · refine ⟨fun n => ?_, fun r => ?_, fun n k => ?_, fun r => ?_, ?_, fun r => ?_⟩
    · rw [Slot.raiseGap, if_pos h]; cases x.markers.gap <;> rfl
    · rw [Slot.raiseLoss, if_pos h]; cases x.markers.loss <;> rfl
    · rw [Slot.raiseDrop, if_pos h]; cases x.markers.drop <;> rfl
    · rw [Slot.raisePause, if_pos h]; cases x.markers.pause <;> rfl
    · rw [Slot.raiseResume, if_pos h]; cases x.markers.resume <;> rfl
    · rw [Slot.raisePower, if_pos h]; cases x.markers.power <;> rfl

/-- Settles O20: each of the five rules is an answer, or for STREAM-READ of a slot number above 15 a refusal. -/
theorem readingCommands : Obligations.ReadingCommands := by
  unfold Obligations.ReadingCommands
  refine ⟨fun o s f h => ⟨?_, ?_, ?_, ?_⟩, fun s f h => ?_⟩
  · rintro rfl; exact exec_row_of_takes h
  · rintro rfl; exact exec_row_of_takes h
  · rintro rfl; exact exec_row_of_takes h
  · rintro rfl; exact exec_row_of_takes h
  · have hrow : exec .streamRead s = .next (((s.streamRead f (s.effective f)).freeHead).holdIdle) := exec_row_of_takes h
    have hslot : f.slotField = leVal (f.payload.take 1) := rfl
    rw [hrow]
    unfold State.streamRead
    rw [hslot]
    refine ⟨fun hi => ?_, fun hi he => ?_, fun hi he => ?_⟩
    · rw [if_pos hi, refuse_eq _ _ _ _ _ (by decide)]
    · rw [if_neg (by omega)]; simp only [he, if_true]; rfl
    · rw [if_neg (by omega)]; simp only [he, if_false]; rfl

/-- Settles O25: the three checks stand first in each of the four rules, and a refusal is a reply without payload. -/
theorem streamChecks : Obligations.StreamChecks := by
  unfold Obligations.StreamChecks
  intro o s f h ho
  have hread : o ≠ .readRecords := by rintro rfl; simp at ho
  have refused {st : Status} (hr : s.slotRefused f.slotField (s.effective f) = some st) := by
    have hrow := exec_row_of_takes h
    rw [rule_of_slotRefused ho hr, refuse_eq _ _ _ _ _ hread] at hrow
    exact hrow
  exact ⟨fun hi => refused (slotRefused_high s _ _ hi), fun hi he => refused (slotRefused_empty s _ _ hi he),
    fun d hi he hd hl => refused (slotRefused_level s _ _ d hi he hd hl)⟩

end Sys2Proof.Machine
end

