-- ==== Sys2Proof/Proofs/StreamRules.lean ====
section
/-! The settled statements on STREAM-START, STREAM-PAUSE and STREAM-CLEAR. -/

open Sys2Proof Sys2Proof.Machine

namespace Sys2Proof.Machine

/-- The row of a stream command whose rule refuses. -/
theorem exec_row_refused {s : State} {o : Opcode} {f : Frame} {st : Status} (h : s.Takes o f)
    (hr : o.rule s f (s.effective f) = s.refuse o f (s.effective f) st) :
    exec o.row s = .next ((s.refuse o f (s.effective f) st).freeHead).holdIdle := by
  rw [exec_row_of_takes h, hr]

/-! ### STREAM-START -/

/-- STREAM-START refused by check 4 or 5. -/
theorem streamStart_refused {s : State} {f : Frame} {level : Nat} {st : Status} (h : s.slotRefused f.slotField level = none)
    (hr : s.startRefused (s.slotAt f.slotField) = some st) : s.streamStart f level = s.refuse .streamStart f level st := by
  simp only [State.streamStart, h, hr]

/-- STREAM-START that passes its checks. -/
theorem streamStart_passed {s : State} {f : Frame} {level : Nat} (h : s.slotRefused f.slotField level = none)
    (hr : s.startRefused (s.slotAt f.slotField) = none) (hlen : f.slotField < s.slots.length) :
    s.streamStart f level = (State.abandonDoze
      { s with slots := s.slots.set f.slotField ((s.slotAt f.slotField).started s.stamp) }).answer f level .none := by
  simp only [State.streamStart, h, hr, modSlot_eq_set s _ _ hlen]

theorem startRefused_state (s : State) (x : Slot) (h : x.stopping = true ∨ x.state = .running ∨ x.state = .stopped) :
    s.startRefused x = some .state := by
  unfold State.startRefused
  rw [if_pos]
  rcases h with h | h | h <;> simp [h]

theorem startRefused_full (s : State) (x : Slot) (hs : x.stopping = false) (hx : x.state = .loaded ∨ x.state = .paused)
    (h : s.media.mediaFull = true ∨ s.gauge.level = .reserve ∨ s.gauge.level = .critical) : s.startRefused x = some .full := by
  unfold State.startRefused
  rw [if_neg (by simp [hs, hx]), if_pos]
  rcases h with h | h | h
  · exact .inl h
  · exact .inr (by rw [h]; rfl)
  · exact .inr (by rw [h]; rfl)

theorem startRefused_none (s : State) (x : Slot) (hs : x.stopping = false) (hx : x.state = .loaded ∨ x.state = .paused)
    (hm : s.media.mediaFull = false) (hl : s.gauge.level = .normal ∨ s.gauge.level = .low) : s.startRefused x = none := by
  unfold State.startRefused
  rw [if_neg (by simp [hs, hx]), if_neg]
  rcases hl with hl | hl <;> simp [hm, hl, BatteryLevel.stopsStarts]

/-- A start from PAUSED raises RESUME and forgets the expected sequence. -/
theorem started_of_paused (x : Slot) (t : Stamp) (hs : x.stopping = false) (h : x.state = .paused) : x.started t = { x with
    state := .running
    reason := none
    expected := none
    markers := { x.markers with resume := some (x.markers.resume.getD
      { stamp := t, index := x.outputIndex, afterPower := x.markers.power.isSome }) } } := by
  unfold Slot.started Slot.raiseResume
  rw [if_pos h, if_pos (takesMarkers_of_not_stopping x hs)]

/-- A start from LOADED changes the state alone. -/
theorem started_of_loaded (x : Slot) (t : Stamp) (h : x.state = .loaded) : x.started t = { x with state := .running } := by
  unfold Slot.started
  rw [if_neg (by simp [h])]

/-- Outside a DOZE entry there is nothing to abandon (R170). -/
theorem abandonDoze_of_not (s : State) (h : ∀ c, s.power.procedure ≠ .dozeEntry c) : s.abandonDoze = s := by
  unfold State.abandonDoze
  split
  · exact absurd ‹_› (h _)
  · exact absurd ‹_› (h _)
  · rfl

/-- Settles O26: checks 4 and 5 of STREAM-START in their order, then the slot started and the DOZE entry abandoned. -/
theorem streamStart : Obligations.StreamStart := by
  unfold Obligations.StreamStart
  intro s f d h i x hi hlen he hd hl
  have hpass : s.slotRefused f.slotField (s.effective f) = none := slotRefused_none s i _ d hi he hd hl
  refine ⟨fun hx => exec_row_refused h (streamStart_refused hpass (startRefused_state s _ hx)),
    fun hs hx => ⟨fun hm => exec_row_refused h (streamStart_refused hpass (startRefused_full s _ hs hx hm)), fun hm hlev => ?_⟩⟩
  have hrow := exec_row_of_takes h
  rw [show Opcode.rule .streamStart s f (s.effective f) = _ from
    streamStart_passed hpass (startRefused_none s _ hs hx hm hlev) hlen] at hrow
  refine ⟨x.started s.stamp, started_of_loaded x _, started_of_paused x _ hs, fun hproc => ?_, fun c _ => hrow⟩
  rw [abandonDoze_of_not { s with slots := s.slots.set f.slotField ((s.slotAt f.slotField).started s.stamp) } hproc] at hrow
  exact hrow

/-! ### STREAM-PAUSE -/

/-- The slot that a pause by command leaves. -/
theorem pause_of_not_stopping (x : Slot) (t : Stamp) (r : PauseReason) (hs : x.stopping = false) : x.discardSum.raisePause t r = { x with
    acc := 0
    fill := 0
    markers := { x.markers with
      resume := none
      pause := some (x.markers.pause.getD { stamp := t, index := x.outputIndex, reason := r }) } } := by
  unfold Slot.raisePause
  rw [if_pos (takesMarkers_of_not_stopping x.discardSum hs)]
  rfl

/-- Closing a slot's open record and then changing the slot sets the slot once: the change of what it holds without its record. -/
theorem modSlot_closeOpen (s : State) (i : Nat) (d : Descriptor) (f : Slot → Slot) (h : i < s.slots.length)
    (hd : (s.slotAt i).desc = some d) (hp : (s.slotAt i).openRec.isSome = true → (s.slotAt i).page.isSome = true) :
    ∃ bufs, (s.closeOpen i).modSlot i f = { s with
        slots := s.slots.set i (f { s.slotAt i with openRec := none }), pool := { s.pool with buffers := bufs } } ∧
      ((s.slotAt i).openRec = none → bufs = s.pool.buffers) ∧
      ∀ r p, (s.slotAt i).openRec = some r → (s.slotAt i).page = some p →
        bufs = s.pool.buffers.modify p.buffer (fun b => { b with bytes := b.bytes ++ r.bytes d }) := by
  obtain ⟨bufs, heq, hnone, hsome⟩ := closeOpen_eq s i d h hd hp
  refine ⟨bufs, ?_, hnone, hsome⟩
  rw [heq, modSlot_eq_set _ _ _ (by simpa using h)]
  simp [State.slotAt, h]

/-- Settles O27: a RUNNING slot closes its record and pauses, any other is refused. -/
theorem streamPause : Obligations.StreamPause := by
  unfold Obligations.StreamPause
  intro s f d h i x hi hlen he hd hl
  have hpass : s.slotRefused f.slotField (s.effective f) = none := slotRefused_none s i _ d hi he hd hl
  have heq : s.streamPause f (s.effective f) = if (s.slotAt i).state = .running then (s.pauseSlot i).answer f (s.effective f) .none
      else s.refuse .streamPause f (s.effective f) .state := by
    simp only [State.streamPause, hpass]
    rfl
  refine ⟨fun hx => ?_, fun hx hs hp => ?_⟩
  · rw [if_neg hx] at heq
    exact exec_row_refused h heq
  · rw [if_pos hx] at heq
    obtain ⟨bufs, hu, hnone, hsome⟩ := modSlot_closeOpen s i d
      (fun y => { y.discardSum.raisePause s.stamp .command with state := .paused, reason := some .command }) hlen hd hp
    rw [pause_of_not_stopping _ _ _ (by exact hs)] at hu
    refine ⟨s.pauseSlot i, ?_, ?_, ?_, ?_, ?_⟩
    · have hrow := exec_row_of_takes h
      rw [show Opcode.rule .streamPause s f (s.effective f) = _ from heq] at hrow
      exact hrow
    all_goals rw [show s.pauseSlot i = _ from hu]
    · simp [State.slotAt, hlen]
    · simp [State.slotAt, hlen, x]
    · exact hnone
    · exact hsome

/-! ### STREAM-CLEAR -/

/-- The test that clears media-full, where it clears it (R69). -/
theorem testMediaAvailable_clears (s : State) (hm : s.media.mediaFull = true) (h : s.liveCount < s.unused) :
    s.testMediaAvailable = State.raise { s with media := { s.media with mediaFull := false } }
      (.media (.mediaAvailable s.unused s.liveCount)) := by
  unfold State.testMediaAvailable
  rw [if_pos (by simp [hm, h])]

/-- The test that clears media-full, where it leaves all as it is (R69). -/
theorem testMediaAvailable_keeps (s : State) (h : s.media.mediaFull = false ∨ s.unused ≤ s.liveCount) : s.testMediaAvailable = s := by
  unfold State.testMediaAvailable
  rw [if_neg]
  rcases h with h | h <;> simp [h]

/-- Settles O29: the test of R69 by its two outcomes, and STREAM-CLEAR by its check 4. -/
theorem streamClear : Obligations.StreamClear := by
  unfold Obligations.StreamClear
  refine ⟨fun s => ⟨testMediaAvailable_clears s, testMediaAvailable_keeps s⟩, ?_⟩
  intro s f d h i x hi hlen he hd hl
  have hpass : s.slotRefused f.slotField (s.effective f) = none := slotRefused_none s i _ d hi he hd hl
  have heq : s.streamClear f (s.effective f) = if x.state = .stopped ∧ x.loading = false then
      ((s.modSlot i (fun _ => {})).testMediaAvailable).answer f (s.effective f) .none
      else s.refuse .streamClear f (s.effective f) .state := by
    simp only [State.streamClear, hpass]
    rfl
  refine ⟨fun hx => ?_, fun hx hload => ?_⟩
  · rw [if_neg] at heq
    · exact exec_row_refused h heq
    · rintro ⟨h1, h2⟩
      rcases hx with hx | hx
      · exact hx h1
      · rw [h2] at hx; exact Bool.false_ne_true hx
  · rw [if_pos ⟨hx, hload⟩, modSlot_eq_set s i _ hlen] at heq
    have hrow := exec_row_of_takes h
    rw [show Opcode.rule .streamClear s f (s.effective f) = _ from heq] at hrow
    exact hrow

end Sys2Proof.Machine
end

