-- ==== Sys2Proof/Proofs/Capture.lean ====
section
/-! The settled statements on the Capture Unit's tests and on discarded sample frames. -/

open Sys2Proof Sys2Proof.Machine

namespace Sys2Proof.Machine

/-! ### The tests -/

/-- The slots that take a frame, field by field (R12). -/
theorem takes_iff (x : Slot) (f : Frame) : x.takes f = true ↔ ∃ d, (x.state = .running ∨ x.state = .paused) ∧ x.desc = some d ∧
    f.tag &&& d.mask = d.tag &&& d.mask ∧ (d.sourcePort = none ∨ d.sourcePort = some f.port) := by
  unfold Slot.takes
  cases x.desc with
  | none => simp
  | some d => simp

/-- The slot a frame matches is the first that takes it (R12). -/
theorem matchSlot_eq_some_iff (s : State) (f : Frame) (i : Nat) : s.matchSlot f = some i ↔
    i < s.slots.length ∧ (s.slotAt i).takes f = true ∧ ∀ j, j < i → ¬ (s.slotAt j).takes f = true := by
  unfold State.matchSlot
  rw [List.findIdx?_eq_some_iff_getElem]
  have hat (j : Nat) (hj : j < s.slots.length) : s.slotAt j = s.slots[j] := by simp [State.slotAt, hj]
  constructor
  · rintro ⟨hi, hp, hlt⟩
    exact ⟨hi, by rw [hat i hi]; exact hp, fun j hj => by rw [hat j (by omega)]; exact hlt j hj⟩
  · rintro ⟨hi, hp, hlt⟩
    exact ⟨hi, by rw [← hat i hi]; exact hp, fun j hj => by rw [← hat j (by omega)]; exact hlt j hj⟩

/-- A buffer is FREE exactly when the pool finds one. -/
theorem freeBuffer_eq_none_iff (s : State) : s.freeBuffer = none ↔ ¬ ∃ b ∈ s.pool.buffers, b.state = .free := by
  simp [State.freeBuffer, List.findIdx?_eq_none_iff]

/-- The admission test by its two conditions (R14). -/
theorem admission_eq (s : State) (i : Nat) : s.admission i =
    if s.queue.length < s.gauge.limit ∧ s.media.mediaFull = false then
      if (s.slotAt i).page.isSome = true ∨ ∃ b ∈ s.pool.buffers, b.state = .free then none else some .pool
    else some .limit := by
  unfold State.admission
  by_cases hb : s.queue.length < s.gauge.limit ∧ s.media.mediaFull = false
  · have hroom : ((s.slotAt i).page.isNone = true ∧ s.freeBuffer.isNone = true) ↔
        ¬ ((s.slotAt i).page.isSome = true ∨ ∃ b ∈ s.pool.buffers, b.state = .free) := by
      rw [Option.isNone_iff_eq_none (o := s.freeBuffer), freeBuffer_eq_none_iff, not_or]
      simp
    rw [if_pos hb, if_neg (by simp [hb.1, hb.2])]
    simp only [hroom]
    exact ite_not _ _ _
  · rw [if_neg hb, if_pos]
    rw [not_and_or] at hb
    rcases hb with hb | hb
    · exact .inl (by omega)
    · exact .inr (by simpa using hb)

/-- Settles O34: the first slot that takes the frame, the admission test by its conditions, and the cap of each level. -/
theorem captureTests : Obligations.CaptureTests := by
  unfold Obligations.CaptureTests
  refine ⟨fun s f i => ?_, fun s i => ?_, fun s ⟨hlim, _⟩ => ⟨fun hc => ?_, fun hr => ?_, ?_⟩⟩
  · simp only [← takes_iff]
    exact matchSlot_eq_some_iff s f i
  · dsimp only
    rw [admission_eq]
    split
    · rename_i hb
      split
      · simp_all
      · rename_i hr
        exact ⟨by simp [hr], by simp [hb], by simp [hb, hr]⟩
    · rename_i hb
      exact ⟨by simp [hb], by simp [hb], by simp [hb]⟩
  · have hzero : s.gauge.limit = 0 := by rw [hlim, hc]; exact Nat.min_zero _
    refine ⟨hzero, fun i => ?_⟩
    rw [admission_eq, if_neg (by omega)]
  · rw [hlim, hr]; exact Nat.min_le_right _ _
  · rw [hlim]
    refine le_trans (Nat.min_le_right _ _) ?_
    cases s.gauge.level <;> decide

/-! ### SAMPLE_FRAME -/

/-- SAMPLE_FRAME in a settled state hands the frame at the head to the Capture Unit, and then frees its receive slot (R12, R181). -/
theorem exec_sampleFrame {s : State} {f : Frame} (hs : s.Settled) (hf : s.headSample = some f) (ho : s.power.state ≠ .off) :
    exec .sampleFrame s = .next ((State.judgeHold { s.capture f with
      port := { (s.capture f).port with rx := (s.capture f).port.rx.tail } }).arbitrate).holdIdle := by
  show Host.Outcome.next (s.settle.takeSample.holdIdle) = _
  rw [settle_of_settled hs]
  simp only [State.takeSample, hf, if_neg ho]

theorem capture_unmatched (s : State) (f : Frame) (h : s.power.phase ≠ .ready ∨ s.matchSlot f = none) :
    s.capture f = s.countPort PortCounts.raiseUnmatched := by
  unfold State.capture
  rcases h with h | h
  · rw [if_pos h]
  · rw [h]; exact ite_self _

theorem capture_matched (s : State) (f : Frame) (i : Nat) (hp : s.power.phase = .ready) (hm : s.matchSlot f = some i) :
    s.capture f = if (s.slotAt i).state = .running then s.sequenceFrame i f
      else s.modSlot i (fun x => x.count (fun c => { c with lostPaused := satAdd max32 c.lostPaused 1 })) := by
  unfold State.capture
  rw [if_neg (by simp [hp]), hm]

/-- A frame at least 128 ahead of the expected sequence is stale (R13). -/
theorem seqTest_stale (e seq : Nat) (h : 128 ≤ (seq + 256 - e) % 256) : seqTest (some e) seq = .stale := by
  simp only [seqTest]
  rw [if_neg (by omega), if_neg (by omega)]

/-- Settles O32: each of the three discards is one count, after which the receive slot is freed. -/
theorem sampleDiscarded : Obligations.SampleDiscarded := by
  unfold Obligations.SampleDiscarded
  intro s f hs hf ho
  have hexec := exec_sampleFrame hs hf ho
  refine ⟨fun h => ?_, fun i hp hm hx => ?_, fun i e hp hm hx he hd => ?_⟩
  · rw [hexec, capture_unmatched s f h]; rfl
  · rw [hexec, capture_matched s f i hp hm, if_neg (by rw [hx]; decide)]; rfl
  · have hseq : s.sequenceFrame i f = s.modSlot i (fun x => x.count (fun c => { c with stale := satAdd max32 c.stale 1 })) := by
      unfold State.sequenceFrame
      rw [he, seqTest_stale e f.code hd]
    rw [hexec, capture_matched s f i hp hm, if_pos hx, hseq]; rfl

end Sys2Proof.Machine
end

