-- ==== Sys2Proof/Proofs/Records.lean ====
section
/-! SUPPORT. Rules for the record builder (chapter 3): closing a record, pushing a page, making room, and writing pending markers. -/

open Sys2Proof Sys2Proof.Machine

namespace Sys2Proof.Machine

/-! ### Lists of slots and buffers -/

theorem slotAt_modSlot_same (s : State) (i : Nat) (f : Slot → Slot) (h : i < s.slots.length) :
    (s.modSlot i f).slotAt i = f (s.slotAt i) := by
  rw [slotAt_modSlot, if_pos ⟨rfl, h⟩]

theorem bufferBytes_modBuffer (s : State) (b : Nat) (f : Buffer → Buffer) (h : b < s.pool.buffers.length) :
    (s.modBuffer b f).bufferBytes b = (f (s.pool.buffers.getD b {})).bytes := by
  simp [State.bufferBytes, h]

@[simp] theorem slotAt_modBuffer (s : State) (b j : Nat) (f : Buffer → Buffer) : (s.modBuffer b f).slotAt j = s.slotAt j := rfl

/-! ### Closing a record and pushing a page (R38, R44) -/

/-- Without an open record there is nothing to close. -/
theorem closeOpen_of_none (s : State) (i : Nat) (h : (s.slotAt i).openRec = none) : s.closeOpen i = s := by
  simp only [State.closeOpen, h]

/-- The open record of a slot with a page is closed. -/
theorem closeOpen_of_some (s : State) (i : Nat) (d : Descriptor) (r : OpenRecord) (p : FillPage) (h : i < s.slots.length)
    (hd : (s.slotAt i).desc = some d) (hr : (s.slotAt i).openRec = some r) (hp : (s.slotAt i).page = some p) :
    s.closeOpen i = { s with
      slots := s.slots.set i { s.slotAt i with openRec := none }
      pool := { s.pool with buffers := s.pool.buffers.modify p.buffer (fun b => { b with bytes := b.bytes ++ r.bytes d }) } } := by
  obtain ⟨bufs, heq, -, hsome⟩ := closeOpen_eq s i d h hd (fun _ => by rw [hp]; rfl)
  rw [heq, hsome r p hr hp]

/-- What closing the open record of a slot with a page leaves in that slot. -/
theorem slotAt_closeOpen (s : State) (i : Nat) (d : Descriptor) (h : i < s.slots.length) (hd : (s.slotAt i).desc = some d)
    (hp : (s.slotAt i).openRec.isSome = true → (s.slotAt i).page.isSome = true) :
    (s.closeOpen i).slotAt i = { s.slotAt i with openRec := none } := by
  obtain ⟨bufs, heq, -, -⟩ := closeOpen_eq s i d h hd hp
  rw [heq]
  simp [State.slotAt, h]

/-- Closing the record of a slot with a page keeps the page and the descriptor. -/
theorem closeOpen_with_page (s : State) (i : Nat) (d : Descriptor) (p : FillPage) (h : i < s.slots.length)
    (hd : (s.slotAt i).desc = some d) (hp : (s.slotAt i).page = some p) : (s.closeOpen i).slots.length = s.slots.length ∧
    ((s.closeOpen i).slotAt i).page = some p ∧ ((s.closeOpen i).slotAt i).desc = some d ∧
    (s.closeOpen i).slots.set i { (s.closeOpen i).slotAt i with page := none } =
      s.slots.set i { s.slotAt i with page := none, openRec := none } := by
  have hrec : (s.slotAt i).openRec.isSome = true → (s.slotAt i).page.isSome = true := fun _ => by rw [hp]; rfl
  obtain ⟨bufs, heq, -, -⟩ := closeOpen_eq s i d h hd hrec
  rw [slotAt_closeOpen s i d h hd hrec, heq]
  exact ⟨List.length_set, hp, hd, List.set_set ..⟩

/-- A page is pushed once its record is closed (R44). -/
theorem pushPage_of_page (s : State) (i : Nat) (d : Descriptor) (p : FillPage) (h : i < s.slots.length)
    (hd : (s.slotAt i).desc = some d) (hp : (s.slotAt i).page = some p) : s.pushPage i = { s.closeOpen i with
      slots := s.slots.set i { s.slotAt i with page := none, openRec := none }
      pool := { (s.closeOpen i).pool with
        buffers := (s.closeOpen i).pool.buffers.modify p.buffer (fun b => { state := .queued, bytes := padOnes 4096 b.bytes }) }
      queue := (s.closeOpen i).queue ++ [pushedEntry i d p ((s.closeOpen i).bufferBytes p.buffer).length] } := by
  obtain ⟨hlen, hpage, hdesc, hslots⟩ := closeOpen_with_page s i d p h hd hp
  have hpush : s.pushPage i = { ((s.closeOpen i).modBuffer p.buffer
        (fun b => { state := .queued, bytes := padOnes 4096 b.bytes })).modSlot i (fun x => { x with page := none }) with
      queue := (s.closeOpen i).queue ++ [pushedEntry i d p ((s.closeOpen i).bufferBytes p.buffer).length] } := by
    simp only [State.pushPage, hpage, hdesc, modSlot_queue, modBuffer_queue]
  rw [hpush, modSlot_eq_set _ _ _ (by simpa [hlen] using h), ← hslots]
  rfl

/-- A pushed page leaves its slot with neither page nor open record. -/
theorem pushPage_slots (s : State) (i : Nat) (d : Descriptor) (p : FillPage) (h : i < s.slots.length) (hd : (s.slotAt i).desc = some d)
    (hp : (s.slotAt i).page = some p) : (s.pushPage i).slots = s.slots.set i { s.slotAt i with page := none, openRec := none } := by
  rw [pushPage_of_page s i d p h hd hp]

/-- A page with its buffer in the pool is pushed: the record's bytes join it, the rest is padded, and its entry joins the Commit Queue
(R44, R50). -/
theorem pushPage_eq (s : State) (i : Nat) (d : Descriptor) (p : FillPage) (h : i < s.slots.length)
    (hb : p.buffer < s.pool.buffers.length) (hd : (s.slotAt i).desc = some d) (hp : (s.slotAt i).page = some p) :
    let bytes := s.bufferBytes p.buffer ++ (match (s.slotAt i).openRec with | some r => r.bytes d | none => [])
    s.pushPage i = { s with
      slots := s.slots.set i { s.slotAt i with page := none, openRec := none }
      pool := { s.pool with buffers := s.pool.buffers.set p.buffer { state := .queued, bytes := padOnes 4096 bytes } }
      queue := s.queue ++ [pushedEntry i d p bytes.length] } := by
  intro bytes
  have hclosed : ∃ bufs, s.closeOpen i = { s with
      slots := s.slots.set i { s.slotAt i with openRec := none }, pool := { s.pool with buffers := bufs } } ∧
      (s.closeOpen i).bufferBytes p.buffer = bytes ∧ bufs.length = s.pool.buffers.length ∧
      ∀ x, bufs.set p.buffer x = s.pool.buffers.set p.buffer x := by
    obtain ⟨bufs, heq, hnone, hsome⟩ := closeOpen_eq s i d h hd (fun _ => by rw [hp]; rfl)
    refine ⟨bufs, heq, ?_⟩
    cases hr : (s.slotAt i).openRec with
    | none =>
      have hbufs := hnone hr
      subst hbufs
      exact ⟨by rw [heq]; simp only [bytes, hr, List.append_nil]; rfl, rfl, fun _ => rfl⟩
    | some r =>
      have hbufs := hsome r p hr hp
      subst hbufs
      refine ⟨by rw [heq]; simp [State.bufferBytes, hb, bytes, hr], by simp, fun x => ?_⟩
      rw [modify_eq_set _ _ _ {} hb, List.set_set]
  obtain ⟨bufs, heq, hbytes, hlen, hset⟩ := hclosed
  have hget : (bufs.getD p.buffer {}).bytes = bytes := by rw [← hbytes, heq]; rfl
  rw [pushPage_of_page s i d p h hd hp, hbytes]
  simp only [heq, modify_eq_set bufs _ _ {} (hlen ▸ hb), hget, hset]

/-! ### Room in a page (R41, R44) -/

/-- The bytes used in a page without an open record. -/
theorem pageUsed_of_page (s : State) (i : Nat) (p : FillPage) (hp : (s.slotAt i).page = some p) (hr : (s.slotAt i).openRec = none) :
    s.pageUsed i = (s.bufferBytes p.buffer).length := by
  simp [State.pageUsed, hp, hr]

/-- A page that has the room stays. -/
theorem makeRoom_of_fits (s : State) (i need : Nat) (p : FillPage) (hp : (s.slotAt i).page = some p)
    (hr : (s.slotAt i).openRec = none) (h : (s.bufferBytes p.buffer).length + need ≤ 4096) : s.makeRoom i need = (s, true) := by
  unfold State.makeRoom
  simp [pageUsed_of_page s i p hp hr, hp, Nat.not_lt.mpr h]

/-- Without a page and without a FREE buffer there is no room. -/
theorem makeRoom_of_no_buffer (s : State) (i need : Nat) (hp : (s.slotAt i).page = none) (hb : s.freeBuffer = none) :
    s.makeRoom i need = (s, false) := by
  unfold State.makeRoom State.takeBuffer
  simp [hp, hb]

/-- A page taken in a FREE buffer. -/
theorem takeBuffer_of_free (s : State) (i b : Nat) (h : i < s.slots.length) (hb : s.freeBuffer = some b) :
    s.takeBuffer i = some { s with
      slots := s.slots.set i { s.slotAt i with page := some { buffer := b, firstSeq := 0, count := 0 } }
      pool := { s.pool with buffers := s.pool.buffers.set b { state := .filling, bytes := [] } } } := by
  have hlt : b < s.pool.buffers.length := (List.findIdx?_eq_some_iff_getElem.mp hb).1
  simp only [State.takeBuffer, hb]
  rw [modSlot_eq_set _ _ _ (by simpa using h)]
  simp only [State.modBuffer, modify_eq_set _ _ _ {} hlt]
  rfl

/-- Without a page, the stream takes the lowest-numbered FREE buffer. -/
theorem makeRoom_of_buffer (s : State) (i need b : Nat) (h : i < s.slots.length) (hp : (s.slotAt i).page = none)
    (hb : s.freeBuffer = some b) : s.makeRoom i need = ({ s with
      slots := s.slots.set i { s.slotAt i with page := some { buffer := b, firstSeq := 0, count := 0 } }
      pool := { s.pool with buffers := s.pool.buffers.set b { state := .filling, bytes := [] } } }, true) := by
  unfold State.makeRoom
  simp [takeBuffer_of_free s i b h hb, hp]

/-- A page without the room is pushed first. -/
theorem makeRoom_of_full (s : State) (i need : Nat) (d : Descriptor) (p : FillPage) (h : i < s.slots.length)
    (hd : (s.slotAt i).desc = some d) (hp : (s.slotAt i).page = some p) (hr : (s.slotAt i).openRec = none)
    (hfull : 4096 < (s.bufferBytes p.buffer).length + need) : s.makeRoom i need = (s.pushPage i).makeRoom i need := by
  have hslots := pushPage_slots s i d p h hd hp
  have hnone : ((s.pushPage i).slotAt i).page = none := by simp [State.slotAt, hslots, h]
  unfold State.makeRoom
  simp [pageUsed_of_page s i p hp hr, hp, hfull, hnone]

/-- Making room changes the page of its slot alone among the slots, and where it succeeds the slot has a page. -/
theorem makeRoom_slots (s : State) (i need : Nat) (d : Descriptor) (h : i < s.slots.length) (hd : (s.slotAt i).desc = some d)
    (hr : (s.slotAt i).openRec = none) : ∃ pg, (s.makeRoom i need).1.slots = s.slots.set i { s.slotAt i with page := pg } ∧
      ((s.makeRoom i need).2 = true → pg.isSome = true) := by
  have without (u : State) (hu : u.slots.length = s.slots.length) (hnone : (u.slotAt i).page = none) :
      ∃ pg, (u.makeRoom i need).1.slots = u.slots.set i { u.slotAt i with page := pg } ∧
        ((u.makeRoom i need).2 = true → pg.isSome = true) := by
    cases hb : u.freeBuffer with
    | none => exact ⟨none, by rw [makeRoom_of_no_buffer u i need hnone hb, ← hnone, set_slotAt], by
        rw [makeRoom_of_no_buffer u i need hnone hb]; exact fun hf => nomatch hf⟩
    | some b => exact ⟨some { buffer := b, firstSeq := 0, count := 0 },
        by rw [makeRoom_of_buffer u i need b (by omega) hnone hb], fun _ => rfl⟩
  cases hp : (s.slotAt i).page with
  | none => exact without s rfl hp
  | some p =>
    by_cases hfits : (s.bufferBytes p.buffer).length + need ≤ 4096
    · rw [makeRoom_of_fits s i need p hp hr hfits]
      exact ⟨some p, by rw [← hp, set_slotAt], fun _ => rfl⟩
    · have hslots := pushPage_slots s i d p h hd hp
      have hat : (s.pushPage i).slotAt i = { s.slotAt i with page := none, openRec := none } := by simp [State.slotAt, hslots, h]
      obtain ⟨pg, hpg, hsome⟩ := without (s.pushPage i) (by simp [hslots]) (by rw [hat])
      rw [makeRoom_of_full s i need d p h hd hp hr (by omega)]
      refine ⟨pg, ?_, hsome⟩
      rw [hpg, hat, hslots, List.set_set, ← hr]

/-! ### Pending markers (R39, R40) -/

/-- Whether a marker of a kind is pending. -/
def Markers.pending (m : Markers) : MarkerKind → Bool
  | .loss => m.loss.isSome
  | .gap => m.gap.isSome
  | .drop => m.drop.isSome
  | .pause => m.pause.isSome
  | .resume => m.resume.isSome
  | .power => m.power.isSome
  | .stop => m.stop.isSome

theorem mem_ite_singleton (c : Bool) (k j : MarkerKind) : k ∈ (if c = true then [j] else []) ↔ c = true ∧ k = j := by
  cases c <;> simp

/-- The order of writing lists the pending kinds. -/
theorem mem_order (m : Markers) (k : MarkerKind) : k ∈ m.order ↔ m.pending k = true := by
  unfold Markers.order
  dsimp only
  generalize (match m.resume with | some r => r.afterPower | none => false) = first
  simp only [List.mem_append, mem_ite_singleton]
  cases k
  case power => cases hp : m.power <;> cases first <;> simp [Markers.pending, hp]
  all_goals simp [Markers.pending]

/-- A written marker is pending no longer, and the others stay. -/
theorem pending_without (m : Markers) (k j : MarkerKind) : (m.without k).pending j = (m.pending j && k != j) := by
  cases k <;> cases j <;> simp [Markers.without, Markers.pending]

/-- Once every kind of its order is written, no marker is pending. -/
theorem order_written (m : Markers) : (m.order.foldl Markers.without m).order = [] := by
  have pending_foldl (l : List MarkerKind) (n : Markers) (j : MarkerKind) :
      (l.foldl Markers.without n).pending j = true ↔ n.pending j = true ∧ j ∉ l := by
    induction l generalizing n with
    | nil => simp
    | cons k l ih =>
      rw [List.foldl_cons, ih, pending_without]
      grind
  refine List.eq_nil_iff_forall_not_mem.mpr fun j hj => ?_
  rw [mem_order, pending_foldl, mem_order] at hj
  exact hj.2 hj.1

/-- A marker's record is 20 bytes at most (R35). -/
theorem markerRecord_length_le (s : State) (x : Slot) (d : Descriptor) (k : MarkerKind) : (s.markerRecord x d k).length ≤ 20 := by
  have hbytes (kind count first seq : Nat) (t : Stamp) : (markerBytes kind count first seq t d).length = 20 := by
    simp [markerBytes, recordHeader, leBytes_length]
  cases k <;> unfold State.markerRecord <;> dsimp only <;> split <;> simp [hbytes]

/-- A marker that finds room: its bytes join the page, and it takes a record's place there (R36, R41). -/
theorem writeMarker_of_room (s u : State) (i : Nat) (k : MarkerKind) (d : Descriptor) (p : FillPage)
    (hroom : s.makeRoom i 20 = (u, true)) (hp : (u.slotAt i).page = some p) (hd : (u.slotAt i).desc = some d) :
    s.writeMarker i k = ((u.modBuffer p.buffer (fun b => { b with bytes := b.bytes ++ u.markerRecord (u.slotAt i) d k })).modSlot i
      (fun x => { x.placeRecord with markers := x.markers.without k }), true) := by
  simp only [State.writeMarker, hroom, hp, hd]

/-- What a marker that is written changes among the slots: the page, the next record sequence and the markers of its own. -/
theorem writeMarker_slot {s u : State} {i : Nat} {k : MarkerKind} {d : Descriptor} (h : i < s.slots.length)
    (hd : (s.slotAt i).desc = some d) (hr : (s.slotAt i).openRec = none) (hw : s.writeMarker i k = (u, true)) :
    u.slots.length = s.slots.length ∧ ∃ n pg, u.slotAt i = { s.slotAt i with
      nextSeq := n, page := pg, markers := (s.slotAt i).markers.without k } := by
  obtain ⟨pg, hslots, hsome⟩ := makeRoom_slots s i 20 d h hd hr
  rcases hv : s.makeRoom i 20 with ⟨v, room⟩
  rw [hv] at hslots hsome
  dsimp only at hslots hsome
  have hat : v.slotAt i = { s.slotAt i with page := pg } := by simp [State.slotAt, hslots, h]
  cases room with
  | false => simp [State.writeMarker, hv] at hw
  | true =>
    obtain ⟨p, rfl⟩ := Option.isSome_iff_exists.mp (hsome rfl)
    rw [writeMarker_of_room s v i k d p hv (by rw [hat]) (by rw [hat]; exact hd), Prod.mk.injEq] at hw
    obtain ⟨rfl, -⟩ := hw
    let placed : Slot := ({ s.slotAt i with page := some p } : Slot).placeRecord
    refine ⟨by simp [hslots], placed.nextSeq, placed.page, ?_⟩
    rw [slotAt_modSlot_same _ _ _ (by simpa [hslots] using h), slotAt_modBuffer, hat]
    rfl

/-- What a list of markers that is written whole changes among the slots. -/
theorem writeMarkerList_slot {i : Nat} {d : Descriptor} : ∀ (l : List MarkerKind) {s u : State}, i < s.slots.length →
    (s.slotAt i).desc = some d → (s.slotAt i).openRec = none → s.writeMarkerList i l = (u, true) →
    u.slots.length = s.slots.length ∧ ∃ n pg, u.slotAt i = { s.slotAt i with
      nextSeq := n, page := pg, markers := l.foldl Markers.without (s.slotAt i).markers }
  | [], s, u, _, _, _, hw => by
    obtain ⟨rfl, -⟩ := Prod.mk.injEq .. ▸ hw
    exact ⟨rfl, _, _, rfl⟩
  | k :: ks, s, u, h, hd, hr, hw => by
    rcases hv : s.writeMarker i k with ⟨v, ok⟩
    rw [State.writeMarkerList, hv] at hw
    cases ok with
    | false => exact absurd (Prod.mk.inj hw).2 (by decide)
    | true =>
      obtain ⟨hlen, n, pg, hat⟩ := writeMarker_slot h hd hr hv
      obtain ⟨hlen', n', pg', hat'⟩ := writeMarkerList_slot ks (by omega) (by rw [hat]; exact hd) (by rw [hat]; exact hr) hw
      exact ⟨by omega, n', pg', by rw [hat', hat]; rfl⟩

/-- Pending markers that are written whole leave none pending. -/
theorem writeMarkers_slot {s u : State} {i : Nat} {d : Descriptor} (h : i < s.slots.length) (hd : (s.slotAt i).desc = some d)
    (hr : (s.slotAt i).openRec = none) (hw : s.writeMarkers i = (u, true)) :
    u.slots.length = s.slots.length ∧ (u.slotAt i).desc = some d ∧ (u.slotAt i).openRec = none ∧ (u.slotAt i).markers.order = [] := by
  obtain ⟨hlen, n, pg, hat⟩ := writeMarkerList_slot _ h hd hr hw
  rw [hat]
  exact ⟨hlen, hd, hr, order_written _⟩

end Sys2Proof.Machine
end

