-- ==== Sys2Proof/Proofs/StreamStop.lean ====
section
/-! The settled statement on STREAM-STOP, the close it requests, and STOP_COMPLETE. -/

open Sys2Proof Sys2Proof.Machine

namespace Sys2Proof.Machine

/-! ### The beginning of a stop (R7) -/

/-- The slot that the beginning of a stop leaves, before its page is closed. -/
def Slot.stopBegun (x : Slot) (t : Stamp) : Slot :=
  { x with
    openRec := none
    acc := 0
    fill := 0
    markers := { x.markers with stop := some { stamp := t, index := x.outputIndex } }
    state := .paused
    reason := if x.state = .paused then x.reason else some .command
    stopping := true }

/-- A stop begins with the slot's record closed and the slot changed; then its page is closed on request. -/
theorem beginStop_eq (s : State) (i : Nat) (d : Descriptor) (h : i < s.slots.length) (hd : (s.slotAt i).desc = some d)
    (hp : (s.slotAt i).openRec.isSome = true → (s.slotAt i).page.isSome = true) :
    ∃ bufs, s.beginStop i = State.requestClose { s with
        slots := s.slots.set i ((s.slotAt i).stopBegun s.stamp), pool := { s.pool with buffers := bufs } } i ∧
      ((s.slotAt i).openRec = none → bufs = s.pool.buffers) ∧
      ∀ r p, (s.slotAt i).openRec = some r → (s.slotAt i).page = some p →
        bufs = s.pool.buffers.modify p.buffer (fun b => { b with bytes := b.bytes ++ r.bytes d }) := by
  obtain ⟨bufs, heq, hnone, hsome⟩ := modSlot_closeOpen s i d (fun x => { x.discardSum with
    markers := { x.markers with stop := some { stamp := s.stamp, index := x.outputIndex } }
    state := .paused
    reason := if x.state = .paused then x.reason else some .command
    stopping := true }) h hd hp
  exact ⟨bufs, congrArg (fun u => State.requestClose u i) heq, hnone, hsome⟩

/-- STREAM-STOP that checks 1 to 3 let pass. -/
theorem streamStop_eq {s : State} {f : Frame} {level : Nat} (h : s.slotRefused f.slotField level = none) :
    s.streamStop f level = if ((s.slotAt f.slotField).live && !(s.slotAt f.slotField).stopping) = true then
      ((s.accept .streamStop f level (.streamStop f.slotField)).beginStop f.slotField).arbitrate
      else s.refuse .streamStop f level .state := by
  simp only [State.streamStop, h]

theorem live_iff (x : Slot) : x.live = true ↔ x.state = .loaded ∨ x.state = .running ∨ x.state = .paused := by
  unfold Slot.live
  cases x.state <;> simp

/-! ### A requested close (R45) -/

/-- A marker whose page has room for it. -/
theorem writeMarker_fits (s : State) (i : Nat) (k : MarkerKind) (d : Descriptor) (p : FillPage) (h : i < s.slots.length)
    (hb : p.buffer < s.pool.buffers.length) (hd : (s.slotAt i).desc = some d) (hp : (s.slotAt i).page = some p)
    (hr : (s.slotAt i).openRec = none) (hfits : (s.bufferBytes p.buffer).length + 20 ≤ 4096) :
    ∃ u, s.writeMarker i k = (u, true) ∧ u.queue = s.queue ∧ u.slots.length = s.slots.length ∧
      u.pool.buffers.length = s.pool.buffers.length ∧
      u.slotAt i = { (s.slotAt i).placeRecord with markers := (s.slotAt i).markers.without k } ∧
      (u.bufferBytes p.buffer).length ≤ (s.bufferBytes p.buffer).length + 20 := by
  refine ⟨_, writeMarker_of_room s s i k d p (makeRoom_of_fits s i 20 p hp hr hfits) hp hd, rfl, by simp, by simp, ?_, ?_⟩
  · rw [slotAt_modSlot_same _ _ _ (by simpa using h), slotAt_modBuffer]
  · show ((s.modBuffer p.buffer _).bufferBytes p.buffer).length ≤ _
    rw [bufferBytes_modBuffer _ _ _ hb]
    have := markerRecord_length_le s (s.slotAt i) d k
    simp only [List.length_append, State.bufferBytes]
    omega

/-- The page that `n` more records leave (R36). -/
def FillPage.placed (p : FillPage) (first n : Nat) : FillPage :=
  { p with firstSeq := if p.count = 0 ∧ n ≠ 0 then first else p.firstSeq, count := p.count + n }

/-- Markers whose page has room for them all. -/
theorem writeMarkerList_fits (i : Nat) (d : Descriptor) : ∀ (l : List MarkerKind) (s : State) (p : FillPage), i < s.slots.length →
    p.buffer < s.pool.buffers.length → (s.slotAt i).desc = some d → (s.slotAt i).page = some p → (s.slotAt i).openRec = none →
    (s.bufferBytes p.buffer).length + 20 * l.length ≤ 4096 →
    ∃ u, s.writeMarkerList i l = (u, true) ∧ u.queue = s.queue ∧ u.pool.buffers.length = s.pool.buffers.length ∧
      (u.slotAt i).page = some (p.placed (s.slotAt i).nextSeq l.length)
  | [], s, p, _, _, _, hp, _, _ => ⟨s, rfl, rfl, rfl, by rw [hp]; simp [FillPage.placed]⟩
  | k :: ks, s, p, h, hb, hd, hp, hr, hfits => by
    rw [List.length_cons] at hfits
    obtain ⟨v, hv, hqueue, hslots, hpool, hat, hbytes⟩ := writeMarker_fits s i k d p h hb hd hp hr (by omega)
    let q := p.placed (s.slotAt i).nextSeq 1
    have hpage : (v.slotAt i).page = some q := by
      rw [hat]; simp [Slot.placeRecord, hp, q, FillPage.placed]
    obtain ⟨u, hu, hqueue', hpool', hpage'⟩ := writeMarkerList_fits i d ks v q (by omega) (by rw [hpool]; exact hb)
      (by rw [hat]; exact hd) hpage (by rw [hat]; exact hr) (by show (v.bufferBytes p.buffer).length + _ ≤ _; omega)
    refine ⟨u, by rw [State.writeMarkerList, hv]; exact hu, hqueue'.trans hqueue, hpool'.trans hpool, ?_⟩
    rw [hpage']
    simp only [q, FillPage.placed, List.length_cons]
    congr 2
    · simp
    · omega

/-- A requested close of a page with room for its pending markers: they are written and the page is pushed (R41, R45). -/
theorem requestClose_fits (s : State) (i : Nat) (d : Descriptor) (p : FillPage) (h : i < s.slots.length)
    (hb : p.buffer < s.pool.buffers.length) (hd : (s.slotAt i).desc = some d) (hp : (s.slotAt i).page = some p)
    (hr : (s.slotAt i).openRec = none)
    (hfits : (s.bufferBytes p.buffer).length + 20 * (s.slotAt i).markers.order.length ≤ 4096) :
    ∃ used, (s.requestClose i).queue =
        s.queue ++ [pushedEntry i d (p.placed (s.slotAt i).nextSeq (s.slotAt i).markers.order.length) used] ∧
      ((s.requestClose i).slotAt i).page = none ∧ ((s.requestClose i).slotAt i).markers.order = [] ∧
      ((s.requestClose i).pool.buffers.getD p.buffer {}).state = .queued := by
  obtain ⟨u, hw, hqueue, hpool, hpage⟩ := writeMarkerList_fits i d _ s p h hb hd hp hr hfits
  obtain ⟨hlen, hdesc, -, horder⟩ := writeMarkers_slot h hd hr hw
  have hclose : s.requestClose i = u.pushPage i := by
    unfold State.requestClose
    rw [closeOpen_of_none s i hr, State.writeMarkers, hw]
    exact if_pos (by rw [hpage]; rfl)
  have hu : i < u.slots.length := by omega
  have hbu : p.buffer < u.pool.buffers.length := by omega
  rw [hclose, pushPage_eq u i d (p.placed _ _) hu hbu hdesc hpage, hqueue]
  refine ⟨_, rfl, ?_, ?_, ?_⟩
  · simp [State.slotAt, hu]
  · simpa [State.slotAt, hu] using horder
  · simp [FillPage.placed, hbu]

/-- A requested close with neither page nor marker has nothing to do. -/
theorem requestClose_of_nothing (s : State) (i : Nat) (hp : (s.slotAt i).page = none) (hr : (s.slotAt i).openRec = none)
    (hn : (s.slotAt i).markers.order = []) : s.requestClose i = s := by
  unfold State.requestClose
  rw [closeOpen_of_none s i hr, State.writeMarkers, hn]
  exact if_neg (by rw [hp]; decide)

/-- A requested close whose markers find no buffer: the stream joins the wait list (R42, R45). -/
theorem requestClose_of_no_buffer (s : State) (i : Nat) (hp : (s.slotAt i).page = none) (hr : (s.slotAt i).openRec = none)
    (hn : (s.slotAt i).markers.order ≠ []) (hb : s.freeBuffer = none) : s.requestClose i = s.joinWaitList i := by
  obtain ⟨k, ks, hks⟩ := List.exists_cons_of_ne_nil hn
  unfold State.requestClose
  have hw : s.writeMarker i k = (s, false) := by simp [State.writeMarker, makeRoom_of_no_buffer s i 20 hp hb]
  rw [closeOpen_of_none s i hr, State.writeMarkers, hks, State.writeMarkerList, hw]

theorem joinWaitList_eq (s : State) (i : Nat) : s.joinWaitList i = if i ∈ s.pool.streamWaiters then s
    else { s with pool := { s.pool with streamWaiters := s.pool.streamWaiters ++ [i] } } := by
  simp [State.joinWaitList]

/-! ### STOP_COMPLETE (R8) -/

/-- The conditions of a complete stop, one by one. -/
theorem stopReady_iff (s : State) (j : Nat) : s.stopReady j = true ↔ (s.slotAt j).stopping = true ∧ (s.slotAt j).markers.stop = none ∧
    (s.slotAt j).page = none ∧ j ∉ s.pool.streamWaiters ∧ ∀ e ∈ s.queue, e.slot ≠ j := by
  simp [State.stopReady, and_assoc]

/-- The first of the slots whose stop is complete. -/
theorem stoppedSlot_eq (s : State) (i : Nat) (h : i < s.slots.length) (hi : s.stopReady i = true)
    (hlt : ∀ j, j < i → ¬ s.stopReady j = true) : s.stoppedSlot = some i := by
  unfold State.stoppedSlot
  rw [List.find?_range_eq_some]
  exact ⟨hi, List.mem_range.mpr h, fun j hj => by simpa using hlt j hj⟩

/-- The tail segment of a stream becomes FULL if it was ACTIVE; no other segment changes. -/
theorem fillTail_segs (s : State) (d : Descriptor) :
    (s.tailOf d.survey d.index = none → (s.fillTail d).media.segs = s.media.segs) ∧
    ∀ g, s.tailOf d.survey d.index = some g → (∀ h, h ≠ g → (s.fillTail d).media.segs[h]? = s.media.segs[h]?) ∧
      ∀ y, s.media.segs[g]? = some y → (s.fillTail d).media.segs[g]? =
        some { y with state := if y.state = .active then .full else y.state } := by
  unfold State.fillTail
  refine ⟨fun h => by rw [h], fun g h => ?_⟩
  rw [h]
  refine ⟨fun k hk => ?_, fun y hy => ?_⟩
  · simp [hk.symm]
  · by_cases hact : y.state = .active <;> simp [hy, hact]

theorem fillTail_eq (s : State) (d : Descriptor) : s.fillTail d = { s with media := { s.media with segs := (s.fillTail d).media.segs } } := by
  unfold State.fillTail
  split <;> rfl

/-- Settles O28: the beginning of the stop, the requested close by the room for its markers, and the completion of the first stop that
is ready. -/
theorem streamStop : Obligations.StreamStop := by
  unfold Obligations.StreamStop
  refine ⟨?_, ?_, ?_⟩
  · intro s f d h i x hi hlen he hd hl
    have heq := streamStop_eq (slotRefused_none s i _ d hi he hd hl)
    refine ⟨fun hx => ?_, fun hx hs hp => ?_⟩
    · rw [if_neg] at heq
      · exact exec_row_refused h heq
      · rw [Bool.and_eq_true, live_iff]
        rintro ⟨hlive, hstop⟩
        rcases hx with hx | hx
        · rw [show (s.slotAt f.slotField).state = .stopped from hx] at hlive; simp at hlive
        · rw [show (s.slotAt f.slotField).stopping = true from hx] at hstop; exact Bool.false_ne_true hstop
    · rw [if_pos] at heq
      · let v := s.accept .streamStop f (s.effective f) (.streamStop i)
        obtain ⟨bufs, hbegin, hnone, hsome⟩ := beginStop_eq v i d hlen hd hp
        have hrow := exec_row_of_takes h
        rw [show Opcode.rule .streamStop s f (s.effective f) = _ from heq,
          show (s.accept .streamStop f (s.effective f) (.streamStop f.slotField)).beginStop f.slotField = _ from hbegin] at hrow
        exact ⟨_, hrow, rfl, hnone, hsome⟩
      · have hlive : (s.slotAt f.slotField).live = true := by
          rw [live_iff]
          change x.state ≠ .stopped at hx
          change x.state = _ ∨ x.state = _ ∨ x.state = _
          cases hst : x.state <;> simp_all
        rw [hlive, show (s.slotAt f.slotField).stopping = false from hs]
        rfl
  · intro s i d hlen x n hd hr
    refine ⟨fun p hp hb hfits => ?_, fun hp hn => ?_, fun hp hn hb => ?_⟩
    · obtain ⟨used, hqueue, hpage, horder, hstate⟩ := requestClose_fits s i d p hlen hb hd hp hr hfits
      refine ⟨_, hqueue, rfl, fun hc => if_neg ?_, fun hc hn => if_pos ⟨hc, hn⟩, hpage, horder, hstate⟩
      rintro ⟨h0, h1⟩
      rcases hc with hc | hc
      · exact hc h0
      · exact h1 hc
    · exact requestClose_of_nothing s i hp hr (List.eq_nil_of_length_eq_zero hn)
    · rw [requestClose_of_no_buffer s i hp hr (fun hnil => hn (by simp [n, x, hnil])) hb, joinWaitList_eq]
  · intro s i hdue ends hlen hi hlt
    have hmake : s.make .stopComplete = s.completeStop i := by
      show s.makeStopComplete = _
      unfold State.makeStopComplete
      rw [stoppedSlot_eq s i hlen ((stopReady_iff s i).mpr hi) (fun j hj hready => hlt j hj ((stopReady_iff s j).mp hready))]
    have hexec : exec .stopComplete s = .next (s.completeStop i).holdIdle := by
      show Host.Outcome.next (s.makeIfDue .stopComplete) = _
      rw [makeIfDue_of_due hdue, hmake]
    let v : State := match (s.slotAt i).desc with
      | some d => s.fillTail d
      | none => s
    have hv : v = { s with media := { s.media with segs := v.media.segs } } := by
      simp only [v]
      split
      · exact fillTail_eq s _
      · rfl
    refine ⟨v.modSlot i Slot.stopped, hexec, by rw [hv]; rfl, fun d hd => ?_, fun hc => ?_, fun c hc hreq => ?_⟩
    · have hvd : v = s.fillTail d := by simp only [v, hd]
      show (_ → v.media.segs = _) ∧ _
      rw [modSlot_media, hvd]
      exact fillTail_segs s d
    · unfold State.replyStop
      rw [modSlot_slot, hv]
      split
      · rename_i o ho
        exact if_neg (hc o ho)
      · rfl
    · have hslot : (v.modSlot i Slot.stopped).slot = some c := by rw [hv]; exact hc
      unfold State.replyStop
      rw [hslot]
      dsimp only
      rw [if_pos hreq, completeOp_of_slot _ c _ _ hslot, hv]
      rfl

end Sys2Proof.Machine
end

