-- ==== Sys2Proof/Proofs/CaptureCounts.lean ====
section
/-! SUPPORT. What handling a sample frame, and the arbiter's choice after it, leave alone: the frames that wait, the flash array, and of
every slot the expected sequence and the counts of R13 to R17 that the frame's own admission writes. -/

open Sys2Proof Sys2Proof.Machine

namespace Sys2Proof.Machine

/-- The expected sequence of a slot and its counts of frames taken, frames lost at admission and gaps. -/
def Slot.counts (x : Slot) : Option Nat × Nat × Nat × Nat × Nat :=
  (x.expected, x.counters.taken, x.counters.lostLimit, x.counters.lostPool, x.counters.gapEvents)

/-- The receive buffer, the flash array, and every slot's counts. -/
def State.captured (s : State) : List Frame × List (Nat × FlashCell) × List (Option Nat × Nat × Nat × Nat × Nat) :=
  (s.port.rx, s.media.flash, s.slots.map Slot.counts)

theorem captured_eq_of {s u : State} (hp : u.port.rx = s.port.rx) (hm : u.media.flash = s.media.flash) (hs : u.slots = s.slots) :
    u.captured = s.captured := by
  simp [State.captured, hp, hm, hs]

/-- A view of one slot, from the views of all. -/
theorem view_slotAt {α : Type} {v : Slot → α} {s u : State} (h : u.slots.map v = s.slots.map v) (i : Nat) :
    v (u.slotAt i) = v (s.slotAt i) := by
  have hget := congrArg (fun l => l.getD i (v {})) h
  simpa [State.slotAt, List.getD, Option.getD_map] using hget

/-- A slot's counts, from the counts of all. -/
theorem counts_of_captured {s u : State} (h : u.captured = s.captured) (i : Nat) : (u.slotAt i).counts = (s.slotAt i).counts := by
  have hmap : u.slots.map Slot.counts = s.slots.map Slot.counts := congrArg (fun v => v.2.2) h
  exact view_slotAt hmap i

/-! ### The record builder -/

/-- A view of a slot that reads none of what the record builder writes: the open record, the page, the next record sequence, the markers. -/
def Slot.Unbuilt {α : Type} (v : Slot → α) : Prop :=
  ∀ (x : Slot) r p n m, v { x with openRec := r, page := p, nextSeq := n, markers := m } = v x

section
variable {α : Type} {v : Slot → α}

theorem view_modSlot (s : State) (i : Nat) (f : Slot → Slot) (hf : ∀ x, v (f x) = v x) :
    (s.modSlot i f).slots.map v = s.slots.map v := by
  show (s.slots.modify i f).map v = _
  apply List.ext_getElem?
  intro j
  rw [List.getElem?_map, List.getElem?_map, List.getElem?_modify]
  cases s.slots[j]? with
  | none => rfl
  | some x => by_cases hj : i = j <;> simp [hj, hf]

theorem view_closeOpen (hv : Slot.Unbuilt v) (s : State) (i : Nat) : (s.closeOpen i).slots.map v = s.slots.map v := by
  unfold State.closeOpen
  dsimp only
  split
  · exact view_modSlot _ _ _ fun x => hv x _ _ _ _
  · rfl

theorem view_pushPage (hv : Slot.Unbuilt v) (s : State) (i : Nat) : (s.pushPage i).slots.map v = s.slots.map v := by
  unfold State.pushPage
  dsimp only
  split
  · exact (view_modSlot _ _ _ fun x => hv x _ _ _ _).trans (view_closeOpen hv s i)
  · exact view_closeOpen hv s i

theorem view_takeBuffer (hv : Slot.Unbuilt v) {s u : State} {i : Nat} (h : s.takeBuffer i = some u) :
    u.slots.map v = s.slots.map v := by
  unfold State.takeBuffer at h
  split at h
  · cases h
    exact view_modSlot _ _ _ fun x => hv x _ _ _ _
  · cases h

theorem view_makeRoom (hv : Slot.Unbuilt v) (s : State) (i need : Nat) : (s.makeRoom i need).1.slots.map v = s.slots.map v := by
  unfold State.makeRoom
  dsimp only
  have hpushed : (if ((s.slotAt i).page.isSome && decide (4096 < s.pageUsed i + need)) = true then s.pushPage i else s).slots.map v =
      s.slots.map v := by
    split
    · exact view_pushPage hv s i
    · rfl
  generalize (if ((s.slotAt i).page.isSome && decide (4096 < s.pageUsed i + need)) = true then s.pushPage i else s) = u at hpushed ⊢
  split
  · exact hpushed
  · split
    · exact (view_takeBuffer hv ‹_›).trans hpushed
    · exact hpushed

theorem view_writeMarker (hv : Slot.Unbuilt v) (s : State) (i : Nat) (k : MarkerKind) :
    (s.writeMarker i k).1.slots.map v = s.slots.map v := by
  have hroom := view_makeRoom hv s i 20
  unfold State.writeMarker
  dsimp only
  split
  · exact (view_modSlot _ _ _ fun x => hv x _ _ _ _).trans hroom
  · exact hroom

theorem view_writeMarkerList (hv : Slot.Unbuilt v) (i : Nat) : ∀ (l : List MarkerKind) (s : State),
    (s.writeMarkerList i l).1.slots.map v = s.slots.map v
  | [], _ => rfl
  | k :: ks, s => by
    have hone := view_writeMarker hv s i k
    unfold State.writeMarkerList
    split
    · rename_i u hu
      rw [hu] at hone
      exact (view_writeMarkerList hv i ks u).trans hone
    · rename_i u hu
      rw [hu] at hone
      exact hone

/-- A requested close leaves of every slot what the record builder does not write (R45). -/
theorem view_requestClose (hv : Slot.Unbuilt v) (s : State) (i : Nat) : (s.requestClose i).slots.map v = s.slots.map v := by
  have hwritten : ((s.closeOpen i).writeMarkers i).1.slots.map v = s.slots.map v :=
    (view_writeMarkerList hv i _ _).trans (view_closeOpen hv s i)
  unfold State.requestClose
  split
  · rename_i u hu
    rw [hu] at hwritten
    split
    · exact (view_pushPage hv u i).trans hwritten
    · exact hwritten
  · rename_i u hu
    rw [hu] at hwritten
    rw [joinWaitList_eq]
    split <;> exact hwritten

end

theorem counts_unbuilt : Slot.Unbuilt Slot.counts := fun _ _ _ _ _ => rfl

/-- The counts, the receive buffer and the flash array stay together. -/
theorem captured_eq_of_counts {s u : State} (hp : u.port = s.port) (hm : u.media = s.media)
    (hs : u.slots.map Slot.counts = s.slots.map Slot.counts) : u.captured = s.captured := by
  simp [State.captured, hp, hm, hs]

theorem captured_modSlot (s : State) (i : Nat) (f : Slot → Slot) (hf : ∀ x, (f x).counts = x.counts) :
    (s.modSlot i f).captured = s.captured :=
  captured_eq_of_counts rfl rfl (view_modSlot s i f hf)

@[simp] theorem captured_raise (s : State) (n : Notice) : (s.raise n).captured = s.captured := by
  obtain ⟨tx, h⟩ := raise_eq s n
  rw [h]; rfl

@[simp] theorem captured_closeOpen (s : State) (i : Nat) : (s.closeOpen i).captured = s.captured :=
  captured_eq_of_counts (by simp) (by simp) (view_closeOpen counts_unbuilt s i)

@[simp] theorem captured_pushPage (s : State) (i : Nat) : (s.pushPage i).captured = s.captured :=
  captured_eq_of_counts (by simp) (by simp) (view_pushPage counts_unbuilt s i)

@[simp] theorem captured_makeRoom (s : State) (i need : Nat) : (s.makeRoom i need).1.captured = s.captured :=
  captured_eq_of_counts (by simp) (by simp) (view_makeRoom counts_unbuilt s i need)

theorem captured_writeMarkers (s : State) (i : Nat) : (s.writeMarkers i).1.captured = s.captured :=
  captured_eq_of_counts (by simp) (by simp) (view_writeMarkerList counts_unbuilt i _ s)

@[simp] theorem captured_openData (s : State) (i : Nat) (d : Descriptor) (o : Output) (t : Stamp) (mark : Option (List Byte)) :
    (s.openData i d o t mark).1.captured = s.captured := by
  have hroom := captured_makeRoom s i (dataSize mark.isSome (d.mode = .mark) d.width 1)
  unfold State.openData
  dsimp only
  split
  · exact (captured_modSlot _ _ _ (by intro; rfl)).trans hroom
  · exact hroom

@[simp] theorem captured_appendSample (s : State) (i : Nat) (d : Descriptor) (r : OpenRecord) (o : Output) (t : Stamp)
    (mark : Option (List Byte)) : (s.appendSample i d r o t mark).1.captured = s.captured := by
  unfold State.appendSample
  dsimp only
  split
  · dsimp only
    split
    · exact (captured_closeOpen _ i).trans (captured_modSlot _ _ _ (by intro; rfl))
    · exact captured_modSlot _ _ _ (by intro; rfl)
  · exact (captured_openData ..).trans (captured_pushPage s i)

@[simp] theorem captured_placeSample (s : State) (i : Nat) (d : Descriptor) (o : Output) (t : Stamp) (mark : Option (List Byte)) :
    (s.placeSample i d o t mark).1.captured = s.captured := by
  have hwritten : (((s.closeOpen i).writeMarkers i).1).captured = s.captured :=
    (captured_writeMarkers _ i).trans (captured_closeOpen s i)
  unfold State.placeSample
  split
  · split
    · exact captured_appendSample ..
    · exact captured_openData ..
  · split
    · rename_i v hv
      rw [hv] at hwritten
      exact (captured_openData ..).trans hwritten
    · rename_i v hv
      rw [hv] at hwritten
      exact hwritten

@[simp] theorem captured_loseFrame (s : State) (i : Nat) (r : LossReason) : (s.loseFrame i r).captured = s.captured := by
  have hmod : (s.modSlot i (fun x => x.raiseLoss s.stamp r)).captured = s.captured :=
    captured_modSlot _ _ _ (fun x => by unfold Slot.raiseLoss; split <;> rfl)
  unfold State.loseFrame
  dsimp only
  split
  · exact (captured_raise _ _).trans hmod
  · exact hmod

/-- The accumulator writes none of a slot's counts. -/
theorem counts_accumulate (x : Slot) (d : Descriptor) (raw : Int) : (x.accumulate d raw).1.counts = x.counts := by
  unfold Slot.accumulate
  dsimp only
  split <;> rfl

theorem captured_setSlotAt (s : State) (i : Nat) (y : Slot) (h : y.counts = (s.slotAt i).counts) :
    (s.modSlot i (fun _ => y)).captured = s.captured := by
  by_cases hi : i < s.slots.length
  · have heq : s.modSlot i (fun _ => y) = s.modSlot i (fun x => if x = s.slotAt i then y else x) := by
      rw [modSlot_eq_set _ _ _ hi, modSlot_eq_set _ _ _ hi, if_pos rfl]
    rw [heq, captured_modSlot]
    intro x
    split
    · rename_i hx
      rw [hx, h]
    · rfl
  · simp [State.modSlot, List.modify_eq_self (Nat.le_of_not_lt hi)]

@[simp] theorem captured_takeSamples (i : Nat) (d : Descriptor) (t : Stamp) (mark : Option (List Byte)) : ∀ (l : List Int) (lost : Bool)
    (s : State), (s.takeSamples i d t mark lost l).captured = s.captured
  | [], _, _ => rfl
  | raw :: rest, lost, s => by
    have hacc : (s.modSlot i (fun _ => ((s.slotAt i).accumulate d raw).1)).captured = s.captured :=
      captured_setSlotAt s i _ (counts_accumulate _ d raw)
    have hrest := captured_takeSamples i d t mark rest
    unfold State.takeSamples
    dsimp only
    split
    · exact (hrest _ _).trans hacc
    · rename_i o _
      have hplace := captured_placeSample (s.modSlot i (fun _ => ((s.slotAt i).accumulate d raw).1)) i d o t mark
      split
      · exact (hrest _ _).trans ((captured_closeOpen _ i).trans hacc)
      · split
        · exact (hrest _ _).trans hacc
        · split
          · rename_i v hv
            rw [hv] at hplace
            exact (hrest _ _).trans (hplace.trans hacc)
          · rename_i v hv
            rw [hv] at hplace
            exact (hrest _ _).trans ((captured_loseFrame v i .pool).trans (hplace.trans hacc))

/-! ### The arbiter's choice -/

@[simp] theorem captured_imposePause (s : State) (r : PauseReason) (i : Nat) : (s.imposePause r i).captured = s.captured := by
  unfold State.imposePause
  refine (captured_raise _ _).trans ((captured_modSlot _ _ _ fun x => ?_).trans (captured_closeOpen s i))
  unfold Slot.raisePause
  split <;> rfl

@[simp] theorem captured_pauseRunning (s : State) (r : PauseReason) : (s.pauseRunning r).captured = s.captured := by
  have hall (l : List Nat) (u : State) : (u.imposePauses r l).captured = u.captured := by
    induction l generalizing u with
    | nil => rfl
    | cons i l ih => exact (ih _).trans (captured_imposePause u r i)
  exact hall _ s

@[simp] theorem captured_testMediaFull (s : State) (p : Bool) : (s.testMediaFull p).captured = s.captured := by
  unfold State.testMediaFull
  split
  · dsimp only
    rw [captured_raise]
    split
    · exact captured_pauseRunning _ _
    · rfl
  · rfl

@[simp] theorem captured_refuseTake (s : State) (t : Take) (h : t.load = false) : (s.refuseTake t).captured = s.captured := by
  unfold State.refuseTake
  rw [h]
  simp only [Bool.false_eq_true, if_false]
  split
  · rfl
  · exact captured_raise _ _

/-- A take for a page issue. -/
theorem captured_makeTake (s : State) (t : Take) (h : t.load = false) : (s.makeTake t).captured = s.captured := by
  unfold State.makeTake
  split
  · exact captured_testMediaFull _ _
  · split
    · rfl
    · split
      · exact captured_testMediaFull _ _
      · exact captured_refuseTake s t h

@[simp] theorem captured_drain : ∀ (l : List Entry) (seen : List Nat) (s : State), (s.drain seen l).1.captured = s.captured
  | [], _, _ => rfl
  | e :: es, seen, s => by
    unfold State.drain
    split
    · exact captured_drain es seen s
    · split
      · exact captured_drain es _ s
      · split
        · rfl
        · exact (captured_drain es _ _).trans (captured_makeTake s _ rfl)

theorem captured_countFairness (s : State) : s.countFairness.captured = s.captured := by
  unfold State.countFairness
  split <;> rfl

theorem captured_settleFairness (s : State) : s.settleFairness.captured = s.captured := by
  unfold State.settleFairness
  split <;> rfl

theorem captured_startVerify {s u : State} (h : s.startVerify = some u) : u.captured = s.captured := by
  unfold State.startVerify at h
  repeat' split at h
  all_goals cases h
  rfl

theorem captured_startIndex {s u : State} (h : s.startIndex = some u) : u.captured = s.captured := by
  unfold State.startIndex at h
  repeat' split at h
  all_goals cases h
  all_goals rfl

theorem captured_startMount {s u : State} (h : s.startMount = some u) : u.captured = s.captured := by
  unfold State.startMount at h
  obtain ⟨t, -, rfl⟩ := Option.map_eq_some_iff.mp h
  rfl

theorem captured_startTakes {s u : State} (h : s.startTakes = some u) : u.captured = s.captured := by
  have hfirst (l : List Take) (h : s.startFirst l = some u) : u.captured = s.captured := by
    induction l with
    | nil => cases h
    | cons t ts ih =>
      unfold State.startFirst at h
      split at h
      · rename_i v hv
        cases h
        unfold State.startTake at hv
        split at hv
        · cases hv; rfl
        · cases hv; exact captured_countFairness s
        · cases hv
        · cases hv
      · exact ih h
  exact hfirst _ h

theorem captured_startRead {s u : State} (h : s.startRead = some u) : u.captured = s.captured := by
  unfold State.startRead at h
  repeat' split at h
  all_goals cases h
  rfl

theorem captured_startCommit (s : State) : s.startCommit.1.captured = s.captured := by
  have hdrain := captured_drain s.queue [] s
  unfold State.startCommit
  split
  · exact captured_startTakes ‹_›
  · split
    · rename_i v hv
      rw [hv] at hdrain
      exact (captured_countFairness v).trans hdrain
    · rename_i v hv
      rw [hv] at hdrain
      split
      · exact (captured_startTakes ‹_›).trans hdrain
      · exact hdrain

theorem captured_startAhead (s : State) : s.startAhead.captured = s.captured := by
  unfold State.startAhead
  dsimp only
  split
  · split <;> rfl
  · rfl

theorem captured_startLow (s : State) : s.startLow.captured = s.captured := by
  have hcommit := captured_startCommit s
  unfold State.startLow
  split
  · rename_i v hv
    split at hv
    · exact captured_startRead hv
    · cases hv
  · split
    · rename_i v hv
      rw [hv] at hcommit
      exact hcommit
    · rename_i v hv
      rw [hv] at hcommit
      split
      · exact (captured_startRead ‹_›).trans hcommit
      · exact (captured_startAhead v).trans hcommit

/-- The arbiter's choice changes none of them. -/
theorem captured_arbitrate (s : State) : s.arbitrate.captured = s.captured := by
  have hlow (u : State) : u.chooseLow.captured = u.captured := by
    unfold State.chooseLow
    split
    · exact captured_startIndex ‹_›
    · split
      · exact captured_startMount ‹_›
      · exact captured_startLow u
  unfold State.arbitrate
  split
  · rfl
  · unfold State.choose
    split
    · exact (captured_settleFairness _).trans (captured_startVerify ‹_›)
    · split
      · rfl
      · exact (hlow _).trans (captured_settleFairness s)

end Sys2Proof.Machine
end

