-- ==== Sys2Proof/Proofs/SampleToAdmission.lean ====
section
/-! The settled statement on sample frames that go to admission: counts, samples, records, pages and losses. -/

open Sys2Proof Sys2Proof.Machine

namespace Sys2Proof.Machine

/-! ### The frame at admission (R13 to R16) -/

/-- What the sequence test leaves in a slot whose frame goes to admission (R13): a gap is marked and counted and drops the partial sum. -/
def Slot.sequenced (x : Slot) (t : Stamp) (code : Nat) : Slot :=
  match seqTest x.expected code with
  | .gap diff => { x.gapped t diff with expected := some ((code + 1) % 256) }
  | _ => { x with expected := some ((code + 1) % 256) }

/-- A frame neither stale nor gapped is in order. -/
theorem seqTest_inOrder (expected : Option Nat) (code : Nat) (h : ∀ e, expected = some e → (code + 256 - e) % 256 = 0) :
    seqTest expected code = .inOrder := by
  cases expected with
  | none => rfl
  | some e => simp [seqTest, h e rfl]

/-- A frame 1 to 127 ahead of the expected sequence is a gap. -/
theorem seqTest_gap (e code : Nat) (h0 : (code + 256 - e) % 256 ≠ 0) (h : (code + 256 - e) % 256 ≤ 127) :
    seqTest (some e) code = .gap ((code + 256 - e) % 256) := by
  simp [seqTest, h0, h]

/-- A slot's fill page and descriptor are not touched by the sequence test. -/
theorem sequenced_page (x : Slot) (t : Stamp) (code : Nat) : (x.sequenced t code).page = x.page ∧ (x.sequenced t code).desc = x.desc := by
  unfold Slot.sequenced
  split
  · unfold Slot.gapped Slot.raiseGap
    split <;> exact ⟨rfl, rfl⟩
  · exact ⟨rfl, rfl⟩

/-- What the outcome of the admission test makes of a frame: it is processed whole, or lost under a reason (R14 to R16). -/
def State.admitted (s : State) (i : Nat) (d : Descriptor) (f : Frame) : Option LossReason → State
  | some reason => (s.modSlot i (fun x => x.count (fun c => c.raiseLost reason))).loseFrame i reason
  | none => s.processFrame i d f

/-- A frame that the sequence test passes goes to the admission test with its slot brought up to date. -/
theorem sequenceFrame_eq (s : State) (i : Nat) (f : Frame) (d : Descriptor) (h : i < s.slots.length) (hd : (s.slotAt i).desc = some d)
    (hseq : ∀ e, (s.slotAt i).expected = some e → (f.code + 256 - e) % 256 ≤ 127) :
    let y := (s.slotAt i).sequenced s.stamp f.code
    let v : State := { s with slots := s.slots.set i y }
    s.sequenceFrame i f = v.admitted i d f (s.admission i) := by
  intro y v
  have hv : (v.slotAt i) = y := by simp [State.slotAt, v, h]
  have hadm0 : v.admission i = s.admission i := by
    simp only [State.admission, hv, y, (sequenced_page (s.slotAt i) s.stamp f.code).1]
    rfl
  have hcase (u : State) (hu : u.modSlot i (fun x => { x with expected := some ((f.code + 1) % 256) }) = v) :
      u.admitOrLose i f = v.admitted i d f (s.admission i) := by
    unfold State.admitOrLose
    rw [hu]
    dsimp only
    rw [hadm0]
    cases s.admission i with
    | some reason => rfl
    | none => simp only [hv, y, (sequenced_page (s.slotAt i) s.stamp f.code).2, hd, State.admitted]
  unfold State.sequenceFrame
  cases htest : seqTest (s.slotAt i).expected f.code with
  | inOrder =>
    refine hcase s ?_
    rw [modSlot_eq_set s i _ h]
    simp only [v, y, Slot.sequenced, htest]
  | gap diff =>
    refine hcase _ ?_
    rw [modSlot_eq_set s i _ h, modSlot_eq_set _ i _ (by simpa using h)]
    simp only [v, y, Slot.sequenced, htest, List.set_set]
    simp [State.slotAt, h]
  | stale =>
    cases he : (s.slotAt i).expected with
    | none => simp [seqTest, he] at htest
    | some e =>
      have hle := hseq e he
      rw [he] at htest
      simp only [seqTest, if_pos hle] at htest
      split at htest <;> cases htest

/-! ### The payload of a sample frame (R21) -/

theorem rawSamples_length (k n : Nat) (bs : List Byte) : (rawSamples k n bs).length = n := by
  induction n generalizing bs with
  | zero => rfl
  | succ n ih => simp [rawSamples, ih]

/-- Sample `j` of a payload. -/
theorem rawSamples_getElem? (k n : Nat) (bs : List Byte) (j : Nat) (h : j < n) :
    (rawSamples k n bs)[j]? = some (signedOf (8 * k) (leVal ((bs.drop (j * k)).take k))) := by
  induction n generalizing bs j with
  | zero => omega
  | succ n ih =>
    cases j with
    | zero => simp [rawSamples]
    | succ j =>
      rw [rawSamples, List.getElem?_cons_succ, ih _ j (by omega), List.drop_drop]
      congr 5
      ring

/-! ### Placing a sample (R37, R38, R41, R43) -/

/-- A sample whose record opens where there is room. -/
theorem openData_of_room {s u : State} {i : Nat} {d : Descriptor} {o : Output} {t : Stamp} {mark : Option (List Byte)}
    (h : i < u.slots.length) (hroom : s.makeRoom i (dataSize mark.isSome (d.mode = .mark) d.width 1) = (u, true)) :
    s.openData i d o t mark = ({ u with
      slots := u.slots.set i { (u.slotAt i).placeRecord with openRec := some (openRecordOf (u.slotAt i) o t mark) } }, true) := by
  unfold State.openData
  rw [hroom]
  dsimp only
  rw [if_pos rfl, modSlot_eq_set _ _ _ h]

theorem openData_of_no_room {s u : State} {i : Nat} {d : Descriptor} {o : Output} {t : Stamp} {mark : Option (List Byte)}
    (hroom : s.makeRoom i (dataSize mark.isSome (d.mode = .mark) d.width 1) = (u, false)) : s.openData i d o t mark = (u, false) := by
  unfold State.openData
  rw [hroom]
  rfl

/-- Without pending markers and without an open record, a sample opens a record. -/
theorem placeSample_opens (s : State) (i : Nat) (d : Descriptor) (o : Output) (t : Stamp) (mark : Option (List Byte))
    (hn : (s.slotAt i).markers.order = []) (hr : (s.slotAt i).openRec = none) :
    s.placeSample i d o t mark = s.openData i d o t mark := by
  unfold State.placeSample
  rw [hn, hr]
  rfl

/-- Without pending markers, a sample joins the open record. -/
theorem placeSample_appends (s : State) (i : Nat) (d : Descriptor) (r : OpenRecord) (o : Output) (t : Stamp) (mark : Option (List Byte))
    (hn : (s.slotAt i).markers.order = []) (hr : (s.slotAt i).openRec = some r) :
    s.placeSample i d o t mark = s.appendSample i d r o t mark := by
  unfold State.placeSample
  rw [hn, hr]
  rfl

/-- With its page pushed, a sample opens a record. -/
theorem placeSample_pushPage (s : State) (i : Nat) (d : Descriptor) (p : FillPage) (o : Output) (t : Stamp) (mark : Option (List Byte))
    (h : i < s.slots.length) (hd : (s.slotAt i).desc = some d) (hp : (s.slotAt i).page = some p) (hn : (s.slotAt i).markers.order = []) :
    (s.pushPage i).placeSample i d o t mark = (s.pushPage i).openData i d o t mark := by
  have hslots := pushPage_slots s i d p h hd hp
  have hat : (s.pushPage i).slotAt i = { s.slotAt i with page := none, openRec := none } := by simp [State.slotAt, hslots, h]
  exact placeSample_opens _ i d o t mark (by rw [hat]; exact hn) (by rw [hat])

/-- A sample of a stream with pending markers opens a record once they are written (R41). -/
theorem placeSample_of_written {s u : State} {i : Nat} (d : Descriptor) (o : Output) (t : Stamp) (mark : Option (List Byte))
    (hn : (s.slotAt i).markers.order ≠ []) (hw : (s.closeOpen i).writeMarkers i = (u, true)) :
    s.placeSample i d o t mark = u.openData i d o t mark := by
  unfold State.placeSample
  rw [if_neg (by simpa using hn), hw]

/-- Where they cannot all be written, it finds no place (R42, R43). -/
theorem placeSample_of_unwritten {s u : State} {i : Nat} (d : Descriptor) (o : Output) (t : Stamp) (mark : Option (List Byte))
    (hn : (s.slotAt i).markers.order ≠ []) (hw : (s.closeOpen i).writeMarkers i = (u, false)) :
    s.placeSample i d o t mark = (u, false) := by
  unfold State.placeSample
  rw [if_neg (by simpa using hn), hw]

/-- The open record of a page with room takes one more sample, and closes at its length (R38). -/
theorem appendSample_fits (s : State) (i : Nat) (d : Descriptor) (r : OpenRecord) (p : FillPage) (o : Output) (t : Stamp)
    (mark : Option (List Byte)) (h : i < s.slots.length) (hd : (s.slotAt i).desc = some d) (hr : (s.slotAt i).openRec = some r)
    (hp : (s.slotAt i).page = some p) (hfits : (s.bufferBytes p.buffer).length + (r.append o).size d ≤ 4096) :
    s.appendSample i d r o t mark = (if d.recordLength ≤ r.values.length + 1 then { s with
        slots := s.slots.set i { s.slotAt i with openRec := none }
        pool := { s.pool with buffers := s.pool.buffers.modify p.buffer (fun b => { b with bytes := b.bytes ++ (r.append o).bytes d }) } }
      else { s with slots := s.slots.set i { s.slotAt i with openRec := some (r.append o) } }, true) := by
  have hused : s.pageUsed i - r.size d + (r.append o).size d ≤ 4096 := by
    have hpage : s.pageUsed i = (s.bufferBytes p.buffer).length + r.size d := by simp [State.pageUsed, hp, hr, hd]
    omega
  have hlen : (r.append o).values.length = r.values.length + 1 := by simp [OpenRecord.append]
  unfold State.appendSample
  simp only [if_pos hused, modSlot_eq_set s i _ h, hlen]
  refine Prod.ext ?_ rfl
  by_cases hclose : d.recordLength ≤ r.values.length + 1
  · dsimp only
    rw [if_pos hclose, if_pos hclose, closeOpen_of_some _ i d (r.append o) p (by simpa using h)] <;> simp [State.slotAt, h]
    · rw [← hd]; simp [State.slotAt, h]
    · rw [← hp]; simp [State.slotAt, h]
  · simp only [if_neg hclose]

/-- The open record of a page without room is closed with its page, and the sample opens a record (R38). -/
theorem appendSample_full (s : State) (i : Nat) (d : Descriptor) (r : OpenRecord) (p : FillPage) (o : Output) (t : Stamp)
    (mark : Option (List Byte)) (hd : (s.slotAt i).desc = some d) (hr : (s.slotAt i).openRec = some r)
    (hp : (s.slotAt i).page = some p) (hfull : 4096 < (s.bufferBytes p.buffer).length + (r.append o).size d) :
    s.appendSample i d r o t mark = (s.pushPage i).openData i d o t mark := by
  have hused : ¬ s.pageUsed i - r.size d + (r.append o).size d ≤ 4096 := by
    have hpage : s.pageUsed i = (s.bufferBytes p.buffer).length + r.size d := by simp [State.pageUsed, hp, hr, hd]
    omega
  unfold State.appendSample
  exact if_neg hused

/-- A lost frame, by whether the slot takes a marker and whether a LOSS marker is pending (R16, R39). -/
theorem loseFrame_eq (s : State) (i : Nat) (r : LossReason) (h : i < s.slots.length) :
    s.loseFrame i r = if (s.slotAt i).markers.loss.isNone && (s.slotAt i).takesMarkers then
        State.raise { s with slots := s.slots.set i ((s.slotAt i).raiseLoss s.stamp r) } (.stream i .running (.loss r))
      else { s with slots := s.slots.set i ((s.slotAt i).raiseLoss s.stamp r) } := by
  unfold State.loseFrame
  rw [modSlot_eq_set s i _ h]

/-- The count that the outcome of the admission test raises (R15 to R17). -/
def SlotCounters.countOutcome (c : SlotCounters) : Option LossReason → SlotCounters
  | some reason => c.raiseLost reason
  | none => { c with taken := satAdd max32 c.taken 1 }

/-- Beyond that count, the frame's handling changes none of the slots' counts. -/
theorem captured_admitted (s : State) (i : Nat) (d : Descriptor) (f : Frame) (r : Option LossReason) :
    (s.admitted i d f r).captured = (s.modSlot i (fun x => x.count (fun c => c.countOutcome r))).captured := by
  cases r with
  | some reason => exact captured_loseFrame _ i reason
  | none => exact captured_takeSamples i d _ _ _ _ _

/-- What the sequence test leaves of the counts. -/
theorem counts_sequenced (x : Slot) (t : Stamp) (code : Nat) (h : ∀ e, x.expected = some e → (code + 256 - e) % 256 ≤ 127) :
    (x.sequenced t code).expected = some ((code + 1) % 256) ∧ (x.sequenced t code).counters.taken = x.counters.taken ∧
    (x.sequenced t code).counters.lostLimit = x.counters.lostLimit ∧ (x.sequenced t code).counters.lostPool = x.counters.lostPool ∧
    ((∃ e, x.expected = some e ∧ (code + 256 - e) % 256 ≠ 0) →
      (x.sequenced t code).counters.gapEvents = min 4294967295 (x.counters.gapEvents + 1)) ∧
    ((¬ ∃ e, x.expected = some e ∧ (code + 256 - e) % 256 ≠ 0) →
      (x.sequenced t code).counters.gapEvents = x.counters.gapEvents) := by
  by_cases hgap : ∃ e, x.expected = some e ∧ (code + 256 - e) % 256 ≠ 0
  · obtain ⟨e, he, h0⟩ := hgap
    have htest : seqTest x.expected code = .gap ((code + 256 - e) % 256) := by rw [he]; exact seqTest_gap e code h0 (h e he)
    have hcount : (x.sequenced t code).counters = { x.counters with gapEvents := min 4294967295 (x.counters.gapEvents + 1) } := by
      simp only [Slot.sequenced, htest, Slot.gapped, Slot.raiseGap]
      split <;> rfl
    rw [hcount]
    exact ⟨by simp only [Slot.sequenced, htest], rfl, rfl, rfl, fun _ => rfl, fun hn => absurd ⟨e, he, h0⟩ hn⟩
  · have htest : seqTest x.expected code = .inOrder := seqTest_inOrder _ _ (fun e he => by
      by_contra h0
      exact hgap ⟨e, he, h0⟩)
    simp only [Slot.sequenced, htest]
    exact ⟨trivial, trivial, trivial, trivial, fun hg => absurd hg hgap, fun _ => trivial⟩

/-- SAMPLE_FRAME of a frame of a RUNNING slot that is not stale: the sequence test, the outcome of the admission test, and the end. -/
theorem exec_sampleFrame_running {s : State} {f : Frame} {i : Nat} {d : Descriptor} (hs : s.Settled) (hf : s.headSample = some f)
    (ho : s.power.state ≠ .off) (hp : s.power.phase = .ready) (hm : s.matchSlot f = some i) (hx : (s.slotAt i).state = .running)
    (hd : (s.slotAt i).desc = some d) (hseq : ∀ e, (s.slotAt i).expected = some e → (f.code + 256 - e) % 256 ≤ 127) :
    i < s.slots.length ∧
    s.capture f = State.admitted { s with slots := s.slots.set i ((s.slotAt i).sequenced s.stamp f.code) } i d f (s.admission i) ∧
    exec .sampleFrame s = .next ((State.judgeHold { s.capture f with
      port := { (s.capture f).port with rx := (s.capture f).port.rx.tail } }).arbitrate).holdIdle := by
  have hlt : i < s.slots.length := ((matchSlot_eq_some_iff s f i).mp hm).1
  refine ⟨hlt, ?_, exec_sampleFrame hs hf ho⟩
  rw [capture_matched s f i hp hm, if_pos hx, sequenceFrame_eq s i f d hlt hd hseq]

/-- The frame's place in the receive buffer is freed, and the event ends with the arbiter's choice. -/
def State.sampleEnd (u : State) : State :=
  ((State.judgeHold { u with port := { u.port with rx := u.port.rx.tail } }).arbitrate).holdIdle

/-- What the handling of a frame at admission leaves: the receive buffer without its head, the flash array, and in the frame's slot the
counts after the sequence test with that of the outcome. -/
theorem captured_sampleEnd {s : State} {i : Nat} {y : Slot} {d : Descriptor} {f : Frame} {r : Option LossReason} (hlt : i < s.slots.length)
    (hcap : s.capture f = State.admitted { s with slots := s.slots.set i y } i d f r) :
    (s.capture f).sampleEnd.port.rx = s.port.rx.tail ∧ (s.capture f).sampleEnd.media.flash = s.media.flash ∧
    ((s.capture f).sampleEnd.slotAt i).counts = (y.count (fun c => c.countOutcome r)).counts := by
  let v : State := { s with slots := s.slots.set i y }
  let w : State := { s.capture f with port := { (s.capture f).port with rx := (s.capture f).port.rx.tail } }
  have hcaptured : (s.capture f).captured = (v.modSlot i (fun x => x.count (fun c => c.countOutcome r))).captured := by
    rw [hcap]
    exact captured_admitted v i d f r
  have hend : (s.capture f).sampleEnd.captured = w.captured := by
    show ((w.judgeHold.arbitrate).holdIdle).captured = w.captured
    exact (captured_eq_of (by simp) (by simp) (by simp)).trans (captured_arbitrate w.judgeHold)
  refine ⟨?_, ?_, ?_⟩
  · exact (congrArg (fun w => w.1) hend).trans (congrArg (fun w => w.1.tail) hcaptured)
  · exact (congrArg (fun w => w.2.1) hend).trans (congrArg (fun w => w.2.1) hcaptured)
  · rw [counts_of_captured hend i, show w.slotAt i = (s.capture f).slotAt i from rfl, counts_of_captured hcaptured i,
      slotAt_modSlot_same v i _ (by simpa [v] using hlt), show v.slotAt i = y from getD_set_same s.slots i y hlt]

/-- A frame that is lost or admitted opens no gap. -/
theorem gapEvents_countOutcome (c : SlotCounters) (r : Option LossReason) : (c.countOutcome r).gapEvents = c.gapEvents := by
  rcases r with _ | (_ | _) <;> rfl

/-- The size of a record, its width and window mode written out (R35). -/
theorem dataSize_eq (d : Descriptor) (timeMark : Bool) (n : Nat) : dataSize timeMark (d.mode = .mark) d.width n =
    (20 + (if timeMark then 4 else 0) + n * (match d.width with | .w16 => 2 | .w32 => 4) +
      (if d.mode = .mark then (n + 3) / 4 else 0) + 3) / 4 * 4 := by
  unfold dataSize round4
  cases d.width <;> simp [Width.size]

/-- The signed value of bytes, written out (R189). -/
theorem rawSize_of_code (payload : List Byte) (k : Nat)
    (h : leVal (payload.take 1) = 0x10 ∧ k = 2 ∨ leVal (payload.take 1) = 0x18 ∧ k = 3) : rawSize payload = some k := by
  have hfield : field payload 0 1 = leVal (payload.take 1) := rfl
  rcases h with ⟨h, rfl⟩ | ⟨h, rfl⟩ <;> simp only [rawSize, hfield, h]

/-! ### The samples of a frame in turn (R15, R22, R32, R43) -/

theorem takeSamples_incomplete {s : State} {i : Nat} {d : Descriptor} {t : Stamp} {mark : Option (List Byte)} {lost : Bool} {raw : Int}
    {rest : List Int} (h : i < s.slots.length) (ho : ((s.slotAt i).accumulate d raw).2 = none) :
    s.takeSamples i d t mark lost (raw :: rest) =
      State.takeSamples { s with slots := s.slots.set i ((s.slotAt i).accumulate d raw).1 } i d t mark lost rest := by
  simp only [State.takeSamples, modSlot_eq_set s i _ h, ho]

theorem takeSamples_gated {s : State} {i : Nat} {d : Descriptor} {t : Stamp} {mark : Option (List Byte)} {lost : Bool} {raw : Int}
    {rest : List Int} {o : Output} (h : i < s.slots.length) (ho : ((s.slotAt i).accumulate d raw).2 = some o) (hk : o.kept = false) :
    s.takeSamples i d t mark lost (raw :: rest) = (State.closeOpen
      { s with slots := s.slots.set i ((s.slotAt i).accumulate d raw).1 } i).takeSamples i d t mark lost rest := by
  simp only [State.takeSamples, modSlot_eq_set s i _ h, ho, hk, Bool.not_false, if_true]

theorem takeSamples_lost {s : State} {i : Nat} {d : Descriptor} {t : Stamp} {mark : Option (List Byte)} {raw : Int}
    {rest : List Int} {o : Output} (h : i < s.slots.length) (ho : ((s.slotAt i).accumulate d raw).2 = some o) (hk : o.kept = true) :
    s.takeSamples i d t mark true (raw :: rest) =
      State.takeSamples { s with slots := s.slots.set i ((s.slotAt i).accumulate d raw).1 } i d t mark true rest := by
  simp only [State.takeSamples, modSlot_eq_set s i _ h, ho, hk, Bool.not_true, Bool.false_eq_true, if_false, if_true]

theorem takeSamples_placed {s u : State} {i : Nat} {d : Descriptor} {t : Stamp} {mark : Option (List Byte)} {raw : Int}
    {rest : List Int} {o : Output} (h : i < s.slots.length) (ho : ((s.slotAt i).accumulate d raw).2 = some o) (hk : o.kept = true)
    (hu : State.placeSample { s with slots := s.slots.set i ((s.slotAt i).accumulate d raw).1 } i d o t mark = (u, true)) :
    s.takeSamples i d t mark false (raw :: rest) = u.takeSamples i d t mark false rest := by
  simp only [State.takeSamples, modSlot_eq_set s i _ h, ho, hk, hu, Bool.not_true, Bool.false_eq_true, if_false]

theorem takeSamples_unplaced {s u : State} {i : Nat} {d : Descriptor} {t : Stamp} {mark : Option (List Byte)} {raw : Int}
    {rest : List Int} {o : Output} (h : i < s.slots.length) (ho : ((s.slotAt i).accumulate d raw).2 = some o) (hk : o.kept = true)
    (hu : State.placeSample { s with slots := s.slots.set i ((s.slotAt i).accumulate d raw).1 } i d o t mark = (u, false)) :
    s.takeSamples i d t mark false (raw :: rest) = (u.loseFrame i .pool).takeSamples i d t mark true rest := by
  simp only [State.takeSamples, modSlot_eq_set s i _ h, ho, hk, hu, Bool.not_true, Bool.false_eq_true, if_false]

/-! ### A record opened (R37) -/

/-- A slot with a record opened in page `p` at a sample. -/
def Slot.opened (x : Slot) (p : FillPage) (o : Output) (t : Stamp) (mark : Option (List Byte)) : Slot :=
  { x with
    nextSeq := (x.nextSeq + 1) % 4294967296
    page := some { p with firstSeq := if p.count = 0 then x.nextSeq else p.firstSeq, count := p.count + 1 }
    openRec := some (openRecordOf x o t mark) }

theorem placeRecord_opened (x : Slot) (p : FillPage) (o : Output) (t : Stamp) (mark : Option (List Byte)) (hp : x.page = some p) :
    { x.placeRecord with openRec := some (openRecordOf x o t mark) } = x.opened p o t mark := by
  simp [Slot.placeRecord, Slot.opened, hp, wrap32]

/-- Where the page has room the record opens in it. -/
theorem openData_in_page {s : State} {i : Nat} {d : Descriptor} {o : Output} {t : Stamp} {mark : Option (List Byte)} {p : FillPage}
    (h : i < s.slots.length) (hp : (s.slotAt i).page = some p) (hr : (s.slotAt i).openRec = none)
    (hfits : (s.bufferBytes p.buffer).length + dataSize mark.isSome (d.mode = .mark) d.width 1 ≤ 4096) :
    s.openData i d o t mark = ({ s with slots := s.slots.set i ((s.slotAt i).opened p o t mark) }, true) := by
  rw [openData_of_room h (makeRoom_of_fits s i _ p hp hr hfits), placeRecord_opened _ p o t mark hp]

/-- Without a page it opens in the lowest-numbered FREE buffer. -/
theorem openData_in_buffer {s : State} {i b : Nat} {d : Descriptor} {o : Output} {t : Stamp} {mark : Option (List Byte)}
    (h : i < s.slots.length) (hp : (s.slotAt i).page = none) (hb : s.freeBuffer = some b) : s.openData i d o t mark = ({ s with
      slots := s.slots.set i ((s.slotAt i).opened { buffer := b, firstSeq := 0, count := 0 } o t mark)
      pool := { s.pool with buffers := s.pool.buffers.set b { state := .filling, bytes := [] } } }, true) := by
  let p : FillPage := { buffer := b, firstSeq := 0, count := 0 }
  let u : State := { s with
    slots := s.slots.set i { s.slotAt i with page := some p }
    pool := { s.pool with buffers := s.pool.buffers.set b { state := .filling, bytes := [] } } }
  have hat : u.slotAt i = { s.slotAt i with page := some p } := by simp [State.slotAt, u, h]
  rw [openData_of_room (u := u) (by simpa [u] using h) (makeRoom_of_buffer s i _ b h hp hb),
    placeRecord_opened (u.slotAt i) p o t mark (by rw [hat]), hat]
  simp only [u, List.set_set]
  rfl

/-- Settles O33, part by part: the counts by `State.captured`, the frame at admission by its three outcomes, the payload's samples, the
samples in turn, and the rules of placing, pushing, closing and losing. -/
theorem sampleToAdmission : Obligations.SampleToAdmission := by
  unfold Obligations.SampleToAdmission
  refine ⟨?_, ?_, ?_, ?_, ?_, ?_, ?_, ?_, ?_⟩
  · intro s f i d hs hf ho hp hm hx hd hseq c gap
    obtain ⟨hlt, hcap, hexec⟩ := exec_sampleFrame_running hs hf ho hp hm hx hd hseq
    obtain ⟨hexp, htaken, hlimit, hpool, hgap, hnogap⟩ := counts_sequenced (s.slotAt i) s.stamp f.code hseq
    obtain ⟨hrx, hflash, hcounts⟩ := captured_sampleEnd hlt hcap
    simp only [Slot.counts, Slot.count, Prod.mk.injEq, gapEvents_countOutcome] at hcounts
    obtain ⟨hexp', htaken', hlimit', hpool', hgap'⟩ := hcounts
    refine ⟨_, hexec, hexp'.trans hexp, fun hg => hgap'.trans (hgap hg), fun hg => hgap'.trans (hnogap hg), ?_, ?_, ?_, ?_⟩
    · intro hadm
      rw [hadm] at htaken' hlimit' hpool'
      exact ⟨htaken'.trans (congrArg (fun n => min 4294967295 (n + 1)) htaken), hlimit'.trans hlimit, hpool'.trans hpool⟩
    · intro hadm
      rw [hadm] at htaken' hlimit' hpool'
      exact ⟨htaken'.trans htaken, hlimit'.trans (congrArg (fun n => min 4294967295 (n + 1)) hlimit), hpool'.trans hpool⟩
    · intro hadm
      rw [hadm] at htaken' hlimit' hpool'
      exact ⟨htaken'.trans htaken, hlimit'.trans hlimit, hpool'.trans (congrArg (fun n => min 4294967295 (n + 1)) hpool)⟩
    · exact ⟨hrx, by simp, by simp, by simp, by simp, by simp, hflash⟩
  · intro s f i d y hs hf ho hp hm hx hd hseq x ends hy
    obtain ⟨hlt, hcap, hexec⟩ := exec_sampleFrame_running hs hf ho hp hm hx hd hseq
    have hseqd : x.sequenced s.stamp f.code = y := by
      rcases hy with ⟨h0, rfl⟩ | ⟨e, he, h0, rfl⟩
      · simp only [Slot.sequenced, seqTest_inOrder x.expected f.code h0]
      · have htest : seqTest x.expected f.code = .gap ((f.code + 256 - e) % 256) := by
          rw [he]; exact seqTest_gap e f.code h0 (hseq e he)
        simp only [Slot.sequenced, htest, Slot.gapped, Slot.raiseGap]
        split <;> rfl
    rw [show (s.slotAt i).sequenced s.stamp f.code = y from hseqd] at hcap
    have hcount (g : SlotCounters → SlotCounters) : State.modSlot { s with slots := s.slots.set i y } i (fun x => x.count g) =
        { s with slots := s.slots.set i { y with counters := g y.counters } } := by
      rw [modSlot_eq_set _ i _ (by simpa using hlt)]
      simp [State.slotAt, hlt, Slot.count]
    refine ⟨fun hadm => ?_, fun hadm => ?_, fun hadm => ?_⟩
    all_goals
      rw [hadm] at hcap
      simp only [State.admitted, State.processFrame, hcount] at hcap
      rw [hcap] at hexec
      exact hexec
  · intro f k hk n
    have hraw := rawSize_of_code f.payload k hk
    have hsamples : f.samples = rawSamples k n (f.payload.drop (if f.timeMark = true then 8 else 4)) := by
      unfold Frame.samples
      rw [hraw]
      rfl
    rw [hsamples]
    refine ⟨rfl, rawSamples_length .., fun j hj => ?_⟩
    rw [rawSamples_getElem? _ _ _ _ hj, List.drop_drop]
    rfl
  · intro s i d t mark lost hlt
    refine ⟨rfl, fun raw rest => ?_⟩
    exact ⟨takeSamples_incomplete hlt, fun o ho => ⟨takeSamples_gated hlt ho, fun hk hlost => by rw [hlost]; exact takeSamples_lost hlt ho hk,
      fun hk hlost u => by rw [hlost]; exact ⟨takeSamples_placed hlt ho hk, takeSamples_unplaced hlt ho hk⟩⟩⟩
  · intro s i d o t mark hlt x size place opened hd
    have hsize (tm : Bool) (n : Nat) : size tm n = dataSize tm (d.mode = .mark) d.width n := (dataSize_eq d tm n).symm
    refine ⟨fun hn hr => ?_, fun r p hn hr hp => ?_⟩
    · have hplace : place = s.openData i d o t mark := placeSample_opens s i d o t mark hn hr
      refine ⟨fun p hp hfits => ?_, fun p hp hfull => ?_, fun b hp hb => ?_, fun hp hb => ?_⟩
      · rw [hsize] at hfits
        rw [hplace, openData_in_page hlt hp hr hfits]
        rfl
      · rw [hsize] at hfull
        rw [hplace, placeSample_pushPage s i d p o t mark hlt hd hp hn]
        unfold State.openData
        rw [makeRoom_of_full s i _ d p hlt hd hp hr hfull]
      · rw [hplace, openData_in_buffer hlt hp hb]
        rfl
      · rw [hplace, openData_of_no_room (makeRoom_of_no_buffer s i _ hp hb)]
    · intro n longer
      have hplace : place = s.appendSample i d r o t mark := placeSample_appends s i d r o t mark hn hr
      have hlong : (r.append o).size d = size r.timeMark.isSome n := by
        rw [hsize]; simp [OpenRecord.append, OpenRecord.size, n]
      rw [hplace, ← hlong]
      refine ⟨fun hfits => ?_, fun hfull => ?_⟩
      · rw [appendSample_fits s i d r p o t mark hlt hd hr hp hfits]
        exact ⟨fun hlt => by rw [if_neg (by omega)]; rfl, fun hle => by rw [if_pos hle]; rfl⟩
      · rw [appendSample_full s i d r p o t mark hd hr hp hfull, placeSample_pushPage s i d p o t mark hlt hd hp hn]
  · intro s u i d o t mark hlt hd hp hn
    refine ⟨fun hw => ?_, placeSample_of_unwritten d o t mark hn⟩
    have hat := slotAt_closeOpen s i d hlt hd hp
    obtain ⟨bufs, hclose, -, -⟩ := closeOpen_eq s i d hlt hd hp
    obtain ⟨-, -, hr, horder⟩ := writeMarkers_slot (s := s.closeOpen i) (by rw [hclose]; simpa using hlt) (by rw [hat]; exact hd)
      (by rw [hat]) hw
    rw [placeSample_of_written d o t mark hn hw, placeSample_opens u i d o t mark horder hr]
  · intro s i d p hlt hb x bytes hd hp
    exact pushPage_eq s i d p hlt hb hd hp
  · intro s i d hlt hd
    exact ⟨closeOpen_of_none s i, fun r p hr hp => closeOpen_of_some s i d r p hlt hd hr hp⟩
  · intro s i r hlt x marked
    have heq := loseFrame_eq s i r hlt
    refine ⟨fun hstop => ?_, fun hnot => ⟨fun l hl => ?_, fun hl => ?_⟩⟩
    · have htakes := (takesMarkers_eq_false_iff (s.slotAt i)).mpr hstop
      rw [heq]
      simp [htakes, Slot.raiseLoss, set_slotAt]
    all_goals
      have htakes : (s.slotAt i).takesMarkers = true := by
        rw [← Bool.not_eq_false, takesMarkers_eq_false_iff]; exact hnot
      change (s.slotAt i).markers.loss = _ at hl
      rw [heq]
      simp [htakes, Slot.raiseLoss, hl, marked, x, satAdd]

end Sys2Proof.Machine
end

