-- ==== Sys2Proof/Proofs/StreamLoad.lean ====
section
/-! The settled statement on STREAM-LOAD. -/

open Sys2Proof Sys2Proof.Machine

namespace Sys2Proof.Machine

/-! ### Check 1: the fields of the request (R3) -/

theorem sourcePortOf_eq (c : Nat) : sourcePortOf c = if c ≤ 3 ∨ c = 255 then some (if c = 255 then none else some c) else none := by
  unfold sourcePortOf
  split
  · rw [if_pos (by omega), if_neg (by omega)]
  · split
    · rw [if_pos (by omega)]
    · rw [if_neg (by omega)]

theorem roundingOf_eq (c : Nat) :
    roundingOf c = if c ≤ 2 then some (if c = 0 then .floor else if c = 1 then .halfUp else .halfEven) else none := by
  unfold roundingOf
  split
  · rfl
  · rfl
  · rfl
  · grind

theorem widthOf_eq (c : Nat) : widthOf c = if c = 0x10 ∨ c = 0x20 then some (if c = 0x10 then .w16 else .w32) else none := by
  unfold widthOf
  split
  · rfl
  · rfl
  · grind

theorem windowOf_eq (c : Nat) : windowOf c =
    if c ≤ 3 then some (if c = 0 then .off else if c = 1 then .mark else if c = 2 then .keepInside else .keepOutside) else none := by
  unfold windowOf
  split
  · rfl
  · rfl
  · rfl
  · rfl
  · grind

/-- Check 1 of R3: every field of a STREAM-LOAD request lies in its range. -/
def LoadInRange (p : List Byte) : Prop :=
  field p 0 1 ≤ 15 ∧ (field p 7 1 ≤ 3 ∨ field p 7 1 = 255) ∧ field p 6 1 ≤ 7 ∧ 8 ≤ field p 18 2 ∧ field p 18 2 ≤ 256 ∧
    field p 13 1 ∈ [1, 2, 4, 8, 16, 32, 64] ∧ field p 14 1 ≤ 24 ∧ field p 15 1 ≤ 2 ∧ (field p 24 1 = 0x10 ∨ field p 24 1 = 0x20) ∧
    field p 25 1 ≤ 3 ∧ (field p 25 1 = 0 ∨ signedField p 28 4 ≤ signedField p 32 4)

/-- The stream that a request in range asks for (R4). -/
def loadStream (p : List Byte) (level : Nat) : Descriptor :=
  { survey := field p 4 2, index := field p 6 1, sourcePort := if field p 7 1 = 255 then none else some (field p 7 1),
    tag := field p 8 2, mask := field p 10 2, ownerLevel := level, decimation := field p 13 1, shift := field p 14 1,
    rounding := if field p 15 1 = 0 then .floor else if field p 15 1 = 1 then .halfUp else .halfEven,
    gain := signedField p 16 2, recordLength := field p 18 2, offset := signedField p 20 4,
    width := if field p 24 1 = 0x10 then .w16 else .w32,
    mode := if field p 25 1 = 0 then .off else if field p 25 1 = 1 then .mark else if field p 25 1 = 2 then .keepInside
      else .keepOutside,
    low := if field p 25 1 = 0 then 0 else signedField p 28 4, high := if field p 25 1 = 0 then 0 else signedField p 32 4 }

theorem windowMode_off_iff (c : Nat) : (if c = 0 then WindowMode.off else if c = 1 then .mark else if c = 2 then .keepInside
    else .keepOutside) = .off ↔ c = 0 := by
  grind

theorem loadDescriptor_of_inRange {p : List Byte} {level : Nat} (h : LoadInRange p) :
    loadDescriptor p level = some (loadStream p level) := by
  obtain ⟨hi, hport, hindex, hr, hr', hdec, hshift, hround, hwidth, hmode, hwindow⟩ := h
  unfold loadDescriptor
  simp only [sourcePortOf_eq, roundingOf_eq, widthOf_eq, windowOf_eq, if_pos hport, if_pos hround, if_pos hwidth, if_pos hmode,
    windowMode_off_iff]
  rw [if_pos ⟨hi, hindex, hr, hr', List.contains_iff_mem.mpr hdec, hshift, hwindow⟩]
  rfl

theorem inRange_of_loadDescriptor {p : List Byte} {level : Nat} {d : Descriptor} (h : loadDescriptor p level = some d) :
    LoadInRange p := by
  unfold loadDescriptor at h
  split at h
  · rename_i port rounding width mode hport hround hwidth hmode
    simp only [sourcePortOf_eq, roundingOf_eq, widthOf_eq, windowOf_eq, Option.ite_none_right_eq_some, Option.some.injEq]
      at hport hround hwidth hmode
    obtain ⟨⟨hi, hindex, hr, hr', hdec, hshift, hwindow⟩, -⟩ := Option.ite_none_right_eq_some.mp h
    rw [← hmode.2, windowMode_off_iff] at hwindow
    exact ⟨hi, hport.1, hindex, hr, hr', List.contains_iff_mem.mp hdec, hshift, hround.1, hwidth.1, hmode.1, hwindow⟩
  · cases h

theorem loadDescriptor_of_not {p : List Byte} {level : Nat} (h : ¬ LoadInRange p) : loadDescriptor p level = none :=
  Option.eq_none_iff_forall_ne_some.mpr fun _ hd => h (inRange_of_loadDescriptor hd)

/-! ### Checks 2 to 9 (R3) -/

/-- The checks on the drive and the slot have passed: formatted, slot EMPTY or STOPPED and not loading, owner level kept. -/
structure State.LoadSlotOk (s : State) (i level : Nat) : Prop where
  formatted : s.power.unformatted = false
  state : (s.slotAt i).state = .empty ∨ (s.slotAt i).state = .stopped
  idle : (s.slotAt i).loading = false
  owner : (s.slotAt i).state = .stopped → ∃ o, (s.slotAt i).desc = some o ∧ level ≤ o.ownerLevel

theorem loadRefused_unformatted {s : State} (i : Nat) (d : Descriptor) (level : Nat) (h : s.power.unformatted = true) :
    s.loadRefused i d level = some .state := by
  simp only [State.loadRefused, h, if_true]

theorem loadRefused_slot {s : State} {i : Nat} (d : Descriptor) (level : Nat) (h : s.power.unformatted = false)
    (hx : ((s.slotAt i).state ≠ .empty ∧ (s.slotAt i).state ≠ .stopped) ∨ (s.slotAt i).loading = true) :
    s.loadRefused i d level = some .state := by
  unfold State.loadRefused
  dsimp only
  rw [if_neg (by simp [h]), if_pos (by rw [not_or]; exact hx)]

theorem loadRefused_owner {s : State} {i : Nat} (d : Descriptor) {level : Nat} {o : Descriptor} (h : s.power.unformatted = false)
    (hx : (s.slotAt i).state = .stopped) (hl : (s.slotAt i).loading = false) (ho : (s.slotAt i).desc = some o)
    (hlev : o.ownerLevel < level) : s.loadRefused i d level = some .level := by
  unfold State.loadRefused
  dsimp only
  rw [if_neg (by simp [h]), if_neg (by simp [hx, hl]), if_pos (by simp only [hx, ho]; exact ⟨trivial, hlev⟩)]

/-- Past the slot's checks, the survey that the stream names decides. -/
theorem loadRefused_noSuch {s : State} {i : Nat} {d : Descriptor} {level : Nat} (h : s.LoadSlotOk i level)
    (hv : s.confirmedSurvey d.survey = none) : s.loadRefused i d level = some .noSuch := by
  unfold State.loadRefused
  dsimp only
  rw [if_neg (by simp [h.formatted]), if_neg (by simp [h.state, h.idle]), if_neg, hv]
  rintro ⟨hx, hlt⟩
  obtain ⟨o, ho, hle⟩ := h.owner hx
  simp only [ho] at hlt
  omega

/-- Checks 5 to 9 on the survey, in their order. -/
theorem loadRefused_survey {s : State} {i : Nat} {d : Descriptor} {level : Nat} {v : Survey} (h : s.LoadSlotOk i level)
    (hv : s.confirmedSurvey d.survey = some v) : s.loadRefused i d level =
      if v.state ≠ .open then some .state
      else if v.creator < level then some .level
      else if 8 ≤ v.streamCount then some .full
      else if v.headOf d.index ≠ none then some .state
      else if s.media.mediaFull = true ∨ s.unused - 1 ≤ s.liveCount + 1 then some .full
      else none := by
  unfold State.loadRefused
  dsimp only
  rw [if_neg (by simp [h.formatted]), if_neg (by simp [h.state, h.idle]), if_neg, hv]
  · simp only [Option.isSome_iff_ne_none, not_lt]
  · rintro ⟨hx, hlt⟩
    obtain ⟨o, ho, hle⟩ := h.owner hx
    simp only [ho] at hlt
    omega

/-! ### The rule and its take -/

theorem streamLoad_refused {s : State} {f : Frame} {level : Nat} {st : Status} (h : LoadInRange f.payload)
    (hr : s.loadRefused f.slotField (loadStream f.payload level) level = some st) :
    s.streamLoad f level = s.refuse .streamLoad f level st := by
  simp only [State.streamLoad, loadDescriptor_of_inRange h, hr]

/-- An accepted load occupies the Operation Slot, marks its slot as loading and begins its take (R4, R64). -/
theorem streamLoad_passed {s : State} {f : Frame} {level : Nat} (h : LoadInRange f.payload)
    (hr : s.loadRefused f.slotField (loadStream f.payload level) level = none) :
    s.streamLoad f level = (((s.accept .streamLoad f level (.streamLoad f.slotField (loadStream f.payload level))).modSlot f.slotField
      (fun x => { x with loading := true })).makeTake (loadTake f.slotField (loadStream f.payload level))).arbitrate := by
  simp only [State.streamLoad, loadDescriptor_of_inRange h, hr]

theorem aheadInFlight_eq_some_iff (s : State) (g : Nat) : s.aheadInFlight = some g ↔ s.media.op = some (.aheadErase g) := by
  unfold State.aheadInFlight
  split <;> simp_all

/-- A load's take that is not among the takes joins them at the end. -/
theorem putTake_load_new {s : State} {t : Take} (hl : t.load = true) (hnew : ∀ u ∈ s.media.takes, ¬ (u.load = true ∧ u.slot = t.slot)) :
    s.putTake t = { s with media := { s.media with takes := s.media.takes ++ [t] } } := by
  have hany : s.media.takes.any (Take.same t) = false := by
    rw [List.any_eq_false]
    intro u hu
    simp only [Take.same, hl, Bool.and_eq_true, beq_iff_eq, not_and]
    exact fun hload hslot => hnew u hu ⟨hload.symm, hslot.symm⟩
  simp only [State.putTake, hany, hl, Bool.false_eq_true, if_false, if_true]

/-- A load's take with a READY segment: the first of the Ready List becomes TAKEN for its header program (R64). -/
theorem makeTake_load_ready {s : State} {t : Take} {g : Nat} {rest : List Nat} (hg : s.media.ready = g :: rest) (hl : t.load = true)
    (hnew : ∀ u ∈ s.media.takes, ¬ (u.load = true ∧ u.slot = t.slot)) :
    s.makeTake t = State.testMediaFull { s with media := { s.media with
      ready := rest
      segs := s.media.segs.modify g (fun y => { y with state := .taken })
      takes := s.media.takes ++ [{ t with phase := .header g }] } } true := by
  simp only [State.makeTake, hg]
  rw [putTake_load_new (s := State.setSegState { s with media := { s.media with ready := rest } } g .taken)
    (t := { t with phase := .header g }) hl hnew]
  rfl

/-- Settles O30: check 1 by the fields' ranges, checks 2 to 9 in their order, and the take of an accepted load. -/
theorem streamLoad : Obligations.StreamLoad := by
  unfold Obligations.StreamLoad
  refine ⟨?_, fun s t g rest hg hl hnew => makeTake_load_ready hg hl hnew⟩
  intro s f h b z i level x inRange refused unused
  have hrow := exec_row_of_takes h
  have hrefused {st : Status} (hr : s.streamLoad f level = s.refuse .streamLoad f level st) : refused st := exec_row_refused h hr
  have hunused : unused = s.unused := by
    simp only [unused]
    split
    · rename_i g hop
      simp [State.unused, (aheadInFlight_eq_some_iff s g).mpr hop]
    · rename_i hop
      simp [State.unused, Option.eq_none_iff_forall_ne_some.mpr fun g hg => hop g ((aheadInFlight_eq_some_iff s g).mp hg)]
  refine ⟨fun hnot => hrefused ?_, fun (hin : LoadInRange f.payload) => ⟨loadStream f.payload level, ?_, fun hu => ?_, fun hu => ?_⟩⟩
  · have hnone : loadDescriptor f.payload level = none := loadDescriptor_of_not hnot
    simp only [State.streamLoad, hnone]
  · exact ⟨rfl, rfl, rfl, rfl, rfl, rfl, rfl, rfl, rfl, rfl, rfl, rfl, rfl, rfl, rfl, rfl, rfl⟩
  · exact hrefused (streamLoad_refused hin (loadRefused_unformatted _ _ _ hu))
  · refine ⟨fun hx => hrefused (streamLoad_refused hin (loadRefused_slot _ _ hu hx)), fun hx hl => ⟨fun o hs ho hlt => ?_, fun ho => ?_⟩⟩
    · exact hrefused (streamLoad_refused hin (loadRefused_owner _ hu hs hl ho hlt))
    · have hok : s.LoadSlotOk f.slotField level := ⟨hu, hx, hl, ho⟩
      refine ⟨fun hv => hrefused (streamLoad_refused hin (loadRefused_noSuch hok hv)), fun v hv => ?_⟩
      have hsurvey := loadRefused_survey hok hv
      rw [hunused]
      refine ⟨fun hst => ?_, fun hst hlev => ?_, fun hst hlev hcount => ?_, fun hst hlev hcount hhead => ?_,
        fun hst hlev hcount hhead => ⟨fun hm => ?_, fun hm hleft => ?_⟩⟩
      · rw [if_pos hst] at hsurvey
        exact hrefused (streamLoad_refused hin hsurvey)
      all_goals rw [if_neg (not_not_intro hst)] at hsurvey
      · rw [if_pos hlev] at hsurvey
        exact hrefused (streamLoad_refused hin hsurvey)
      all_goals rw [if_neg (Nat.not_lt.mpr hlev)] at hsurvey
      · rw [if_pos hcount] at hsurvey
        exact hrefused (streamLoad_refused hin hsurvey)
      all_goals rw [if_neg (Nat.not_le.mpr hcount)] at hsurvey
      · rw [if_pos hhead] at hsurvey
        exact hrefused (streamLoad_refused hin hsurvey)
      all_goals rw [if_neg (not_not_intro hhead)] at hsurvey
      · rw [if_pos hm] at hsurvey
        exact hrefused (streamLoad_refused hin hsurvey)
      · rw [if_neg (by rw [hm]; simp; omega)] at hsurvey
        rw [show Opcode.rule .streamLoad s f (s.effective f) = _ from streamLoad_passed hin hsurvey] at hrow
        exact hrow

end Sys2Proof.Machine
end

