-- ==== Sys2Proof/Proofs/SurveyClose.lean ====
section
/-! The settled statement on SURVEY-CLOSE, the stops it begins, and the entry that closes the survey. -/

open Sys2Proof Sys2Proof.Machine

namespace Sys2Proof.Machine

/-- The survey found for a number carries it. -/
theorem number_of_confirmed {s : State} {n : Nat} {v : Survey} (h : s.confirmedSurvey n = some v) : v.number = n := by
  have hat : s.surveyAt n = some v := by
    unfold State.confirmedSurvey at h
    split at h
    · rename_i w hw
      split at h
      · cases h; exact hw
      · cases h
    · cases h
  simpa using List.find?_some hat

/-! ### The checks of R87 -/

theorem surveyCheck_param (s : State) (n level : Nat) (limit : Survey → Nat) (h : n = 0) :
    s.surveyCheck n level true limit = .inl .param := by
  unfold State.surveyCheck
  rw [if_pos (.inl h)]

theorem surveyCheck_noSuch (s : State) (n level : Nat) (limit : Survey → Nat) (h : n ≠ 0) (hv : s.confirmedSurvey n = none) :
    s.surveyCheck n level true limit = .inl .noSuch := by
  unfold State.surveyCheck
  rw [if_neg (by simp [h]), hv]

theorem surveyCheck_found (s : State) (n level : Nat) (limit : Survey → Nat) (v : Survey) (h : n ≠ 0)
    (hv : s.confirmedSurvey n = some v) :
    s.surveyCheck n level true limit = if limit v < level then .inl .level else .inr v := by
  unfold State.surveyCheck
  rw [if_neg (by simp [h]), hv]

theorem surveyClose_refused {s : State} {f : Frame} {level : Nat} {st : Status}
    (h : s.surveyCheck f.surveyField level true Survey.creator = .inl st) : s.surveyClose f level = s.refuse .surveyClose f level st := by
  simp only [State.surveyClose, h]

theorem surveyClose_found {s : State} {f : Frame} {level : Nat} {v : Survey}
    (h : s.surveyCheck f.surveyField level true Survey.creator = .inr v) : s.surveyClose f level = if v.state = .open then
      ((((s.accept .surveyClose f level (.surveyClose v.number)).modSurvey v.number
        (fun x => { x with state := .closing })).beginStops (s.liveSlotsOf v.number)).arbitrate)
      else s.refuse .surveyClose f level .state := by
  simp only [State.surveyClose, h]
  rfl

/-- The slots that a survey's close stops. -/
theorem mem_liveSlotsOf (s : State) (n i : Nat) : i ∈ s.liveSlotsOf n ↔ i < s.slots.length ∧ (s.slotAt i).stopping = false ∧
    ((s.slotAt i).state = .loaded ∨ (s.slotAt i).state = .running ∨ (s.slotAt i).state = .paused) ∧
    ∃ d, (s.slotAt i).desc = some d ∧ d.survey = n := by
  unfold State.liveSlotsOf
  rw [(slotsWhere_spec s _).2 i, Bool.and_eq_true, Bool.and_eq_true, live_iff]
  cases (s.slotAt i).desc with
  | none => simp
  | some d => simp; tauto

theorem beginStops_foldl (s : State) (l : List Nat) : s.beginStops l = l.foldl (fun u i => u.beginStop i) s := by
  induction l generalizing s with
  | nil => rfl
  | cons a l ih => exact ih _

/-! ### The entry that closes the survey (R90) -/

theorem closeReady_iff (s : State) (w : Survey) : s.closeReady w = true ↔ w.state = .closing ∧ w.closed = none ∧ ∀ x ∈ s.slots,
    x.state = .loaded ∨ x.state = .running ∨ x.state = .paused → ∀ d, x.desc = some d → d.survey ≠ w.number := by
  unfold State.closeReady
  rw [Bool.and_eq_true, Bool.and_eq_true, Bool.not_eq_true', List.any_eq_false, beq_iff_eq, Option.isNone_iff_eq_none, and_assoc]
  refine and_congr_right fun _ => and_congr_right fun _ => forall₂_congr fun x _ => ?_
  rw [← live_iff]
  cases x.desc <;> simp

/-- The first survey of the table whose close is due. -/
theorem closedSurvey_eq {s : State} {before after : List Survey} {v : Survey} (h : s.table.surveys = before ++ v :: after)
    (hv : s.closeReady v = true) (hb : ∀ w ∈ before, ¬ s.closeReady w = true) : s.closedSurvey = some v := by
  unfold State.closedSurvey
  rw [h, List.find?_append, List.find?_eq_none.mpr hb, List.find?_cons_of_pos hv]
  rfl

/-- Settles O40: the checks of R87, the stops of the survey's live slots, and the entry of the first survey that is ready to close. -/
theorem surveyClose : Obligations.SurveyClose := by
  unfold Obligations.SurveyClose
  refine ⟨?_, ?_, beginStops_foldl, ?_⟩
  · intro s f h n level refused
    have hrow := exec_row_of_takes h
    have hrefused {st : Status} (hr : s.surveyCheck f.surveyField level true Survey.creator = .inl st) :
        exec .surveyClose s = refused st := exec_row_refused h (surveyClose_refused hr)
    refine ⟨fun h0 => hrefused (surveyCheck_param s _ _ _ h0), fun h0 hv => hrefused (surveyCheck_noSuch s _ _ _ h0 hv), fun v h0 hv => ?_⟩
    have hfound := surveyCheck_found s f.surveyField level Survey.creator v h0 hv
    refine ⟨fun hlt => hrefused (hfound.trans (if_pos hlt)), fun hle hst => ?_,
      fun hle hst => ⟨s.liveSlotsOf n, mem_liveSlotsOf s n, (slotsWhere_spec s _).1, ?_⟩⟩
    all_goals
      rw [if_neg (Nat.not_lt.mpr hle)] at hfound
      have hrule := surveyClose_found hfound
    · rw [if_neg hst] at hrule
      exact exec_row_refused h hrule
    · rw [if_pos hst, number_of_confirmed hv] at hrule
      rw [show Opcode.rule .surveyClose s f (s.effective f) = _ from hrule] at hrow
      exact hrow
  · intro s before after v hdue ends hsurveys hv hb
    have hsurvey := closedSurvey_eq hsurveys ((closeReady_iff s v).mpr hv) (fun w hw hready => hb w hw ((closeReady_iff s w).mp hready))
    show Host.Outcome.next (s.makeIfDue .surveyClosedEntryRequest) = _
    rw [makeIfDue_of_due hdue, show s.make .surveyClosedEntryRequest = s.makeClosedEntry from rfl]
    simp only [State.makeClosedEntry, hsurvey]
    rfl
  · intro s i d h x hd hp
    obtain ⟨bufs, heq, hnone, hsome⟩ := beginStop_eq s i d h hd hp
    exact ⟨_, heq, rfl, hnone, hsome⟩

end Sys2Proof.Machine
end

