-- ==== Sys2Proof/Proofs/HeaderEnds.lean ====
section
/-! The settled statement on the end of a header program. -/

open Sys2Proof Sys2Proof.Machine

namespace Sys2Proof.Machine

/-! ### The end of the program (R4, R65) -/

theorem exec_headerProgramEnd {s : State} {g : Nat} (hs : s.Settled) (hop : s.media.op = some (.headerProgram g)) (ok : Bool) :
    exec (.headerProgramEnd ok) s = .next ((s.headerEnd g ok).afterOp).holdIdle := by
  show Host.Outcome.next ((s.settle.endHeaderProgram ok).holdIdle) = _
  rw [settle_of_settled hs]
  simp only [State.endHeaderProgram, hop]

/-- The take that a header program is made for stands as before when the program ends. -/
theorem headerTake_endProgram (s : State) (g h : Nat) (ok : Bool) : (s.endProgram g 0 ok).headerTake h = s.headerTake h := by
  obtain ⟨fl, n, heq⟩ := endProgram_eq s g 0 ok
  rw [heq]
  rfl

theorem headerEnd_load {s : State} {g : Nat} {t : Take} (ht : s.headerTake g = some t) (hl : t.load = true) :
    s.headerEnd g true = ((s.endProgram g 0 true).dropTake t).completeLoad g t := by
  simp only [State.headerEnd, headerTake_endProgram, ht, hl, if_true]

theorem headerEnd_issue {s : State} {g : Nat} {t : Take} (ht : s.headerTake g = some t) (hl : t.load = false) :
    s.headerEnd g true = ((s.endProgram g 0 true).dropTake t).joinChain g t := by
  simp only [State.headerEnd, headerTake_endProgram, ht, hl, if_true, Bool.false_eq_true, if_false]

/-- A failed program: the segment is rejected and the take made again, but for a load that failed twice. -/
theorem headerEnd_failed {s : State} {g : Nat} {t : Take} (ht : s.headerTake g = some t) : s.headerEnd g false =
    (if t.load = true ∧ 1 ≤ t.headerFails then
        (((s.endProgram g 0 false).rejectHeader g).dropTake { t with headerFails := t.headerFails + 1 }).failLoad t.slot
      else ((s.endProgram g 0 false).rejectHeader g).makeTake { t with headerFails := t.headerFails + 1 }).offerAll := by
  simp only [State.headerEnd, headerTake_endProgram, ht, Bool.false_eq_true, if_false, Bool.and_eq_true, decide_eq_true_eq,
    Nat.add_le_add_iff_right (n := 1) (m := 1)]

/-! ### Joining a chain (R65) -/

/-- The segment that joins a chain. -/
def Segment.joined (x : Segment) (t : Take) (seq : Nat) : Segment :=
  { x with
    state := .active
    chain := some { survey := t.survey, index := t.index, seq := seq, firstSeq := t.firstSeq, next := none, writePoint := 1, voids := 0 } }

/-- A page issue's segment joins behind the previous tail, which takes a link to it and becomes FULL if it was ACTIVE. -/
theorem joinChain_issue {s : State} {g old : Nat} {t : Take} {x y : Segment} {c : ChainInfo} (hl : t.load = false)
    (ht : s.tailOf t.survey t.index = some old) (hne : old ≠ g) (hx : s.media.segs[g]? = some x) (hy : s.media.segs[old]? = some y)
    (hc : y.chain = some c) : ∃ segs, s.joinChain g t = { s with
        media := { s.media with segs := segs }
        table := { s.table with surveys := s.table.surveys.map (fun v =>
          if v.number = t.survey then { v with tails := v.tails.set t.index (some g) } else v) } } ∧
      segs[g]? = some (x.joined t (c.seq + 1)) ∧
      segs[old]? = some { y with chain := some { c with next := some g }, state := if y.state = .active then .full else y.state } ∧
      ∀ h, h ≠ g → h ≠ old → segs[h]? = s.media.segs[h]? := by
  have hseq : s.takeSeq t = c.seq + 1 := by
    simp [State.takeSeq, hl, ht, State.chainAt, State.segAt, hy, hc]
  unfold State.joinChain
  simp only [hl, ht, hseq, Bool.false_eq_true, if_false]
  refine ⟨_, rfl, ?_, ?_, fun h hg ho => ?_⟩
  · simp only [modSeg_media, modChain_media, List.getElem?_modify, if_neg hne, hx]
    rfl
  · simp only [modSeg_media, modChain_media, List.getElem?_modify, if_neg (Ne.symm hne), hy, if_true]
    by_cases hact : y.state = .active <;> simp [hact, hc]
  · simp only [modSeg_media, modChain_media, List.getElem?_modify, if_neg (Ne.symm hg), if_neg (Ne.symm ho)]
    simp

/-- A load's segment begins its chain with sequence 0. -/
theorem joinChain_load {s : State} {g : Nat} {t : Take} {x : Segment} (hl : t.load = true) (hx : s.media.segs[g]? = some x) :
    ∃ segs, s.joinChain g t = { s with
        media := { s.media with segs := segs }
        table := { s.table with surveys := s.table.surveys.map (fun v => if v.number = t.survey then
          { v with tails := v.tails.set t.index (some g), heads := v.heads.set t.index (some g) } else v) } } ∧
      segs[g]? = some (x.joined t 0) ∧ ∀ h, h ≠ g → segs[h]? = s.media.segs[h]? := by
  have hseq : s.takeSeq t = 0 := by simp [State.takeSeq, hl]
  unfold State.joinChain
  simp only [hl, hseq, if_true]
  refine ⟨_, rfl, ?_, fun h hg => ?_⟩
  · simp only [List.getElem?_modify, hx, if_true]
    rfl
  · simp [Ne.symm hg]

/-- A load's descriptor is that of the command in the Operation Slot. -/
theorem slot_of_takeDescriptor {s : State} {t : Take} {d : Descriptor} (hl : t.load = true) (hd : s.takeDescriptor t = some d) :
    ∃ c, s.slot = some c := by
  cases hc : s.slot with
  | none => simp [State.takeDescriptor, hl, hc] at hd
  | some c => exact ⟨c, rfl⟩

/-- A load's segment joins, its slot becomes LOADED with the descriptor, its survey counts one stream more, and the command ends (R4). -/
theorem completeLoad_eq {s : State} {g : Nat} {t : Take} {x : Segment} {d : Descriptor} (hl : t.load = true)
    (hd : s.takeDescriptor t = some d) (hslot : t.slot < s.slots.length) (hx : s.media.segs[g]? = some x) :
    ∃ w : State, s.completeLoad g t = w.completeOp .ok .none ∧ ∃ segs table, w = { s with
        slots := s.slots.set t.slot (Slot.loadedWith d), media := { s.media with segs := segs }, table := table } ∧
      segs[g]? = some (x.joined t 0) ∧ (∀ h, h ≠ g → segs[h]? = s.media.segs[h]?) ∧
      ∀ v, s.surveyAt t.survey = some v → w.surveyAt t.survey = some { v with
        tails := v.tails.set t.index (some g), heads := v.heads.set t.index (some g), streamCount := v.streamCount + 1 } := by
  obtain ⟨segs, hjoin, hg, hother⟩ := joinChain_load (s := s) hl hx
  let join (v : Survey) : Survey := { v with tails := v.tails.set t.index (some g), heads := v.heads.set t.index (some g) }
  let count (v : Survey) : Survey := { v with streamCount := v.streamCount + 1 }
  let w : State := ((s.joinChain g t).modSlot t.slot (fun _ => Slot.loadedWith d)).modSurvey t.survey count
  refine ⟨w, ?_, segs, w.table, ?_, hg, hother, ?_⟩
  · simp only [State.completeLoad, hd]
    rfl
  · simp only [w]
    rw [hjoin, modSlot_eq_set _ _ _ (by simpa using hslot)]
    rfl
  · intro v hv
    have hfirst : (s.joinChain g t).surveyAt t.survey = (s.surveyAt t.survey).map join := by
      rw [hjoin]
      exact surveyAt_modSurvey s t.survey join (fun _ => rfl)
    rw [show w.surveyAt t.survey = _ from surveyAt_modSurvey _ t.survey count (fun _ => rfl)]
    show ((s.joinChain g t).surveyAt t.survey).map count = _
    rw [hfirst, hv]
    rfl

/-! ### Rejecting a segment (R65) -/

/-- A first failure puts the segment at the tail of the Free List, marked; a second makes it BAD. -/
theorem rejectHeader_eq {s : State} {g : Nat} {x : Segment} (hx : s.media.segs[g]? = some x) : ∃ segs free tx,
    s.rejectHeader g = { s with port := { s.port with tx := tx }, media := { s.media with segs := segs, free := free } } ∧
      (∀ h, h ≠ g → segs[h]? = s.media.segs[h]?) ∧
      (x.headerFailed = false → segs[g]? = some { x with state := .free, headerFailed := true } ∧ free = s.media.free ++ [g]) ∧
      (x.headerFailed = true → segs[g]? = some { x with state := .bad } ∧ free = s.media.free) := by
  have hat : s.segAt g = some x := hx
  cases hf : x.headerFailed with
  | false =>
    have heq : s.rejectHeader g = State.raise { s with media := { s.media with
        segs := s.media.segs.modify g (fun x => { x with state := .free, headerFailed := true })
        free := s.media.free ++ [g] } } (.media (.header g)) := by
      simp only [State.rejectHeader, hat, hf, Bool.false_eq_true, if_false]
      rfl
    obtain ⟨tx, hraise⟩ := raise_eq { s with media := { s.media with
        segs := s.media.segs.modify g (fun x => { x with state := .free, headerFailed := true })
        free := s.media.free ++ [g] } } (.media (.header g))
    rw [heq, hraise]
    exact ⟨_, _, tx, rfl, fun h hg => by simp [Ne.symm hg],
      fun _ => ⟨by simp [hx], rfl⟩, fun h => absurd h (by decide)⟩
  | true =>
    have heq : s.rejectHeader g = (s.setSegState g .bad).raise (.media (.bad g)) := by
      simp only [State.rejectHeader, hat, hf, if_true]
    obtain ⟨tx, hraise⟩ := raise_eq (s.setSegState g .bad) (.media (.bad g))
    rw [heq, hraise]
    exact ⟨_, s.media.free, tx, rfl, fun h hg => by simp [Ne.symm hg],
      fun h => absurd h (by decide), fun _ => ⟨by simp [hx, hf], rfl⟩⟩

/-- Settles O50: the joined segment of a page issue, that of a load, and the rejection with the take made again. -/
theorem headerEnds : Obligations.HeaderEnds := by
  unfold Obligations.HeaderEnds
  intro s g t x hs hop ht hx joined gone
  have hexec := exec_headerProgramEnd hs hop
  have htake : s.headerTake g = some t := ht
  refine ⟨fun old y c hl htail hne hy hc => ?_, fun d hl hd hslot => ?_, ?_⟩
  · obtain ⟨fl, n, hend⟩ := endProgram_eq s g 0 true
    obtain ⟨segs, hjoin, hg, hold, hother⟩ := joinChain_issue (s := (s.endProgram g 0 true).dropTake t) hl (by rw [hend]; exact htail) hne
      (by rw [hend]; exact hx) (by rw [hend]; exact hy) hc
    refine ⟨_, by rw [hexec, headerEnd_issue htake hl], ?_⟩
    rw [hjoin, hend]
    rw [hend] at hother
    exact ⟨rfl, rfl, hg, hold, hother, rfl, rfl, rfl, rfl⟩
  · obtain ⟨fl, n, hend⟩ := endProgram_eq s g 0 true
    let v : State := (s.endProgram g 0 true).dropTake t
    have hv : v = { s with media := { s.media with flash := fl, op := none, image := none, takes := gone }, freeCount := n } := by
      simp only [v]; rw [hend]; rfl
    obtain ⟨w, hload, hw⟩ := completeLoad_eq (s := v) (g := g) (x := x) hl (by rw [hv]; exact hd) (by rw [hv]; exact hslot)
      (by rw [hv]; exact hx)
    obtain ⟨segs, table, hw, hg, hother, hsurvey⟩ := hw
    obtain ⟨c, hc⟩ := slot_of_takeDescriptor hl hd
    have hop : v.completeLoad g t = { w with
        slot := none
        port := if c.suppressed then w.port else { w.port with tx := w.port.tx ++ [.reply
          { port := c.port, tag := c.tag, level := c.level, status := .ok, kept := true, payload := .none }] } } := by
      rw [hload]; exact completeOp_of_slot w c _ _ (by rw [hw, hv]; exact hc)
    have hport : w.port = s.port := by rw [hw, hv]
    refine ⟨v.completeLoad g t, by rw [hexec, headerEnd_load htake hl], ?_⟩
    rw [hop]
    refine ⟨by rw [hw, hv], by rw [hw, hv], by rw [hw]; exact hg, fun h hh => ?_, by rw [hw, hv]; rfl, rfl, by rw [hw, hv], fun c' hc' => ?_,
      fun y hy => ?_⟩
    · have := hother h hh
      rw [hv] at this
      rw [hw]; exact this
    · rw [hc] at hc'
      cases hc'
      dsimp only
      rw [hport]
    · exact hsurvey y (by rw [hv]; exact hy)
  · obtain ⟨fl, n, hend⟩ := endProgram_eq s g 0 false
    obtain ⟨segs, free, tx, hreject, hother, hfirst, hsecond⟩ := rejectHeader_eq (s := s.endProgram g 0 false) (x := x)
      (by rw [hend]; exact hx)
    have hfail := headerEnd_failed htake
    rw [hend] at hother hfirst hsecond
    refine ⟨(s.endProgram g 0 false).rejectHeader g, by rw [hreject, hend], by rw [hreject]; exact hother, by rw [hreject, hend],
      by rw [hreject, hend], by rw [hreject, hend], by rw [hreject]; exact hfirst, by rw [hreject]; exact hsecond, fun hagain => ?_,
      fun hl hfails => ?_⟩
    · rw [if_neg (by rintro ⟨h1, h2⟩; rcases hagain with h | h <;> simp_all)] at hfail
      rw [hexec, hfail]
    · rw [if_pos ⟨hl, hfails⟩] at hfail
      have htakes : ((s.endProgram g 0 false).rejectHeader g).media.takes = s.media.takes := by rw [hreject, hend]
      rw [hexec, hfail]
      unfold State.dropTake
      rw [htakes]
      rfl

end Sys2Proof.Machine
end

