-- ==== Sys2Proof/Proofs/ImposedPauses.lean ====
section
/-! SUPPORT. The pauses that a level change and media-full impose on streams (R11, R68): the slots that they meet, what a pause leaves of
one, and the media-full test. -/

open Sys2Proof Sys2Proof.Machine

namespace Sys2Proof.Machine

/-! ### The slots that are paused (log 9) -/

theorem pauseRunning_foldl (s : State) (r : PauseReason) : ∃ ids : List Nat, ids.Pairwise (· < ·) ∧
    (∀ i, i ∈ ids ↔ i < s.slots.length ∧ (s.slotAt i).state = .running) ∧
    s.pauseRunning r = ids.foldl (fun u i => u.imposePause r i) s := by
  obtain ⟨hsorted, hmem⟩ := slotsWhere_spec s (fun x => x.state == .running)
  exact ⟨_, hsorted, fun i => by simpa using hmem i, imposePauses_foldl s r _⟩

theorem enterCriticalStreams_foldl (s : State) : ∃ ids : List Nat, ids.Pairwise (· < ·) ∧
    (∀ i, i ∈ ids ↔ i < s.slots.length ∧ ((s.slotAt i).state = .running ∨ (s.slotAt i).state = .paused)) ∧
    s.enterCriticalStreams = ids.foldl (fun u i => u.criticalPause i) s := by
  obtain ⟨hsorted, hmem⟩ := slotsWhere_spec s (fun x => x.state == .running || x.state == .paused)
  exact ⟨_, hsorted, fun i => by simpa using hmem i, criticalPauses_foldl s _⟩

/-! ### One pause -/

/-- Slot `i` is paused with the markers and the reason given: its open record's bytes join the fill page and the partial group is
dropped. -/
def State.PausedTo (s : State) (i : Nat) (d : Descriptor) (u : State) (m : Markers) (reason : Option PauseReason) : Prop :=
  u = { s with
    slots := s.slots.set i { s.slotAt i with openRec := none, acc := 0, fill := 0, markers := m, state := .paused, reason := reason }
    pool := { s.pool with buffers := u.pool.buffers } } ∧
  ((s.slotAt i).openRec = none → u.pool.buffers = s.pool.buffers) ∧
  ∀ r p, (s.slotAt i).openRec = some r → (s.slotAt i).page = some p →
    u.pool.buffers = s.pool.buffers.modify p.buffer (fun b => { b with bytes := b.bytes ++ r.bytes d })

/-- Closing the record and rewriting the slot pauses it, whatever function writes the paused slot. -/
theorem pausedTo_modSlot {s : State} {i : Nat} {d : Descriptor} {m : Markers} {reason : Option PauseReason} {f : Slot → Slot}
    (h : i < s.slots.length) (hd : (s.slotAt i).desc = some d)
    (hp : (s.slotAt i).openRec.isSome = true → (s.slotAt i).page.isSome = true)
    (hf : f { s.slotAt i with openRec := none } = { s.slotAt i with
      openRec := none, acc := 0, fill := 0, markers := m, state := .paused, reason := reason }) :
    s.PausedTo i d ((s.closeOpen i).modSlot i f) m reason := by
  obtain ⟨bufs, heq, hnone, hsome⟩ := modSlot_closeOpen s i d f h hd hp
  rw [heq, hf]
  exact ⟨rfl, hnone, hsome⟩

/-- A pause by RESERVE or media-full (R11). -/
theorem imposePause_eq {s : State} {i : Nat} {d : Descriptor} (r : PauseReason) (h : i < s.slots.length)
    (hd : (s.slotAt i).desc = some d) (hp : (s.slotAt i).openRec.isSome = true → (s.slotAt i).page.isSome = true)
    (hs : (s.slotAt i).stopping = false) : ∃ u,
    s.PausedTo i d u { (s.slotAt i).markers with
      resume := none
      pause := some ((s.slotAt i).markers.pause.getD { stamp := s.stamp, index := (s.slotAt i).outputIndex, reason := r }) } (some r) ∧
    s.imposePause r i = u.raise (.stream i .paused (.pause (some r))) := by
  refine ⟨_, pausedTo_modSlot (f := fun x => { (x.discardSum.raisePause s.stamp r) with state := .paused, reason := some r }) h hd hp ?_, ?_⟩
  · rw [pause_of_not_stopping _ _ _ (by exact hs)]
  · simp [State.imposePause, State.stamp]

/-- The pause reason of a slot, after a requested close of its page. -/
theorem reason_requestClose (s : State) (i : Nat) : ((s.requestClose i).slotAt i).reason = (s.slotAt i).reason :=
  view_slotAt (view_requestClose (v := Slot.reason) (fun _ _ _ _ _ => rfl) s i) i

/-- The entry to CRITICAL at one slot (R11, log 18): the STREAM notice carries the reason that the slot is left with. -/
theorem criticalPause_eq {s : State} {i : Nat} {d : Descriptor} (h : i < s.slots.length) (hd : (s.slotAt i).desc = some d)
    (hp : (s.slotAt i).openRec.isSome = true → (s.slotAt i).page.isSome = true) : ∃ u,
    let reason := if (s.slotAt i).stopping = true then (s.slotAt i).reason else some .critical
    s.PausedTo i d u (if (s.slotAt i).stopping = true ∧ (s.slotAt i).markers.stop = none then (s.slotAt i).markers
      else { (s.slotAt i).markers with
        power := some ((s.slotAt i).markers.power.getD { stamp := s.stamp, index := (s.slotAt i).outputIndex, reason := .critical }) }) reason ∧
    s.criticalPause i = (u.requestClose i).raise (.stream i .paused (.pause reason)) := by
  let f : Slot → Slot := fun x => { x.discardSum.raisePower s.stamp .critical with
    state := .paused, reason := if x.stopping = true then x.reason else some .critical }
  have hpaused := pausedTo_modSlot (f := f) (m := if (s.slotAt i).stopping = true ∧ (s.slotAt i).markers.stop = none then
      (s.slotAt i).markers else { (s.slotAt i).markers with
        power := some ((s.slotAt i).markers.power.getD { stamp := s.stamp, index := (s.slotAt i).outputIndex, reason := .critical }) })
    h hd hp (by simp only [f, raisePower_eq]; rfl)
  refine ⟨_, hpaused, ?_⟩
  have hcrit : s.criticalPause i = (((s.closeOpen i).modSlot i f).requestClose i).raise
      (.stream i .paused (.pause ((((s.closeOpen i).modSlot i f).requestClose i).slotAt i).reason)) := by
    simp [State.criticalPause, f, State.stamp]
  rw [hcrit, reason_requestClose, hpaused.1]
  simp [State.slotAt, h]

/-! ### The media-full test (R68) -/

theorem testMediaFull_keeps {s : State} (h : s.media.mediaFull = true ∨ s.liveCount < s.unused) (p : Bool) : s.testMediaFull p = s := by
  unfold State.testMediaFull
  rw [if_neg]
  rcases h with hm | hlt
  · simp [hm]
  · simp [hlt]

theorem testMediaFull_sets {s : State} (hm : s.media.mediaFull = false) (h : s.unused ≤ s.liveCount) (p : Bool) :
    s.testMediaFull p = (let full : State := { s with media := { s.media with mediaFull := true } }
      (if p = true then full.pauseRunning .mediaFull else full).raise (.media (.mediaFull s.unused s.liveCount))) := by
  unfold State.testMediaFull
  rw [if_pos (by simp [hm, h])]

end Sys2Proof.Machine
end

