-- ==== Sys2Proof/Proofs/LevelChange.lean ====
section
/-! SUPPORT. A change of the level at Power Control (R160, R172, R173): what the log does while no shutdown is in progress leaves Power
Control alone, so that the end of CRITICAL leaves no shutdown behind. -/

open Sys2Proof Sys2Proof.Machine

namespace Sys2Proof.Machine

/-! ### The Index Log, with no shutdown in progress -/

/-- A shutdown is in progress. -/
def State.ShuttingDown (s : State) : Prop := ∃ stage, s.power.procedure = .shutdown stage

theorem shuttingDown_of_power {s u : State} (h : ¬ s.ShuttingDown) (hu : u.power = s.power) : ¬ u.ShuttingDown := by
  unfold State.ShuttingDown
  rw [hu]
  exact h

theorem power_powerDownEnded {s : State} (h : ¬ s.ShuttingDown) (left : Nat) : (s.powerDownEnded left).power = s.power := by
  unfold State.powerDownEnded
  split
  · rename_i hproc
    exact absurd ⟨_, hproc⟩ h
  · rfl

theorem power_giveUp {s : State} (h : ¬ s.ShuttingDown) (left : Nat) (body : EntryBody) : (s.giveUp left body).power = s.power := by
  cases body
  case powerDown => exact power_powerDownEnded h left
  case drop => rfl
  all_goals simp [State.giveUp, State.removeSurvey]

theorem power_giveUpList (left : Nat) : ∀ (l : List IndexEntry) {s : State}, ¬ s.ShuttingDown →
    (s.giveUpList left l).power = s.power
  | [], _, _ => rfl
  | e :: es, s, h => by
    have hdropped : ¬ s.dropHead.ShuttingDown := shuttingDown_of_power h (by simp)
    have hgiven := power_giveUp hdropped left e.body
    have hrest := power_giveUpList left es (shuttingDown_of_power hdropped hgiven)
    exact hrest.trans (hgiven.trans (by simp))

theorem power_enterLogFailed {s : State} (h : ¬ s.ShuttingDown) : s.enterLogFailed.power = s.power := by
  unfold State.enterLogFailed
  dsimp only
  split
  all_goals
    simp only [completeOp_frame, State.giveUpAll]
    rw [power_giveUpList _ _ (shuttingDown_of_power h (by simp))]
    simp

theorem power_headReady {s : State} (h : ¬ s.ShuttingDown) : s.headReady.power = s.power := by
  unfold State.headReady State.nextRollover
  split
  · split
    · rfl
    · exact power_enterLogFailed h
  · rfl

theorem power_askEntry {s : State} (h : ¬ s.ShuttingDown) : s.askEntry.power = s.power := by
  unfold State.askEntry
  split
  · split
    · unfold State.grantEntry
      split
      · rfl
      · exact power_headReady h
    · rfl
  · rfl

theorem power_pumpLog {s : State} (h : ¬ s.ShuttingDown) : s.pumpLog.power = s.power := by
  unfold State.pumpLog
  split
  · rfl
  · split
    · rfl
    · split
      · exact power_headReady h
      · exact power_askEntry h

/-! ### Shutdown asked for and cancelled (R172, R173) -/

/-- Outside OFF the end of CRITICAL leaves no shutdown in progress. -/
theorem not_shuttingDown_cancelShutdown {s : State} (h : s.power.state ≠ .off) : ¬ s.cancelShutdown.ShuttingDown := by
  unfold State.cancelShutdown
  rw [if_neg h]
  dsimp only
  split
  · have hnone : ¬ (({ s with power := { s.power with shutdownAsked := false, procedure := .none } }.withdraw
        EntryBody.isPowerDown).setHold false).ShuttingDown := by
      simp [State.ShuttingDown]
    exact shuttingDown_of_power hnone (power_pumpLog hnone)
  · rename_i hproc
    exact fun ⟨stage, hstage⟩ => hproc stage hstage

/-- In ACTIVE the entry to CRITICAL begins shutdown. -/
theorem shuttingDown_askShutdown {s : State} (h : s.power.state = .active) : s.askShutdown.ShuttingDown := by
  unfold State.askShutdown
  simp only [h]
  split
  · exact ⟨_, ‹_›⟩
  · exact ⟨_, rfl⟩

/-- A request to wake (R171), as a choice of the procedure. -/
theorem beginWake_eq (s : State) : s.beginWake = { s with power := { s.power with procedure :=
    if s.power.state = .doze ∧ s.power.procedure = .none then .wakeWait else s.power.procedure } } := by
  unfold State.beginWake
  split <;> rfl

/-- A request to wake neither begins nor ends a shutdown. -/
theorem shuttingDown_beginWake (s : State) : s.beginWake.ShuttingDown ↔ s.ShuttingDown := by
  rw [beginWake_eq]
  unfold State.ShuttingDown
  dsimp only
  split
  · rename_i h
    simp [h.2]
  · rfl

/-! ### The consequences of a level change (R160) -/

/-- The BATTERY(LEVEL) notice of a level change has been raised. -/
def State.toldLevel (s : State) (old : BatteryLevel) : State :=
  s.raise (.batteryLevel old s.gauge.level ((s.gauge.judged.bind Judgement.soc).getD 0)
    s.gauge.remaining (s.gauge.vpack.getD 0) (s.gauge.vhold.getD 0) s.gauge.limit)

theorem power_toldLevel (s : State) (old : BatteryLevel) : (s.toldLevel old).power = s.power := by simp [State.toldLevel]

/-- The steps of a level change in order: the notice, the pauses, the shutdown begun or cancelled, the wake. -/
theorem levelChanged_eq (s : State) (old : BatteryLevel) : s.levelChanged old =
    (let u := s.toldLevel old
     let v := if s.gauge.level = .reserve ∧ (old = .normal ∨ old = .low) then u.pauseRunning .reserve else u
     let w := if s.gauge.level = .critical then v.enterCriticalStreams.askShutdown else v
     (if old = .critical then w.cancelShutdown else w).beginWake) := by
  unfold State.levelChanged State.toldLevel
  dsimp only
  cases s.gauge.judged <;> rfl

/-- A level change among NORMAL, LOW and RESERVE that does not enter RESERVE from above. -/
theorem levelChanged_mild {s : State} {old : BatteryLevel} (hg : s.gauge.level = .normal ∨ s.gauge.level = .low) (ho : old ≠ .critical) :
    s.levelChanged old = (s.toldLevel old).beginWake := by
  rw [levelChanged_eq]
  rcases hg with hg | hg <;> simp [hg, ho]

theorem levelChanged_reserve {s : State} {old : BatteryLevel} (hg : s.gauge.level = .reserve) (ho : old = .normal ∨ old = .low) :
    s.levelChanged old = ((s.toldLevel old).pauseRunning .reserve).beginWake := by
  rw [levelChanged_eq]
  rcases ho with rfl | rfl <;> simp [hg]

theorem levelChanged_enters {s : State} {old : BatteryLevel} (hg : s.gauge.level = .critical) (ho : old ≠ .critical) :
    s.levelChanged old = (s.toldLevel old).enterCriticalStreams.askShutdown.beginWake := by
  rw [levelChanged_eq]
  simp [hg, ho]

theorem levelChanged_leaves {s : State} {old : BatteryLevel} (hg : s.gauge.level ≠ .critical) (ho : old = .critical) :
    s.levelChanged old = (s.toldLevel old).cancelShutdown.beginWake := by
  subst ho
  rw [levelChanged_eq]
  simp [hg]

/-- The entry to CRITICAL in ACTIVE begins shutdown. -/
theorem shuttingDown_levelChanged {s : State} {old : BatteryLevel} (hg : s.gauge.level = .critical) (ho : old ≠ .critical)
    (hp : s.power.state = .active) : (s.levelChanged old).ShuttingDown := by
  rw [levelChanged_enters hg ho, shuttingDown_beginWake]
  exact shuttingDown_askShutdown (by simpa [power_toldLevel] using hp)

/-- The end of CRITICAL leaves no shutdown in progress. -/
theorem not_shuttingDown_levelChanged {s : State} {old : BatteryLevel} (hg : s.gauge.level ≠ .critical) (ho : old = .critical)
    (hp : s.power.state ≠ .off) : ¬ (s.levelChanged old).ShuttingDown := by
  rw [levelChanged_leaves hg ho, shuttingDown_beginWake]
  exact not_shuttingDown_cancelShutdown (by rwa [power_toldLevel])

end Sys2Proof.Machine
end

