-- ==== Sys2Proof/Proofs/GaugeScan.lean ====
section
/-! PROOFS. GAUGE_SCAN_END at the gauge (R124, R148, R152 to R155, R160, R161). -/

open Sys2Proof Sys2Proof.Machine

namespace Sys2Proof.Machine

/-! ### Conversions and charge (R148, R154, R155) -/

/-- The estimate, piece by piece. -/
theorem estimateOf_eq (vpack : Nat) : estimateOf vpack =
    (let v := max 6000 (min 8400 vpack)
     if v ≤ 6800 then (v - 6000) * 1000 / 800
     else if v ≤ 7200 then 1000 + (v - 6800) * 2000 / 400
     else if v ≤ 7500 then 3000 + (v - 7200) * 2000 / 300
     else if v ≤ 7900 then 5000 + (v - 7500) * 3000 / 400
     else 8000 + (v - 7900) * 2000 / 500) := by
  have hmost : max 6000 (min 8400 vpack) ≤ 8400 := by omega
  unfold estimateOf clamp estimatePieces
  dsimp only
  generalize max 6000 (min 8400 vpack) = v at hmost
  simp only [List.find?_cons, hmost, decide_true]
  split_ifs with h1 h2 h3 h4 <;> simp only [*, decide_true, decide_false, Nat.zero_add]

theorem levelCap_eq (l : BatteryLevel) : levelCap l = match l with | .normal => 24 | .low => 24 | .reserve => 8 | .critical => 0 := by
  cases l <;> rfl

section
variable (g : Gauge) (ipack : Int) (interval : Nat)

/-- The charge counted so far with that of one scan. -/
def Gauge.counted : Int := g.acc + ipack * (max 1 (min 8192 interval) : Nat)

theorem integrate_between (h1 : -368640 < g.counted ipack interval) (h2 : g.counted ipack interval < 368640) :
    g.integrate ipack interval = ({ g with acc := g.counted ipack interval }, false) := by
  show ite _ _ _ = _
  rw [if_neg (by show ¬ (368640 : Int) ≤ g.counted ipack interval; omega),
    if_neg (by show ¬ g.counted ipack interval ≤ -(368640 : Int); omega)]
  rfl

theorem integrate_down (h : 368640 ≤ g.counted ipack interval) (hr : (g.counted ipack interval).toNat / 368640 ≤ g.remaining) :
    g.integrate ipack interval = ({ g with
      remaining := g.remaining - (g.counted ipack interval).toNat / 368640
      acc := g.counted ipack interval - ((g.counted ipack interval).toNat / 368640 * 368640 : Nat) }, true) := by
  show ite _ _ _ = _
  rw [if_pos (by exact h)]
  exact if_neg (Nat.not_lt.mpr hr)

theorem integrate_empty (h : 368640 ≤ g.counted ipack interval) (hr : g.remaining < (g.counted ipack interval).toNat / 368640) :
    g.integrate ipack interval = ({ g with remaining := 0, acc := 0 }, true) := by
  show ite _ _ _ = _
  rw [if_pos (by exact h)]
  exact if_pos hr

theorem integrate_up (h : g.counted ipack interval ≤ -368640)
    (hr : g.remaining + (-g.counted ipack interval).toNat / 368640 ≤ g.settings.capacity) :
    g.integrate ipack interval = ({ g with
      remaining := g.remaining + (-g.counted ipack interval).toNat / 368640
      acc := g.counted ipack interval + ((-g.counted ipack interval).toNat / 368640 * 368640 : Nat) }, false) := by
  show ite _ _ _ = _
  rw [if_neg (by show ¬ (368640 : Int) ≤ g.counted ipack interval; omega), if_pos (by exact h)]
  exact if_neg (Nat.not_lt.mpr hr)

theorem integrate_full (h : g.counted ipack interval ≤ -368640)
    (hr : g.settings.capacity < g.remaining + (-g.counted ipack interval).toNat / 368640) :
    g.integrate ipack interval = ({ g with remaining := g.settings.capacity, acc := 0, estimate := false }, false) := by
  show ite _ _ _ = _
  rw [if_neg (by show ¬ (368640 : Int) ≤ g.counted ipack interval; omega), if_pos (by exact h)]
  exact if_pos hr

end

section
variable {g : Gauge} (known : Bool) (interval vpack : Nat) (ipack tpack : Int)

/-- With the pack present and the estimate made, the charge is integrated and the level judged. -/
theorem count_integrates {r : Gauge × Bool} (hl : g.packLost = false) (he : g.estimatePending = false)
    (hr : g.integrate ipack interval = r) : g.count known interval vpack ipack tpack = r.1.judge vpack ipack tpack r.2 := by
  simp [Gauge.count, hl, he, hr]

/-- With the pack present and the settings known, a pending estimate is made. -/
theorem count_estimates (hl : g.packLost = false) (he : g.estimatePending = true) :
    g.count true interval vpack ipack tpack = (g.estimateFrom vpack).judge vpack ipack tpack true := by
  simp [Gauge.count, hl, he]

/-- Without the pack nothing is counted. -/
theorem count_lost (hl : g.packLost = true) : g.count known interval vpack ipack tpack = g := by simp [Gauge.count, hl]

/-- Until the settings are known a pending estimate waits (log 27). -/
theorem count_waits (he : g.estimatePending = true) : g.count false interval vpack ipack tpack = g := by simp [Gauge.count, he]

end

/-! ### Pack presence (R153) -/

/-- What a VPACK says of the pack's presence. -/
def Gauge.presence (g : Gauge) (vpack : Nat) : Gauge :=
  if vpack < g.settings.packPresent then
    (if g.packLost = true then g else { g with packLost := true, lowRun := 0, recoveryRun := 0 })
  else { g with packLost := false }

/-- The notice of a change of the pack's presence has been raised, and the drop in progress marked; the gauge stands as it stood. -/
def State.toldPack (s : State) (vpack vhold : Nat) : State :=
  if vpack < s.gauge.settings.packPresent ∧ s.gauge.packLost = false then State.raise { s with
    monitor := { s.monitor with drop := s.monitor.drop.map (fun r => { r with packLost := true }) } }
    (.packLost vpack vhold s.gauge.limit s.gauge.level)
  else if s.gauge.settings.packPresent ≤ vpack ∧ s.gauge.packLost = true then
    s.raise (.packReturned vpack vhold s.gauge.limit s.gauge.level)
  else s

theorem raise_gauge (s : State) (n : Notice) (g : Gauge) : State.raise { s with gauge := g } n = { s.raise n with gauge := g } := by
  unfold State.raise
  split <;> rfl

theorem raise_monitor (s : State) (n : Notice) (m : Monitor) : State.raise { s with monitor := m } n = { s.raise n with monitor := m } := by
  unfold State.raise
  split <;> rfl

theorem power_toldPack (s : State) (vpack vhold : Nat) : (s.toldPack vpack vhold).power = s.power := by
  unfold State.toldPack
  split_ifs <;> simp

/-- Readings taken before the judgement change nothing of what it tells. -/
theorem toldPack_reads (s : State) (vpack vhold : Nat) (g h : Gauge) (hs : g.settings = s.gauge.settings) (hp : g.packLost = s.gauge.packLost)
    (hl : g.limit = s.gauge.limit) (hv : g.level = s.gauge.level) :
    { State.toldPack { s with gauge := g } vpack vhold with gauge := h } = { s.toldPack vpack vhold with gauge := h } := by
  unfold State.toldPack
  dsimp only
  rw [hs, hp, hl, hv]
  split_ifs
  · rw [← raise_gauge, ← raise_gauge]
  · rw [← raise_gauge, ← raise_gauge]
  · rfl

theorem judgePack_eq (s : State) (vpack vhold : Nat) :
    s.judgePack vpack vhold = { s.toldPack vpack vhold with gauge := s.gauge.presence vpack } := by
  unfold State.judgePack State.toldPack Gauge.presence
  dsimp only
  cases hp : s.gauge.packLost <;> by_cases hv : vpack < s.gauge.settings.packPresent
  · simp only [hv, if_true, true_and, Bool.false_eq_true, if_false, State.modDrop, State.modMonitor]
    simp only [raise_gauge, raise_monitor, raise_frame]
  · have hsame : ({ s.gauge with packLost := false } : Gauge) = s.gauge := by rw [← hp]
    simp only [hv, if_false, false_and, Bool.false_eq_true, and_false, hsame]
  · simp only [hv, if_true, Bool.true_eq_false, and_false, if_false, Nat.not_le.mpr hv, false_and]
  · simp only [hv, if_false, if_true, false_and, Nat.le_of_not_lt hv, and_self, raise_gauge]

/-! ### One delivery (R152) -/

/-- The readings of one delivery. -/
def Gauge.read (g : Gauge) (vhold vpack ipack tpack : Nat) : Gauge :=
  { g with vpack := some (vpackOf vpack), ipack := some (ipackOf ipack), tpack := some (tpackOf tpack) }.takeHold (vhold * 4)

/-- The gauge after one delivery, before L is recomputed. -/
def Gauge.delivered (g : Gauge) (known : Bool) (vhold vpack ipack tpack interval : Nat) : Gauge :=
  ((g.read vhold vpack ipack tpack).presence (vpackOf vpack)).count known interval (vpackOf vpack) (ipackOf ipack) (tpackOf tpack)

/-- The judgement of the pack after the readings are taken. -/
theorem judgePack_read (s : State) (vhold vpack ipack tpack : Nat) :
    let u := State.judgePack { s with gauge := s.gauge.read vhold vpack ipack tpack } (vpackOf vpack) (vhold * 4)
    u.power = s.power ∧ u.gauge = (s.gauge.read vhold vpack ipack tpack).presence (vpackOf vpack) ∧
      ∀ g, { u with gauge := g } = { s.toldPack (vpackOf vpack) (vhold * 4) with gauge := g } := by
  dsimp only
  rw [judgePack_eq]
  exact ⟨power_toldPack .., rfl, fun g => toldPack_reads s _ _ (s.gauge.read vhold vpack ipack tpack) g rfl rfl rfl rfl⟩

/-- A delivery at the gauge: what it tells of the pack, the gauge after it, and the consequences of a level that has changed. -/
theorem gaugeScan_eq {s : State} (hf : s.sampler.fault = false) (vhold vpack ipack tpack interval : Nat) :
    s.gaugeScan vhold vpack ipack tpack interval =
      (let g := (s.gauge.delivered (s.power.phase != .index) vhold vpack ipack tpack interval).recompute
       let w := { s.toldPack (vpackOf vpack) (vhold * 4) with gauge := g }
       if g.level = s.gauge.level then w else w.levelChanged s.gauge.level) := by
  have hcounted (u : State) (hpower : u.power = s.power)
      (hgauge : u.gauge = (s.gauge.read vhold vpack ipack tpack).presence (vpackOf vpack))
      (hset : ∀ g, { u with gauge := g } = { s.toldPack (vpackOf vpack) (vhold * 4) with gauge := g }) :
      { u with gauge :=
        (u.gauge.count u.settingsKnown interval (vpackOf vpack) (ipackOf ipack) (tpackOf tpack)).recompute } =
      { s.toldPack (vpackOf vpack) (vhold * 4) with
        gauge := (s.gauge.delivered (s.power.phase != .index) vhold vpack ipack tpack interval).recompute } := by
    rw [hset, hgauge, State.settingsKnown, hpower]
    rfl
  obtain ⟨hpower, hgauge, hset⟩ := judgePack_read s vhold vpack ipack tpack
  unfold State.gaugeScan
  rw [if_neg (by simp [hf])]
  exact congrArg (fun w : State => if w.gauge.level = s.gauge.level then w else w.levelChanged s.gauge.level)
    (hcounted _ hpower hgauge hset)

theorem gauge_gaugeScan {s : State} (hf : s.sampler.fault = false) (vhold vpack ipack tpack interval : Nat) :
    (s.gaugeScan vhold vpack ipack tpack interval).gauge =
      (s.gauge.delivered (s.power.phase != .index) vhold vpack ipack tpack interval).recompute := by
  rw [gaugeScan_eq hf]
  dsimp only
  split
  · rfl
  · simp

/-! ### The end of the scan (R119, R124, R125) -/

/-- The latest results of a gauge scan are stored, and a self-check that it carries gives its verdict. -/
def State.scanRead (s : State) (vhold vpack ipack tpack zero full : Code) (carries : Bool) : State :=
  let latched : State := { s with sampler := s.sampler.latch 3 [vhold.toNat, vpack.toNat, ipack.toNat, tpack.toNat] }
  if carries then latched.selfCheck zero.toNat full.toNat else latched

theorem exec_gaugeScanEnd {s : State} {interval : Nat} {carries : Bool} (hs : s.Settled)
    (hr : s.sampler.running = some (.gauge interval carries)) (vhold vpack ipack tpack zero full : Code) :
    exec (.gaugeScanEnd vhold vpack ipack tpack zero full) s = .next (((((s.scanRead vhold vpack ipack tpack zero full carries).gaugeScan
      vhold.toNat vpack.toNat ipack.toNat tpack.toNat interval).nextScan).arbitrate).holdIdle) := by
  show Host.Outcome.next ((s.settle.gaugeEnd vhold vpack ipack tpack zero full).holdIdle) = _
  rw [settle_of_settled hs]
  simp only [State.gaugeEnd, hr]
  rfl

theorem latch_fault : ∀ (l : List Nat) (m : Sampler) (first : Nat), (m.latch first l).fault = m.fault
  | [], _, _ => rfl
  | _ :: cs, _, _ => latch_fault cs _ _

theorem fault_selfCheck (s : State) (zeroRef fullRef : Nat) :
    (s.selfCheck zeroRef fullRef).sampler.fault = decide (8 < zeroRef ∨ fullRef < 4087) := by
  have hverdict : (s.selfCheck zeroRef fullRef).sampler.fault = selfCheckFails zeroRef fullRef := by
    unfold State.selfCheck
    dsimp only
    split <;> simp
  rw [hverdict, selfCheckFails, Bool.decide_or]

theorem next_fault (m : Sampler) (p : PowerState) : (m.next p).fault = m.fault := by
  unfold Sampler.next Sampler.start
  dsimp only
  repeat' split
  all_goals rfl

/-- What the scan's end leaves of the clock, the gauge and the sampler fault after the delivery. -/
theorem scanned_frame (s : State) : (((s.nextScan).arbitrate).holdIdle).clock = s.clock ∧ (((s.nextScan).arbitrate).holdIdle).gauge = s.gauge ∧
    (((s.nextScan).arbitrate).holdIdle).sampler.fault = s.sampler.fault := by
  simp [next_fault]

section
variable (s : State) (vhold vpack ipack tpack zero full : Code) (carries : Bool)

theorem scanRead_frame : (s.scanRead vhold vpack ipack tpack zero full carries).clock = s.clock ∧
    (s.scanRead vhold vpack ipack tpack zero full carries).gauge = s.gauge ∧
    (s.scanRead vhold vpack ipack tpack zero full carries).power = s.power ∧
    (s.scanRead vhold vpack ipack tpack zero full carries).monitor = s.monitor := by
  cases carries <;> simp [State.scanRead]

theorem scanRead_fault : (s.scanRead vhold vpack ipack tpack zero full carries).sampler.fault =
    if carries then decide (8 < zero.toNat ∨ full.toNat < 4087) else s.sampler.fault := by
  cases carries
  · exact latch_fault _ _ _
  · exact fault_selfCheck _ _ _

end

/-- Nothing after the delivery begins or ends a shutdown. -/
theorem shuttingDown_scanned (s : State) : ((s.nextScan).arbitrate).holdIdle.ShuttingDown ↔ s.ShuttingDown := by
  obtain ⟨n, hn⟩ := holdIdle_eq (s.nextScan).arbitrate
  rw [hn]
  simp [State.ShuttingDown]

/-- Entry to CRITICAL in ACTIVE begins shutdown. -/
theorem shuttingDown_gaugeScan {s : State} {vhold vpack ipack tpack interval : Nat} (hf : s.sampler.fault = false)
    (hg : (s.gauge.delivered (s.power.phase != .index) vhold vpack ipack tpack interval).level = .critical)
    (ho : s.gauge.level ≠ .critical) (hp : s.power.state = .active) :
    (s.gaugeScan vhold vpack ipack tpack interval).ShuttingDown := by
  have hne : (s.gauge.delivered (s.power.phase != .index) vhold vpack ipack tpack interval).recompute.level ≠ s.gauge.level :=
    fun h => ho (h.symm.trans hg)
  rw [gaugeScan_eq hf]
  dsimp only
  rw [if_neg hne]
  exact shuttingDown_levelChanged hg ho (by simpa [power_toldPack] using hp)

/-- The end of CRITICAL leaves no shutdown in progress. -/
theorem not_shuttingDown_gaugeScan {s : State} {vhold vpack ipack tpack interval : Nat} (hf : s.sampler.fault = false)
    (hg : (s.gauge.delivered (s.power.phase != .index) vhold vpack ipack tpack interval).level ≠ .critical)
    (ho : s.gauge.level = .critical) (hp : s.power.state ≠ .off) :
    ¬ (s.gaugeScan vhold vpack ipack tpack interval).ShuttingDown := by
  have hne : (s.gauge.delivered (s.power.phase != .index) vhold vpack ipack tpack interval).recompute.level ≠ s.gauge.level :=
    fun h => hg (h.trans ho)
  rw [gaugeScan_eq hf]
  dsimp only
  rw [if_neg hne]
  exact not_shuttingDown_levelChanged hg ho (by simpa [power_toldPack] using hp)

/-- Settles O58: the delivery's gauge is `Gauge.delivered`, what it tells is `State.toldPack`, and a level change acts by `levelChanged_eq`. -/
theorem gaugeScan : Obligations.GaugeScan := by
  unfold Obligations.GaugeScan
  refine ⟨?_, ?_, ?_, pauseRunning_foldl, enterCriticalStreams_foldl, ?_, ?_⟩
  · intro s vhold vpack ipack tpack zero full interval carries hs hr fault mv volts current tenths pages read present v hundredths a
      down up cap
    obtain ⟨hclock, hgauge, hpower, -⟩ := scanRead_frame s vhold vpack ipack tpack zero full carries
    have hfault := scanRead_fault s vhold vpack ipack tpack zero full carries
    obtain ⟨hclockEnd, hgaugeEnd, hfaultEnd⟩ := scanned_frame ((s.scanRead vhold vpack ipack tpack zero full carries).gaugeScan
      vhold.toNat vpack.toNat ipack.toNat tpack.toNat interval)
    refine ⟨_, exec_gaugeScanEnd hs hr .., ?_, ?_, fun hf => ?_, fun hf => ?_⟩
    · rw [hfaultEnd, (gaugeScan_frame ..).2.2.2.1]
      exact hfault
    · rw [hclockEnd, (gaugeScan_frame ..).1, hclock]
    · have hunused : (s.scanRead vhold vpack ipack tpack zero full carries).gaugeScan vhold.toNat vpack.toNat ipack.toNat tpack.toNat
          interval = s.scanRead vhold vpack ipack tpack zero full carries := if_pos (hfault.trans hf)
      rw [hgaugeEnd, hunused, hgauge]
    · have hok := hfault.trans hf
      have hscan := gauge_gaugeScan hok vhold.toNat vpack.toNat ipack.toNat tpack.toNat interval
      have hcap : levelCap = cap := funext levelCap_eq
      rw [hgauge, hpower] at hscan
      refine ⟨s.gauge.delivered (s.power.phase != .index) vhold.toNat vpack.toNat ipack.toNat tpack.toNat interval, ?_, ?_, ?_, ?_, ?_, ?_⟩
      · rw [hgaugeEnd, hscan, Gauge.recompute, hcap]
      · exact fun hl => count_lost (g := present) _ _ _ _ _ hl
      · intro hl he
        refine ⟨fun hp => ?_, fun hp => ?_⟩
        · rw [hp]
          exact count_waits (g := present) _ _ _ _ he
        · rw [show (s.power.phase != .index) = true by simpa using hp]
          have hestimate : estimateOf volts = hundredths := estimateOf_eq _
          rw [← hestimate]
          exact count_estimates (g := present) _ _ _ _ hl he
      · intro hl he
        refine ⟨fun h1 h2 => ?_, fun h1 h2 => ?_, fun h1 h2 => ?_, fun h1 h2 => ?_, fun h1 h2 => ?_⟩
        · exact count_integrates _ _ _ _ _ hl he (integrate_between present current interval h1 h2)
        · exact count_integrates _ _ _ _ _ hl he (integrate_down present current interval h1 h2)
        · exact count_integrates _ _ _ _ _ hl he (integrate_empty present current interval h1 h2)
        · exact count_integrates _ _ _ _ _ hl he (integrate_up present current interval h1 h2)
        · exact count_integrates _ _ _ _ _ hl he (integrate_full present current interval h1 h2)
      · intro hg ho hp
        exact (shuttingDown_scanned _).mpr (shuttingDown_gaugeScan hok (by rwa [hgauge, hpower]) (by rwa [hgauge]) (by rwa [hpower]))
      · intro ho hg hp x hx
        exact not_shuttingDown_gaugeScan hok (by rwa [hgauge, hpower]) (by rwa [hgauge]) (by rwa [hpower])
          ((shuttingDown_scanned _).mp ⟨x, hx⟩)
  · intro s vhold vpack ipack tpack zero full interval carries hs hr hf latched y mv volts x
    obtain ⟨-, hgauge, -, hmonitor⟩ := scanRead_frame s vhold vpack ipack tpack zero full carries
    have hok := (scanRead_fault s vhold vpack ipack tpack zero full carries).trans hf
    obtain ⟨-, hgaugeEnd, -⟩ := scanned_frame ((s.scanRead vhold vpack ipack tpack zero full carries).gaugeScan
      vhold.toNat vpack.toNat ipack.toNat tpack.toNat interval)
    have hscan := gaugeScan_eq hok vhold.toNat vpack.toNat ipack.toNat tpack.toNat interval
    have hread := gauge_gaugeScan hok vhold.toNat vpack.toNat ipack.toNat tpack.toNat interval
    have htold : (s.scanRead vhold vpack ipack tpack zero full carries).toldPack volts mv = x := by
      have hy : y.gauge = s.gauge := hgauge
      simp only [State.toldPack, hgauge, hmonitor, x, hy]
      rfl
    refine ⟨_, _, exec_gaugeScanEnd hs hr .., rfl, congrArg (fun u => u.nextScan.arbitrate.holdIdle) (hscan.trans ?_)⟩
    rw [← htold, hgaugeEnd.trans hread, hgauge]
    rfl
  · intro s old g soc told wakes
    have htold : s.toldLevel old = told := by
      unfold State.toldLevel
      cases hj : s.gauge.judged <;> simp only [told, soc, g, hj] <;> rfl
    have hwakes (u : State) : u.beginWake = wakes u := beginWake_eq u
    rw [← htold]
    refine ⟨fun hg ho => ?_, fun hg ho => ?_, fun hg ho => ?_, fun hg ho => ?_⟩
    · rw [levelChanged_mild hg ho, hwakes]
    · rw [levelChanged_reserve hg ho, hwakes]
    · rw [levelChanged_enters hg ho, hwakes]
    · rw [levelChanged_leaves hg ho, hwakes]
  · intro s i d h x hd hp paused
    exact ⟨fun r _ hs => imposePause_eq r h hd hp hs, fun _ => criticalPause_eq h hd hp⟩
  · intro s unused live full
    have hunused : s.unused = unused := by
      show s.media.ready.length + s.media.free.length + (if s.aheadInFlight.isSome then 1 else 0) = unused
      unfold State.aheadInFlight
      cases hop : s.media.op with
      | none => simp only [unused, hop]; rfl
      | some o => cases o <;> simp only [unused, hop] <;> rfl
    have hlive : s.liveCount = live := by
      refine List.countP_congr fun x _ => ?_
      simp [live_iff, or_assoc]
    rw [← hunused, ← hlive]
    exact ⟨testMediaFull_keeps, fun hm h => ⟨testMediaFull_sets hm h true, testMediaFull_sets hm h false⟩⟩

end Sys2Proof.Machine
end

