-- ==== Sys2Proof/Proofs/MountReplay.lean ====
section
/-! SUPPORT. Mount's replay of the standing entries (R95, R100, R147, R175). -/

open Sys2Proof Sys2Proof.Machine

namespace Sys2Proof.Machine

/-! ### One entry (R95) -/

theorem replayPage_eq {s : State} {data : List Byte} {body : EntryBody} (h : entryOf data = some body) :
    s.replayPage data = { s.replayBody body with log := { s.log with clean := decide (body = .powerDown) } } := by
  have hclean : body.isPowerDown = decide (body = .powerDown) := by cases body <;> simp [EntryBody.isPowerDown]
  simp only [State.replayPage, h, replayBody_frame, hclean]

/-- A survey joins the table where its number stands in it nowhere yet. -/
theorem find_insertSurvey (v : Survey) : ∀ l : List Survey, l.find? (fun w => w.number == v.number) = none →
    (insertSurvey v l).find? (fun w => w.number == v.number) = some v
  | [], _ => by simp [insertSurvey]
  | w :: rest, h => by
    rw [List.find?_cons] at h
    unfold insertSurvey
    split
    · simp
    · split at h
      · cases h
      · rename_i hw
        rw [List.find?_cons, hw]
        exact find_insertSurvey v rest h

/-- A SURVEY-OPENED entry of a survey that the table knows leaves the surveys as they are. -/
theorem replayOpened_known {s : State} {r : SurveyRecord} {v : Survey} (h : s.surveyAt r.number = some v) :
    (s.replayOpened r).table.surveys = s.table.surveys := by
  simp [State.replayOpened, h]

/-- A SURVEY-OPENED entry of any other survey adds it, OPEN and without drops or flags. -/
theorem replayOpened_new {s : State} {r : SurveyRecord} (h : s.surveyAt r.number = none) :
    (s.replayOpened r).surveyAt r.number = some { r.survey with
      state := .open, closed := none, dropCount := 0, lastDrop := 0, hadPowerLoss := false, hadSuspect := false, hadVoid := false } := by
  have hsurveys : (s.replayOpened r).table.surveys = insertSurvey { r.survey with
      state := .open, closed := none, dropCount := 0, lastDrop := 0, hadPowerLoss := false, hadSuspect := false, hadVoid := false }
      s.table.surveys := by
    simp only [State.replayOpened, h, Option.isSome_none, Bool.false_eq_true, if_false]
  unfold State.surveyAt
  rw [hsurveys]
  exact find_insertSurvey { r.survey with
    state := .open, closed := none, dropCount := 0, lastDrop := 0, hadPowerLoss := false, hadSuspect := false, hadVoid := false } _ h

theorem settings_takeGaugeSettings (s : State) (v : GaugeSettings) : (s.takeGaugeSettings v).gauge.settings = v := by
  show (s.gauge.take v).settings = v
  unfold Gauge.take
  split <;> rfl

/-! ### The standing entries (R100, R175) -/

section
variable {s : State} {g page expect : Nat} {passed : Option Bool} {r : PageResult}

theorem replayOn_page (h : page ≤ 255) : s.replayOn g page expect passed = { s with mount := .replay g page expect passed } := if_pos h

/-- An entry page that stands is replayed, and the next page is read. -/
theorem replayRead_stands {t : Trailer} {data : List Byte} (hr : r = .valid t data) (hk : t.kind = 3) (hq : t.firstSeq = expect)
    (hp : page < 255) : s.replayRead g page expect passed r =
      { s.replayPage data with mount := .replay g (page + 1) ((expect + 1) % 4294967296) none } := by
  subst hr
  show ite _ _ _ = _
  rw [if_pos ⟨hk, hq⟩, replayOn_page (by omega)]
  rfl

/-- One page that does not read VALID is passed over. -/
theorem replayRead_passes (hr : ∀ t data, r ≠ .valid t data) (hp : page < 255) :
    s.replayRead g page expect none r = { s with mount := .replay g (page + 1) expect (some (decide (r = .erased))) } := by
  have hon (e : Bool) : s.replayOn g (page + 1) expect (some e) = { s with mount := .replay g (page + 1) expect (some e) } :=
    replayOn_page (by omega)
  cases r with
  | valid t data => exact absurd rfl (hr t data)
  | erased => exact hon true
  | void => exact hon false
  | failed => exact hon false

/-- The standing entries end at a VALID page that is not the entry expected, or at the second page that does not read VALID (log 17). -/
theorem replayRead_ends (hr : (∃ t data, r = .valid t data ∧ ¬ (t.kind = 3 ∧ t.firstSeq = expect)) ∨
      ((∀ t data, r ≠ .valid t data) ∧ passed ≠ none)) :
    s.replayRead g page expect passed r = s.endReplay g (if passed = some true ∧ r = .erased then page - 1 else page) expect := by
  rcases hr with ⟨t, data, rfl, hne⟩ | ⟨hr, hp⟩
  · show ite _ _ _ = _
    rw [if_neg hne]
    cases passed with
    | none => simp
    | some e => simp [passedPoint, PageResult.isErased]
  · obtain ⟨e, rfl⟩ := Option.ne_none_iff_exists'.mp hp
    cases r with
    | valid t data => exact absurd rfl (hr t data)
    | erased => cases e <;> rfl
    | void => simp [State.replayRead, passedPoint, PageResult.isErased]
    | failed => simp [State.replayRead, passedPoint, PageResult.isErased]

end

/-- Replay ends with no entry waiting: the log takes its position, the drops declared before take their numbers, and the headers are
read. -/
theorem endReplay_eq {s : State} (g w q : Nat) (hw : s.log.waiting = []) (hn : 4 < s.segCount) : s.endReplay g w q = { s with
    log := { s.log with current := some g, writePoint := w, nextSeq := q }
    power := { s.power with phase := .segments }
    monitor := s.numberDrops.monitor
    mount := .headers 4 } := by
  have hpump (u : State) (h : u.log.waiting = []) : u.pumpLog = u := by
    unfold State.pumpLog
    rw [h]
    split <;> rfl
  have hnumbered : State.numberDrops { s with
      log := { s.log with current := some g, writePoint := w, nextSeq := q }, power := { s.power with phase := .segments } } = { s with
      log := { s.log with current := some g, writePoint := w, nextSeq := q }
      power := { s.power with phase := .segments }
      monitor := s.numberDrops.monitor } := by
    simp only [State.numberDrops, State.modMonitor, hw, List.map_nil]
  exact (congrArg (fun u : State => (u.nextHeader 4).pumpLog) hnumbered).trans ((congrArg State.pumpLog (if_pos hn)).trans (hpump _ hw))

end Sys2Proof.Machine
end

