-- ==== Sys2Proof/Proofs/MountChains.lean ====
section
/-! SUPPORT. Mount's WRITE-POINTS phase: the search for a tail's write point, its void count, and the last record of its chain (R177). -/

open Sys2Proof Sys2Proof.Machine

namespace Sys2Proof.Machine

/-! ### Surveys and segments looked up after a change -/

/-- A survey looked up after every survey is rewritten, its number kept. -/
theorem find_map_survey (l : List Survey) (f : Survey → Survey) (hf : ∀ v, (f v).number = v.number) (n : Nat) :
    (l.map f).find? (fun v => v.number == n) = (l.find? (fun v => v.number == n)).map f := by
  rw [List.find?_map]
  congr 2
  funext v
  simp [hf]

/-- The tails stand as before where surveys keep their numbers and tails. -/
theorem tailOf_modSurvey (s : State) (m : Nat) (f : Survey → Survey) (hn : ∀ v, (f v).number = v.number)
    (ht : ∀ v, (f v).tails = v.tails) (survey index : Nat) : (s.modSurvey m f).tailOf survey index = s.tailOf survey index := by
  have hfind := find_map_survey s.table.surveys (fun v => if v.number = m then f v else v)
    (fun v => by split <;> simp [hn]) survey
  unfold State.tailOf
  rw [show (s.modSurvey m f).surveyAt survey = _ from hfind, Option.bind_map]
  congr 1
  funext v
  simp only [Function.comp, Survey.tailOf]
  split <;> simp [ht]

/-- Changing the chain fields of a segment that stands in a chain sets it once. -/
theorem modChain_eq_set {s : State} {g : Nat} {x : Segment} {c : ChainInfo} (f : ChainInfo → ChainInfo)
    (hx : s.media.segs[g]? = some x) (hc : x.chain = some c) :
    s.modChain g f = { s with media := { s.media with segs := s.media.segs.set g { x with chain := some (f c) } } } := by
  obtain ⟨hlen, -⟩ := List.getElem?_eq_some_iff.mp hx
  have hget : s.media.segs.getD g x = x := by simp [List.getD, hx]
  unfold State.modChain State.modSeg
  rw [modify_eq_set _ _ _ x hlen, hget, hc]
  rfl

/-! ### The judgement of a page -/

theorem countsVoid_eq (r : PageResult) : r.countsVoid = decide (r = .void ∨ r = .failed) := by
  cases r <;> simp [PageResult.countsVoid]

theorem isErased_eq (r : PageResult) : r.isErased = decide (r = .erased) := by
  cases r <;> simp [PageResult.isErased]

/-! ### The write point (R177 step 1) -/

section
variable {s : State} {survey index low high : Nat} {left : List (Nat × Nat)} {done : List ChainResult} {probed : List (Nat × Bool)}
  {r : PageResult}

theorem searchPoint_goes_on (h : low ≤ high) :
    s.searchPoint survey index left done low high probed = { s with mount := .chains left (.writePoint low high false probed) done } :=
  if_pos h

theorem searchPoint_ends (h : high < low) :
    s.searchPoint survey index left done low high probed = s.pointKnown survey index left done low probed := if_neg (Nat.not_le.mpr h)

/-- A probe that reads ERASED is judged by the page after it. -/
theorem chainRead_probe_erased {after : Bool} (ha : after = false) (hr : r = .erased) (h : middle low high + 1 ≤ 255) :
    s.chainRead survey index left done (.writePoint low high after probed) r =
      { s with mount := .chains left (.writePoint low high true
        ((if after = true then middle low high + 1 else middle low high, r.countsVoid) :: probed)) done } := by
  subst ha hr
  simp only [State.chainRead, PageResult.isErased, Bool.not_true, Bool.false_eq_true, if_false, if_pos h]

/-- The probe and the page after it read ERASED: the write point lies no higher. -/
theorem chainRead_after_erased {after : Bool} (ha : after = true) (hr : r = .erased) :
    s.chainRead survey index left done (.writePoint low high after probed) r =
      s.searchPoint survey index left done low (middle low high - 1)
        ((if after = true then middle low high + 1 else middle low high, r.countsVoid) :: probed) := by
  subst ha hr
  rfl

/-- A page that does not read ERASED: the write point lies above the probe. -/
theorem chainRead_written (after : Bool) (hr : r ≠ .erased) :
    s.chainRead survey index left done (.writePoint low high after probed) r =
      s.searchPoint survey index left done (middle low high + 1) high
        ((if after = true then middle low high + 1 else middle low high, r.countsVoid) :: probed) := by
  have hnot : r.isErased = false := by rw [isErased_eq]; simpa using hr
  cases after <;> simp [State.chainRead, hnot]

/-! ### The void count (R177 step 2) -/

/-- The write point is known: the tail takes it, and of the two pages below it those not probed are read next. -/
theorem pointKnown_eq {tail w : Nat} {x : Segment} {c : ChainInfo} {q : Nat} {qs : List Nat} (ht : s.tailOf survey index = some tail)
    (hx : s.media.segs[tail]? = some x) (hc : x.chain = some c) (hw : 3 ≤ w)
    (hq : [w - 1, w - 2].filter (fun k => decide (1 ≤ k ∧ ∀ e ∈ probed, e.1 ≠ k)) = q :: qs) :
    s.pointKnown survey index left done w probed = { s with
      media := { s.media with segs := s.media.segs.set tail { x with chain := some { c with writePoint := w } } }
      mount := .chains left (.voids (q :: qs) ([w - 1, w - 2].countP (fun k => decide ((k, true) ∈ probed)))) done } := by
  have hunread : [w - 1, w - 2].filter (fun p => !probed.any (fun e => e.1 == p)) = q :: qs := by
    rw [← hq]
    refine List.filter_congr fun k hk => ?_
    have hpos : 1 ≤ k := by
      simp only [List.mem_cons, List.not_mem_nil, or_false] at hk
      omega
    rw [Bool.eq_iff_iff]
    simp [hpos]
  have hcount : ([w - 1, w - 2].filter (fun p => probed.any (fun e => e.1 == p && e.2))).length =
      [w - 1, w - 2].countP (fun k => decide ((k, true) ∈ probed)) := by
    rw [List.countP_eq_length_filter]
    congr 2
    funext k
    rw [Bool.eq_iff_iff]
    simp
  unfold State.pointKnown
  simp only [ht, modChain_eq_set _ hx hc, if_pos (show 2 ≤ w by omega), if_pos hw, List.cons_append, List.nil_append, hunread, hcount]

/-- The last of those pages has been read. -/
theorem chainRead_voids_last (q n : Nat) : s.chainRead survey index left done (.voids [q] n) r =
    s.voidsKnown survey index left done (n + if r.countsVoid = true then 1 else 0) := rfl

/-- The void count is known: the tail takes it, its survey is flagged where it is not 0, and the last record is sought below the write
point. -/
theorem voidsKnown_eq {tail : Nat} {x : Segment} {c : ChainInfo} (ht : s.tailOf survey index = some tail)
    (hx : s.media.segs[tail]? = some x) (hc : x.chain = some c) (hw : 2 ≤ c.writePoint) (total : Nat) :
    s.voidsKnown survey index left done total = { s with
      media := { s.media with segs := s.media.segs.set tail { x with chain := some { c with voids := total } } }
      table := if 0 < total then { s.table with surveys := s.table.surveys.map (fun v =>
        if v.number = survey then { v with hadVoid := true } else v) } else s.table
      mount := .chains left (.last tail (c.writePoint - 1) none []) done } := by
  obtain ⟨hlen, -⟩ := List.getElem?_eq_some_iff.mp hx
  have hstart (u : State) (htail : u.tailOf survey index = some tail)
      (hsegs : u.media.segs = s.media.segs.set tail { x with chain := some { c with voids := total } }) :
      u.startLast survey index left done = { u with mount := .chains left (.last tail (c.writePoint - 1) none []) done } := by
    have hchain : u.chainAt tail = some { c with voids := total } := by simp [State.chainAt, State.segAt, hsegs, hlen]
    simp only [State.startLast, htail, hchain, State.pageBefore, if_pos hw]
  unfold State.voidsKnown
  simp only [ht, modChain_eq_set _ hx hc]
  by_cases hpos : 0 < total
  · rw [if_pos hpos, if_pos hpos, hstart _ _ (by rfl)]
    · rfl
    · rw [tailOf_modSurvey]
      · exact ht
      · exact fun _ => rfl
      · exact fun _ => rfl
  · rw [if_neg hpos, if_neg hpos, hstart _ (by exact ht) (by rfl)]

/-! ### The last record (R177 step 3) -/

/-- A page of the chain without the rewrite flag that gives an output index is the last page: the chain is finished. -/
theorem chainRead_last {h k n : Nat} {t : Trailer} {data : List Byte} (hr : r = .valid t data) (hk : t.kind = 2) (hs : t.survey = survey)
    (hi : t.index = index) (hw : t.rewrite = false) (hn : lastOutputIndex data t.count = some n) :
    s.chainRead survey index left done (.last h k none []) r = s.chainDone left done
      { survey := survey, index := index, lastSeq := some (t.firstSeq + t.count - 1), stopped := endsInStop data t.count,
        outputIndex := n } := by
  subst hr
  have hpage : chainPage survey index (.valid t data) = some (t, data) := if_pos ⟨hk, hs, hi⟩
  simp only [State.chainRead, hpage, hw]
  cases s.pageBefore h k <;>
    simp [State.lastRead, State.lastKnown, betterPage, hn, chainResult]

end

/-! ### The output index of the last record (R19, log 52) -/

/-- The nearest mark: there is none where every mark is at or after the sequence, and else it is the latest mark before it. -/
theorem nearestMark_spec (before : Nat) : ∀ l : List IndexMark,
    (nearestMark before l = none → ∀ m ∈ l, before ≤ m.firstSeq) ∧
    ∀ k, nearestMark before l = some k → k ∈ l ∧ k.firstSeq < before ∧ ∀ j ∈ l, j.firstSeq < before → j.firstSeq ≤ k.firstSeq
  | [] => ⟨fun _ _ h => (List.not_mem_nil h).elim, fun _ h => nomatch h⟩
  | m :: ms => by
    obtain ⟨hnone, hsome⟩ := nearestMark_spec before ms
    unfold nearestMark
    split
    · grind
    · cases hn : nearestMark before ms with
      | none => grind
      | some n => grind [laterMark]

/-- The output index of a chain whose last page gives none is that of the nearest mark, or 0. -/
theorem outputIndex_chainResult {survey index : Nat} {b : LastPage} (h : lastOutputIndex b.data b.count = none) (marks : List IndexMark) :
    (chainResult survey index b marks).outputIndex = ((nearestMark b.firstSeq marks).map IndexMark.outputIndex).getD 0 := by
  unfold chainResult
  rw [h]
  cases nearestMark b.firstSeq marks <;> rfl

end Sys2Proof.Machine
end

