-- ==== Sys2Proof/Proofs/MountRestore.lean ====
section
/-! SUPPORT. Mount's restore of the streams, and its end with READY (R19, R177, R178). -/

open Sys2Proof Sys2Proof.Machine

namespace Sys2Proof.Machine

/-! ### READY (R178) -/

/-- Mount ends: the phase is READY, and beyond it only the Transmit List and the media-full condition may change. -/
theorem becomeReady_eq (s : State) (restored notRestored : Nat) : ∃ tx full, s.becomeReady restored notRestored = { s with
    power := { s.power with phase := .ready }
    mount := .done
    port := { s.port with tx := tx }
    media := { s.media with mediaFull := full } } := by
  have htest (u : State) : ∃ tx full, u.testMediaFull false = { u with
      port := { u.port with tx := tx }, media := { u.media with mediaFull := full } } := by
    by_cases h : u.media.mediaFull = true ∨ u.liveCount < u.unused
    · exact ⟨u.port.tx, u.media.mediaFull, testMediaFull_keeps h false⟩
    · obtain ⟨hm, hu⟩ := not_or.mp h
      obtain ⟨tx, htx⟩ := raise_eq { u with media := { u.media with mediaFull := true } } (.media (.mediaFull u.unused u.liveCount))
      exact ⟨tx, true, (testMediaFull_sets (by simpa using hm) (Nat.le_of_not_lt hu) false).trans htx⟩
  obtain ⟨tx, full, ht⟩ := htest { s with power := { s.power with phase := .ready }, mount := .done }
  unfold State.becomeReady
  dsimp only
  rw [ht]
  obtain ⟨tx', hr⟩ := raise_eq ({ s with
    power := { s.power with phase := .ready }, mount := .done, port := { s.port with tx := tx }
    media := { s.media with mediaFull := full } } : State) (.mounted s.power.unformatted s.media.generation
      ({ s with media := { s.media with mediaFull := full } } : State).segCount
      ({ s with media := { s.media with mediaFull := full } } : State).segCounts restored notRestored s.log.clean)
  exact ⟨tx', full, hr⟩

/-! ### The restored streams (R19, R177) -/

section
variable (s : State) (i : Nat) (r : ChainResult) (d : Descriptor)

theorem slots_restoreOne : (s.restoreOne i r d).slots = s.slots.modify i (fun _ => restoredSlot r d s.stamp) := by
  unfold State.restoreOne
  dsimp only
  split <;> rfl

theorem surveyAt_restoreOne (n : Nat) : (s.restoreOne i r d).surveyAt n =
    (s.surveyAt n).map (fun v => { v with hadPowerLoss := v.hadPowerLoss || r.survey == n }) := by
  have htable : (s.restoreOne i r d).table.surveys =
      s.table.surveys.map (fun v => if v.number = r.survey then { v with hadPowerLoss := true } else v) := by
    unfold State.restoreOne
    dsimp only
    split <;> rfl
  unfold State.surveyAt
  rw [htable, find_map_survey _ _ (fun v => by split <;> rfl)]
  cases hv : s.table.surveys.find? (fun v => v.number == n) with
  | none => rfl
  | some v =>
    have hnumber : v.number = n := by simpa using List.find?_some hv
    subst hnumber
    rw [Option.map_some, Option.map_some]
    by_cases hn : v.number = r.survey
    · simp [hn]
    · simp [hn, beq_false_of_ne (Ne.symm hn)]

theorem tailOf_restoreOne (survey index : Nat) : (s.restoreOne i r d).tailOf survey index = s.tailOf survey index := by
  unfold State.tailOf
  rw [surveyAt_restoreOne, Option.bind_map]
  rfl

theorem segs_restoreOne (g : Nat) : (s.restoreOne i r d).media.segs[g]? =
    s.media.segs[g]?.map (fun x => { x with state := if s.tailOf r.survey r.index = some g then .active else x.state }) := by
  have htail : ((s.modSlot i (fun _ => restoredSlot r d s.stamp)).modSurvey r.survey (fun v => { v with hadPowerLoss := true })).tailOf
      r.survey r.index = s.tailOf r.survey r.index := 
    tailOf_modSurvey _ _ (fun v => { v with hadPowerLoss := true }) (fun _ => rfl) (fun _ => rfl) _ _
  unfold State.restoreOne
  dsimp only
  rw [htail]
  split
  · rename_i tail ht
    rw [ht]
    simp only [setSegState_media, List.getElem?_modify, Option.some.injEq]
    by_cases hg : tail = g <;> simp [hg]
  · rename_i ht
    rw [ht]
    simp

end

/-- Streams are restored into consecutive slots. -/
theorem slotAt_restoreAll : ∀ (l : List (ChainResult × Descriptor)) (s : State) (i : Nat),
    (∀ k r d, l[k]? = some (r, d) → i + k < s.slots.length → (s.restoreAll i l).slotAt (i + k) = restoredSlot r d s.stamp) ∧
    ∀ j, j < i ∨ i + l.length ≤ j → (s.restoreAll i l).slotAt j = s.slotAt j
  | [], _, _ => ⟨fun _ _ _ h => by simp at h, fun _ _ => rfl⟩
  | (r, d) :: rest, s, i => by
    obtain ⟨hin, hout⟩ := slotAt_restoreAll rest (s.restoreOne i r d) (i + 1)
    have hlen : (s.restoreOne i r d).slots.length = s.slots.length := by simp [slots_restoreOne]
    have hother (j : Nat) (hj : i ≠ j) : (s.restoreOne i r d).slotAt j = s.slotAt j := by
      simp [State.slotAt, slots_restoreOne, hj]
    refine ⟨fun k r' d' hk hlt => ?_, fun j hj => ?_⟩
    · cases k with
      | zero =>
        obtain ⟨rfl, rfl⟩ := Prod.mk.inj (Option.some.inj hk)
        rw [State.restoreAll, hout _ (.inl (by omega))]
        simp [State.slotAt, slots_restoreOne, show i < s.slots.length from hlt]
      | succ k =>
        have hrest := hin k r' d' hk (by omega)
        rw [show i + 1 + k = i + (k + 1) by omega] at hrest
        rw [State.restoreAll, hrest]
        simp [State.stamp]
    · rw [List.length_cons] at hj
      rw [State.restoreAll, hout j (by omega), hother j (by omega)]

/-- The surveys of the restored streams had a power loss. -/
theorem surveyAt_restoreAll (n : Nat) : ∀ (l : List (ChainResult × Descriptor)) (s : State) (i : Nat),
    (s.restoreAll i l).surveyAt n =
      (s.surveyAt n).map (fun v => { v with hadPowerLoss := v.hadPowerLoss || l.any (fun e => e.1.survey == n) })
  | [], s, _ => by simp [State.restoreAll]
  | (r, d) :: rest, s, i => by
    rw [State.restoreAll, surveyAt_restoreAll n rest, surveyAt_restoreOne, Option.map_map]
    simp [Function.comp_def, Bool.or_assoc]

/-- The tails of the restored streams are ACTIVE. -/
theorem segs_restoreAll (g : Nat) : ∀ (l : List (ChainResult × Descriptor)) (s : State) (i : Nat),
    (s.restoreAll i l).media.segs[g]? = s.media.segs[g]?.map (fun x => { x with
      state := bif l.any (fun e => s.tailOf e.1.survey e.1.index == some g) then .active else x.state })
  | [], s, _ => by simp [State.restoreAll]
  | (r, d) :: rest, s, i => by
    rw [State.restoreAll, segs_restoreAll g rest, segs_restoreOne, Option.map_map]
    simp only [tailOf_restoreOne, Function.comp_def, List.any_cons]
    congr 1
    funext x
    by_cases h1 : s.tailOf r.survey r.index = some g
    · simp [h1]
    · simp [h1, beq_false_of_ne h1]

/-- The last tail header has been read: mount restores the streams and is READY. -/
theorem endRestore_eq (s : State) (read : List (ChainResult × Descriptor)) (done : List ChainResult) : ∃ tx full,
    s.endRestore read done = { s.restoreAll 0 read with
      power := { s.power with phase := .ready }
      mount := .done
      port := { s.port with tx := tx }
      media := { (s.restoreAll 0 read).media with mediaFull := full } } := by
  obtain ⟨tx, full, h⟩ := becomeReady_eq (s.restoreAll 0 read) read.length ((done.filter s.restorable).length - read.length)
  refine ⟨tx, full, h.trans ?_⟩
  simp only [restoreAll_frame]

end Sys2Proof.Machine
end

