-- ==== Sys2Proof/Proofs/MountSegments.lean ====
section
/-! SUPPORT. Mount's SEGMENTS phase (R176): the last header, the duplicates, the links between the segments of a chain, the heads and tails
of the surveys, and the lists of segments. -/

open Sys2Proof Sys2Proof.Machine

namespace Sys2Proof.Machine

/-! ### Duplicates -/

/-- Segment `h` keeps its place in a chain: no lower segment has its survey, stream index and sequence. -/
def Stays (l : List Segment) (h : Nat) (c : ChainInfo) : Prop :=
  l[h]?.bind Segment.chain = some c ∧
    ∀ k d, k < h → l[k]?.bind Segment.chain = some d → ¬ (d.survey = c.survey ∧ d.index = c.index ∧ d.seq = c.seq)

/-- Segment `h` is a member of the chain of a stream. -/
def Member (l : List Segment) (survey index h : Nat) (c : ChainInfo) : Prop := Stays l h c ∧ c.survey = survey ∧ c.index = index

theorem chain_of_bind {l : List Segment} {h : Nat} {c : ChainInfo} (hc : l[h]?.bind Segment.chain = some c) :
    ∃ x, l[h]? = some x ∧ x.chain = some c := Option.bind_eq_some_iff.mp hc

/-- A segment stays where no lower one stands at its place. -/
theorem stays_iff {l : List Segment} {h : Nat} {x : Segment} {c : ChainInfo} (hx : l[h]? = some x) (hc : x.chain = some c) :
    Stays l h c ↔ ¬ ∃ k y, k < h ∧ l[k]? = some y ∧ y.hasPlace c.survey c.index c.seq = true := by
  constructor
  · rintro ⟨-, hlower⟩ ⟨k, y, hk, hy, hplace⟩
    obtain ⟨d, hd, hsame⟩ := (hasPlace_iff _ _ _ _).mp hplace
    exact hlower k d hk (by rw [hy]; exact hd) hsame
  · refine fun hnone => ⟨by rw [hx]; exact hc, fun k d hk hd hsame => ?_⟩
    obtain ⟨y, hy, hyd⟩ := chain_of_bind hd
    exact hnone ⟨k, y, hk, hy, (hasPlace_iff _ _ _ _).mpr ⟨d, hyd, hsame⟩⟩

section
variable {l : List Segment} {h : Nat} {x : Segment} {c : ChainInfo}

theorem kept_unplaced (hx : l[h]? = some x) (hc : x.chain = none) : (dropDuplicates [] l)[h]? = some x :=
  (dropDuplicates_at l [] h x hx).1 hc

theorem kept_stays (hx : l[h]? = some x) (hc : x.chain = some c) (hs : Stays l h c) : (dropDuplicates [] l)[h]? = some x := by
  refine ((dropDuplicates_at l [] h x hx).2 c hc).2 ?_
  simpa using (stays_iff hx hc).mp hs

theorem kept_duplicate (hx : l[h]? = some x) (hc : x.chain = some c) (hs : ¬ Stays l h c) :
    (dropDuplicates [] l)[h]? = some { x with state := .free, chain := none } := by
  refine ((dropDuplicates_at l [] h x hx).2 c hc).1 (.inr ?_)
  simpa [stays_iff hx hc] using hs

end

/-- Once duplicates are resolved a segment stands in a chain exactly where it stays. -/
theorem chain_kept_iff (l : List Segment) (h : Nat) (c : ChainInfo) :
    (dropDuplicates [] l)[h]?.bind Segment.chain = some c ↔ Stays l h c := by
  constructor
  · intro hk
    cases hx : l[h]? with
    | none =>
      have hlen : (dropDuplicates [] l).length ≤ h := by simpa [dropDuplicates_length] using hx
      simp [List.getElem?_eq_none hlen] at hk
    | some x =>
      cases hc : x.chain with
      | none => simp [kept_unplaced hx hc, hc] at hk
      | some d =>
        by_cases hs : Stays l h d
        · have hd : d = c := by simpa [kept_stays hx hc hs, hc] using hk
          exact hd ▸ hs
        · simp [kept_duplicate hx hc hs] at hk
  · intro hs
    obtain ⟨x, hx, hc⟩ := chain_of_bind hs.1
    rw [kept_stays hx hc hs]
    exact hc

/-- The members of a chain once duplicates are resolved, by sequence and segment. -/
theorem mem_membersOf_kept (l : List Segment) (survey index : Nat) (m : Nat × Nat) :
    m ∈ membersOf (dropDuplicates [] l) survey index ↔ ∃ c, Member l survey index m.2 c ∧ c.seq = m.1 := by
  simp only [mem_membersOf, chain_kept_iff, Member, and_assoc]

/-- Of one chain at most one segment has a sequence. -/
theorem membersOf_kept_unique {l : List Segment} {survey index : Nat} {m k : Nat × Nat}
    (hm : m ∈ membersOf (dropDuplicates [] l) survey index) (hk : k ∈ membersOf (dropDuplicates [] l) survey index) (h : k.1 = m.1) :
    k = m := by
  obtain ⟨c, ⟨⟨hcat, hclow⟩, hcs, hci⟩, hcq⟩ := (mem_membersOf_kept ..).mp hm
  obtain ⟨d, ⟨⟨hdat, hdlow⟩, hds, hdi⟩, hdq⟩ := (mem_membersOf_kept ..).mp hk
  refine Prod.ext h ?_
  rcases Nat.lt_trichotomy k.2 m.2 with hlt | heq | hgt
  · exact absurd ⟨by omega, by omega, by omega⟩ (hclow _ _ hlt hdat)
  · exact heq
  · exact absurd ⟨by omega, by omega, by omega⟩ (hdlow _ _ hgt hcat)

/-! ### Links, heads and tails -/

section
variable {l : List Segment} {survey index h : Nat} {c : ChainInfo}

/-- The link of a segment that no member follows. -/
theorem nextMember_none (hall : ∀ k d, Member l survey index k d → d.seq ≤ c.seq) :
    lowestMember ((membersOf (dropDuplicates [] l) survey index).filter (fun m => decide (c.seq < m.1))) = none := by
  have hempty : (membersOf (dropDuplicates [] l) survey index).filter (fun m => decide (c.seq < m.1)) = [] := by
    refine List.filter_eq_nil_iff.mpr fun m hm => ?_
    obtain ⟨d, hd, hq⟩ := (mem_membersOf_kept ..).mp hm
    have := hall _ _ hd
    simp only [decide_eq_true_eq]
    omega
  rw [hempty]
  rfl

/-- The link of a segment goes to the next member in sequence. -/
theorem nextMember_some {k : Nat} {d : ChainInfo} (hk : Member l survey index k d) (hlt : c.seq < d.seq)
    (hmin : ∀ j e, Member l survey index j e → c.seq < e.seq → d.seq ≤ e.seq) :
    lowestMember ((membersOf (dropDuplicates [] l) survey index).filter (fun m => decide (c.seq < m.1))) = some (d.seq, k) := by
  have hmem : (d.seq, k) ∈ membersOf (dropDuplicates [] l) survey index := (mem_membersOf_kept ..).mpr ⟨d, hk, rfl⟩
  refine lowestMember_eq _ _ (List.mem_filter.mpr ⟨hmem, by simpa using hlt⟩) (fun m hm => ?_) (fun m hm hq => ?_)
  · obtain ⟨hm, hgt⟩ := List.mem_filter.mp hm
    obtain ⟨e, he, hq⟩ := (mem_membersOf_kept ..).mp hm
    have := hmin _ _ he (by rw [hq]; simpa using hgt)
    omega
  · exact membersOf_kept_unique hmem (List.mem_filter.mp hm).1 hq

theorem members_empty (hnone : ∀ k d, ¬ Member l survey index k d) : membersOf (dropDuplicates [] l) survey index = [] :=
  List.eq_nil_iff_forall_not_mem.mpr fun _ hm => let ⟨_, hd, _⟩ := (mem_membersOf_kept ..).mp hm; hnone _ _ hd

/-- The head of a chain is its member of lowest sequence. -/
theorem headMember (hm : Member l survey index h c) (hmin : ∀ k d, Member l survey index k d → c.seq ≤ d.seq) :
    lowestMember (membersOf (dropDuplicates [] l) survey index) = some (c.seq, h) := by
  have hmem : (c.seq, h) ∈ membersOf (dropDuplicates [] l) survey index := (mem_membersOf_kept ..).mpr ⟨c, hm, rfl⟩
  refine lowestMember_eq _ _ hmem (fun m hk => ?_) (fun m hk hq => membersOf_kept_unique hmem hk hq)
  obtain ⟨d, hd, hq⟩ := (mem_membersOf_kept ..).mp hk
  exact hq ▸ hmin _ _ hd

/-- The tail of a chain is its member of highest sequence. -/
theorem tailMember (hm : Member l survey index h c) (hmax : ∀ k d, Member l survey index k d → d.seq ≤ c.seq) :
    highestMember (membersOf (dropDuplicates [] l) survey index) = some (c.seq, h) := by
  have hmem : (c.seq, h) ∈ membersOf (dropDuplicates [] l) survey index := (mem_membersOf_kept ..).mpr ⟨c, hm, rfl⟩
  refine highestMember_eq _ _ hmem (fun m hk => ?_) (fun m hk hq => membersOf_kept_unique hmem hk hq)
  obtain ⟨d, hd, hq⟩ := (mem_membersOf_kept ..).mp hk
  exact hq ▸ hmax _ _ hd

end

/-- The segments once duplicates are resolved and the chains linked. -/
def linkedSegs (l : List Segment) : List Segment := (dropDuplicates [] l).map (linkSeg (dropDuplicates [] l))

theorem linkedSegs_length (l : List Segment) : (linkedSegs l).length = l.length := by simp [linkedSegs, dropDuplicates_length]

/-- The segments after linking, one by one. -/
theorem linkedSegs_at {l : List Segment} {h : Nat} {x : Segment} (hx : (dropDuplicates [] l)[h]? = some x) :
    (linkedSegs l)[h]? = some (linkSeg (dropDuplicates [] l) x) := by
  rw [linkedSegs, List.getElem?_map, hx, Option.map_some]

theorem linkSeg_unplaced (segs : List Segment) {x : Segment} (h : x.chain = none) : linkSeg segs x = x := by simp only [linkSeg, h]

theorem linkSeg_placed (segs : List Segment) {x : Segment} {c : ChainInfo} (h : x.chain = some c) : linkSeg segs x = { x with
    chain := some { c with
      next := (lowestMember ((membersOf segs c.survey c.index).filter (fun m => decide (c.seq < m.1)))).map Prod.snd } } := by
  simp only [linkSeg, h]

/-- A survey's chain heads and tails, by stream index. -/
theorem linkChains_ends (l : List Segment) (v : Survey) {i : Nat} (hi : i < 8) :
    (v.linkChains (linkedSegs l)).headOf i = (lowestMember (membersOf (dropDuplicates [] l) v.number i)).map Prod.snd ∧
    (v.linkChains (linkedSegs l)).tailOf i = (highestMember (membersOf (dropDuplicates [] l) v.number i)).map Prod.snd := by
  have hmembers : membersOf (linkedSegs l) v.number i = membersOf (dropDuplicates [] l) v.number i := membersOf_linked _ _ _
  constructor <;> simp [Survey.headOf, Survey.tailOf, Survey.linkChains, List.getElem?_map, List.getElem?_range hi, hmembers]

/-- Linking changes of a survey its heads, its tails and its stream count, the number of its heads. -/
theorem linkChains_eq (segs : List Segment) (v : Survey) : v.linkChains segs = { v with
    heads := (v.linkChains segs).heads
    tails := (v.linkChains segs).tails
    streamCount := (List.range 8).countP (fun i => ((v.linkChains segs).headOf i).isSome) } := by
  have hcount : (v.linkChains segs).streamCount = (List.range 8).countP (fun i => ((v.linkChains segs).headOf i).isSome) := by
    have hheads : (v.linkChains segs).streamCount =
      ((List.range 8).map (fun i => (lowestMember (membersOf segs v.number i)).map Prod.snd)).countP Option.isSome := rfl
    rw [hheads, List.countP_map]
    refine List.countP_congr fun i hi => ?_
    have hlt : i < 8 := List.mem_range.mp hi
    simp [Survey.headOf, Survey.linkChains, List.getElem?_map, List.getElem?_range hlt]
  rw [← hcount]
  rfl

/-! ### The last header (R176) -/

/-- A header page that places its segment. -/
theorem placeHeader_places {s : State} {g : Nat} {t : Trailer} {x : Segment} (data : List Byte) (hk : t.kind = 1) (hi : t.index ≤ 7)
    (hs : s.surveyAt t.survey ≠ none) (hx : s.media.segs[g]? = some x) :
    (s.placeHeader g (.valid t data)).media.segs[g]? = some { x with
      state := .full
      chain := some { survey := t.survey, index := t.index, seq := t.seq, firstSeq := t.firstSeq, next := none,
                      writePoint := 256, voids := 0 } } := by
  have hplace : t.kind = 1 ∧ t.index ≤ 7 ∧ (s.surveyAt t.survey).isSome = true := ⟨hk, hi, Option.isSome_iff_ne_none.mpr hs⟩
  simp only [State.placeHeader]
  rw [if_pos hplace]
  simp [hx]

/-- A page that is no header of a stream that the table knows leaves its segment as it is (log 68). -/
theorem placeHeader_passes {s : State} {g : Nat} {r : PageResult}
    (h : ∀ t data, r = .valid t data → ¬ (t.kind = 1 ∧ t.index ≤ 7 ∧ s.surveyAt t.survey ≠ none)) : s.placeHeader g r = s := by
  cases r with
  | valid t data =>
    have hnot : ¬ (t.kind = 1 ∧ t.index ≤ 7 ∧ (s.surveyAt t.survey).isSome = true) := fun ⟨hk, hi, hs⟩ =>
      h t data rfl ⟨hk, hi, Option.isSome_iff_ne_none.mp hs⟩
    simp only [State.placeHeader]
    rw [if_neg hnot]
  | erased => rfl
  | void => rfl
  | failed => rfl

/-- A header page changes its own segment alone. -/
theorem placeHeader_eq (s : State) (g : Nat) (r : PageResult) : ∃ segs,
    s.placeHeader g r = { s with media := { s.media with segs := segs } } ∧ segs.length = s.media.segs.length ∧
      ∀ h, h ≠ g → segs[h]? = s.media.segs[h]? := by
  unfold State.placeHeader
  split
  · split
    · exact ⟨_, rfl, by simp, fun h hne => by simp [Ne.symm hne]⟩
    · exact ⟨_, rfl, rfl, fun _ _ => rfl⟩
  · exact ⟨_, rfl, rfl, fun _ _ => rfl⟩

/-- The state in which the chains have been built. -/
def State.chained (s : State) : State := { s with
  media := { s.media with
    segs := linkedSegs s.media.segs
    free := (List.range (linkedSegs s.media.segs).length).filter (fun g => ((linkedSegs s.media.segs)[g]?).any (fun x => x.state == .free))
    ready := [] }
  table := { s.table with surveys := s.table.surveys.map (Survey.linkChains (linkedSegs s.media.segs)) }
  power := { s.power with phase := .writePoints } }

/-- With no chain mount is READY. -/
theorem buildChains_of_none {s : State} (h : chainList s.chained.table.surveys = []) : s.buildChains = s.chained.becomeReady 0 0 := by
  show s.chained.nextChain (chainList s.chained.table.surveys) [] = _
  rw [h]
  rfl

/-- The chains are worked through in the table's order. -/
theorem buildChains_of_some {s : State} (h : chainList s.chained.table.surveys ≠ []) : s.buildChains =
    { s.chained with mount := .chains (chainList s.chained.table.surveys) (.writePoint 1 255 false []) [] } := by
  show s.chained.nextChain (chainList s.chained.table.surveys) [] = _
  cases hl : chainList s.chained.table.surveys with
  | nil => exact absurd hl h
  | cons c cs => rfl

/-- What building the chains leaves of the segments, the lists and the table. -/
theorem buildChains_parts (s : State) : s.buildChains.media.segs = s.chained.media.segs ∧
    s.buildChains.media.free = s.chained.media.free ∧ s.buildChains.media.ready = [] ∧ s.buildChains.table = s.chained.table := by
  by_cases h : chainList s.chained.table.surveys = []
  · obtain ⟨tx, full, hready⟩ := becomeReady_eq s.chained 0 0
    rw [buildChains_of_none h, hready]
    exact ⟨rfl, rfl, rfl, rfl⟩
  · rw [buildChains_of_some h]
    exact ⟨rfl, rfl, rfl, rfl⟩

end Sys2Proof.Machine
end

