-- ==== Sys2Proof/Proofs/Mount.lean ====
section
/-! PROOFS. Mount after its first four reads (R19, R95, R100, R147, R174 to R178). -/

open Sys2Proof Sys2Proof.Machine

namespace Sys2Proof.Machine

/-! ### The end of a mount read -/

/-- The result of a mount read. -/
def State.mountResult (s : State) (g p : Nat) (o : ReadOutcome) : PageResult :=
  judgePage s.media.generation (outcomeImage o s.media.flash g p)

section
variable {s : State} {g p : Nat} {o : ReadOutcome}

theorem exec_mountReadEnd (hs : s.Settled) (hop : s.media.op = some (.mountRead g p)) :
    exec (.mountReadEnd o) s = .next ((s.mountReadEnd g p o).afterOp).holdIdle := by
  show Host.Outcome.next ((s.settle.endMountRead o).holdIdle) = _
  rw [settle_of_settled hs]
  simp only [State.endMountRead, hop]

theorem mountReadEnd_replay {seg page expect : Nat} {passed : Option Bool} (h : s.mount = .replay seg page expect passed) :
    s.mountReadEnd g p o = s.endRead.replayRead seg page expect passed (s.mountResult g p o) := by
  simp only [State.mountReadEnd, endRead_mount, h]
  rfl

theorem mountReadEnd_headers {next : Nat} (h : s.mount = .headers next) :
    s.mountReadEnd g p o = (s.endRead.placeHeader next (s.mountResult g p o)).nextHeader (next + 1) := by
  simp only [State.mountReadEnd, endRead_mount, h]
  rfl

theorem mountReadEnd_chains {survey index : Nat} {left : List (Nat × Nat)} {work : ChainWork} {done : List ChainResult}
    (h : s.mount = .chains ((survey, index) :: left) work done) :
    s.mountReadEnd g p o = s.endRead.chainRead survey index ((survey, index) :: left) done work (s.mountResult g p o) := by
  simp only [State.mountReadEnd, endRead_mount, h]
  rfl

/-- The last tail header. -/
theorem mountReadEnd_restore {c : ChainResult} {read : List (ChainResult × Descriptor)} {done : List ChainResult} {t : Trailer}
    {data : List Byte} (h : s.mount = .restore [c] read done) (hr : s.mountResult g p o = .valid t data) (hk : t.kind = 1) :
    s.mountReadEnd g p o = s.endRead.endRestore (read ++ [(c, descriptorOf data)]) done := by
  have hdesc : restoreDescriptor g c.survey c.index (s.mountResult g p o) = descriptorOf data := by
    rw [hr]
    exact if_pos hk
  rw [← hdesc]
  simp only [State.mountReadEnd, endRead_mount, h]
  rfl

end

/-- Settles O23: the replay, the write points, the output indices, the restore and the chains, each by the lemmas of its phase. -/
theorem mount : Obligations.Mount := by
  unfold Obligations.Mount
  refine ⟨fun s data => ⟨fun h => by simp only [State.replayPage, h], fun body h => ?_⟩, fun s g p o hs hop => ?_,
    fun survey index b marks h => ?_, fun s g p next o hs hop hm hlast => ?_⟩
  · intro u onSurvey
    have hu : u = _ := replayPage_eq h
    refine ⟨by rw [hu], ?_, ?_, ?_, ?_, ?_, ?_, ?_, ?_, ?_⟩
    · rintro r rfl
      rw [hu]
      exact ⟨rfl, fun v hv => replayOpened_known hv, fun hnone => replayOpened_new hnone⟩
    · rintro r rfl
      rw [hu]
      rfl
    · rintro n a b rfl
      rw [hu]
      rfl
    · rintro n rfl
      rw [hu]
      rfl
    · rintro n rfl
      rw [hu]
      rfl
    · rintro l rfl
      rw [hu]
      rfl
    · rintro v rfl
      rw [hu]
      rfl
    · rintro v rfl
      rw [hu]
      exact settings_takeGaugeSettings s v
    · rintro r rfl
      rw [hu]
      refine ⟨rfl, rfl, ?_⟩
      simp only [State.replayBody, State.replayDrop, List.contains_iff_mem]
      rfl
  · intro idle result void goes
    have hexec := exec_mountReadEnd (o := o) hs hop
    have hvoid : void = result.countsVoid := (countsVoid_eq result).symm
    clear_value void
    subst hvoid
    have goes_of {t : State} (h : s.mountReadEnd g p o = t) : goes t := by
      show exec (.mountReadEnd o) s = .next (t.afterOp.holdIdle)
      rw [hexec, h]
    refine ⟨fun seg page expect passed hmount => ?_, fun survey index left after low high probed done hmount => ?_,
      fun survey index left q n done tail x c hmount ht hx hc hw => ?_,
      fun survey index next left h k done t data n hmount hr hk hsv hix hrw hn => ?_,
      fun c read done t data hmount hr hk => ?_⟩
    · have hread := mountReadEnd_replay (g := g) (p := p) (o := o) hmount
      refine ⟨fun t data hr hk hq hp => ?_, fun hr hpass hp => ?_, fun hends hwait hsegs => ?_⟩
      · exact goes_of (hread.trans (replayRead_stands hr hk hq hp))
      · subst hpass
        exact goes_of (hread.trans (replayRead_passes hr hp))
      · exact goes_of (hread.trans ((replayRead_ends hends).trans (endReplay_eq _ _ _ hwait hsegs)))
    · have hread := mountReadEnd_chains (g := g) (p := p) (o := o) hmount
      refine ⟨fun ha hr h => ?_, fun ha hr h => ?_, fun hr h => ?_, fun w tail x c q qs ht hx hc hfound hq hw => ?_⟩
      · exact goes_of (hread.trans (chainRead_probe_erased ha hr h))
      · exact goes_of (hread.trans ((chainRead_after_erased ha hr).trans (searchPoint_goes_on h)))
      · exact goes_of (hread.trans ((chainRead_written after hr).trans (searchPoint_goes_on h)))
      · rcases hfound with ⟨hr, h, rfl⟩ | ⟨ha, hr, h, rfl⟩
        · exact goes_of (hread.trans ((chainRead_written after hr).trans ((searchPoint_ends h).trans (pointKnown_eq ht hx hc hw hq))))
        · exact goes_of (hread.trans ((chainRead_after_erased ha hr).trans ((searchPoint_ends h).trans (pointKnown_eq ht hx hc hw hq))))
    · exact goes_of ((mountReadEnd_chains hmount).trans ((chainRead_voids_last q n).trans (voidsKnown_eq (s := s.endRead) ht hx hc hw _)))
    · exact goes_of ((mountReadEnd_chains hmount).trans (chainRead_last hr hk hsv hix hrw hn))
    · intro all
      obtain ⟨tx, full, hrestored⟩ := endRestore_eq s.endRead all done
      obtain ⟨hin, hout⟩ := slotAt_restoreAll all s.endRead 0
      refine ⟨_, goes_of ((mountReadEnd_restore hmount hr hk).trans hrestored), rfl, rfl, fun k r d hall hlt => ⟨?_, ?_, ?_⟩, ?_⟩
      · have hslot := hin k r d hall (by rwa [Nat.zero_add])
        rw [Nat.zero_add] at hslot
        exact hslot
      · intro v hv
        have hany : all.any (fun e => e.1.survey == r.survey) = true :=
          List.any_eq_true.mpr ⟨_, List.mem_of_getElem? hall, beq_self_eq_true _⟩
        have hsurvey := surveyAt_restoreAll r.survey all s.endRead 0
        rw [show s.endRead.surveyAt r.survey = some v from hv, Option.map_some, hany, Bool.or_true] at hsurvey
        exact hsurvey
      · intro tail x ht hx
        have hany : all.any (fun e => s.endRead.tailOf e.1.survey e.1.index == some tail) = true :=
          List.any_eq_true.mpr ⟨_, List.mem_of_getElem? hall, beq_iff_eq.mpr ht⟩
        have hseg := segs_restoreAll tail all s.endRead 0
        rw [show s.endRead.media.segs[tail]? = some x from hx, Option.map_some, hany] at hseg
        exact hseg
      · exact fun k hk => hout k (.inr (by rwa [Nat.zero_add]))
  · intro n
    obtain ⟨hnone, hsome⟩ := nearestMark_spec b.firstSeq marks
    have hn : n = ((nearestMark b.firstSeq marks).map IndexMark.outputIndex).getD 0 := outputIndex_chainResult h marks
    clear_value n
    cases hm : nearestMark b.firstSeq marks with
    | none =>
      rw [hm] at hn
      exact ⟨fun _ => hn, fun m hmem hlt => absurd (hnone hm m hmem) (Nat.not_le.mpr hlt)⟩
    | some k =>
      rw [hm] at hn
      obtain ⟨hmem, hlt, hmax⟩ := hsome k hm
      exact ⟨fun hall => absurd (hall k hmem) (Nat.not_le.mpr hlt), fun _ _ _ => ⟨k, hmem, hlt, hn, hmax⟩⟩
  · obtain ⟨placed, hplaced, hlen, hother⟩ := placeHeader_eq s.endRead next (s.mountResult g p o)
    let v : State := { s.endRead with media := { s.endRead.media with segs := placed } }
    have hbuild : s.mountReadEnd g p o = v.buildChains := by
      rw [mountReadEnd_headers hm, hplaced]
      exact if_neg (by show ¬ next + 1 < placed.length; rw [hlen, hlast]; exact Nat.lt_irrefl _)
    have hsegsPlaced : (s.endRead.placeHeader next (s.mountResult g p o)).media.segs = placed := by rw [hplaced]
    obtain ⟨hsegs, hfree, hready, htable⟩ := buildChains_parts v
    refine ⟨placed, v.buildChains, hbuild ▸ exec_mountReadEnd hs hop, hlen, hother, fun x hx => ⟨?_, ?_⟩, ?_⟩
    · intro t data hr hk hi hsv
      rw [← hsegsPlaced, show s.mountResult g p o = .valid t data from hr]
      exact placeHeader_places data hk hi hsv hx
    · intro hnot
      rw [← hsegsPlaced, placeHeader_passes (s := s.endRead) (r := s.mountResult g p o) hnot]
      exact hx
    · refine ⟨fun h x hx => ⟨fun hc => ?_, fun c hc => ⟨fun hdup => ?_, fun hstays => ?_⟩⟩, ?_, hready,
        Survey.linkChains (linkedSegs placed), htable,
        fun w => ⟨linkChains_eq _ w, fun i hi => ⟨fun hnone => ?_, fun h c hm => ⟨?_, ?_⟩⟩⟩, fun hnone => ?_, fun hsome => ?_⟩
      · rw [hsegs]
        exact (linkedSegs_at (kept_unplaced hx hc)).trans (congrArg some (linkSeg_unplaced _ hc))
      · rw [hsegs]
        exact (linkedSegs_at (kept_duplicate hx hc hdup)).trans (congrArg some (linkSeg_unplaced _ rfl))
      · rw [hsegs]
        refine ⟨_, (linkedSegs_at (kept_stays hx hc hstays)).trans (congrArg some (linkSeg_placed _ hc)), fun hall => ?_,
          fun k d hk hlt hmin => ?_⟩
        · rw [nextMember_none hall]
          rfl
        · rw [nextMember_some hk hlt hmin]
          rfl
      · rw [hfree, hsegs]
        show (List.range (linkedSegs placed).length).filter _ = _
        rw [linkedSegs_length, hlen]
        rfl
      · obtain ⟨hhead, htail⟩ := linkChains_ends placed w hi
        rw [hhead, htail, members_empty hnone]
        exact ⟨rfl, rfl⟩
      · intro hmin
        rw [(linkChains_ends placed w hi).1, headMember hm hmin]
        rfl
      · intro hmax
        rw [(linkChains_ends placed w hi).2, tailMember hm hmax]
        rfl
      · obtain ⟨tx, full, hbecome⟩ := becomeReady_eq v.chained 0 0
        rw [buildChains_of_none (htable ▸ hnone), hbecome]
        exact ⟨rfl, rfl⟩
      · rw [hsegs, hfree, htable]
        exact buildChains_of_some (htable ▸ hsome)

end Sys2Proof.Machine
end

