-- ==== Sys2Proof/Proofs/Conditioning.lean ====
section
/-! The settled statements on rounding and on the conditioning of one raw sample (chapter 2). -/

open Sys2Proof Sys2Proof.Machine

namespace Sys2Proof.Machine

/-! ### The total shift (section 2.1, R26) -/

theorem totalShift_of_decimation_two_pow {d : Descriptor} {k : Nat} (h : d.decimation = 2 ^ k) : d.totalShift = k + d.shift := by
  rw [Descriptor.totalShift, h, Nat.log2_two_pow]

/-- The largest of the seven decimations is 64 = 2^6 (R20). -/
theorem log2_decimation_le : ∀ n ∈ [1, 2, 4, 8, 16, 32, 64], Nat.log2 n ≤ 6 := by decide

theorem totalShift_le_of_loadDescriptor {p : List Byte} {level : Nat} {d : Descriptor} (h : loadDescriptor p level = some d) :
    d.totalShift ≤ 30 := by
  have hrange : LoadInRange p := inRange_of_loadDescriptor h
  obtain rfl : loadStream p level = d := Option.some.inj ((loadDescriptor_of_inRange hrange).symm.trans h)
  obtain ⟨-, -, -, -, -, hdec, hshift, -⟩ := hrange
  exact Nat.add_le_add (log2_decimation_le _ hdec) hshift

/-! ### Rounding (R26) -/

@[simp] theorem roundShift_zero (mode : Rounding) (p : Int) : roundShift mode 0 p = p := rfl

/-- The floor quotient and the non-negative remainder of R26 are the only ones, for both signs of p. -/
theorem ediv_emod_two_pow {t : Nat} {p f r : Int} (hp : p = f * 2 ^ t + r) (hr : 0 ≤ r) (hlt : r < 2 ^ t) :
    p / 2 ^ t = f ∧ p % 2 ^ t = r :=
  (Int.ediv_emod_unique (by positivity)).mpr ⟨by rw [hp, mul_comm, add_comm], hr, hlt⟩

section
variable {t : Nat} {p f r : Int} (ht : 1 ≤ t) (hp : p = f * 2 ^ t + r) (hr : 0 ≤ r) (hlt : r < 2 ^ t)
include ht hp hr hlt

theorem roundShift_floor : roundShift .floor t p = f := by
  obtain ⟨hdiv, -⟩ := ediv_emod_two_pow hp hr hlt
  simp [roundShift, Nat.one_le_iff_ne_zero.mp ht, hdiv]

theorem roundShift_halfUp : roundShift .halfUp t p = if r < 2 ^ (t - 1) then f else f + 1 := by
  obtain ⟨hdiv, hmod⟩ := ediv_emod_two_pow hp hr hlt
  simp [roundShift, Nat.one_le_iff_ne_zero.mp ht, hdiv, hmod]

theorem roundShift_halfEven : roundShift .halfEven t p =
    if r < 2 ^ (t - 1) then f else if 2 ^ (t - 1) < r then f + 1 else if f % 2 = 0 then f else f + 1 := by
  obtain ⟨hdiv, hmod⟩ := ediv_emod_two_pow hp hr hlt
  simp [roundShift, Nat.one_le_iff_ne_zero.mp ht, hdiv, hmod]

theorem roundShift_below_half (mode : Rounding) (h : r < 2 ^ (t - 1)) : roundShift mode t p = f := by
  cases mode with
  | floor => exact roundShift_floor ht hp hr hlt
  | halfUp => rw [roundShift_halfUp ht hp hr hlt, if_pos h]
  | halfEven => rw [roundShift_halfEven ht hp hr hlt, if_pos h]

theorem roundShift_above_half {mode : Rounding} (hm : mode ≠ .floor) (h : 2 ^ (t - 1) < r) : roundShift mode t p = f + 1 := by
  cases mode with
  | floor => exact absurd rfl hm
  | halfUp => rw [roundShift_halfUp ht hp hr hlt, if_neg h.not_gt]
  | halfEven => rw [roundShift_halfEven ht hp hr hlt, if_neg h.not_gt, if_pos h]

theorem roundShift_halfUp_tie (h : r = 2 ^ (t - 1)) : roundShift .halfUp t p = f + 1 := by
  rw [roundShift_halfUp ht hp hr hlt, if_neg h.not_lt]

theorem roundShift_halfEven_tie (h : r = 2 ^ (t - 1)) : roundShift .halfEven t p = if f % 2 = 0 then f else f + 1 := by
  rw [roundShift_halfEven ht hp hr hlt, if_neg h.not_lt, if_neg h.not_gt]

end

/-- Settles O35: the total shift, and the table of R26 cell by cell on the quotient and remainder that R26 forms. -/
theorem rounding : Obligations.Rounding := by
  refine ⟨fun _ _ h => totalShift_of_decimation_two_pow h, fun _ _ _ h => totalShift_le_of_loadDescriptor h, roundShift_zero,
    fun mode t p f r ht hp hr hlt => ⟨?_, fun _ => roundShift_below_half ht hp hr hlt mode, roundShift_above_half ht hp hr hlt,
      ?_, ?_, ?_⟩, by decide⟩
  · rintro rfl
    exact roundShift_floor ht hp hr hlt
  · rintro rfl htie
    exact roundShift_halfUp_tie ht hp hr hlt htie
  · rintro rfl htie heven
    rw [roundShift_halfEven_tie ht hp hr hlt htie, if_pos heven]
  · rintro rfl htie hodd
    rw [roundShift_halfEven_tie ht hp hr hlt htie, if_neg (by omega)]

/-! ### The clamp (R28) -/

theorem Width.lowest_le_highest (w : Width) : w.lowest ≤ w.highest := by cases w <;> decide

theorem saturate_below {w : Width} {v : Int} (h : v < w.lowest) : saturate w v = (w.lowest, true) := if_pos h

theorem saturate_above {w : Width} {v : Int} (h : w.highest < v) : saturate w v = (w.highest, true) := by
  rw [saturate, if_neg (w.lowest_le_highest.trans h.le).not_gt, if_pos h]

theorem saturate_inside {w : Width} {v : Int} (hlow : w.lowest ≤ v) (hhigh : v ≤ w.highest) : saturate w v = (v, false) := by
  rw [saturate, if_neg hlow.not_gt, if_neg hhigh.not_gt]

theorem saturate_in_range (w : Width) (v : Int) : w.lowest ≤ (saturate w v).1 ∧ (saturate w v).1 ≤ w.highest := by
  rcases lt_or_ge v w.lowest with hbelow | hlow
  · rw [saturate_below hbelow]
    exact ⟨le_rfl, w.lowest_le_highest⟩
  · rcases lt_or_ge w.highest v with habove | hhigh
    · rw [saturate_above habove]
      exact ⟨w.lowest_le_highest, le_rfl⟩
    · rw [saturate_inside hlow hhigh]
      exact ⟨hlow, hhigh⟩

/-! ### The window and the mark (R29, R30) -/

theorem Descriptor.inside_iff (d : Descriptor) (y : Int) : d.inside y = true ↔ d.low ≤ y ∧ y ≤ d.high := by
  simp [Descriptor.inside]

theorem keeps_of_off_or_mark {d : Descriptor} (h : d.mode = .off ∨ d.mode = .mark) (y : Int) : d.keeps y = true := by
  rcases h with h | h <;> simp [Descriptor.keeps, h]

theorem keeps_keepInside_iff {d : Descriptor} (h : d.mode = .keepInside) (y : Int) :
    d.keeps y = true ↔ d.low ≤ y ∧ y ≤ d.high := by
  simp only [Descriptor.keeps, h, d.inside_iff]

theorem keeps_keepOutside_iff {d : Descriptor} (h : d.mode = .keepOutside) (y : Int) :
    d.keeps y = true ↔ ¬ (d.low ≤ y ∧ y ≤ d.high) := by
  simp only [Descriptor.keeps, h, Bool.not_eq_true', Bool.eq_false_iff, ne_eq, d.inside_iff]

section
variable {d : Descriptor} {y : Int} {clipped : Bool}

theorem markOf_clipped (hc : clipped = true) : d.markOf y clipped = 3 := by
  rw [Descriptor.markOf, if_pos hc]

theorem markOf_below (hc : clipped = false) (h : y < d.low) : d.markOf y clipped = 1 := by
  rw [Descriptor.markOf, hc, if_neg Bool.false_ne_true, if_pos h]

theorem markOf_above (hc : clipped = false) (hlow : d.low ≤ y) (h : d.high < y) : d.markOf y clipped = 2 := by
  rw [Descriptor.markOf, hc, if_neg Bool.false_ne_true, if_neg hlow.not_gt, if_pos h]

theorem markOf_inside (hc : clipped = false) (hlow : d.low ≤ y) (hhigh : y ≤ d.high) : d.markOf y clipped = 0 := by
  rw [Descriptor.markOf, hc, if_neg Bool.false_ne_true, if_neg hlow.not_gt, if_neg hhigh.not_gt]

end

/-! ### One raw sample (R22, R31) -/

theorem accumulate_joins {x : Slot} {d : Descriptor} (raw : Int) (h : x.fill + 1 < d.decimation) :
    x.accumulate d raw = ({ x with acc := x.acc + raw, fill := x.fill + 1 }, none) := if_pos h

/-- The counters of a slot after an output sample (R28, R30). -/
def Slot.countsAfter (x : Slot) (o : Output) : SlotCounters :=
  { x.counters with
    samplesClipped := min 4294967295 (x.counters.samplesClipped + (if o.clipped then 1 else 0))
    samplesOut := min 4294967295 (x.counters.samplesOut + (if o.kept then 1 else 0))
    samplesGated := min 4294967295 (x.counters.samplesGated + (if o.kept then 0 else 1)) }

theorem accumulate_completes {x : Slot} {d : Descriptor} (raw : Int) (h : d.decimation ≤ x.fill + 1) :
    x.accumulate d raw =
      ({ x with acc := 0, fill := 0, outputIndex := (x.outputIndex + 1) % 4294967296,
                counters := x.countsAfter (conditionGroup d (x.acc + raw) x.outputIndex) },
        some (conditionGroup d (x.acc + raw) x.outputIndex)) := if_neg h.not_gt

/-! ### The output sample (R25 to R31) -/

section
variable (d : Descriptor) (acc : Int) (index : Nat)

/-- The value clamped is the exact product, rounded, with the offset added (R25 to R28). -/
theorem conditionGroup_saturate : ((conditionGroup d acc index).value, (conditionGroup d acc index).clipped) =
    saturate d.width (roundShift d.rounding d.totalShift (acc * d.gain) + d.offset) := rfl

@[simp] theorem conditionGroup_kept : (conditionGroup d acc index).kept = d.keeps (conditionGroup d acc index).value := rfl

@[simp] theorem conditionGroup_mark :
    (conditionGroup d acc index).mark = d.markOf (conditionGroup d acc index).value (conditionGroup d acc index).clipped := rfl

@[simp] theorem conditionGroup_index : (conditionGroup d acc index).index = index := rfl

theorem conditionGroup_in_range :
    d.width.lowest ≤ (conditionGroup d acc index).value ∧ (conditionGroup d acc index).value ≤ d.width.highest :=
  saturate_in_range _ _

variable {d acc} {y : Int} {c : Bool}

theorem conditionGroup_of_saturate
    (h : saturate d.width (roundShift d.rounding d.totalShift (acc * d.gain) + d.offset) = (y, c)) :
    (conditionGroup d acc index).value = y ∧ (conditionGroup d acc index).clipped = c :=
  Prod.mk.inj ((conditionGroup_saturate d acc index).trans h)

end

/-- Settles O36: a sample that joins the sum or completes the group, and the output sample by its clamp, its window and its mark. -/
theorem conditioning : Obligations.Conditioning := by
  refine ⟨fun x d raw => ⟨accumulate_joins raw, fun h => ⟨_, _, accumulate_completes raw h, rfl, rfl, rfl⟩⟩,
    fun d acc index => ?_⟩
  obtain ⟨hlow, hhigh⟩ := conditionGroup_in_range d acc index
  simp only [conditionGroup_index, conditionGroup_kept, conditionGroup_mark]
  exact ⟨trivial, hlow, hhigh,
    fun h h' => conditionGroup_of_saturate index (saturate_inside h h'),
    fun h => conditionGroup_of_saturate index (saturate_below h),
    fun h => conditionGroup_of_saturate index (saturate_above h),
    fun h => keeps_of_off_or_mark h _, fun h => keeps_keepInside_iff h _, fun h => keeps_keepOutside_iff h _,
    markOf_clipped, markOf_below, markOf_above, markOf_inside⟩

end Sys2Proof.Machine
end

