-- ==== Sys2Proof/Proofs/Shape.lean ====
section
/-! PROOFS. The number of slots of the Stream Table and of buffers of the Page Pool: what each operation keeps of the two lengths, where
its frame does not say that it leaves the whole table alone, and the settled statements on the shape and on the reset state. -/

open Sys2Proof Sys2Proof.Machine

namespace Sys2Proof.Machine

/-! ### The operations, block by block, in the order of the model -/

@[simp] theorem closeOpen_shape (s : State) (i : Nat) :
    (s.closeOpen i).slots.length = s.slots.length ∧ (s.closeOpen i).pool.buffers.length = s.pool.buffers.length := by
  unfold State.closeOpen
  dsimp only
  split <;> simp

theorem takeBuffer_shape (s : State) (i : Nat) (u : State) (h : s.takeBuffer i = some u) :
    u.slots.length = s.slots.length ∧ u.pool.buffers.length = s.pool.buffers.length := by
  unfold State.takeBuffer at h
  split at h
  all_goals cases h
  simp

@[simp] theorem pushPage_shape (s : State) (i : Nat) :
    (s.pushPage i).slots.length = s.slots.length ∧ (s.pushPage i).pool.buffers.length = s.pool.buffers.length := by
  unfold State.pushPage
  dsimp only
  split <;> simp

@[simp] theorem makeRoom_shape (s : State) (i need : Nat) :
    (s.makeRoom i need).1.slots.length = s.slots.length ∧ (s.makeRoom i need).1.pool.buffers.length = s.pool.buffers.length := by
  unfold State.makeRoom
  grind [takeBuffer_shape, pushPage_shape]

@[simp] theorem writeMarker_shape (s : State) (i : Nat) (k : MarkerKind) :
    (s.writeMarker i k).1.slots.length = s.slots.length ∧ (s.writeMarker i k).1.pool.buffers.length = s.pool.buffers.length := by
  unfold State.writeMarker
  have h := makeRoom_shape s i 20
  generalize s.makeRoom i 20 = r at h
  obtain ⟨t, room⟩ := r
  dsimp only at h ⊢
  split <;> simp [h]

@[simp] theorem writeMarkerList_shape (s : State) (i : Nat) (l : List MarkerKind) :
    (s.writeMarkerList i l).1.slots.length = s.slots.length ∧ (s.writeMarkerList i l).1.pool.buffers.length = s.pool.buffers.length := by
  induction l generalizing s with
  | nil => simp [State.writeMarkerList]
  | cons a l ih =>
    unfold State.writeMarkerList
    have := writeMarker_shape s i a
    grind

@[simp] theorem writeMarkers_shape (s : State) (i : Nat) :
    (s.writeMarkers i).1.slots.length = s.slots.length ∧ (s.writeMarkers i).1.pool.buffers.length = s.pool.buffers.length := by
  unfold State.writeMarkers
  simp

@[simp] theorem joinWaitList_shape (s : State) (i : Nat) :
    (s.joinWaitList i).pool.buffers.length = s.pool.buffers.length := by
  unfold State.joinWaitList
  split <;> simp

@[simp] theorem requestClose_shape (s : State) (i : Nat) :
    (s.requestClose i).slots.length = s.slots.length ∧ (s.requestClose i).pool.buffers.length = s.pool.buffers.length := by
  unfold State.requestClose
  have h := writeMarkers_shape (s.closeOpen i) i
  split <;> rename_i e <;> rw [e] at h <;> simp at h <;> (try split) <;> simp [h]

@[simp] theorem requestCloses_shape (s : State) (l : List Nat) :
    (s.requestCloses l).slots.length = s.slots.length ∧ (s.requestCloses l).pool.buffers.length = s.pool.buffers.length := by
  induction l generalizing s with
  | nil => simp [State.requestCloses]
  | cons a l ih => simp [State.requestCloses, ih]

@[simp] theorem openData_shape (s : State) (i : Nat) (d : Descriptor) (o : Output) (t : Stamp) (mark : Option (List Byte)) :
    (s.openData i d o t mark).1.slots.length = s.slots.length ∧ (s.openData i d o t mark).1.pool.buffers.length = s.pool.buffers.length := by
  unfold State.openData
  dsimp only
  split <;> simp

@[simp] theorem appendSample_shape (s : State) (i : Nat) (d : Descriptor) (r : OpenRecord) (o : Output) (t : Stamp) (mark : Option (List Byte)) :
    (s.appendSample i d r o t mark).1.slots.length = s.slots.length ∧
    (s.appendSample i d r o t mark).1.pool.buffers.length = s.pool.buffers.length := by
  unfold State.appendSample
  dsimp only
  repeat' split
  all_goals simp

@[simp] theorem placeSample_shape (s : State) (i : Nat) (d : Descriptor) (o : Output) (t : Stamp) (mark : Option (List Byte)) :
    (s.placeSample i d o t mark).1.slots.length = s.slots.length ∧
    (s.placeSample i d o t mark).1.pool.buffers.length = s.pool.buffers.length := by
  unfold State.placeSample
  have h1 := writeMarkers_shape (s.closeOpen i) i
  have h2 := closeOpen_shape s i
  grind [openData_shape, appendSample_shape]

@[simp] theorem loseFrame_shape (s : State) (i : Nat) (reason : LossReason) :
    (s.loseFrame i reason).slots.length = s.slots.length := by
  unfold State.loseFrame
  dsimp only
  split <;> simp

@[simp] theorem takeSamples_shape (s : State) (i : Nat) (d : Descriptor) (t : Stamp) (mark : Option (List Byte)) (noPlace : Bool) (l : List Int) :
    (s.takeSamples i d t mark noPlace l).slots.length = s.slots.length ∧
    (s.takeSamples i d t mark noPlace l).pool.buffers.length = s.pool.buffers.length := by
  induction l generalizing s noPlace with
  | nil => simp [State.takeSamples]
  | cons a l ih =>
    unfold State.takeSamples
    dsimp only
    split
    · simp [ih]
    · split
      · simp [ih]
      · split
        · simp [ih]
        · have h := placeSample_shape (s.modSlot i fun _ => ((s.slotAt i).accumulate d a).1) i d ‹Output› t mark
          split <;> rename_i e <;> rw [e] at h <;> simp at h <;> simp [ih, h]

@[simp] theorem imposePause_shape (s : State) (reason : PauseReason) (i : Nat) :
    (s.imposePause reason i).slots.length = s.slots.length ∧ (s.imposePause reason i).pool.buffers.length = s.pool.buffers.length := by
  unfold State.imposePause
  simp

@[simp] theorem imposePauses_shape (s : State) (reason : PauseReason) (l : List Nat) :
    (s.imposePauses reason l).slots.length = s.slots.length ∧ (s.imposePauses reason l).pool.buffers.length = s.pool.buffers.length := by
  induction l generalizing s reason with
  | nil => simp [State.imposePauses]
  | cons a l ih => simp [State.imposePauses, ih]

@[simp] theorem pauseRunning_shape (s : State) (reason : PauseReason) :
    (s.pauseRunning reason).slots.length = s.slots.length ∧ (s.pauseRunning reason).pool.buffers.length = s.pool.buffers.length := by
  unfold State.pauseRunning
  simp

@[simp] theorem criticalPause_shape (s : State) (i : Nat) :
    (s.criticalPause i).slots.length = s.slots.length ∧ (s.criticalPause i).pool.buffers.length = s.pool.buffers.length := by
  unfold State.criticalPause
  simp

@[simp] theorem criticalPauses_shape (s : State) (l : List Nat) :
    (s.criticalPauses l).slots.length = s.slots.length ∧ (s.criticalPauses l).pool.buffers.length = s.pool.buffers.length := by
  induction l generalizing s with
  | nil => simp [State.criticalPauses]
  | cons a l ih => simp [State.criticalPauses, ih]

@[simp] theorem enterCriticalStreams_shape (s : State) :
    s.enterCriticalStreams.slots.length = s.slots.length ∧ s.enterCriticalStreams.pool.buffers.length = s.pool.buffers.length := by
  unfold State.enterCriticalStreams
  simp

@[simp] theorem beginStop_shape (s : State) (i : Nat) :
    (s.beginStop i).slots.length = s.slots.length ∧ (s.beginStop i).pool.buffers.length = s.pool.buffers.length := by
  unfold State.beginStop
  simp

@[simp] theorem beginStops_shape (s : State) (l : List Nat) :
    (s.beginStops l).slots.length = s.slots.length ∧ (s.beginStops l).pool.buffers.length = s.pool.buffers.length := by
  induction l generalizing s with
  | nil => simp [State.beginStops]
  | cons a l ih => simp [State.beginStops, ih]

@[simp] theorem testMediaFull_shape (s : State) (pausing : Bool) :
    (s.testMediaFull pausing).slots.length = s.slots.length ∧ (s.testMediaFull pausing).pool.buffers.length = s.pool.buffers.length := by
  unfold State.testMediaFull
  repeat' split
  all_goals simp

@[simp] theorem failLoad_shape (s : State) (slot : Nat) :
    (s.failLoad slot).slots.length = s.slots.length := by
  unfold State.failLoad
  simp

@[simp] theorem refuseTake_shape (s : State) (t : Take) :
    (s.refuseTake t).slots.length = s.slots.length := by
  unfold State.refuseTake
  dsimp only
  repeat' split
  all_goals simp

@[simp] theorem makeTake_shape (s : State) (t : Take) :
    (s.makeTake t).slots.length = s.slots.length ∧ (s.makeTake t).pool.buffers.length = s.pool.buffers.length := by
  unfold State.makeTake
  repeat' split
  all_goals simp

@[simp] theorem remakeTakes_shape (s : State) (l : List Take) :
    (s.remakeTakes l).slots.length = s.slots.length ∧ (s.remakeTakes l).pool.buffers.length = s.pool.buffers.length := by
  induction l generalizing s with
  | nil => simp [State.remakeTakes]
  | cons a l ih => simp [State.remakeTakes, ih]

@[simp] theorem offerTakes_shape (s : State) (l : List Nat) :
    (s.offerTakes l).slots.length = s.slots.length ∧ (s.offerTakes l).pool.buffers.length = s.pool.buffers.length := by
  induction l generalizing s with
  | nil => simp [State.offerTakes]
  | cons a l ih =>
    unfold State.offerTakes
    split <;> simp [ih]

@[simp] theorem offerAll_shape (s : State) :
    s.offerAll.slots.length = s.slots.length ∧ s.offerAll.pool.buffers.length = s.pool.buffers.length := by
  unfold State.offerAll
  simp

@[simp] theorem completeLoad_shape (s : State) (g : Nat) (t : Take) :
    (s.completeLoad g t).slots.length = s.slots.length := by
  unfold State.completeLoad
  split <;> simp

@[simp] theorem headerEnd_shape (s : State) (g : Nat) (ok : Bool) :
    (s.headerEnd g ok).slots.length = s.slots.length ∧ (s.headerEnd g ok).pool.buffers.length = s.pool.buffers.length := by
  unfold State.headerEnd
  dsimp only
  repeat' split
  all_goals simp

@[simp] theorem aheadEnd_shape (s : State) (g : Nat) (ok : Bool) :
    (s.aheadEnd g ok).slots.length = s.slots.length ∧ (s.aheadEnd g ok).pool.buffers.length = s.pool.buffers.length := by
  unfold State.aheadEnd
  dsimp only
  repeat' split
  all_goals simp

@[simp] theorem takeEraseEnd_shape (s : State) (g : Nat) (ok : Bool) :
    (s.takeEraseEnd g ok).slots.length = s.slots.length ∧ (s.takeEraseEnd g ok).pool.buffers.length = s.pool.buffers.length := by
  unfold State.takeEraseEnd
  dsimp only
  repeat' split
  all_goals simp

@[simp] theorem returnErasing_shape (s : State) (g : Nat) :
    (s.returnErasing g).slots.length = s.slots.length ∧ (s.returnErasing g).pool.buffers.length = s.pool.buffers.length := by
  unfold State.returnErasing
  simp

@[simp] theorem abandonErase_shape (s : State) :
    s.abandonErase.slots.length = s.slots.length ∧ s.abandonErase.pool.buffers.length = s.pool.buffers.length := by
  unfold State.abandonErase
  repeat' split
  all_goals simp

@[simp] theorem parkLowered_shape (s : State) :
    s.parkLowered.slots.length = s.slots.length ∧ s.parkLowered.pool.buffers.length = s.pool.buffers.length := by
  unfold State.parkLowered
  simp

@[simp] theorem drain_shape (s : State) (seen : List Nat) (l : List Entry) :
    (s.drain seen l).1.slots.length = s.slots.length ∧ (s.drain seen l).1.pool.buffers.length = s.pool.buffers.length := by
  induction l generalizing s seen with
  | nil => simp [State.drain]
  | cons a l ih =>
    unfold State.drain
    repeat' split
    all_goals simp [ih]

@[simp] theorem startCommit_shape (s : State) :
    s.startCommit.1.slots.length = s.slots.length ∧ s.startCommit.1.pool.buffers.length = s.pool.buffers.length := by
  unfold State.startCommit
  split
  · rename_i e
    simp [startTakes_frame s _ e]
  · have h := drain_shape s [] s.queue
    generalize s.drain [] s.queue = r at h
    obtain ⟨t, b⟩ := r
    cases b
    · dsimp only at h ⊢
      split
      · rename_i e
        simp [startTakes_frame t _ e, h]
      · exact h
    · simpa using h

@[simp] theorem startLow_shape (s : State) :
    s.startLow.slots.length = s.slots.length ∧ s.startLow.pool.buffers.length = s.pool.buffers.length := by
  unfold State.startLow
  split
  · rename_i e
    split at e
    · simp [startRead_frame s _ e]
    · cases e
  · have h := startCommit_shape s
    generalize s.startCommit = r at h
    obtain ⟨t, b⟩ := r
    cases b
    · dsimp only at h ⊢
      split
      · rename_i e
        simp [startRead_frame t _ e, h]
      · simpa using h
    · exact h

@[simp] theorem settleFairness_shape (s : State) :
    s.settleFairness.slots.length = s.slots.length ∧ s.settleFairness.pool.buffers.length = s.pool.buffers.length := by
  unfold State.settleFairness
  split <;> simp

@[simp] theorem chooseLow_shape (s : State) :
    s.chooseLow.slots.length = s.slots.length ∧ s.chooseLow.pool.buffers.length = s.pool.buffers.length := by
  unfold State.chooseLow
  split
  · rename_i e
    simp [startIndex_frame s _ e]
  · split
    · rename_i e
      simp [startMount_frame s _ e]
    · simp

@[simp] theorem choose_shape (s : State) :
    s.choose.slots.length = s.slots.length ∧ s.choose.pool.buffers.length = s.pool.buffers.length := by
  unfold State.choose
  split
  · rename_i e
    simp [startVerify_frame s _ e]
  · split <;> simp

@[simp] theorem arbitrate_shape (s : State) :
    s.arbitrate.slots.length = s.slots.length ∧ s.arbitrate.pool.buffers.length = s.pool.buffers.length := by
  unfold State.arbitrate
  repeat' split
  all_goals simp

@[simp] theorem powerDownEnded_shape (s : State) (left : Nat) :
    (s.powerDownEnded left).slots.length = s.slots.length ∧ (s.powerDownEnded left).pool.buffers.length = s.pool.buffers.length := by
  unfold State.powerDownEnded
  split <;> simp

@[simp] theorem giveUp_shape (s : State) (left : Nat) (body : EntryBody) :
    (s.giveUp left body).slots.length = s.slots.length ∧ (s.giveUp left body).pool.buffers.length = s.pool.buffers.length := by
  unfold State.giveUp
  split <;> simp

@[simp] theorem durable_shape (s : State) (body : EntryBody) :
    (s.durable body).slots.length = s.slots.length ∧ (s.durable body).pool.buffers.length = s.pool.buffers.length := by
  unfold State.durable
  split <;> simp

@[simp] theorem releaseOf_shape (s : State) (e : IndexEntry) :
    (s.releaseOf e).pool.buffers.length = s.pool.buffers.length := by
  unfold State.releaseOf
  split <;> simp

@[simp] theorem dropHead_shape (s : State) :
    s.dropHead.pool.buffers.length = s.pool.buffers.length := by
  unfold State.dropHead
  split <;> simp

@[simp] theorem withdraw_shape (s : State) (isIt : EntryBody → Bool) :
    (s.withdraw isIt).pool.buffers.length = s.pool.buffers.length := by
  unfold State.withdraw
  split <;> simp

@[simp] theorem giveUpList_shape (s : State) (left : Nat) (l : List IndexEntry) :
    (s.giveUpList left l).slots.length = s.slots.length ∧ (s.giveUpList left l).pool.buffers.length = s.pool.buffers.length := by
  induction l generalizing s left with
  | nil => simp [State.giveUpList]
  | cons a l ih => simp [State.giveUpList, ih]

@[simp] theorem giveUpAll_shape (s : State) (left : Nat) :
    (s.giveUpAll left).slots.length = s.slots.length ∧ (s.giveUpAll left).pool.buffers.length = s.pool.buffers.length := by
  unfold State.giveUpAll
  simp

@[simp] theorem enterLogFailed_shape (s : State) :
    s.enterLogFailed.slots.length = s.slots.length ∧ s.enterLogFailed.pool.buffers.length = s.pool.buffers.length := by
  unfold State.enterLogFailed
  dsimp only
  split <;> simp

@[simp] theorem nextRollover_shape (s : State) :
    s.nextRollover.slots.length = s.slots.length ∧ s.nextRollover.pool.buffers.length = s.pool.buffers.length := by
  unfold State.nextRollover
  split <;> simp

@[simp] theorem grantSnapshot_shape (s : State) (c b : Nat) :
    (s.grantSnapshot c b).pool.buffers.length = s.pool.buffers.length := by
  unfold State.grantSnapshot
  simp

@[simp] theorem askSnapshot_shape (s : State) (c : Nat) :
    (s.askSnapshot c).pool.buffers.length = s.pool.buffers.length := by
  unfold State.askSnapshot
  split <;> simp

@[simp] theorem headReady_shape (s : State) :
    s.headReady.slots.length = s.slots.length ∧ s.headReady.pool.buffers.length = s.pool.buffers.length := by
  unfold State.headReady
  split <;> simp

@[simp] theorem grantEntry_shape (s : State) (b : Nat) :
    (s.grantEntry b).slots.length = s.slots.length ∧ (s.grantEntry b).pool.buffers.length = s.pool.buffers.length := by
  unfold State.grantEntry
  split <;> simp

@[simp] theorem askEntry_shape (s : State) :
    s.askEntry.slots.length = s.slots.length ∧ s.askEntry.pool.buffers.length = s.pool.buffers.length := by
  unfold State.askEntry
  repeat' split
  all_goals simp

@[simp] theorem pumpLog_shape (s : State) :
    s.pumpLog.slots.length = s.slots.length ∧ s.pumpLog.pool.buffers.length = s.pool.buffers.length := by
  unfold State.pumpLog
  repeat' split
  all_goals simp

@[simp] theorem requestEntry_shape (s : State) (body : EntryBody) :
    (s.requestEntry body).slots.length = s.slots.length ∧ (s.requestEntry body).pool.buffers.length = s.pool.buffers.length := by
  unfold State.requestEntry
  dsimp only
  repeat' split
  all_goals simp

@[simp] theorem entryDurable_shape (s : State) (e : IndexEntry) :
    (s.entryDurable e).slots.length = s.slots.length ∧ (s.entryDurable e).pool.buffers.length = s.pool.buffers.length := by
  unfold State.entryDurable
  simp

@[simp] theorem entryFailed_shape (s : State) (e : IndexEntry) :
    (s.entryFailed e).slots.length = s.slots.length ∧ (s.entryFailed e).pool.buffers.length = s.pool.buffers.length := by
  unfold State.entryFailed
  split <;> simp

@[simp] theorem indexProgramEnd_shape (s : State) (g p : Nat) (ok : Bool) :
    (s.indexProgramEnd g p ok).slots.length = s.slots.length ∧ (s.indexProgramEnd g p ok).pool.buffers.length = s.pool.buffers.length := by
  unfold State.indexProgramEnd
  dsimp only
  repeat' split
  all_goals simp

@[simp] theorem failCandidate_shape (s : State) (c : Nat) :
    (s.failCandidate c).slots.length = s.slots.length ∧ (s.failCandidate c).pool.buffers.length = s.pool.buffers.length := by
  unfold State.failCandidate
  simp

@[simp] theorem indexEraseEnd_shape (s : State) (c : Nat) (ok : Bool) :
    (s.indexEraseEnd c ok).slots.length = s.slots.length ∧ (s.indexEraseEnd c ok).pool.buffers.length = s.pool.buffers.length := by
  unfold State.indexEraseEnd
  split <;> simp

@[simp] theorem snapshotEnd_shape (s : State) (c : Nat) (ok : Bool) :
    (s.snapshotEnd c ok).slots.length = s.slots.length ∧ (s.snapshotEnd c ok).pool.buffers.length = s.pool.buffers.length := by
  unfold State.snapshotEnd
  dsimp only
  repeat' split
  all_goals simp

@[simp] theorem beginDozeEntry_shape (s : State) (cause : DozeCause) :
    (s.beginDozeEntry cause).slots.length = s.slots.length ∧ (s.beginDozeEntry cause).pool.buffers.length = s.pool.buffers.length := by
  unfold State.beginDozeEntry
  simp

@[simp] theorem cancelShutdown_shape (s : State) :
    s.cancelShutdown.slots.length = s.slots.length ∧ s.cancelShutdown.pool.buffers.length = s.pool.buffers.length := by
  unfold State.cancelShutdown
  dsimp only
  repeat' split
  all_goals simp

@[simp] theorem raisePark_shape (s : State) :
    s.raisePark.slots.length = s.slots.length ∧ s.raisePark.pool.buffers.length = s.pool.buffers.length := by
  unfold State.raisePark
  split <;> simp

@[simp] theorem markDrop_shape (s : State) (number : Nat) (kind : DropKind) :
    (s.markDrop number kind).slots.length = s.slots.length := by
  unfold State.markDrop
  simp

@[simp] theorem declareDrop_shape (s : State) (kind : DropKind) (start : Stamp) (holdUp : Nat) :
    (s.declareDrop kind start holdUp).slots.length = s.slots.length ∧
    (s.declareDrop kind start holdUp).pool.buffers.length = s.pool.buffers.length := by
  unfold State.declareDrop
  simp

@[simp] theorem finishDrop_shape (s : State) (unresolved : Nat) :
    (s.finishDrop unresolved).slots.length = s.slots.length ∧ (s.finishDrop unresolved).pool.buffers.length = s.pool.buffers.length := by
  unfold State.finishDrop
  split <;> simp

@[simp] theorem enterWatch_shape (s : State) :
    s.enterWatch.slots.length = s.slots.length ∧ s.enterWatch.pool.buffers.length = s.pool.buffers.length := by
  unfold State.enterWatch
  simp

@[simp] theorem judgeVerify_shape (s : State) :
    s.judgeVerify.slots.length = s.slots.length ∧ s.judgeVerify.pool.buffers.length = s.pool.buffers.length := by
  unfold State.judgeVerify
  split <;> simp

@[simp] theorem enterVerify_shape (s : State) :
    s.enterVerify.slots.length = s.slots.length ∧ s.enterVerify.pool.buffers.length = s.pool.buffers.length := by
  unfold State.enterVerify
  simp

@[simp] theorem judgeSettle_shape (s : State) (v : ScanView) :
    (s.judgeSettle v).slots.length = s.slots.length ∧ (s.judgeSettle v).pool.buffers.length = s.pool.buffers.length := by
  unfold State.judgeSettle
  dsimp only
  split <;> simp

@[simp] theorem scanImpact_shape (s : State) (v : ScanView) :
    (s.scanImpact v).slots.length = s.slots.length ∧ (s.scanImpact v).pool.buffers.length = s.pool.buffers.length := by
  unfold State.scanImpact
  simp

@[simp] theorem goImpact_shape (s : State) (v : ScanView) :
    (s.goImpact v).slots.length = s.slots.length ∧ (s.goImpact v).pool.buffers.length = s.pool.buffers.length := by
  unfold State.goImpact
  simp

@[simp] theorem declareImpact_shape (s : State) (v : ScanView) :
    (s.declareImpact v).slots.length = s.slots.length ∧ (s.declareImpact v).pool.buffers.length = s.pool.buffers.length := by
  unfold State.declareImpact
  simp

@[simp] theorem scanWatch_shape (s : State) (v : ScanView) :
    (s.scanWatch v).slots.length = s.slots.length ∧ (s.scanWatch v).pool.buffers.length = s.pool.buffers.length := by
  unfold State.scanWatch
  split <;> simp

@[simp] theorem scanFallWait_shape (s : State) (v : ScanView) :
    (s.scanFallWait v).slots.length = s.slots.length ∧ (s.scanFallWait v).pool.buffers.length = s.pool.buffers.length := by
  unfold State.scanFallWait
  dsimp only
  repeat' split
  all_goals simp

@[simp] theorem scanFalling_shape (s : State) (v : ScanView) :
    (s.scanFalling v).slots.length = s.slots.length ∧ (s.scanFalling v).pool.buffers.length = s.pool.buffers.length := by
  unfold State.scanFalling
  dsimp only
  repeat' split
  all_goals simp

@[simp] theorem scanSettling_shape (s : State) (v : ScanView) :
    (s.scanSettling v).slots.length = s.slots.length ∧ (s.scanSettling v).pool.buffers.length = s.pool.buffers.length := by
  unfold State.scanSettling
  split <;> simp

@[simp] theorem scanVerify_shape (s : State) (v : ScanView) :
    (s.scanVerify v).slots.length = s.slots.length ∧ (s.scanVerify v).pool.buffers.length = s.pool.buffers.length := by
  unfold State.scanVerify
  split <;> simp

@[simp] theorem monitorScan_shape (s : State) (v : ScanView) :
    (s.monitorScan v).slots.length = s.slots.length ∧ (s.monitorScan v).pool.buffers.length = s.pool.buffers.length := by
  unfold State.monitorScan
  dsimp only
  split <;> simp

@[simp] theorem levelChanged_shape (s : State) (old : BatteryLevel) :
    (s.levelChanged old).slots.length = s.slots.length ∧ (s.levelChanged old).pool.buffers.length = s.pool.buffers.length := by
  unfold State.levelChanged
  dsimp only
  repeat' split
  all_goals simp

@[simp] theorem gaugeScan_shape (s : State) (vhold vpack ipack tpack interval : Nat) :
    (s.gaugeScan vhold vpack ipack tpack interval).slots.length = s.slots.length ∧
    (s.gaugeScan vhold vpack ipack tpack interval).pool.buffers.length = s.pool.buffers.length := by
  unfold State.gaugeScan
  dsimp only
  repeat' split
  all_goals simp

@[simp] theorem becomeReady_shape (s : State) (restored notRestored : Nat) :
    (s.becomeReady restored notRestored).slots.length = s.slots.length ∧
    (s.becomeReady restored notRestored).pool.buffers.length = s.pool.buffers.length := by
  unfold State.becomeReady
  simp

@[simp] theorem mountUnformatted_shape (s : State) :
    s.mountUnformatted.slots.length = s.slots.length ∧ s.mountUnformatted.pool.buffers.length = s.pool.buffers.length := by
  unfold State.mountUnformatted
  simp

@[simp] theorem restoreOne_shape (s : State) (i : Nat) (r : ChainResult) (d : Descriptor) :
    (s.restoreOne i r d).slots.length = s.slots.length := by
  unfold State.restoreOne
  dsimp only
  split <;> simp

@[simp] theorem restoreAll_shape (s : State) (i : Nat) (l : List (ChainResult × Descriptor)) :
    (s.restoreAll i l).slots.length = s.slots.length := by
  induction l generalizing s i with
  | nil => simp [State.restoreAll]
  | cons a l ih => simp [State.restoreAll, ih]

@[simp] theorem endChains_shape (s : State) (done : List ChainResult) :
    (s.endChains done).slots.length = s.slots.length ∧ (s.endChains done).pool.buffers.length = s.pool.buffers.length := by
  unfold State.endChains
  split <;> simp

@[simp] theorem nextChain_shape (s : State) (left : List (Nat × Nat)) (done : List ChainResult) :
    (s.nextChain left done).slots.length = s.slots.length ∧ (s.nextChain left done).pool.buffers.length = s.pool.buffers.length := by
  unfold State.nextChain
  split <;> simp

@[simp] theorem chainDone_shape (s : State) (left : List (Nat × Nat)) (done : List ChainResult) (r : ChainResult) :
    (s.chainDone left done r).slots.length = s.slots.length ∧ (s.chainDone left done r).pool.buffers.length = s.pool.buffers.length := by
  unfold State.chainDone
  simp

@[simp] theorem lastKnown_shape (s : State) (survey index : Nat) (left : List (Nat × Nat)) (done : List ChainResult) (b : LastPage) (marks : List IndexMark)
    (page : Option (Trailer × List Byte)) (before : Option (Nat × Nat)) :
    (s.lastKnown survey index left done b marks page before).slots.length = s.slots.length ∧
    (s.lastKnown survey index left done b marks page before).pool.buffers.length = s.pool.buffers.length := by
  unfold State.lastKnown
  repeat' split
  all_goals simp

@[simp] theorem lastRead_shape (s : State) (survey index : Nat) (left : List (Nat × Nat)) (done : List ChainResult) (best : Option LastPage) (marks : List IndexMark)
    (page : Option (Trailer × List Byte)) (before : Option (Nat × Nat)) :
    (s.lastRead survey index left done best marks page before).slots.length = s.slots.length ∧
    (s.lastRead survey index left done best marks page before).pool.buffers.length = s.pool.buffers.length := by
  unfold State.lastRead
  split <;> simp

@[simp] theorem startLast_shape (s : State) (survey index : Nat) (left : List (Nat × Nat)) (done : List ChainResult) :
    (s.startLast survey index left done).slots.length = s.slots.length ∧
    (s.startLast survey index left done).pool.buffers.length = s.pool.buffers.length := by
  unfold State.startLast
  repeat' split
  all_goals simp

@[simp] theorem voidsKnown_shape (s : State) (survey index : Nat) (left : List (Nat × Nat)) (done : List ChainResult) (count : Nat) :
    (s.voidsKnown survey index left done count).slots.length = s.slots.length ∧
    (s.voidsKnown survey index left done count).pool.buffers.length = s.pool.buffers.length := by
  unfold State.voidsKnown
  repeat' split
  all_goals simp

@[simp] theorem pointKnown_shape (s : State) (survey index : Nat) (left : List (Nat × Nat)) (done : List ChainResult) (w : Nat) (probed : List (Nat × Bool)) :
    (s.pointKnown survey index left done w probed).slots.length = s.slots.length ∧
    (s.pointKnown survey index left done w probed).pool.buffers.length = s.pool.buffers.length := by
  unfold State.pointKnown
  dsimp only
  repeat' split
  all_goals simp

@[simp] theorem searchPoint_shape (s : State) (survey index : Nat) (left : List (Nat × Nat)) (done : List ChainResult) (low high : Nat) (probed : List (Nat × Bool)) :
    (s.searchPoint survey index left done low high probed).slots.length = s.slots.length ∧
    (s.searchPoint survey index left done low high probed).pool.buffers.length = s.pool.buffers.length := by
  unfold State.searchPoint
  split <;> simp

@[simp] theorem chainRead_shape (s : State) (survey index : Nat) (left : List (Nat × Nat)) (done : List ChainResult) (work : ChainWork) (r : PageResult) :
    (s.chainRead survey index left done work r).slots.length = s.slots.length ∧
    (s.chainRead survey index left done work r).pool.buffers.length = s.pool.buffers.length := by
  unfold State.chainRead
  dsimp only
  repeat' split
  all_goals simp

@[simp] theorem buildChains_shape (s : State) :
    s.buildChains.slots.length = s.slots.length ∧ s.buildChains.pool.buffers.length = s.pool.buffers.length := by
  unfold State.buildChains
  simp

@[simp] theorem nextHeader_shape (s : State) (g : Nat) :
    (s.nextHeader g).slots.length = s.slots.length ∧ (s.nextHeader g).pool.buffers.length = s.pool.buffers.length := by
  unfold State.nextHeader
  split <;> simp

@[simp] theorem endReplay_shape (s : State) (g writePoint nextSeq : Nat) :
    (s.endReplay g writePoint nextSeq).slots.length = s.slots.length ∧
    (s.endReplay g writePoint nextSeq).pool.buffers.length = s.pool.buffers.length := by
  unfold State.endReplay
  simp

@[simp] theorem replayOn_shape (s : State) (g page expect : Nat) (passed : Option Bool) :
    (s.replayOn g page expect passed).slots.length = s.slots.length ∧
    (s.replayOn g page expect passed).pool.buffers.length = s.pool.buffers.length := by
  unfold State.replayOn
  split <;> simp

@[simp] theorem replayRead_shape (s : State) (g page expect : Nat) (passed : Option Bool) (r : PageResult) :
    (s.replayRead g page expect passed r).slots.length = s.slots.length ∧
    (s.replayRead g page expect passed r).pool.buffers.length = s.pool.buffers.length := by
  unfold State.replayRead
  repeat' split
  all_goals simp

@[simp] theorem endRestore_shape (s : State) (read : List (ChainResult × Descriptor)) (done : List ChainResult) :
    (s.endRestore read done).slots.length = s.slots.length ∧ (s.endRestore read done).pool.buffers.length = s.pool.buffers.length := by
  unfold State.endRestore
  simp

@[simp] theorem mountReadEnd_shape (s : State) (g p : Nat) (o : ReadOutcome) :
    (s.mountReadEnd g p o).slots.length = s.slots.length ∧ (s.mountReadEnd g p o).pool.buffers.length = s.pool.buffers.length := by
  unfold State.mountReadEnd
  dsimp only
  repeat' split
  all_goals simp

@[simp] theorem formatTables_shape (s : State) (n : Nat) :
    (s.formatTables n).slots.length = s.slots.length ∧ (s.formatTables n).pool.buffers.length = s.pool.buffers.length := by
  unfold State.formatTables
  simp

@[simp] theorem endRollover_shape (s : State) :
    s.endRollover.pool.buffers.length = s.pool.buffers.length := by
  unfold State.endRollover
  split <;> simp

@[simp] theorem formatLog_shape (s : State) :
    s.formatLog.slots.length = s.slots.length ∧ s.formatLog.pool.buffers.length = s.pool.buffers.length := by
  unfold State.formatLog
  simp

@[simp] theorem formatBegin_shape (s : State) (r : FormatRun) :
    (s.formatBegin r).slots.length = s.slots.length ∧ (s.formatBegin r).pool.buffers.length = s.pool.buffers.length := by
  unfold State.formatBegin
  simp

@[simp] theorem formatGate_shape (s : State) :
    s.formatGate.slots.length = s.slots.length ∧ s.formatGate.pool.buffers.length = s.pool.buffers.length := by
  unfold State.formatGate
  repeat' split
  all_goals simp

@[simp] theorem startFormat_shape (s : State) (n : Nat) :
    (s.startFormat n).slots.length = s.slots.length ∧ (s.startFormat n).pool.buffers.length = s.pool.buffers.length := by
  unfold State.startFormat
  simp

@[simp] theorem formatEraseEnd_shape (s : State) (g : Nat) (ok : Bool) :
    (s.formatEraseEnd g ok).slots.length = s.slots.length ∧ (s.formatEraseEnd g ok).pool.buffers.length = s.pool.buffers.length := by
  unfold State.formatEraseEnd
  dsimp only
  repeat' split
  all_goals simp

@[simp] theorem makeIdleExpiry_shape (s : State) :
    s.makeIdleExpiry.slots.length = s.slots.length ∧ s.makeIdleExpiry.pool.buffers.length = s.pool.buffers.length := by
  unfold State.makeIdleExpiry
  simp

@[simp] theorem grantIndex_shape (s : State) (b : Nat) (w : IndexWaiter) :
    (s.grantIndex b w).slots.length = s.slots.length ∧ (s.grantIndex b w).pool.buffers.length = s.pool.buffers.length := by
  unfold State.grantIndex
  repeat' split
  all_goals simp

@[simp] theorem makeGrant_shape (s : State) :
    s.makeGrant.slots.length = s.slots.length ∧ s.makeGrant.pool.buffers.length = s.pool.buffers.length := by
  unfold State.makeGrant
  split <;> simp

@[simp] theorem retireEntry_shape (s : State) (b : Nat) :
    (s.retireEntry b).pool.buffers.length = s.pool.buffers.length := by
  unfold State.retireEntry
  simp

@[simp] theorem makeRetire_shape (s : State) :
    s.makeRetire.pool.buffers.length = s.pool.buffers.length := by
  unfold State.makeRetire
  split <;> simp

@[simp] theorem completeStop_shape (s : State) (i : Nat) :
    (s.completeStop i).slots.length = s.slots.length := by
  unfold State.completeStop
  split <;> simp

@[simp] theorem makeStopComplete_shape (s : State) :
    s.makeStopComplete.slots.length = s.slots.length := by
  unfold State.makeStopComplete
  split <;> simp

@[simp] theorem makeClosedEntry_shape (s : State) :
    s.makeClosedEntry.slots.length = s.slots.length ∧ s.makeClosedEntry.pool.buffers.length = s.pool.buffers.length := by
  unfold State.makeClosedEntry
  split <;> simp

@[simp] theorem makePowerDown_shape (s : State) :
    s.makePowerDown.slots.length = s.slots.length ∧ s.makePowerDown.pool.buffers.length = s.pool.buffers.length := by
  unfold State.makePowerDown
  simp

@[simp] theorem make_shape (s : State) (l : Due) :
    (s.make l).slots.length = s.slots.length ∧ (s.make l).pool.buffers.length = s.pool.buffers.length := by
  unfold State.make
  split <;> simp

@[simp] theorem makeFor_shape (s : State) (d : Due) (n : Nat) :
    (s.makeFor d n).slots.length = s.slots.length ∧ (s.makeFor d n).pool.buffers.length = s.pool.buffers.length := by
  induction n generalizing s with
  | zero => simp [State.makeFor]
  | succ n ih =>
    unfold State.makeFor
    split
    · split
      · rename_i e _
        split
        · simp
        · have h := ih ((s.make e).holdIdle)
          simpa using h
      · simp
    · simp

@[simp] theorem makeIfDue_shape (s : State) (d : Due) :
    (s.makeIfDue d).slots.length = s.slots.length ∧ (s.makeIfDue d).pool.buffers.length = s.pool.buffers.length := by
  unfold State.makeIfDue
  simp

@[simp] theorem settleFor_shape (s : State) (l : Nat) :
    (s.settleFor l).slots.length = s.slots.length ∧ (s.settleFor l).pool.buffers.length = s.pool.buffers.length := by
  induction l generalizing s with
  | zero => simp [State.settleFor]
  | succ a ih =>
    unfold State.settleFor
    split <;> simp [ih]

@[simp] theorem settle_shape (s : State) :
    s.settle.slots.length = s.slots.length ∧ s.settle.pool.buffers.length = s.pool.buffers.length := by
  unfold State.settle
  simp

@[simp] theorem unknown_shape (s : State) :
    s.unknown.slots.length = s.slots.length ∧ s.unknown.pool.buffers.length = s.pool.buffers.length := by
  unfold State.unknown
  simp

@[simp] theorem streamStart_shape (s : State) (f : Frame) (level : Nat) :
    (s.streamStart f level).slots.length = s.slots.length := by
  unfold State.streamStart
  dsimp only
  repeat' split
  all_goals simp

@[simp] theorem pauseSlot_shape (s : State) (i : Nat) :
    (s.pauseSlot i).slots.length = s.slots.length ∧ (s.pauseSlot i).pool.buffers.length = s.pool.buffers.length := by
  unfold State.pauseSlot
  simp

@[simp] theorem streamPause_shape (s : State) (f : Frame) (level : Nat) :
    (s.streamPause f level).slots.length = s.slots.length ∧ (s.streamPause f level).pool.buffers.length = s.pool.buffers.length := by
  unfold State.streamPause
  dsimp only
  repeat' split
  all_goals simp

@[simp] theorem streamStop_shape (s : State) (f : Frame) (level : Nat) :
    (s.streamStop f level).slots.length = s.slots.length ∧ (s.streamStop f level).pool.buffers.length = s.pool.buffers.length := by
  unfold State.streamStop
  dsimp only
  repeat' split
  all_goals simp

@[simp] theorem streamClear_shape (s : State) (f : Frame) (level : Nat) :
    (s.streamClear f level).slots.length = s.slots.length := by
  unfold State.streamClear
  dsimp only
  repeat' split
  all_goals simp

@[simp] theorem streamLoad_shape (s : State) (f : Frame) (level : Nat) :
    (s.streamLoad f level).slots.length = s.slots.length ∧ (s.streamLoad f level).pool.buffers.length = s.pool.buffers.length := by
  unfold State.streamLoad
  dsimp only
  repeat' split
  all_goals simp

@[simp] theorem surveyOpen_shape (s : State) (f : Frame) (level : Nat) :
    (s.surveyOpen f level).slots.length = s.slots.length ∧ (s.surveyOpen f level).pool.buffers.length = s.pool.buffers.length := by
  unfold State.surveyOpen
  split <;> simp

@[simp] theorem surveyClose_shape (s : State) (f : Frame) (level : Nat) :
    (s.surveyClose f level).slots.length = s.slots.length ∧ (s.surveyClose f level).pool.buffers.length = s.pool.buffers.length := by
  unfold State.surveyClose
  repeat' split
  all_goals simp

@[simp] theorem surveyThresholds_shape (s : State) (f : Frame) (level : Nat) :
    (s.surveyThresholds f level).slots.length = s.slots.length ∧ (s.surveyThresholds f level).pool.buffers.length = s.pool.buffers.length := by
  unfold State.surveyThresholds
  dsimp only
  repeat' split
  all_goals simp

@[simp] theorem surveyLock_shape (s : State) (f : Frame) (level : Nat) :
    (s.surveyLock f level).slots.length = s.slots.length ∧ (s.surveyLock f level).pool.buffers.length = s.pool.buffers.length := by
  unfold State.surveyLock
  repeat' split
  all_goals simp

@[simp] theorem surveyErase_shape (s : State) (f : Frame) (level : Nat) :
    (s.surveyErase f level).slots.length = s.slots.length ∧ (s.surveyErase f level).pool.buffers.length = s.pool.buffers.length := by
  unfold State.surveyErase
  repeat' split
  all_goals simp

@[simp] theorem readRecords_shape (s : State) (f : Frame) (level : Nat) :
    (s.readRecords f level).slots.length = s.slots.length ∧ (s.readRecords f level).pool.buffers.length = s.pool.buffers.length := by
  unfold State.readRecords
  dsimp only
  repeat' split
  all_goals simp

@[simp] theorem setStored_shape (s : State) (f : Frame) (level : Nat) (named : List (Option Nat)) :
    (s.setStored f level named).slots.length = s.slots.length ∧ (s.setStored f level named).pool.buffers.length = s.pool.buffers.length := by
  unfold State.setStored
  dsimp only
  repeat' split
  all_goals simp

@[simp] theorem setLevels_shape (s : State) (f : Frame) (level : Nat) :
    (s.setLevels f level).slots.length = s.slots.length ∧ (s.setLevels f level).pool.buffers.length = s.pool.buffers.length := by
  unfold State.setLevels
  repeat' split
  all_goals simp

@[simp] theorem setShock_shape (s : State) (f : Frame) (level : Nat) :
    (s.setShock f level).slots.length = s.slots.length ∧ (s.setShock f level).pool.buffers.length = s.pool.buffers.length := by
  unfold State.setShock
  repeat' split
  all_goals simp

@[simp] theorem setGauge_shape (s : State) (f : Frame) (level : Nat) :
    (s.setGauge f level).slots.length = s.slots.length ∧ (s.setGauge f level).pool.buffers.length = s.pool.buffers.length := by
  unfold State.setGauge
  repeat' split
  all_goals simp

@[simp] theorem doze_shape (s : State) (f : Frame) (level : Nat) :
    (s.doze f level).slots.length = s.slots.length ∧ (s.doze f level).pool.buffers.length = s.pool.buffers.length := by
  unfold State.doze
  split <;> simp

@[simp] theorem format_shape (s : State) (f : Frame) (level : Nat) :
    (s.format f level).slots.length = s.slots.length ∧ (s.format f level).pool.buffers.length = s.pool.buffers.length := by
  unfold State.format
  repeat' split
  all_goals simp

@[simp] theorem processFrame_shape (s : State) (i : Nat) (d : Descriptor) (f : Frame) :
    (s.processFrame i d f).slots.length = s.slots.length ∧ (s.processFrame i d f).pool.buffers.length = s.pool.buffers.length := by
  unfold State.processFrame
  simp

@[simp] theorem admitOrLose_shape (s : State) (i : Nat) (f : Frame) :
    (s.admitOrLose i f).slots.length = s.slots.length ∧ (s.admitOrLose i f).pool.buffers.length = s.pool.buffers.length := by
  unfold State.admitOrLose
  dsimp only
  repeat' split
  all_goals simp

@[simp] theorem sequenceFrame_shape (s : State) (i : Nat) (f : Frame) :
    (s.sequenceFrame i f).slots.length = s.slots.length ∧ (s.sequenceFrame i f).pool.buffers.length = s.pool.buffers.length := by
  unfold State.sequenceFrame
  split <;> simp

@[simp] theorem capture_shape (s : State) (f : Frame) :
    (s.capture f).slots.length = s.slots.length ∧ (s.capture f).pool.buffers.length = s.pool.buffers.length := by
  unfold State.capture
  repeat' split
  all_goals simp

@[simp] theorem takeSample_shape (s : State) :
    s.takeSample.slots.length = s.slots.length ∧ s.takeSample.pool.buffers.length = s.pool.buffers.length := by
  unfold State.takeSample
  repeat' split
  all_goals simp

@[simp] theorem idle_shape (s : State) :
    s.idle.slots.length = s.slots.length ∧ s.idle.pool.buffers.length = s.pool.buffers.length := by
  unfold State.idle
  split <;> simp

@[simp] theorem shockEnd_shape (s : State) (ax ay az vhold : Code) :
    (s.shockEnd ax ay az vhold).slots.length = s.slots.length ∧ (s.shockEnd ax ay az vhold).pool.buffers.length = s.pool.buffers.length := by
  unfold State.shockEnd
  split <;> simp

@[simp] theorem gaugeEnd_shape (s : State) (vhold vpack ipack tpack zeroRef fullRef : Code) :
    (s.gaugeEnd vhold vpack ipack tpack zeroRef fullRef).slots.length = s.slots.length ∧
    (s.gaugeEnd vhold vpack ipack tpack zeroRef fullRef).pool.buffers.length = s.pool.buffers.length := by
  unfold State.gaugeEnd
  repeat' split
  all_goals simp

@[simp] theorem wakeEnd_shape (s : State) :
    s.wakeEnd.slots.length = s.slots.length ∧ s.wakeEnd.pool.buffers.length = s.pool.buffers.length := by
  unfold State.wakeEnd
  split <;> simp

@[simp] theorem afterOp_shape (s : State) :
    s.afterOp.slots.length = s.slots.length ∧ s.afterOp.pool.buffers.length = s.pool.buffers.length := by
  unfold State.afterOp
  simp

@[simp] theorem dataEnd_shape (s : State) (b g p : Nat) (ok : Bool) :
    (s.dataEnd b g p ok).slots.length = s.slots.length ∧ (s.dataEnd b g p ok).pool.buffers.length = s.pool.buffers.length := by
  unfold State.dataEnd
  dsimp only
  repeat' split
  all_goals simp

@[simp] theorem verifyMatch_shape (s : State) (e : Entry) :
    (s.verifyMatch e).pool.buffers.length = s.pool.buffers.length := by
  unfold State.verifyMatch
  simp

@[simp] theorem verifyEnd_shape (s : State) (b g p : Nat) (o : ReadOutcome) :
    (s.verifyEnd b g p o).slots.length = s.slots.length ∧ (s.verifyEnd b g p o).pool.buffers.length = s.pool.buffers.length := by
  unfold State.verifyEnd
  dsimp only
  repeat' split
  all_goals simp

@[simp] theorem endDataProgram_shape (s : State) (ok : Bool) :
    (s.endDataProgram ok).slots.length = s.slots.length ∧ (s.endDataProgram ok).pool.buffers.length = s.pool.buffers.length := by
  unfold State.endDataProgram
  split <;> simp

@[simp] theorem endHeaderProgram_shape (s : State) (ok : Bool) :
    (s.endHeaderProgram ok).slots.length = s.slots.length ∧ (s.endHeaderProgram ok).pool.buffers.length = s.pool.buffers.length := by
  unfold State.endHeaderProgram
  split <;> simp

@[simp] theorem endSegmentErase_shape (s : State) (ok : Bool) :
    (s.endSegmentErase ok).slots.length = s.slots.length ∧ (s.endSegmentErase ok).pool.buffers.length = s.pool.buffers.length := by
  unfold State.endSegmentErase
  split <;> simp

@[simp] theorem endFormatErase_shape (s : State) (ok : Bool) :
    (s.endFormatErase ok).slots.length = s.slots.length ∧ (s.endFormatErase ok).pool.buffers.length = s.pool.buffers.length := by
  unfold State.endFormatErase
  split <;> simp

@[simp] theorem endIndexEntry_shape (s : State) (ok : Bool) :
    (s.endIndexEntry ok).slots.length = s.slots.length ∧ (s.endIndexEntry ok).pool.buffers.length = s.pool.buffers.length := by
  unfold State.endIndexEntry
  split <;> simp

@[simp] theorem endIndexErase_shape (s : State) (ok : Bool) :
    (s.endIndexErase ok).slots.length = s.slots.length ∧ (s.endIndexErase ok).pool.buffers.length = s.pool.buffers.length := by
  unfold State.endIndexErase
  split <;> simp

@[simp] theorem endSnapshot_shape (s : State) (ok : Bool) :
    (s.endSnapshot ok).slots.length = s.slots.length ∧ (s.endSnapshot ok).pool.buffers.length = s.pool.buffers.length := by
  unfold State.endSnapshot
  split <;> simp

@[simp] theorem endVerification_shape (s : State) (r : ReadOutcome) :
    (s.endVerification r).slots.length = s.slots.length ∧ (s.endVerification r).pool.buffers.length = s.pool.buffers.length := by
  unfold State.endVerification
  split <;> simp

@[simp] theorem endEngineRead_shape (s : State) (r : ReadOutcome) :
    (s.endEngineRead r).slots.length = s.slots.length ∧ (s.endEngineRead r).pool.buffers.length = s.pool.buffers.length := by
  unfold State.endEngineRead
  split <;> simp

@[simp] theorem endMountRead_shape (s : State) (r : ReadOutcome) :
    (s.endMountRead r).slots.length = s.slots.length ∧ (s.endMountRead r).pool.buffers.length = s.pool.buffers.length := by
  unfold State.endMountRead
  split <;> simp

@[simp] theorem timeout_shape (s : State) :
    s.timeout.slots.length = s.slots.length ∧ s.timeout.pool.buffers.length = s.pool.buffers.length := by
  unfold State.timeout
  split <;> simp

/-! ### The rows of the table -/

/-- Every command's own rule keeps both lengths. -/
@[simp] theorem rule_shape (o : Opcode) (s : State) (f : Frame) (level : Nat) :
    (o.rule s f level).slots.length = s.slots.length ∧ (o.rule s f level).pool.buffers.length = s.pool.buffers.length := by
  cases o <;> simp [Opcode.rule]

section
variable {body : State → Frame → Nat → State}
  (hb : ∀ s f level, (body s f level).slots.length = s.slots.length ∧ (body s f level).pool.buffers.length = s.pool.buffers.length)
include hb

theorem takeFrame_shape (s : State) (o : Opcode) (f : Frame) : (s.takeFrame o f body).slots.length = s.slots.length ∧
    (s.takeFrame o f body).pool.buffers.length = s.pool.buffers.length := by
  unfold State.takeFrame
  split <;> simp [hb]

theorem takeHead_shape (s : State) (o : Opcode) : (s.takeHead o body).slots.length = s.slots.length ∧
    (s.takeHead o body).pool.buffers.length = s.pool.buffers.length := by
  unfold State.takeHead
  repeat' split
  all_goals simp [takeFrame_shape hb]

/-- A control command's row keeps both lengths where the rule it hands the frame to keeps them. -/
theorem command_shape (s : State) (o : Opcode) : (s.command o body).slots.length = s.slots.length ∧
    (s.command o body).pool.buffers.length = s.pool.buffers.length := by
  unfold State.command
  simp [takeHead_shape hb]

end

@[simp] theorem takeAny_shape (s : State) :
    s.takeAny.slots.length = s.slots.length ∧ s.takeAny.pool.buffers.length = s.pool.buffers.length := by
  unfold State.takeAny
  repeat' split
  all_goals simp [takeHead_shape (rule_shape _)]

@[simp] theorem sendFrame_shape (s : State) :
    s.sendFrame.slots.length = s.slots.length ∧ s.sendFrame.pool.buffers.length = s.pool.buffers.length := by
  unfold State.sendFrame
  split <;> simp

/-- POWER_ON and RST_LINE put both tables at their reset values; every other row keeps their lengths. -/
theorem exec_shape (c : Instr) (s : State) : ∃ t, exec c s = .next t ∧
    ((t.slots = State.reset.slots ∧ t.pool = State.reset.pool) ∨
      (t.slots.length = s.slots.length ∧ t.pool.buffers.length = s.pool.buffers.length)) := by
  cases c
  case powerOn n => exact ⟨_, rfl, .inl ⟨rfl, rfl⟩⟩
  case rstLine => exact ⟨_, rfl, .inl ⟨rfl, rfl⟩⟩
  all_goals refine ⟨_, rfl, .inr ?_⟩
  all_goals simp [command_shape]

/-! ### The invariant -/

theorem shapeInv_of_lengths {s t : State} (h : t.slots.length = s.slots.length ∧ t.pool.buffers.length = s.pool.buffers.length)
    (hs : s.ShapeInv) : t.ShapeInv :=
  ⟨h.1.trans hs.1, h.2.trans hs.2⟩

/-- Settles O9: a row keeps both lengths or resets both tables, and with no command waiting both stay. -/
theorem stepKeepsShape : Obligations.StepKeepsShape := by
  unfold Obligations.StepKeepsShape
  intro s t hstep hs
  unfold step at hstep
  split at hstep
  · cases hstep
    exact shapeInv_of_lengths (idle_shape s) hs
  · rename_i c rest _
    obtain ⟨u, hu, ⟨hslots, hpool⟩ | hkept⟩ := exec_shape c { s with pending := rest }
    · cases hu.symm.trans hstep
      exact ⟨by rw [hslots]; rfl, by rw [hpool]; rfl⟩
    · cases hu.symm.trans hstep
      exact shapeInv_of_lengths hkept hs

/-- Settles O10, invariant by invariant at the reset values. -/
theorem resetIsSafe : Obligations.ResetIsSafe := by
  unfold Obligations.ResetIsSafe
  have hport : State.reset.PortInv := ⟨rfl, by decide, fun h => nomatch h⟩
  have hclock : State.reset.ClockInv := ⟨by decide, by decide, by decide⟩
  have hlimit : State.reset.LimitInv := ⟨rfl, by decide⟩
  exact ⟨hport, hclock, hlimit, rfl, ⟨rfl, rfl⟩, ⟨rfl, rfl⟩⟩

end Sys2Proof.Machine
end

