-- ==== Sys2Proof/Proofs/Ticks.lean ====
section
/-! PROOFS. TICK_BOUNDARY: the clock, the counts, the sampler and the idle timer (R51, R120, R124, R164, R166, R168). -/

open Sys2Proof Sys2Proof.Machine

namespace Sys2Proof.Machine

/-! ### The clock and its alarm (R164, R166) -/

/-- The clock after a tick boundary. -/
def Clock.ticked (c : Clock) : Clock :=
  if c.ticks < 1023 then { c with prescaler := 0, ticks := c.ticks + 1 }
  else { c with prescaler := 0, ticks := 0, seconds := (c.seconds + 1) % 4294967296 }

/-- Whether the alarm falls due at a tick boundary: the comparison is made where the seconds counter rises. -/
def State.alarmTicked (s : State) : Bool :=
  if s.clock.ticks < 1023 then s.power.alarmDue
  else s.power.state != .off && s.clock.nextReport == some ((s.clock.seconds + 1) % 4294967296)

theorem tickClock_eq (s : State) : State.tickClock { s with clock := { s.clock with prescaler := 0 } } =
    { s with clock := s.clock.ticked, power := { s.power with alarmDue := s.alarmTicked } } := by
  unfold State.tickClock Clock.ticked State.alarmTicked
  by_cases h : s.clock.ticks < 1023
  · simp [h, Nat.succ_le_of_lt h]
  · simp [h, wrap32]

/-! ### The idle timer (R168) -/

/-- The idle timer after a tick boundary. -/
def State.timerTicked (s : State) : Nat := if s.idleHeld then 0 else min 3686400 (s.power.idleTimer + 1)

/-- Whether the idle timer expires at a tick boundary. -/
def State.idleTicked (s : State) : Bool :=
  if s.idleHeld then s.power.idleDue
  else decide (0 < s.gauge.settings.idleToDoze) && decide (s.gauge.settings.idleToDoze * 1024 ≤ s.timerTicked)

theorem tickIdle_eq (s : State) :
    s.tickIdle = { s with power := { s.power with idleTimer := s.timerTicked, idleDue := s.idleTicked } } := by
  unfold State.tickIdle State.idleTicked State.timerTicked
  cases h : s.idleHeld <;> simp

/-! ### The boundary (R164) -/

/-- A tick boundary, block by block. -/
theorem tick_eq (s : State) : s.tick = { s with
    clock := s.clock.ticked
    queue := s.queue.map (fun e => { e with retire := min 8 (e.retire + 1) })
    sampler := s.sampler.tick s.power.state
    monitor := { s.monitor with watchCount := min 8 (s.monitor.watchCount + 1) }
    power := { s.power with alarmDue := s.alarmTicked, idleTimer := s.timerTicked, idleDue := s.idleTicked } } := by
  unfold State.tick
  dsimp only
  rw [tickClock_eq, tickIdle_eq]
  rfl

theorem samplerTick_active (m : Sampler) :
    m.tick .active = { m with interval := min 65535 (m.interval + 1), countdown := m.countdown - 1, shockDue := true } := rfl

theorem samplerTick_off (m : Sampler) : m.tick .off = { m with interval := min 65535 (m.interval + 1) } := rfl

/-- In DOZE the divider rises, and at its fourth boundary returns to 0 with a shock trigger due (R120). -/
theorem samplerTick_doze (m : Sampler) : m.tick .doze =
    if m.divider < 3 then
      { m with interval := min 65535 (m.interval + 1), countdown := m.countdown - 1, divider := m.divider + 1 }
    else { m with interval := min 65535 (m.interval + 1), countdown := m.countdown - 1, divider := 0, shockDue := true } := by
  unfold Sampler.tick
  by_cases h : m.divider < 3
  · simp [h, show ¬ 4 ≤ m.divider + 1 by omega]
  · simp [h, show 4 ≤ m.divider + 1 by omega]

/-- Settles O55, block by block. -/
theorem tickBoundary : Obligations.TickBoundary := by
  unfold Obligations.TickBoundary
  intro s hs
  refine ⟨s.tick, ?_, ?_⟩
  · show Host.Outcome.next (s.settle.tick.holdIdle) = _
    rw [settle_of_settled hs]
  rw [tick_eq]
  refine ⟨rfl, fun ht => ?_, fun ht => ?_, fun hp => ?_, fun hp hd => ?_, fun hp hd => ?_, fun hp => ?_, fun hi => ?_, fun hi => ?_⟩
  · simp [Clock.ticked, State.alarmTicked, ht]
  · simp [Clock.ticked, State.alarmTicked, Nat.not_lt.mpr ht]
  · dsimp only; rw [hp, samplerTick_active]
  · dsimp only; rw [hp, samplerTick_doze, if_pos hd]
  · dsimp only; rw [hp, samplerTick_doze, if_neg (by omega)]
  · dsimp only; rw [hp, samplerTick_off]
  · simp [State.timerTicked, State.idleTicked, hi]
  · simp [State.timerTicked, State.idleTicked, hi]

end Sys2Proof.Machine
end

