-- ==== Sys2Proof/Proofs/DataPages.lean ====
section
/-! PROOFS. The ends of a data page program and of a verification read at the Commit Queue (R50, R52 to R54, R75, R76, R83, R140). -/

open Sys2Proof Sys2Proof.Machine

namespace Sys2Proof.Machine

/-! ### A page counted void (R75, R76) -/

/-- What counting a page void leaves of the Media Controller, segment by segment. -/
theorem countVoid_media (s : State) (g : Nat) : (s.countVoid g).media.op = s.media.op ∧
    (∀ h, h ≠ g → (s.countVoid g).media.segs[h]? = s.media.segs[h]?) ∧
    ∀ x c, s.media.segs[g]? = some x → x.chain = some c → (s.countVoid g).media.segs[g]? = some { x with
      chain := some { c with voids := min 255 (c.voids + 1) }
      state := if 1 ≤ c.voids then .bad else x.state } := by
  obtain ⟨tx, heq, hother, hself⟩ := countVoid_eq s g
  have hop := congrArg (fun u : State => u.media.op) heq
  exact ⟨hop, hother, hself⟩

/-- A program's end leaves the port idle and the Segment Table as it was (R70). -/
theorem endProgram_media (s : State) (g p : Nat) (ok : Bool) :
    (s.endProgram g p ok).media.op = none ∧ (s.endProgram g p ok).media.segs = s.media.segs := by
  obtain ⟨fl, n, heq⟩ := endProgram_eq s g p ok
  rw [heq]
  exact ⟨rfl, rfl⟩

/-! ### The program's end (R50, R52, R53, R75) -/

theorem exec_dataPageProgramEnd {s : State} {b g p : Nat} {e : Entry} (hs : s.Settled) (he : s.entryAt b = some e)
    (hop : s.media.op = some (.dataProgram b g p)) (ok : Bool) : exec (.dataPageProgramEnd ok) s =
      .next ((if ok then (s.endProgram g p ok).programOk e else (s.endProgram g p ok).programFail e g).afterOp).holdIdle := by
  show Host.Outcome.next ((s.settle.endDataProgram ok).holdIdle) = _
  have hat : (s.endProgram g p ok).entryAt b = some e := by simpa [State.entryAt] using he
  simp only [settle_of_settled hs, State.endDataProgram, hop, State.dataEnd, hat]

/-- Outside a drop's park the entry goes to HELD (R50). -/
theorem programOk_of_not_park {s : State} (e : Entry) (h : s.monitor.park = false) :
    s.programOk e = s.modEntry e.buffer (fun x => { x with retire := 0, state := .held }) := by
  simp [State.programOk, h]

/-- Under the park flag the entry goes to SUSPECT, its survey is flagged, and the drop counts it (R53, R140). -/
theorem programOk_of_park {s : State} (e : Entry) (h : s.monitor.park = true) : s.programOk e =
    ((s.modEntry e.buffer (fun x => { x with retire := 0, state := .suspect })).flagSuspect e.survey).countPages
      (fun c => { c with suspect := min 255 (c.suspect + 1) }) := by
  simp [State.programOk, h]

/-- A failed program's page counts void at its segment (R75). -/
theorem programFail_media (s : State) (e : Entry) (g : Nat) : (s.programFail e g).media = (s.countVoid g).media := by
  simp [State.programFail]

/-- A failed program sends its entry to the head of the queue and flags its survey (R52, R83). -/
theorem programFail_parts (s : State) (e : Entry) (g : Nat) :
    (s.programFail e g).queue = e.failed :: s.queue.filter (fun x => x.buffer != e.buffer) ∧
    (s.programFail e g).table = { s.table with surveys := s.table.surveys.map (fun v =>
      if v.number = e.survey then { v with hadVoid := true } else v) } := by
  simp [State.programFail, State.flagVoid]

/-! ### The verification read's end (R54, R76) -/

theorem exec_verificationReadEnd {s : State} {b g p : Nat} {e : Entry} (hs : s.Settled) (he : s.entryAt b = some e)
    (hop : s.media.op = some (.verifyRead b g p)) (r : ReadOutcome) : exec (.verificationReadEnd r) s =
      .next ((if s.endRead.verifies e g (judgePage s.media.generation (outcomeImage r s.media.flash g p)) then s.endRead.verifyMatch e
        else s.endRead.verifyMismatch e g).afterOp).holdIdle := by
  show Host.Outcome.next ((s.settle.endVerification r).holdIdle) = _
  have hat : s.endRead.entryAt b = some e := he
  simp only [settle_of_settled hs, State.endVerification, hop, State.verifyEnd, hat]

/-- The entries behind a buffer that no entry before it has. -/
theorem laterThan_append (b : Nat) (before after : List Entry) (e : Entry) (he : e.buffer = b) (hb : ∀ x ∈ before, x.buffer ≠ b) :
    laterThan b (before ++ e :: after) = after := by
  induction before with
  | nil => simp [laterThan, he]
  | cons x xs ih =>
    have hx : x.buffer ≠ b := hb x (by simp)
    have hxs : ∀ y ∈ xs, y.buffer ≠ b := fun y hy => hb y (by simp [hy])
    simp [laterThan, hx, ih hxs]

/-- The queue after a mismatch, with the followers written out (R54). -/
theorem requeue_eq (e : Entry) (queue : List Entry) : requeue e queue =
    e.failed :: (followersOf e queue).map Entry.followed ++
      queue.filter (fun x => decide (x.buffer ≠ e.buffer ∧ ∀ y ∈ followersOf e queue, y.buffer ≠ x.buffer)) := by
  unfold requeue
  dsimp only
  congr 1
  refine List.filter_congr fun x _ => ?_
  rw [Bool.eq_iff_iff]
  simp

/-- A mismatch counts the page void at its segment (R76). -/
theorem verifyMismatch_media (s : State) (e : Entry) (g : Nat) : (s.verifyMismatch e g).media = (s.countVoid g).media := by
  simp [State.verifyMismatch, State.countPages]

/-- What a mismatch leaves of the queue, the drop in progress and the Survey Table (R54, R83, R140). -/
theorem verifyMismatch_parts (s : State) (e : Entry) (g : Nat) :
    (s.verifyMismatch e g).queue = requeue e s.queue ∧
    (s.verifyMismatch e g).monitor = { s.monitor with drop := s.monitor.drop.map (fun d => { d with pages := { d.pages with
      bad := min 255 (d.pages.bad + 1), requeued := min 255 (d.pages.requeued + (followersOf e s.queue).length) } }) } ∧
    (s.verifyMismatch e g).table = { s.table with surveys := s.table.surveys.map (fun v =>
      if v.number = e.survey then { v with hadVoid := true } else v) } := by
  simp [State.verifyMismatch, State.countPages, State.modDrop, State.flagVoid]

/-- Settles O49: both outcomes of a program and both of a verification read, at the queue and at what they count. -/
theorem dataPageEnds : Obligations.DataPageEnds := by
  unfold Obligations.DataPageEnds
  intro s b g p e hs he failed
  have hb : e.buffer = b := buffer_of_entryAt he
  refine ⟨fun hop => ⟨?_, ?_⟩, fun r hop => ?_⟩
  · obtain ⟨hidle, -⟩ := endProgram_media s g p true
    refine ⟨_, exec_dataPageProgramEnd hs he hop true, ?_⟩
    have hpark : (s.endProgram g p true).monitor.park = s.monitor.park := by simp
    cases h : s.monitor.park with
    | false =>
      rw [if_pos rfl, programOk_of_not_park e (hpark.trans h)]
      simp [hidle, hb]
    | true =>
      rw [if_pos rfl, programOk_of_park e (hpark.trans h)]
      simp [hidle, hb, State.flagSuspect, State.countPages, State.modDrop]
  · obtain ⟨hidle, hsegs⟩ := endProgram_media s g p false
    obtain ⟨hop', hother, hself⟩ := countVoid_media (s.endProgram g p false) g
    obtain ⟨hqueue, htable⟩ := programFail_parts (s.endProgram g p false) e g
    rw [hsegs] at hother hself
    refine ⟨(s.endProgram g p false).programFail e g, exec_dataPageProgramEnd hs he hop false, ?_⟩
    rw [programFail_media, hqueue, htable]
    exact ⟨hop'.trans hidle, by simp [hb, failed, Entry.failed], by simp, hother, hself⟩
  · intro result matches_
    refine ⟨?_, ?_⟩
    · rintro ⟨t, data, x, c, hvalid, hdata, h1, h2, h3, h4, h5, h6, hx, hc, hseq⟩
      have hmatch : s.endRead.verifies e g result = true :=
        (verifies_iff ..).mpr ⟨t, data, c, hvalid, by simp [State.chainAt, State.segAt, hx, hc], by rw [hdata, hb]; rfl,
          h1, h2, h3, h4, h5, h6, hseq.symm⟩
      refine ⟨_, exec_verificationReadEnd hs he hop r, ?_⟩
      rw [if_pos hmatch]
      simp [State.verifyMatch, State.retireEntry, State.countPages, State.modDrop, hb]
    · intro hno before after hqueue hbefore followers
      have hmatch : ¬ s.endRead.verifies e g result = true := by
        rw [verifies_iff]
        rintro ⟨t, data, c, hvalid, hchain, hdata, h1, h2, h3, h4, h5, h6, hseq⟩
        obtain ⟨x, hx, hc⟩ := Option.bind_eq_some_iff.mp hchain
        exact hno ⟨t, data, x, c, hvalid, by rw [hdata, hb]; rfl, h1, h2, h3, h4, h5, h6, hx, hc, hseq.symm⟩
      have hfollowers : followersOf e s.queue = followers := by
        rw [followersOf, hb, hqueue, laterThan_append b before after e hb hbefore]
      obtain ⟨hop', hother, hself⟩ := countVoid_media s.endRead g
      obtain ⟨hq, hmonitor, htable⟩ := verifyMismatch_parts s.endRead e g
      refine ⟨s.endRead.verifyMismatch e g, ?_, ?_⟩
      · rw [exec_verificationReadEnd hs he hop r, if_neg hmatch]
      rw [verifyMismatch_media, hq, hmonitor, htable]
      refine ⟨hop', by simp, ?_, ?_, rfl, hother, hself⟩
      · rw [requeue_eq]
        simp only [endRead_queue, hfollowers, hb]
        rfl
      · simp [hfollowers]

end Sys2Proof.Machine
end

