-- ==== Sys2Proof/Proofs/Markers.lean ====
section
/-! PROOFS. Pending markers: the order in which they are written, their records and pages, and the requested close (R36, R40 to R42, R44,
R45, R47). -/

open Sys2Proof Sys2Proof.Machine

namespace Sys2Proof.Machine

/-! ### The order of writing (R40) -/

theorem filter_cons_append {α : Type} (p : α → Bool) (k : α) (l : List α) :
    (k :: l).filter p = (if p k then [k] else []) ++ l.filter p := by
  rw [List.filter_cons]
  split <;> rfl

/-- Whether a POWER marker was raised before the pending RESUME. -/
def Markers.powerFirst (m : Markers) : Bool := m.power.isSome && m.resume.any ResumeMarker.afterPower

theorem order_eq (m : Markers) : m.order =
    (if m.loss.isSome then [MarkerKind.loss] else []) ++ (if m.gap.isSome then [MarkerKind.gap] else [])
      ++ (if m.drop.isSome then [MarkerKind.drop] else [])
      ++ (if m.pause.isSome then [MarkerKind.pause] else [])
      ++ (if m.powerFirst then [MarkerKind.power] else [])
      ++ (if m.resume.isSome then [MarkerKind.resume] else [])
      ++ (if m.power.isSome && !m.powerFirst then [MarkerKind.power] else [])
      ++ (if m.stop.isSome then [MarkerKind.stop] else []) := by
  unfold Markers.order Markers.powerFirst
  cases m.resume <;> rfl

theorem powerFirst_iff (m : Markers) :
    m.powerFirst = true ↔ ∃ r, m.resume = some r ∧ m.power.isSome = true ∧ r.afterPower = true := by
  unfold Markers.powerFirst
  cases m.resume <;> simp

/-- Without a POWER marker raised before a pending RESUME, POWER follows RESUME. -/
theorem order_resume_first (m : Markers) (h : m.powerFirst = false) :
    m.order = [MarkerKind.loss, .gap, .drop, .pause, .resume, .power, .stop].filter m.pending := by
  rw [order_eq, h]
  simp only [filter_cons_append, Markers.pending, Bool.not_false, Bool.and_true, Bool.false_eq_true, if_false,
    List.filter_nil, List.append_nil, List.append_assoc]
  rfl

/-- A POWER marker raised before the pending RESUME is written immediately before it. -/
theorem order_power_first (m : Markers) (h : m.powerFirst = true) :
    m.order = [MarkerKind.loss, .gap, .drop, .pause, .power, .resume, .stop].filter m.pending := by
  obtain ⟨r, -, hp, -⟩ := (powerFirst_iff m).mp h
  rw [order_eq, h]
  simp only [filter_cons_append, Markers.pending, hp, Bool.not_true, Bool.and_false, Bool.false_eq_true, if_false,
    List.filter_nil, List.append_nil, List.append_assoc]
  rfl

/-- The marker written first leaves the rest in their order. -/
theorem order_without_head (m : Markers) (k : MarkerKind) (ks : List MarkerKind) (h : m.order = k :: ks) : (m.without k).order = ks := by
  obtain ⟨loss, gap, drop, pause, resume, power, stop⟩ := m
  cases loss with
  | some v => obtain ⟨rfl, rfl⟩ := List.cons.inj h; rfl
  | none =>
  cases gap with
  | some v => obtain ⟨rfl, rfl⟩ := List.cons.inj h; rfl
  | none =>
  cases drop with
  | some v => obtain ⟨rfl, rfl⟩ := List.cons.inj h; rfl
  | none =>
  cases pause with
  | some v => obtain ⟨rfl, rfl⟩ := List.cons.inj h; rfl
  | none =>
  cases resume with
  | some r =>
    obtain ⟨t, n, after⟩ := r
    cases power <;> cases after <;> obtain ⟨rfl, rfl⟩ := List.cons.inj h <;> rfl
  | none =>
  cases power with
  | some v => obtain ⟨rfl, rfl⟩ := List.cons.inj h; rfl
  | none =>
  cases stop with
  | some v => obtain ⟨rfl, rfl⟩ := List.cons.inj h; rfl
  | none => cases h

/-- No kind stands twice in the order. -/
theorem order_nodup (m : Markers) : m.order.Nodup := by
  cases h : m.powerFirst with
  | false => rw [order_resume_first m h]; exact List.Nodup.filter _ (by decide)
  | true => rw [order_power_first m h]; exact List.Nodup.filter _ (by decide)

/-- With no kind pending nothing is. -/
theorem eq_empty_of_order_nil (m : Markers) (h : m.order = []) : m = {} := by
  have hnone (k : MarkerKind) : ¬ m.pending k = true := fun hk => by
    have hmem := (mem_order m k).mpr hk
    rw [h] at hmem
    cases hmem
  obtain ⟨loss, gap, drop, pause, resume, power, stop⟩ := m
  have h1 := hnone .loss
  have h2 := hnone .gap
  have h3 := hnone .drop
  have h4 := hnone .pause
  have h5 := hnone .resume
  have h6 := hnone .power
  have h7 := hnone .stop
  simp only [Markers.pending, Bool.not_eq_true, Option.isSome_eq_false_iff, Option.isNone_iff_eq_none] at h1 h2 h3 h4 h5 h6 h7
  subst h1 h2 h3 h4 h5 h6 h7
  rfl

/-! ### A marker's record (R34, R36) -/

/-- Bytes hold a number up to their count of bits. -/
theorem leBytes_mod (k n : Nat) : leBytes k (n % 256 ^ k) = leBytes k n := by
  induction k generalizing n with
  | zero => rfl
  | succ k ih =>
    have hlow : (n % 256 ^ (k + 1)) % 256 = n % 256 := Nat.mod_mod_of_dvd _ (Dvd.intro_left _ (Nat.pow_succ ..).symm)
    have hhigh : n % 256 ^ (k + 1) / 256 = n / 256 % 256 ^ k := by
      rw [Nat.pow_succ, Nat.mul_comm, Nat.mod_mul_right_div_self]
    have hbyte : BitVec.ofNat 8 (n % 256 ^ (k + 1)) = BitVec.ofNat 8 n := BitVec.eq_of_toNat_eq hlow
    rw [leBytes, leBytes, hbyte, hhigh, ih]

theorem leVal_leBytes_mod (k n : Nat) : leVal (leBytes k n) = n % 256 ^ k := by
  rw [← leBytes_mod, leVal_leBytes _ _ (Nat.mod_lt _ (by positivity))]

theorem markerBytes_seq (kind count first seq : Nat) (t : Stamp) (d : Descriptor) :
    ((markerBytes kind count first seq t d).drop 4).take 4 = leBytes 4 seq := by
  simp [markerBytes, recordHeader, leBytes]

theorem markerBytes_congr (kind count first : Nat) {seq seq' : Nat} (t : Stamp) (d : Descriptor)
    (h : seq % 4294967296 = seq' % 4294967296) : markerBytes kind count first seq t d = markerBytes kind count first seq' t d := by
  have hseq : leBytes 4 seq = leBytes 4 seq' := by rw [← leBytes_mod 4 seq, ← leBytes_mod 4 seq']; exact congrArg _ h
  unfold markerBytes recordHeader
  rw [hseq]

/-- The record of a pending marker is a marker's record with the next record sequence. -/
theorem markerRecord_of_pending (s : State) (x : Slot) (d : Descriptor) (k : MarkerKind) (h : x.markers.pending k = true) :
    ∃ kind count first t, s.markerRecord x d k = markerBytes kind count first x.nextSeq t d := by
  cases k
  all_goals
    obtain ⟨v, hv⟩ := Option.isSome_iff_exists.mp h
    simp only [State.markerRecord, hv]
    exact ⟨_, _, _, _, rfl⟩

/-- The record reads of its slot the next record sequence, up to its 32 bits, and the markers. -/
theorem markerRecord_congr (s : State) (x y : Slot) (d : Descriptor) (k : MarkerKind) (hm : y.markers = x.markers)
    (hn : y.nextSeq % 4294967296 = x.nextSeq % 4294967296) : s.markerRecord y d k = s.markerRecord x d k := by
  unfold State.markerRecord
  dsimp only
  rw [hm]
  cases k
  all_goals
    dsimp only
    split
    · exact markerBytes_congr _ _ _ _ d hn
    · rfl

/-- The record of a DROP marker reads the Drop Monitor; the others read nothing of the state. -/
theorem markerRecord_of_monitor {s u : State} (h : u.monitor = s.monitor) (x : Slot) (d : Descriptor) (k : MarkerKind) :
    u.markerRecord x d k = s.markerRecord x d k := by
  unfold State.markerRecord State.markerDropKind State.markerDropKind.listed
  rw [h]

/-- A written marker of another kind leaves a pending marker, but for what a RESUME noted of POWER (R40). -/
theorem without_fields (m : Markers) (k : MarkerKind) :
    (m.without k).loss = (if k = .loss then none else m.loss) ∧ (m.without k).gap = (if k = .gap then none else m.gap) ∧
    (m.without k).drop = (if k = .drop then none else m.drop) ∧ (m.without k).pause = (if k = .pause then none else m.pause) ∧
    (m.without k).resume = (if k = .resume then none
      else if k = .power then m.resume.map (fun r => { r with afterPower := false }) else m.resume) ∧
    (m.without k).power = (if k = .power then none else m.power) ∧ (m.without k).stop = (if k = .stop then none else m.stop) := by
  cases k <;> simp [Markers.without]

/-- A written marker leaves the records of the others as they are. -/
theorem markerRecord_without (s : State) (x : Slot) (d : Descriptor) {j k : MarkerKind} (h : k ≠ j) :
    s.markerRecord { x with markers := x.markers.without k } d j = s.markerRecord x d j := by
  have hf := without_fields x.markers k
  unfold State.markerRecord
  cases j
  case resume =>
    simp only [hf, h, if_false]
    by_cases hk : k = .power
    · rw [if_pos hk]; cases x.markers.resume <;> rfl
    · rw [if_neg hk]
  all_goals simp only [hf, h, if_false]

/-- The records of a list of markers that are written one after another, the first with sequence `n` above the slot's next one (R36). -/
def State.records (s : State) (x : Slot) (d : Descriptor) (l : List MarkerKind) (n : Nat) : List Byte :=
  (l.zipIdx n).flatMap (fun e => s.markerRecord { x with nextSeq := x.nextSeq + e.2 } d e.1)

/-- After the first marker of a list, the rest is written from the next sequence on. -/
theorem records_cons (s u : State) (x y : Slot) (d : Descriptor) (k : MarkerKind) (ks : List MarkerKind) (hu : u.monitor = s.monitor)
    (hm : y.markers = x.markers.without k) (hn : y.nextSeq = (x.nextSeq + 1) % 4294967296) (hk : k ∉ ks) :
    s.records x d (k :: ks) 0 = s.markerRecord x d k ++ u.records y d ks 0 := by
  have hshift : (ks.zipIdx 1).flatMap (fun e => s.markerRecord { x with nextSeq := x.nextSeq + e.2 } d e.1) =
      (ks.zipIdx 0).flatMap (fun e => s.markerRecord { x with nextSeq := x.nextSeq + (e.2 + 1) } d e.1) := by
    rw [show ks.zipIdx 1 = (ks.zipIdx 0).map (fun e => (e.1, e.2 + 1)) from List.zipIdx_succ .., List.flatMap_map]
  have hrest : ∀ e ∈ ks.zipIdx 0, s.markerRecord { x with nextSeq := x.nextSeq + (e.2 + 1) } d e.1 =
      u.markerRecord { y with nextSeq := y.nextSeq + e.2 } d e.1 := by
    intro e he
    have hne : k ≠ e.1 := fun hc => hk (hc ▸ List.fst_mem_of_mem_zipIdx he)
    rw [markerRecord_of_monitor hu, ← markerRecord_without s _ d hne]
    exact (markerRecord_congr s _ _ d e.1 hm (by simp only [hn]; omega)).symm
  unfold State.records
  rw [List.zipIdx_cons, List.flatMap_cons, hshift, List.flatMap_congr hrest]
  rfl

/-! ### One marker written (R36, R41, R44) -/

theorem placeRecord_of_page (x : Slot) (p : FillPage) (hp : x.page = some p) : x.placeRecord = { x with
    nextSeq := (x.nextSeq + 1) % 4294967296
    page := some { p with firstSeq := if p.count = 0 then x.nextSeq else p.firstSeq, count := p.count + 1 } } := by
  simp [Slot.placeRecord, hp, wrap32]

/-- A slot's marker is written where its page has room. -/
theorem writeMarker_of_fits (s : State) (i : Nat) (k : MarkerKind) (d : Descriptor) (p : FillPage) (h : i < s.slots.length)
    (hd : (s.slotAt i).desc = some d) (hp : (s.slotAt i).page = some p) (hr : (s.slotAt i).openRec = none)
    (hfits : (s.bufferBytes p.buffer).length + 20 ≤ 4096) : s.writeMarker i k = ({ s with
      slots := s.slots.set i { (s.slotAt i).placeRecord with markers := (s.slotAt i).markers.without k }
      pool := { s.pool with
        buffers := s.pool.buffers.modify p.buffer (fun b => { b with bytes := b.bytes ++ s.markerRecord (s.slotAt i) d k }) } }, true) := by
  rw [writeMarker_of_room s s i k d p (makeRoom_of_fits s i 20 p hp hr hfits) hp hd, modSlot_eq_set _ _ _ (by simpa using h)]
  rfl

/-- A slot without a page writes its marker at the head of a new one. -/
theorem writeMarker_of_buffer (s : State) (i b : Nat) (k : MarkerKind) (d : Descriptor) (h : i < s.slots.length)
    (hd : (s.slotAt i).desc = some d) (hp : (s.slotAt i).page = none) (hb : s.freeBuffer = some b) : s.writeMarker i k = ({ s with
      slots := s.slots.set i { s.slotAt i with
        nextSeq := ((s.slotAt i).nextSeq + 1) % 4294967296
        markers := (s.slotAt i).markers.without k
        page := some { buffer := b, firstSeq := (s.slotAt i).nextSeq, count := 1 } }
      pool := { s.pool with buffers := s.pool.buffers.set b { state := .filling, bytes := s.markerRecord (s.slotAt i) d k } } }, true) := by
  have hlt : b < s.pool.buffers.length := (List.findIdx?_eq_some_iff_getElem.mp hb).1
  let u : State := { s with
    slots := s.slots.set i { s.slotAt i with page := some { buffer := b, firstSeq := 0, count := 0 } }
    pool := { s.pool with buffers := s.pool.buffers.set b { state := .filling, bytes := [] } } }
  have hroom : s.makeRoom i 20 = (u, true) := makeRoom_of_buffer s i 20 b h hp hb
  have hat : u.slotAt i = { s.slotAt i with page := some { buffer := b, firstSeq := 0, count := 0 } } := by
    simp [u, State.slotAt, h]
  rw [writeMarker_of_room s u i k d _ hroom (by rw [hat]) (by rw [hat]; exact hd), modSlot_eq_set _ _ _ (by simpa [u] using h),
    slotAt_modBuffer, hat, placeRecord_of_page _ _ rfl]
  simp only [u, State.modBuffer, modify_eq_set _ _ _ {} (show b < (s.pool.buffers.set b _).length by simpa using hlt), List.set_set,
    show ∀ x : Buffer, (s.pool.buffers.set b x).getD b {} = x from fun x => by simp [hlt], List.nil_append]
  rfl

/-- A marker that fits a page neither pushes it nor asks for room twice: a full page is pushed and the marker written after it. -/
theorem writeMarker_of_full (s : State) (i : Nat) (k : MarkerKind) (d : Descriptor) (p : FillPage) (h : i < s.slots.length)
    (hd : (s.slotAt i).desc = some d) (hp : (s.slotAt i).page = some p) (hr : (s.slotAt i).openRec = none)
    (hfull : 4096 < (s.bufferBytes p.buffer).length + 20) : s.writeMarker i k = (s.pushPage i).writeMarker i k := by
  unfold State.writeMarker
  rw [makeRoom_of_full s i 20 d p h hd hp hr hfull]

/-- Without a page and without a FREE buffer nothing is written (R42). -/
theorem writeMarker_of_no_buffer (s : State) (i : Nat) (k : MarkerKind) (hp : (s.slotAt i).page = none) (hb : s.freeBuffer = none) :
    s.writeMarker i k = (s, false) := by
  simp [State.writeMarker, makeRoom_of_no_buffer s i 20 hp hb]

/-- What writing a marker goes through, where it succeeds: room in a page, and then the record (R41). -/
theorem writeMarker_written {s u : State} {i : Nat} {k : MarkerKind} (hw : s.writeMarker i k = (u, true)) :
    ∃ v p d, s.makeRoom i 20 = (v, true) ∧ (v.slotAt i).desc = some d ∧
      u = (v.modBuffer p (fun b => { b with bytes := b.bytes ++ v.markerRecord (v.slotAt i) d k })).modSlot i
        (fun x => { x.placeRecord with markers := x.markers.without k }) := by
  unfold State.writeMarker at hw
  dsimp only at hw
  split at hw
  · rename_i p d hroom hp hd
    exact ⟨_, p.buffer, d, Prod.ext rfl hroom, hd, (Prod.mk.inj hw).1.symm⟩
  · exact absurd (Prod.mk.inj hw).2 (by decide)

/-! ### The next record sequence (R36) -/

theorem nextSeq_closeOpen (s : State) (i : Nat) : (s.closeOpen i).slots.map Slot.nextSeq = s.slots.map Slot.nextSeq := by
  unfold State.closeOpen
  dsimp only
  split
  · exact view_modSlot _ _ _ fun _ => rfl
  · rfl

theorem nextSeq_pushPage (s : State) (i : Nat) : (s.pushPage i).slots.map Slot.nextSeq = s.slots.map Slot.nextSeq := by
  unfold State.pushPage
  dsimp only
  split
  · exact (view_modSlot _ _ _ (by intro; rfl)).trans (nextSeq_closeOpen s i)
  · exact nextSeq_closeOpen s i

/-- Making room takes no sequence. -/
theorem nextSeq_makeRoom (s : State) (i need : Nat) : (s.makeRoom i need).1.slots.map Slot.nextSeq = s.slots.map Slot.nextSeq := by
  have htake {v w : State} (h : v.takeBuffer i = some w) : w.slots.map Slot.nextSeq = v.slots.map Slot.nextSeq := by
    unfold State.takeBuffer at h
    split at h
    · cases h
      exact view_modSlot _ _ _ fun _ => rfl
    · cases h
  have hpush : (if (s.slotAt i).page.isSome && decide (4096 < s.pageUsed i + need) then s.pushPage i else s).slots.map Slot.nextSeq =
      s.slots.map Slot.nextSeq := by
    split
    · exact nextSeq_pushPage s i
    · rfl
  unfold State.makeRoom
  dsimp only
  generalize (if (s.slotAt i).page.isSome && decide (4096 < s.pageUsed i + need) then s.pushPage i else s) = v at hpush ⊢
  split
  · exact hpush
  · split
    · exact (htake ‹_›).trans hpush
    · exact hpush

/-- Writing a marker takes the next record sequence. -/
theorem nextSeq_writeMarker {s u : State} {i : Nat} {k : MarkerKind} (h : i < s.slots.length) (hw : s.writeMarker i k = (u, true)) :
    (u.slotAt i).nextSeq = ((s.slotAt i).nextSeq + 1) % 4294967296 := by
  obtain ⟨v, p, d, hroom, -, rfl⟩ := writeMarker_written hw
  have hmap := nextSeq_makeRoom s i 20
  rw [hroom] at hmap
  have hlen : v.slots.length = s.slots.length := by simpa using congrArg List.length hmap
  rw [slotAt_modSlot_same _ _ _ (by simpa [hlen] using h), slotAt_modBuffer, ← view_slotAt hmap i]
  rfl

/-! ### The markers of one write (R40 to R42) -/

/-- The slot after the markers of a list are written into page `p`. -/
def Slot.wrote (x : Slot) (p : FillPage) (l : List MarkerKind) : Slot :=
  { x with
    nextSeq := if l = [] then x.nextSeq else (x.nextSeq + l.length) % 4294967296
    markers := l.foldl Markers.without x.markers
    page := some (p.placed x.nextSeq l.length) }

theorem wrote_nil (x : Slot) (p : FillPage) (hp : x.page = some p) : x.wrote p [] = x := by
  simp [Slot.wrote, FillPage.placed, ← hp]

/-- Writing a list is writing its head and then its tail. -/
theorem wrote_cons (x : Slot) (p : FillPage) (k : MarkerKind) (ks : List MarkerKind) (hp : x.page = some p) :
    ({ x.placeRecord with markers := x.markers.without k } : Slot).wrote (p.placed x.nextSeq 1) ks = x.wrote p (k :: ks) := by
  rw [placeRecord_of_page x p hp]
  unfold Slot.wrote FillPage.placed
  cases ks with
  | nil => simp
  | cons j js => 
    simp
    omega

/-- A marker's record is 20 bytes (R35). -/
theorem markerRecord_length (s : State) (x : Slot) (d : Descriptor) (k : MarkerKind) (h : x.markers.pending k = true) :
    (s.markerRecord x d k).length = 20 := by
  obtain ⟨kind, count, first, t, heq⟩ := markerRecord_of_pending s x d k h
  rw [heq]
  simp [markerBytes, recordHeader, leBytes_length]

/-- Markers whose page has room for them all are written one after another in it. -/
theorem writeMarkerList_of_fits (i : Nat) (d : Descriptor) : ∀ (l : List MarkerKind) (s : State) (p : FillPage), l.Nodup →
    i < s.slots.length → p.buffer < s.pool.buffers.length → (s.slotAt i).desc = some d → (s.slotAt i).page = some p →
    (s.slotAt i).openRec = none → (s.bufferBytes p.buffer).length + 20 * l.length ≤ 4096 →
    s.writeMarkerList i l = ({ s with
      slots := s.slots.set i ((s.slotAt i).wrote p l)
      pool := { s.pool with
        buffers := s.pool.buffers.modify p.buffer (fun b => { b with bytes := b.bytes ++ s.records (s.slotAt i) d l 0 }) } }, true)
  | [], s, p, _, _, _, _, hp, _, _ => by
    have hid : s.pool.buffers.modify p.buffer (fun b => { b with bytes := b.bytes ++ s.records (s.slotAt i) d [] 0 }) =
        s.pool.buffers := by
      simp only [State.records, List.zipIdx_nil, List.flatMap_nil, List.append_nil]
      exact List.modify_id ..
    rw [wrote_nil _ p hp, set_slotAt, hid]
    rfl
  | k :: ks, s, p, hl, h, hb, hd, hp, hr, hfits => by
    rw [List.length_cons] at hfits
    let x := s.slotAt i
    let y : Slot := { x.placeRecord with markers := x.markers.without k }
    have hone := writeMarker_of_fits s i k d p h hd hp hr (by omega)
    let v : State := { s with
      slots := s.slots.set i y
      pool := { s.pool with
        buffers := s.pool.buffers.modify p.buffer (fun b => { b with bytes := b.bytes ++ s.markerRecord x d k }) } }
    change s.writeMarker i k = (v, true) at hone
    have hat : v.slotAt i = y := getD_set_same _ _ _ h
    have hpage : y.page = some (p.placed x.nextSeq 1) := by
      simp [y, placeRecord_of_page x p hp, FillPage.placed]
    have hbytes : (v.bufferBytes p.buffer).length ≤ (s.bufferBytes p.buffer).length + 20 := by
      have hle := markerRecord_length_le s x d k
      simp [v, State.bufferBytes, hb]
      omega
    have hrest := writeMarkerList_of_fits i d ks v (p.placed x.nextSeq 1) (List.nodup_cons.mp hl).2 (by simpa [v] using h)
      (by simpa [v, FillPage.placed] using hb) (by rw [hat]; exact hd) (by rw [hat]; exact hpage) (by rw [hat]; exact hr)
      (by show (v.bufferBytes p.buffer).length + _ ≤ _; omega)
    have hrecords := records_cons s v x y d k ks rfl rfl rfl (List.nodup_cons.mp hl).1
    have hslots : v.slots.set i (y.wrote (p.placed x.nextSeq 1) ks) = s.slots.set i (x.wrote p (k :: ks)) := by
      rw [wrote_cons x p k ks hp, List.set_set]
    have hbufs : v.pool.buffers.modify (p.placed x.nextSeq 1).buffer (fun b => { b with bytes := b.bytes ++ v.records y d ks 0 }) =
        s.pool.buffers.modify p.buffer (fun b => { b with bytes := b.bytes ++ s.records x d (k :: ks) 0 }) := by
      show (s.pool.buffers.modify p.buffer _).modify p.buffer _ = _
      rw [List.modify_modify_eq, hrecords]
      simp only [Function.comp_def, List.append_assoc]
    rw [State.writeMarkerList, hone]
    dsimp only
    rw [hrest, hat, hslots, hbufs]

/-- Every pending marker of a slot whose page has room for them all is written into it. -/
theorem writeMarkers_of_fits (s : State) (i : Nat) (d : Descriptor) (p : FillPage) (h : i < s.slots.length)
    (hb : p.buffer < s.pool.buffers.length) (hd : (s.slotAt i).desc = some d) (hp : (s.slotAt i).page = some p)
    (hr : (s.slotAt i).openRec = none)
    (hfits : (s.bufferBytes p.buffer).length + 20 * (s.slotAt i).markers.order.length ≤ 4096) :
    let order := (s.slotAt i).markers.order
    s.writeMarkers i = ({ s with
      slots := s.slots.set i ((s.slotAt i).wrote p order)
      pool := { s.pool with
        buffers := s.pool.buffers.modify p.buffer (fun b => { b with bytes := b.bytes ++ s.records (s.slotAt i) d order 0 }) } }, true) :=
  writeMarkerList_of_fits i d _ s p (order_nodup _) h hb hd hp hr hfits

/-- With the first pending marker written, the writing goes on with what is then pending (R42). -/
theorem writeMarkers_cons {s u : State} {i : Nat} {k : MarkerKind} {ks : List MarkerKind} (h : i < s.slots.length)
    (hr : (s.slotAt i).openRec = none) (ho : (s.slotAt i).markers.order = k :: ks) (hw : s.writeMarker i k = (u, true)) :
    s.writeMarkers i = u.writeMarkers i ∧ (u.slotAt i).markers = (s.slotAt i).markers.without k ∧ (u.slotAt i).markers.order = ks := by
  obtain ⟨v, p, d, hroom, hdesc, -⟩ := writeMarker_written hw
  have hsame : (v.slotAt i).desc = (s.slotAt i).desc := by
    have hview := view_makeRoom (v := Slot.desc) (fun _ _ _ _ _ => rfl) s i 20
    rw [hroom] at hview
    exact view_slotAt hview i
  obtain ⟨-, n, pg, hat⟩ := writeMarker_slot h (hsame ▸ hdesc) hr hw
  have hmarkers : (u.slotAt i).markers = (s.slotAt i).markers.without k := by rw [hat]
  have horder : (u.slotAt i).markers.order = ks := by rw [hmarkers, order_without_head _ k ks ho]
  refine ⟨?_, hmarkers, horder⟩
  rw [State.writeMarkers, ho, State.writeMarkerList, hw, State.writeMarkers, horder]

/-! ### The settled statement -/

/-- The two halves of the statement's first clause. -/
theorem order_cases (m : Markers) :
    ((∀ r, m.resume = some r → m.power.isSome = true → r.afterPower = false) →
      m.order = [MarkerKind.loss, .gap, .drop, .pause, .resume, .power, .stop].filter m.pending) ∧
    (∀ r, m.resume = some r → m.power.isSome = true → r.afterPower = true →
      m.order = [MarkerKind.loss, .gap, .drop, .pause, .power, .resume, .stop].filter m.pending) := by
  refine ⟨fun h => order_resume_first m ?_, fun r hr hp ha => order_power_first m ((powerFirst_iff m).mpr ⟨r, hr, hp, ha⟩)⟩
  rw [Bool.eq_false_iff, ne_eq, powerFirst_iff]
  rintro ⟨r, hr, hp, ha⟩
  rw [h r hr hp] at ha
  cases ha

/-- Settles O37, clause by clause: the order, what a raising notes, the sequence of a record, the markers of one write, and where each is
written. -/
theorem markerOrder : Obligations.MarkerOrder := by
  unfold Obligations.MarkerOrder
  refine ⟨fun m => ?_, fun x t r hnone hr => ?_, fun x t r => ?_, fun m r hr => ?_, fun s d x k hk => ?_,
    fun s u i k => nextSeq_writeMarker, fun s i d p h => ?_, fun s u i k ks h hr => ⟨fun hn => ?_, fun ho => ⟨fun hw => ?_, writeMarkers_cons h hr ho⟩⟩,
    fun s i d k h => ?_, fun s u i => ⟨fun hw => ?_, fun hw => ?_⟩⟩
  · have hpending : m.pending = (fun k => match k with
      | .loss => m.loss.isSome
      | .gap => m.gap.isSome
      | .drop => m.drop.isSome
      | .pause => m.pause.isSome
      | .resume => m.resume.isSome
      | .power => m.power.isSome
      | .stop => m.stop.isSome) := by
      funext k
      cases k <;> rfl
    have hcases := order_cases m
    rw [hpending] at hcases
    exact hcases
  · unfold Slot.raiseResume at hr
    split at hr
    · simp [hnone] at hr
      rw [← hr]
    · rw [hnone] at hr; cases hr
  · unfold Slot.raisePower
    split <;> rfl
  · obtain ⟨r', -, rfl⟩ := Option.map_eq_some_iff.mp hr
    rfl
  · have hpending := (mem_order x.markers k).mp (by simpa using hk)
    obtain ⟨kind, count, first, t, heq⟩ := markerRecord_of_pending s x d k hpending
    rw [heq, markerBytes_seq, leVal_leBytes_mod]
    rfl
  · intro x hd hp hr hb hfits
    refine ⟨_, writeMarkers_of_fits s i d p h hb hd hp hr hfits, ?_, ?_⟩
    · simp only [State.slotAt, getD_set_same _ _ _ h]
      exact order_written _
    · simp [State.bufferBytes, hb]
      rfl
  · rw [State.writeMarkers, hn]
    rfl
  · rw [State.writeMarkers, ho, State.writeMarkerList, hw]
  · intro x write taken hd hr
    refine ⟨fun p hp hfits => ?_, fun p hp hfull => writeMarker_of_full s i k d p h hd hp hr hfull,
      fun b hp hb => writeMarker_of_buffer s i b k d h hd hp hb, fun hp hb => writeMarker_of_no_buffer s i k hp hb⟩
    have hone := writeMarker_of_fits s i k d p h hd hp hr hfits
    rw [placeRecord_of_page _ p hp] at hone
    exact hone
  · rw [State.requestClose, hw]
    cases hp : (u.slotAt i).page <;> simp [hp]
  · rw [State.requestClose, hw]
    exact joinWaitList_eq u i

end Sys2Proof.Machine
end

