-- ==== Sys2Proof/Proofs/Rollover.lean ====
section
/-! PROOFS. The rollover of the Index Log: its candidates, its snapshot, and the ends of its operations (R47, R98, R99, R102, R103). -/

open Sys2Proof Sys2Proof.Machine

namespace Sys2Proof.Machine

/-! ### Candidates (R99) -/

/-- The candidates in the order in which they are tried. -/
def IndexLog.ring (l : IndexLog) : List Nat :=
  match l.current with
  | some g => [(g + 1) % 4, (g + 2) % 4, (g + 3) % 4]
  | none => [0, 1, 2, 3]

theorem candidate_eq (l : IndexLog) : l.candidate = l.ring.find? (fun c => !l.unusable.contains c) := rfl

/-- The first of a list that is usable, given by its place. -/
theorem find_usable_eq {order unusable : List Nat} {k c : Nat} (hk : order[k]? = some c) (hc : c ∉ unusable)
    (hbefore : ∀ j, j < k → ∀ b, order[j]? = some b → b ∈ unusable) :
    order.find? (fun c => !unusable.contains c) = some c := by
  obtain ⟨hlt, hget⟩ := List.getElem?_eq_some_iff.mp hk
  rw [List.find?_eq_some_iff_getElem]
  refine ⟨by simpa using hc, k, hlt, hget, fun j hj => ?_⟩
  simpa using hbefore j hj _ (List.getElem?_eq_getElem (by omega))

theorem find_usable_none {order unusable : List Nat} (h : ∀ c ∈ order, c ∈ unusable) :
    order.find? (fun c => !unusable.contains c) = none := by
  rw [List.find?_eq_none]
  intro c hc
  simpa using h c hc

theorem candidate_of_ring (l : IndexLog) (g k : Nat) (hg : l.current = some g) (h1 : 1 ≤ k) (h3 : k ≤ 3)
    (hk : (g + k) % 4 ∉ l.unusable) (hbefore : ∀ j, 1 ≤ j → j < k → (g + j) % 4 ∈ l.unusable) :
    l.candidate = some ((g + k) % 4) := by
  have hring : l.ring = [(g + 1) % 4, (g + 2) % 4, (g + 3) % 4] := by simp only [IndexLog.ring, hg]
  rw [candidate_eq, hring]
  refine find_usable_eq (k := k - 1) (by interval_cases k <;> rfl) hk fun j hj b hb => ?_
  have hplace : b = (g + (j + 1)) % 4 := by
    have hj3 : j < 2 := by omega
    interval_cases j <;> simpa using hb.symm
  rw [hplace]
  exact hbefore (j + 1) (by omega) (by omega)

theorem candidate_of_ring_none (l : IndexLog) (g : Nat) (hg : l.current = some g)
    (h : ∀ k, 1 ≤ k → k ≤ 3 → (g + k) % 4 ∈ l.unusable) : l.candidate = none := by
  have hring : l.ring = [(g + 1) % 4, (g + 2) % 4, (g + 3) % 4] := by simp only [IndexLog.ring, hg]
  rw [candidate_eq, hring]
  refine find_usable_none fun c hc => ?_
  simp only [List.mem_cons, List.not_mem_nil, or_false] at hc
  rcases hc with rfl | rfl | rfl
  · exact h 1 (by omega) (by omega)
  · exact h 2 (by omega) (by omega)
  · exact h 3 (by omega) (by omega)

theorem candidate_of_start (l : IndexLog) (k : Nat) (hg : l.current = none) (h3 : k ≤ 3) (hk : k ∉ l.unusable)
    (hbefore : ∀ j, j < k → j ∈ l.unusable) : l.candidate = some k := by
  have hring : l.ring = [0, 1, 2, 3] := by simp only [IndexLog.ring, hg]
  rw [candidate_eq, hring]
  refine find_usable_eq (k := k) (by interval_cases k <;> rfl) hk fun j hj b hb => ?_
  have hplace : b = j := by
    have hj3 : j < 3 := by omega
    interval_cases j <;> simpa using hb.symm
  rw [hplace]
  exact hbefore j hj

theorem candidate_of_start_none (l : IndexLog) (hg : l.current = none) (h : ∀ k, k ≤ 3 → k ∈ l.unusable) : l.candidate = none := by
  have hring : l.ring = [0, 1, 2, 3] := by simp only [IndexLog.ring, hg]
  rw [candidate_eq, hring]
  refine find_usable_none fun c hc => h c ?_
  simp only [List.mem_cons, List.not_mem_nil, or_false] at hc
  omega

/-! ### LOG-FAILED (R99, R102, R103) -/

/-- The log once an entry has left the head of its list. -/
theorem dropHead_log (s : State) (e : IndexEntry) (rest : List IndexEntry) (h : s.log.waiting = e :: rest) :
    s.dropHead.log = { s.log with waiting := rest, stage := .idle } := by
  obtain ⟨bs, iw, heq, -⟩ := dropHead_eq h
  rw [heq]

/-- Giving up every pending entry empties the list. -/
theorem giveUpList_log (left : Nat) : ∀ (l : List IndexEntry) (s : State), s.log.waiting = l →
    (s.giveUpList left l).log = { s.log with waiting := [], stage := if l = [] then s.log.stage else .idle }
  | [], s, h => by
    show s.log = { s.log with waiting := [], stage := s.log.stage }
    rw [← h]
  | e :: es, s, h => by
    have hlog : (s.dropHead.giveUp left e.body).log = { s.log with waiting := es, stage := .idle } := by
      simp [dropHead_log s e es h]
    unfold State.giveUpList
    rw [giveUpList_log left es _ (by rw [hlog]), hlog]
    simp

/-- The log after LOG-FAILED: no entry is pending, and no rollover is in progress. -/
theorem enterLogFailed_log (s : State) :
    s.enterLogFailed.log = { s.log with failed := true, rollover := .none, stage := .idle, waiting := [] } := by
  have hlog (v : State) (left : Nat) (h : v.log = { s.log with failed := true, rollover := .none, stage := .idle }) :
      (v.giveUpAll left).log = { s.log with failed := true, rollover := .none, stage := .idle, waiting := [] } := by
    unfold State.giveUpAll
    rw [giveUpList_log left _ v rfl, h]
    simp
  unfold State.enterLogFailed
  dsimp only
  split
  · simp only [completeOp_frame]
    exact hlog _ _ (by simp)
  · exact hlog _ _ (by simp)

/-- Whether a FORMAT makes its own rollover. -/
theorem formatRolls_iff (s : State) : s.formatRolls = true ↔ ∃ r, s.formatRun = some r ∧ r.stage = .rollover := by
  unfold State.formatRolls
  cases s.formatRun <;> simp

/-- LOG-FAILED ends the FORMAT whose own rollover it was, and no other. -/
theorem enterLogFailed_formatRun (s : State) :
    s.enterLogFailed.formatRun = if s.formatRolls then none else s.formatRun := by
  unfold State.enterLogFailed
  dsimp only
  split <;> simp

/-- LOG-FAILED with no entry pending: the notice, and the FORMAT's reply after it. -/
theorem enterLogFailed_of_no_entry (s : State) (h : s.log.waiting = []) :
    let u : State := { s with log := { s.log with failed := true, rollover := .none, stage := .idle } }
    s.enterLogFailed = if s.formatRolls then (State.raise { u with formatRun := none } (.media .indexFailed)).completeOp .media .none
      else State.raise u (.media .indexFailed) := by
  intro u
  have hgive (v : State) (left : Nat) (hv : v.log = u.log) :
      (v.raise (.media .indexFailed)).giveUpAll left = v.raise (.media .indexFailed) := by
    have hwaiting : (v.raise (.media .indexFailed)).log.waiting = [] := by simp [hv, u, h]
    unfold State.giveUpAll
    rw [hwaiting]
    rfl
  unfold State.enterLogFailed
  dsimp only
  cases s.formatRolls with
  | true => exact congrArg (fun v : State => v.completeOp .media .none) (hgive { u with formatRun := none } _ rfl)
  | false => exact hgive u _ rfl

/-! ### The next candidate and the snapshot (R98, R99) -/

theorem nextRollover_of_candidate {s : State} {d : Nat} (h : s.log.candidate = some d) :
    s.nextRollover = { s with log := { s.log with rollover := .erase d } } := by
  unfold State.nextRollover
  rw [h]

theorem nextRollover_of_none {s : State} (h : s.log.candidate = none) : s.nextRollover = s.enterLogFailed := by
  unfold State.nextRollover
  rw [h]

/-- The log with a candidate that failed. -/
def IndexLog.without (l : IndexLog) (c : Nat) : IndexLog :=
  { l with unusable := if c ∈ l.unusable then l.unusable else l.unusable ++ [c], rollover := .none }

theorem failCandidate_eq (s : State) (c : Nat) : s.failCandidate c = State.nextRollover { s with log := s.log.without c } := by
  unfold State.failCandidate IndexLog.without addUnusable
  congr 3
  simp

/-- The record of a survey in a snapshot, field by field (R98). -/
theorem snapshotRecord_eq (v : Survey) : v.snapshotRecord =
    { number := v.number, state := if v.state = .closing then .open else v.state, creator := v.creator,
      readThreshold := v.readThreshold, eraseThreshold := v.eraseThreshold, hadPowerLoss := v.hadPowerLoss,
      hadSuspect := v.hadSuspect, hadVoid := v.hadVoid, name := v.name, created := v.created,
      closed := if v.state = .closing then none else v.closed, dropCount := v.dropCount, lastDrop := v.lastDrop } := by
  unfold Survey.snapshotRecord Survey.record
  split <;> rfl

/-- With a FREE buffer the snapshot is composed in it at once. -/
theorem askSnapshot_of_free {s : State} {b : Nat} (c : Nat) (h : s.freeBuffer = some b) : s.askSnapshot c = s.grantSnapshot c b := by
  unfold State.askSnapshot
  rw [h]

theorem askSnapshot_of_none {s : State} (c : Nat) (h : s.freeBuffer = none) : s.askSnapshot c = { s with
    log := { s.log with rollover := .waitBuffer c }
    pool := { s.pool with indexWaiters := s.pool.indexWaiters ++ [.snapshot] } } := by
  unfold State.askSnapshot
  rw [h]

/-! ### The ends of the rollover's operations (R99, R103) -/

theorem exec_indexSegmentEraseEnd {s : State} {c : Nat} (hs : s.Settled) (hop : s.media.op = some (.indexErase c)) (ok : Bool) :
    exec (.indexSegmentEraseEnd ok) s = .next ((s.indexEraseEnd c ok).afterOp).holdIdle := by
  show Host.Outcome.next ((s.settle.endIndexErase ok).holdIdle) = _
  simp only [settle_of_settled hs, State.endIndexErase, hop]

theorem exec_snapshotProgramEnd {s : State} {c : Nat} (hs : s.Settled) (hop : s.media.op = some (.snapshotProgram c)) (ok : Bool) :
    exec (.snapshotProgramEnd ok) s = .next ((s.snapshotEnd c ok).afterOp).holdIdle := by
  show Host.Outcome.next ((s.settle.endSnapshot ok).holdIdle) = _
  simp only [settle_of_settled hs, State.endSnapshot, hop]

/-- The part after the snapshot's program, its buffer FREE. -/
def State.snapshotEnded (s : State) (c b : Nat) (ok : Bool) : State := (s.endProgram c 0 ok).releaseBuffer b

/-- A snapshot that is programmed makes its candidate the current segment. -/
theorem snapshotEnd_ok {s : State} {c b : Nat} (h : s.log.rollover = .program c b) : s.snapshotEnd c true =
    (let u : State := { s.snapshotEnded c b true with log := { s.log with
      current := some c, writePoint := 1, generation := s.log.generation + 1, forceRollover := false, rollover := .none } }
    if s.formatRolls then u.formatDone else u).pumpLog := by
  have hlog : (s.endProgram c 0 true).log = s.log := by simp
  have hrolls (u : State) (hu : u.formatRun = s.formatRun) : u.formatRolls = s.formatRolls := by
    unfold State.formatRolls
    rw [hu]
  unfold State.snapshotEnd
  simp only [hlog, h, if_true, releaseBuffer_log]
  rw [hrolls _ (by simp)]
  rfl

/-- A snapshot whose program fails makes its candidate unusable. -/
theorem snapshotEnd_failed {s : State} {c b : Nat} (h : s.log.rollover = .program c b) :
    s.snapshotEnd c false = (s.snapshotEnded c b false).failCandidate c := by
  have hlog : (s.endProgram c 0 false).log = s.log := by simp
  unfold State.snapshotEnd
  simp only [hlog, h]
  rfl

/-- The reply of a FORMAT whose rollover is made (R103). -/
theorem formatDone_of_slot {s : State} {o : OpSlot} (ho : s.slot = some o) (hsup : o.suppressed = false) :
    s.formatDone.formatRun = none ∧ s.formatDone.power = { s.power with unformatted := false } ∧ s.formatDone.slot = none ∧
    s.formatDone.port = { s.port with tx := s.port.tx ++ [.reply
      { port := o.port, tag := o.tag, level := o.level, status := .ok, kept := true,
        payload := .formatted s.segCount s.media.generation (s.countSegs .bad) s.log.unusable.length }] } := by
  have hdone : s.formatDone = State.completeOp { s with formatRun := none, power := { s.power with unformatted := false } } .ok
      (.formatted s.segCount s.media.generation (s.countSegs .bad) s.log.unusable.length) := rfl
  have hslot : ({ s with formatRun := none, power := { s.power with unformatted := false } } : State).slot = some o := ho
  rw [hdone, completeOp_of_slot _ o _ _ hslot, hsup]
  exact ⟨rfl, rfl, rfl, rfl⟩

/-- Settles O52, clause by clause: the two ends, the wait for a buffer, the ring of candidates, the snapshot's contents, and LOG-FAILED. -/
theorem rolloverEnds : Obligations.RolloverEnds := by
  unfold Obligations.RolloverEnds
  refine ⟨fun s c hs => ?_, fun s c hs hop hb => ?_, fun l => ⟨fun g hg => ⟨fun k => candidate_of_ring l g k hg, candidate_of_ring_none l g hg⟩,
    fun hg => ⟨fun k => candidate_of_start l k hg, candidate_of_start_none l hg⟩⟩, fun s => ?_, fun s h => ?_⟩
  · intro failed
    have hfailed : failed = s.log.without c := rfl
    have hcand {v : State} {d : Nat} (hv : v.log = s.log) (hd : failed.candidate = some d) :
        v.failCandidate c = { v with log := { failed with rollover := .erase d } } := by
      rw [failCandidate_eq, hv]
      exact nextRollover_of_candidate hd
    refine ⟨fun b hop hb => ?_, fun d hop hd => ?_, fun hop hd => ?_, fun b hop hr hf => ⟨?_, fun d hd => ?_⟩, fun b r o hop hr hf hst ho hsup => ?_⟩
    · refine ⟨s.indexEraseEnd c true, exec_indexSegmentEraseEnd hs hop true, ?_⟩
      have hask : s.indexEraseEnd c true = (s.endErase c true).grantSnapshot c b := askSnapshot_of_free c hb
      rw [hask]
      exact ⟨rfl, rfl⟩
    · refine ⟨s.indexEraseEnd c false, exec_indexSegmentEraseEnd hs hop false, ?_⟩
      have hnext : s.indexEraseEnd c false = (s.endErase c false).failCandidate c := rfl
      rw [hnext, hcand (by simp) hd]
      exact ⟨rfl, by simp⟩
    · refine ⟨s.indexEraseEnd c false, exec_indexSegmentEraseEnd hs hop false, ?_⟩
      have hnext : s.indexEraseEnd c false = State.enterLogFailed { s.endErase c false with log := failed } := by
        have hlog : (s.endErase c false).log = s.log := by simp
        show (s.endErase c false).failCandidate c = _
        rw [failCandidate_eq, hlog]
        exact nextRollover_of_none hd
      have hrolls : ({ s.endErase c false with log := failed } : State).formatRolls = s.formatRolls := by
        simp [State.formatRolls]
      rw [hnext, enterLogFailed_log, enterLogFailed_formatRun, hrolls]
      refine ⟨rfl, rfl, rfl, fun r hr hst => if_pos ((formatRolls_iff s).mpr ⟨r, hr, hst⟩), fun h => ?_⟩
      rw [if_neg (fun hrolls => by obtain ⟨r, hr, hst⟩ := (formatRolls_iff s).mp hrolls; exact h r hr hst)]
      simp
    · have hrolls : ¬ s.formatRolls = true := fun hc => by
        obtain ⟨r, hrun, hst⟩ := (formatRolls_iff s).mp hc
        exact hf r hrun hst
      refine ⟨{ s.snapshotEnded c b true with log := { s.log with
        current := some c, writePoint := 1, generation := s.log.generation + 1, forceRollover := false, rollover := .none } }, ?_, rfl, ?_, ?_⟩
      · rw [exec_snapshotProgramEnd hs hop true, snapshotEnd_ok hr]
        dsimp only
        rw [if_neg hrolls]
      · simp [State.snapshotEnded]
      · simp [State.snapshotEnded]
    · refine ⟨s.snapshotEnd c false, exec_snapshotProgramEnd hs hop false, ?_⟩
      rw [snapshotEnd_failed hr, hcand (by simp [State.snapshotEnded]) hd]
      simp [State.snapshotEnded]
    · have hrolls : s.formatRolls = true := (formatRolls_iff s).mpr ⟨r, hf, hst⟩
      let u : State := { s.snapshotEnded c b true with log := { s.log with
        current := some c, writePoint := 1, generation := s.log.generation + 1, forceRollover := false, rollover := .none } }
      have hslot : u.slot = some o := by simpa [u, State.snapshotEnded] using ho
      obtain ⟨hrun, hpower, hempty, hport⟩ := formatDone_of_slot hslot hsup
      refine ⟨u.formatDone, ?_, hrun, ?_, hempty, ?_⟩
      · rw [exec_snapshotProgramEnd hs hop true, snapshotEnd_ok hr]
        dsimp only
        rw [if_pos hrolls]
      · rw [hpower]
        simp [u, State.snapshotEnded]
      · obtain ⟨fl, n, heq⟩ := endProgram_eq s c 0 true
        rw [hport]
        simp only [u, State.snapshotEnded, heq]
        rfl
  · refine ⟨s.indexEraseEnd c true, exec_indexSegmentEraseEnd hs hop true, ?_⟩
    have hask : s.indexEraseEnd c true = _ := askSnapshot_of_none (s := s.endErase c true) c hb
    rw [hask]
    rfl
  · unfold State.snapshotBody IndexLog.snapshotSeq
    rw [show Survey.snapshotRecord = _ from funext snapshotRecord_eq]
    rfl
  · intro rolls u
    have heq := enterLogFailed_of_no_entry s h
    refine ⟨fun hr => ?_, fun hr => ?_⟩
    · rw [heq]
      exact if_pos ((formatRolls_iff s).mpr hr)
    · rw [heq]
      exact if_neg (fun hc => hr ((formatRolls_iff s).mp hc))

end Sys2Proof.Machine
end

