-- ==== Sys2Proof/Proofs/FormatStart.lean ====
section
/-! PROOFS. FORMAT up to its erases (R55, R80, R102, R151, R166). -/

open Sys2Proof Sys2Proof.Machine

namespace Sys2Proof.Machine

/-! ### Buffers that become FREE (R48, R55) -/

/-- Of a list of buffers those that satisfy a test become FREE, and the others stay as they are. -/
def Frees (r : Nat → Prop) (bs bs' : List Buffer) : Prop :=
  bs'.length = bs.length ∧ ∀ b, b < bs.length →
    (r b → (bs'.getD b {}).state = .free) ∧ (¬ r b → bs'.getD b {} = bs.getD b {})

theorem frees_none (bs : List Buffer) : Frees (fun _ => False) bs bs := ⟨rfl, fun _ _ => ⟨False.elim, fun _ => rfl⟩⟩

theorem frees_modify (b : Nat) (bs : List Buffer) : Frees (fun c => c = b) bs (bs.modify b (fun x => { x with state := .free })) := by
  refine ⟨List.length_modify .., fun c hc => ⟨?_, fun hne => ?_⟩⟩
  · rintro rfl
    simp [hc]
  · simp [Ne.symm hne]

theorem frees_trans {r t : Nat → Prop} {as bs cs : List Buffer} (h : Frees r as bs) (h' : Frees t bs cs) :
    Frees (fun b => r b ∨ t b) as cs := by
  obtain ⟨hlen, hr⟩ := h
  obtain ⟨hlen', ht⟩ := h'
  refine ⟨hlen'.trans hlen, fun b hb => ⟨fun hrt => ?_, fun hno => ?_⟩⟩
  · by_cases htb : t b
    · exact (ht b (hlen ▸ hb)).1 htb
    · rw [(ht b (hlen ▸ hb)).2 htb]
      exact (hr b hb).1 (hrt.resolve_right htb)
  · push Not at hno
    rw [(ht b (hlen ▸ hb)).2 hno.2, (hr b hb).2 hno.1]

theorem frees_congr {r t : Nat → Prop} {as bs : List Buffer} (h : Frees r as bs) (hrt : ∀ b, b < as.length → (t b ↔ r b)) :
    Frees t as bs := by
  obtain ⟨hlen, hr⟩ := h
  exact ⟨hlen, fun b hb => by rw [hrt b hb]; exact hr b hb⟩

/-- Every QUEUED buffer becomes FREE. -/
theorem frees_queued (bs : List Buffer) : Frees (fun b => (bs.getD b {}).state = .queued) bs
    (bs.map (fun b => if b.state = .queued then { b with state := .free } else b)) := by
  refine ⟨List.length_map .., fun b hb => ⟨fun h => ?_, fun h => ?_⟩⟩
  all_goals
    simp only [List.getD_eq_getElem?_getD, List.getElem?_map, List.getElem?_eq_getElem hb, Option.map_some, Option.getD_some] at h ⊢
    simp [h]

/-! ### The entries given up (R96, R102) -/

/-- The buffer that an entry holds becomes FREE. -/
def freeHeld (held : Option Nat) (bs : List Buffer) : List Buffer :=
  match held with
  | some b => bs.modify b (fun x => { x with state := .free })
  | none => bs

theorem frees_freeHeld (held : Option Nat) (bs : List Buffer) : Frees (fun b => held = some b) bs (freeHeld held bs) := by
  cases held with
  | none => exact frees_congr (frees_none bs) (by simp)
  | some b => exact frees_congr (frees_modify b bs) (fun c _ => by simp [eq_comm])

theorem dropHead_freeHeld {s : State} {e : IndexEntry} {rest : List IndexEntry} (h : s.log.waiting = e :: rest) :
    s.dropHead = { s with
      log := { s.log with waiting := rest, stage := .idle }
      pool := { s.pool with
        buffers := freeHeld e.buffer s.pool.buffers
        indexWaiters := s.pool.indexWaiters.filter (fun w => w != .entry) } } := by
  unfold State.dropHead
  rw [h]
  dsimp only
  unfold State.releaseOf
  cases e.buffer <;> rfl

/-- An entry that leaves no command to answer. -/
def IndexEntry.Silent (e : IndexEntry) : Prop := (∃ r, e.body = .drop r) ∨ e.body = .powerDown

/-- The procedure once the entries of a list are given up: a shutdown that waits for its POWER-DOWN entry goes on (R172). -/
def Procedure.givenUp (p : Procedure) (left : Nat) (l : List IndexEntry) : Procedure :=
  if p = .shutdown .entry ∧ ∃ e ∈ l, e.body = .powerDown then .shutdown (.drain left) else p

theorem giveUp_silent (s : State) (left : Nat) (e : IndexEntry) (h : e.Silent) :
    s.giveUp left e.body = { s with power := { s.power with procedure := s.power.procedure.givenUp left [e] } } := by
  rcases h with ⟨r, hr⟩ | hr
  · simp [hr, State.giveUp, Procedure.givenUp]
  · rw [hr]
    show s.powerDownEnded left = _
    unfold State.powerDownEnded
    split
    · rename_i hp
      simp [hp, Procedure.givenUp, hr]
    · rename_i hp
      have hne : s.power.procedure ≠ .shutdown .entry := hp
      simp [hne, Procedure.givenUp]

theorem givenUp_cons (p : Procedure) (left : Nat) (e : IndexEntry) (es : List IndexEntry) :
    (p.givenUp left [e]).givenUp left es = p.givenUp left (e :: es) := by
  unfold Procedure.givenUp
  by_cases hp : p = .shutdown .entry <;> by_cases he : e.body = .powerDown <;> simp [hp, he]

/-- What giving up entries that leave no command to answer does: the list empties, their buffers become FREE, and a shutdown that
waits for its entry goes on. -/
theorem giveUpList_silent (left : Nat) : ∀ (l : List IndexEntry) (s : State), s.log.waiting = l → (∀ e ∈ l, e.Silent) →
    ∃ bs iw stage, s.giveUpList left l = { s with
      log := { s.log with waiting := [], stage := stage }
      pool := { s.pool with buffers := bs, indexWaiters := iw }
      power := { s.power with procedure := s.power.procedure.givenUp left l } } ∧
    Frees (fun b => ∃ e ∈ l, e.buffer = some b) s.pool.buffers bs
  | [], s, h, _ => by
    refine ⟨s.pool.buffers, s.pool.indexWaiters, s.log.stage, ?_, frees_congr (frees_none _) (by simp)⟩
    have hlog : { s.log with waiting := [] } = s.log := by rw [← h]
    show s = _
    simp only [Procedure.givenUp, List.not_mem_nil, false_and, exists_false, and_false, if_false]
    rw [show ({ s.log with waiting := [], stage := s.log.stage } : IndexLog) = s.log from hlog]
  | e :: es, s, h, hall => by
    let v : State := s.dropHead.giveUp left e.body
    have hv : v = { s with
        log := { s.log with waiting := es, stage := .idle }
        pool := { s.pool with
          buffers := freeHeld e.buffer s.pool.buffers
          indexWaiters := s.pool.indexWaiters.filter (fun w => w != .entry) }
        power := { s.power with procedure := s.power.procedure.givenUp left [e] } } := by
      show s.dropHead.giveUp left e.body = _
      rw [giveUp_silent _ left e (hall e (by simp)), dropHead_freeHeld h]
    obtain ⟨bs, iw, stage, heq, hfrees⟩ := giveUpList_silent left es v (by rw [hv]) (fun x hx => hall x (by simp [hx]))
    refine ⟨bs, iw, stage, ?_, ?_⟩
    · show v.giveUpList left es = _
      rw [heq, hv]
      simp only [givenUp_cons]
    · rw [hv] at hfrees
      exact frees_congr (frees_trans (frees_freeHeld e.buffer _) hfrees) (by simp)

theorem giveUpAll_silent (s : State) (left : Nat) (h : ∀ e ∈ s.log.waiting, e.Silent) :
    ∃ bs iw stage, s.giveUpAll left = { s with
      log := { s.log with waiting := [], stage := stage }
      pool := { s.pool with buffers := bs, indexWaiters := iw }
      power := { s.power with procedure := s.power.procedure.givenUp left s.log.waiting } } ∧
    Frees (fun b => ∃ e ∈ s.log.waiting, e.buffer = some b) s.pool.buffers bs :=
  giveUpList_silent left s.log.waiting s rfl h

/-! ### The values FORMAT sets (R55, R80, R102, R151, R166) -/

theorem endRollover_frees (s : State) : ∃ bs, s.endRollover = { s with pool := { s.pool with buffers := bs } } ∧
    Frees (fun b => ∃ c, s.log.rollover = .program c b) s.pool.buffers bs := by
  unfold State.endRollover
  split
  next c b h => exact ⟨_, rfl, frees_congr (frees_modify b _) (fun d _ => by simp [h, eq_comm])⟩
  next h => exact ⟨_, rfl, frees_congr (frees_none _) (by simp [h])⟩
  next c h => exact ⟨_, rfl, frees_congr (frees_none _) (by simp [h])⟩
  next c h => exact ⟨_, rfl, frees_congr (frees_none _) (by simp [h])⟩

/-- The buffers that FORMAT returns to FREE: those of the entries given up and of a rollover, and every QUEUED one. -/
def State.formatFrees (s : State) (b : Nat) : Prop :=
  (s.pool.buffers.getD b {}).state = .queued ∨ (∃ e ∈ s.log.waiting, e.buffer = some b) ∨ ∃ c, s.log.rollover = .program c b

theorem frees_then_queued {r : Nat → Prop} {as bs : List Buffer} (h : Frees r as bs) :
    Frees (fun b => (as.getD b {}).state = .queued ∨ r b) as
      (bs.map (fun b => if b.state = .queued then { b with state := .free } else b)) := by
  refine frees_congr (frees_trans h (frees_queued bs)) (fun b hb => ?_)
  by_cases hr : r b
  · simp [hr]
  · simp only [(h.2 b hb).2 hr, hr, or_false, false_or]

theorem gauge_take_default (g : Gauge) : g.take {} = { g with
    remaining := min 34000 g.remaining, acc := if 34000 < g.remaining then 0 else g.acc, settings := {} } := by
  unfold Gauge.take
  by_cases h : 34000 < g.remaining
  · simp [h, Nat.min_eq_left h.le]
  · simp [h, Nat.min_eq_right (Nat.le_of_not_lt h)]

/-- The default settings take effect, and the alarm restarts with the default interval. -/
theorem takeGaugeSettings_default (s : State) : s.takeGaugeSettings {} = { s with
    clock := { s.clock with nextReport := some ((s.clock.seconds + 60) % 4294967296) }
    gauge := { s.gauge with
      remaining := min 34000 s.gauge.remaining
      acc := if 34000 < s.gauge.remaining then 0 else s.gauge.acc
      settings := {} } } := by
  rw [State.takeGaugeSettings, gauge_take_default]
  rfl

/-- The Index Log as FORMAT leaves it. -/
theorem formatLog_silent (s : State) (h : ∀ e ∈ s.log.waiting, e.Silent) : ∃ bs, s.formatLog = { s with
      log := { s.log with current := none, writePoint := 0, generation := 0, nextSeq := 0, waiting := [], stage := .idle,
                          rollover := .none, forceRollover := false, failed := false, clean := false }
      pool := { s.pool with buffers := bs, indexWaiters := [] }
      power := { s.power with procedure := s.power.procedure.givenUp s.port.tx.length s.log.waiting } } ∧
    Frees (fun b => (∃ e ∈ s.log.waiting, e.buffer = some b) ∨ ∃ c, s.log.rollover = .program c b) s.pool.buffers bs := by
  obtain ⟨bs, hend, hfrees⟩ := endRollover_frees s
  obtain ⟨bs', iw, stage, hgive, hfrees'⟩ := giveUpAll_silent s.endRollover s.port.tx.length (by rw [hend]; exact h)
  refine ⟨bs', ?_, ?_⟩
  · unfold State.formatLog
    dsimp only
    rw [hgive, hend]
  · rw [hend] at hfrees'
    exact frees_congr (frees_trans hfrees hfrees') (fun b _ => or_comm)

/-- Steps 1 to 3 of R102, where the entries that wait leave no command to answer. -/
theorem formatBegin_silent (s : State) (r : FormatRun) (h : ∀ e ∈ s.log.waiting, e.Silent) :
    let n := min (max 64 (min 4096 r.n)) s.media.reportedSegments
    ∃ bs, s.formatBegin r = State.judgeVerify { s with
      clock := { s.clock with nextReport := some ((s.clock.seconds + 60) % 4294967296) }
      slots := s.slots.map (fun _ => {})
      pool := { buffers := bs, indexWaiters := [], streamWaiters := [] }
      queue := []
      media := { s.media with
        generation := if 65535 ≤ s.media.generation then 1 else s.media.generation + 1
        segs := (List.range n).map (fun g => { state := if g < 4 then .index else .free, chain := none, headerFailed := false })
        ready := []
        free := []
        takes := []
        segWaiters := []
        mediaFull := false
        fairness := 0 }
      table := { surveys := [], nextNumber := 1, stored := [0, 2, 2, 1], present := [0, 2, 2, 1] }
      log := { s.log with current := none, writePoint := 0, generation := 0, nextSeq := 0, waiting := [], stage := .idle,
                          rollover := .none, forceRollover := false, failed := false, clean := false }
      formatRun := some { stage := .erasing 0, n := n }
      monitor := { s.monitor with shock := {} }
      gauge := { s.gauge with
        remaining := min 34000 s.gauge.remaining
        acc := if 34000 < s.gauge.remaining then 0 else s.gauge.acc
        settings := {} }
      power := { s.power with procedure := s.power.procedure.givenUp s.port.tx.length s.log.waiting } } ∧
    Frees s.formatFrees s.pool.buffers bs := by
  intro n
  obtain ⟨bs, hlog, hfrees⟩ := formatLog_silent s h
  refine ⟨_, ?_, frees_then_queued hfrees⟩
  unfold State.formatBegin
  dsimp only
  rw [hlog, takeGaugeSettings_default]
  rfl

/-! ### FORMAT waits, or begins (R102) -/

theorem formatGate_of_waiting {s : State} {r : FormatRun} (hr : s.formatRun = some r) (hw : r.stage = .waiting)
    (hop : s.media.op = none) (he : s.entryInFlight = false) : s.formatGate = s.formatBegin r := by
  simp [State.formatGate, hr, hw, hop, he]

theorem formatGate_of_op {s : State} (hop : s.media.op ≠ none) : s.formatGate = s := by
  unfold State.formatGate
  split <;> simp [hop]

theorem formatGate_of_entry {s : State} (he : s.entryInFlight = true) : s.formatGate = s := by
  unfold State.formatGate
  split <;> simp [he]

theorem arbitrate_of_op {s : State} (hop : s.media.op ≠ none) : s.arbitrate = s := by
  simp [State.arbitrate, Option.isSome_iff_ne_none.mpr hop]

theorem entryInFlight_iff (s : State) : s.entryInFlight = true ↔ ∃ e, s.log.waiting.head? = some e ∧ e.issued = true := by
  unfold State.entryInFlight
  split
  next e es h => simp [h]
  next h => simp [h]

/-- A slot is live or loading. -/
def State.Held (s : State) : Prop := ∃ x ∈ s.slots, x.state = .loaded ∨ x.state = .running ∨ x.state = .paused ∨ x.loading = true

theorem any_live_or_loading (s : State) : s.slots.any (fun x => x.live || x.loading) = true ↔ s.Held := by
  simp [State.Held, live_iff, or_assoc]

/-- The Operation Slot that holds a FORMAT. -/
def formatSlot (f : Frame) (level : Nat) : OpSlot :=
  { opcode := .format, port := f.port, tag := f.tag, level := level, suppressed := false, request := .format }

/-- A FORMAT has entered the Operation Slot, and has not begun. -/
def State.formatAccepted (s : State) (f : Frame) (level : Nat) : State :=
  { s with
    slot := some (formatSlot f level)
    log := { s.log with unusable := [], failed := false }
    formatRun := some { stage := .waiting, n := leVal (f.payload.take 2) } }

theorem format_of_held {s : State} {f : Frame} (h : s.Held) : s.format f 0 = s.refuse .format f 0 .state := by
  simp [State.format, (any_live_or_loading s).mpr h]

theorem format_of_not_held {s : State} {f : Frame} (h : ¬ s.Held) :
    s.format f 0 = (s.formatAccepted f 0).formatGate.arbitrate := by
  rw [← any_live_or_loading] at h
  simp only [State.format, h]
  rfl

/-- Settles O45: the checks, then the wait on the operation or entry in flight, then the values that `formatBegin_silent` names. -/
theorem formatStart : Obligations.FormatStart := by
  unfold Obligations.FormatStart
  intro s f htakes level held asked slot waits
  have hrow : exec .format s = .next (((s.format f level).freeHead).holdIdle) := exec_row_of_takes htakes
  have haccepted : level = 0 → ¬ held → s.format f level = waits.formatGate.arbitrate := by
    intro h0 hheld
    have hwaits : waits = s.formatAccepted f 0 := by rw [← h0]; rfl
    rw [h0, hwaits]
    exact format_of_not_held hheld
  refine ⟨fun hlevel => ?_, fun h0 hheld => ?_, fun h0 hheld hop => ?_, fun h0 hheld _ he => ?_, fun h0 hheld hop hnone hall => ?_⟩
  · rw [hrow]
    simp only [State.format, if_pos hlevel]
  · rw [hrow, h0, format_of_held hheld]
  · rw [hrow, haccepted h0 hheld, formatGate_of_op (s := waits) hop, arbitrate_of_op (s := waits) hop]
  · rw [hrow, haccepted h0 hheld, formatGate_of_entry ((entryInFlight_iff waits).mpr he)]
  · have hentry : waits.entryInFlight = false := by
      rw [Bool.eq_false_iff]
      intro hissued
      obtain ⟨e, hhead, he⟩ := (entryInFlight_iff waits).mp hissued
      rw [hnone e hhead] at he
      cases he
    obtain ⟨bs, hbegin, hlen, hfrees⟩ := formatBegin_silent waits { stage := .waiting, n := asked } hall
    rw [hrow, haccepted h0 hheld, formatGate_of_waiting (s := waits) rfl rfl hop hentry, hbegin]
    refine ⟨_, rfl, rfl, hlen, hfrees, fun hproc hpd => ?_, fun hnot => ?_⟩
    · exact if_pos ⟨hproc, hpd⟩
    · refine if_neg (fun ⟨hproc, e, he, hpd⟩ => ?_)
      exact hnot.elim (fun h => h hproc) (fun h => h e he hpd)

end Sys2Proof.Machine
end

