-- ==== Sys2Proof/Proofs/TakesAndDrain.lean ====
section
/-! PROOFS. The takes, the offers and the drain (R64, R66). -/

open Sys2Proof Sys2Proof.Machine

namespace Sys2Proof.Machine

/-! ### Takes (R64) -/

/-- The media with a take put in a phase: in its place where it stands already, else behind the others; its stream waits no longer. -/
def Take.placedIn (t : Take) (m : Media) (phase : TakePhase) : Media :=
  { m with
    takes := if m.takes.any (fun u => u.load == t.load && u.slot == t.slot)
      then m.takes.map (fun u => if u.load = t.load ∧ u.slot = t.slot then { t with phase := phase } else u)
      else m.takes ++ [{ t with phase := phase }]
    segWaiters := if t.load then m.segWaiters else m.segWaiters.filter (fun i => i != t.slot) }

theorem same_eq (t u : Take) : Take.same t u = (u.load == t.load && u.slot == t.slot) := by
  unfold Take.same
  rw [Bool.beq_comm (a := t.load), Bool.beq_comm (a := t.slot)]

theorem putTake_eq (s : State) (t : Take) (phase : TakePhase) :
    s.putTake { t with phase := phase } = { s with media := t.placedIn s.media phase } := by
  unfold State.putTake Take.placedIn
  simp only [funext (same_eq { t with phase := phase }), same_eq { t with phase := phase }, Bool.and_eq_true, beq_iff_eq]

theorem dropTake_eq (s : State) (t : Take) : s.dropTake t = { s with media := { s.media with
    takes := s.media.takes.filter (fun u => !(u.load == t.load && u.slot == t.slot)) } } := by
  unfold State.dropTake
  simp only [same_eq]

/-- A take takes the head of the Ready List first. -/
theorem makeTake_of_ready {s : State} {g : Nat} {rest : List Nat} (t : Take) (h : s.media.ready = g :: rest) :
    s.makeTake t = State.testMediaFull { s with media := { t.placedIn s.media (.header g) with
      ready := rest, segs := s.media.segs.modify g (fun x => { x with state := .taken }) } } true := by
  unfold State.makeTake
  rw [h]
  dsimp only
  rw [putTake_eq]
  rfl

theorem aheadInFlight_of_op {s : State} {g : Nat} (h : s.media.op = some (.aheadErase g)) : s.aheadInFlight = some g := by
  unfold State.aheadInFlight
  rw [h]

theorem aheadInFlight_eq_none {s : State} (h : ∀ g, s.media.op ≠ some (.aheadErase g)) : s.aheadInFlight = none := by
  unfold State.aheadInFlight
  split
  next g hop => exact absurd hop (h g)
  next => rfl

/-- With the Ready List empty, a take waits on an erase-ahead in flight. -/
theorem makeTake_of_ahead {s : State} {g : Nat} (t : Take) (h : s.media.ready = []) (hop : s.media.op = some (.aheadErase g)) :
    s.makeTake t = { s with media := t.placedIn s.media .onAhead } := by
  unfold State.makeTake
  rw [h, aheadInFlight_of_op hop]
  exact putTake_eq s t .onAhead

/-- Without a READY segment and an erase-ahead, a take takes the head of the Free List for an erase. -/
theorem makeTake_of_free {s : State} {g : Nat} {rest : List Nat} (t : Take) (h : s.media.ready = [])
    (hop : ∀ g, s.media.op ≠ some (.aheadErase g)) (hfree : s.media.free = g :: rest) :
    s.makeTake t = State.testMediaFull { s with media := { t.placedIn s.media (.erase g) with
      free := rest, segs := s.media.segs.modify g (fun x => { x with state := .erasing }) } } true := by
  unfold State.makeTake
  rw [h, aheadInFlight_eq_none hop, hfree]
  dsimp only
  rw [putTake_eq]
  rfl

/-- Without a segment a take is not made. -/
theorem makeTake_of_nothing {s : State} (t : Take) (h : s.media.ready = []) (hop : ∀ g, s.media.op ≠ some (.aheadErase g))
    (hfree : s.media.free = []) : s.makeTake t = s.refuseTake t := by
  unfold State.makeTake
  rw [h, aheadInFlight_eq_none hop, hfree]

/-- An offer goes through the marked streams, in the order of the marks. -/
theorem offerTakes_eq_foldl (l : List Nat) (s : State) : s.offerTakes l = l.foldl (fun u i =>
    match u.queue.find? (fun e => e.state == .waiting && e.slot == i) with
    | some e => u.makeTake e.take
    | none => u) s := by
  induction l generalizing s with
  | nil => rfl
  | cons i is ih => exact ih _

/-! ### The drain (R66) -/

/-- An entry that the drain passes over: its stream waits for a segment, has a take, or has an older WAITING entry. -/
def State.Passed (s : State) (seen : List Nat) (e : Entry) : Prop :=
  e.slot ∈ seen ∨ e.slot ∈ s.media.segWaiters ∨ ∃ t ∈ s.media.takes, t.load = false ∧ t.slot = e.slot

theorem passed_iff (s : State) (seen : List Nat) (e : Entry) :
    (seen.contains e.slot || s.media.segWaiters.contains e.slot || s.takeFor e.slot) = true ↔ s.Passed seen e := by
  simp [State.Passed, State.takeFor, or_assoc]

theorem drain_of_not_waiting (s : State) (seen : List Nat) {e : Entry} (es : List Entry) (h : e.state ≠ .waiting) :
    s.drain seen (e :: es) = s.drain seen es := by
  simp [State.drain, h]

theorem drain_of_passed {s : State} {seen : List Nat} {e : Entry} (es : List Entry) (h : e.state = .waiting) (hp : s.Passed seen e) :
    s.drain seen (e :: es) = s.drain (e.slot :: seen) es := by
  rw [State.drain, if_neg (by simp [h]), if_pos ((passed_iff s seen e).mpr hp)]

theorem drain_of_target {s : State} {seen : List Nat} {e : Entry} {g p : Nat} (es : List Entry) (h : e.state = .waiting)
    (hp : ¬ s.Passed seen e) (ht : s.targetOf e = some (g, p)) : s.drain seen (e :: es) = (s.issueEntry e g p, true) := by
  rw [State.drain, if_neg (by simp [h]), if_neg (fun hc => hp ((passed_iff s seen e).mp hc)), ht]

theorem drain_of_no_target {s : State} {seen : List Nat} {e : Entry} (es : List Entry) (h : e.state = .waiting)
    (hp : ¬ s.Passed seen e) (ht : s.targetOf e = none) : s.drain seen (e :: es) = (s.makeTake e.take).drain (e.slot :: seen) es := by
  rw [State.drain, if_neg (by simp [h]), if_neg (fun hc => hp ((passed_iff s seen e).mp hc)), ht]

/-- An entry's target is the write point of its stream's ACTIVE tail, at 255 or below. -/
theorem targetOf_eq_some_iff (s : State) (e : Entry) (g p : Nat) : s.targetOf e = some (g, p) ↔
    ∃ x c, s.tailOf e.survey e.index = some g ∧ s.media.segs[g]? = some x ∧ x.state = .active ∧ x.chain = some c ∧
      c.writePoint = p ∧ p ≤ 255 := by
  unfold State.targetOf State.segAt
  constructor
  · intro h
    split at h
    · cases h
    next g' htail =>
      split at h
      next x hx =>
        split at h
        next c hstate hchain =>
          split at h
          next hle =>
            cases h
            exact ⟨x, c, htail, hx, hstate, hchain, rfl, hle⟩
          · cases h
        · cases h
      · cases h
  · rintro ⟨x, c, htail, hx, hstate, hchain, rfl, hle⟩
    simp [htail, hx, hstate, hchain, hle]

theorem targetOf_eq_none {s : State} {e : Entry} (h : ∀ g x c, s.tailOf e.survey e.index = some g → s.media.segs[g]? = some x →
    x.state = .active → x.chain = some c → 256 ≤ c.writePoint) : s.targetOf e = none := by
  rw [Option.eq_none_iff_forall_ne_some]
  rintro ⟨g, p⟩ hsome
  obtain ⟨x, c, htail, hx, hstate, hchain, rfl, hle⟩ := (targetOf_eq_some_iff s e g p).mp hsome
  have := h g x c htail hx hstate hchain
  omega

/-- An entry is issued at its target. -/
theorem issueEntry_eq {s : State} {g : Nat} {x : Segment} {c : ChainInfo} (e : Entry) (p : Nat) (hx : s.media.segs[g]? = some x)
    (hc : x.chain = some c) : s.issueEntry e g p = { s with
      queue := s.queue.map (fun y => if y.buffer = e.buffer then { y with target := some (g, p), state := .programming } else y)
      media := { s.media with
        segs := s.media.segs.set g { x with chain := some { c with writePoint := c.writePoint + 1 } }
        op := some (.dataProgram e.buffer g p)
        image := some (composePage (s.bufferBytes e.buffer)
          { kind := 2, rewrite := e.rewrite, index := e.index, survey := e.survey, generation := s.media.generation, seq := c.seq,
            count := e.count, used := e.used, firstSeq := e.firstSeq, seconds := s.clock.seconds, ticks := s.clock.ticks }) } } := by
  obtain ⟨hlt, hget⟩ := List.getElem?_eq_some_iff.mp hx
  have hseq : s.chainAt g = some c := by simp [State.chainAt, State.segAt, hx, hc]
  have hsegs : s.media.segs.modify g (fun x => { x with chain := x.chain.map (fun c => { c with writePoint := c.writePoint + 1 }) }) =
      s.media.segs.set g { x with chain := some { c with writePoint := c.writePoint + 1 } } := by
    rw [List.modify_eq_set_getElem?, hx]
    simp [hc]
  unfold State.issueEntry State.dataTrailer
  rw [hseq, ← hsegs]
  rfl

end Sys2Proof.Machine
end

