-- ==== Sys2Proof/Proofs/GrantAndRetire.lean ====
section
/-! PROOFS. BUFFER_GRANT and RETIRE (R41, R45, R47, R48, R51, R96 to R99). -/

open Sys2Proof Sys2Proof.Machine

namespace Sys2Proof.Machine

/-! ### The grant (R47) -/

/-- The lowest-numbered FREE buffer. -/
theorem freeBuffer_spec {s : State} {b : Nat} (h : s.freeBuffer = some b) :
    (s.pool.buffers.getD b {}).state = .free ∧ ∀ c, c < b → (s.pool.buffers.getD c {}).state ≠ .free := by
  obtain ⟨hlt, hfree, hbefore⟩ := List.findIdx?_eq_some_iff_getElem.mp h
  refine ⟨by simpa [hlt] using hfree, fun c hc => ?_⟩
  have hclt : c < s.pool.buffers.length := hc.trans hlt
  simpa [hclt] using hbefore c hc

theorem exec_bufferGrant {s : State} (h : s.due = some .bufferGrant) : exec .bufferGrant s = .next (s.makeGrant).holdIdle := by
  show Host.Outcome.next (s.makeIfDue .bufferGrant) = _
  rw [makeIfDue_of_due h]
  rfl

/-- An index write that waits is granted the buffer before any stream. -/
theorem makeGrant_of_index {s : State} {b : Nat} {w : IndexWaiter} {ws : List IndexWaiter} (hb : s.freeBuffer = some b)
    (hw : s.pool.indexWaiters = w :: ws) :
    s.makeGrant = ((State.grantIndex { s with pool := { s.pool with indexWaiters := ws } } b w).pumpLog).arbitrate := by
  unfold State.makeGrant
  rw [hb, hw]

theorem makeGrant_of_stream {s : State} {b i : Nat} {is : List Nat} (hb : s.freeBuffer = some b) (hw : s.pool.indexWaiters = [])
    (hi : s.pool.streamWaiters = i :: is) :
    s.makeGrant = ((State.requestClose { s with pool := { s.pool with streamWaiters := is } } i).pumpLog).arbitrate := by
  unfold State.makeGrant
  rw [hb, hw, hi]

/-! ### RETIRE (R51) -/

theorem retires_iff (s : State) (e : Entry) : s.retires e = true ↔
    (e.state = .held ∧ 8 ≤ e.retire) ∧ s.monitor.state = .watch ∧ 8 ≤ s.monitor.watchCount := by
  simp [State.retires, and_assoc]

theorem exec_retire {s : State} {e : Entry} (h : s.due = some .retire) (he : s.queue.find? s.retires = some e) :
    exec .retire s = .next (s.retireEntry e.buffer).holdIdle := by
  show Host.Outcome.next (s.makeIfDue .retire) = _
  rw [makeIfDue_of_due h]
  show Host.Outcome.next (s.makeRetire).holdIdle = _
  unfold State.makeRetire
  rw [he]

/-! ### A requested close of a stream without a page (R41, R45) -/

theorem order_length_le (m : Markers) : m.order.length ≤ 7 := by
  cases h : m.powerFirst with
  | false => rw [order_resume_first m h]; exact List.length_filter_le ..
  | true => rw [order_power_first m h]; exact List.length_filter_le ..

theorem records_length (s : State) (x : Slot) (d : Descriptor) (l : List MarkerKind) (n : Nat)
    (h : ∀ k ∈ l, x.markers.pending k = true) : (s.records x d l n).length = 20 * l.length := by
  induction l generalizing n with
  | nil => rfl
  | cons k l ih =>
    have hk : (s.markerRecord { x with nextSeq := x.nextSeq + n } d k).length = 20 := markerRecord_length _ _ _ _ (h k (by simp))
    have hl := ih (n + 1) (fun j hj => h j (by simp [hj]))
    unfold State.records at hl ⊢
    rw [List.zipIdx_cons, List.flatMap_cons, List.length_append, hk, hl, List.length_cons]
    omega

/-- The state with FREE buffer `b` taken for a fill page of slot `i`. -/
def State.paged (s : State) (i b : Nat) : State :=
  { s with
    slots := s.slots.set i { s.slotAt i with page := some { buffer := b, firstSeq := 0, count := 0 } }
    pool := { s.pool with buffers := s.pool.buffers.set b { state := .filling, bytes := [] } } }

/-- The first marker of a stream without a page takes the FREE buffer, and the markers are written into it. -/
theorem writeMarkers_of_buffer {s : State} {i b : Nat} (h : i < s.slots.length) (hb : s.freeBuffer = some b)
    (hp : (s.slotAt i).page = none) (hr : (s.slotAt i).openRec = none) (ho : (s.slotAt i).markers.order ≠ []) :
    s.writeMarkers i = (s.paged i b).writeMarkers i := by
  have hlt : b < s.pool.buffers.length := (List.findIdx?_eq_some_iff_getElem.mp hb).1
  have hat : (s.paged i b).slotAt i = { s.slotAt i with page := some { buffer := b, firstSeq := 0, count := 0 } } :=
    getD_set_same _ _ _ h
  have hbytes : (s.paged i b).bufferBytes b = [] := by simp [State.paged, State.bufferBytes, hlt]
  have hroom : (s.paged i b).makeRoom i 20 = (s.paged i b, true) :=
    makeRoom_of_fits _ i 20 _ (by rw [hat]) (by rw [hat]; exact hr) (by rw [hbytes]; simp)
  have hone (k : MarkerKind) : s.writeMarker i k = (s.paged i b).writeMarker i k := by
    unfold State.writeMarker
    rw [hroom, makeRoom_of_buffer s i 20 b h hp hb]
    rfl
  unfold State.writeMarkers
  rw [hat]
  obtain ⟨k, ks, horder⟩ := List.exists_cons_of_ne_nil ho
  rw [horder, State.writeMarkerList, State.writeMarkerList, hone]

/-- The slot whose pending markers are all written at the head of a new page. -/
def Slot.closing (x : Slot) (b : Nat) : Slot :=
  { x with
    markers := {}
    nextSeq := (x.nextSeq + x.markers.order.length) % 4294967296
    page := some { buffer := b, firstSeq := x.nextSeq, count := x.markers.order.length } }

theorem wrote_paged (x : Slot) (b : Nat) (ho : x.markers.order ≠ []) :
    ({ x with page := some { buffer := b, firstSeq := 0, count := 0 } } : Slot).wrote { buffer := b, firstSeq := 0, count := 0 }
      x.markers.order = x.closing b := by
  have hmarkers : x.markers.order.foldl Markers.without x.markers = {} := eq_empty_of_order_nil _ (order_written _)
  unfold Slot.wrote Slot.closing FillPage.placed
  simp [hmarkers, ho]

/-- The markers of a stream without a page, all written into a FREE buffer. -/
theorem writeMarkers_of_no_page {s : State} {i b : Nat} {d : Descriptor} (hb : s.freeBuffer = some b) (h : i < s.slots.length)
    (hd : (s.slotAt i).desc = some d) (hr : (s.slotAt i).openRec = none) (hp : (s.slotAt i).page = none)
    (ho : (s.slotAt i).markers.order ≠ []) : s.writeMarkers i = ({ s with
      slots := s.slots.set i ((s.slotAt i).closing b)
      pool := { s.pool with
        buffers := s.pool.buffers.set b { state := .filling, bytes := s.records (s.slotAt i) d (s.slotAt i).markers.order 0 } } }, true) := by
  have hlt : b < s.pool.buffers.length := (List.findIdx?_eq_some_iff_getElem.mp hb).1
  let x := s.slotAt i
  let u := s.paged i b
  have hat : u.slotAt i = { x with page := some { buffer := b, firstSeq := 0, count := 0 } } := getD_set_same _ _ _ h
  have hbytes : u.bufferBytes b = [] := by simp [u, State.paged, State.bufferBytes, hlt]
  have hcount := order_length_le x.markers
  have hwrite := writeMarkers_of_fits u i d { buffer := b, firstSeq := 0, count := 0 } (by simpa [u, State.paged] using h)
    (by simpa [u, State.paged] using hlt) (by rw [hat]; exact hd) (by rw [hat]) (by rw [hat]; exact hr)
    (by rw [hbytes, hat]; simp; omega)
  have hrecords : u.records (u.slotAt i) d x.markers.order 0 = s.records x d x.markers.order 0 := by
    rw [hat]
    exact List.flatMap_congr fun e _ => (markerRecord_of_monitor rfl _ d e.1).trans (markerRecord_congr s _ _ d e.1 rfl rfl)
  have horder : (u.slotAt i).markers.order = x.markers.order := by rw [hat]
  have hbufs : u.pool.buffers.modify b (fun z => { z with bytes := z.bytes ++ s.records x d x.markers.order 0 }) =
      s.pool.buffers.set b { state := .filling, bytes := s.records x d x.markers.order 0 } := by
    rw [modify_eq_set _ _ _ {} (by simpa [u, State.paged] using hlt)]
    simp [u, State.paged, hlt]
  dsimp only at hwrite
  rw [horder, hrecords, hbufs, hat, wrote_paged x b ho] at hwrite
  rw [writeMarkers_of_buffer h hb hp hr ho, hwrite]
  simp [u, State.paged, x]

/-- A requested close of a stream without a page writes its markers into the buffer, pads the page and queues it. -/
theorem requestClose_of_no_page {s : State} {i b : Nat} {d : Descriptor} (hb : s.freeBuffer = some b) (h : i < s.slots.length)
    (hd : (s.slotAt i).desc = some d) (hr : (s.slotAt i).openRec = none) (hp : (s.slotAt i).page = none)
    (ho : (s.slotAt i).markers.order ≠ []) :
    let x := s.slotAt i
    s.requestClose i = { s with
      slots := s.slots.set i { x with markers := {}, nextSeq := (x.nextSeq + x.markers.order.length) % 4294967296 }
      pool := { s.pool with
        buffers := s.pool.buffers.set b { state := .queued, bytes := padOnes 4096 (s.records x d x.markers.order 0) } }
      queue := s.queue ++ [{ buffer := b, slot := i, survey := d.survey, index := d.index, firstSeq := x.nextSeq,
                             count := x.markers.order.length, used := 20 * x.markers.order.length, target := none, state := .waiting,
                             rewrite := false, failures := 0, retire := 0 }] } := by
  intro x
  have hlt : b < s.pool.buffers.length := (List.findIdx?_eq_some_iff_getElem.mp hb).1
  have hwrite := writeMarkers_of_no_page hb h hd hr hp ho
  let v : State := { s with
    slots := s.slots.set i (x.closing b)
    pool := { s.pool with buffers := s.pool.buffers.set b { state := .filling, bytes := s.records x d x.markers.order 0 } } }
  change s.writeMarkers i = (v, true) at hwrite
  have hat : v.slotAt i = x.closing b := getD_set_same _ _ _ h
  have hbytes : v.bufferBytes b = s.records x d x.markers.order 0 := by simp [v, State.bufferBytes, hlt]
  have hpush := pushPage_eq v i d { buffer := b, firstSeq := x.nextSeq, count := x.markers.order.length } (by simpa [v] using h)
    (by simpa [v] using hlt) (by rw [hat]; exact hd) (by rw [hat]; rfl)
  have hclose : s.requestClose i = v.pushPage i := by
    unfold State.requestClose
    rw [closeOpen_of_none s i hr, hwrite]
    simp [hat, Slot.closing]
  have hopen : (x.closing b).openRec = none := hr
  have hlength := records_length s x d x.markers.order 0 (fun k hk => (mem_order _ k).mp hk)
  dsimp only at hpush
  rw [hat, hopen, hbytes, List.append_nil, hlength] at hpush
  rw [hclose, hpush]
  have hslot : ({ x.closing b with page := none, openRec := none } : Slot) =
      { x with markers := {}, nextSeq := (x.nextSeq + x.markers.order.length) % 4294967296 } := by
    simp [Slot.closing, x, hp, hr]
  rw [hslot]
  simp [v, pushedEntry]

/-! ### A granted index write (R96 to R99) -/

/-- A log whose entry's program is requested goes no further. -/
theorem pumpLog_of_request {s : State} (h : s.log.stage = .request) : s.pumpLog = s := by
  simp [State.pumpLog, h]

/-- A log whose rollover is in progress goes no further. -/
theorem pumpLog_of_rollover {s : State} (h : s.log.rollover ≠ .none) : s.pumpLog = s := by
  simp [State.pumpLog, h]

/-- The entry at the head with buffer `b`, and its sequence. -/
def State.composed (s : State) (e : IndexEntry) (b : Nat) : IndexEntry :=
  { e with seq := some (e.seq.getD s.log.nextSeq), buffer := some b }

/-- The state once the entry at the head has its buffer and its sequence. -/
def State.entryGranted (s : State) (e : IndexEntry) (rest : List IndexEntry) (b : Nat) : State :=
  { s with
    pool := { s.pool with
      buffers := s.pool.buffers.modify b (fun _ => { state := .index, bytes := entryPage (s.composed e b) }) }
    log := { s.log with
      waiting := s.composed e b :: rest
      nextSeq := if e.seq = none then (s.log.nextSeq + 1) % 4294967296 else s.log.nextSeq
      stage := .idle } }

theorem grantEntry_eq {s : State} {e : IndexEntry} {rest : List IndexEntry} (b : Nat) (h : s.log.waiting = e :: rest) :
    s.grantEntry b = (s.entryGranted e rest b).headReady := by
  unfold State.grantEntry
  rw [h]
  dsimp only
  unfold State.entryGranted
  cases he : e.seq <;> simp [State.composed, he, wrap32, State.modBuffer]

theorem headReady_of_room {s : State} (hf : s.log.forceRollover = false) (hw : s.log.writePoint ≤ 255) :
    s.headReady = { s with log := { s.log with stage := .request } } := by
  have : ¬ 256 ≤ s.log.writePoint := by omega
  simp [State.headReady, hf, this]

theorem headReady_of_rollover {s : State} (h : s.log.forceRollover = true ∨ 256 ≤ s.log.writePoint) :
    s.headReady = s.nextRollover := by
  simp [State.headReady, h]

/-- Settles O46, clause by clause: the grants, the retirement, the close, the index writes, the drain, the takes and the offers. -/
theorem grantAndRetire : Obligations.GrantAndRetire := by
  unfold Obligations.GrantAndRetire
  refine ⟨fun s b hdue hb => ?_, fun s e before after hq hbefore he h8 hwatch hcount hdue => ?_,
    fun s i b d hb h => fun hd hr hp ho => requestClose_of_no_page hb h hd hr hp ho, fun s b ws hdue hb => ⟨fun e rest hw hwait => ?_, fun c hw hroll => ?_⟩,
    fun s seen => ⟨rfl, fun e es => ?_⟩, fun s t => ?_, fun s => offerTakes_eq_foldl _ s⟩
  · obtain ⟨hfree, hlowest⟩ := freeBuffer_spec hb
    refine ⟨hfree, hlowest, fun w ws hw => ?_, fun i is hw hi => ?_⟩
    · rw [exec_bufferGrant hdue, makeGrant_of_index hb hw]
    · rw [exec_bufferGrant hdue, makeGrant_of_stream hb hw hi]
  · have hfind : s.queue.find? s.retires = some e := by
      refine List.find?_eq_some_iff_append.mpr ⟨(retires_iff s e).mpr ⟨⟨he, h8⟩, hwatch, hcount⟩, before, after, hq, fun x hx => ?_⟩
      rw [Bool.not_eq_true', Bool.eq_false_iff]
      exact fun hc => hbefore x hx ((retires_iff s x).mp hc).1
    exact exec_retire hdue hfind
  · intro composed u
    let v : State := { s with pool := { s.pool with indexWaiters := ws } }
    have hu : v.entryGranted e rest b = u := rfl
    have hgrant : exec .bufferGrant s = .next ((u.headReady.pumpLog).arbitrate).holdIdle := by
      rw [exec_bufferGrant hdue, makeGrant_of_index hb hw, ← hu, ← grantEntry_eq (s := v) b hwait]
      rfl
    refine ⟨fun hf hpoint => ?_, fun hroll => ⟨fun c hc => ?_, fun hc => ?_⟩⟩
    · rw [hgrant, headReady_of_room (s := u) hf hpoint, pumpLog_of_request rfl]
    · rw [hgrant, headReady_of_rollover (s := u) hroll, nextRollover_of_candidate (s := u) hc, pumpLog_of_rollover (by simp)]
    · rw [hgrant, headReady_of_rollover (s := u) hroll, nextRollover_of_none (s := u) hc]
  · let v : State := { s with pool := { s.pool with indexWaiters := ws } }
    have hgrant : v.grantIndex b .snapshot = v.grantSnapshot c b := by
      unfold State.grantIndex
      rw [show v.log.rollover = .waitBuffer c from hroll]
    rw [exec_bufferGrant hdue, makeGrant_of_index hb hw, hgrant, pumpLog_of_rollover (by simp [State.grantSnapshot])]
    rfl
  · refine ⟨drain_of_not_waiting s seen es, drain_of_passed es, fun he hp => ⟨fun g x c htail hx hstate hc hle => ?_, fun hnone => ?_⟩⟩
    · rw [drain_of_target es he hp ((targetOf_eq_some_iff s e g _).mpr ⟨x, c, htail, hx, hstate, hc, rfl, hle⟩),
        issueEntry_eq e _ hx hc]
    · exact drain_of_no_target es he hp (targetOf_eq_none hnone)
  · intro put dropped
    have hdropped : s.dropTake t = dropped := dropTake_eq s t
    refine ⟨fun g rest => makeTake_of_ready t, fun hready => ⟨fun g => makeTake_of_ahead t hready,
      fun hop => ⟨fun g rest => makeTake_of_free t hready hop, fun hfree => ?_⟩⟩⟩
    have hrefuse : s.makeTake t = s.refuseTake t := makeTake_of_nothing t hready hop hfree
    have hcontains : dropped.media.segWaiters.contains t.slot = true ↔ t.slot ∈ s.media.segWaiters := List.contains_iff_mem
    rw [hrefuse]
    unfold State.refuseTake
    rw [hdropped]
    refine ⟨fun hload => ?_, fun hload hmem => ?_, fun hload hmem => ?_⟩
    · rw [if_pos hload]
      rfl
    · rw [if_neg (by simp [hload]), if_pos (hcontains.mpr hmem)]
    · rw [if_neg (by simp [hload]), if_neg (fun hc => hmem (hcontains.mp hc))]

end Sys2Proof.Machine
end

