-- ==== Sys2Proof/Proofs/Arbiter.lean ====
section
/-! PROOFS. The Media Arbiter's choice (R66, R67, R70 to R73): what it leaves alone, and each class's request. -/

open Sys2Proof Sys2Proof.Machine

namespace Sys2Proof.Machine

/-! ### What the choice leaves alone -/

/-- The Host Port but for its Transmit List, the flash array, and Power Control's hold on the port. -/
def State.seat (s : State) : FramePort × List (Nat × FlashCell) × Bool := ({ s.port with tx := [] }, s.media.flash, s.media.hold)

theorem seat_iff (s u : State) : u.seat = s.seat ↔
    u.port = { s.port with tx := u.port.tx } ∧ u.media.flash = s.media.flash ∧ u.media.hold = s.media.hold := by
  have hport (p q : FramePort) : ({ p with tx := [] } : FramePort) = { q with tx := [] } ↔ p = { q with tx := p.tx } := by
    obtain ⟨_, _, _, _, _⟩ := p
    simp
  unfold State.seat
  simp only [Prod.mk.injEq, hport]

theorem seat_eq_of {s u : State} (hp : u.port = s.port) (hm : u.media = s.media) : u.seat = s.seat := by
  simp [State.seat, hp, hm]

theorem seat_raise (s : State) (n : Notice) : (s.raise n).seat = s.seat := by
  obtain ⟨tx, heq⟩ := raise_eq s n
  rw [heq]
  rfl

theorem seat_imposePause (s : State) (r : PauseReason) (i : Nat) : (s.imposePause r i).seat = s.seat := by
  unfold State.imposePause
  exact (seat_raise _ _).trans (seat_eq_of (by simp) (by simp))

theorem seat_pauseRunning (s : State) (r : PauseReason) : (s.pauseRunning r).seat = s.seat := by
  have hall (l : List Nat) (u : State) : (u.imposePauses r l).seat = u.seat := by
    induction l generalizing u with
    | nil => rfl
    | cons i l ih => exact (ih _).trans (seat_imposePause u r i)
  exact hall _ s

theorem seat_testMediaFull (s : State) (p : Bool) : (s.testMediaFull p).seat = s.seat := by
  unfold State.testMediaFull
  split
  · refine (seat_raise _ _).trans ?_
    split
    · exact seat_pauseRunning _ _
    · rfl
  · rfl

/-- A stream's take. -/
theorem seat_makeTake (s : State) (t : Take) (h : t.load = false) : (s.makeTake t).seat = s.seat := by
  have hrefuse : (s.refuseTake t).seat = s.seat := by
    unfold State.refuseTake
    rw [if_neg (by simp [h])]
    split
    · rfl
    · exact seat_raise _ _
  unfold State.makeTake
  split
  · exact seat_testMediaFull _ _
  · split
    · rfl
    · split
      · exact seat_testMediaFull _ _
      · exact hrefuse

theorem seat_drain : ∀ (l : List Entry) (seen : List Nat) (s : State), (s.drain seen l).1.seat = s.seat
  | [], _, _ => rfl
  | e :: es, seen, s => by
    unfold State.drain
    split
    · exact seat_drain es seen s
    · split
      · exact seat_drain es _ s
      · split
        · rfl
        · exact (seat_drain es _ _).trans (seat_makeTake s _ rfl)

theorem seat_countFairness (s : State) : s.countFairness.seat = s.seat := by
  unfold State.countFairness
  split <;> rfl

theorem seat_settleFairness (s : State) : s.settleFairness.seat = s.seat := by
  unfold State.settleFairness
  split <;> rfl

theorem seat_startVerify {s u : State} (h : s.startVerify = some u) : u.seat = s.seat := by
  unfold State.startVerify at h
  repeat' split at h
  all_goals cases h
  rfl

theorem seat_startIndex {s u : State} (h : s.startIndex = some u) : u.seat = s.seat := by
  unfold State.startIndex at h
  repeat' split at h
  all_goals cases h
  all_goals rfl

theorem seat_startMount {s u : State} (h : s.startMount = some u) : u.seat = s.seat := by
  unfold State.startMount at h
  obtain ⟨t, -, rfl⟩ := Option.map_eq_some_iff.mp h
  rfl

theorem seat_startTakes {s u : State} (h : s.startTakes = some u) : u.seat = s.seat := by
  have hone {t : Take} {v : State} (h : s.startTake t = some v) : v.seat = s.seat := by
    unfold State.startTake at h
    split at h
    · cases h; rfl
    · cases h; exact seat_countFairness s
    · cases h
    · cases h
  have hfirst (l : List Take) (h : s.startFirst l = some u) : u.seat = s.seat := by
    induction l with
    | nil => cases h
    | cons t ts ih =>
      unfold State.startFirst at h
      split at h
      · cases h
        exact hone ‹_›
      · exact ih h
  exact hfirst _ h

theorem seat_startRead {s u : State} (h : s.startRead = some u) : u.seat = s.seat := by
  unfold State.startRead at h
  repeat' split at h
  all_goals cases h
  rfl

theorem seat_startCommit (s : State) : s.startCommit.1.seat = s.seat := by
  have hdrain := seat_drain s.queue [] s
  unfold State.startCommit
  split
  · exact seat_startTakes ‹_›
  · split
    next v hv =>
      rw [hv] at hdrain
      exact (seat_countFairness v).trans hdrain
    next v hv =>
      rw [hv] at hdrain
      split
      · exact (seat_startTakes ‹_›).trans hdrain
      · exact hdrain

theorem seat_startAhead (s : State) : s.startAhead.seat = s.seat := by
  unfold State.startAhead
  dsimp only
  split
  · split <;> rfl
  · rfl

theorem seat_startLow (s : State) : s.startLow.seat = s.seat := by
  have hcommit := seat_startCommit s
  unfold State.startLow
  split
  next v hv =>
    split at hv
    · exact seat_startRead hv
    · cases hv
  · split
    next v hv =>
      rw [hv] at hcommit
      exact hcommit
    next v hv =>
      rw [hv] at hcommit
      split
      · exact (seat_startRead ‹_›).trans hcommit
      · exact (seat_startAhead v).trans hcommit

theorem seat_arbitrate (s : State) : s.arbitrate.seat = s.seat := by
  have hlow (u : State) : u.chooseLow.seat = u.seat := by
    unfold State.chooseLow
    split
    · exact seat_startIndex ‹_›
    · split
      · exact seat_startMount ‹_›
      · exact seat_startLow u
  unfold State.arbitrate
  split
  · rfl
  · unfold State.choose
    split
    · exact (seat_settleFairness _).trans (seat_startVerify ‹_›)
    · split
      · rfl
      · exact (hlow _).trans (seat_settleFairness s)

/-! ### The port (R70, R72, R73) -/

theorem arbitrate_of_closed {s : State} (h : s.media.op ≠ none ∨ s.media.hold = true ∨ s.power.state = .off) : s.arbitrate = s := by
  unfold State.arbitrate
  refine if_pos ?_
  simpa [Option.isSome_iff_ne_none, or_assoc] using h

theorem arbitrate_of_open {s : State} (hop : s.media.op = none) (hhold : s.media.hold = false) (hoff : s.power.state ≠ .off) :
    s.arbitrate = s.choose := by
  unfold State.arbitrate
  refine if_neg ?_
  simp [hop, hhold, hoff]

/-! ### The fairness count (R71) -/

/-- The fairness count as a choice sets it before it starts anything. -/
def State.calm (s : State) : Nat := if (s.engine.bind ReadContext.request).isSome then s.media.fairness else 0

/-- The fairness count as a commit-class program leaves it. -/
def State.raised (s : State) : Nat :=
  if (s.engine.bind ReadContext.request).isSome then min 4 (s.media.fairness + 1) else s.media.fairness

theorem readWaiting_eq (s : State) : s.readWaiting = (s.engine.bind ReadContext.request).isSome := by
  unfold State.readWaiting
  cases s.engine <;> rfl

theorem settleFairness_eq (s : State) : s.settleFairness = { s with media := { s.media with fairness := s.calm } } := by
  unfold State.settleFairness State.calm
  rw [readWaiting_eq]
  split <;> rfl

theorem countFairness_eq (s : State) : s.countFairness = { s with media := { s.media with fairness := s.raised } } := by
  unfold State.countFairness State.raised
  rw [readWaiting_eq]
  split <;> rfl

/-! ### Class 1 (R70, R76, R138) -/

theorem startVerify_of_suspect {s : State} {before after : List Entry} {e : Entry} {g p : Nat} (hq : s.queue = before ++ e :: after)
    (hbefore : ∀ x ∈ before, x.state ≠ .suspect) (he : e.state = .suspect) (ht : e.target = some (g, p))
    (hv : s.monitor.state = .verify) (hno : ∀ x ∈ s.queue, x.state ≠ .verifying) :
    s.startVerify = some ((s.modEntry e.buffer (fun x => { x with state := .verifying })).startOp (.verifyRead e.buffer g p) none) := by
  have hfind : s.queue.find? (fun x => x.state == .suspect) = some e :=
    List.find?_eq_some_iff_append.mpr ⟨by simpa using he, before, after, hq, fun x hx => by simpa using hbefore x hx⟩
  have hany : s.queue.any (fun x => x.state == .verifying) = false := by simpa using hno
  simp [State.startVerify, hv, hany, hfind, ht]

theorem startVerify_eq_none {s : State} (h : s.monitor.state ≠ .verify ∨ (∃ x ∈ s.queue, x.state = .verifying) ∨
    ∀ x ∈ s.queue, x.state ≠ .suspect) : s.startVerify = none := by
  unfold State.startVerify
  split
  next hc =>
    simp only [Bool.and_eq_true, beq_iff_eq, Bool.not_eq_true', List.any_eq_false] at hc
    obtain ⟨hv, hno⟩ := hc
    rcases h with hmon | ⟨x, hx, hstate⟩ | hnone
    · exact absurd hv hmon
    · exact absurd hstate (hno x hx)
    · have hfind : s.queue.find? (fun x => x.state == .suspect) = none := by simpa using hnone
      rw [hfind]
  next => rfl

theorem choose_of_verify {s u : State} (h : s.startVerify = some u) : s.choose = u.settleFairness := by
  unfold State.choose
  rw [h]

theorem choose_of_park {s : State} (h : s.startVerify = none) (hp : s.monitor.park = true) : s.choose = s := by
  simp [State.choose, h, hp]

theorem choose_of_low {s : State} (h : s.startVerify = none) (hp : s.monitor.park = false) :
    s.choose = s.settleFairness.chooseLow := by
  simp [State.choose, h, hp]

/-! ### Class 2 (R70, R96, R99, R102) -/

theorem chooseLow_of_index {s u : State} (h : s.startIndex = some u) : s.chooseLow = u := by
  unfold State.chooseLow
  rw [h]

theorem startIndex_of_erasing {s : State} {r : FormatRun} {g : Nat} (hr : s.formatRun = some r) (hst : r.stage = .erasing g) :
    s.startIndex = some ((s.setSegState g (if g < 4 then .index else .erasing)).startOp (.formatErase g) none) := by
  obtain ⟨stage, n⟩ := r
  cases hst
  unfold State.startIndex
  rw [hr]

section
variable {s : State} (h : ∀ r g, s.formatRun = some r → r.stage ≠ .erasing g)
include h

theorem startIndex_of_rollover_erase {c : Nat} (hc : s.log.rollover = .erase c) :
    s.startIndex = some (s.startOp (.indexErase c) none) := by
  unfold State.startIndex
  split
  next g n hr => exact absurd rfl (h _ g hr)
  next => rw [hc]

theorem startIndex_of_snapshot {c b : Nat} (hc : s.log.rollover = .program c b) :
    s.startIndex = some (s.startOp (.snapshotProgram c)
      (some (composePage (s.bufferBytes b) (s.indexTrailer 4 c 3680 (field (s.bufferBytes b) 16 4))))) := by
  unfold State.startIndex
  split
  next g n hr => exact absurd rfl (h _ g hr)
  next => rw [hc]

theorem startIndex_of_entry {e : IndexEntry} {rest : List IndexEntry} {g b : Nat} (hroll : s.log.rollover = .none)
    (hstage : s.log.stage = .request) (hw : s.log.waiting = e :: rest) (hg : s.log.current = some g) (hb : e.buffer = some b) :
    s.startIndex = some (State.startOp { s with log := { s.log with
        writePoint := s.log.writePoint + 1, stage := .inFlight, waiting := { e with issued := true } :: rest } }
      (.indexProgram g s.log.writePoint)
      (some (composePage (s.bufferBytes b) (s.indexTrailer 3 g (16 + e.body.bytes.length) (e.seq.getD 0))))) := by
  unfold State.startIndex
  split
  next g n hr => exact absurd rfl (h _ g hr)
  next =>
    rw [hroll, hstage, hw, hg]
    simp only [hb, markIssued]

theorem startIndex_of_idle (hidle : (∃ c, s.log.rollover = .waitBuffer c) ∨ (s.log.rollover = .none ∧
    (s.log.stage ≠ .request ∨ s.log.waiting = [] ∨ s.log.current = none))) : s.startIndex = none := by
  unfold State.startIndex
  split
  next g n hr => exact absurd rfl (h _ g hr)
  next =>
    rcases hidle with ⟨c, hroll⟩ | ⟨hroll, hrest⟩
    · rw [hroll]
    · rw [hroll]
      dsimp only
      split
      next e es g hstage hw hg => simp [hstage, hw, hg] at hrest
      next => rfl

end

/-! ### Class 3 (R70, R174) -/

theorem chooseLow_of_mount {s : State} {g p : Nat} (h : s.startIndex = none) (ht : s.mountTarget = some (g, p)) :
    s.chooseLow = s.startOp (.mountRead g p) none := by
  unfold State.chooseLow State.startMount
  rw [h, ht]
  rfl

theorem chooseLow_of_low {s : State} (h : s.startIndex = none) (ht : s.mountTarget = none) : s.chooseLow = s.startLow := by
  unfold State.chooseLow State.startMount
  rw [h, ht]
  rfl

/-! ### Class 4 (R64 to R66, R70) -/

/-- A take that asks for nothing: it waits on an erase-ahead, or is to be made again. -/
def Take.Waits (t : Take) : Prop := t.phase = .onAhead ∨ t.phase = .remake

theorem startTake_of_waits (s : State) {t : Take} (h : t.Waits) : s.startTake t = none := by
  unfold State.startTake
  rcases h with h | h
  · rw [h]
  · rw [h]

/-- The takes in the order in which they are looked at: a load's first. -/
def Media.takeOrder (m : Media) : List Take := m.takes.filter (fun t => t.load) ++ m.takes.filter (fun t => !t.load)

theorem mem_takeOrder (m : Media) (t : Take) : t ∈ m.takeOrder ↔ t ∈ m.takes := by
  unfold Media.takeOrder
  cases h : t.load <;> simp [h]

theorem startFirst_of_waits (s : State) (before l : List Take) (h : ∀ t ∈ before, t.Waits) :
    s.startFirst (before ++ l) = s.startFirst l := by
  induction before with
  | nil => rfl
  | cons t ts ih =>
    rw [List.cons_append, State.startFirst, startTake_of_waits s (h t (by simp))]
    exact ih (fun u hu => h u (by simp [hu]))

theorem startTakes_of_waits {s : State} (h : ∀ t ∈ s.media.takes, t.Waits) : s.startTakes = none := by
  have hall := startFirst_of_waits s s.media.takeOrder [] (fun t ht => h t ((mem_takeOrder _ t).mp ht))
  rw [List.append_nil] at hall
  exact hall

/-- The first take that asks for something gets it. -/
theorem startTakes_of_first {s u : State} {before after : List Take} {t : Take} (ho : s.media.takeOrder = before ++ t :: after)
    (hbefore : ∀ x ∈ before, x.Waits) (ht : s.startTake t = some u) : s.startTakes = some u := by
  have hskip := startFirst_of_waits s before (t :: after) hbefore
  rw [← ho, State.startFirst, ht] at hskip
  exact hskip

theorem startTake_of_erase (s : State) {t : Take} {g : Nat} (h : t.phase = .erase g) :
    s.startTake t = some { s with media := { s.media with op := some (.takeErase g), image := none } } := by
  unfold State.startTake
  rw [h]
  rfl

theorem startTake_of_header (s : State) {t : Take} {g : Nat} (h : t.phase = .header g) :
    s.startTake t = some { s with media := { s.media with
      op := some (.headerProgram g)
      image := some (s.headerImage t)
      fairness := s.raised } } := by
  unfold State.startTake
  rw [h]
  dsimp only
  rw [countFairness_eq]
  rfl

theorem startCommit_of_take {s u : State} (h : s.startTakes = some u) : s.startCommit = (u, true) := by
  unfold State.startCommit
  rw [h]

theorem startCommit_of_drain {s u : State} (h : s.startTakes = none) (hd : s.drain [] s.queue = (u, true)) :
    s.startCommit = ({ u with media := { u.media with fairness := u.raised } }, true) := by
  unfold State.startCommit
  rw [h, hd]
  dsimp only
  rw [countFairness_eq]

/-- A take that the drain made is a request in its turn. -/
theorem startCommit_of_made {s u w : State} (h : s.startTakes = none) (hd : s.drain [] s.queue = (u, false))
    (hu : u.startTakes = some w) : s.startCommit = (w, true) := by
  unfold State.startCommit
  rw [h, hd]
  dsimp only
  rw [hu]

theorem startCommit_of_nothing {s u : State} (h : s.startTakes = none) (hd : s.drain [] s.queue = (u, false))
    (hu : u.startTakes = none) : s.startCommit = (u, false) := by
  unfold State.startCommit
  rw [h, hd]
  dsimp only
  rw [hu]

/-! ### Classes 5 and 6 (R67, R70, R71) -/

theorem startRead_of_request {s : State} {c : ReadContext} {g p : Nat} (hc : s.engine = some c) (hr : c.request = some (g, p)) :
    s.startRead = some { s with media := { s.media with op := some (.engineRead g p false), image := none, fairness := 0 } } := by
  unfold State.startRead
  rw [hc]
  dsimp only
  rw [hr]
  rfl

theorem startRead_of_none {s : State} (h : s.engine.bind ReadContext.request = none) : s.startRead = none := by
  unfold State.startRead
  split
  next c hc =>
    rw [hc] at h
    split
    next r hr => exact absurd (h.symm.trans hr) (by simp)
    next => rfl
  next => rfl

/-- At the fairness count 4 the engine's read comes first. -/
theorem startLow_of_fairness {s u : State} (hf : s.media.fairness = 4) (hr : s.startRead = some u) : s.startLow = u := by
  unfold State.startLow
  rw [if_pos hf, hr]

theorem startLow_of_commit {s u : State} (hf : s.media.fairness ≠ 4) (hc : s.startCommit = (u, true)) : s.startLow = u := by
  unfold State.startLow
  rw [if_neg hf, hc]

theorem startLow_of_read {s u w : State} (hf : s.media.fairness ≠ 4) (hc : s.startCommit = (u, false)) (hr : u.startRead = some w) :
    s.startLow = w := by
  unfold State.startLow
  rw [if_neg hf, hc]
  dsimp only
  rw [hr]

theorem startLow_of_ahead {s u : State} (hf : s.media.fairness ≠ 4) (hc : s.startCommit = (u, false)) (hr : u.startRead = none) :
    s.startLow = u.startAhead := by
  unfold State.startLow
  rw [if_neg hf, hc]
  dsimp only
  rw [hr]

/-- What lets an erase-ahead start. -/
def State.FreeForAhead (s : State) : Prop :=
  s.media.ready.length < 4 ∧ s.media.takes = [] ∧ s.formatRun = none ∧ s.power.phase = .ready

theorem startAhead_of_free {s : State} {g : Nat} {rest : List Nat} (h : s.FreeForAhead) (hf : s.media.free = g :: rest) :
    s.startAhead = { s with media := { s.media with
      op := some (.aheadErase g)
      image := none
      free := rest
      segs := s.media.segs.modify g (fun x => { x with state := .erasing }) } } := by
  obtain ⟨hready, htakes, hformat, hphase⟩ := h
  simp [State.startAhead, hready, htakes, hformat, hphase, hf, State.startOp, State.setSegState, State.modSeg]

/-- Where every take waits, an erase-ahead starts only where there is none. -/
theorem startAhead_of_not_free {s : State} (hw : ∀ t ∈ s.media.takes, t.Waits) (h : ¬ s.FreeForAhead ∨ s.media.free = []) :
    s.startAhead = s := by
  unfold State.startAhead
  dsimp only
  split
  next hc =>
    simp only [Bool.and_eq_true, decide_eq_true_eq, Bool.not_eq_true', List.any_eq_false, Option.isNone_iff_eq_none, beq_iff_eq] at hc
    obtain ⟨⟨⟨hready, hnone⟩, hformat⟩, hphase⟩ := hc
    have htakes : s.media.takes = [] := List.eq_nil_iff_forall_not_mem.mpr fun t ht => by
      have hphase := hnone t ht
      rcases hw t ht with he | he <;> simp [he] at hphase
    have hfree : s.media.free = [] := h.resolve_left (fun hn => hn ⟨hready, htakes, hformat, hphase⟩)
    rw [hfree]
  next => rfl

end Sys2Proof.Machine
end

