-- ==== Sys2Proof/Proofs/DueSteps.lean ====
section
/-! PROOFS. The order of the steps that fall due (logs 1, 2), and the arbiter's choice put together (R47, R66, R67, R70 to R73, R168). -/

open Sys2Proof Sys2Proof.Machine

namespace Sys2Proof.Machine

/-! ### Rows and due steps (logs 1, 2) -/

theorem exec_dueRow (d : Due) (s : State) : exec d.row s = .next (s.makeIfDue d) := by
  cases d <;> rfl

/-- A row that is not a due step's acts on the settled state. -/
theorem exec_settle {c : Instr} {s : State} (hc : ∀ d : Due, c ≠ d.row) (h : s.settle.Settled) : exec c s = exec c s.settle := by
  have hs : s.settle.settle = s.settle := settle_of_settled h
  have hrow (f : State → State) :
      (Host.Outcome.next (f s.settle) : Host.Outcome State Fault Refusal) = .next (f s.settle.settle) := by rw [hs]
  have hcommand (o : Opcode) : exec o.row s = exec o.row s.settle := by
    rw [exec_row, exec_row]
    exact hrow (fun t => t.takeHead o o.rule)
  cases c with
  | powerOn n => exact hrow (fun t => t.powerOn n)
  | rstLine => exact hrow State.rst
  | frameArrival bytes => exact hrow (fun t => (t.arrive bytes).holdIdle)
  | sampleFrame => exact hrow (fun t => t.takeSample.holdIdle)
  | unknownOpcode => exact hrow State.takeUnknown
  | status => exact hcommand .status
  | linkReset => exact hcommand .linkReset
  | noticeMaskSet => exact hcommand .noticeMaskSet
  | noticeMaskClear => exact hcommand .noticeMaskClear
  | clockRead => exact hcommand .clockRead
  | clockSet => exact hcommand .clockSet
  | streamLoad => exact hcommand .streamLoad
  | streamStart => exact hcommand .streamStart
  | streamPause => exact hcommand .streamPause
  | streamStop => exact hcommand .streamStop
  | streamClear => exact hcommand .streamClear
  | streamRead => exact hcommand .streamRead
  | surveyOpen => exact hcommand .surveyOpen
  | surveyClose => exact hcommand .surveyClose
  | surveyThresholds => exact hcommand .surveyThresholds
  | surveyLock => exact hcommand .surveyLock
  | surveyErase => exact hcommand .surveyErase
  | surveyList => exact hcommand .surveyList
  | readRecords => exact hcommand .readRecords
  | dropsRead => exact hcommand .dropsRead
  | gaugeRead => exact hcommand .gaugeRead
  | setLevels => exact hcommand .setLevels
  | setShock => exact hcommand .setShock
  | setGauge => exact hcommand .setGauge
  | doze => exact hcommand .doze
  | format => exact hcommand .format
  | tickBoundary => exact hrow (fun t => t.tick.holdIdle)
  | shockTrigger => exact absurd rfl (hc .shockTrigger)
  | gaugeTrigger => exact absurd rfl (hc .gaugeTrigger)
  | retire => exact absurd rfl (hc .retire)
  | idleTimerExpiry => exact absurd rfl (hc .idleTimerExpiry)
  | reportAlarm => exact absurd rfl (hc .reportAlarm)
  | shockScanEnd ax ay az vhold => exact hrow (fun t => (t.shockEnd ax ay az vhold).holdIdle)
  | gaugeScanEnd vhold vpack ipack tpack zeroRef fullRef =>
    exact hrow (fun t => (t.gaugeEnd vhold vpack ipack tpack zeroRef fullRef).holdIdle)
  | startUpSelfCheckEnd zeroRef fullRef => exact hrow (fun t => (t.startUpEnd zeroRef fullRef).holdIdle)
  | dataPageProgramEnd ok => exact hrow (fun t => (t.endDataProgram ok).holdIdle)
  | headerProgramEnd ok => exact hrow (fun t => (t.endHeaderProgram ok).holdIdle)
  | segmentEraseEnd ok => exact hrow (fun t => (t.endSegmentErase ok).holdIdle)
  | formatEraseEnd ok => exact hrow (fun t => (t.endFormatErase ok).holdIdle)
  | indexEntryProgramEnd ok => exact hrow (fun t => (t.endIndexEntry ok).holdIdle)
  | indexSegmentEraseEnd ok => exact hrow (fun t => (t.endIndexErase ok).holdIdle)
  | snapshotProgramEnd ok => exact hrow (fun t => (t.endSnapshot ok).holdIdle)
  | verificationReadEnd r => exact hrow (fun t => (t.endVerification r).holdIdle)
  | readEngineReadEnd r => exact hrow (fun t => (t.endEngineRead r).holdIdle)
  | mountReadEnd r => exact hrow (fun t => (t.endMountRead r).holdIdle)
  | operationTimeout => exact hrow (fun t => t.timeout.holdIdle)
  | wakeWaitEnd => exact hrow (fun t => t.wakeEnd.holdIdle)
  | frameSent => exact hrow (fun t => t.sendFrame.holdIdle)
  | bufferGrant => exact absurd rfl (hc .bufferGrant)
  | stopComplete => exact absurd rfl (hc .stopComplete)
  | surveyClosedEntryRequest => exact absurd rfl (hc .surveyClosedEntryRequest)
  | dozeEntryComplete => exact absurd rfl (hc .dozeEntryComplete)
  | shutdownPowerDownRequest => exact absurd rfl (hc .shutdownPowerDownRequest)
  | pwrKeepRelease => exact absurd rfl (hc .pwrKeepRelease)

/-- A step with one due step before it is made second. -/
theorem makeIfDue_after {s : State} {d e : Due} (hd : s.isDue d = true) (he : s.due = some e) (hne : e ≠ d)
    (hnext : (s.make e).holdIdle.due = some d) : s.makeIfDue d = (((s.make e).holdIdle).make d).holdIdle := by
  have hd' : (s.make e).holdIdle.isDue d = true := List.find?_some hnext
  unfold State.makeIfDue State.makeFor
  simp only [hd, if_true, he, if_neg hne]
  unfold State.makeFor
  simp only [hd', if_true, hnext]

theorem holdIdle_field (s : State) :
    s.holdIdle = { s with power := { s.power with idleTimer := if s.idleHeld = true then 0 else s.power.idleTimer } } := by
  unfold State.holdIdle
  split <;> rfl

/-! ### Classes 4 to 6 put together -/

/-- Where a choice is what the takes of `u` ask for, it is the erase or header program of the first take that does not wait. -/
theorem choice_of_takes {u r : State} (h : ∀ w, u.startTakes = some w → r = w) {before after : List Take} {t : Take}
    (ho : u.media.takeOrder = before ++ t :: after) (hbefore : ∀ x ∈ before, x.Waits) :
    (∀ g, t.phase = .erase g → r = { u with media := { u.media with op := some (.takeErase g), image := none } }) ∧
    (∀ g, t.phase = .header g → r = { u with media := { u.media with
      op := some (.headerProgram g), image := some (u.headerImage t), fairness := u.raised } }) :=
  ⟨fun _ hg => h _ (startTakes_of_first ho hbefore (startTake_of_erase u hg)),
    fun _ hg => h _ (startTakes_of_first ho hbefore (startTake_of_header u hg))⟩

/-- Below the fairness count 4, a take that asks for something is served before the drain. -/
theorem startLow_of_takes {s w : State} (hf : s.media.fairness ≠ 4) (h : s.startTakes = some w) : s.startLow = w :=
  startLow_of_commit hf (startCommit_of_take h)

/-- Then a take that the drain made. -/
theorem startLow_of_made {s u w : State} (hf : s.media.fairness ≠ 4) (hw : ∀ t ∈ s.media.takes, t.Waits)
    (hd : s.drain [] s.queue = (u, false)) (h : u.startTakes = some w) : s.startLow = w :=
  startLow_of_commit hf (startCommit_of_made (startTakes_of_waits hw) hd h)

/-! ### What a take's header page reads (R65), and mount's next page (R175 to R177) -/

/-- A load's take: the first segment, and the descriptor of its STREAM-LOAD. -/
theorem takeParts_of_load (s : State) (t : Take) (h : t.load = true) :
    s.takeSeq t = 0 ∧ ∀ o i d, s.slot = some o → o.request = .streamLoad i d → s.takeDescriptor t = some d := by
  refine ⟨by simp [State.takeSeq, h], fun o i d ho hr => ?_⟩
  simp [State.takeDescriptor, h, ho, hr]

/-- A stream's take: the segment after the tail, and the slot's descriptor. -/
theorem takeParts_of_stream (s : State) (t : Take) (h : t.load = false) : s.takeDescriptor t = (s.slotAt t.slot).desc ∧
    ∀ tail c, s.tailOf t.survey t.index = some tail → s.chainAt tail = some c → s.takeSeq t = c.seq + 1 := by
  refine ⟨by simp [State.takeDescriptor, h], fun tail c htail hc => ?_⟩
  simp [State.takeSeq, h, htail, hc]

/-- The page that mount reads next in the first chain still left. -/
theorem mountTarget_of_chain (s : State) (survey index : Nat) (left : List (Nat × Nat)) (done : List ChainResult) :
    (∀ low high probed tail, s.tailOf survey index = some tail →
      (s.mount = .chains ((survey, index) :: left) (.writePoint low high false probed) done →
        s.mountTarget = some (tail, (low + high) / 2)) ∧
      (s.mount = .chains ((survey, index) :: left) (.writePoint low high true probed) done →
        s.mountTarget = some (tail, (low + high) / 2 + 1))) ∧
    (∀ p ps count tail, s.tailOf survey index = some tail →
      s.mount = .chains ((survey, index) :: left) (.voids (p :: ps) count) done → s.mountTarget = some (tail, p)) ∧
    (∀ g p best marks, s.mount = .chains ((survey, index) :: left) (.last g p best marks) done → s.mountTarget = some (g, p)) ∧
    (∀ g p best marks, s.mount = .chains ((survey, index) :: left) (.output g p best marks) done → s.mountTarget = some (g, p)) := by
  refine ⟨fun low high probed tail ht => ⟨fun h => ?_, fun h => ?_⟩, fun p ps count tail ht h => ?_, fun g p best marks h => ?_,
    fun g p best marks h => ?_⟩
  · simp [State.mountTarget, h, ht, middle]
  · simp [State.mountTarget, h, ht, middle]
  · simp [State.mountTarget, h, ht]
  · simp [State.mountTarget, h]
  · simp [State.mountTarget, h]

theorem mountTarget_of_restore {s : State} {c : ChainResult} {left : List ChainResult} {read : List (ChainResult × Descriptor)}
    {done : List ChainResult} {tail : Nat} (h : s.mount = .restore (c :: left) read done) (ht : s.tailOf c.survey c.index = some tail) :
    s.mountTarget = some (tail, 0) := by
  simp [State.mountTarget, h, ht]

/-- Settles O3, clause by clause: the rows and the due steps, the idle timer, what the arbiter leaves alone, its classes in their order (each
by its own lemma of the arbiter), and the pages that a take and mount name. -/
theorem dueSteps : Obligations.DueSteps := by
  unfold Obligations.DueSteps
  refine ⟨fun c s hc h => exec_settle hc h, fun d s h => ?_, fun d s h => ?_, fun d e s hd he hne hnext => ?_, holdIdle_field, fun s => ?_,
    fun s => ⟨arbitrate_of_closed, fun hop hhold hoff => ?_⟩, fun s t => ?_, fun s => ?_⟩
  · rw [exec_dueRow, makeIfDue_of_not h]
  · rw [exec_dueRow, makeIfDue_of_due h]
  · rw [exec_dueRow, makeIfDue_after hd he hne hnext]
  · obtain ⟨hport, hflash, hhold⟩ := (seat_iff s s.arbitrate).mp (seat_arbitrate s)
    intro t
    exact ⟨by simp [t], by simp [t], by simp [t], by simp [t], by simp [t], by simp [t], by simp [t], by simp [t], by simp [t], by simp [t],
      hport, hflash, hhold⟩
  · intro calm begins
    have hopen : s.arbitrate = s.choose := arbitrate_of_open hop hhold hoff
    refine ⟨fun before e after g p hq hbefore he ht hv hno => ?_, fun hnone => ⟨fun hpark => ?_, fun hpark => ?_⟩⟩
    · rw [hopen, choose_of_verify (startVerify_of_suspect hq hbefore he ht hv hno), settleFairness_eq]
      rfl
    · rw [hopen, choose_of_park (startVerify_eq_none hnone) hpark]
    · let v : State := { s with media := { s.media with fairness := calm } }
      have hlow : s.arbitrate = v.chooseLow := by
        rw [hopen, choose_of_low (startVerify_eq_none hnone) hpark, settleFairness_eq]
        rfl
      rw [hlow]
      refine ⟨fun r g hr hst => ?_, fun hformat => ⟨fun c hc => ?_, fun c b hc => ?_, fun e rest g b hroll hstage hw hg hb => ?_, fun hidle => ?_⟩⟩
      · exact chooseLow_of_index (startIndex_of_erasing (s := v) hr hst)
      · exact chooseLow_of_index (startIndex_of_rollover_erase (s := v) hformat hc)
      · exact chooseLow_of_index (startIndex_of_snapshot (s := v) hformat hc)
      · exact chooseLow_of_index (startIndex_of_entry (s := v) hformat hroll hstage hw hg hb)
      · have hindex : v.startIndex = none := startIndex_of_idle (s := v) hformat hidle
        refine ⟨fun g p ht => chooseLow_of_mount (s := v) hindex ht, fun ht => ?_⟩
        rw [chooseLow_of_low (s := v) hindex ht]
        intro v' raised waits starts reads d
        have hcalm : v.media.fairness = calm := rfl
        have hraised {u : State} (hu : u.engine = s.engine) : u.raised = raised u := by
          simp only [State.raised, raised, hu]
        have hstarts {u : State} (hu : u.engine = s.engine) (h : ∀ w, u.startTakes = some w → v.startLow = w) : starts u := by
          intro before t after ho hbefore
          obtain ⟨herase, hheader⟩ := choice_of_takes h ho hbefore
          refine ⟨herase, fun g hg => ?_⟩
          rw [hheader g hg, hraised hu]
          rfl
        have hreads {u : State} (hu : u.engine = s.engine) (h : ∀ w, u.startRead = some w → v.startLow = w) : reads u :=
          fun c g p hc hr => h _ (startRead_of_request (hu.trans hc) hr)
        have hengine : d.1.engine = s.engine := by simp [d, v']
        refine ⟨fun h4 => hreads rfl fun w => startLow_of_fairness (hcalm.trans h4), fun hne => ⟨hstarts rfl fun w => startLow_of_takes hne,
          fun hwaits => ⟨fun hd => ?_, fun hd => ?_⟩⟩⟩
        · have hdrain : v.drain [] v.queue = (d.1, true) := Prod.ext rfl hd
          rw [startLow_of_commit (s := v) hne (startCommit_of_drain (startTakes_of_waits (s := v) hwaits) hdrain), hraised hengine]
        · have hdrain : v.drain [] v.queue = (d.1, false) := Prod.ext rfl hd
          refine ⟨hstarts hengine fun w => startLow_of_made hne hwaits hdrain, fun hwaits' => ?_⟩
          have hcommit : v.startCommit = (d.1, false) :=
            startCommit_of_nothing (startTakes_of_waits hwaits) hdrain (startTakes_of_waits hwaits')
          refine ⟨hreads hengine fun w => startLow_of_read hne hcommit, fun hrequest => ?_⟩
          intro free
          have hfree : free ↔ d.1.FreeForAhead := by simp [free, State.FreeForAhead, d, v']
          rw [startLow_of_ahead hne hcommit (startRead_of_none (by rw [hengine]; exact hrequest))]
          exact ⟨fun g rest h => startAhead_of_free (hfree.mp h),
            fun h => startAhead_of_not_free hwaits' (h.imp_left (mt hfree.mpr))⟩
  · exact ⟨takeParts_of_load s t, takeParts_of_stream s t⟩
  · refine ⟨fun next best h => ?_, fun g p expect passed h => ?_, fun next h => ?_, mountTarget_of_chain s,
      fun c left read done tail => mountTarget_of_restore, fun h => ?_⟩
    all_goals simp [State.mountTarget, h]

end Sys2Proof.Machine
end

