-- ==== Sys2Proof/Proofs/FlashFrame.lean ====
section
/-! PROOFS. Which operations touch no page of the flash array, in the order of the model, and whose pages the end of an operation
leaves as the end of its program or its erase does. -/

open Sys2Proof Sys2Proof.Machine

namespace Sys2Proof.Machine

@[simp] theorem countVoid_flash (s : State) (g : Nat) : (s.countVoid g).media.flash = s.media.flash := by
  unfold State.countVoid
  dsimp only
  repeat' split
  all_goals simp

@[simp] theorem testMediaFull_flash (s : State) (pausing : Bool) : (s.testMediaFull pausing).media.flash = s.media.flash := by
  unfold State.testMediaFull
  repeat' split
  all_goals simp

@[simp] theorem testMediaAvailable_flash (s : State) : s.testMediaAvailable.media.flash = s.media.flash := by
  unfold State.testMediaAvailable
  split <;> simp

@[simp] theorem putTake_flash (s : State) (t : Take) : (s.putTake t).media.flash = s.media.flash := by
  unfold State.putTake
  simp

@[simp] theorem dropTake_flash (s : State) (t : Take) : (s.dropTake t).media.flash = s.media.flash := by
  unfold State.dropTake
  simp

@[simp] theorem refuseTake_flash (s : State) (t : Take) : (s.refuseTake t).media.flash = s.media.flash := by
  unfold State.refuseTake
  dsimp only
  repeat' split
  all_goals simp

@[simp] theorem makeTake_flash (s : State) (t : Take) : (s.makeTake t).media.flash = s.media.flash := by
  unfold State.makeTake
  repeat' split
  all_goals simp

@[simp] theorem remakeTakes_flash (s : State) (l : List Take) : (s.remakeTakes l).media.flash = s.media.flash := by
  induction l generalizing s with
  | nil => simp [State.remakeTakes]
  | cons a l ih => simp [State.remakeTakes, ih]

@[simp] theorem offerTakes_flash (s : State) (l : List Nat) : (s.offerTakes l).media.flash = s.media.flash := by
  induction l generalizing s with
  | nil => simp [State.offerTakes]
  | cons a l ih =>
    unfold State.offerTakes
    split <;> simp [ih]

@[simp] theorem offerAll_flash (s : State) : s.offerAll.media.flash = s.media.flash := by
  unfold State.offerAll
  simp

@[simp] theorem joinChain_flash (s : State) (g : Nat) (t : Take) : (s.joinChain g t).media.flash = s.media.flash := by
  unfold State.joinChain
  split <;> simp

@[simp] theorem completeLoad_flash (s : State) (g : Nat) (t : Take) : (s.completeLoad g t).media.flash = s.media.flash := by
  unfold State.completeLoad
  split <;> simp

@[simp] theorem rejectHeader_flash (s : State) (g : Nat) : (s.rejectHeader g).media.flash = s.media.flash := by
  unfold State.rejectHeader
  repeat' split
  all_goals simp

@[simp] theorem headerEnd_flash (s : State) (g : Nat) (ok : Bool) : (s.headerEnd g ok).media.flash = (s.endProgram g 0 ok).media.flash := by
  unfold State.headerEnd
  dsimp only
  repeat' split
  all_goals simp

@[simp] theorem badErase_flash (s : State) (g : Nat) : (s.badErase g).media.flash = s.media.flash := by
  unfold State.badErase
  simp

@[simp] theorem aheadEnd_flash (s : State) (g : Nat) (ok : Bool) : (s.aheadEnd g ok).media.flash = (s.endErase g ok).media.flash := by
  unfold State.aheadEnd
  dsimp only
  repeat' split
  all_goals simp

@[simp] theorem takeEraseEnd_flash (s : State) (g : Nat) (ok : Bool) :
    (s.takeEraseEnd g ok).media.flash = (s.endErase g ok).media.flash := by
  unfold State.takeEraseEnd
  dsimp only
  repeat' split
  all_goals simp

@[simp] theorem returnErasing_flash (s : State) (g : Nat) : (s.returnErasing g).media.flash = s.media.flash := by
  unfold State.returnErasing
  simp

@[simp] theorem parkLowered_flash (s : State) : s.parkLowered.media.flash = s.media.flash := by
  unfold State.parkLowered
  simp

@[simp] theorem releaseChains_flash (s : State) (survey : Nat) : (s.releaseChains survey).media.flash = s.media.flash := by
  unfold State.releaseChains
  simp

@[simp] theorem arbitrate_flash (s : State) : s.arbitrate.media.flash = s.media.flash := by
  obtain ⟨-, hflash, -⟩ := (seat_iff s s.arbitrate).mp (seat_arbitrate s)
  exact hflash

@[simp] theorem powerDownEnded_flash (s : State) (left : Nat) : (s.powerDownEnded left).media.flash = s.media.flash := by
  unfold State.powerDownEnded
  split <;> simp

@[simp] theorem giveUp_flash (s : State) (left : Nat) (body : EntryBody) : (s.giveUp left body).media.flash = s.media.flash := by
  unfold State.giveUp
  split <;> simp

@[simp] theorem durable_flash (s : State) (body : EntryBody) : (s.durable body).media.flash = s.media.flash := by
  unfold State.durable
  split <;> simp

@[simp] theorem giveUpList_flash (s : State) (left : Nat) (l : List IndexEntry) : (s.giveUpList left l).media.flash = s.media.flash := by
  induction l generalizing s left with
  | nil => simp [State.giveUpList]
  | cons a l ih => simp [State.giveUpList, ih]

@[simp] theorem giveUpAll_flash (s : State) (left : Nat) : (s.giveUpAll left).media.flash = s.media.flash := by
  unfold State.giveUpAll
  simp

@[simp] theorem enterLogFailed_flash (s : State) : s.enterLogFailed.media.flash = s.media.flash := by
  unfold State.enterLogFailed
  dsimp only
  split <;> simp

@[simp] theorem nextRollover_flash (s : State) : s.nextRollover.media.flash = s.media.flash := by
  unfold State.nextRollover
  split <;> simp

@[simp] theorem headReady_flash (s : State) : s.headReady.media.flash = s.media.flash := by
  unfold State.headReady
  split <;> simp

@[simp] theorem grantEntry_flash (s : State) (b : Nat) : (s.grantEntry b).media.flash = s.media.flash := by
  unfold State.grantEntry
  split <;> simp

@[simp] theorem askEntry_flash (s : State) : s.askEntry.media.flash = s.media.flash := by
  unfold State.askEntry
  repeat' split
  all_goals simp

@[simp] theorem pumpLog_flash (s : State) : s.pumpLog.media.flash = s.media.flash := by
  unfold State.pumpLog
  repeat' split
  all_goals simp

@[simp] theorem requestEntry_flash (s : State) (body : EntryBody) : (s.requestEntry body).media.flash = s.media.flash := by
  unfold State.requestEntry
  dsimp only
  repeat' split
  all_goals simp

@[simp] theorem entryDurable_flash (s : State) (e : IndexEntry) : (s.entryDurable e).media.flash = s.media.flash := by
  unfold State.entryDurable
  simp

@[simp] theorem entryFailed_flash (s : State) (e : IndexEntry) : (s.entryFailed e).media.flash = s.media.flash := by
  unfold State.entryFailed
  split <;> simp

@[simp] theorem indexProgramEnd_flash (s : State) (g p : Nat) (ok : Bool) :
    (s.indexProgramEnd g p ok).media.flash = (s.endProgram g p ok).media.flash := by
  unfold State.indexProgramEnd
  dsimp only
  repeat' split
  all_goals simp

@[simp] theorem failCandidate_flash (s : State) (c : Nat) : (s.failCandidate c).media.flash = s.media.flash := by
  unfold State.failCandidate
  simp

@[simp] theorem indexEraseEnd_flash (s : State) (c : Nat) (ok : Bool) :
    (s.indexEraseEnd c ok).media.flash = (s.endErase c ok).media.flash := by
  unfold State.indexEraseEnd
  split <;> simp

@[simp] theorem snapshotEnd_flash (s : State) (c : Nat) (ok : Bool) :
    (s.snapshotEnd c ok).media.flash = (s.endProgram c 0 ok).media.flash := by
  unfold State.snapshotEnd
  dsimp only
  repeat' split
  all_goals simp

@[simp] theorem abandonDoze_flash (s : State) : s.abandonDoze.media.flash = s.media.flash := by
  unfold State.abandonDoze
  split <;> simp

@[simp] theorem dozeStep_flash (s : State) : s.dozeStep.media.flash = s.media.flash := by
  unfold State.dozeStep
  repeat' split
  all_goals simp

@[simp] theorem askShutdown_flash (s : State) : s.askShutdown.media.flash = s.media.flash := by
  unfold State.askShutdown
  repeat' split
  all_goals simp

@[simp] theorem cancelShutdown_flash (s : State) : s.cancelShutdown.media.flash = s.media.flash := by
  unfold State.cancelShutdown
  dsimp only
  repeat' split
  all_goals simp

@[simp] theorem keepStep_flash (s : State) : s.keepStep.media.flash = s.media.flash := by
  unfold State.keepStep
  split <;> simp

@[simp] theorem endWake_flash (s : State) : s.endWake.media.flash = s.media.flash := by
  unfold State.endWake
  simp

@[simp] theorem frameKept_flash (s : State) : s.frameKept.media.flash = s.media.flash := by
  unfold State.frameKept
  dsimp only
  split <;> simp

@[simp] theorem finishDrop_flash (s : State) (unresolved : Nat) : (s.finishDrop unresolved).media.flash = s.media.flash := by
  unfold State.finishDrop
  split <;> simp

@[simp] theorem enterWatch_flash (s : State) : s.enterWatch.media.flash = s.media.flash := by
  unfold State.enterWatch
  simp

@[simp] theorem judgeVerify_flash (s : State) : s.judgeVerify.media.flash = s.media.flash := by
  unfold State.judgeVerify
  split <;> simp

@[simp] theorem enterVerify_flash (s : State) : s.enterVerify.media.flash = s.media.flash := by
  unfold State.enterVerify
  simp

@[simp] theorem judgeSettle_flash (s : State) (v : ScanView) : (s.judgeSettle v).media.flash = s.media.flash := by
  unfold State.judgeSettle
  dsimp only
  split <;> simp

@[simp] theorem scanImpact_flash (s : State) (v : ScanView) : (s.scanImpact v).media.flash = s.media.flash := by
  unfold State.scanImpact
  simp

@[simp] theorem goImpact_flash (s : State) (v : ScanView) : (s.goImpact v).media.flash = s.media.flash := by
  unfold State.goImpact
  simp

@[simp] theorem scanFalling_flash (s : State) (v : ScanView) : (s.scanFalling v).media.flash = s.media.flash := by
  unfold State.scanFalling
  dsimp only
  repeat' split
  all_goals simp

@[simp] theorem scanSettling_flash (s : State) (v : ScanView) : (s.scanSettling v).media.flash = s.media.flash := by
  unfold State.scanSettling
  split <;> simp

@[simp] theorem levelChanged_flash (s : State) (old : BatteryLevel) : (s.levelChanged old).media.flash = s.media.flash := by
  unfold State.levelChanged
  dsimp only
  repeat' split
  all_goals simp

@[simp] theorem gaugeScan_flash (s : State) (vhold vpack ipack tpack interval : Nat) :
    (s.gaugeScan vhold vpack ipack tpack interval).media.flash = s.media.flash := by
  unfold State.gaugeScan
  dsimp only
  repeat' split
  all_goals simp

@[simp] theorem engineReadEnd_flash (s : State) (g p : Nat) (discard : Bool) (r : ReadOutcome) :
    (s.engineReadEnd g p discard r).media.flash = s.media.flash := by
  unfold State.engineReadEnd
  dsimp only
  repeat' split
  all_goals simp

@[simp] theorem becomeReady_flash (s : State) (restored notRestored : Nat) :
    (s.becomeReady restored notRestored).media.flash = s.media.flash := by
  unfold State.becomeReady
  simp

@[simp] theorem mountUnformatted_flash (s : State) : s.mountUnformatted.media.flash = s.media.flash := by
  unfold State.mountUnformatted
  simp

@[simp] theorem loadSnapshot_flash (s : State) (c : SnapshotCandidate) : (s.loadSnapshot c).media.flash = s.media.flash := by
  unfold State.loadSnapshot
  simp

@[simp] theorem placeHeader_flash (s : State) (g : Nat) (r : PageResult) : (s.placeHeader g r).media.flash = s.media.flash := by
  unfold State.placeHeader
  repeat' split
  all_goals simp

@[simp] theorem restoreOne_flash (s : State) (i : Nat) (r : ChainResult) (d : Descriptor) :
    (s.restoreOne i r d).media.flash = s.media.flash := by
  unfold State.restoreOne
  dsimp only
  split <;> simp

@[simp] theorem restoreAll_flash (s : State) (i : Nat) (l : List (ChainResult × Descriptor)) :
    (s.restoreAll i l).media.flash = s.media.flash := by
  induction l generalizing s i with
  | nil => simp [State.restoreAll]
  | cons a l ih => simp [State.restoreAll, ih]

@[simp] theorem endChains_flash (s : State) (done : List ChainResult) : (s.endChains done).media.flash = s.media.flash := by
  unfold State.endChains
  split <;> simp

@[simp] theorem nextChain_flash (s : State) (left : List (Nat × Nat)) (done : List ChainResult) :
    (s.nextChain left done).media.flash = s.media.flash := by
  unfold State.nextChain
  split <;> simp

@[simp] theorem chainDone_flash (s : State) (left : List (Nat × Nat)) (done : List ChainResult) (r : ChainResult) :
    (s.chainDone left done r).media.flash = s.media.flash := by
  unfold State.chainDone
  simp

@[simp] theorem lastKnown_flash (s : State) (survey index : Nat) (left : List (Nat × Nat)) (done : List ChainResult) (b : LastPage)
    (marks : List IndexMark) (page : Option (Trailer × List Byte)) (before : Option (Nat × Nat)) :
    (s.lastKnown survey index left done b marks page before).media.flash = s.media.flash := by
  unfold State.lastKnown
  repeat' split
  all_goals simp

@[simp] theorem lastRead_flash (s : State) (survey index : Nat) (left : List (Nat × Nat)) (done : List ChainResult)
    (best : Option LastPage) (marks : List IndexMark) (page : Option (Trailer × List Byte)) (before : Option (Nat × Nat)) :
    (s.lastRead survey index left done best marks page before).media.flash = s.media.flash := by
  unfold State.lastRead
  split <;> simp

@[simp] theorem startLast_flash (s : State) (survey index : Nat) (left : List (Nat × Nat)) (done : List ChainResult) :
    (s.startLast survey index left done).media.flash = s.media.flash := by
  unfold State.startLast
  repeat' split
  all_goals simp

@[simp] theorem voidsKnown_flash (s : State) (survey index : Nat) (left : List (Nat × Nat)) (done : List ChainResult) (count : Nat) :
    (s.voidsKnown survey index left done count).media.flash = s.media.flash := by
  unfold State.voidsKnown
  repeat' split
  all_goals simp

@[simp] theorem pointKnown_flash (s : State) (survey index : Nat) (left : List (Nat × Nat)) (done : List ChainResult) (w : Nat)
    (probed : List (Nat × Bool)) :
    (s.pointKnown survey index left done w probed).media.flash = s.media.flash := by
  unfold State.pointKnown
  dsimp only
  repeat' split
  all_goals simp

@[simp] theorem searchPoint_flash (s : State) (survey index : Nat) (left : List (Nat × Nat)) (done : List ChainResult) (low high : Nat)
    (probed : List (Nat × Bool)) :
    (s.searchPoint survey index left done low high probed).media.flash = s.media.flash := by
  unfold State.searchPoint
  split <;> simp

@[simp] theorem chainRead_flash (s : State) (survey index : Nat) (left : List (Nat × Nat)) (done : List ChainResult) (work : ChainWork)
    (r : PageResult) :
    (s.chainRead survey index left done work r).media.flash = s.media.flash := by
  unfold State.chainRead
  dsimp only
  repeat' split
  all_goals simp

@[simp] theorem buildChains_flash (s : State) : s.buildChains.media.flash = s.media.flash := by
  unfold State.buildChains
  simp

@[simp] theorem nextHeader_flash (s : State) (g : Nat) : (s.nextHeader g).media.flash = s.media.flash := by
  unfold State.nextHeader
  split <;> simp

@[simp] theorem endReplay_flash (s : State) (g writePoint nextSeq : Nat) :
    (s.endReplay g writePoint nextSeq).media.flash = s.media.flash := by
  unfold State.endReplay
  simp

@[simp] theorem replayOn_flash (s : State) (g page expect : Nat) (passed : Option Bool) :
    (s.replayOn g page expect passed).media.flash = s.media.flash := by
  unfold State.replayOn
  split <;> simp

@[simp] theorem replayRead_flash (s : State) (g page expect : Nat) (passed : Option Bool) (r : PageResult) :
    (s.replayRead g page expect passed r).media.flash = s.media.flash := by
  unfold State.replayRead
  repeat' split
  all_goals simp

@[simp] theorem endRestore_flash (s : State) (read : List (ChainResult × Descriptor)) (done : List ChainResult) :
    (s.endRestore read done).media.flash = s.media.flash := by
  unfold State.endRestore
  simp

@[simp] theorem mountReadEnd_flash (s : State) (g p : Nat) (o : ReadOutcome) : (s.mountReadEnd g p o).media.flash = s.media.flash := by
  unfold State.mountReadEnd
  dsimp only
  repeat' split
  all_goals simp

@[simp] theorem formatTables_flash (s : State) (n : Nat) : (s.formatTables n).media.flash = s.media.flash := by
  unfold State.formatTables
  simp

@[simp] theorem formatLog_flash (s : State) : s.formatLog.media.flash = s.media.flash := by
  unfold State.formatLog
  simp

@[simp] theorem formatBegin_flash (s : State) (r : FormatRun) : (s.formatBegin r).media.flash = s.media.flash := by
  unfold State.formatBegin
  simp

@[simp] theorem formatGate_flash (s : State) : s.formatGate.media.flash = s.media.flash := by
  unfold State.formatGate
  repeat' split
  all_goals simp

@[simp] theorem startFormat_flash (s : State) (n : Nat) : (s.startFormat n).media.flash = s.media.flash := by
  unfold State.startFormat
  simp

@[simp] theorem formatEraseEnd_flash (s : State) (g : Nat) (ok : Bool) :
    (s.formatEraseEnd g ok).media.flash = (s.endErase g ok).media.flash := by
  unfold State.formatEraseEnd
  dsimp only
  repeat' split
  all_goals simp

@[simp] theorem makeIdleExpiry_flash (s : State) : s.makeIdleExpiry.media.flash = s.media.flash := by
  unfold State.makeIdleExpiry
  simp

@[simp] theorem grantIndex_flash (s : State) (b : Nat) (w : IndexWaiter) : (s.grantIndex b w).media.flash = s.media.flash := by
  unfold State.grantIndex
  repeat' split
  all_goals simp

@[simp] theorem makeGrant_flash (s : State) : s.makeGrant.media.flash = s.media.flash := by
  unfold State.makeGrant
  split <;> simp

@[simp] theorem fillTail_flash (s : State) (d : Descriptor) : (s.fillTail d).media.flash = s.media.flash := by
  unfold State.fillTail
  split <;> simp

@[simp] theorem completeStop_flash (s : State) (i : Nat) : (s.completeStop i).media.flash = s.media.flash := by
  unfold State.completeStop
  split <;> simp

@[simp] theorem makeStopComplete_flash (s : State) : s.makeStopComplete.media.flash = s.media.flash := by
  unfold State.makeStopComplete
  split <;> simp

@[simp] theorem makeClosedEntry_flash (s : State) : s.makeClosedEntry.media.flash = s.media.flash := by
  unfold State.makeClosedEntry
  split <;> simp

@[simp] theorem makePowerDown_flash (s : State) : s.makePowerDown.media.flash = s.media.flash := by
  unfold State.makePowerDown
  simp

@[simp] theorem make_flash (s : State) (l : Due) : (s.make l).media.flash = s.media.flash := by
  unfold State.make
  split <;> simp

@[simp] theorem makeFor_flash (s : State) (d : Due) (n : Nat) : (s.makeFor d n).media.flash = s.media.flash := by
  induction n generalizing s with
  | zero => simp [State.makeFor]
  | succ n ih =>
    unfold State.makeFor
    split
    · split
      · rename_i e _
        split
        · simp
        · have h := ih ((s.make e).holdIdle)
          simpa using h
      · simp
    · simp

@[simp] theorem makeIfDue_flash (s : State) (d : Due) : (s.makeIfDue d).media.flash = s.media.flash := by
  unfold State.makeIfDue
  simp

@[simp] theorem settleFor_flash (s : State) (l : Nat) : (s.settleFor l).media.flash = s.media.flash := by
  induction l generalizing s with
  | zero => simp [State.settleFor]
  | succ a ih =>
    unfold State.settleFor
    split <;> simp [ih]

@[simp] theorem settle_flash (s : State) : s.settle.media.flash = s.media.flash := by
  unfold State.settle
  simp

@[simp] theorem takeUnknown_flash (s : State) : s.takeUnknown.media.flash = s.media.flash := by
  unfold State.takeUnknown
  split
  · split <;> simp
  · simp

@[simp] theorem unknown_flash (s : State) : s.unknown.media.flash = s.media.flash := by
  unfold State.unknown
  simp

@[simp] theorem resetSlot_flash (s : State) : s.resetSlot.media.flash = s.media.flash := by
  unfold State.resetSlot
  repeat' split
  all_goals simp

@[simp] theorem linkReset_flash (s : State) (f : Frame) (level : Nat) : (s.linkReset f level).media.flash = s.media.flash := by
  unfold State.linkReset
  simp

@[simp] theorem streamStart_flash (s : State) (f : Frame) (level : Nat) : (s.streamStart f level).media.flash = s.media.flash := by
  unfold State.streamStart
  dsimp only
  repeat' split
  all_goals simp

@[simp] theorem pauseSlot_flash (s : State) (i : Nat) : (s.pauseSlot i).media.flash = s.media.flash := by
  unfold State.pauseSlot
  simp

@[simp] theorem streamPause_flash (s : State) (f : Frame) (level : Nat) : (s.streamPause f level).media.flash = s.media.flash := by
  unfold State.streamPause
  dsimp only
  repeat' split
  all_goals simp

@[simp] theorem streamStop_flash (s : State) (f : Frame) (level : Nat) : (s.streamStop f level).media.flash = s.media.flash := by
  unfold State.streamStop
  dsimp only
  repeat' split
  all_goals simp

@[simp] theorem streamClear_flash (s : State) (f : Frame) (level : Nat) : (s.streamClear f level).media.flash = s.media.flash := by
  unfold State.streamClear
  dsimp only
  repeat' split
  all_goals simp

@[simp] theorem streamLoad_flash (s : State) (f : Frame) (level : Nat) : (s.streamLoad f level).media.flash = s.media.flash := by
  unfold State.streamLoad
  dsimp only
  repeat' split
  all_goals simp

@[simp] theorem surveyOpen_flash (s : State) (f : Frame) (level : Nat) : (s.surveyOpen f level).media.flash = s.media.flash := by
  unfold State.surveyOpen
  split <;> simp

@[simp] theorem surveyClose_flash (s : State) (f : Frame) (level : Nat) : (s.surveyClose f level).media.flash = s.media.flash := by
  unfold State.surveyClose
  repeat' split
  all_goals simp

@[simp] theorem surveyThresholds_flash (s : State) (f : Frame) (level : Nat) :
    (s.surveyThresholds f level).media.flash = s.media.flash := by
  unfold State.surveyThresholds
  dsimp only
  repeat' split
  all_goals simp

@[simp] theorem surveyLock_flash (s : State) (f : Frame) (level : Nat) : (s.surveyLock f level).media.flash = s.media.flash := by
  unfold State.surveyLock
  repeat' split
  all_goals simp

@[simp] theorem surveyErase_flash (s : State) (f : Frame) (level : Nat) : (s.surveyErase f level).media.flash = s.media.flash := by
  unfold State.surveyErase
  repeat' split
  all_goals simp

@[simp] theorem readRecords_flash (s : State) (f : Frame) (level : Nat) : (s.readRecords f level).media.flash = s.media.flash := by
  unfold State.readRecords
  dsimp only
  repeat' split
  all_goals simp

@[simp] theorem setStored_flash (s : State) (f : Frame) (level : Nat) (named : List (Option Nat)) :
    (s.setStored f level named).media.flash = s.media.flash := by
  unfold State.setStored
  dsimp only
  repeat' split
  all_goals simp

@[simp] theorem setLevels_flash (s : State) (f : Frame) (level : Nat) : (s.setLevels f level).media.flash = s.media.flash := by
  unfold State.setLevels
  repeat' split
  all_goals simp

@[simp] theorem setShock_flash (s : State) (f : Frame) (level : Nat) : (s.setShock f level).media.flash = s.media.flash := by
  unfold State.setShock
  repeat' split
  all_goals simp

@[simp] theorem setGauge_flash (s : State) (f : Frame) (level : Nat) : (s.setGauge f level).media.flash = s.media.flash := by
  unfold State.setGauge
  repeat' split
  all_goals simp

@[simp] theorem doze_flash (s : State) (f : Frame) (level : Nat) : (s.doze f level).media.flash = s.media.flash := by
  unfold State.doze
  split <;> simp

@[simp] theorem format_flash (s : State) (f : Frame) (level : Nat) : (s.format f level).media.flash = s.media.flash := by
  unfold State.format
  repeat' split
  all_goals simp

@[simp] theorem keepFrame_flash (s : State) (f : Frame) : (s.keepFrame f).media.flash = s.media.flash := by
  unfold State.keepFrame
  simp

@[simp] theorem admitFrame_flash (s : State) (f : Frame) : (s.admitFrame f).media.flash = s.media.flash := by
  unfold State.admitFrame
  repeat' split
  all_goals simp

@[simp] theorem arrive_flash (s : State) (bytes : List Byte) : (s.arrive bytes).media.flash = s.media.flash := by
  unfold State.arrive
  repeat' split
  all_goals simp

@[simp] theorem takeSample_flash (s : State) : s.takeSample.media.flash = s.media.flash := by
  unfold State.takeSample
  repeat' split
  all_goals simp

@[simp] theorem idle_flash (s : State) : s.idle.media.flash = s.media.flash := by
  unfold State.idle
  split <;> simp

@[simp] theorem gaugeEnd_flash (s : State) (vhold vpack ipack tpack zeroRef fullRef : Code) :
    (s.gaugeEnd vhold vpack ipack tpack zeroRef fullRef).media.flash = s.media.flash := by
  unfold State.gaugeEnd
  repeat' split
  all_goals simp

@[simp] theorem wakeEnd_flash (s : State) : s.wakeEnd.media.flash = s.media.flash := by
  unfold State.wakeEnd
  split <;> simp

@[simp] theorem afterOp_flash (s : State) : s.afterOp.media.flash = s.media.flash := by
  unfold State.afterOp
  simp

@[simp] theorem programFail_flash (s : State) (e : Entry) (g : Nat) : (s.programFail e g).media.flash = s.media.flash := by
  unfold State.programFail
  simp

@[simp] theorem dataEnd_flash (s : State) (b g p : Nat) (ok : Bool) :
    (s.dataEnd b g p ok).media.flash = (s.endProgram g p ok).media.flash := by
  unfold State.dataEnd
  dsimp only
  repeat' split
  all_goals simp

@[simp] theorem verifyMismatch_flash (s : State) (e : Entry) (g : Nat) : (s.verifyMismatch e g).media.flash = s.media.flash := by
  unfold State.verifyMismatch
  simp

@[simp] theorem verifyEnd_flash (s : State) (b g p : Nat) (o : ReadOutcome) : (s.verifyEnd b g p o).media.flash = s.media.flash := by
  unfold State.verifyEnd
  dsimp only
  repeat' split
  all_goals simp

/-! ### The rows that touch no page -/

section
variable {body : State → Frame → Nat → State} (hb : ∀ s f level, (body s f level).media.flash = s.media.flash)
include hb

theorem takeFrame_flash (s : State) (o : Opcode) (f : Frame) : (s.takeFrame o f body).media.flash = s.media.flash := by
  unfold State.takeFrame
  split <;> simp [hb]

theorem takeHead_flash (s : State) (o : Opcode) : (s.takeHead o body).media.flash = s.media.flash := by
  unfold State.takeHead
  repeat' split
  all_goals simp [takeFrame_flash hb]

theorem command_flash (s : State) (o : Opcode) : (s.command o body).media.flash = s.media.flash := by
  unfold State.command
  simp [takeHead_flash hb]

end

/-- No command's own rule touches a page. -/
@[simp] theorem rule_flash (o : Opcode) (s : State) (f : Frame) (level : Nat) : (o.rule s f level).media.flash = s.media.flash := by
  cases o <;> simp [Opcode.rule]

@[simp] theorem takeAny_flash (s : State) : s.takeAny.media.flash = s.media.flash := by
  unfold State.takeAny
  repeat' split
  all_goals simp [takeHead_flash (rule_flash _)]

@[simp] theorem sendFrame_flash (s : State) : s.sendFrame.media.flash = s.media.flash := by
  unfold State.sendFrame
  split <;> simp

end Sys2Proof.Machine
end

