-- ==== Sys2Proof/Proofs/FlashForm.lean ====
section
/-! PROOFS. The canonical form of the flash array: every operation that touches a page keeps it, and so does every step. -/

open Sys2Proof Sys2Proof.Machine

namespace Sys2Proof.Machine

/-! ### What the end of a program or an erase writes (R74, R77) -/

/-- A program that ends writes what was sent or, where it failed, a free value. -/
theorem endProgram_flash {s : State} {im : PageImage} (him : s.media.image = some im) (g p : Nat) (ok : Bool) :
    (s.endProgram g p ok).media.flash =
      Flash.write s.media.flash (Flash.key g p) (if ok then .page im else .disturbed s.freeCount) := by
  unfold State.endProgram
  cases ok with
  | true => simp only [if_true, him]
  | false => rfl

theorem disturbSegment_flash (s : State) (g : Nat) :
    (s.disturbSegment g).media.flash = Flash.disturbSegment s.media.flash g s.freeCount := by
  simp only [State.disturbSegment]

theorem endErase_flash (s : State) (g : Nat) (ok : Bool) : (s.endErase g ok).media.flash =
    if ok then Flash.eraseSegment s.media.flash g else Flash.disturbSegment s.media.flash g s.freeCount := by
  cases ok with
  | true => simp only [State.endErase, if_true]
  | false => simp only [State.endErase, Bool.false_eq_true, if_false, disturbSegment_flash]

/-! ### The canonical form -/

theorem flashInv_of_flash {s t : State} (h : t.media.flash = s.media.flash) (hs : s.FlashInv) : t.FlashInv := by
  unfold State.FlashInv at hs ⊢
  rwa [h]

section
variable {s : State} (hs : s.FlashInv)
include hs

theorem flashInv_disturbPage (g p : Nat) : (s.disturbPage g p).FlashInv := by
  exact Flash.wf_write (Flash.key g p) (.disturbed s.freeCount) hs

theorem flashInv_disturbSegment (g : Nat) : (s.disturbSegment g).FlashInv := by
  unfold State.FlashInv
  rw [disturbSegment_flash]
  exact Flash.wf_disturbSegment g s.freeCount hs

theorem flashInv_endProgram (g p : Nat) (ok : Bool) : (s.endProgram g p ok).FlashInv := by
  cases ok with
  | true =>
    cases him : s.media.image with
    | none => exact flashInv_of_flash (by unfold State.endProgram; simp [him]) hs
    | some im =>
      unfold State.FlashInv
      rw [endProgram_flash him]
      exact Flash.wf_write _ _ hs
  | false => exact flashInv_of_flash (by simp [State.endProgram]) (flashInv_disturbPage hs g p)

theorem flashInv_endErase (g : Nat) (ok : Bool) : (s.endErase g ok).FlashInv := by
  unfold State.FlashInv
  rw [endErase_flash]
  split
  · exact Flash.wf_eraseSegment g hs
  · exact Flash.wf_disturbSegment g s.freeCount hs

/-- An abandoned erase leaves a disturbed segment (R72). -/
theorem flashInv_abandonErase : s.abandonErase.FlashInv := by
  have hend (g : Nat) := flashInv_endErase hs g false
  unfold State.abandonErase
  split
  next g _ => exact flashInv_of_flash (returnErasing_flash _ g) (hend g)
  next g _ => exact flashInv_of_flash (returnErasing_flash _ g) (hend g)
  next g _ =>
    split
    · exact hend g
    · exact flashInv_of_flash (by simp) (hend g)
  next g _ => exact hend g
  next => exact hs

theorem flashInv_modMonitor (f : Monitor → Monitor) : (s.modMonitor f).FlashInv := flashInv_of_flash (by simp) hs

theorem flashInv_raisePark : s.raisePark.FlashInv := by
  unfold State.raisePark
  split
  · exact hs
  · exact flashInv_abandonErase (flashInv_modMonitor hs _)

theorem flashInv_declareDrop (kind : DropKind) (start : Stamp) (holdUp : Nat) : (s.declareDrop kind start holdUp).FlashInv := by
  have hpark (u : State) (hu : u.media.flash = s.media.flash) : u.raisePark.FlashInv := flashInv_raisePark (flashInv_of_flash hu hs)
  unfold State.declareDrop State.FlashInv
  simp only [beginWake_frame, raise_frame, countDrop_frame, markDrop_frame]
  exact hpark _ (by simp)

theorem flashInv_declareImpact (v : ScanView) : (s.declareImpact v).FlashInv := by
  unfold State.declareImpact
  exact flashInv_of_flash (goImpact_flash _ v) (flashInv_declareDrop hs _ _ _)

theorem flashInv_scanWatch (v : ScanView) : (s.scanWatch v).FlashInv := by
  unfold State.scanWatch
  split
  · exact flashInv_declareImpact hs v
  · exact flashInv_of_flash (by simp) hs
  · exact hs

theorem flashInv_scanFallWait (v : ScanView) : (s.scanFallWait v).FlashInv := by
  unfold State.scanFallWait
  dsimp only
  split
  · exact flashInv_declareImpact (flashInv_modMonitor hs _) v
  · split
    · exact flashInv_modMonitor (flashInv_declareDrop (flashInv_modMonitor hs _) _ _ _) _
    · exact flashInv_modMonitor hs _
  · split
    · exact flashInv_of_flash (by simp) hs
    · exact flashInv_of_flash (by simp) hs

theorem flashInv_scanVerify (v : ScanView) : (s.scanVerify v).FlashInv := by
  unfold State.scanVerify
  split
  · exact hs
  · exact flashInv_declareImpact (flashInv_of_flash (finishDrop_flash s _) hs) v
  · exact flashInv_of_flash (by simp) hs

/-- A delivered shock scan keeps the form in each state of the monitor. -/
theorem flashInv_monitorScan (v : ScanView) : (s.monitorScan v).FlashInv := by
  have hdrop (f : DropRecord → DropRecord) : (s.modDrop f).FlashInv := flashInv_of_flash (by simp) hs
  unfold State.monitorScan
  dsimp only
  refine flashInv_modMonitor ?_ _
  split
  · exact flashInv_scanWatch (hdrop _) v
  · exact flashInv_scanFallWait (hdrop _) v
  · exact flashInv_of_flash (scanFalling_flash _ v) (hdrop _)
  · exact flashInv_of_flash (scanImpact_flash _ v) (hdrop _)
  · exact flashInv_of_flash (scanSettling_flash _ v) (hdrop _)
  · exact flashInv_scanVerify (hdrop _) v

theorem flashInv_shockEnd (ax ay az vhold : Code) : (s.shockEnd ax ay az vhold).FlashInv := by
  unfold State.shockEnd
  split
  · dsimp only
    generalize hu : ({ s with sampler := _ } : State) = u
    have hflash : u.FlashInv := flashInv_of_flash (by rw [← hu]) hs
    exact flashInv_of_flash (by simp) (flashInv_monitorScan hflash (u.view ax ay az vhold))
  · exact hs

/-! ### The ends of the operations -/

theorem flashInv_endDataProgram (ok : Bool) : (s.endDataProgram ok).FlashInv := by
  unfold State.endDataProgram
  split
  next b g p _ => exact flashInv_of_flash (by simp) (flashInv_endProgram hs g p ok)
  next => exact hs

theorem flashInv_endHeaderProgram (ok : Bool) : (s.endHeaderProgram ok).FlashInv := by
  unfold State.endHeaderProgram
  split
  next g _ => exact flashInv_of_flash (by simp) (flashInv_endProgram hs g 0 ok)
  next => exact hs

theorem flashInv_endSegmentErase (ok : Bool) : (s.endSegmentErase ok).FlashInv := by
  unfold State.endSegmentErase
  split
  next g _ => exact flashInv_of_flash (by simp) (flashInv_endErase hs g ok)
  next g _ => exact flashInv_of_flash (by simp) (flashInv_endErase hs g ok)
  next => exact hs

theorem flashInv_endFormatErase (ok : Bool) : (s.endFormatErase ok).FlashInv := by
  unfold State.endFormatErase
  split
  next g _ => exact flashInv_of_flash (by simp) (flashInv_endErase hs g ok)
  next => exact hs

theorem flashInv_endIndexEntry (ok : Bool) : (s.endIndexEntry ok).FlashInv := by
  unfold State.endIndexEntry
  split
  next g p _ => exact flashInv_of_flash (by simp) (flashInv_endProgram hs g p ok)
  next => exact hs

theorem flashInv_endIndexErase (ok : Bool) : (s.endIndexErase ok).FlashInv := by
  unfold State.endIndexErase
  split
  next g _ => exact flashInv_of_flash (by simp) (flashInv_endErase hs g ok)
  next => exact hs

theorem flashInv_endSnapshot (ok : Bool) : (s.endSnapshot ok).FlashInv := by
  unfold State.endSnapshot
  split
  next g _ => exact flashInv_of_flash (by simp) (flashInv_endProgram hs g 0 ok)
  next => exact hs

omit hs in
@[simp] theorem endVerification_flash (s : State) (r : ReadOutcome) : (s.endVerification r).media.flash = s.media.flash := by
  unfold State.endVerification
  split <;> simp

omit hs in
@[simp] theorem endEngineRead_flash (s : State) (r : ReadOutcome) : (s.endEngineRead r).media.flash = s.media.flash := by
  unfold State.endEngineRead
  split <;> simp

omit hs in
@[simp] theorem endMountRead_flash (s : State) (r : ReadOutcome) : (s.endMountRead r).media.flash = s.media.flash := by
  unfold State.endMountRead
  split <;> simp

theorem flashInv_timeout : s.timeout.FlashInv := by
  unfold State.timeout
  split
  · exact hs
  · exact flashInv_endDataProgram hs false
  · exact flashInv_endHeaderProgram hs false
  · exact flashInv_endSegmentErase hs false
  · exact flashInv_endSegmentErase hs false
  · exact flashInv_endFormatErase hs false
  · exact flashInv_endIndexErase hs false
  · exact flashInv_endIndexEntry hs false
  · exact flashInv_endSnapshot hs false
  all_goals exact flashInv_of_flash (by simp) hs

theorem flashInv_loseOp : s.loseOp.FlashInv := by
  unfold State.loseOp
  split
  · exact hs
  · exact flashInv_disturbPage hs _ _
  · exact flashInv_disturbPage hs _ _
  · exact flashInv_disturbSegment hs _
  · exact flashInv_disturbSegment hs _
  · exact flashInv_disturbSegment hs _
  · exact flashInv_disturbSegment hs _
  · exact flashInv_disturbPage hs _ _
  · exact flashInv_disturbPage hs _ _
  all_goals exact hs

/-! ### The rows that may touch a page, and every step -/

/-- Every row keeps the canonical form: it loses or ends an operation, delivers a shock scan, or touches no page. -/
theorem exec_flashInv (c : Instr) : ∃ t, exec c s = .next t ∧ t.FlashInv := by
  have hset : s.settle.FlashInv := flashInv_of_flash (settle_flash s) hs
  have hidle {u : State} (hu : u.FlashInv) : u.holdIdle.FlashInv := flashInv_of_flash (by simp) hu
  cases c
  case powerOn n => exact ⟨_, rfl, flashInv_of_flash rfl (flashInv_loseOp hset)⟩
  case rstLine => exact ⟨_, rfl, flashInv_of_flash rfl (flashInv_loseOp hset)⟩
  case shockScanEnd ax ay az vhold => exact ⟨_, rfl, hidle (flashInv_shockEnd hset ax ay az vhold)⟩
  case dataPageProgramEnd ok => exact ⟨_, rfl, hidle (flashInv_endDataProgram hset ok)⟩
  case headerProgramEnd ok => exact ⟨_, rfl, hidle (flashInv_endHeaderProgram hset ok)⟩
  case segmentEraseEnd ok => exact ⟨_, rfl, hidle (flashInv_endSegmentErase hset ok)⟩
  case formatEraseEnd ok => exact ⟨_, rfl, hidle (flashInv_endFormatErase hset ok)⟩
  case indexEntryProgramEnd ok => exact ⟨_, rfl, hidle (flashInv_endIndexEntry hset ok)⟩
  case indexSegmentEraseEnd ok => exact ⟨_, rfl, hidle (flashInv_endIndexErase hset ok)⟩
  case snapshotProgramEnd ok => exact ⟨_, rfl, hidle (flashInv_endSnapshot hset ok)⟩
  case operationTimeout => exact ⟨_, rfl, hidle (flashInv_timeout hset)⟩
  all_goals refine ⟨_, rfl, flashInv_of_flash ?_ hs⟩
  all_goals simp [command_flash]

end

/-- Settles O7: every row keeps the form, and so does the step on an empty queue. -/
theorem stepKeepsFlash : Obligations.StepKeepsFlash := by
  unfold Obligations.StepKeepsFlash
  intro s t hstep hs
  unfold step at hstep
  split at hstep
  · cases hstep
    exact flashInv_of_flash (idle_flash s) hs
  · rename_i c rest _
    obtain ⟨u, hu, hinv⟩ := exec_flashInv (s := { s with pending := rest }) (flashInv_of_flash rfl hs) c
    cases hu.symm.trans hstep
    exact hinv

end Sys2Proof.Machine
end

