-- ==== Sys2Proof/Proofs/MediaEnds.lean ====
section
/-! PROOFS. What a lost operation and the end of each operation leave of the flash array, and the timeout (R57, R74, R75, R77, R80). -/

open Sys2Proof Sys2Proof.Machine

namespace Sys2Proof.Machine

/-! ### Pages after a write, an erase and a disturbance -/

theorem image_of_outcome (im : PageImage) (n : Nat) (ok : Bool) :
    FlashCell.image (if ok then .page im else .disturbed n) = if ok then im else (FlashCell.disturbed n).image := by
  cases ok <;> rfl

theorem read_disturbPage_other {s : State} (hs : s.FlashInv) {g p k : Nat} (hk : k ≠ Flash.key g p) :
    Flash.read (s.disturbPage g p).media.flash k = Flash.read s.media.flash k :=
  Flash.read_write_other (Flash.key g p) k (.disturbed s.freeCount) hs hk

theorem Flash.read_disturbSegment {flash : List (Nat × FlashCell)} (h : Flash.wf flash = true) {g k : Nat} (first : Nat)
    (hk : k / 256 ≠ g) : Flash.read (Flash.disturbSegment flash g first) k = Flash.read flash k := by
  unfold Flash.disturbSegment
  exact Flash.read_disturbPages h g first 256 k hk (le_refl 256)

/-- What a program's end leaves of its own page and of the others (R57, R74). -/
theorem read_endProgram {s : State} (hs : s.FlashInv) {im : PageImage} (him : s.media.image = some im) (g p : Nat) (ok : Bool) :
    Flash.read (s.endProgram g p ok).media.flash (Flash.key g p) = (if ok then im else (FlashCell.disturbed s.freeCount).image) ∧
    ∀ k, k ≠ Flash.key g p → Flash.read (s.endProgram g p ok).media.flash k = Flash.read s.media.flash k := by
  rw [endProgram_flash him]
  exact ⟨(Flash.read_write_same _ _ hs).trans (image_of_outcome im s.freeCount ok), fun k hk => Flash.read_write_other _ k _ hs hk⟩

/-- What an erase's end leaves of its own segment and of the others (R57, R77). -/
theorem read_endErase {s : State} (hs : s.FlashInv) (g : Nat) (ok : Bool) :
    (ok = true → ∀ k, k / 256 = g → Flash.read (s.endErase g ok).media.flash k = PageImage.erased) ∧
    ∀ k, k / 256 ≠ g → Flash.read (s.endErase g ok).media.flash k = Flash.read s.media.flash k := by
  rw [endErase_flash]
  cases ok with
  | true =>
    simp only [if_true, Flash.read_eraseSegment]
    exact ⟨fun _ k hk => if_pos hk, fun k hk => if_neg hk⟩
  | false =>
    rw [if_neg Bool.false_ne_true]
    exact ⟨nofun, fun k hk => Flash.read_disturbSegment hs s.freeCount hk⟩

/-- Settles O11: the lost operation disturbs its own page or its own segment (R80). -/
theorem lostOperation : Obligations.LostOperation := by
  unfold Obligations.LostOperation
  intro s hs
  refine ⟨?_, ?_, ?_⟩
  · rintro (hop | ⟨b, g, p, hop⟩ | ⟨g, p, d, hop⟩ | ⟨g, p, hop⟩)
    all_goals simp only [State.loseOp, hop]
  · rintro g p hprogram k hk
    have hlost : s.loseOp = s.disturbPage g p := by
      obtain ⟨b, hop⟩ | ⟨hop, rfl⟩ | hop | ⟨hop, rfl⟩ := hprogram
      all_goals simp only [State.loseOp, hop]
    rw [hlost]
    exact read_disturbPage_other hs hk
  · rintro g herase k hk
    have hlost : s.loseOp = s.disturbSegment g := by
      obtain hop | hop | hop | hop := herase
      all_goals simp only [State.loseOp, hop]
    rw [hlost, disturbSegment_flash]
    exact Flash.read_disturbSegment hs s.freeCount hk

/-! ### The rows of the ends -/

section
variable {s : State}

theorem endDataProgram_flash {b g p : Nat} (hop : s.media.op = some (.dataProgram b g p)) (ok : Bool) :
    (s.endDataProgram ok).media.flash = (s.endProgram g p ok).media.flash := by
  simp only [State.endDataProgram, hop, dataEnd_flash]

theorem endHeaderProgram_flash {g : Nat} (hop : s.media.op = some (.headerProgram g)) (ok : Bool) :
    (s.endHeaderProgram ok).media.flash = (s.endProgram g 0 ok).media.flash := by
  simp only [State.endHeaderProgram, hop, afterOp_flash, headerEnd_flash]

theorem endIndexEntry_flash {g p : Nat} (hop : s.media.op = some (.indexProgram g p)) (ok : Bool) :
    (s.endIndexEntry ok).media.flash = (s.endProgram g p ok).media.flash := by
  simp only [State.endIndexEntry, hop, afterOp_flash, indexProgramEnd_flash]

theorem endSnapshot_flash {c : Nat} (hop : s.media.op = some (.snapshotProgram c)) (ok : Bool) :
    (s.endSnapshot ok).media.flash = (s.endProgram c 0 ok).media.flash := by
  simp only [State.endSnapshot, hop, afterOp_flash, snapshotEnd_flash]

theorem endSegmentErase_flash {g : Nat} (hop : s.media.op = some (.takeErase g) ∨ s.media.op = some (.aheadErase g)) (ok : Bool) :
    (s.endSegmentErase ok).media.flash = (s.endErase g ok).media.flash := by
  rcases hop with hop | hop
  · simp only [State.endSegmentErase, hop, afterOp_flash, takeEraseEnd_flash]
  · simp only [State.endSegmentErase, hop, afterOp_flash, aheadEnd_flash]

theorem endFormatErase_flash {g : Nat} (hop : s.media.op = some (.formatErase g)) (ok : Bool) :
    (s.endFormatErase ok).media.flash = (s.endErase g ok).media.flash := by
  simp only [State.endFormatErase, hop, afterOp_flash, formatEraseEnd_flash]

theorem endIndexErase_flash {c : Nat} (hop : s.media.op = some (.indexErase c)) (ok : Bool) :
    (s.endIndexErase ok).media.flash = (s.endErase c ok).media.flash := by
  simp only [State.endIndexErase, hop, afterOp_flash, indexEraseEnd_flash]

end

/-- The row of an end leaves the pages that the end itself leaves, in a settled state. -/
theorem exec_flash_of_end {s : State} {c : Instr} {f : State → State} {flash : List (Nat × FlashCell)} (hs : s.Settled)
    (hc : exec c s = .next (f s.settle).holdIdle) (hf : (f s).media.flash = flash) :
    ∃ t, exec c s = .next t ∧ t.media.flash = flash := by
  refine ⟨_, hc, ?_⟩
  rw [settle_of_settled hs, ← hf]
  simp

/-- Settles O47: the row of each end writes what the end of its program, erase or read writes. -/
theorem mediaEnds : Obligations.MediaEnds := by
  unfold Obligations.MediaEnds
  intro s ok r hs hinv
  refine ⟨?_, ?_, ?_⟩
  · intro c g p im him hprogram
    have hrow : ∃ t, exec c s = .next t ∧ t.media.flash = (s.endProgram g p ok).media.flash := by
      obtain ⟨⟨b, hop⟩, rfl⟩ | ⟨hop, rfl, rfl⟩ | ⟨hop, rfl⟩ | ⟨hop, rfl, rfl⟩ := hprogram
      · exact exec_flash_of_end (f := fun u => u.endDataProgram ok) hs rfl (endDataProgram_flash hop ok)
      · exact exec_flash_of_end (f := fun u => u.endHeaderProgram ok) hs rfl (endHeaderProgram_flash hop ok)
      · exact exec_flash_of_end (f := fun u => u.endIndexEntry ok) hs rfl (endIndexEntry_flash hop ok)
      · exact exec_flash_of_end (f := fun u => u.endSnapshot ok) hs rfl (endSnapshot_flash hop ok)
    obtain ⟨t, ht, hflash⟩ := hrow
    exact ⟨t, ht, hflash ▸ read_endProgram hinv him g p ok⟩
  · intro c g herase
    have hrow : ∃ t, exec c s = .next t ∧ t.media.flash = (s.endErase g ok).media.flash := by
      obtain ⟨hop, rfl⟩ | ⟨hop, rfl⟩ | ⟨hop, rfl⟩ := herase
      · exact exec_flash_of_end (f := fun u => u.endSegmentErase ok) hs rfl (endSegmentErase_flash hop ok)
      · exact exec_flash_of_end (f := fun u => u.endFormatErase ok) hs rfl (endFormatErase_flash hop ok)
      · exact exec_flash_of_end (f := fun u => u.endIndexErase ok) hs rfl (endIndexErase_flash hop ok)
    obtain ⟨t, ht, hflash⟩ := hrow
    exact ⟨t, ht, hflash ▸ read_endErase hinv g ok⟩
  · rintro c (⟨-, rfl⟩ | ⟨-, rfl⟩ | ⟨-, rfl⟩)
    · exact exec_flash_of_end (f := fun u => u.endVerification r) hs rfl (endVerification_flash s r)
    · exact exec_flash_of_end (f := fun u => u.endEngineRead r) hs rfl (endEngineRead_flash s r)
    · exact exec_flash_of_end (f := fun u => u.endMountRead r) hs rfl (endMountRead_flash s r)

/-! ### The timeout (R74) -/

/-- OPERATION_TIMEOUT in a settled state. -/
theorem exec_operationTimeout {s : State} (hs : s.Settled) : exec .operationTimeout s = .next s.timeout.holdIdle := by
  show Host.Outcome.next s.settle.timeout.holdIdle = _
  rw [settle_of_settled hs]

/-- A row that ends the operation in flight equals the timeout's row where both make the same state. -/
theorem exec_timeout_eq {s : State} {c : Instr} {f : State → State} (hs : s.Settled) (hc : exec c s = .next (f s.settle).holdIdle)
    (hf : s.timeout = f s) : exec .operationTimeout s = exec c s := by
  rw [exec_operationTimeout hs, hc, settle_of_settled hs, hf]

/-- Settles O48: the timeout takes the failing end of the operation in flight, one by one. -/
theorem timeoutIsFailure : Obligations.TimeoutIsFailure := by
  unfold Obligations.TimeoutIsFailure
  intro s hs
  refine ⟨⟨_, exec_operationTimeout hs, by simp⟩, fun hop => ?_, ?_⟩
  · rw [exec_operationTimeout hs]
    simp only [State.timeout, hop]
  · refine ⟨fun b g p hop => ?_, fun g hop => ?_, ?_, fun g hop => ?_, fun g p hop => ?_, fun g hop => ?_, fun g hop => ?_,
      fun b g p hop => ?_, fun g p d hop => ?_, fun g p hop => ?_⟩
    · exact exec_timeout_eq (f := fun u => u.endDataProgram false) hs rfl (by simp only [State.timeout, hop])
    · exact exec_timeout_eq (f := fun u => u.endHeaderProgram false) hs rfl (by simp only [State.timeout, hop])
    · rintro g (hop | hop)
      all_goals exact exec_timeout_eq (f := fun u => u.endSegmentErase false) hs rfl (by simp only [State.timeout, hop])
    · exact exec_timeout_eq (f := fun u => u.endFormatErase false) hs rfl (by simp only [State.timeout, hop])
    · exact exec_timeout_eq (f := fun u => u.endIndexEntry false) hs rfl (by simp only [State.timeout, hop])
    · exact exec_timeout_eq (f := fun u => u.endIndexErase false) hs rfl (by simp only [State.timeout, hop])
    · exact exec_timeout_eq (f := fun u => u.endSnapshot false) hs rfl (by simp only [State.timeout, hop])
    · exact exec_timeout_eq (f := fun u => u.endVerification .failed) hs rfl (by simp only [State.timeout, hop])
    · exact exec_timeout_eq (f := fun u => u.endEngineRead .failed) hs rfl (by simp only [State.timeout, hop])
    · exact exec_timeout_eq (f := fun u => u.endMountRead .failed) hs rfl (by simp only [State.timeout, hop])

end Sys2Proof.Machine
end

