-- ==== Sys2Proof/Proofs/EraseEnds.lean ====
section
/-! PROOFS. The ends of a data segment's erase and of FORMAT's erases (R64, R67, R77, R99, R102, R103). -/

open Sys2Proof Sys2Proof.Machine

namespace Sys2Proof.Machine

/-! ### The Media Controller after an erase's end and after a take is put -/

/-- The end of an erase leaves everything of the Media Controller but the port and the array. -/
@[simp] theorem endErase_media (s : State) (g : Nat) (ok : Bool) :
    (s.endErase g ok).media.op = none ∧ (s.endErase g ok).media.image = s.media.image ∧ (s.endErase g ok).media.hold = s.media.hold ∧
    (s.endErase g ok).media.fairness = s.media.fairness ∧ (s.endErase g ok).media.segs = s.media.segs ∧
    (s.endErase g ok).media.ready = s.media.ready ∧ (s.endErase g ok).media.free = s.media.free ∧
    (s.endErase g ok).media.takes = s.media.takes ∧ (s.endErase g ok).media.segWaiters = s.media.segWaiters ∧
    (s.endErase g ok).media.mediaFull = s.media.mediaFull ∧ (s.endErase g ok).media.generation = s.media.generation ∧
    (s.endErase g ok).media.reportedSegments = s.media.reportedSegments := by
  obtain ⟨w, hw, fl, n, rfl⟩ := endErase_eq s g ok
  simp [hw]

@[simp] theorem putTake_media (s : State) (t : Take) :
    (s.putTake t).media.op = s.media.op ∧ (s.putTake t).media.segs = s.media.segs ∧ (s.putTake t).media.ready = s.media.ready ∧
    (s.putTake t).media.free = s.media.free :=
  ⟨rfl, rfl, rfl, rfl⟩

theorem mem_takes_putTake (s : State) (t : Take) : t ∈ (s.putTake t).media.takes := by
  obtain ⟨takes, waiters, hput, hmem⟩ := putTake_parts s t
  rwa [hput]

/-! ### The rows -/

theorem exec_segmentEraseEnd_ahead {s : State} {g : Nat} (hs : s.Settled) (hop : s.media.op = some (.aheadErase g)) (ok : Bool) :
    exec (.segmentEraseEnd ok) s = .next ((s.aheadEnd g ok).afterOp).holdIdle := by
  show Host.Outcome.next (s.settle.endSegmentErase ok).holdIdle = _
  simp only [settle_of_settled hs, State.endSegmentErase, hop]

theorem exec_segmentEraseEnd_take {s : State} {g : Nat} (hs : s.Settled) (hop : s.media.op = some (.takeErase g)) (ok : Bool) :
    exec (.segmentEraseEnd ok) s = .next ((s.takeEraseEnd g ok).afterOp).holdIdle := by
  show Host.Outcome.next (s.settle.endSegmentErase ok).holdIdle = _
  simp only [settle_of_settled hs, State.endSegmentErase, hop]

theorem exec_formatEraseEnd {s : State} {g : Nat} (hs : s.Settled) (hop : s.media.op = some (.formatErase g)) (ok : Bool) :
    exec (.formatEraseEnd ok) s = .next ((s.formatEraseEnd g ok).afterOp).holdIdle := by
  show Host.Outcome.next (s.settle.endFormatErase ok).holdIdle = _
  simp only [settle_of_settled hs, State.endFormatErase, hop]

/-! ### The segment of an ended erase -/

/-- What an erase's end leaves beside its own segment and the lists it may join. -/
def State.ErasedIn (s u : State) (g : Nat) : Prop :=
  u.media.op = none ∧ (∀ h, h ≠ g → u.media.segs[h]? = s.media.segs[h]?) ∧ u.table = s.table ∧ u.slots = s.slots ∧ u.queue = s.queue

/-- The part after an erase's end, its segment in a state and in no chain. -/
def State.erasedTo (s : State) (g : Nat) (ok : Bool) (state : SegState) : State :=
  (s.endErase g ok).modSeg g (fun x => { x with state := state, chain := none })

theorem erasedIn_erasedTo (s : State) (g : Nat) (ok : Bool) (state : SegState) : s.ErasedIn (s.erasedTo g ok state) g := by
  refine ⟨by simp [State.erasedTo], fun h hne => ?_, by simp [State.erasedTo], by simp [State.erasedTo], by simp [State.erasedTo]⟩
  simp [State.erasedTo, Ne.symm hne]

theorem erasedTo_segment {s : State} {g : Nat} {x : Segment} (hx : s.media.segs[g]? = some x) (ok : Bool) (state : SegState) :
    (s.erasedTo g ok state).media.segs[g]? = some { x with state := state, chain := none } := by
  simp [State.erasedTo, hx]

theorem erasedTo_ready (s : State) (g : Nat) (ok : Bool) (state : SegState) : (s.erasedTo g ok state).media.ready = s.media.ready := by
  simp [State.erasedTo]

/-- An update that keeps what `ErasedIn` names keeps `ErasedIn`. -/
theorem erasedIn_of_eq {s u v : State} {g : Nat} (h : s.ErasedIn u g) (hop : v.media.op = u.media.op)
    (hsegs : v.media.segs = u.media.segs) (htable : v.table = u.table) (hslots : v.slots = u.slots) (hqueue : v.queue = u.queue) :
    s.ErasedIn v g := by
  unfold State.ErasedIn
  rw [hop, hsegs, htable, hslots, hqueue]
  exact h

/-- Putting a take touches neither the port nor a segment. -/
theorem erasedIn_putTake {s u : State} {g : Nat} (h : s.ErasedIn u g) (t : Take) : s.ErasedIn (u.putTake t) g :=
  erasedIn_of_eq h (by simp) (by simp) (by simp) (by simp) (by simp)

theorem badErase_media (s : State) (g : Nat) : ((s.endErase g false).badErase g).media = (s.erasedTo g false .bad).media := by
  unfold State.badErase
  simp only [raise_frame]
  rfl

theorem erasedIn_badErase (s : State) (g : Nat) : s.ErasedIn ((s.endErase g false).badErase g) g :=
  erasedIn_of_eq (erasedIn_erasedTo s g false .bad) (by rw [badErase_media]) (by rw [badErase_media]) (by simp [State.erasedTo])
    (by simp [State.erasedTo]) (by simp [State.erasedTo])

/-! ### The end of an erase-ahead erase (R77) -/

theorem aheadTakes_endErase (s : State) (g : Nat) (ok : Bool) : (s.endErase g ok).aheadTakes = s.aheadTakes := by
  simp [State.aheadTakes]

theorem aheadTakes_badErase (s : State) (g : Nat) : ((s.endErase g false).badErase g).aheadTakes = s.aheadTakes := by
  unfold State.aheadTakes
  rw [badErase_media]
  simp [State.erasedTo]

theorem aheadEnd_of_nobody {s : State} (g : Nat) (h : s.aheadTakes = []) : s.aheadEnd g true =
    (State.offerAll { s.erasedTo g true .ready with
      media := { (s.erasedTo g true .ready).media with ready := s.media.ready ++ [g] } }) := by
  unfold State.aheadEnd
  simp only [if_true, aheadTakes_endErase, h]
  rw [← erasedTo_ready s g true .ready]
  rfl

theorem aheadEnd_of_waiting {s : State} (g : Nat) {t : Take} {ts : List Take} (h : s.aheadTakes = t :: ts) : s.aheadEnd g true =
    (((s.erasedTo g true .taken).putTake { t with phase := .header g }).testMediaFull true).remakeTakes ts := by
  unfold State.aheadEnd
  simp only [if_true, aheadTakes_endErase, h]
  rfl

theorem aheadEnd_failed (s : State) (g : Nat) : s.aheadEnd g false =
    ((s.endErase g false).badErase g).remakeTakes s.aheadTakes := by
  unfold State.aheadEnd
  simp only [Bool.false_eq_true, if_false, aheadTakes_badErase]

/-! ### The end of an erase for a take (R77) -/

theorem takeEraseEnd_ok {s : State} {g : Nat} {t : Take} (h : s.media.takes.find? (fun u => u.phase == .erase g) = some t) :
    s.takeEraseEnd g true = (s.erasedTo g true .taken).putTake { t with phase := .header g } := by
  unfold State.takeEraseEnd
  simp only [endErase_media, h, if_true]
  rfl

theorem takeEraseEnd_failed {s : State} {g : Nat} {t : Take} (h : s.media.takes.find? (fun u => u.phase == .erase g) = some t) :
    s.takeEraseEnd g false = ((s.endErase g false).badErase g).makeTake t := by
  unfold State.takeEraseEnd
  simp only [endErase_media, h, Bool.false_eq_true, if_false]

/-! ### The end of FORMAT's erase (R102) -/

/-- The part after FORMAT's erase of a segment, before its next erase or its rollover is requested. -/
def State.formatErased (s : State) (g : Nat) (ok : Bool) : State :=
  let v : State := s.endErase g ok
  if g < 4 then if ok then v else { v with log := { v.log with unusable := addUnusable g v.log.unusable } }
  else if ok then
    let v : State := v.setSegState g .ready
    { v with media := { v.media with ready := v.media.ready ++ [g] } }
  else (v.setSegState g .bad).raise (.media (.erase g))

theorem formatEraseEnd_eq {s : State} {r : FormatRun} (hr : s.formatRun = some r) (g : Nat) (ok : Bool) : s.formatEraseEnd g ok =
    if g + 1 < r.n then { s.formatErased g ok with formatRun := some { r with stage := .erasing (g + 1) } }
    else State.nextRollover { s.formatErased g ok with formatRun := some { r with stage := .rollover } } := by
  have hrun : (s.endErase g ok).formatRun = some r := by simp [hr]
  unfold State.formatEraseEnd
  dsimp only
  split
  next hnone => exact absurd (hnone.symm.trans hrun) nofun
  next r' hsome =>
    obtain rfl := Option.some.inj (hsome.symm.trans hrun)
    rfl

theorem formatErased_frame (s : State) (g : Nat) (ok : Bool) :
    s.ErasedIn (s.formatErased g ok) g ∧ (s.formatErased g ok).slot = s.slot := by
  unfold State.formatErased State.ErasedIn
  dsimp only
  repeat' split
  all_goals simp +contextual [eq_comm]

/-- A successful erase of FORMAT makes a data segment READY at the tail of the Ready List. -/
theorem formatErased_ok {s : State} {g : Nat} {x : Segment} (hx : s.media.segs[g]? = some x) :
    (s.formatErased g true).log = s.log ∧
    (4 ≤ g → (s.formatErased g true).media.segs[g]? = some { x with state := .ready } ∧
      (s.formatErased g true).media.ready = s.media.ready ++ [g]) ∧
    (g < 4 → (s.formatErased g true).media.segs[g]? = some x ∧ (s.formatErased g true).media.ready = s.media.ready) := by
  unfold State.formatErased
  rcases Nat.lt_or_ge g 4 with h | h
  · simp [h, hx, Nat.not_le.mpr h]
  · simp [h, hx, Nat.not_lt.mpr h]

/-- A failed erase of FORMAT makes a data segment BAD, and an index segment unusable. -/
theorem formatErased_failed {s : State} {g : Nat} {x : Segment} (hx : s.media.segs[g]? = some x) :
    (s.formatErased g false).media.ready = s.media.ready ∧
    (4 ≤ g → (s.formatErased g false).media.segs[g]? = some { x with state := .bad } ∧ (s.formatErased g false).log = s.log) ∧
    (g < 4 → (s.formatErased g false).media.segs[g]? = some x ∧ (s.formatErased g false).log = { s.log with
      unusable := if g ∈ s.log.unusable then s.log.unusable else s.log.unusable ++ [g] }) := by
  unfold State.formatErased
  rcases Nat.lt_or_ge g 4 with h | h
  · simp [h, hx, Nat.not_le.mpr h, addUnusable]
  · simp [h, hx, Nat.not_lt.mpr h]

/-- Settles O51: the ends of the three erases, and FORMAT's last one with the rollover it begins. -/
theorem eraseEnds : Obligations.EraseEnds := by
  unfold Obligations.EraseEnds
  refine ⟨fun s g x hs hx => ?_, fun s g x r ok hs hx hop hr hn => ?_⟩
  · intro waiting others
    refine ⟨fun hop => ⟨fun hnone => ?_, fun t ts hsome => ?_, ?_⟩, fun t hop ht => ⟨?_, ?_⟩, fun r hop hr hn ok => ?_⟩
    · refine ⟨{ s.erasedTo g true .ready with media := { (s.erasedTo g true .ready).media with ready := s.media.ready ++ [g] } }, ?_,
        erasedIn_of_eq (erasedIn_erasedTo s g true .ready) rfl rfl rfl rfl rfl, erasedTo_segment hx true .ready, rfl⟩
      rw [exec_segmentEraseEnd_ahead hs hop, aheadEnd_of_nobody g hnone]
    · refine ⟨(s.erasedTo g true .taken).putTake { t with phase := .header g }, ?_,
        erasedIn_putTake (erasedIn_erasedTo s g true .taken) _,
        erasedTo_segment hx true .taken, erasedTo_ready s g true .taken, mem_takes_putTake _ _⟩
      rw [exec_segmentEraseEnd_ahead hs hop, aheadEnd_of_waiting g hsome]
    · refine ⟨(s.endErase g false).badErase g, ?_, erasedIn_badErase s g, ?_, ?_⟩
      · rw [exec_segmentEraseEnd_ahead hs hop, aheadEnd_failed]
        rfl
      · rw [badErase_media]
        exact erasedTo_segment hx false .bad
      · rw [badErase_media]
        exact erasedTo_ready s g false .bad
    · refine ⟨(s.erasedTo g true .taken).putTake { t with phase := .header g }, ?_,
        erasedIn_putTake (erasedIn_erasedTo s g true .taken) _, erasedTo_segment hx true .taken, mem_takes_putTake _ _⟩
      rw [exec_segmentEraseEnd_take hs hop, takeEraseEnd_ok ht]
    · refine ⟨(s.endErase g false).badErase g, ?_, erasedIn_badErase s g, ?_⟩
      · rw [exec_segmentEraseEnd_take hs hop, takeEraseEnd_failed ht]
      · rw [badErase_media]
        exact erasedTo_segment hx false .bad
    · refine ⟨s.formatEraseEnd g ok, exec_formatEraseEnd hs hop ok, ?_⟩
      rw [formatEraseEnd_eq hr, if_pos hn]
      obtain ⟨hothers, -⟩ := formatErased_frame s g ok
      refine ⟨hothers, rfl, ?_, ?_⟩
      · rintro rfl
        exact formatErased_ok hx
      · rintro rfl
        exact formatErased_failed hx
  · obtain ⟨⟨hidle, hsegs, htable, -, -⟩, hslot⟩ := formatErased_frame s g ok
    refine ⟨{ s.formatErased g ok with formatRun := some { r with stage := .rollover } }, fun c hc => ?_, fun hc => ?_, rfl, hidle, hsegs,
      hslot, htable, ?_, ?_⟩
    · rw [exec_formatEraseEnd hs hop, formatEraseEnd_eq hr, if_neg (Nat.not_lt.mpr hn), nextRollover_of_candidate hc]
    · rw [exec_formatEraseEnd hs hop, formatEraseEnd_eq hr, if_neg (Nat.not_lt.mpr hn), nextRollover_of_none hc]
    · rintro rfl
      exact formatErased_ok hx
    · rintro rfl
      exact formatErased_failed hx

end Sys2Proof.Machine
end

