-- ==== Sys2Proof/Proofs/IndexEntries.lean ====
section
/-! PROOFS. An index entry's request, and the end of its program, durable or given up (R69, R79, R86, R88, R90 to R97, R151). -/

open Sys2Proof Sys2Proof.Machine

namespace Sys2Proof.Machine

/-! ### The states of the buffers, which a durable entry leaves -/

theorem closeOpen_bufferStates (s : State) (i : Nat) :
    (s.closeOpen i).pool.buffers.map Buffer.state = s.pool.buffers.map Buffer.state := by
  unfold State.closeOpen
  dsimp only
  split
  next r d p _ _ _ =>
    apply List.ext_getElem?
    intro n
    simp only [modSlot_pool, modBuffer_pool, List.getElem?_map, List.getElem?_modify]
    cases s.pool.buffers[n]? <;> split <;> rfl
  next => rfl

theorem imposePauses_bufferStates (reason : PauseReason) : ∀ (l : List Nat) (s : State),
    (s.imposePauses reason l).pool.buffers.map Buffer.state = s.pool.buffers.map Buffer.state
  | [], _ => rfl
  | i :: is, s => by
    have hone : (s.imposePause reason i).pool.buffers.map Buffer.state = s.pool.buffers.map Buffer.state := by
      simpa [State.imposePause] using closeOpen_bufferStates s i
    exact (imposePauses_bufferStates reason is _).trans hone

theorem testMediaFull_bufferStates (s : State) (pausing : Bool) :
    (s.testMediaFull pausing).pool.buffers.map Buffer.state = s.pool.buffers.map Buffer.state := by
  unfold State.testMediaFull
  split
  · dsimp only
    simp only [raise_frame]
    split
    · exact imposePauses_bufferStates _ _ _
    · rfl
  · rfl

theorem makeTake_bufferStates (s : State) (t : Take) :
    (s.makeTake t).pool.buffers.map Buffer.state = s.pool.buffers.map Buffer.state := by
  unfold State.makeTake
  repeat' split
  all_goals simp [testMediaFull_bufferStates]

theorem offerTakes_bufferStates : ∀ (l : List Nat) (s : State),
    (s.offerTakes l).pool.buffers.map Buffer.state = s.pool.buffers.map Buffer.state
  | [], _ => rfl
  | i :: is, s => by
    unfold State.offerTakes
    refine (offerTakes_bufferStates is _).trans ?_
    split
    · exact makeTake_bufferStates s _
    · rfl

theorem durable_bufferStates (s : State) (body : EntryBody) :
    (s.durable body).pool.buffers.map Buffer.state = s.pool.buffers.map Buffer.state := by
  cases body
  case surveyErased n => simp [State.durable, State.offerAll, offerTakes_bufferStates]
  case powerDown =>
    unfold State.durable State.powerDownEnded
    dsimp only
    split <;> rfl
  all_goals simp [State.durable]

/-! ### A command's end -/

/-- A command that ends leaves the Operation Slot empty. -/
@[simp] theorem completeOp_slot (s : State) (status : Status) (payload : Payload) : (s.completeOp status payload).slot = none := by
  cases h : s.slot with
  | none => rw [completeOp_of_empty s status payload h, h]
  | some o => rw [completeOp_of_slot s o status payload h]

/-- An entry whose end ends the command in the Operation Slot. -/
def EntryBody.Answers (b : EntryBody) : Prop := (∀ d, b ≠ .drop d) ∧ b ≠ .powerDown

theorem durable_slot (s : State) {body : EntryBody} (h : body.Answers) : (s.durable body).slot = none := by
  obtain ⟨hdrop, hdown⟩ := h
  cases body
  case drop d => exact absurd rfl (hdrop d)
  case powerDown => exact absurd rfl hdown
  all_goals simp [State.durable]

theorem giveUp_slot (s : State) (left : Nat) {body : EntryBody} (h : body.Answers) : (s.giveUp left body).slot = none := by
  obtain ⟨hdrop, hdown⟩ := h
  cases body
  case drop d => exact absurd rfl (hdrop d)
  case powerDown => exact absurd rfl hdown
  all_goals simp [State.giveUp]

/-! ### The end of an entry's program (R96, R97) -/

theorem exec_indexEntryProgramEnd {s : State} {g p : Nat} (hs : s.Settled) (hop : s.media.op = some (.indexProgram g p)) (ok : Bool) :
    exec (.indexEntryProgramEnd ok) s = .next ((s.indexProgramEnd g p ok).afterOp).holdIdle := by
  show Host.Outcome.next (s.settle.endIndexEntry ok).holdIdle = _
  simp only [settle_of_settled hs, State.endIndexEntry, hop]

theorem indexProgramEnd_of_entry {s : State} {e : IndexEntry} {rest : List IndexEntry} (h : s.log.waiting = e :: rest) (g p : Nat)
    (ok : Bool) : s.indexProgramEnd g p ok = if ok then (s.endProgram g p ok).entryDurable e else (s.endProgram g p ok).entryFailed e := by
  have hw : (s.endProgram g p ok).log.waiting = e :: rest := by simp [h]
  unfold State.indexProgramEnd
  simp only [hw]

/-- The part after the program of the head entry, which has left the list. -/
def State.entryEnded (s : State) (g p : Nat) (ok : Bool) : State := (s.endProgram g p ok).dropHead

/-- What stays of the part when an entry has ended: all but the port, the page, the entry and its buffer. -/
theorem entryEnded_eq {s : State} {e : IndexEntry} {rest : List IndexEntry} (h : s.log.waiting = e :: rest) (g p : Nat) (ok : Bool) :
    ∃ fl n bs iw, s.entryEnded g p ok = { s with
      media := { s.media with flash := fl, op := none, image := none }
      freeCount := n
      log := { s.log with waiting := rest, stage := .idle }
      pool := { s.pool with buffers := bs, indexWaiters := iw } } ∧
    ∀ b, e.buffer = some b → bs.map Buffer.state = (s.pool.buffers.map Buffer.state).set b .free := by
  obtain ⟨fl, n, hprogram⟩ := endProgram_eq s g p ok
  have hw : (s.endProgram g p ok).log.waiting = e :: rest := by simp [h]
  obtain ⟨bs, iw, hdrop, hstates⟩ := dropHead_eq hw
  refine ⟨fl, n, bs, iw, ?_, fun b hb => ?_⟩
  · unfold State.entryEnded
    rw [hdrop, hprogram]
  · rw [hstates b hb, hprogram]

section
variable {s : State} {g p : Nat} {e : IndexEntry} {rest : List IndexEntry} (hs : s.Settled)
  (hop : s.media.op = some (.indexProgram g p)) (hw : s.log.waiting = e :: rest)
include hs hop hw

/-- A durable entry makes its change, and the log goes on. -/
theorem exec_entry_durable : exec (.indexEntryProgramEnd true) s =
    .next ((((s.entryEnded g p true).durable e.body).pumpLog).afterOp).holdIdle := by
  rw [exec_indexEntryProgramEnd hs hop, indexProgramEnd_of_entry hw]
  rfl

/-- A first failure keeps the entry at the head. -/
theorem exec_entry_retried (hf : e.failures = 0) : exec (.indexEntryProgramEnd false) s =
    .next (((State.pumpLog { (s.endProgram g p false).raise (.media (.index e.body.kindCode)) with
      log := { s.log with waiting := { e with failures := 1 } :: rest, stage := .idle } }).afterOp)).holdIdle := by
  have hlog : ((s.endProgram g p false).raise (.media (.index e.body.kindCode))).log = s.log := by simp
  rw [exec_indexEntryProgramEnd hs hop, indexProgramEnd_of_entry hw, if_neg Bool.false_ne_true]
  unfold State.entryFailed
  dsimp only
  rw [if_pos hf, hlog, hw]

/-- The part after an entry that is given up, before the log goes on. -/
def State.entryGivenUp (s : State) (g p : Nat) (e : IndexEntry) : State :=
  let v : State := (s.endProgram g p false).raise (.media (.index e.body.kindCode))
  let u : State := v.dropHead.giveUp (s.endProgram g p false).port.tx.length e.body
  { u with log := { u.log with forceRollover := true } }

/-- A second failure gives the entry up, and a rollover is forced. -/
theorem exec_entry_givenUp (hf : e.failures ≠ 0) : exec (.indexEntryProgramEnd false) s =
    .next (((s.entryGivenUp g p e).pumpLog).afterOp).holdIdle := by
  rw [exec_indexEntryProgramEnd hs hop, indexProgramEnd_of_entry hw, if_neg Bool.false_ne_true]
  unfold State.entryFailed
  dsimp only
  rw [if_neg hf]
  rfl

end

theorem entryGivenUp_log {s : State} {e : IndexEntry} {rest : List IndexEntry} (hw : s.log.waiting = e :: rest) (g p : Nat) :
    (s.entryGivenUp g p e).log = { s.log with waiting := rest, stage := .idle, forceRollover := true } := by
  have hlog : ((s.endProgram g p false).raise (.media (.index e.body.kindCode))).log = s.log := by simp
  unfold State.entryGivenUp
  simp only [giveUp_frame]
  rw [dropHead_log _ e rest (by rw [hlog, hw]), hlog]

@[simp] theorem surveyAt_completeOp (s : State) (status : Status) (payload : Payload) (n : Nat) :
    (s.completeOp status payload).surveyAt n = s.surveyAt n := by
  simp [State.surveyAt]

/-! ### Gauge settings (R151, R166) -/

theorem takeGaugeSettings_level (s : State) (v : GaugeSettings) :
    (s.takeGaugeSettings v).gauge.level = s.gauge.level ∧ (s.takeGaugeSettings v).gauge.limit = s.gauge.limit := by
  unfold State.takeGaugeSettings State.restartReport Gauge.take
  dsimp only
  split <;> exact ⟨rfl, rfl⟩

/-- The report alarm is restarted with the new interval. -/
theorem takeGaugeSettings_clock (s : State) (v : GaugeSettings) : (s.takeGaugeSettings v).clock = { s.clock with
    nextReport := if v.reportInterval = 0 then none else some ((s.clock.seconds + v.reportInterval) % 4294967296) } := by
  have hv := settings_takeGaugeSettings s v
  unfold State.takeGaugeSettings State.restartReport at hv ⊢
  dsimp only at hv ⊢
  rw [hv]
  rfl

/-! ### How the log goes on (R96, R99, R102) -/

/-- FORMAT holds the log: its erases and its rollover run, or it waits and no entry is in flight. -/
def State.FormatHolds (s : State) : Prop :=
  ∃ r, s.formatRun = some r ∧ (r.stage ≠ .waiting ∨ ∀ e rest, s.log.waiting = e :: rest → e.issued = false)

theorem formatHoldsLog_iff (s : State) : s.formatHoldsLog = true ↔ s.FormatHolds := by
  unfold State.formatHoldsLog State.FormatHolds
  cases s.formatRun with
  | none => simp
  | some r =>
    cases hstage : r.stage with
    | waiting => cases s.log.waiting <;> simp [hstage]
    | erasing g => simp [hstage]
    | rollover => simp [hstage]

theorem pumpLog_of_held {s : State} (h : s.FormatHolds ∨ s.log.current = none ∨ s.log.stage ≠ .idle ∨ s.log.rollover ≠ .none ∨
    s.log.waiting = []) : s.pumpLog = s := by
  unfold State.pumpLog
  split
  · rfl
  next hfree =>
    simp only [Bool.or_eq_true, formatHoldsLog_iff, Option.isNone_iff_eq_none, bne_iff_ne, ne_eq, not_or, not_not] at hfree
    obtain ⟨⟨⟨hformat, hcurrent⟩, hstage⟩, hroll⟩ := hfree
    simp only [hformat, hcurrent, hstage, hroll, ne_eq, not_true_eq_false, false_or] at h
    rw [h]

theorem pumpLog_of_free {s : State} {e : IndexEntry} {rest : List IndexEntry} (hformat : ¬ s.FormatHolds)
    (hcurrent : s.log.current ≠ none) (hstage : s.log.stage = .idle) (hroll : s.log.rollover = .none) (hw : s.log.waiting = e :: rest) :
    s.pumpLog = if e.buffer.isSome then s.headReady else s.askEntry := by
  have hholds : s.formatHoldsLog = false := by rwa [← Bool.not_eq_true, formatHoldsLog_iff]
  unfold State.pumpLog
  rw [if_neg (by simp [hholds, hcurrent, hstage, hroll]), hw]

theorem askEntry_of_none {s : State} (hb : s.freeBuffer = none) : s.askEntry = { s with
    log := { s.log with stage := .waitBuffer }
    pool := { s.pool with indexWaiters := s.pool.indexWaiters ++ [.entry] } } := by
  unfold State.askEntry
  rw [hb]

theorem askEntry_of_owed {s : State} {b : Nat} (hb : s.freeBuffer = some b)
    (h : s.pool.indexWaiters ≠ [] ∨ s.pool.streamWaiters ≠ []) : s.askEntry = s := by
  unfold State.askEntry
  rw [hb]
  exact if_neg (by simp [State.nobodyWaits, ← not_and_or] at h ⊢; exact h)

theorem askEntry_of_free {s : State} {b : Nat} (hb : s.freeBuffer = some b) (hi : s.pool.indexWaiters = [])
    (hst : s.pool.streamWaiters = []) : s.askEntry = s.grantEntry b := by
  unfold State.askEntry
  rw [hb]
  exact if_pos (by simp [State.nobodyWaits, hi, hst])

/-! ### An entry's request (R96, R99) -/

/-- The entry that a request puts at the tail of the list. -/
def State.asked (s : State) (body : EntryBody) : IndexEntry :=
  { body := body, stamp := s.stamp, seq := none, buffer := none, failures := 0, issued := false }

theorem requestEntry_joins {s : State} {body : EntryBody} (hf : s.log.failed = false) (hu : s.power.unformatted = false)
    (hd : (∀ r, body ≠ .drop r) ∨ s.log.waiting.countP (fun e => e.body.isDrop) < 16) :
    s.requestEntry body = State.pumpLog { s with log := { s.log with waiting := s.log.waiting ++ [s.asked body] } } := by
  have hkept : ¬ (body.isDrop && decide (16 ≤ (s.log.waiting.filter (fun e => e.body.isDrop)).length)) = true := by
    rw [← List.countP_eq_length_filter]
    rcases hd with hbody | hcount
    · cases body
      case drop r => exact absurd rfl (hbody r)
      all_goals simp [EntryBody.isDrop]
    · simp [hcount]
  unfold State.requestEntry
  rw [if_neg (by simp [State.logRefuses, hf, hu])]
  dsimp only
  rw [if_neg hkept]
  rfl

/-! ### The chains of an erased survey (R69, R79) -/

theorem unused_of_idle {s : State} (hop : s.media.op = none) : s.unused = s.media.ready.length + s.media.free.length := by
  simp [State.unused, State.aheadInFlight, hop]

/-- Settles O54: the request, the two ends of an entry's program, and how the log goes on. -/
theorem indexEntries : Obligations.IndexEntries := by
  unfold Obligations.IndexEntries
  refine ⟨?_, ?_, ?_, ?_, ?_, ?_⟩
  · intro s body b cur hf hu hw hstage hroll hforce hcur hroom hrun hb hi hst e
    let v : State := { s with log := { s.log with waiting := [s.asked body] } }
    have hjoin : s.requestEntry body = v.pumpLog := by
      rw [requestEntry_joins hf hu (.inr (by simp [hw])), hw]
      rfl
    have hfree : ¬ v.FormatHolds := fun ⟨r, hr, _⟩ => absurd (hr.symm.trans hrun) nofun
    have hcurrent : v.log.current ≠ none := fun h => absurd (hcur.symm.trans h) nofun
    rw [hjoin, pumpLog_of_free hfree hcurrent hstage hroll rfl, if_neg (by simp [State.asked]), askEntry_of_free (s := v) hb hi hst,
      grantEntry_eq (s := v) b rfl, headReady_of_room (s := v.entryGranted (s.asked body) [] b) hforce hroom]
    rfl
  · intro s body hf hu hbusy hd
    rw [requestEntry_joins hf hu hd]
    refine pumpLog_of_held ?_
    tauto
  · intro s g p e rest hs hop hw
    refine ⟨⟨_, exec_entry_durable hs hop hw, ?_⟩, fun hfail => ⟨_, exec_entry_retried hs hop hw hfail, ?_⟩,
      fun hfail => ⟨_, exec_entry_givenUp hs hop hw hfail, ?_⟩⟩
    · obtain ⟨fl, n, bs, iw, hend, hstates⟩ := entryEnded_eq hw g p true
      rw [hend]
      refine ⟨by simp, fun b hb => ?_, fun n hb => ?_, fun n r q hb => ?_, fun n hb => ?_, fun x hb => ?_, fun x hb => ?_,
        fun l c named hb hc hreq => ?_, fun v hb => ?_, fun v hb => ?_, fun c hc hdrop hdown => durable_slot _ ⟨hdrop, hdown⟩⟩
      · rw [durable_bufferStates]
        exact hstates b hb
      · simp [hb, State.durable]
      · simp [hb, State.durable]
      · simp [hb, State.durable, surveyAt_removeSurvey]
      · simp [hb, State.durable]
      · simp [hb, State.durable]
      · simp [hb, State.durable, State.namedPorts, hc, hreq, namedLevels]
      · simp [hb, State.durable]
      · simp [hb, State.durable, settings_takeGaugeSettings, takeGaugeSettings_level]
    · simp
    · refine ⟨entryGivenUp_log hw g p, by simp [State.entryGivenUp], by simp [State.entryGivenUp], fun x hb => ?_,
        fun c hc hdrop hdown => giveUp_slot _ _ ⟨hdrop, hdown⟩⟩
      show (State.giveUp _ _ e.body).surveyAt x.number = none
      simp [hb, State.giveUp, surveyAt_removeSurvey]
  · intro s held
    refine ⟨pumpLog_of_held, fun e rest hheld hcur hstage hroll hw => ?_, fun c hc => nextRollover_of_candidate hc,
      fun hc => nextRollover_of_none hc⟩
    rw [pumpLog_of_free hheld hcur hstage hroll hw]
    refine ⟨fun hb hforce hroom => ?_, fun hb hforce => ?_, fun hb hfree => ?_,
      fun b hb hfree => ⟨fun howed => ?_, fun hi hst => ?_⟩⟩
    · rw [if_pos (Option.isSome_iff_ne_none.mpr hb), headReady_of_room hforce hroom]
    · rw [if_pos (Option.isSome_iff_ne_none.mpr hb), headReady_of_rollover hforce]
    · rw [if_neg (by simp [hb]), askEntry_of_none hfree]
    · rw [if_neg (by simp [hb]), askEntry_of_owed hfree howed]
    · rw [if_neg (by simp [hb]), askEntry_of_free hfree hi hst]
      rfl
  · intro s b e rest hw composed u
    have hgrant : s.grantIndex b .entry = u.headReady := grantEntry_eq b hw
    rw [hgrant]
    exact ⟨fun hforce hroom => headReady_of_room (s := u) hforce hroom, fun h => headReady_of_rollover (s := u) h⟩
  · intro s g p e rest hs hop hw
    refine ⟨fun n hb => ?_, fun v hb => ?_, fun x hb hfail => ⟨_, exec_entry_givenUp hs hop hw hfail, ?_, ?_, fun o ho hsup => ?_⟩⟩
    · obtain ⟨fl, k, bs, iw, hend, -⟩ := entryEnded_eq hw g p true
      refine ⟨(s.entryEnded g p true).releaseChains n, ((s.entryEnded g p true).releaseChains n).testMediaAvailable, ?_, ?_, ?_⟩
      · rw [exec_entry_durable hs hop hw, hb]
        rfl
      · rw [hend]
        rfl
      · intro unused live
        have hunused : unused = State.unused ((s.entryEnded g p true).releaseChains n) := (unused_of_idle (by rw [hend]; rfl)).symm
        have hlive : live = State.liveCount ((s.entryEnded g p true).releaseChains n) := by rw [hend]; rfl
        have hfull : ((s.entryEnded g p true).releaseChains n).media.mediaFull = s.media.mediaFull := by rw [hend]; rfl
        rw [hunused, hlive, ← hfull]
        exact ⟨testMediaAvailable_clears _, testMediaAvailable_keeps _⟩
    · obtain ⟨fl, k, bs, iw, hend, -⟩ := entryEnded_eq hw g p true
      refine ⟨(s.entryEnded g p true).durable e.body, exec_entry_durable hs hop hw, ?_⟩
      rw [hend, hb]
      refine ⟨fun habove => ?_, fun hwithin => ?_, ?_⟩
      · simp [State.durable, State.takeGaugeSettings, State.restartReport, Gauge.take, habove]
      · simp [State.durable, State.takeGaugeSettings, State.restartReport, Gauge.take, Nat.not_lt.mpr hwithin]
      · simp [State.durable, takeGaugeSettings_clock]
    · simp [State.entryGivenUp, hb, State.giveUp]
    · simp [State.entryGivenUp, hb, State.giveUp]
    · unfold State.entryGivenUp
      rw [hb]
      dsimp only [State.giveUp]
      rw [completeOp_of_slot _ o _ _ (by simpa using ho)]
      simp only [hsup]
      exact ⟨_, rfl⟩

end Sys2Proof.Machine
end

