-- ==== Sys2Proof/Proofs/DropDeclared.lean ====
section
/-! SUPPORT. A drop's declaration and its finish (R137, R141), the judgement of VERIFY (R138), and the erase that the park flag
abandons (R72). -/

open Sys2Proof Sys2Proof.Machine

namespace Sys2Proof.Machine

/-! ### The held entries become SUSPECT (R53, R83) -/

/-- The surveys of several entries get their had-suspect flag, and nothing else changes. -/
theorem flagSuspects_eq (s : State) (l : List Entry) : s.flagSuspects l = { s with table := { s.table with
    surveys := s.table.surveys.map (fun v => { v with hadSuspect := v.hadSuspect || l.any (fun e => e.survey == v.number) }) } } := by
  induction l generalizing s with
  | nil => simp [State.flagSuspects]
  | cons e l ih =>
    unfold State.flagSuspects
    rw [ih]
    simp only [State.flagSuspect, State.modSurvey, List.map_map]
    congr 2
    refine List.map_congr_left fun v _ => ?_
    by_cases hv : v.number = e.survey
    · simp [hv]
    · have hne : (e.survey == v.number) = false := beq_false_of_ne (Ne.symm hv)
      simp [hv, hne]

theorem suspectHeld_eq (s : State) : s.suspectHeld = { s with
    queue := s.queue.map (fun e => if e.state = .held then { e with state := .suspect } else e)
    table := { s.table with surveys := s.table.surveys.map (fun v =>
      { v with hadSuspect := v.hadSuspect || s.queue.any (fun e => e.state == .held && e.survey == v.number) }) } } := by
  unfold State.suspectHeld
  rw [flagSuspects_eq]
  simp only [List.any_filter]

/-! ### The drop is counted (R137) -/

/-- Whether a drop counts in a survey whose streams stand in given slots. -/
def Survey.countsIn (v : Survey) (slots : List Slot) : Bool := (v.state == .open || v.state == .closing) && slots.any (fun x =>
  (x.state == .loaded || x.state == .running || x.state == .paused) && (match x.desc with | some d => d.survey == v.number | none => false))

theorem live_eq (x : Slot) : x.live = (x.state == .loaded || x.state == .running || x.state == .paused) := by
  unfold Slot.live
  cases x.state <;> rfl

theorem dropCounts_eq (s : State) (v : Survey) : s.dropCounts v = v.countsIn s.slots := by
  unfold State.dropCounts State.hasLive Survey.countsIn
  simp only [live_eq] <;> rfl

@[simp] theorem raiseDrop_state (x : Slot) (t : Stamp) (number : Nat) (kind : DropKind) :
    (x.raiseDrop t number kind).state = x.state ∧ (x.raiseDrop t number kind).desc = x.desc := by
  unfold Slot.raiseDrop
  split <;> exact ⟨rfl, rfl⟩

/-- A DROP marker changes no slot's state or stream. -/
theorem countsIn_markDrop (v : Survey) (s : State) (number : Nat) (kind : DropKind) :
    v.countsIn (s.markDrop number kind).slots = v.countsIn s.slots := by
  unfold Survey.countsIn State.markDrop
  simp only [List.any_map]
  congr 2
  funext x
  dsimp only [Function.comp_apply]
  split <;> simp [Slot.discardSum]

/-! ### The declaration (R137) -/

/-- The record that a declaration begins. -/
def State.declaredRecord (s : State) (kind : DropKind) (start : Stamp) (holdUp : Nat) : DropRecord :=
  { number := s.monitor.newNumber, ordinal := if s.monitor.loaded then 0 else s.monitor.ordinals + 1, kind := kind, start := start
    fallTime := 0, height := 0, peak := 0, peakTenths := 0, rail := false, packLost := s.gauge.packLost, lowestHoldUp := holdUp
    power := s.power.state.detected
    pages := { suspect := min 255 (s.queue.countP (fun e => e.state == .held))
               carried := min 255 (s.queue.countP (fun e => e.state == .suspect || e.state == .verifying)) }
    surveys := ((s.table.surveys.filter (fun v => v.countsIn s.slots)).map Survey.number).take 16 }

/-- The part when the drop's record has begun and the HELD entries are SUSPECT, before the park flag is raised. -/
def State.declaring (s : State) (kind : DropKind) (start : Stamp) (holdUp : Nat) : State :=
  (s.modMonitor (fun m => { m with
    drop := some (s.declaredRecord kind start holdUp)
    total := if m.loaded then s.monitor.newNumber else m.total
    ordinals := if m.loaded then m.ordinals else m.ordinals + 1 })).suspectHeld

theorem raise_beginWake (s : State) (n : Notice) : (s.raise n).beginWake = s.beginWake.raise n := by
  simp only [beginWake_eq]
  unfold State.raise
  split <;> rfl

/-- The declaration, from the part whose park flag is raised. -/
theorem declareDrop_eq (s : State) (kind : DropKind) (start : Stamp) (holdUp : Nat) :
    let u : State := (s.declaring kind start holdUp).raisePark
    let number := s.monitor.newNumber
    s.declareDrop kind start holdUp = State.raise { u with
      slots := u.slots.map (fun x =>
        if x.state = .running ∨ x.state = .paused then { x.raiseDrop s.stamp number kind with acc := 0, fill := 0 } else x)
      table := { s.table with surveys := s.table.surveys.map (fun v =>
        let w : Survey := { v with hadSuspect := v.hadSuspect || s.queue.any (fun e => e.state == .held && e.survey == v.number) }
        if v.countsIn u.slots then { w with dropCount := min 65535 (v.dropCount + 1), lastDrop := number } else w) }
      power := { s.power with procedure :=
        if s.power.state = .doze ∧ s.power.procedure = .none then .wakeWait else s.power.procedure } }
      (.dropDeclared number kind start s.power.state) := by
  intro u number
  have hclock : u.clock = s.clock := by simp [u, State.declaring, State.modMonitor]
  have hpower : u.power = s.power := by simp [u, State.declaring, State.modMonitor]
  have htable : u.table = { s.table with surveys := s.table.surveys.map (fun v =>
      { v with hadSuspect := v.hadSuspect || s.queue.any (fun e => e.state == .held && e.survey == v.number) }) } := by
    have hraised : u.table = (s.declaring kind start holdUp).table := by simp [u]
    rw [hraised]
    unfold State.declaring
    rw [suspectHeld_eq]
    rfl
  have hdeclare : s.declareDrop kind start holdUp =
      State.beginWake (State.raise ((u.markDrop number kind).countDrop number)
        (.dropDeclared number kind start ((u.markDrop number kind).countDrop number).power.state)) := by
    unfold State.declareDrop
    rw [funext (dropCounts_eq s)]
    cases hloaded : s.monitor.loaded <;> simp only [u, number, State.declaring, State.declaredRecord, State.modMonitor, hloaded] <;> rfl
  have hcounted : (u.markDrop number kind).countDrop number = { u.markDrop number kind with table := { s.table with
      surveys := s.table.surveys.map (fun v =>
        let w : Survey := { v with hadSuspect := v.hadSuspect || s.queue.any (fun e => e.state == .held && e.survey == v.number) }
        if v.countsIn u.slots then { w with dropCount := min 65535 (v.dropCount + 1), lastDrop := number } else w) } } := by
    unfold State.countDrop
    simp only [dropCounts_eq, countsIn_markDrop, markDrop_frame, htable, List.map_map]
    rfl
  rw [hdeclare, raise_beginWake, beginWake_eq, hcounted]
  simp only [markDrop_frame, hpower]
  unfold State.markDrop
  simp only [State.stamp, hclock]
  rfl

/-- The part with its park flag up. -/
def State.parked (s : State) : State := { s with monitor := { s.monitor with park := true } }

theorem parked_of_park {s : State} (h : s.monitor.park = true) : s.parked = s := by
  unfold State.parked
  rw [← h]

theorem raisePark_eq (s : State) : s.raisePark = if s.monitor.park = true then s.parked else s.parked.abandonErase := by
  unfold State.raisePark
  split
  next h => exact (parked_of_park h).symm
  next => rfl

/-! ### The finish and the judgement of VERIFY (R138, R141) -/

theorem finishDrop_of_none {s : State} (h : s.monitor.drop = none) (n : Nat) : s.finishDrop n = s := by
  unfold State.finishDrop
  rw [h]

theorem judgeVerify_of_doubt {s : State} (h : s.monitor.state ≠ .verify ∨ ∃ e ∈ s.queue, e.inDoubt = true) : s.judgeVerify = s := by
  unfold State.judgeVerify
  refine if_neg fun hdone => ?_
  simp only [Bool.and_eq_true, beq_iff_eq, Bool.not_eq_true', List.any_eq_false] at hdone
  obtain ⟨hverify, hsure⟩ := hdone
  rcases h with hstate | ⟨e, he, hdoubt⟩
  · exact hstate hverify
  · exact hsure e he hdoubt

theorem judgeVerify_of_sure {s : State} (h : s.monitor.state = .verify) (hq : ∀ e ∈ s.queue, e.inDoubt = false) :
    s.judgeVerify = (s.finishDrop 0).enterWatch := by
  unfold State.judgeVerify
  exact if_pos (by simpa [h] using hq)

/-! ### The abandoned erase (R72) -/

/-- The part whose erase of a segment is abandoned: the port idle, the segment's pages free values. -/
def State.erasedDisturbed (s : State) (g : Nat) : State := { s with
  media := { s.media with op := none, flash := Flash.disturbSegment s.media.flash g s.freeCount }
  freeCount := s.freeCount + 256 }

theorem endErase_failed (s : State) (g : Nat) : s.endErase g false = s.erasedDisturbed g := by
  simp only [State.endErase, State.disturbSegment, State.erasedDisturbed, Bool.false_eq_true, if_false]

theorem returnErasing_eq (s : State) (g : Nat) : s.returnErasing g = State.offerAll { s with media := { s.media with
    segs := s.media.segs.modify g (fun x => { x with state := .free })
    free := g :: s.media.free
    takes := s.media.takes.map (fun t => if t.phase = .onAhead ∨ t.phase = .erase g then { t with phase := .remake } else t) } } := rfl

theorem abandonErase_of_returned {s : State} {g : Nat} (h : s.media.op = some (.aheadErase g) ∨ s.media.op = some (.takeErase g)) :
    s.abandonErase = (s.erasedDisturbed g).returnErasing g := by
  unfold State.abandonErase
  rcases h with h | h <;> simp only [h, endErase_failed]

theorem abandonErase_of_format {s : State} {g : Nat} (h : s.media.op = some (.formatErase g)) :
    s.abandonErase = if g < 4 then s.erasedDisturbed g else (s.erasedDisturbed g).setSegState g .free := by
  unfold State.abandonErase
  simp only [h, endErase_failed]

theorem abandonErase_of_index {s : State} {g : Nat} (h : s.media.op = some (.indexErase g)) : s.abandonErase = s.erasedDisturbed g := by
  unfold State.abandonErase
  simp only [h, endErase_failed]

theorem abandonErase_of_other {s : State} (h : ∀ g, s.media.op ≠ some (.aheadErase g) ∧ s.media.op ≠ some (.takeErase g) ∧
    s.media.op ≠ some (.formatErase g) ∧ s.media.op ≠ some (.indexErase g)) : s.abandonErase = s := by
  unfold State.abandonErase
  split
  case h_5 => rfl
  all_goals
    rename_i g hop
    obtain ⟨hahead, htake, hformat, hindex⟩ := h g
    contradiction

end Sys2Proof.Machine
end

