-- ==== Sys2Proof/Proofs/DropMonitor.lean ====
section
/-! PROOFS. The Drop Monitor's transitions (R129, R132 to R139), and with them the whole of its statement. -/

open Sys2Proof Sys2Proof.Machine

namespace Sys2Proof.Machine

/-! ### A scan as the monitor judges it (R129) -/

section
variable (s : State) (ax ay az vhold : Code)

theorem view_held : (s.view ax ay az vhold).cls = .held ↔ ¬ s.monitor.shock.impactLevel ≤ (s.view ax ay az vhold).peak ∧
    ¬ (s.view ax ay az vhold).peak ≤ s.monitor.shock.ffWindow := by
  unfold State.view classOf
  dsimp only
  split_ifs <;> simp [*]

theorem stillSince_iff (delta : Nat) (p d : Int × Int × Int) : stillSince delta p d = true ↔
    (d.1 - p.1).natAbs ≤ delta ∧ (d.2.1 - p.2.1).natAbs ≤ delta ∧ (d.2.2 - p.2.2).natAbs ≤ delta := by
  simp [stillSince, largest]

theorem view_quiet : (s.view ax ay az vhold).quiet = true ↔ (s.view ax ay az vhold).cls = .held ∧
    ∃ p, s.monitor.previous = some p ∧ stillSince s.monitor.shock.quietDelta p (s.view ax ay az vhold).devs = true := by
  unfold State.view
  dsimp only
  cases s.monitor.previous <;> simp

theorem view_rail : (s.view ax ay az vhold).rail = true ↔ (ax.toNat = 0 ∨ ax.toNat = 4095) ∨ (ay.toNat = 0 ∨ ay.toNat = 4095) ∨
    az.toNat = 0 ∨ az.toNat = 4095 := by
  simp [State.view, atRail, or_assoc]

theorem view_credit : (s.view ax ay az vhold).credit = if s.power.state = .doze then 4 else 1 := by
  unfold State.view
  cases s.power.state <;> rfl

/-! ### The scan's end (R123) -/

/-- The part that the monitor judges: the scan's results stand, and a drop in progress has its hold-up. -/
def State.latched : State := { s with
  sampler := s.sampler.latch 0 [ax.toNat, ay.toNat, az.toNat, vhold.toNat]
  monitor := { s.monitor with drop := s.monitor.drop.map (fun r => { r with lowestHoldUp := min r.lowestHoldUp (vhold.toNat * 4) }) } }

/-- The monitor's transition on a scan. -/
def State.transition (s : State) (v : ScanView) : State :=
  match s.monitor.state with
  | .watch => s.scanWatch v
  | .fallWait => s.scanFallWait v
  | .falling => s.scanFalling v
  | .impact => s.scanImpact v
  | .settling => s.scanSettling v
  | .verify => s.scanVerify v

/-- The end of a shock scan, once the monitor has made its transition to `x`. -/
def State.scanEnded (x : State) (devs : Int × Int × Int) (mv : Nat) : State :=
  (((((State.gaugeShock { x with monitor := { x.monitor with previous := some devs } } mv).nextScan).formatGate).arbitrate)).holdIdle

variable {s}

theorem exec_shockScanEnd (hs : s.Settled) (hrun : s.sampler.running = some .shock) : exec (.shockScanEnd ax ay az vhold) s =
    .next (((s.latched ax ay az vhold).transition (s.view ax ay az vhold)).scanEnded (s.view ax ay az vhold).devs (vhold.toNat * 4)) := by
  show Host.Outcome.next (s.settle.shockEnd ax ay az vhold).holdIdle = _
  rw [settle_of_settled hs]
  unfold State.shockEnd
  rw [if_pos hrun]
  rfl

end

/-! ### The settle count (R135, R136) -/

section
variable {s : State} {v : ScanView} {time credit : Nat} (hs : s.monitor.shock.settleTime = time) (hc : v.credit = credit)
include hs

theorem judgeSettle_moved (hq : ¬ v.quiet = true) (ht : 1 ≤ time) :
    s.judgeSettle v = { s with monitor := { s.monitor with settle := 0 } } := by
  subst hs
  unfold State.judgeSettle ScanView.settle
  rw [if_neg hq]
  exact if_neg (Nat.not_le.mpr ht)

include hc

theorem judgeSettle_reached (hq : v.quiet = true) (ht : time ≤ min 65535 (s.monitor.settle + credit)) :
    s.judgeSettle v =
      State.judgeVerify { s with monitor := { s.monitor with settle := min 65535 (s.monitor.settle + credit), state := .verify } } := by
  subst hs hc
  unfold State.judgeSettle ScanView.settle
  rw [if_pos hq]
  exact if_pos ht

theorem judgeSettle_short (hq : v.quiet = true) (ht : min 65535 (s.monitor.settle + credit) < time) :
    s.judgeSettle v = { s with monitor := { s.monitor with settle := min 65535 (s.monitor.settle + credit) } } := by
  subst hs hc
  unfold State.judgeSettle ScanView.settle
  rw [if_pos hq]
  exact if_neg (Nat.not_le.mpr ht)

end

/-! ### What a declaration and a finish leave of the settings -/

theorem declareDrop_shock (s : State) (kind : DropKind) (start : Stamp) (holdUp : Nat) :
    (s.declareDrop kind start holdUp).monitor.shock = s.monitor.shock := by
  rw [declareDrop_eq]
  simp only [raise_frame]
  rw [raisePark_eq]
  split <;> simp [State.parked, State.declaring, State.modMonitor]

theorem finishDrop_shock (s : State) (n : Nat) : (s.finishDrop n).monitor.shock = s.monitor.shock := by
  unfold State.finishDrop
  split
  · rfl
  · simp only [raise_frame, requestEntry_frame, State.modMonitor]
    split <;> rfl

theorem finishDrop_stamp (s : State) (n : Nat) : (s.finishDrop n).stamp = s.stamp := by
  simp [State.stamp]

/-- Settles O31: a scan in each monitor state, the judgement of VERIFY, the finish, the declaration, and the abandoned erase. -/
theorem dropMonitor : Obligations.DropMonitor := by
  unfold Obligations.DropMonitor
  refine ⟨?_, ?_, ?_, ?_, ?_⟩
  · -- a scan, in each state of the monitor: `ends x` once the transition is known to lead to `x`
    intro s ax ay az vhold hs hrun v d big impact free held quiet rail credit mv m base clock fell ends settling struck unresolved
      declared
    let vw : ScanView := s.view ax ay az vhold
    have hexec := exec_shockScanEnd ax ay az vhold hs hrun
    have himpact : impact → vw.cls = .impact := fun h => if_pos h
    have hfree : free → vw.cls = .free := fun h => (if_neg h.1).trans (if_pos h.2)
    have hheld : held → vw.cls = .held := fun h => (if_neg h.1).trans (if_neg h.2)
    have hquiet : vw.quiet = true ↔ quiet := (view_quiet s ax ay az vhold).trans
      (and_congr (view_held s ax ay az vhold) (exists_congr fun p => and_congr_right' (stillSince_iff v.quietDelta p d)))
    have hrail : vw.rail = true ↔ rail := view_rail s ax ay az vhold
    have hcredit : vw.credit = credit := view_credit s ax ay az vhold
    have hends : ∀ x, base.transition vw = x → ends x := fun x h => by
      subst h
      exact hexec
    have hsettling : ∀ x : State, x.monitor.shock = v → base.transition vw = x.judgeSettle vw → settling x := fun x hx h =>
      have htime : x.monitor.shock.settleTime = v.settleTime := by rw [hx]
      ⟨fun hq ht => hends _ (h.trans (judgeSettle_reached htime hcredit (hquiet.mpr hq) ht)),
        fun hq ht => hends _ (h.trans (judgeSettle_short htime hcredit (hquiet.mpr hq) ht)),
        fun hq ht => hends _ (h.trans (judgeSettle_moved htime (fun hv => hq (hquiet.mp hv)) ht))⟩
    have hstruck : ∀ x : State, x.monitor.shock = v → base.transition vw = x.scanImpact vw → struck x := fun x hx h => by
      refine ⟨x.monitor.drop.map (fun r => { r with peak := max r.peak big, rail := r.rail || vw.rail }),
        fun hr => ?_, fun hr => ?_, ?_⟩
      · simp only [hrail.mpr hr, Bool.or_true]
      · simp only [Bool.eq_false_iff.mpr fun hv => hr (hrail.mp hv), Bool.or_false]
      · exact hsettling _ hx h
    have hdeclared : ∀ x : State, x.monitor.shock = v → x.stamp = s.stamp → base.transition vw = x.declareImpact vw → declared x :=
      fun x hx hstamp h => hstruck _ ((declareDrop_shock x _ _ _).trans hx) (h.trans (by rw [← hstamp]; rfl))
    refine ⟨fun (hstate : base.monitor.state = _) => ?_, fun (hstate : base.monitor.state = _) => ?_,
      fun (hstate : base.monitor.state = _) => ?_, fun (hstate : base.monitor.state = _) => ?_,
      fun (hstate : base.monitor.state = _) => ?_, fun (hstate : base.monitor.state = _) => ?_⟩
    · -- WATCH (R132)
      have hscan : base.transition vw = base.scanWatch vw := by rw [State.transition, hstate]
      refine ⟨fun h => hdeclared _ rfl rfl ?_, fun h => hends _ ?_, fun h => hends _ ?_⟩
      · rw [hscan, State.scanWatch, himpact h]
      · rw [hscan, State.scanWatch, hfree h]
        rfl
      · rw [hscan, State.scanWatch, hheld h]
    · -- FALL-WAIT (R133)
      have hscan : base.transition vw = base.scanFallWait vw := by rw [State.transition, hstate]
      refine ⟨fun h => hdeclared _ rfl rfl ?_, fun h ht => hends _ ?_, fun h ht => hends _ ?_, fun h hp => hends _ ?_,
        fun h hp => hends _ ?_⟩
      · rw [hscan, State.scanFallWait, hcredit, himpact h]
        rfl
      · rw [hscan, State.scanFallWait, hcredit, hfree h]
        exact if_pos ht
      · rw [hscan, State.scanFallWait, hcredit, hfree h]
        exact if_neg (Nat.not_le.mpr ht)
      · rw [hscan, State.scanFallWait, hcredit, hheld h]
        exact if_neg (Bool.eq_false_iff.mp hp)
      · rw [hscan, State.scanFallWait, hcredit, hheld h]
        exact if_pos hp
    · -- FALLING (R134)
      have hscan : base.transition vw = base.scanFalling vw := by rw [State.transition, hstate]
      refine ⟨fun h => hstruck _ rfl ?_, fun h => ⟨fun ht => hends _ ?_, fun ht hcap => hends _ ?_, fun ht hcap => hends _ ?_⟩,
        fun h hcap => hends _ ?_, fun h hcap => hends _ ?_⟩
      · rw [hscan, State.scanFalling, hcredit, himpact h]
        rfl
      · rw [hscan, State.scanFalling, hcredit, hheld h]
        exact if_pos ht
      · rw [hscan, State.scanFalling, hcredit, hheld h]
        exact (if_neg (Nat.not_le.mpr ht)).trans (if_neg (Nat.not_le.mpr hcap))
      · rw [hscan, State.scanFalling, hcredit, hheld h]
        exact (if_neg (Nat.not_le.mpr ht)).trans (if_pos hcap)
      · rw [hscan, State.scanFalling, hcredit, hfree h]
        exact if_neg (Nat.not_le.mpr hcap)
      · rw [hscan, State.scanFalling, hcredit, hfree h]
        exact if_pos hcap
    · -- IMPACT (R135)
      exact hstruck _ rfl (by rw [State.transition, hstate])
    · -- SETTLING (R136)
      have hscan : base.transition vw = base.scanSettling vw := by rw [State.transition, hstate]
      refine ⟨fun h => hstruck _ rfl ?_, fun h => hsettling _ rfl ?_⟩
      · rw [hscan, State.scanSettling, himpact h]
        rfl
      · by_cases hwindow : big ≤ v.ffWindow
        · rw [hscan, State.scanSettling, hfree ⟨h, hwindow⟩]
        · rw [hscan, State.scanSettling, hheld ⟨h, hwindow⟩]
    · -- VERIFY (R139)
      have hscan : base.transition vw = base.scanVerify vw := by rw [State.transition, hstate]
      refine ⟨fun h => hends _ ?_, fun h => hdeclared _ (finishDrop_shock _ _) ?_ ?_, fun h => hends _ ?_⟩
      · rw [hscan, State.scanVerify, hheld h]
      · exact finishDrop_stamp base unresolved
      · rw [hscan, State.scanVerify, himpact h]
        rfl
      · rw [hscan, State.scanVerify, hfree h, State.goFallWait, finishDrop_stamp]
        rfl
  · -- the judgement of VERIFY (R138)
    intro s
    refine ⟨fun h => judgeVerify_of_doubt ?_, fun hverify hq => ?_⟩
    · refine h.imp id fun ⟨e, he, hstate⟩ => ⟨e, he, ?_⟩
      rcases hstate with hstate | hstate | hstate <;> simp [Entry.inDoubt, hstate]
    · rw [judgeVerify_of_sure hverify fun e he => by rcases hq e he with h | h <;> simp [Entry.inDoubt, h]]
      rfl
  · -- the finish (R141)
    intro s n
    refine ⟨fun h => finishDrop_of_none h n, fun r hr => ?_⟩
    unfold State.finishDrop
    rw [hr]
    rfl
  · -- the declaration (R137)
    intro s kind start holdUp number counts suspects parked u
    have hraised : (s.declaring kind start holdUp).raisePark = u := by
      rw [raisePark_eq]
      unfold State.declaring
      rw [suspectHeld_eq]
      rfl
    rw [declareDrop_eq, hraised]
    rfl
  · -- the abandoned erase (R72)
    intro s ended freed
    refine ⟨fun g h => (abandonErase_of_returned h).trans (returnErasing_eq _ g), fun g h => ⟨fun hg => ?_, fun hg => ?_⟩,
      fun g h => abandonErase_of_index h, abandonErase_of_other⟩
    · rw [abandonErase_of_format h, if_pos hg]
      rfl
    · rw [abandonErase_of_format h, if_neg (Nat.not_lt.mpr hg)]
      rfl

end Sys2Proof.Machine
end

