-- ==== Sys2Proof/Proofs/SurveyEntries.lean ====
section
/-! The settled statements on SURVEY-OPEN, and on the commands that request an entry for a survey in the table. -/

open Sys2Proof Sys2Proof.Machine

namespace Sys2Proof.Machine

/-! ### SURVEY-OPEN (R88) -/

theorem nameOk_iff (name : List Byte) :
    nameOk name = true ↔ 1 ≤ name.length ∧ name.length ≤ 16 ∧ ∀ b ∈ name, 32 ≤ b.toNat ∧ b.toNat ≤ 126 := by
  simp [nameOk, and_assoc]

/-- The first check of SURVEY-OPEN: its name and both thresholds lie in their ranges. -/
def Frame.OpenInRange (f : Frame) : Prop :=
  (1 ≤ f.nameField.length ∧ f.nameField.length ≤ 16 ∧ ∀ b ∈ f.nameField, 32 ≤ b.toNat ∧ b.toNat ≤ 126) ∧
    field f.payload 0 1 ≤ 3 ∧ field f.payload 1 1 ≤ 3

theorem openFields_bad_iff (f : Frame) :
    nameOk f.nameField = false ∨ 3 < field f.payload 0 1 ∨ 3 < field f.payload 1 1 ↔ ¬ f.OpenInRange := by
  unfold Frame.OpenInRange
  rw [← nameOk_iff, not_and_or, not_and_or, Bool.not_eq_true, not_le, not_le]

theorem openRefused_of_not {s : State} {f : Frame} (h : ¬ f.OpenInRange) : s.openRefused f = some .param :=
  if_pos ((openFields_bad_iff f).mpr h)

/-- The checks of SURVEY-OPEN after the field ranges, in their order. -/
theorem openRefused_of_inRange {s : State} {f : Frame} (h : f.OpenInRange) : s.openRefused f =
    if s.power.unformatted then some .state
    else if 64 ≤ s.table.surveys.length ∨ 65536 ≤ s.table.nextNumber then some .full else none :=
  if_neg fun hbad => (openFields_bad_iff f).mp hbad h

theorem surveyOpen_refused {s : State} {f : Frame} {level : Nat} {st : Status} (h : s.openRefused f = some st) :
    s.surveyOpen f level = s.refuse .surveyOpen f level st := by
  simp only [State.surveyOpen, h]

/-- An accepted SURVEY-OPEN puts its unconfirmed survey in the table and requests the entry. -/
theorem surveyOpen_accepted {s : State} {f : Frame} {level : Nat} (h : s.openRefused f = none) :
    s.surveyOpen f level = (State.requestEntry { s.accept .surveyOpen f level (.surveyOpen s.table.nextNumber) with
      table := { s.table with surveys := insertSurvey (s.newSurvey f level) s.table.surveys, nextNumber := s.table.nextNumber + 1 } }
      (.surveyOpened (s.newSurvey f level).record)).arbitrate := by
  simp only [State.surveyOpen, h]
  rfl

/-- A threshold in range is clamped from below alone. -/
theorem clamp_of_le {level t : Nat} (h : t ≤ 3) : clamp level 3 t = max level t := by
  rw [clamp, min_eq_right h]

/-- Settles O39: the three checks in their order, and the new survey of an accepted command. -/
theorem surveyOpen : Obligations.SurveyOpen := by
  unfold Obligations.SurveyOpen
  intro s f h r e name level inRange refused
  have hrefused {st : Status} (hr : s.openRefused f = some st) : exec .surveyOpen s = refused st :=
    exec_row_refused h (surveyOpen_refused hr)
  refine ⟨fun hnot => hrefused (openRefused_of_not hnot), fun (hin : f.OpenInRange) hu => hrefused ?_,
    fun (hin : f.OpenInRange) hu hfull => hrefused ?_, fun (hin : f.OpenInRange) hu hlen hnum => ?_⟩
  all_goals have hchecks := openRefused_of_inRange (s := s) hin
  · rw [hchecks, if_pos hu]
  · rw [hchecks, if_neg (by simp [hu]), if_pos hfull]
  · rw [if_neg (by simp [hu]), if_neg (by omega)] at hchecks
    have hrow := exec_row_of_takes h
    rw [show Opcode.rule .surveyOpen s f (s.effective f) = _ from surveyOpen_accepted hchecks] at hrow
    simp only [State.newSurvey, clamp_of_le hin.2.1, clamp_of_le hin.2.2] at hrow
    exact hrow

/-! ### Level fields (R86, R91) -/

/-- A level field is in range where it holds 0 to 3 or KEEP. -/
theorem levelField_eq (p : List Byte) (off : Nat) : levelField p off =
    if field p off 1 ≤ 3 ∨ field p off 1 = 255 then some (if field p off 1 = 255 then none else some (field p off 1)) else none := by
  unfold levelField keepField
  by_cases hkeep : field p off 1 = 255
  · simp [hkeep]
  · simp [hkeep]

theorem levelField_isSome (p : List Byte) (off : Nat) : (levelField p off).isSome = true ↔ field p off 1 ≤ 3 ∨ field p off 1 = 255 := by
  rw [levelField_eq]
  split <;> simp_all

/-- The threshold that a field in range results in (R91). -/
theorem newThreshold_levelField {p : List Byte} {off : Nat} (creator old : Nat) (h : field p off 1 ≤ 3 ∨ field p off 1 = 255) :
    newThreshold creator old (levelField p off).join =
      if field p off 1 = 255 then old else max creator (min 3 (field p off 1)) := by
  rw [levelField_eq, if_pos h]
  split <;> rfl

/-! ### SURVEY-THRESHOLDS, SURVEY-LOCK and SURVEY-ERASE (R91, R92, R93) -/

/-- The range that check 1 of R87 asks of the fields after the survey number. -/
def entryInRange : Opcode → List Byte → Bool
  | .surveyThresholds, p => (levelField p 2).isSome && (levelField p 3).isSome
  | _, _ => true

/-- The level that check 3 of R87 asks for. -/
def entryLimit (o : Opcode) (v : Survey) : Nat := if o = .surveyErase then v.eraseThreshold else v.creator

theorem entryInRange_iff (o : Opcode) (p : List Byte) : entryInRange o p = true ↔ ∀ off, off = 2 ∨ off = 3 →
    o = .surveyThresholds → field p off 1 ≤ 3 ∨ field p off 1 = 255 := by
  by_cases ho : o = .surveyThresholds
  · subst ho
    simp [entryInRange, levelField_isSome]
  · have htrue : entryInRange o p = true := by
      unfold entryInRange
      split
      · exact absurd rfl ho
      · rfl
    simp [htrue, ho]

/-- A command that requests a survey's entry makes checks 1 to 3 of R87 first. -/
theorem rule_of_surveyCheck {o : Opcode} {s : State} {f : Frame} {level : Nat} {st : Status}
    (ho : o = .surveyThresholds ∨ o = .surveyLock ∨ o = .surveyErase)
    (h : s.surveyCheck f.surveyField level (entryInRange o f.payload) (entryLimit o) = .inl st) :
    o.rule s f level = s.refuse o f level st := by
  rcases ho with rfl | rfl | rfl
  · have hcheck : s.surveyCheck f.surveyField level ((levelField f.payload 2).isSome && (levelField f.payload 3).isSome)
        Survey.creator = .inl st := h
    simp only [Opcode.rule, State.surveyThresholds, hcheck]
  · have hcheck : s.surveyCheck f.surveyField level true Survey.creator = .inl st := h
    simp only [Opcode.rule, State.surveyLock, hcheck]
  · have hcheck : s.surveyCheck f.surveyField level true Survey.eraseThreshold = .inl st := h
    simp only [Opcode.rule, State.surveyErase, hcheck]

/-- SURVEY-THRESHOLDS past check 3: it may lower a threshold only (R91). -/
theorem surveyThresholds_found {s : State} {f : Frame} {level : Nat} {v : Survey}
    (h : s.surveyCheck f.surveyField level (entryInRange .surveyThresholds f.payload) (entryLimit .surveyThresholds) = .inr v) :
    s.surveyThresholds f level =
      if v.readThreshold < newThreshold v.creator v.readThreshold (levelField f.payload 2).join ∨
          v.eraseThreshold < newThreshold v.creator v.eraseThreshold (levelField f.payload 3).join then
        s.refuse .surveyThresholds f level .level
      else ((s.accept .surveyThresholds f level (.surveyThresholds v.number)).requestEntry (.thresholdsSet v.number
        (newThreshold v.creator v.readThreshold (levelField f.payload 2).join)
        (newThreshold v.creator v.eraseThreshold (levelField f.payload 3).join))).arbitrate := by
  have hcheck : s.surveyCheck f.surveyField level ((levelField f.payload 2).isSome && (levelField f.payload 3).isSome)
      Survey.creator = .inr v := h
  simp only [State.surveyThresholds, hcheck]

/-- SURVEY-LOCK past check 3 needs the survey CLOSED (R92). -/
theorem surveyLock_found {s : State} {f : Frame} {level : Nat} {v : Survey}
    (h : s.surveyCheck f.surveyField level true Survey.creator = .inr v) : s.surveyLock f level =
      if v.state = .closed then
        ((s.accept .surveyLock f level (.surveyLock v.number)).requestEntry (.surveyLocked v.number)).arbitrate
      else s.refuse .surveyLock f level .state := by
  simp only [State.surveyLock, h]

/-- SURVEY-ERASE past check 3 needs the survey CLOSED (R93). -/
theorem surveyErase_found {s : State} {f : Frame} {level : Nat} {v : Survey}
    (h : s.surveyCheck f.surveyField level true Survey.eraseThreshold = .inr v) : s.surveyErase f level =
      if v.state = .closed then
        ((s.accept .surveyErase f level (.surveyErase v.number)).requestEntry (.surveyErased v.number)).arbitrate
      else s.refuse .surveyErase f level .state := by
  simp only [State.surveyErase, h]

/-- A survey found at a level that check 3 of R87 lets pass. -/
theorem surveyCheck_passed {s : State} {n level : Nat} {limit : Survey → Nat} {v : Survey} (h0 : n ≠ 0)
    (hv : s.confirmedSurvey n = some v) (hle : level ≤ limit v) : s.surveyCheck n level true limit = .inr v := by
  rw [surveyCheck_found s n level limit v h0 hv, if_neg (Nat.not_lt.mpr hle)]

/-- Settles O41: checks 1 to 3 of R87 for all three commands at once, then each command's own check and its entry. -/
theorem surveyEntries : Obligations.SurveyEntries := by
  unfold Obligations.SurveyEntries
  intro o s f h ho n level refused requested fieldOk
  have hrow := exec_row_of_takes h
  have hrefused {st : Status} (hr : s.surveyCheck n level (entryInRange o f.payload) (entryLimit o) = .inl st) :
      exec o.row s = refused st := exec_row_refused h (rule_of_surveyCheck ho hr)
  have hrange (h2 : fieldOk 2) (h3 : fieldOk 3) : entryInRange o f.payload = true :=
    (entryInRange_iff o f.payload).mpr fun off hoff => by rcases hoff with rfl | rfl <;> assumption
  refine ⟨fun hbad => hrefused ?_, fun h0 h2 h3 hv => hrefused ?_,
    fun v h0 h2 h3 hv => ⟨fun hlt => hrefused ?_, fun hle ho => ?_, fun hle ho => ?_, fun hle ho => ?_⟩⟩
  · -- check 1
    unfold State.surveyCheck
    rw [if_pos]
    refine hbad.imp id fun hfield => Bool.eq_false_iff.mpr fun hin => ?_
    have hall := (entryInRange_iff o f.payload).mp hin
    exact hfield.elim (fun h2 => h2 (hall 2 (.inl rfl))) fun h3 => h3 (hall 3 (.inr rfl))
  · rw [hrange h2 h3]
    exact surveyCheck_noSuch s n level _ h0 hv
  · rw [hrange h2 h3, surveyCheck_found s n level _ v h0 hv]
    exact if_pos hlt
  · -- SURVEY-THRESHOLDS
    intro next
    subst ho
    have hrule := surveyThresholds_found (level := level) (by
      rw [hrange h2 h3]
      exact surveyCheck_passed (limit := entryLimit .surveyThresholds) h0 hv hle)
    rw [newThreshold_levelField _ _ (h2 rfl), newThreshold_levelField _ _ (h3 rfl), number_of_confirmed hv] at hrule
    refine ⟨fun hraise => exec_row_refused h (hrule.trans (if_pos hraise)), fun hr he => ?_⟩
    rw [show Opcode.rule .surveyThresholds s f (s.effective f) = _ from hrule.trans (if_neg (by
      rw [not_or, not_lt, not_lt]
      exact ⟨hr, he⟩))] at hrow
    exact hrow
  · -- SURVEY-LOCK
    subst ho
    have hrule := surveyLock_found (surveyCheck_passed h0 hv hle)
    rw [number_of_confirmed hv] at hrule
    refine ⟨fun hst => exec_row_refused h (hrule.trans (if_neg hst)), fun hst => ?_⟩
    rw [show Opcode.rule .surveyLock s f (s.effective f) = _ from hrule.trans (if_pos hst)] at hrow
    exact hrow
  · -- SURVEY-ERASE
    subst ho
    have hrule := surveyErase_found (surveyCheck_passed h0 hv hle)
    rw [number_of_confirmed hv] at hrule
    refine ⟨fun hst => exec_row_refused h (hrule.trans (if_neg hst)), fun hst => ?_⟩
    rw [show Opcode.rule .surveyErase s f (s.effective f) = _ from hrule.trans (if_pos hst)] at hrow
    exact hrow

end Sys2Proof.Machine
end

