-- ==== Sys2Proof/Proofs/SettingsCommands.lean ====
section
/-! The settled statement on SET-LEVELS, SET-SHOCK and SET-GAUGE. -/

open Sys2Proof Sys2Proof.Machine

namespace Sys2Proof.Machine

/-! ### The fields (R86, R130, R150) -/

/-- A settings field that holds KEEP keeps the value in effect; any other is clamped. -/
theorem keepClamp_eq (p : List Byte) (off len old lo hi : Nat) : keepClamp p off len old lo hi =
    if field p off len = 2 ^ (8 * len) - 1 then old else max lo (min hi (field p off len)) := by
  unfold keepClamp keepField
  split
  · rename_i hnone
    rw [if_pos (by simpa using hnone)]
  · rename_i v hsome
    obtain ⟨hkeep, rfl⟩ : ¬ field p off len = 2 ^ (8 * len) - 1 ∧ field p off len = v := by simpa using hsome
    rw [if_neg hkeep]
    rfl

/-- Each of the four level fields of SET-LEVELS holds 0 to 3 or KEEP. -/
def LevelsInRange (p : List Byte) : Prop := ∀ k, 1 ≤ k → k ≤ 4 → field p k 1 ≤ 3 ∨ field p k 1 = 255

/-- The levels that SET-LEVELS names, port by port. -/
def levelsNamed (p : List Byte) : List (Option Nat) :=
  [1, 2, 3, 4].map (fun k => if field p k 1 = 255 then none else some (field p k 1))

theorem levelFields_of_inRange {p : List Byte} (h : LevelsInRange p) : levelFields p = some (levelsNamed p) := by
  have hfield {k : Nat} (hlo : 1 ≤ k) (hhi : k ≤ 4) : levelField p k = some (if field p k 1 = 255 then none else some (field p k 1)) := by
    rw [levelField_eq, if_pos (h k hlo hhi)]
  unfold levelFields
  rw [hfield (k := 1) (by decide) (by decide), hfield (k := 2) (by decide) (by decide), hfield (k := 3) (by decide) (by decide),
    hfield (k := 4) (by decide) (by decide)]
  rfl

theorem levelFields_of_not {p : List Byte} (h : ¬ LevelsInRange p) : levelFields p = none := by
  refine Option.eq_none_iff_forall_ne_some.mpr fun named hnamed => h fun k hlo hhi => (levelField_isSome p k).mp ?_
  unfold levelFields at hnamed
  split at hnamed
  · rename_i h1 h2 h3 h4
    obtain rfl | rfl | rfl | rfl : k = 1 ∨ k = 2 ∨ k = 3 ∨ k = 4 := by omega
    · rw [h1]; rfl
    · rw [h2]; rfl
    · rw [h3]; rfl
    · rw [h4]; rfl
  · cases hnamed

/-! ### SET-LEVELS (R86) -/

theorem setLevels_level {s : State} {f : Frame} {level : Nat} (h : level ≠ 0) :
    s.setLevels f level = s.refuse .setLevels f level .level := if_pos h

theorem setLevels_outOfRange {s : State} {f : Frame} (h : ¬ LevelsInRange f.payload) :
    s.setLevels f 0 = s.refuse .setLevels f 0 .param := by
  simp only [State.setLevels, levelFields_of_not h, ne_eq, not_true_eq_false, if_false]

/-- With its levels in range, the scope decides. -/
theorem setLevels_inRange {s : State} {f : Frame} (h : LevelsInRange f.payload) : s.setLevels f 0 =
    if field f.payload 0 1 = 1 then s.setPresent f 0 (levelsNamed f.payload)
    else if field f.payload 0 1 = 2 then s.setStored f 0 (levelsNamed f.payload)
    else s.refuse .setLevels f 0 .param := by
  simp only [State.setLevels, levelFields_of_inRange h, ne_eq, not_true_eq_false, if_false]
  split
  · rename_i hscope; rw [if_pos hscope]
  · rename_i hscope; rw [hscope]; rfl
  · rename_i h1 h2; rw [if_neg h1, if_neg h2]

/-- Scope PRESENT sets the present levels and answers in the kept place in the same event. -/
theorem setPresent_eq (s : State) (f : Frame) (level : Nat) (named : List (Option Nat)) : s.setPresent f level named = { s with
    slot := none
    table := { s.table with present := namedLevels s.table.present named }
    port := { s.port with tx := s.port.tx ++ [.reply
      { port := f.port, tag := f.tag, level := level, status := .ok, kept := true,
        payload := .levels (namedLevels s.table.present named) }] } } := rfl

/-- The checks of scope STORED, in their order. -/
theorem setStored_eq (s : State) (f : Frame) (level : Nat) (named : List (Option Nat)) : s.setStored f level named =
    if 0 ∉ namedLevels s.table.stored named then s.refuse .setLevels f level .param
    else if s.power.unformatted then s.refuse .setLevels f level .state
    else ((s.accept .setLevels f level (.setLevels named)).requestEntry (.ports (namedLevels s.table.stored named))).arbitrate := by
  simp only [State.setStored, ← List.contains_iff_mem, Bool.not_eq_true]

/-! ### SET-SHOCK and SET-GAUGE (R130, R150) -/

/-- Settles O43: SET-LEVELS by level, range and scope, and the two settings commands by level and format. -/
theorem settingsCommands : Obligations.SettingsCommands := by
  unfold Obligations.SettingsCommands
  intro o s f h level b kept refused accepted requested
  have hrow := exec_row_of_takes h
  have hrefused {st : Status} (hr : o.rule s f level = s.refuse o f level st) : exec o.row s = refused st := exec_row_refused h hr
  have hkept (off len old lo hi : Nat) : keepClamp f.payload off len old lo hi = kept off len old lo hi :=
    keepClamp_eq f.payload off len old lo hi
  have hformatted (hu : s.power.unformatted = false) : ¬ s.power.unformatted = true := by simp [hu]
  refine ⟨fun ho => ?_, fun ho => ?_, fun ho => ?_⟩
  · intro inRange named scope present stored
    subst ho
    refine ⟨fun hl => hrefused (setLevels_level hl), fun hl hnot => hrefused ?_, fun hl (hin : LevelsInRange f.payload) => ?_⟩
    · rw [hl]
      exact setLevels_outOfRange hnot
    · have hscope : s.setLevels f level = if scope = 1 then s.setPresent f level named
          else if scope = 2 then s.setStored f level named else s.refuse .setLevels f level .param := by
        rw [hl]
        exact setLevels_inRange hin
      refine ⟨fun h1 h2 => hrefused (hscope.trans ((if_neg h1).trans (if_neg h2))), fun h1 => ?_, fun h2 hno => hrefused ?_,
        fun h2 hyes hu => hrefused ?_, fun h2 hyes hu => ?_⟩
      · rw [show Opcode.rule .setLevels s f (s.effective f) = _ from hscope.trans (if_pos h1), setPresent_eq, hl] at hrow
        exact hrow
      all_goals rw [if_neg (by omega), if_pos h2, setStored_eq] at hscope
      · exact hscope.trans (if_pos hno)
      all_goals rw [if_neg (not_not_intro (show 0 ∈ namedLevels s.table.stored named from hyes))] at hscope
      · exact hscope.trans (if_pos hu)
      · rw [show Opcode.rule .setLevels s f (s.effective f) = _ from hscope.trans (if_neg (hformatted hu))] at hrow
        exact hrow
  · intro v
    subst ho
    refine ⟨fun hl => hrefused (if_pos hl), fun hl hu => hrefused ((if_neg (Nat.not_lt.mpr hl)).trans (if_pos hu)), fun hl hu => ?_⟩
    rw [show Opcode.rule .setShock s f (s.effective f) = _ from (if_neg (Nat.not_lt.mpr hl)).trans (if_neg (hformatted hu))] at hrow
    simp only [shockResult, hkept] at hrow
    exact hrow
  · intro v
    subst ho
    refine ⟨fun hl => hrefused (if_pos hl), fun hl hu => hrefused ((if_neg (Nat.not_lt.mpr hl)).trans (if_pos hu)), fun hl hu => ?_⟩
    rw [show Opcode.rule .setGauge s f (s.effective f) = _ from (if_neg (Nat.not_lt.mpr hl)).trans (if_neg (hformatted hu))] at hrow
    simp only [gaugeResult, hkept] at hrow
    exact hrow

end Sys2Proof.Machine
end

