-- ==== Sys2Proof/Proofs/SurveyReads.lean ====
section
/-! The settled statement on SURVEY-LIST and on READ-RECORDS up to its first search. -/

open Sys2Proof Sys2Proof.Machine

namespace Sys2Proof.Machine

/-! ### The search of the path (R109, R110) -/

/-- A segment of the path with a written page is searched from the middle. -/
theorem searchBack_written {s : State} {c : ReadContext} {i : Nat} (h : 1 ≤ s.lastPageOf (c.segAt i)) :
    s.searchBack c i = s.ask c (.search i 1 (s.lastPageOf (c.segAt i)) none ((1 + s.lastPageOf (c.segAt i)) / 2)
      ((1 + s.lastPageOf (c.segAt i)) / 2)) i ((1 + s.lastPageOf (c.segAt i)) / 2) := by
  cases i <;> exact if_pos h

theorem searchBack_unwritten_zero {s : State} {c : ReadContext} (h : s.lastPageOf (c.segAt 0) = 0) : s.searchBack c 0 = s.scanOn c 0 1 :=
  if_neg (by omega)

theorem searchBack_unwritten_succ {s : State} {c : ReadContext} {i : Nat} (h : s.lastPageOf (c.segAt (i + 1)) = 0) :
    s.searchBack c (i + 1) = s.searchBack c i :=
  if_neg (by omega)

/-- With no written page on the path, the scan starts at its first segment. -/
theorem searchBack_none {s : State} {c : ReadContext} (i : Nat) (h : ∀ j, j ≤ i → s.lastPageOf (c.segAt j) = 0) :
    s.searchBack c i = s.scanOn c 0 1 := by
  induction i with
  | zero => exact searchBack_unwritten_zero (h 0 le_rfl)
  | succ i ih => rw [searchBack_unwritten_succ (h _ le_rfl), ih fun j hj => h j (by omega)]

/-- The search steps back over the segments without a written page. -/
theorem searchBack_skip {s : State} {c : ReadContext} {j : Nat} (i : Nat) (hj : j ≤ i)
    (h : ∀ k, j < k → k ≤ i → s.lastPageOf (c.segAt k) = 0) : s.searchBack c i = s.searchBack c j := by
  induction i, hj using Nat.le_induction with
  | base => rfl
  | succ i hj ih => rw [searchBack_unwritten_succ (h _ (by omega) le_rfl), ih fun k hk hki => h k hk (by omega)]

/-! ### The start of a request (R106, R107) -/

theorem hintPasses_iff (s : State) (survey index requested hint : Nat) : s.hintPasses survey index requested hint = true ↔
    4 ≤ hint ∧ hint < s.media.segs.length ∧
      ∃ x, s.chainAt hint = some x ∧ x.survey = survey ∧ x.index = index ∧ x.firstSeq ≤ requested := by
  unfold State.hintPasses State.segCount
  cases s.chainAt hint <;> simp [and_assoc]

/-- Whether the hint of a request is used: it is present and passes (R106). -/
def State.usesHint (s : State) (survey index requested : Nat) (hint : Option Nat) : Bool :=
  hint.any (s.hintPasses survey index requested)

theorem usesHint_iff (s : State) (survey index requested : Nat) (p : List Byte) :
    s.usesHint survey index requested (hintField p) = true ↔ field p 8 2 ≠ 65535 ∧
      4 ≤ field p 8 2 ∧ field p 8 2 < s.media.segs.length ∧
      ∃ x, s.chainAt (field p 8 2) = some x ∧ x.survey = survey ∧ x.index = index ∧ x.firstSeq ≤ requested := by
  rw [← hintPasses_iff]
  unfold State.usesHint hintField keepField
  by_cases hkeep : field p 8 2 = 65535 <;> simp [hkeep]

/-- The context of a request whose walk has ended. -/
def walkedContext (survey index requested maximum : Nat) (used : Bool) (path : List Nat) (links : Nat) : ReadContext :=
  { survey := survey, index := index, requested := requested, maximum := clamp 1 64 maximum, hintUsed := used, path := path,
    links := links, phase := .scan 0 1, wanted := requested, lastSeq := none, entries := [], request := none }

/-- The segment a request starts from: that of a hint in use, or the chain head (R106). -/
def State.startSegment (s : State) (survey index requested : Nat) (hint : Option Nat) (head : Nat) : Nat :=
  if s.usesHint survey index requested hint then hint.getD head else head

/-- A request starts with the walk from its start segment, and then searches the path or ends at the limit of links. -/
theorem startRequest_of_walk {s : State} {survey index requested head links : Nat} (maximum : Nat) {hint : Option Nat} {limited : Bool}
    {path : List Nat} (hwalk : s.walk requested 70 [s.startSegment survey index requested hint head] 0 = (path, links, limited)) :
    s.startRequest survey index requested maximum hint head =
      let c := walkedContext survey index requested maximum (s.usesHint survey index requested hint) path links
      if limited then s.endRequest c .partialRead else s.searchBack c (path.length - 1) := by
  have hstart : s.startRequest survey index requested maximum hint head =
      let walked := s.walk requested 70 [s.startSegment survey index requested hint head] 0
      let c := walkedContext survey index requested maximum (s.usesHint survey index requested hint) walked.1 walked.2.1
      if walked.2.2 then s.endRequest c .partialRead else s.searchBack c (walked.1.length - 1) := by
    cases hint <;> rfl
  rw [hstart, hwalk]

/-! ### The end at the limit of links (R107, R113) -/

/-- The end of a chain with a link was reached over a link to a first record sequence at most the requested one. -/
theorem isChain_last_le {s : State} {first last : Nat} {gs : List Nat} {start : Nat} (hne : gs ≠ [])
    (h : List.IsChain (fun a g => s.nextOf a = some g ∧ s.segFirstSeq g ≤ first) (start :: gs))
    (hlast : (start :: gs).getLast? = some last) : s.segFirstSeq last ≤ first := by
  induction gs generalizing start with
  | nil => exact absurd rfl hne
  | cons g gs ih =>
    obtain ⟨hlink, hrest⟩ := List.isChain_cons_cons.mp h
    rw [List.getLast?_cons_cons] at hlast
    cases gs with
    | nil =>
      obtain rfl : g = last := by simpa using hlast
      exact hlink.2
    | cons a gs => exact ih (by simp) hrest hlast

/-- The resume hint is the end of the path where its first record sequence qualifies. -/
theorem resumeHint_of_last {s : State} {c : ReadContext} {last : Nat} (hlast : c.path.getLast? = some last)
    (hle : s.segFirstSeq last ≤ c.wanted) : s.resumeHint c = last := by
  obtain ⟨pre, hpath⟩ := List.getLast?_eq_some_iff.mp hlast
  have hfind : c.path.reverse.find? (fun g => decide (s.segFirstSeq g ≤ c.wanted)) = some last := by
    rw [hpath, List.reverse_append]
    exact List.find?_cons_of_pos (decide_eq_true hle)
  simp only [State.resumeHint, hfind]

/-- A request that ends in its accepting event, the Operation Slot still in its name, frees the engine and the slot and replies. -/
theorem endRequest_of_last {s : State} {c : ReadContext} {st : Status} {o : OpSlot} {last : Nat} (hslot : s.slot = some o)
    (hsup : o.suppressed = false) (hlast : c.path.getLast? = some last) (hle : s.segFirstSeq last ≤ c.wanted) :
    s.endRequest c st = { s with
      engine := none
      slot := none
      port := { s.port with tx := s.port.tx ++ [.reply
        { port := o.port, tag := o.tag, level := o.level, status := st, kept := true,
          payload := .records { survey := c.survey, index := c.index, entries := c.entries.length, maximum := c.maximum,
                                hintUsed := c.hintUsed, links := c.links, resumeSeq := c.wanted, resumeHint := last } c.entries }] } } := by
  unfold State.endRequest
  rw [completeOp_of_slot { s with engine := none } o st _ hslot, hsup, resumeHint_of_last hlast hle]
  rfl

/-! ### The rule of READ-RECORDS (R104) -/

theorem readRecords_refused {s : State} {f : Frame} {level : Nat} {st : Status}
    (h : s.surveyCheck f.surveyField level (decide (field f.payload 2 1 ≤ 7)) Survey.readThreshold = .inl st) :
    s.readRecords f level = s.refuse .readRecords f level st := by
  simp only [State.readRecords, h]

theorem readRecords_noHead {s : State} {f : Frame} {level : Nat} {v : Survey}
    (h : s.surveyCheck f.surveyField level (decide (field f.payload 2 1 ≤ 7)) Survey.readThreshold = .inr v)
    (hhead : v.headOf (field f.payload 2 1) = none) : s.readRecords f level = s.refuse .readRecords f level .noSuch := by
  simp only [State.readRecords, h, hhead]

theorem readRecords_found {s : State} {f : Frame} {level head : Nat} {v : Survey}
    (h : s.surveyCheck f.surveyField level (decide (field f.payload 2 1 ≤ 7)) Survey.readThreshold = .inr v)
    (hhead : v.headOf (field f.payload 2 1) = some head) : s.readRecords f level =
      ((s.accept .readRecords f level .readRecords).startRequest f.surveyField (field f.payload 2 1) (field f.payload 4 4)
        (field f.payload 3 1) (hintField f.payload) head).arbitrate := by
  simp only [State.readRecords, h, hhead]

/-- Settles O42: the position of SURVEY-LIST, the checks of READ-RECORDS and its walk, and the search back over the path. -/
theorem surveyReads : Obligations.SurveyReads := by
  unfold Obligations.SurveyReads
  refine ⟨fun s f h => ?_, fun s f h => ?_, fun s c i => ⟨searchBack_none i, fun j hj => ?_⟩⟩
  · intro position
    exact ⟨fun hp => exec_row_refused h (if_pos hp), fun hp => by
      have hrow := exec_row_of_takes h
      rw [show Opcode.rule .surveyList s f (s.effective f) = _ from if_neg (Nat.not_lt.mpr hp)] at hrow
      exact hrow⟩
  · intro n index maximum first hint level passes refused
    have hrow := exec_row_of_takes h
    have hrefused {st : Status} (hr : s.readRecords f level = s.refuse .readRecords f level st) :
        exec .readRecords s = refused st := exec_row_refused h hr
    refine ⟨fun hbad => hrefused (readRecords_refused ?_), fun h0 h7 hv => hrefused (readRecords_refused ?_),
      fun v h0 h7 hv => ⟨fun hlt => hrefused (readRecords_refused ?_), fun hle hhead => hrefused (readRecords_noHead ?_ hhead),
        fun head start used hle hhead hhint gs last hchain hlen hlast => ?_⟩⟩
    · unfold State.surveyCheck
      exact if_pos (hbad.imp id fun h7 => decide_eq_false (Nat.not_le.mpr h7))
    all_goals
      have hin : decide (field f.payload 2 1 ≤ 7) = true := decide_eq_true h7
    · rw [hin]
      exact surveyCheck_noSuch s n level _ h0 hv
    · rw [hin, surveyCheck_found s f.surveyField level _ v h0 hv]
      exact if_pos hlt
    · rw [hin]
      exact surveyCheck_passed h0 hv hle
    · intro o
      -- the accepted command starts its request; `v` has passed every check
      let w : State := s.accept .readRecords f level .readRecords
      have hrule : s.readRecords f level = (w.startRequest n index first maximum (hintField f.payload) head).arbitrate :=
        readRecords_found (by rw [hin]; exact surveyCheck_passed h0 hv hle) hhead
      have hused : w.usesHint n index first (hintField f.payload) = used := by
        rcases hhint with ⟨hp, -, rfl⟩ | ⟨hp, -, rfl⟩
        · exact (usesHint_iff w n index first f.payload).mpr hp
        · exact Bool.eq_false_iff.mpr fun hu => hp ((usesHint_iff w n index first f.payload).mp hu)
      have hstart : w.startSegment n index first (hintField f.payload) head = start := by
        unfold State.startSegment
        rw [hused]
        rcases hhint with ⟨hp, rfl, rfl⟩ | ⟨-, rfl, rfl⟩
        · exact congrArg (Option.getD · head) (if_neg hp.1 : hintField f.payload = some hint)
        · rfl
      obtain ⟨hwalk, hlimit⟩ := walk_chain w first gs 70 [] start last 0 hchain (by omega) (by omega) hlast
      rw [← hstart] at hwalk hlimit
      rw [show Opcode.rule .readRecords s f (s.effective f) = _ from hrule] at hrow
      refine ⟨fun hend => ?_, fun g hg hnext hle => ?_⟩
      · rw [startRequest_of_walk maximum (hwalk hend), hused, hstart, Nat.zero_add] at hrow
        exact hrow
      · have hlastLe : w.segFirstSeq last ≤ first := isChain_last_le (by rintro rfl; simp at hg) hchain hlast
        rw [startRequest_of_walk maximum (hlimit g (by omega) hnext hle), hused, hstart] at hrow
        dsimp only at hrow
        rw [if_pos rfl, endRequest_of_last rfl rfl hlast hlastLe] at hrow
        exact hrow
  · intro high hhigh hskip
    rw [searchBack_skip i hj hskip]
    exact searchBack_written hhigh

end Sys2Proof.Machine
end

