-- ==== Sys2Proof/Proofs/ResetCommands.lean ====
section
/-! The settled statement on the RST line and on LINK-RESET. -/

open Sys2Proof Sys2Proof.Machine

namespace Sys2Proof.Machine

/-! ### The RST line (R127, R163, R167, R172, R174) -/

/-- A reset keeps the always-on domain; a kept level CRITICAL begins shutdown, and of the flash array the lost operation alone changes
what it was writing. -/
theorem rst_eq (s : State) : s.rst = { State.reset with
    clock := s.clock
    gauge := s.gauge.rst
    sampler := Sampler.reset none
    media := Media.reset s.media.reportedSegments s.loseOp.media.flash
    power := { Power.reset with procedure := if s.gauge.level = .critical then .shutdown .conditions else .none }
    freeCount := s.loseOp.freeCount
    pending := s.pending } := by
  obtain ⟨fl, n, hlose⟩ := loseOp_eq s
  unfold State.rst
  rw [hlose]
  by_cases hc : s.gauge.level = .critical
  · simp only [hc, if_true]
  · simp only [hc, if_false]
    rfl

/-! ### LINK-RESET at the command in flight (R116, R187) -/

/-- At the Operation Slot a LINK-RESET changes the slot, the Read Engine's context, and what becomes of the operation in flight. -/
theorem resetSlot_eq (s : State) : s.resetSlot = { s with
    slot := s.resetSlot.slot
    engine := s.resetSlot.engine
    media := { s.media with op := s.resetSlot.media.op } } := by
  unfold State.resetSlot
  split
  · rfl
  · split <;> rfl

/-- A READ-RECORDS in flight is abandoned. -/
theorem resetSlot_reading {s : State} {o : OpSlot} (h : s.slot = some o) (ho : o.opcode = .readRecords) :
    s.resetSlot = { s with slot := none, engine := none, media := { s.media with op := discardRead s.media.op } } := by
  unfold State.resetSlot
  rw [h]
  exact if_pos ho

/-- Any other command in flight goes on, its reply suppressed. -/
theorem resetSlot_other {s : State} (h : ¬ ∃ o, s.slot = some o ∧ o.opcode = .readRecords) :
    s.resetSlot = { s with slot := s.slot.map (fun o => { o with suppressed := true }) } := by
  unfold State.resetSlot
  cases hslot : s.slot with
  | none =>
    show s = { s with slot := none }
    rw [← hslot]
  | some o => exact if_neg fun ho => h ⟨o, hslot, ho⟩

theorem discardRead_other {op : Option MediaOp} (h : ∀ g p d, op ≠ some (.engineRead g p d)) : discardRead op = op := by
  unfold discardRead
  split
  · exact absurd rfl (h _ _ _)
  · rfl

/-! ### LINK-RESET as a whole (R116, R182, R187) -/

/-- Outside OFF, freeing the only receive slot in use releases HOLD (R181). -/
theorem freeHead_of_last {s : State} (hon : s.power.state ≠ .off) (hrx : s.port.rx.tail = []) :
    s.freeHead = { s with port := { s.port with rx := [], hold := false } } := by
  have hwanted : ({ s with port := { s.port with rx := [] } } : State).holdWanted = false := by simp [State.holdWanted, hon]
  unfold State.freeHead State.judgeHold
  rw [hrx, hwanted]

/-- What a LINK-RESET leaves, its own frame's receive slot freed with the others. -/
theorem linkReset_eq {s : State} (f : Frame) (level : Nat) (hon : s.power.state ≠ .off) : (s.linkReset f level).freeHead = { s with
    port := { s.port with
      rx := []
      hold := false
      counts := {}
      tx := s.port.tx.take 1 ++ [.reply
        { port := f.port, tag := f.tag, level := level, status := .ok, kept := false, payload := .none }] }
    slot := s.resetSlot.slot
    engine := s.resetSlot.engine
    stores := {}
    media := { s.media with op := s.resetSlot.media.op }
    power := { s.power with procedure := s.power.procedure.keepDrain (s.port.tx.take 1).length } } := by
  have hslot : s.resetPort.resetSlot = { s.resetPort with
      slot := s.resetSlot.slot, engine := s.resetSlot.engine, media := { s.media with op := s.resetSlot.media.op } } := by
    rw [resetSlot_eq s.resetPort]
    unfold State.resetSlot
    simp only [resetPort_frame]
    split
    · rfl
    · split <;> rfl
  have hrx : (s.port.rx.take 1).tail = [] := by cases s.port.rx <;> rfl
  unfold State.linkReset
  rw [hslot]
  exact freeHead_of_last hon hrx

/-- Settles O14: the reset state of the RST line, and LINK-RESET by the command in flight. -/
theorem rstAndLinkReset : Obligations.RstAndLinkReset := by
  unfold Obligations.RstAndLinkReset
  refine ⟨fun s hs => ?_, fun s f h => ?_⟩
  · show Host.Outcome.next s.settle.rst = _
    rw [settle_of_settled hs, rst_eq]
    rfl
  · intro reading
    have hon : s.power.state ≠ .off := by
      have hplaces := h.places
      unfold State.placesFree at hplaces
      rintro hoff
      simp [hoff] at hplaces
    have hrow : exec .linkReset s = .next ((s.linkReset f (s.effective f)).freeHead).holdIdle := exec_row_of_takes h
    refine ⟨_, hrow, ?_, fun hr => ?_, fun hr => ?_⟩
    · rw [linkReset_eq f _ hon, List.length_take]
      -- of the stages of a shutdown, only the wait for the Transmit List changes
      generalize s.power.procedure = p
      cases p with
      | shutdown stage => cases stage <;> rfl
      | none | dozeEntry | wakeWait => rfl
    · obtain ⟨o, hslot, ho⟩ := hr
      rw [linkReset_eq f _ hon, resetSlot_reading hslot ho]
      refine ⟨rfl, rfl, fun g p d hop => ?_, fun hop => discardRead_other hop⟩
      show discardRead s.media.op = _
      rw [hop]
      rfl
    · rw [linkReset_eq f _ hon, resetSlot_other hr]
      exact ⟨rfl, rfl, rfl⟩

end Sys2Proof.Machine
end

