-- ==== Sys2Proof/Proofs/MountIndex.lean ====
section
/-! SUPPORT. Mount's INDEX phase (R147, R175, R178): the snapshot candidates, the chosen snapshot, and the drive found unformatted; and the
headers of the SEGMENTS phase but the last (R176). -/

open Sys2Proof Sys2Proof.Machine

namespace Sys2Proof.Machine

/-! ### Candidates (R175) -/

theorem candidateOf_some (g : Nat) (im : PageImage) : candidateOf g (some im) =
    if im.crcMatches = true ∧ (trailerOf im.spare).kind = 4 then
      some { segment := g, formatGeneration := (trailerOf im.spare).generation, indexGeneration := (trailerOf im.spare).firstSeq,
             data := im.data }
    else none := by
  simp only [candidateOf, Bool.and_eq_true, beq_iff_eq]

/-- A candidate replaces another by its format generation, higher across the wrap, or by its index generation where those are equal. -/
theorem newer_iff (b a : SnapshotCandidate) : b.newer a = true ↔
    (1 ≤ ((b.formatGeneration : Int) - a.formatGeneration) % 65535 ∧ ((b.formatGeneration : Int) - a.formatGeneration) % 65535 ≤ 32767) ∨
      (b.formatGeneration = a.formatGeneration ∧ a.indexGeneration < b.indexGeneration) := by
  simp [SnapshotCandidate.newer, laterGeneration]

/-! ### A drive found unformatted (R147, R178) -/

/-- Entries given up while the Survey Table stands empty leave it, the Media Controller and the mark of an unformatted drive as they are. -/
theorem giveUp_of_no_survey {s : State} (h : s.table.surveys = []) (left : Nat) (body : EntryBody) :
    (s.giveUp left body).table = s.table ∧ (s.giveUp left body).media = s.media ∧
      (s.giveUp left body).power.unformatted = s.power.unformatted := by
  have htable : { s.table with surveys := [] } = s.table := by rw [← h]
  cases body with
  | surveyOpened r => simp [State.giveUp, State.removeSurvey, h, htable]
  | surveyClosed r => simp [State.giveUp, State.modSurvey, h, htable]
  | powerDown =>
    simp only [State.giveUp, State.powerDownEnded]
    split <;> exact ⟨rfl, rfl, rfl⟩
  | drop r => exact ⟨rfl, rfl, rfl⟩
  | thresholdsSet | surveyLocked | surveyErased | ports | shock | gauge => simp [State.giveUp]

theorem giveUpList_of_no_survey (left : Nat) : ∀ (l : List IndexEntry) {s : State}, s.table.surveys = [] →
    (s.giveUpList left l).table = s.table ∧ (s.giveUpList left l).media = s.media ∧
      (s.giveUpList left l).power.unformatted = s.power.unformatted
  | [], _, _ => ⟨rfl, rfl, rfl⟩
  | e :: es, s, h => by
    obtain ⟨htable, hmedia, hmark⟩ := giveUp_of_no_survey (s := s.dropHead) (by simpa using h) left e.body
    obtain ⟨htables, hmedias, hmarks⟩ := giveUpList_of_no_survey left es (s := s.dropHead.giveUp left e.body) (by simpa [htable] using h)
    rw [State.giveUpList]
    exact ⟨by simpa [htable] using htables, by simpa [hmedia] using hmedias, by simpa [hmark] using hmarks⟩

/-- Mount's end sets media-full where the live streams leave no segment unused (R178, log 32). -/
theorem becomeReady_mediaFull {s : State} (h : s.unused ≤ s.liveCount) (restored notRestored : Nat) :
    (s.becomeReady restored notRestored).media.mediaFull = true := by
  have htest (u : State) (hu : u.unused ≤ u.liveCount) : (u.testMediaFull false).media.mediaFull = true := by
    by_cases hm : u.media.mediaFull = true
    · rw [testMediaFull_keeps (.inl hm)]
      exact hm
    · rw [testMediaFull_sets (by simpa using hm) hu]
      simp
  unfold State.becomeReady
  simp only [raise_frame]
  exact htest _ h

theorem unused_eq_zero {s : State} (hop : s.media.op = none) (hr : s.media.ready = []) (hf : s.media.free = []) : s.unused = 0 := by
  simp [State.unused, State.aheadInFlight, hop, hr, hf]

/-- The tables of a drive found unformatted, its drops numbered, before the waiting index entries are given up. -/
def State.emptied (s : State) : State := State.numberDrops { s with
  power := { s.power with unformatted := true }
  media := { s.media with generation := 0, segs := [] }
  table := { surveys := [], nextNumber := 1, stored := formatLevels, present := formatLevels } }

/-- What mount leaves of a drive that it finds unformatted. -/
theorem mountUnformatted_parts (s : State) : s.mountUnformatted.power.unformatted = true ∧ s.mountUnformatted.power.phase = .ready ∧
    s.mountUnformatted.media.segs = [] ∧ s.mountUnformatted.media.generation = 0 ∧ s.mountUnformatted.log.waiting = [] ∧
    (s.media.op = none → s.media.ready = [] → s.media.free = [] → s.mountUnformatted.media.mediaFull = true) ∧
    s.mountUnformatted.table = { surveys := [], nextNumber := 1, stored := [0, 2, 2, 1], present := [0, 2, 2, 1] } := by
  have hmount : s.mountUnformatted = (s.emptied.giveUpAll s.port.tx.length).becomeReady 0 0 := rfl
  obtain ⟨htable, hmedia, hmark⟩ := giveUpList_of_no_survey s.port.tx.length s.emptied.log.waiting (s := s.emptied) rfl
  have hlog := giveUpList_log s.port.tx.length s.emptied.log.waiting s.emptied rfl
  rw [hmount]
  unfold State.giveUpAll
  generalize s.emptied.giveUpList s.port.tx.length s.emptied.log.waiting = u at htable hmedia hmark hlog
  obtain ⟨tx, full, hready⟩ := becomeReady_eq u 0 0
  refine ⟨?_, ?_, ?_, ?_, ?_, fun hop hr hf => ?_, ?_⟩
  · rw [hready]
    exact hmark
  · rw [hready]
  · rw [hready]
    exact congrArg Media.segs hmedia
  · rw [hready]
    exact congrArg Media.generation hmedia
  · rw [hready, hlog]
  · have hunused : u.unused = 0 := unused_eq_zero (by rw [hmedia]; exact hop) (by rw [hmedia]; exact hr) (by rw [hmedia]; exact hf)
    exact becomeReady_mediaFull (by omega) 0 0
  · rw [hready]
    exact htable

/-! ### The chosen snapshot (R175) -/

theorem mountSegs_length (n : Nat) : (mountSegs n).length = n := by simp [mountSegs]

/-- What the chosen snapshot sets, but for the gauge settings and the report alarm that they restart. -/
theorem loadSnapshot_parts (s : State) (c : SnapshotCandidate) :
    (s.loadSnapshot c).media.generation = c.formatGeneration ∧ (s.loadSnapshot c).log.generation = c.indexGeneration ∧
    (s.loadSnapshot c).mount = .replay c.segment 1 (snapshotOf c.data).nextSeq none ∧
    (s.loadSnapshot c).table.nextNumber = (snapshotOf c.data).nextNumber ∧
    (s.loadSnapshot c).table.stored = (snapshotOf c.data).stored ∧ (s.loadSnapshot c).table.present = (snapshotOf c.data).stored ∧
    (s.loadSnapshot c).monitor.drops = (snapshotOf c.data).drops ∧ (s.loadSnapshot c).monitor.total = (snapshotOf c.data).dropTotal ∧
    (s.loadSnapshot c).media.segs.length = (snapshotOf c.data).n := by
  simp [State.loadSnapshot, mountSegs_length]

/-! ### The ends of the reads -/

section
variable {s : State} {g p : Nat} {o : ReadOutcome}

/-- The better of the candidates that the INDEX phase has read, with the page that it reads now. -/
def State.bestOf (s : State) (g p : Nat) (o : ReadOutcome) (best : Option SnapshotCandidate) : Option SnapshotCandidate :=
  bestCandidate best (candidateOf g (outcomeImage o s.media.flash g p))

theorem mountReadEnd_heads_next {next : Nat} {best : Option SnapshotCandidate} (h : s.mount = .heads next best) (hn : next < 3) :
    s.mountReadEnd g p o = { s.endRead with mount := .heads (next + 1) (s.bestOf g p o best) } := by
  simp only [State.mountReadEnd, endRead_mount, h]
  exact if_pos hn

theorem mountReadEnd_heads_none {next : Nat} {best : Option SnapshotCandidate} (h : s.mount = .heads next best) (hn : 3 ≤ next)
    (hb : s.bestOf g p o best = none) : s.mountReadEnd g p o = s.endRead.mountUnformatted := by
  unfold State.bestOf at hb
  simp only [State.mountReadEnd, endRead_mount, h, hb]
  exact if_neg (by omega)

theorem mountReadEnd_heads_some {next : Nat} {best : Option SnapshotCandidate} {c : SnapshotCandidate} (h : s.mount = .heads next best)
    (hn : 3 ≤ next) (hb : s.bestOf g p o best = some c) : s.mountReadEnd g p o = s.endRead.loadSnapshot c := by
  unfold State.bestOf at hb
  simp only [State.mountReadEnd, endRead_mount, h, hb]
  exact if_neg (by omega)

/-- A header page that places its segment in the chain, the last one apart. -/
theorem mountReadEnd_header_placed {next : Nat} {x : Segment} {t : Trailer} {data : List Byte} (h : s.mount = .headers next)
    (hnext : next + 1 < s.media.segs.length) (hx : s.media.segs[next]? = some x) (hr : s.mountResult g p o = .valid t data)
    (hk : t.kind = 1) (hi : t.index ≤ 7) (hs : s.surveyAt t.survey ≠ none) :
    s.mountReadEnd g p o = { s.endRead with
      mount := .headers (next + 1)
      media := { s.endRead.media with segs := s.media.segs.set next { x with
        state := .full
        chain := some { survey := t.survey, index := t.index, seq := t.seq, firstSeq := t.firstSeq, next := none,
                        writePoint := 256, voids := 0 } } } } := by
  have hplace : t.kind = 1 ∧ t.index ≤ 7 ∧ (s.endRead.surveyAt t.survey).isSome = true := ⟨hk, hi, Option.isSome_iff_ne_none.mpr hs⟩
  have hlt : next < s.media.segs.length := by omega
  have hx' : s.media.segs.getD next x = x := by simp [hx]
  rw [mountReadEnd_headers h, hr]
  simp only [State.placeHeader]
  rw [if_pos hplace]
  unfold State.modSeg
  rw [modify_eq_set _ _ _ x (by exact hlt)]
  simp only [endRead_media, hx']
  exact if_pos (by simpa [State.segCount] using hnext)

end

end Sys2Proof.Machine
end

