-- ==== Sys2Proof/Proofs/ReadMoves.lean ====
section
/-! SUPPORT. The Read Engine's moves (R109 to R115): going forward, copying a standing page, the resume hint, and what each phase makes of
a page that it reads. -/

open Sys2Proof Sys2Proof.Machine

namespace Sys2Proof.Machine

/-! ### Going forward (R107, R111) -/

section
variable {s : State} {c : ReadContext} {i page : Nat}

/-- A place from which a move forward arrives where it arrives from another: scan and decision go on from there alike. -/
theorem goesOn_of_forward {d : ReadContext} {j p : Nat} (h : s.forward 200 c i page = s.forward 200 d j p) :
    s.scanOn c i page = s.scanOn d j p ∧ ∀ held, s.decideOn c held i page = s.decideOn d held j p := by
  unfold State.scanOn State.decideOn
  rw [h]
  exact ⟨rfl, fun _ => rfl⟩

/-- At the chain's end the scan ends the request with END, and a held page stands. -/
theorem goesOn_chainEnd (h : s.forward 200 c i page = .chainEnd c) :
    s.scanOn c i page = s.endRequest c .endOfData ∧ ∀ held, s.decideOn c held i page = s.standing c held := by
  unfold State.scanOn State.decideOn
  rw [h]
  exact ⟨rfl, fun _ => rfl⟩

/-- At the limit of links the request ends with PARTIAL. -/
theorem goesOn_linkLimit (h : s.forward 200 c i page = .linkLimit c) :
    s.scanOn c i page = s.endRequest c .partialRead ∧ ∀ held, s.decideOn c held i page = s.endRequest c .partialRead := by
  unfold State.scanOn State.decideOn
  rw [h]
  exact ⟨rfl, fun _ => rfl⟩

theorem forward_written (h : page ≤ s.lastPageOf (c.segAt i)) : s.forward 200 c i page = .page c i page := by
  rw [State.forward, if_pos h]

/-- Where a page is written, the scan and the decision ask for it. -/
theorem scanOn_written (h : page ≤ s.lastPageOf (c.segAt i)) : s.scanOn c i page = s.ask c (.scan i page) i page := by
  simp only [State.scanOn, forward_written h]

theorem decideOn_written (held : HeldPage) (h : page ≤ s.lastPageOf (c.segAt i)) :
    s.decideOn c held i page = s.ask c (.decide held i page) i page := by
  simp only [State.decideOn, forward_written h]

section
variable (hi : i < c.path.length) (hlen : c.path.length ≤ 65) (hlinks : c.links ≤ 64) (hpast : s.lastPageOf (c.segAt i) < page)
include hi hlen hlinks hpast

/-- Past a segment's last page, the path goes on at page 1 of the next segment. -/
theorem forward_path (hnext : i + 1 < c.path.length) : s.forward 200 c i page = s.forward 200 c (i + 1) 1 := by
  rw [forward_next s c i page hi hlen hlinks, if_neg (Nat.not_le.mpr hpast), if_pos hnext]

/-- Past the last page of the path, the chain ends where its last segment has no link. -/
theorem forward_chainEnd (hend : i + 1 = c.path.length) (hn : s.nextOf (c.segAt i) = none) :
    s.forward 200 c i page = .chainEnd c := by
  simp only [forward_next s c i page hi hlen hlinks, if_neg (Nat.not_le.mpr hpast), if_neg (show ¬ i + 1 < c.path.length by omega), hn]

/-- A 65th link is not followed. -/
theorem forward_linkLimit {n : Nat} (hend : i + 1 = c.path.length) (hn : s.nextOf (c.segAt i) = some n) (hl : c.links = 64) :
    s.forward 200 c i page = .linkLimit c := by
  simp only [forward_next s c i page hi hlen hlinks, if_neg (Nat.not_le.mpr hpast), if_neg (show ¬ i + 1 < c.path.length by omega), hn,
    if_pos hl]

/-- A link that is followed extends the path. -/
theorem forward_link {n : Nat} (hend : i + 1 = c.path.length) (hn : s.nextOf (c.segAt i) = some n) (hl : c.links < 64) :
    s.forward 200 c i page = s.forward 200 { c with path := c.path ++ [n], links := c.links + 1 } (i + 1) 1 := by
  simp only [forward_next s c i page hi hlen hlinks, if_neg (Nat.not_le.mpr hpast), if_neg (show ¬ i + 1 < c.path.length by omega), hn,
    if_neg (show ¬ c.links = 64 by omega)]

end

end

/-! ### Copying records (R112, R113) -/

section
variable {c : ReadContext} {fault : Bool} {data : List Byte} {seq off : Nat} {rest : List Nat}

/-- A record below the next wanted one is passed over. -/
theorem copy_below (h : seq < c.wanted) : c.copy fault data seq (off :: rest) = c.copy fault data (seq + 1) rest := by
  rw [ReadContext.copy, if_pos h]

/-- A record that the payload has no room for ends the assembly (log 60). -/
theorem copy_full (h : c.wanted ≤ seq) (hsize : 2048 < c.payloadSize + 4 + (slice data off (recordSizeAt data off)).length) :
    c.copy fault data seq (off :: rest) = (c, some .partialRead) := by
  rw [ReadContext.copy, if_neg (Nat.not_lt.mpr h)]
  exact if_pos hsize

/-- A wanted record that fits is added; the maximum ends the assembly. -/
theorem copy_added (h : c.wanted ≤ seq) (hsize : c.payloadSize + 4 + (slice data off (recordSizeAt data off)).length ≤ 2048) :
    c.copy fault data seq (off :: rest) =
      let d := c.addEntry fault seq (slice data off (recordSizeAt data off))
      if c.maximum ≤ c.entries.length + 1 then (d, some .ok) else d.copy fault data (seq + 1) rest := by
  have hcount : (c.addEntry fault seq (slice data off (recordSizeAt data off))).entries.length = c.entries.length + 1 :=
    List.length_append
  rw [ReadContext.copy, if_neg (Nat.not_lt.mpr h), ← hcount]
  exact if_neg (Nat.not_lt.mpr hsize)

end

theorem recordSizeAt_data {data : List Byte} {off : Nat} (h : field data off 1 = 1) : recordSizeAt data off =
    let flags := field data (off + 1) 1
    let n := field data (off + 2) 2
    let w := if field data (off + 15) 1 = 0x20 then 4 else 2
    (20 + (if flags / 2 % 2 = 1 then 4 else 0) + n * w + (if flags / 4 % 2 = 1 then (n + 3) / 4 else 0) + 3) / 4 * 4 := by
  unfold recordSizeAt
  exact if_pos h

theorem recordSizeAt_marker {data : List Byte} {off : Nat} (h : field data off 1 ≠ 1) : recordSizeAt data off = 20 := by
  unfold recordSizeAt
  exact if_neg h

/-! ### The standing page (R111, R112) -/

/-- Whether the records of a held page carry the mark of a void page nearby. -/
def State.voidNearby (s : State) (c : ReadContext) (h : HeldPage) : Bool :=
  match s.chainAt (c.path.getD h.at_ 0) with
  | some x => decide (0 < x.voids)
  | none => false

/-- What a standing page's records make of the request. -/
theorem standing_eq {s : State} {im : PageImage} (hheld : s.stores.held = some im) (c : ReadContext) (h : HeldPage) : s.standing c h =
    match c.copy (s.voidNearby c h) im.data h.firstSeq (recordOffsets im.data h.count 0) with
    | (d, some status) => s.endRequest d status
    | (d, none) => s.scanOn d h.at_ (h.page + 1) := by
  unfold State.standing
  rw [hheld]
  rfl

/-! ### The end of a request (R113, R114) -/

/-- The resume hint is the segment nearest the end of the path that starts at most at the resume sequence. -/
theorem resumeHint_of_split {s : State} {c : ReadContext} {before after : List Nat} {g : Nat} (hpath : c.path = before ++ g :: after)
    (hg : s.segFirstSeq g ≤ c.wanted) (hafter : ∀ x ∈ after, c.wanted < s.segFirstSeq x) : s.resumeHint c = g := by
  have hfind : c.path.reverse.find? (fun g => decide (s.segFirstSeq g ≤ c.wanted)) = some g := by
    have hnone : after.reverse.find? (fun g => decide (s.segFirstSeq g ≤ c.wanted)) = none :=
      List.find?_eq_none.mpr fun x hx => by simpa using hafter x (List.mem_reverse.mp hx)
    simp [hpath, List.find?_append, hnone, hg]
  simp only [State.resumeHint, hfind]

/-- Where no segment of the path qualifies, the resume hint is the start segment (log 61). -/
theorem resumeHint_of_none {s : State} {c : ReadContext} (h : ∀ x ∈ c.path, c.wanted < s.segFirstSeq x) :
    s.resumeHint c = c.path.getD 0 0 := by
  have hfind : c.path.reverse.find? (fun g => decide (s.segFirstSeq g ≤ c.wanted)) = none :=
    List.find?_eq_none.mpr fun x hx => by simpa using h x (List.mem_reverse.mp hx)
  simp only [State.resumeHint, hfind]
  rfl

/-- The end of a request frees the engine and the slot; its reply joins the Transmit List unless it is suppressed. -/
theorem endRequest_eq {s : State} {o : OpSlot} (hslot : s.slot = some o) (c : ReadContext) (status : Status) :
    s.endRequest c status = { s with
      engine := none
      slot := none
      port := if o.suppressed then s.port else { s.port with tx := s.port.tx ++ [.reply
        { port := o.port, tag := o.tag, level := o.level, status := status, kept := true,
          payload := .records { survey := c.survey, index := c.index, entries := c.entries.length, maximum := c.maximum,
                                hintUsed := c.hintUsed, links := c.links, resumeSeq := c.wanted,
                                resumeHint := s.resumeHint c } c.entries }] } } :=
  completeOp_of_slot { s with engine := none } o status _ hslot

/-! ### A page read in each phase (R108 to R111) -/

theorem usable_placed {s : State} {g : Nat} {x : ChainInfo} (hx : s.chainAt g = some x) (c : ReadContext) (t : Trailer) (data : List Byte) :
    s.usable c g (.valid t data) =
      if t.kind = 2 ∧ t.survey = c.survey ∧ t.index = c.index ∧ t.seq = x.seq then some t else none := by
  simp only [State.usable, hx, Option.some.injEq, eq_comm (a := x.seq)]

/-- A search's page lies above the requested record: a usable page that starts above it, or the segment's last page, not usable. -/
def State.SearchLower (s : State) (c : ReadContext) (g reading : Nat) (met : Option Trailer) : Prop :=
  (∃ t, met = some t ∧ c.requested < t.firstSeq) ∨ (met = none ∧ s.lastPageOf g < reading + 1)

section
variable {s : State} {c : ReadContext} {g i low high probe reading : Nat} {candidate : Option Nat} {r : PageResult}

theorem searchOn_within (h : low ≤ high) : s.searchOn c i low high candidate =
    s.ask c (.search i low high candidate ((low + high) / 2) ((low + high) / 2)) i ((low + high) / 2) := if_pos h

theorem searchOn_ended (h : high < low) : s.searchOn c i low high candidate = s.searchDone c i candidate := if_neg (by omega)

section
variable (hphase : c.phase = .search i low high candidate probe reading)
include hphase

theorem engineResult_search : s.engineResult c g r =
    match s.usable { c with request := none } g r with
    | some t =>
      if t.firstSeq ≤ c.requested then s.searchOn { c with request := none } i (reading + 1) high (some reading)
      else s.searchOn { c with request := none } i low (probe - 1) candidate
    | none =>
      if reading + 1 ≤ s.lastPageOf g then
        s.ask { c with request := none } (.search i low high candidate probe (reading + 1)) i (reading + 1)
      else s.searchOn { c with request := none } i low (probe - 1) candidate := by
  cases c
  cases hphase
  rfl

/-- The search reads on past a page that is not usable. -/
theorem search_readsOn (hmet : s.usable { c with request := none } g r = none) (hpage : reading + 1 ≤ s.lastPageOf g) :
    s.engineResult c g r = s.ask { c with request := none } (.search i low high candidate probe (reading + 1)) i (reading + 1) := by
  rw [engineResult_search hphase, hmet]
  exact if_pos hpage

/-- The search takes a page that starts at most at the requested record as its candidate, and goes on above it. -/
theorem search_upper {t : Trailer} (hmet : s.usable { c with request := none } g r = some t) (hle : t.firstSeq ≤ c.requested) :
    s.engineResult c g r = s.searchOn { c with request := none } i (reading + 1) high (some reading) := by
  rw [engineResult_search hphase, hmet]
  exact if_pos hle

/-- The search goes on below its probe. -/
theorem search_lower (h : s.SearchLower c g reading (s.usable { c with request := none } g r)) :
    s.engineResult c g r = s.searchOn { c with request := none } i low (probe - 1) candidate := by
  rcases h with ⟨t, hmet, hlt⟩ | ⟨hmet, hlast⟩
  · rw [engineResult_search hphase, hmet]
    exact if_neg (Nat.not_le.mpr hlt)
  · rw [engineResult_search hphase, hmet]
    exact if_neg (Nat.not_le.mpr hlast)

end

section
variable {q : Nat} (hphase : c.phase = .scan i q)
include hphase

theorem engineResult_scan : s.engineResult c g r =
    match s.usable { c with request := none } g r with
    | some t => s.scanPage { c with request := none } i q t
    | none => s.scanOn { c with request := none } i (q + 1) := by
  cases c
  cases hphase
  rfl

/-- The scan passes over a page without a wanted record. -/
theorem scan_passes (h : s.usable { c with request := none } g r = none ∨
      ∃ t, s.usable { c with request := none } g r = some t ∧ t.firstSeq + t.count ≤ c.wanted) :
    s.engineResult c g r = s.scanOn { c with request := none } i (q + 1) := by
  rcases h with hmet | ⟨t, hmet, hle⟩
  · simp only [engineResult_scan hphase, hmet]
  · rw [engineResult_scan hphase, hmet]
    exact if_pos hle

/-- The scan holds a page with a wanted record, and looks for what decides on it. -/
theorem scan_holds {t : Trailer} (hmet : s.usable { c with request := none } g r = some t) (hlt : c.wanted < t.firstSeq + t.count) :
    s.engineResult c g r =
      s.hold.decideOn { c with request := none } { at_ := i, page := q, firstSeq := t.firstSeq, count := t.count } i (q + 1) := by
  rw [engineResult_scan hphase, hmet]
  exact if_neg (Nat.not_le.mpr hlt)

end

section
variable {h : HeldPage} {q : Nat} (hphase : c.phase = .decide h i q)
include hphase

theorem engineResult_decide : s.engineResult c g r =
    match s.usable { c with request := none } g r with
    | some t => s.decidePage { c with request := none } h i q t
    | none => s.decideOn { c with request := none } h i (q + 1) := by
  cases c
  cases hphase
  rfl

/-- The decision passes over a page that is not usable. -/
theorem decide_unusable (hmet : s.usable { c with request := none } g r = none) :
    s.engineResult c g r = s.decideOn { c with request := none } h i (q + 1) := by
  simp only [engineResult_decide hphase, hmet]

/-- A page programmed for the first time lets the held page stand. -/
theorem decide_stands {t : Trailer} (hmet : s.usable { c with request := none } g r = some t) (hr : t.rewrite = false) :
    s.engineResult c g r = s.standing { c with request := none } h := by
  rw [engineResult_decide hphase, hmet]
  exact if_neg (by simp [hr])

/-- A rewrite of the held page supersedes it; another rewrite decides nothing. -/
theorem decide_rewrite {t : Trailer} (hmet : s.usable { c with request := none } g r = some t) (hr : t.rewrite = true) :
    s.engineResult c g r = if t.firstSeq = h.firstSeq then s.scanOn { c with request := none } h.at_ (h.page + 1)
      else s.decideOn { c with request := none } h i (q + 1) := by
  rw [engineResult_decide hphase, hmet]
  exact if_pos hr

end

end

/-! ### The end of a read (R78, R115, R116) -/

section
variable {s : State} {g p : Nat} {o : ReadOutcome}

theorem exec_readEngineReadEnd {discard : Bool} (hs : s.Settled) (hop : s.media.op = some (.engineRead g p discard)) :
    exec (.readEngineReadEnd o) s = .next ((s.engineReadEnd g p discard o).afterOp).holdIdle := by
  show Host.Outcome.next ((s.settle.endEngineRead o).holdIdle) = _
  simp only [settle_of_settled hs, State.endEngineRead, hop]

theorem engineReadEnd_discarded : s.engineReadEnd g p true o = s.endRead := by
  cases h : s.engine <;> simp only [State.engineReadEnd, endRead_engine, h, if_true]

/-- A read ends at the context that asked for it: the page stands in the read store, and its result is judged. -/
theorem exec_readResult {c : ReadContext} {t : State} (hs : s.Settled) (hop : s.media.op = some (.engineRead g p false))
    (heng : s.engine = some c) (h : (s.endRead.storeRead (outcomeImage o s.media.flash g p)).engineResult c g
      (judgePage s.media.generation (outcomeImage o s.media.flash g p)) = t) :
    exec (.readEngineReadEnd o) s = .next (t.afterOp).holdIdle := by
  rw [exec_readEngineReadEnd hs hop, ← h]
  simp only [State.engineReadEnd, endRead_engine, heng]
  rfl

end

end Sys2Proof.Machine
end

