-- ==== Sys2Proof/Proofs/ReadEnds.lean ====
section
/-! The settled statement on the ends of the Read Engine's reads and of mount's. -/

open Sys2Proof Sys2Proof.Machine

namespace Sys2Proof.Machine

/-- Settles O53, clause by clause: the reads of mount's INDEX and SEGMENTS phases, the engine's moves, and what each phase of a request
makes of the page that it reads. -/
theorem readEnds : Obligations.ReadEnds := by
  unfold Obligations.ReadEnds
  refine ⟨fun s g p r hs => ?_, fun g im => ⟨rfl, candidateOf_some g im⟩, fun a b => ⟨rfl, rfl, if_congr (newer_iff b a) rfl rfl⟩,
    fun s g p r hs hop => ?_, fun s g y x hy hx => ?_, fun s c g => ⟨rfl, rfl, rfl⟩, fun s c i page hi hlen hlinks => ?_,
    fun s c h im hheld => ?_, fun data off n => ⟨rfl, rfl, recordSizeAt_data, recordSizeAt_marker⟩,
    fun c fault data seq off rest => ⟨rfl, copy_below, fun h => ?_⟩, fun s c status o hslot => ?_, fun s g p r c hs hop heng => ?_⟩
  · intro idle image usable
    let v : State := s.endRead.storeRead image
    refine ⟨fun hop => ?_, fun c i low high candidate probe reading hop heng hphase t hmet => ?_, fun c i q hop heng hphase hq hmet => ?_⟩
    · rw [exec_readEngineReadEnd hs hop, engineReadEnd_discarded]
      rfl
    · intro from_
      exact ⟨fun hle hhigh => exec_readResult hs hop heng ((search_upper (s := v) hphase hmet hle).trans (searchOn_within hhigh)),
        fun hlt hlow => exec_readResult hs hop heng ((search_lower (s := v) hphase (.inl ⟨t, hmet, hlt⟩)).trans (searchOn_within hlow))⟩
    · exact exec_readResult hs hop heng ((scan_passes (s := v) hphase hmet).trans (scanOn_written hq))
  · intro idle image
    have hrow := exec_mountReadEnd (o := r) hs hop
    refine ⟨fun next best hm => ⟨fun hn => ?_, fun hn hb => ?_, fun c hn hb => ?_⟩, fun next x t data v hm hnext hx hr hk hi hv => ?_⟩
    · rw [hrow, mountReadEnd_heads_next hm hn]
      rfl
    · obtain ⟨hmark, hphase, hsegs, hgeneration, hwaiting, hfull, htable⟩ := mountUnformatted_parts s.endRead
      exact ⟨_, mountReadEnd_heads_none hm hn hb ▸ hrow, hmark, hphase, hsegs, hgeneration, hwaiting, hfull rfl, htable⟩
    · exact ⟨_, mountReadEnd_heads_some hm hn hb ▸ hrow, loadSnapshot_parts s.endRead c⟩
    · rw [hrow, mountReadEnd_header_placed hm hnext hx hr hk hi (by simp [hv])]
      rfl
  · have hchain : s.chainAt g = some x := by simp [State.chainAt, State.segAt, hy, hx]
    exact ⟨by simp [State.lastPageOf, hchain], by simp [State.segFirstSeq, hchain], by simp [State.nextOf, hchain], usable_placed hchain⟩
  · intro n asks goes
    refine ⟨fun h => ⟨scanOn_written h, fun held => decideOn_written held h⟩,
      fun hpast hnext => goesOn_of_forward (forward_path hi hlen hlinks hpast hnext),
      fun hpast hend => ⟨fun hn => ?_, fun m hn => ⟨fun hl => ?_, fun hl => ?_⟩⟩⟩
    · exact goesOn_chainEnd (forward_chainEnd hi hlen hlinks hpast hend hn)
    · exact goesOn_linkLimit (forward_linkLimit hi hlen hlinks hpast hend hn hl)
    · exact goesOn_of_forward (forward_link hi hlen hlinks hpast hend hn hl)
  · intro fault
    have hfault : s.voidNearby c h = fault := rfl
    rw [standing_eq hheld, hfault]
    exact ⟨fun d status hcopy => by rw [hcopy], fun d hcopy => by rw [hcopy]⟩
  · intro record size expected d
    refine ⟨copy_full h, fun hsize => ⟨fun hmax => ?_, fun hmax => ?_⟩⟩
    · rw [copy_added h hsize]
      exact if_pos hmax
    · rw [copy_added h hsize]
      exact if_neg (Nat.not_le.mpr hmax)
  · refine ⟨s.resumeHint c, fun hsup => ?_, fun hsup => ?_, fun before g after => resumeHint_of_split, resumeHint_of_none⟩
    all_goals
      rw [endRequest_eq hslot, hsup]
      rfl
  · intro image met v d goes
    have goes_of {t : State} (h : v.engineResult c g (judgePage s.media.generation image) = t) : goes t :=
      exec_readResult hs hop heng h
    refine ⟨fun i low high candidate probe reading hphase => ?_, fun i q hphase => ⟨fun hmet => goes_of (scan_passes hphase hmet),
      fun t hmet hlt => goes_of (scan_holds hphase hmet hlt)⟩, fun h i q hphase => ⟨fun hmet => goes_of (decide_unusable hphase hmet),
        fun t hmet => ⟨fun hr => goes_of (decide_stands hphase hmet hr), fun hr heq => ?_, fun hr hne => ?_⟩⟩⟩
    · intro lower
      refine ⟨fun hmet hpage => goes_of (search_readsOn (s := v) hphase hmet hpage), fun hlower hlow => ?_, fun t hmet hle hhigh => ?_,
        fun hlower hlow => ⟨fun q hq => ?_, fun hnone => ⟨fun hi => ?_, fun j hi => ?_⟩⟩⟩
      · exact goes_of ((search_lower (s := v) hphase hlower).trans (searchOn_within hlow))
      · exact goes_of ((search_upper (s := v) hphase hmet hle).trans (searchOn_ended hhigh))
      all_goals
        have hdone : goes (v.searchDone d i candidate) := goes_of ((search_lower (s := v) hphase hlower).trans (searchOn_ended hlow))
      · subst hq
        exact hdone
      all_goals
        subst hnone hi
        exact hdone
    · exact goes_of ((decide_rewrite (s := v) hphase hmet hr).trans (if_pos heq))
    · exact goes_of ((decide_rewrite (s := v) hphase hmet hr).trans (if_neg hne))

end Sys2Proof.Machine
end

