-- ==== Sys2Proof/Proofs/SenseSampler.lean ====
section
/-! PROOFS. The Sense Sampler's triggers, the start-up self-check and the scan that starts next (R118, R120 to R122, R124, R125). -/

open Sys2Proof Sys2Proof.Machine

namespace Sys2Proof.Machine

/-! ### The converter arbiter (R118, R121, R122, R125) -/

section
variable {m : Sampler}

theorem start_gauge_plain (interval : Nat) (carries : Bool) (h : m.selfCheckCounter < 63) : m.start (.gauge interval carries) =
    { m with powered := true, running := some (.gauge interval false), selfCheckCounter := m.selfCheckCounter + 1 } :=
  if_neg (by omega)

theorem start_gauge_checking (interval : Nat) (carries : Bool) (h : 63 ≤ m.selfCheckCounter) : m.start (.gauge interval carries) =
    { m with powered := true, running := some (.gauge interval true), selfCheckCounter := 0 } :=
  if_pos (by omega)

theorem triggerShock_idle (h : m.running = none) : m.triggerShock = { m with powered := true, running := some .shock } := by
  unfold Sampler.triggerShock
  rw [h]
  rfl

theorem triggerShock_running (h : m.running = some .shock) : m.triggerShock = m.overrun := by
  unfold Sampler.triggerShock
  rw [h]

/-- While another kind of scan runs, a shock trigger joins the pending set or is an overrun. -/
theorem triggerShock_busy (h : m.running ≠ none) (hs : m.running ≠ some .shock) :
    m.triggerShock = if m.pendingShock = true then m.overrun else { m with pendingShock := true } := by
  unfold Sampler.triggerShock
  split
  next hr => exact absurd hr h
  next hr => exact absurd hr hs
  next => rfl
  next => rfl

theorem triggerShock_pending (h : m.running ≠ none) (hp : m.pendingShock = true) : m.triggerShock = m.overrun := by
  by_cases hs : m.running = some .shock
  · exact triggerShock_running hs
  · rw [triggerShock_busy h hs, if_pos hp]

theorem triggerGauge_idle (h : m.running = none) :
    m.triggerGauge = { m with interval := 0 }.start (.gauge m.interval false) := by
  unfold Sampler.triggerGauge
  rw [h]

theorem triggerGauge_running {i : Nat} {carries : Bool} (h : m.running = some (.gauge i carries)) : m.triggerGauge = m.overrun := by
  unfold Sampler.triggerGauge
  rw [h]

/-- While another kind of scan runs, a gauge trigger joins the pending set with its interval, or is an overrun. -/
theorem triggerGauge_busy (h : m.running = some .shock ∨ m.running = some .startUp) : m.triggerGauge =
    if m.pendingGauge.isSome = true then m.overrun else { m with pendingGauge := some m.interval, interval := 0 } := by
  unfold Sampler.triggerGauge
  rcases h with h | h <;> rw [h]

theorem next_off (m : Sampler) : m.next .off = { m with running := none } := rfl

section
variable {p : PowerState} (hp : p ≠ .off)
include hp

theorem next_shock (hs : m.pendingShock = true) :
    m.next p = { m with pendingShock := false, powered := true, running := some .shock } := by
  unfold Sampler.next
  rw [if_neg hp]
  exact if_pos hs

theorem next_gauge (hs : m.pendingShock = false) {i : Nat} (hg : m.pendingGauge = some i) :
    m.next p = { m with running := none, pendingGauge := none }.start (.gauge i false) := by
  unfold Sampler.next
  rw [if_neg hp]
  simp only [hs, hg, Bool.false_eq_true, if_false]

theorem next_idle (hs : m.pendingShock = false) (hg : m.pendingGauge = none) :
    m.next p = { m with running := none, powered := if p = .doze then false else m.powered } := by
  unfold Sampler.next
  rw [if_neg hp]
  simp only [hs, hg, Bool.false_eq_true, if_false]
  split <;> rfl

end

end

/-! ### The rows of the triggers (R120, log 1) -/

theorem due_of_shockDue {s : State} (h : s.sampler.shockDue = true) : s.due = some .shockTrigger :=
  List.find?_cons_of_pos h

theorem due_of_gaugeDue {s : State} (h : s.sampler.shockDue = false) (hc : s.sampler.countdown = 0) (hp : s.power.state ≠ .off) :
    s.due = some .gaugeTrigger := by
  have hgauge : s.isDue .gaugeTrigger = true := by simp [State.isDue, Sampler.gaugeDue, hc, hp]
  exact (List.find?_cons_of_neg (by simp [State.isDue, h])).trans (List.find?_cons_of_pos hgauge)

theorem gaugeReload_eq (p : PowerState) : gaugeReload p = if p = .doze then 8192 else 1024 := by
  cases p <;> rfl

/-- Holding the idle timer before the sampler changes, and again after it, holds it once. -/
theorem holdIdle_sampler_holdIdle (s : State) (m : Sampler) :
    State.holdIdle { s.holdIdle with sampler := m } = State.holdIdle { s with sampler := m } := by
  by_cases h : s.idleHeld = true
  · rw [show s.holdIdle = { s with power := { s.power with idleTimer := 0 } } from if_pos h]
    exact (if_pos h).trans (if_pos h).symm
  · rw [show s.holdIdle = s from if_neg h]

theorem exec_shockTrigger {s : State} (h : s.sampler.shockDue = true) : exec .shockTrigger s =
    .next (State.holdIdle { s with sampler := { s.sampler with shockDue := false }.triggerShock }) :=
  congrArg Host.Outcome.next (makeIfDue_of_due (due_of_shockDue h))

theorem makeGaugeTrigger_eq (s : State) : s.makeGaugeTrigger = { s with
    sampler := { s.sampler with countdown := if s.power.state = PowerState.doze then 8192 else 1024 }.triggerGauge } := by
  unfold State.makeGaugeTrigger
  rw [gaugeReload_eq]

theorem exec_gaugeTrigger {s : State} (h : s.sampler.shockDue = false) (hc : s.sampler.countdown = 0) (hp : s.power.state ≠ .off) :
    exec .gaugeTrigger s = .next (State.holdIdle { s with
      sampler := { s.sampler with countdown := if s.power.state = PowerState.doze then 8192 else 1024 }.triggerGauge }) := by
  rw [← makeGaugeTrigger_eq]
  exact congrArg Host.Outcome.next (makeIfDue_of_due (due_of_gaugeDue h hc hp))

/-- With both kinds due, the shock trigger is made before the gauge trigger. -/
theorem exec_gaugeTrigger_after_shock {s : State} (h : s.sampler.shockDue = true) (hc : s.sampler.countdown = 0)
    (hp : s.power.state ≠ .off) (hr : s.sampler.running = none) : exec .gaugeTrigger s = .next (State.holdIdle { s with
      sampler := { s.sampler with
        shockDue := false, powered := true, running := some .shock
        countdown := if s.power.state = PowerState.doze then 8192 else 1024 }.triggerGauge }) := by
  let u : State := { s with sampler := { s.sampler with shockDue := false, powered := true, running := some .shock } }
  have hmake : s.make .shockTrigger = u :=
    congrArg (fun m => { s with sampler := m }) (triggerShock_idle (m := { s.sampler with shockDue := false }) hr)
  have hsampler : u.holdIdle.sampler = u.sampler := by simp
  have hstate : u.holdIdle.power.state = s.power.state := by rw [holdIdle_field]
  have hdue : s.isDue .gaugeTrigger = true := by simp [State.isDue, Sampler.gaugeDue, hc, hp]
  have hnext : u.holdIdle.due = some .gaugeTrigger :=
    due_of_gaugeDue (by rw [hsampler]) (by rw [hsampler]; exact hc) (by rwa [hstate])
  refine congrArg Host.Outcome.next ((makeIfDue_after hdue (due_of_shockDue h) (by decide) (by rwa [hmake])).trans ?_)
  rw [hmake]
  show u.holdIdle.makeGaugeTrigger.holdIdle = _
  rw [makeGaugeTrigger_eq, holdIdle_sampler_holdIdle, hsampler, hstate]

/-! ### The self-check's verdict (R125) -/

theorem selfCheckFails_eq (zeroRef fullRef : Nat) : selfCheckFails zeroRef fullRef = decide (8 < zeroRef ∨ fullRef < 4087) :=
  (Bool.decide_or ..).symm

/-- The sampler after a self-check's verdict. -/
def Sampler.checked (m : Sampler) (zeroRef fullRef : Nat) : Sampler := { m with
  fault := selfCheckFails zeroRef fullRef, zeroRef := some zeroRef, fullRef := some fullRef
  checks := satAdd max32 m.checks 1
  fails := satAdd max32 m.fails (if selfCheckFails zeroRef fullRef then 1 else 0) }

/-- A failed self-check, and one that ends a sampler fault, raise the SAMPLER notice. -/
theorem selfCheck_eq (s : State) (zeroRef fullRef : Nat) : s.selfCheck zeroRef fullRef =
    (let u : State := { s with sampler := s.sampler.checked zeroRef fullRef }
     if (selfCheckFails zeroRef fullRef || s.sampler.fault) = true then
       u.raise (.sampler (selfCheckFails zeroRef fullRef) zeroRef fullRef u.sampler.checks)
     else u) := rfl

theorem selfCheck_sampler (s : State) (zeroRef fullRef : Nat) :
    (s.selfCheck zeroRef fullRef).sampler = s.sampler.checked zeroRef fullRef := by
  rw [selfCheck_eq]
  dsimp only
  split
  · simp only [raise_frame]
  · rfl

theorem exec_startUpSelfCheckEnd {s : State} (hs : s.Settled) (hr : s.sampler.running = some .startUp) (zero full : Code) :
    exec (.startUpSelfCheckEnd zero full) s = .next ((s.selfCheck zero.toNat full.toNat).nextScan.holdIdle) := by
  show Host.Outcome.next (s.settle.startUpEnd zero full).holdIdle = _
  rw [settle_of_settled hs]
  unfold State.startUpEnd
  rw [if_pos hr]

/-- Settles O56: the rows of the triggers, the start-up self-check's end, and what starts when a scan ends. -/
theorem triggers : Obligations.Triggers := by
  unfold Obligations.Triggers
  refine ⟨?_, ?_, ?_, ?_, ?_⟩
  · intro s hdue m made
    have hmade {n : Sampler} (h : m.triggerShock = n) : exec .shockTrigger s = made n := by
      subst h
      exact exec_shockTrigger hdue
    exact ⟨fun hr => hmade (triggerShock_idle hr), fun hr => hmade (triggerShock_running hr),
      fun hr hs hp => hmade ((triggerShock_busy hr hs).trans (if_neg (Bool.eq_false_iff.mp hp))),
      fun hr hp => hmade (triggerShock_pending hr hp)⟩
  · intro s hc hp hdue m made
    have hmade {n : Sampler} (h : m.triggerGauge = n) : exec .gaugeTrigger s = made n := by
      subst h
      exact exec_gaugeTrigger hdue hc hp
    exact ⟨fun hr hlt => hmade ((triggerGauge_idle hr).trans (start_gauge_plain _ _ hlt)),
      fun hr hle => hmade ((triggerGauge_idle hr).trans (start_gauge_checking _ _ hle)),
      fun i k hr => hmade (triggerGauge_running hr),
      fun hr hg => hmade ((triggerGauge_busy hr).trans (if_neg (by rw [hg]; decide))),
      fun i hr hg => hmade ((triggerGauge_busy hr).trans (if_pos (by rw [hg]; rfl)))⟩
  · intro s hc hp hdue hr hg
    rw [exec_gaugeTrigger_after_shock hdue hc hp hr, triggerGauge_busy (.inl rfl), if_neg (by simp [hg])]
  · intro s zero full hs hr fails
    have hfails : selfCheckFails zero.toNat full.toNat = fails := selfCheckFails_eq ..
    let u : State := s.selfCheck zero.toNat full.toNat
    have hchecked : u.sampler = s.sampler.checked zero.toNat full.toNat := selfCheck_sampler ..
    have hpower : u.power = s.power := by simp [u]
    have hu := selfCheck_eq s zero.toNat full.toNat
    rw [← hchecked, hfails] at hu
    refine ⟨u, ?_, ?_, fun hraised => hu.trans (if_pos (by simpa using hraised)),
      fun hpass hok => hu.trans (if_neg (by simp [hpass, hok]))⟩
    · rw [exec_startUpSelfCheckEnd hs hr, State.nextScan, ← hpower]
    · rw [hchecked, Sampler.checked, hfails]
      rfl
  · intro m p idle
    refine ⟨fun hp => ?_, fun hp hs => next_shock hp hs, fun i hp hs hg => ⟨fun hlt => ?_, fun hle => ?_⟩,
      fun hp hs hg => next_idle hp hs hg⟩
    · rw [hp, next_off]
    · exact (next_gauge hp hs hg).trans (start_gauge_plain _ _ hlt)
    · exact (next_gauge hp hs hg).trans (start_gauge_checking _ _ hle)

end Sys2Proof.Machine
end

