-- ==== Sys2Proof/Proofs/ShockScan.lean ====
section
/-! PROOFS. SHOCK_SCAN_END at the gauge, and at the Drop Monitor in WATCH (R123, R129, R132, R135, R137, R140, R147, R161). -/

open Sys2Proof Sys2Proof.Machine

namespace Sys2Proof.Machine

/-! ### The Index Log's requests at the Media Controller: nothing of it changes -/

@[simp] theorem giveUp_media (s : State) (left : Nat) (body : EntryBody) : (s.giveUp left body).media = s.media := by
  cases body with
  | powerDown => simp only [State.giveUp, State.powerDownEnded]; split <;> rfl
  | drop => rfl
  | surveyOpened | surveyClosed | thresholdsSet | surveyLocked | surveyErased | ports | shock | gauge => simp [State.giveUp]

@[simp] theorem giveUpAll_media (s : State) (left : Nat) : (s.giveUpAll left).media = s.media := by
  have hlist (l : List IndexEntry) (u : State) : (u.giveUpList left l).media = u.media := by
    induction l generalizing u with
    | nil => rfl
    | cons e l ih => simp [State.giveUpList, ih]
  exact hlist _ s

@[simp] theorem nextRollover_media (s : State) : s.nextRollover.media = s.media := by
  unfold State.nextRollover State.enterLogFailed
  dsimp only
  repeat' split
  all_goals simp

@[simp] theorem headReady_media (s : State) : s.headReady.media = s.media := by
  unfold State.headReady
  split <;> simp

@[simp] theorem pumpLog_media (s : State) : s.pumpLog.media = s.media := by
  have hgrant (b : Nat) : (s.grantEntry b).media = s.media := by
    unfold State.grantEntry
    split <;> simp
  have hask : s.askEntry.media = s.media := by
    unfold State.askEntry
    repeat' split
    all_goals simp [hgrant]
  unfold State.pumpLog
  repeat' split
  all_goals simp [hask]

@[simp] theorem requestEntry_media (s : State) (body : EntryBody) : (s.requestEntry body).media = s.media := by
  unfold State.requestEntry
  dsimp only
  repeat' split
  all_goals simp

@[simp] theorem finishDrop_media (s : State) (unresolved : Nat) : (s.finishDrop unresolved).media = s.media := by
  unfold State.finishDrop
  split <;> simp

/-! ### Power Control's hold on the media port: takes, and what the park flag abandons and makes again, leave it -/

@[simp] theorem testMediaFull_hold (s : State) (pausing : Bool) : (s.testMediaFull pausing).media.hold = s.media.hold :=
  ((seat_iff _ _).mp (seat_testMediaFull s pausing)).2.2

@[simp] theorem makeTake_hold (s : State) (t : Take) : (s.makeTake t).media.hold = s.media.hold := by
  have hput (u : State) (t : Take) : (u.putTake t).media.hold = u.media.hold := rfl
  have hrefuse : (s.refuseTake t).media.hold = s.media.hold := by
    unfold State.refuseTake State.dropTake
    dsimp only
    repeat' split
    all_goals simp
  unfold State.makeTake
  repeat' split
  all_goals simp [hput, hrefuse]

@[simp] theorem remakeTakes_hold (s : State) (l : List Take) : (s.remakeTakes l).media.hold = s.media.hold := by
  induction l generalizing s with
  | nil => rfl
  | cons t l ih => simp [State.remakeTakes, ih]

@[simp] theorem offerAll_hold (s : State) : s.offerAll.media.hold = s.media.hold := by
  have hoffer (l : List Nat) (u : State) : (u.offerTakes l).media.hold = u.media.hold := by
    induction l generalizing u with
    | nil => rfl
    | cons i l ih =>
      unfold State.offerTakes
      split <;> simp [ih]
  exact hoffer _ s

@[simp] theorem abandonErase_hold (s : State) : s.abandonErase.media.hold = s.media.hold := by
  have hreturn (u : State) (g : Nat) : (u.returnErasing g).media.hold = u.media.hold := by simp [returnErasing_eq]
  unfold State.abandonErase
  repeat' split
  all_goals simp [hreturn]

@[simp] theorem raisePark_hold (s : State) : s.raisePark.media.hold = s.media.hold := by
  unfold State.raisePark
  split <;> simp

@[simp] theorem declareDrop_hold (s : State) (kind : DropKind) (start : Stamp) (holdUp : Nat) :
    (s.declareDrop kind start holdUp).media.hold = s.media.hold := by
  simp [declareDrop_eq, State.declaring]

@[simp] theorem judgeVerify_hold (s : State) : s.judgeVerify.media.hold = s.media.hold := by
  unfold State.judgeVerify State.enterWatch State.parkLowered
  split <;> simp

@[simp] theorem judgeSettle_hold (s : State) (v : ScanView) : (s.judgeSettle v).media.hold = s.media.hold := by
  unfold State.judgeSettle State.enterVerify
  dsimp only
  split <;> simp

@[simp] theorem goImpact_hold (s : State) (v : ScanView) : (s.goImpact v).media.hold = s.media.hold := by
  simp [State.goImpact, State.scanImpact]

@[simp] theorem declareImpact_hold (s : State) (v : ScanView) : (s.declareImpact v).media.hold = s.media.hold := by
  simp [State.declareImpact]

@[simp] theorem scanFallWait_hold (s : State) (v : ScanView) : (s.scanFallWait v).media.hold = s.media.hold := by
  unfold State.scanFallWait State.enterVerify
  dsimp only
  repeat' split
  all_goals simp

@[simp] theorem scanFalling_hold (s : State) (v : ScanView) : (s.scanFalling v).media.hold = s.media.hold := by
  unfold State.scanFalling
  dsimp only
  repeat' split
  all_goals simp

/-- The monitor's transition leaves the hold in each of its states. -/
theorem transition_hold (s : State) (v : ScanView) : (s.transition v).media.hold = s.media.hold := by
  unfold State.transition
  split
  · -- WATCH (R132)
    unfold State.scanWatch
    split <;> simp
  · -- FALL-WAIT (R133)
    exact scanFallWait_hold s v
  · -- FALLING (R134)
    exact scanFalling_hold s v
  · -- IMPACT (R135)
    simp [State.scanImpact]
  · -- SETTLING (R136)
    unfold State.scanSettling
    split <;> simp
  · -- VERIFY (R139)
    unfold State.scanVerify
    split <;> simp

/-! ### A scan's class and its peak (R129) -/

theorem le_largest_iff (n : Nat) (d : Int × Int × Int) :
    n ≤ largest d ↔ n ≤ d.1.natAbs ∨ n ≤ d.2.1.natAbs ∨ n ≤ d.2.2.natAbs := by
  simp only [largest, le_max_iff]

theorem largest_le_iff (n : Nat) (d : Int × Int × Int) :
    largest d ≤ n ↔ d.1.natAbs ≤ n ∧ d.2.1.natAbs ≤ n ∧ d.2.2.natAbs ≤ n := by
  simp only [largest, max_le_iff]

/-! ### The gauge (R161) -/

section
variable {s : State}

theorem gaugeShock_of_fault (h : s.sampler.fault = true) (mv : Nat) : s.gaugeShock mv = s := if_pos h

theorem gaugeShock_of_sound (h : s.sampler.fault = false) (mv : Nat) :
    s.gaugeShock mv = { s with gauge := (s.gauge.takeHold mv).recompute } :=
  if_neg (by simp [h])

end

/-! ### A declaration and its first scan in IMPACT (R53, R135, R137, R140) -/

theorem declareDrop_monitor (s : State) (kind : DropKind) (start : Stamp) (holdUp : Nat) :
    (s.declareDrop kind start holdUp).monitor = { s.monitor with
      park := true
      drop := some (s.declaredRecord kind start holdUp)
      total := if s.monitor.loaded then s.monitor.newNumber else s.monitor.total
      ordinals := if s.monitor.loaded then s.monitor.ordinals else s.monitor.ordinals + 1 } := by
  have hparked (u : State) : u.raisePark.monitor = { u.monitor with park := true } := by
    rw [raisePark_eq]
    split <;> simp [State.parked]
  rw [declareDrop_eq]
  simp only [raise_frame, hparked, State.declaring, suspectHeld_frame, modMonitor_monitor]

theorem declareDrop_queue (s : State) (kind : DropKind) (start : Stamp) (holdUp : Nat) :
    (s.declareDrop kind start holdUp).queue = s.queue.map (fun e => if e.state = .held then { e with state := .suspect } else e) := by
  rw [declareDrop_eq]
  simp only [raise_frame, raisePark_frame, State.declaring, suspectHeld_eq, modMonitor_queue]

/-- An impact scan is not quiet: the settle count stays at 0, and the drop in progress takes the scan's peak. -/
theorem goImpact_eq {s : State} {v : ScanView} {r : DropRecord} (hd : s.monitor.drop = some r) (hq : ¬ v.quiet = true)
    (ht : 1 ≤ s.monitor.shock.settleTime) : s.goImpact v = { s with monitor := { s.monitor with
      state := .impact, settle := 0, drop := some { r with peak := max r.peak v.peak, rail := r.rail || v.rail } } } := by
  unfold State.goImpact State.scanImpact
  rw [judgeSettle_moved ?_ hq ht]
  · simp only [State.modMonitor, State.modDrop, hd, Option.map_some]
  · rfl

section
variable {s : State} {v : ScanView} (hq : ¬ v.quiet = true) (ht : 1 ≤ s.monitor.shock.settleTime)
include hq ht

theorem declareImpact_eq : s.declareImpact v =
    (let u : State := s.declareDrop .impact s.stamp v.holdUp
     { u with monitor := { u.monitor with
        state := .impact, settle := 0
        drop := some { s.declaredRecord .impact s.stamp v.holdUp with peak := v.peak, rail := v.rail } } }) := by
  have hd := congrArg Monitor.drop (declareDrop_monitor s .impact s.stamp v.holdUp)
  refine (goImpact_eq hd hq (by rwa [declareDrop_shock])).trans ?_
  simp [State.declaredRecord]

theorem declareImpact_monitor : (s.declareImpact v).monitor = { s.monitor with
    state := .impact, park := true, settle := 0
    drop := some { s.declaredRecord .impact s.stamp v.holdUp with peak := v.peak, rail := v.rail }
    total := if s.monitor.loaded then s.monitor.newNumber else s.monitor.total
    ordinals := if s.monitor.loaded then s.monitor.ordinals else s.monitor.ordinals + 1 } := by
  simp only [declareImpact_eq hq ht, declareDrop_monitor]

theorem declareImpact_queue : (s.declareImpact v).queue =
    s.queue.map (fun e => if e.state = .held then { e with state := .suspect } else e) := by
  simp only [declareImpact_eq hq ht, declareDrop_queue]

end

/-! ### WATCH (R132) -/

section
variable (s : State) (ax ay az vhold : Code)

theorem latched_monitor (h : s.monitor.drop = none) : (s.latched ax ay az vhold).monitor = s.monitor := by
  unfold State.latched
  simp only [h, Option.map_none]
  rw [← h]

theorem transition_watch (h : s.monitor.state = .watch) (v : ScanView) : s.transition v = s.scanWatch v := by
  rw [State.transition, h]

end

/-- Settles O57: the gauge by `State.gaugeShock`, and the monitor by its transition in WATCH. -/
theorem shockScan : Obligations.ShockScan := by
  unfold Obligations.ShockScan
  intro s ax ay az vhold hs hrun v d impact free mv pages cap
  let vw : ScanView := s.view ax ay az vhold
  let base : State := s.latched ax ay az vhold
  let y : State := base.transition vw
  let x : State := { y with monitor := { y.monitor with previous := some d } }
  have hscan : x = State.monitorScan { s with sampler := s.sampler.latch 0 [ax.toNat, ay.toNat, az.toNat, vhold.toNat] } vw := rfl
  have hclock : x.clock = s.clock := by rw [hscan]; simp only [monitorScan_frame]
  have hgauge : x.gauge = s.gauge := by rw [hscan]; simp only [monitorScan_frame]
  have hfault : x.sampler.fault = s.sampler.fault := by rw [hscan]; simp only [monitorScan_frame, latch_fault]
  refine ⟨x.gaugeShock mv, exec_shockScanEnd ax ay az vhold hs hrun, ?_, ?_, ?_, ?_, fun hf => ?_, fun hf => ?_, fun hstate hdrop => ?_⟩
  · simp only [gaugeShock_frame, hclock]
  · simp only [gaugeShock_frame]
    exact transition_hold base vw
  · simp only [gaugeShock_frame, hfault]
  · simp only [gaugeShock_frame, x]
  · rw [gaugeShock_of_fault (hfault.trans hf), hgauge]
  · have hcap : levelCap s.gauge.level = cap := levelCap_eq _
    rw [gaugeShock_of_sound (hfault.trans hf), hgauge, ← hcap]
    rfl
  · have hbase : base.monitor = s.monitor := latched_monitor s ax ay az vhold hdrop
    have hwatch : y = base.scanWatch vw := transition_watch base (hbase.symm ▸ hstate) vw
    have hcls : vw.cls = if v.impactLevel ≤ largest d then .impact else if largest d ≤ v.ffWindow then .free else .held := rfl
    simp only [gaugeShock_frame, x]
    refine ⟨fun hni hnf => ?_, fun hni hfr => ?_, fun hi ht => ?_⟩
    · have hheld : vw.cls = .held :=
        hcls.trans ((if_neg (mt (le_largest_iff _ _).mp hni)).trans (if_neg (mt (largest_le_iff _ _).mp hnf)))
      rw [hwatch, State.scanWatch, hheld, hbase]
    · have hfree : vw.cls = .free := hcls.trans ((if_neg (mt (le_largest_iff _ _).mp hni)).trans (if_pos ((largest_le_iff _ _).mpr hfr)))
      rw [hwatch, State.scanWatch, hfree, State.goFallWait, State.modMonitor, hbase]
      rfl
    · have himpact : vw.cls = .impact := hcls.trans (if_pos ((le_largest_iff _ _).mpr hi))
      have hquiet : ¬ vw.quiet = true := fun hq => by
        obtain ⟨hheld, -⟩ := (view_quiet s ax ay az vhold).mp hq
        exact absurd (himpact.symm.trans hheld) (by decide)
      have htime : 1 ≤ base.monitor.shock.settleTime := hbase ▸ ht
      rw [hwatch, State.scanWatch, himpact]
      dsimp only
      rw [declareImpact_monitor hquiet htime, declareImpact_queue hquiet htime, hbase]
      refine ⟨rfl, rfl, rfl, ?_, rfl, _, rfl, rfl, rfl, rfl, rfl, rfl, rfl, rfl, rfl⟩
      unfold Monitor.newNumber
      dsimp only
      split <;> rfl

end Sys2Proof.Machine
end

