-- ==== Sys2Proof/Proofs/DropView.lean ====
section
/-! SUPPORT. What the invariant of the Drop Monitor reads: its state, the park flag, and whether a drop is in progress. Which
operations leave that as it stands, in the order of the model, though they change other parts of the monitor. -/

open Sys2Proof Sys2Proof.Machine

namespace Sys2Proof.Machine

/-- The monitor's state, the park flag, and whether a drop is in progress. -/
def Monitor.dropView (m : Monitor) : MonitorState × Bool × Bool := (m.state, m.park, m.drop.isSome)

theorem dropView_eq_iff (m n : Monitor) :
    m.dropView = n.dropView ↔ m.state = n.state ∧ m.park = n.park ∧ m.drop.isSome = n.drop.isSome := by
  simp only [Monitor.dropView, Prod.mk.injEq]

/-- A change of the drop in progress leaves it in progress. -/
@[simp] theorem dropView_mapDrop (m : Monitor) (f : DropRecord → DropRecord) :
    Monitor.dropView { m with drop := m.drop.map f } = m.dropView := by
  simp [Monitor.dropView]

@[simp] theorem dropView_shock (m : Monitor) (v : ShockSettings) : Monitor.dropView { m with shock := v } = m.dropView := rfl

/-! ### The Index Log (R95, R96) -/

/-- A durable entry may set the shock settings, and nothing else of the monitor. -/
@[simp] theorem durable_dropView (s : State) (body : EntryBody) : (s.durable body).monitor.dropView = s.monitor.dropView := by
  unfold State.durable
  split <;> simp

@[simp] theorem entryDurable_dropView (s : State) (e : IndexEntry) : (s.entryDurable e).monitor.dropView = s.monitor.dropView := by
  unfold State.entryDurable
  simp

@[simp] theorem indexProgramEnd_dropView (s : State) (g p : Nat) (ok : Bool) :
    (s.indexProgramEnd g p ok).monitor.dropView = s.monitor.dropView := by
  unfold State.indexProgramEnd
  dsimp only
  repeat' split
  all_goals simp

/-! ### The gauge (R153) -/

/-- The gauge may mark the drop in progress with the loss of the pack. -/
@[simp] theorem judgePack_dropView (s : State) (vpack vhold : Nat) :
    (s.judgePack vpack vhold).monitor.dropView = s.monitor.dropView := by
  unfold State.judgePack
  dsimp only
  repeat' split
  all_goals simp

@[simp] theorem gaugeScan_dropView (s : State) (vhold vpack ipack tpack interval : Nat) :
    (s.gaugeScan vhold vpack ipack tpack interval).monitor.dropView = s.monitor.dropView := by
  unfold State.gaugeScan
  dsimp only
  repeat' split
  all_goals simp

@[simp] theorem gaugeEnd_dropView (s : State) (vhold vpack ipack tpack zeroRef fullRef : Code) :
    (s.gaugeEnd vhold vpack ipack tpack zeroRef fullRef).monitor.dropView = s.monitor.dropView := by
  unfold State.gaugeEnd
  repeat' split
  all_goals simp

/-! ### Mount (R95, R147, R175) -/

/-- The numbering gives the drop in progress its number. -/
@[simp] theorem numberDrops_dropView (s : State) : s.numberDrops.monitor.dropView = s.monitor.dropView := by
  simp [State.numberDrops, Monitor.dropView]

@[simp] theorem replayDrop_dropView (s : State) (r : DropRecord) : (s.replayDrop r).monitor.dropView = s.monitor.dropView := rfl

@[simp] theorem replayBody_dropView (s : State) (body : EntryBody) :
    (s.replayBody body).monitor.dropView = s.monitor.dropView := by
  unfold State.replayBody
  split <;> simp

@[simp] theorem replayPage_dropView (s : State) (data : List Byte) :
    (s.replayPage data).monitor.dropView = s.monitor.dropView := by
  unfold State.replayPage
  split <;> simp

@[simp] theorem mountUnformatted_dropView (s : State) : s.mountUnformatted.monitor.dropView = s.monitor.dropView := by
  unfold State.mountUnformatted
  simp

/-- A snapshot gives the shock settings, the Drop List and the drop total. -/
@[simp] theorem loadSnapshot_dropView (s : State) (c : SnapshotCandidate) :
    (s.loadSnapshot c).monitor.dropView = s.monitor.dropView := by
  simp [State.loadSnapshot, Monitor.dropView]

@[simp] theorem endReplay_dropView (s : State) (g writePoint nextSeq : Nat) :
    (s.endReplay g writePoint nextSeq).monitor.dropView = s.monitor.dropView := by
  unfold State.endReplay
  simp

@[simp] theorem replayOn_dropView (s : State) (g page expect : Nat) (passed : Option Bool) :
    (s.replayOn g page expect passed).monitor.dropView = s.monitor.dropView := by
  unfold State.replayOn
  split <;> simp

@[simp] theorem replayRead_dropView (s : State) (g page expect : Nat) (passed : Option Bool) (r : PageResult) :
    (s.replayRead g page expect passed r).monitor.dropView = s.monitor.dropView := by
  unfold State.replayRead
  repeat' split
  all_goals simp

@[simp] theorem mountReadEnd_dropView (s : State) (g p : Nat) (o : ReadOutcome) :
    (s.mountReadEnd g p o).monitor.dropView = s.monitor.dropView := by
  unfold State.mountReadEnd
  dsimp only
  repeat' split
  all_goals simp

/-! ### FORMAT's tables (R102), ticks (R164), and the pages counted in a drop (R140) -/

@[simp] theorem formatTables_dropView (s : State) (n : Nat) : (s.formatTables n).monitor.dropView = s.monitor.dropView := rfl

@[simp] theorem tickCounts_dropView (s : State) : s.tickCounts.monitor.dropView = s.monitor.dropView := rfl

@[simp] theorem tick_dropView (s : State) : s.tick.monitor.dropView = s.monitor.dropView := by
  unfold State.tick
  simp

@[simp] theorem idle_dropView (s : State) : s.idle.monitor.dropView = s.monitor.dropView := by
  unfold State.idle State.crystal
  repeat' split
  all_goals simp

@[simp] theorem countPages_dropView (s : State) (f : PageCounts → PageCounts) :
    (s.countPages f).monitor.dropView = s.monitor.dropView := by
  simp [State.countPages]

@[simp] theorem programOk_dropView (s : State) (e : Entry) : (s.programOk e).monitor.dropView = s.monitor.dropView := by
  unfold State.programOk
  split <;> simp

@[simp] theorem verifyMatch_dropView (s : State) (e : Entry) : (s.verifyMatch e).monitor.dropView = s.monitor.dropView := by
  unfold State.verifyMatch
  simp

@[simp] theorem verifyMismatch_dropView (s : State) (e : Entry) (g : Nat) :
    (s.verifyMismatch e g).monitor.dropView = s.monitor.dropView := by
  unfold State.verifyMismatch
  simp

end Sys2Proof.Machine
end

