-- ==== Sys2Proof/Proofs/DropInvariant.lean ====
section
/-! PROOFS. The park flag and the drop in progress in each state of the Drop Monitor (R131): every transition of the monitor keeps
them so, and so does every step. -/

open Sys2Proof Sys2Proof.Machine

namespace Sys2Proof.Machine

/-! ### The invariant, state by state (R131) -/

section
variable {s : State}

theorem dropInv_watch (h : s.monitor.state = .watch) : s.DropInv ↔ s.monitor.park = false ∧ s.monitor.drop = none := by
  unfold State.DropInv
  rw [h]

theorem dropInv_fallWait (h : s.monitor.state = .fallWait) : s.DropInv ↔ s.monitor.drop = none := by
  unfold State.DropInv
  rw [h]

theorem dropInv_open (h : s.monitor.state = .falling ∨ s.monitor.state = .impact ∨ s.monitor.state = .settling) :
    s.DropInv ↔ s.monitor.park = true ∧ s.monitor.drop.isSome = true := by
  unfold State.DropInv
  rcases h with h | h | h <;> rw [h]

theorem dropInv_verify (h : s.monitor.state = .verify) : s.DropInv ↔ s.monitor.park = true := by
  unfold State.DropInv
  rw [h]

/-- The invariant reads nothing but the monitor's view. -/
theorem dropInv_of_view {t : State} (h : t.monitor.dropView = s.monitor.dropView) (hs : s.DropInv) : t.DropInv := by
  obtain ⟨hstate, hpark, hdrop⟩ := (dropView_eq_iff _ _).mp h
  have hnone : t.monitor.drop = none ↔ s.monitor.drop = none := by
    rw [← Option.not_isSome_iff_eq_none, hdrop, Option.not_isSome_iff_eq_none]
  unfold State.DropInv at hs ⊢
  rw [hstate, hpark, hdrop, hnone]
  exact hs

theorem dropInv_modDrop (hs : s.DropInv) (f : DropRecord → DropRecord) : (s.modDrop f).DropInv :=
  dropInv_of_view (by simp [State.modDrop]) hs

end

/-! ### The finish and VERIFY (R138, R141) -/

/-- After the finish no drop is in progress. -/
theorem finishDrop_drop (s : State) (n : Nat) : (s.finishDrop n).monitor.drop = none := by
  unfold State.finishDrop
  split
  next hnone => exact hnone
  next => cases hloaded : s.monitor.loaded <;> simp [hloaded]

theorem dropInv_enterWatch {s : State} (hd : s.monitor.drop = none) : s.enterWatch.DropInv := by
  have hmonitor : s.enterWatch.monitor = { s.monitor with state := .watch, park := false, watchCount := 0 } := by
    simp [State.enterWatch]
  exact (dropInv_watch (by rw [hmonitor])).mpr (by rw [hmonitor]; exact ⟨rfl, hd⟩)

/-- The judgement of VERIFY finishes the drop before WATCH is entered (R138). -/
theorem dropInv_judgeVerify {s : State} (hs : s.DropInv) : s.judgeVerify.DropInv := by
  unfold State.judgeVerify
  split
  · exact dropInv_enterWatch (finishDrop_drop s 0)
  · exact hs

/-- VERIFY may be entered from any state with the park flag up, with or without a drop in progress (R138, R139). -/
theorem dropInv_enterVerify {s : State} (hp : s.monitor.park = true) : s.enterVerify.DropInv :=
  dropInv_judgeVerify ((dropInv_verify rfl).mpr hp)

/-! ### Transitions on a scan (R132 to R136, R139) -/

theorem dropInv_judgeSettle {s : State} (hs : s.DropInv) (hp : s.monitor.park = true) (v : ScanView) : (s.judgeSettle v).DropInv := by
  unfold State.judgeSettle
  dsimp only
  split
  · exact dropInv_enterVerify hp
  · exact dropInv_of_view rfl hs

theorem dropInv_scanImpact {s : State} (hs : s.DropInv) (hp : s.monitor.park = true) (v : ScanView) : (s.scanImpact v).DropInv := by
  unfold State.scanImpact
  exact dropInv_judgeSettle (dropInv_modDrop hs _) hp v

/-- IMPACT is entered under the park flag with a drop in progress. -/
theorem dropInv_goImpact {s : State} (hp : s.monitor.park = true) (hd : s.monitor.drop.isSome = true) (v : ScanView) :
    (s.goImpact v).DropInv := by
  have himpact : (s.modMonitor (fun m => { m with state := .impact, settle := 0 })).DropInv :=
    (dropInv_open (.inr (.inl rfl))).mpr ⟨hp, hd⟩
  exact dropInv_scanImpact himpact hp v

/-- A declaration raises the park flag and begins a drop, whatever the state before it (R137). -/
theorem declareDrop_open (s : State) (kind : DropKind) (start : Stamp) (holdUp : Nat) :
    (s.declareDrop kind start holdUp).monitor.park = true ∧ (s.declareDrop kind start holdUp).monitor.drop.isSome = true := by
  rw [declareDrop_monitor]
  exact ⟨rfl, rfl⟩

theorem dropInv_declareImpact (s : State) (v : ScanView) : (s.declareImpact v).DropInv := by
  obtain ⟨hpark, hdrop⟩ := declareDrop_open s .impact s.stamp v.holdUp
  exact dropInv_goImpact hpark hdrop v

theorem dropInv_goFallWait {s : State} (hd : s.monitor.drop = none) : s.goFallWait.DropInv := (dropInv_fallWait rfl).mpr hd

theorem dropInv_scanWatch {s : State} (h : s.monitor.state = .watch) (hs : s.DropInv) (v : ScanView) : (s.scanWatch v).DropInv := by
  obtain ⟨-, hnone⟩ := (dropInv_watch h).mp hs
  unfold State.scanWatch
  split
  · exact dropInv_declareImpact s v
  · exact dropInv_goFallWait hnone
  · exact hs

/-- A fall that ends in the hand goes on in VERIFY where the park flag was never lowered, and else in WATCH (R133, R139). -/
theorem dropInv_scanFallWait {s : State} (h : s.monitor.state = .fallWait) (hs : s.DropInv) (v : ScanView) :
    (s.scanFallWait v).DropInv := by
  have hnone : s.monitor.drop = none := (dropInv_fallWait h).mp hs
  unfold State.scanFallWait
  dsimp only
  split
  · exact dropInv_declareImpact _ v
  · split
    · exact (dropInv_open (.inl rfl)).mpr (declareDrop_open _ _ _ _)
    · exact dropInv_of_view rfl hs
  · split
    next hpark => exact dropInv_enterVerify hpark
    next hpark => exact (dropInv_watch rfl).mpr ⟨Bool.eq_false_of_not_eq_true hpark, hnone⟩

/-- The end of a fall leaves the drop in progress. -/
theorem endFall_isSome {s : State} (hd : s.monitor.drop.isSome = true) (t : Nat) (kind : DropKind) :
    (s.endFall t kind).monitor.drop.isSome = true := by
  simpa [State.endFall, State.modDrop] using hd

theorem dropInv_capFall {s : State} (hs : s.DropInv) (hp : s.monitor.park = true) (hd : s.monitor.drop.isSome = true) :
    s.capFall.DropInv := by
  unfold State.capFall
  split
  · exact (dropInv_open (.inr (.inl rfl))).mpr ⟨hp, endFall_isSome hd _ _⟩
  · exact hs

theorem dropInv_scanFalling {s : State} (h : s.monitor.state = .falling) (hs : s.DropInv) (v : ScanView) :
    (s.scanFalling v).DropInv := by
  obtain ⟨hpark, hdrop⟩ := (dropInv_open (.inl h)).mp hs
  unfold State.scanFalling
  dsimp only
  split
  · refine dropInv_goImpact ?_ (endFall_isSome ?_ _ _) v
    · exact hpark
    · exact hdrop
  · split
    · exact (dropInv_open (.inr (.inr rfl))).mpr ⟨hpark, endFall_isSome hdrop _ _⟩
    · exact dropInv_capFall (dropInv_of_view rfl hs) hpark hdrop
  · exact dropInv_capFall (dropInv_of_view rfl hs) hpark hdrop

theorem dropInv_scanSettling {s : State} (h : s.monitor.state = .settling) (hs : s.DropInv) (v : ScanView) :
    (s.scanSettling v).DropInv := by
  obtain ⟨hpark, hdrop⟩ := (dropInv_open (.inr (.inr h))).mp hs
  unfold State.scanSettling
  split
  · exact dropInv_goImpact hpark hdrop v
  · exact dropInv_judgeSettle hs hpark v
  · exact dropInv_judgeSettle hs hpark v

/-- Motion in VERIFY finishes the drop before another is declared or a fall is waited for (R139). -/
theorem dropInv_scanVerify {s : State} (hs : s.DropInv) (v : ScanView) : (s.scanVerify v).DropInv := by
  unfold State.scanVerify
  split
  · exact hs
  · exact dropInv_declareImpact _ v
  · exact dropInv_goFallWait (finishDrop_drop s s.unresolved)

/-- The monitor's transition on a scan, in each of its states. -/
theorem dropInv_transition {s : State} (hs : s.DropInv) (v : ScanView) : (s.transition v).DropInv := by
  unfold State.transition
  split
  next h => exact dropInv_scanWatch h hs v
  next h => exact dropInv_scanFallWait h hs v
  next h => exact dropInv_scanFalling h hs v
  next h =>
    obtain ⟨hpark, -⟩ := (dropInv_open (.inr (.inl h))).mp hs
    exact dropInv_scanImpact hs hpark v
  next h => exact dropInv_scanSettling h hs v
  next => exact dropInv_scanVerify hs v

/-- A delivered shock scan: the drop in progress takes its hold-up, the monitor makes its transition, and the scan is remembered. -/
theorem dropInv_monitorScan {s : State} (hs : s.DropInv) (v : ScanView) : (s.monitorScan v).DropInv := by
  have hmoved := dropInv_transition (dropInv_modDrop hs (fun r => { r with lowestHoldUp := min r.lowestHoldUp v.holdUp })) v
  exact dropInv_of_view rfl hmoved

/-! ### FORMAT, and the ends of scans and operations (R102, R123, R138) -/

section
variable {s : State} (hs : s.DropInv)
include hs

/-- FORMAT empties the Commit Queue, so VERIFY is judged again (R102, R138). -/
theorem dropInv_formatBegin (r : FormatRun) : (s.formatBegin r).DropInv := by
  unfold State.formatBegin
  exact dropInv_judgeVerify (dropInv_of_view (by simp) hs)

theorem dropInv_formatGate : s.formatGate.DropInv := by
  unfold State.formatGate
  split
  · split
    · exact dropInv_formatBegin hs _
    · exact hs
  · exact hs

theorem dropInv_arbitrate : s.arbitrate.DropInv := dropInv_of_view (by simp) hs

theorem dropInv_format (f : Frame) (level : Nat) : (s.format f level).DropInv := by
  unfold State.format State.startFormat
  split
  · exact dropInv_of_view (by simp) hs
  · split
    · exact dropInv_of_view (by simp) hs
    · exact dropInv_arbitrate (dropInv_formatGate (dropInv_of_view (by simp) hs))

theorem dropInv_shockEnd (ax ay az vhold : Code) : (s.shockEnd ax ay az vhold).DropInv := by
  unfold State.shockEnd
  split
  · dsimp only
    generalize hu : ({ s with sampler := _ } : State) = u
    have hlatched : u.DropInv := dropInv_of_view (by rw [← hu]) hs
    have hscan := dropInv_monitorScan hlatched (u.view ax ay az vhold)
    exact dropInv_arbitrate (dropInv_formatGate (dropInv_of_view (by simp) hscan))
  · exact hs

theorem dropInv_afterOp : s.afterOp.DropInv := dropInv_arbitrate (dropInv_formatGate (dropInv_judgeVerify hs))

/-- An operation's end whose own effect leaves the view. -/
theorem dropInv_ended {u : State} (h : u.monitor.dropView = s.monitor.dropView) : u.afterOp.DropInv :=
  dropInv_afterOp (dropInv_of_view h hs)

theorem dropInv_endDataProgram (ok : Bool) : (s.endDataProgram ok).DropInv := by
  unfold State.endDataProgram
  split
  · unfold State.dataEnd
    dsimp only
    repeat' split
    all_goals exact dropInv_ended hs (by simp)
  · exact hs

theorem dropInv_endHeaderProgram (ok : Bool) : (s.endHeaderProgram ok).DropInv := by
  unfold State.endHeaderProgram
  split
  · exact dropInv_ended hs (by simp)
  · exact hs

theorem dropInv_endSegmentErase (ok : Bool) : (s.endSegmentErase ok).DropInv := by
  unfold State.endSegmentErase
  split
  · exact dropInv_ended hs (by simp)
  · exact dropInv_ended hs (by simp)
  · exact hs

theorem dropInv_endFormatErase (ok : Bool) : (s.endFormatErase ok).DropInv := by
  unfold State.endFormatErase
  split
  · exact dropInv_ended hs (by simp)
  · exact hs

theorem dropInv_endIndexEntry (ok : Bool) : (s.endIndexEntry ok).DropInv := by
  unfold State.endIndexEntry
  split
  · exact dropInv_ended hs (by simp)
  · exact hs

theorem dropInv_endIndexErase (ok : Bool) : (s.endIndexErase ok).DropInv := by
  unfold State.endIndexErase
  split
  · exact dropInv_ended hs (by simp)
  · exact hs

theorem dropInv_endSnapshot (ok : Bool) : (s.endSnapshot ok).DropInv := by
  unfold State.endSnapshot
  split
  · exact dropInv_ended hs (by simp)
  · exact hs

theorem dropInv_endVerification (r : ReadOutcome) : (s.endVerification r).DropInv := by
  unfold State.endVerification
  split
  · unfold State.verifyEnd
    dsimp only
    repeat' split
    all_goals exact dropInv_ended hs (by simp)
  · exact hs

theorem dropInv_endEngineRead (r : ReadOutcome) : (s.endEngineRead r).DropInv := by
  unfold State.endEngineRead
  split
  · exact dropInv_ended hs (by simp)
  · exact hs

theorem dropInv_endMountRead (r : ReadOutcome) : (s.endMountRead r).DropInv := by
  unfold State.endMountRead
  split
  · exact dropInv_ended hs (by simp)
  · exact hs

/-- A timeout ends the operation in flight, whichever it is, as a failure (R74). -/
theorem dropInv_timeout : s.timeout.DropInv := by
  unfold State.timeout
  split
  · exact hs
  · exact dropInv_endDataProgram hs false
  · exact dropInv_endHeaderProgram hs false
  · exact dropInv_endSegmentErase hs false
  · exact dropInv_endSegmentErase hs false
  · exact dropInv_endFormatErase hs false
  · exact dropInv_endIndexErase hs false
  · exact dropInv_endIndexEntry hs false
  · exact dropInv_endSnapshot hs false
  · exact dropInv_endVerification hs .failed
  · exact dropInv_endEngineRead hs .failed
  · exact dropInv_endMountRead hs .failed

/-! ### The control commands (R181, R183) -/

/-- Only FORMAT's rule reaches the monitor. -/
theorem dropInv_rule (o : Opcode) (f : Frame) (level : Nat) : (o.rule s f level).DropInv := by
  cases o
  case format => exact dropInv_format hs f level
  all_goals exact dropInv_of_view (by simp [Opcode.rule]) hs

theorem dropInv_takeHead (o : Opcode) : (s.takeHead o o.rule).DropInv := by
  have htaken (f : Frame) : (s.takeFrame o f o.rule).DropInv := by
    unfold State.takeFrame
    split
    · exact dropInv_of_view (by simp) hs
    · exact dropInv_rule hs o f _
  unfold State.takeHead
  split
  next f _ =>
    split
    · exact dropInv_of_view (by simp) (htaken f)
    · exact hs
  next => exact hs

theorem dropInv_settle : s.settle.DropInv := dropInv_of_view (by simp) hs

theorem dropInv_command (o : Opcode) : (s.command o o.rule).DropInv := dropInv_takeHead (dropInv_settle hs) o

theorem dropInv_takeAny : s.takeAny.DropInv := by
  unfold State.takeAny
  split
  · split
    · exact dropInv_takeHead hs _
    · exact dropInv_of_view (by simp) hs
  · exact hs

theorem dropInv_sendFrame : s.sendFrame.DropInv := by
  have hsent : s.sent.DropInv := dropInv_of_view (by simp) hs
  unfold State.sendFrame
  split
  · exact dropInv_takeAny hsent
  · exact hsent

/-! ### The rows, and every step -/

/-- Every row keeps the invariant: it resets the monitor, delivers a shock scan, ends an operation, takes a control frame, or leaves the
view. -/
theorem exec_dropInv (c : Instr) : ∃ t, exec c s = .next t ∧ t.DropInv := by
  have hset : s.settle.DropInv := dropInv_settle hs
  have hidle {u : State} (hu : u.DropInv) : u.holdIdle.DropInv := dropInv_of_view (by simp) hu
  cases c
  case powerOn n => exact ⟨_, rfl, rfl, rfl⟩
  case rstLine => exact ⟨_, rfl, rfl, rfl⟩
  case shockScanEnd ax ay az vhold => exact ⟨_, rfl, hidle (dropInv_shockEnd hset ax ay az vhold)⟩
  case dataPageProgramEnd ok => exact ⟨_, rfl, hidle (dropInv_endDataProgram hset ok)⟩
  case headerProgramEnd ok => exact ⟨_, rfl, hidle (dropInv_endHeaderProgram hset ok)⟩
  case segmentEraseEnd ok => exact ⟨_, rfl, hidle (dropInv_endSegmentErase hset ok)⟩
  case formatEraseEnd ok => exact ⟨_, rfl, hidle (dropInv_endFormatErase hset ok)⟩
  case indexEntryProgramEnd ok => exact ⟨_, rfl, hidle (dropInv_endIndexEntry hset ok)⟩
  case indexSegmentEraseEnd ok => exact ⟨_, rfl, hidle (dropInv_endIndexErase hset ok)⟩
  case snapshotProgramEnd ok => exact ⟨_, rfl, hidle (dropInv_endSnapshot hset ok)⟩
  case verificationReadEnd r => exact ⟨_, rfl, hidle (dropInv_endVerification hset r)⟩
  case readEngineReadEnd r => exact ⟨_, rfl, hidle (dropInv_endEngineRead hset r)⟩
  case mountReadEnd r => exact ⟨_, rfl, hidle (dropInv_endMountRead hset r)⟩
  case operationTimeout => exact ⟨_, rfl, hidle (dropInv_timeout hset)⟩
  case frameSent => exact ⟨_, rfl, hidle (dropInv_sendFrame hset)⟩
  case status | linkReset | noticeMaskSet | noticeMaskClear | clockRead | clockSet | streamLoad | streamStart | streamPause | streamStop |
    streamClear | streamRead | surveyOpen | surveyClose | surveyThresholds | surveyLock | surveyErase | surveyList | readRecords |
    dropsRead | gaugeRead | setLevels | setShock | setGauge | doze | format =>
    exact ⟨_, rfl, dropInv_command hs _⟩
  all_goals exact ⟨_, rfl, dropInv_of_view (by simp) hs⟩

end

/-- Settles O8: every row keeps the invariant, and so does the step on an empty queue. -/
theorem stepKeepsDrop : Obligations.StepKeepsDrop := by
  unfold Obligations.StepKeepsDrop
  intro s t hstep hs
  unfold step at hstep
  split at hstep
  · cases hstep
    exact dropInv_of_view (idle_dropView s) hs
  · rename_i c rest _
    obtain ⟨u, hu, hinv⟩ := exec_dropInv (s := { s with pending := rest }) (dropInv_of_view rfl hs) c
    cases hu.symm.trans hstep
    exact hinv

end Sys2Proof.Machine
end

