-- ==== Sys2Proof/Proofs/LevelTable.lean ====
section
/-! PROOFS. The level judgement of a gauge scan (R156 to R159): R157's table, and one equation for each outcome of the judgement. -/

open Sys2Proof Sys2Proof.Machine

namespace Sys2Proof.Machine

/-! ### The levels that a state of charge gives (R157, R159) -/

section
variable (soc : Nat)

theorem levelBySoc_normal : (soc ≤ 8 → levelBySoc .normal soc = .reserve) ∧ (9 ≤ soc → soc ≤ 20 → levelBySoc .normal soc = .low) ∧
    (21 ≤ soc → levelBySoc .normal soc = .normal) := by
  unfold levelBySoc
  grind

theorem levelBySoc_low : (soc ≤ 8 → levelBySoc .low soc = .reserve) ∧ (23 ≤ soc → levelBySoc .low soc = .normal) ∧
    (9 ≤ soc → soc ≤ 22 → levelBySoc .low soc = .low) := by
  unfold levelBySoc
  grind

theorem exitLevel_cases : (23 ≤ soc → exitLevel soc = .normal) ∧ (10 ≤ soc → soc ≤ 22 → exitLevel soc = .low) ∧
    (soc ≤ 9 → exitLevel soc = .reserve) := by
  unfold exitLevel
  grind

/-- From RESERVE the level moves as it does at the exit from CRITICAL. -/
theorem levelBySoc_reserve : levelBySoc .reserve soc = exitLevel soc := rfl

end

/-! ### The outcomes of the judgement (R158, R159) -/

/-- The length of the low run after a VPACK (R158). -/
def Gauge.lowRunAfter (g : Gauge) (vpack : Nat) : Nat := if vpack < g.settings.cutOff then g.lowRun + 1 else 0

/-- The usable full charge at a temperature (R156). -/
def Gauge.usableAt (g : Gauge) (tpack : Int) : Nat := usableFull g.settings.capacity (deratingFactor tpack)

/-- The state of charge at a temperature (R156). -/
def Gauge.socAt (g : Gauge) (tpack : Int) : Nat := socOf g.remaining (g.usableAt tpack)

/-- What the last judgement leaves, unless it entered CRITICAL. -/
def Gauge.judgementAt (g : Gauge) (tpack : Int) : Judgement :=
  { soc := some (g.socAt tpack), factor := deratingFactor tpack, usable := g.usableAt tpack }

section
variable {g : Gauge} {vpack : Nat} {ipack tpack : Int} {emptied : Bool}

theorem judge_enters (hl : g.level ≠ .critical) (h : 3 ≤ g.lowRunAfter vpack ∨ (g.remaining = 0 ∧ emptied = true)) :
    g.judge vpack ipack tpack emptied = g.enterCritical (deratingFactor tpack) (g.usableAt tpack) := by
  unfold Gauge.judge
  dsimp only
  rw [if_neg hl]
  exact if_pos h

theorem judge_moves (hl : g.level ≠ .critical) (hrun : g.lowRunAfter vpack < 3) (he : ¬ (g.remaining = 0 ∧ emptied = true)) :
    g.judge vpack ipack tpack emptied = { g with
      lowRun := g.lowRunAfter vpack, level := levelBySoc g.level (g.socAt tpack), judged := some (g.judgementAt tpack) } := by
  unfold Gauge.judge
  dsimp only
  rw [if_neg hl]
  exact if_neg (not_or.mpr ⟨Nat.not_le.mpr hrun, he⟩)

theorem judge_stays (hl : g.level = .critical) (hp : ¬ (ipack < -50 ∧ g.settings.cutOff + 200 ≤ vpack)) :
    g.judge vpack ipack tpack emptied = { g with judged := some (g.judgementAt tpack), recoveryRun := 0 } := by
  unfold Gauge.judge
  dsimp only
  rw [if_pos hl, if_neg hp]
  rfl

theorem judge_recovers (hl : g.level = .critical) (hp : ipack < -50 ∧ g.settings.cutOff + 200 ≤ vpack) (hr : g.recoveryRun < 7) :
    g.judge vpack ipack tpack emptied = { g with judged := some (g.judgementAt tpack), recoveryRun := g.recoveryRun + 1 } := by
  unfold Gauge.judge
  dsimp only
  rw [if_pos hl, if_pos hp, if_neg (by omega)]
  rfl

theorem judge_exits (hl : g.level = .critical) (hp : ipack < -50 ∧ g.settings.cutOff + 200 ≤ vpack) (hr : 7 ≤ g.recoveryRun) :
    g.judge vpack ipack tpack emptied = { g with
      judged := some (g.judgementAt tpack), level := exitLevel (g.socAt tpack), recoveryRun := 0 } := by
  unfold Gauge.judge
  dsimp only
  rw [if_pos hl, if_pos hp, if_pos (by omega)]
  rfl

end

/-- Settles O59, outcome by outcome: the entry to CRITICAL, a move by R157's table, and in CRITICAL the three results of the exit test. -/
theorem levelTable : Obligations.LevelTable := by
  unfold Obligations.LevelTable
  intro g vpack ipack tpack emptied factor usable soc run j
  refine ⟨fun hl h => judge_enters hl h, fun hl hrun he => ?_, fun hl => ⟨fun hp => ?_, fun hp hr => ?_, fun hp hr => ?_⟩⟩
  · have hj : j = _ := judge_moves hl hrun he
    have hlevel : j.level = levelBySoc g.level soc := congrArg Gauge.level hj
    refine ⟨?_, fun hg => ?_, fun hg => ?_, fun hg => ?_⟩
    · rw [hlevel]
      exact hj
    · rw [hlevel, hg]
      exact levelBySoc_normal soc
    · rw [hlevel, hg]
      exact levelBySoc_low soc
    · rw [hlevel, hg, levelBySoc_reserve]
      exact exitLevel_cases soc
  · have hj : j = _ := judge_stays hl hp
    rw [hj]
    exact ⟨hl, rfl⟩
  · have hj : j = _ := judge_recovers hl hp hr
    rw [hj]
    exact ⟨hl, rfl⟩
  · have hj : j = _ := judge_exits hl hp hr
    rw [hj]
    exact ⟨rfl, exitLevel_cases soc⟩

end Sys2Proof.Machine
end

