-- ==== Sys2Proof/Proofs/LimitView.lean ====
section
/-! SUPPORT. What the invariant of the admission limit reads: the level, the hold-up pages and the limit. Which operations leave that
as it stands, in the order of the model, though they change other parts of the gauge: all but a scan's delivery and the resets. -/

open Sys2Proof Sys2Proof.Machine

namespace Sys2Proof.Machine

/-- The level, the hold-up pages and the admission limit. -/
def Gauge.limitView (g : Gauge) : BatteryLevel × Nat × Nat := (g.level, g.holdUpPages, g.limit)

theorem limitView_eq_iff (g h : Gauge) :
    g.limitView = h.limitView ↔ g.level = h.level ∧ g.holdUpPages = h.holdUpPages ∧ g.limit = h.limit := by
  simp only [Gauge.limitView, Prod.mk.injEq]

/-! ### Settings and the Index Log (R95, R96, R151) -/

/-- New settings may lower Remaining; the hold-up pages wait for the next VHOLD. -/
@[simp] theorem take_limitView (g : Gauge) (v : GaugeSettings) : (g.take v).limitView = g.limitView := by
  unfold Gauge.take
  split <;> rfl

@[simp] theorem takeGaugeSettings_limitView (s : State) (v : GaugeSettings) :
    (s.takeGaugeSettings v).gauge.limitView = s.gauge.limitView := take_limitView s.gauge v

/-- A durable entry may set the gauge settings, and nothing else of the gauge. -/
@[simp] theorem durable_limitView (s : State) (body : EntryBody) : (s.durable body).gauge.limitView = s.gauge.limitView := by
  unfold State.durable
  split <;> simp

@[simp] theorem entryDurable_limitView (s : State) (e : IndexEntry) : (s.entryDurable e).gauge.limitView = s.gauge.limitView := by
  unfold State.entryDurable
  simp

@[simp] theorem indexProgramEnd_limitView (s : State) (g p : Nat) (ok : Bool) :
    (s.indexProgramEnd g p ok).gauge.limitView = s.gauge.limitView := by
  unfold State.indexProgramEnd
  dsimp only
  repeat' split
  all_goals simp

/-! ### Mount (R95, R175) -/

@[simp] theorem replayBody_limitView (s : State) (body : EntryBody) : (s.replayBody body).gauge.limitView = s.gauge.limitView := by
  unfold State.replayBody
  split <;> simp

@[simp] theorem replayPage_limitView (s : State) (data : List Byte) : (s.replayPage data).gauge.limitView = s.gauge.limitView := by
  unfold State.replayPage
  split <;> simp

@[simp] theorem loadSnapshot_limitView (s : State) (c : SnapshotCandidate) :
    (s.loadSnapshot c).gauge.limitView = s.gauge.limitView := by
  unfold State.loadSnapshot
  simp

@[simp] theorem replayRead_limitView (s : State) (g page expect : Nat) (passed : Option Bool) (r : PageResult) :
    (s.replayRead g page expect passed r).gauge.limitView = s.gauge.limitView := by
  unfold State.replayRead
  repeat' split
  all_goals simp

@[simp] theorem mountReadEnd_limitView (s : State) (g p : Nat) (o : ReadOutcome) :
    (s.mountReadEnd g p o).gauge.limitView = s.gauge.limitView := by
  unfold State.mountReadEnd
  dsimp only
  repeat' split
  all_goals simp

/-! ### FORMAT (R102) -/

/-- FORMAT sets the default gauge settings, and nothing else of the gauge. -/
@[simp] theorem formatBegin_limitView (s : State) (r : FormatRun) : (s.formatBegin r).gauge.limitView = s.gauge.limitView := by
  unfold State.formatBegin
  simp [State.formatTables]

@[simp] theorem formatGate_limitView (s : State) : s.formatGate.gauge.limitView = s.gauge.limitView := by
  unfold State.formatGate
  repeat' split
  all_goals simp

@[simp] theorem format_limitView (s : State) (f : Frame) (level : Nat) : (s.format f level).gauge.limitView = s.gauge.limitView := by
  unfold State.format State.startFormat
  repeat' split
  all_goals simp

/-! ### The ends of operations (R72 to R77) -/

@[simp] theorem afterOp_limitView (s : State) : s.afterOp.gauge.limitView = s.gauge.limitView := by
  unfold State.afterOp
  simp

@[simp] theorem dataEnd_limitView (s : State) (b g p : Nat) (ok : Bool) : (s.dataEnd b g p ok).gauge.limitView = s.gauge.limitView := by
  unfold State.dataEnd
  dsimp only
  repeat' split
  all_goals simp

@[simp] theorem verifyEnd_limitView (s : State) (b g p : Nat) (o : ReadOutcome) :
    (s.verifyEnd b g p o).gauge.limitView = s.gauge.limitView := by
  unfold State.verifyEnd
  dsimp only
  repeat' split
  all_goals simp

@[simp] theorem endDataProgram_limitView (s : State) (ok : Bool) : (s.endDataProgram ok).gauge.limitView = s.gauge.limitView := by
  unfold State.endDataProgram
  split <;> simp

@[simp] theorem endHeaderProgram_limitView (s : State) (ok : Bool) : (s.endHeaderProgram ok).gauge.limitView = s.gauge.limitView := by
  unfold State.endHeaderProgram
  split <;> simp

@[simp] theorem endSegmentErase_limitView (s : State) (ok : Bool) : (s.endSegmentErase ok).gauge.limitView = s.gauge.limitView := by
  unfold State.endSegmentErase
  split <;> simp

@[simp] theorem endFormatErase_limitView (s : State) (ok : Bool) : (s.endFormatErase ok).gauge.limitView = s.gauge.limitView := by
  unfold State.endFormatErase
  split <;> simp

@[simp] theorem endIndexEntry_limitView (s : State) (ok : Bool) : (s.endIndexEntry ok).gauge.limitView = s.gauge.limitView := by
  unfold State.endIndexEntry
  split <;> simp

@[simp] theorem endIndexErase_limitView (s : State) (ok : Bool) : (s.endIndexErase ok).gauge.limitView = s.gauge.limitView := by
  unfold State.endIndexErase
  split <;> simp

@[simp] theorem endSnapshot_limitView (s : State) (ok : Bool) : (s.endSnapshot ok).gauge.limitView = s.gauge.limitView := by
  unfold State.endSnapshot
  split <;> simp

@[simp] theorem endVerification_limitView (s : State) (r : ReadOutcome) :
    (s.endVerification r).gauge.limitView = s.gauge.limitView := by
  unfold State.endVerification
  split <;> simp

@[simp] theorem endEngineRead_limitView (s : State) (r : ReadOutcome) : (s.endEngineRead r).gauge.limitView = s.gauge.limitView := by
  unfold State.endEngineRead
  split <;> simp

@[simp] theorem endMountRead_limitView (s : State) (r : ReadOutcome) : (s.endMountRead r).gauge.limitView = s.gauge.limitView := by
  unfold State.endMountRead
  split <;> simp

@[simp] theorem timeout_limitView (s : State) : s.timeout.gauge.limitView = s.gauge.limitView := by
  unfold State.timeout
  split <;> simp

/-! ### The control commands (R181, R183) -/

/-- No command's own rule reaches the level, the hold-up pages or the limit. -/
@[simp] theorem rule_limitView (o : Opcode) (s : State) (f : Frame) (level : Nat) :
    (o.rule s f level).gauge.limitView = s.gauge.limitView := by
  cases o <;> simp [Opcode.rule]

section
variable {body : State → Frame → Nat → State} (hb : ∀ s f level, (body s f level).gauge.limitView = s.gauge.limitView)
include hb

theorem takeFrame_limitView (s : State) (o : Opcode) (f : Frame) : (s.takeFrame o f body).gauge.limitView = s.gauge.limitView := by
  unfold State.takeFrame
  split <;> simp [hb]

theorem takeHead_limitView (s : State) (o : Opcode) : (s.takeHead o body).gauge.limitView = s.gauge.limitView := by
  unfold State.takeHead
  repeat' split
  all_goals simp [takeFrame_limitView hb]

theorem command_limitView (s : State) (o : Opcode) : (s.command o body).gauge.limitView = s.gauge.limitView := by
  unfold State.command
  simp [takeHead_limitView hb]

end

@[simp] theorem takeAny_limitView (s : State) : s.takeAny.gauge.limitView = s.gauge.limitView := by
  unfold State.takeAny
  repeat' split
  all_goals simp [takeHead_limitView (rule_limitView _)]

@[simp] theorem sendFrame_limitView (s : State) : s.sendFrame.gauge.limitView = s.gauge.limitView := by
  unfold State.sendFrame
  split <;> simp

end Sys2Proof.Machine
end

