-- ==== Sys2Proof/Proofs/LimitInvariant.lean ====
section
/-! PROOFS. The admission limit is the smaller of the hold-up pages and the level cap (R161): the deliveries of scans compute it
again, the resets put it at 0, and every other operation leaves what it is made of. -/

open Sys2Proof Sys2Proof.Machine

namespace Sys2Proof.Machine

/-! ### The hold-up pages of a delivery (R152, R161) -/

/-- A VHOLD sees at most 24 pages programmed. -/
theorem pagesAt_le (v : GaugeSettings) (mv : Nat) : v.pagesAt mv ≤ 24 := by
  unfold GaugeSettings.pagesAt
  split <;> omega

@[simp] theorem judge_holdUpPages (g : Gauge) (vpack : Nat) (ipack tpack : Int) (emptied : Bool) :
    (g.judge vpack ipack tpack emptied).holdUpPages = g.holdUpPages := by
  by_cases hl : g.level = .critical
  · by_cases hp : ipack < -50 ∧ g.settings.cutOff + 200 ≤ vpack
    · rcases Nat.lt_or_ge g.recoveryRun 7 with hr | hr
      · rw [judge_recovers hl hp hr]
      · rw [judge_exits hl hp hr]
    · rw [judge_stays hl hp]
  · by_cases h : 3 ≤ g.lowRunAfter vpack ∨ (g.remaining = 0 ∧ emptied = true)
    · rw [judge_enters hl h]
      rfl
    · obtain ⟨hrun, he⟩ := not_or.mp h
      rw [judge_moves hl (Nat.not_le.mp hrun) he]

@[simp] theorem integrate_holdUpPages (g : Gauge) (ipack : Int) (interval : Nat) :
    (g.integrate ipack interval).1.holdUpPages = g.holdUpPages := by
  unfold Gauge.integrate
  dsimp only
  repeat' split
  all_goals rfl

/-- Counting charge and judging the level leave the hold-up pages. -/
@[simp] theorem count_holdUpPages (g : Gauge) (known : Bool) (interval vpack : Nat) (ipack tpack : Int) :
    (g.count known interval vpack ipack tpack).holdUpPages = g.holdUpPages := by
  unfold Gauge.count
  repeat' split
  all_goals simp [Gauge.estimateFrom]

@[simp] theorem presence_holdUpPages (g : Gauge) (vpack : Nat) : (g.presence vpack).holdUpPages = g.holdUpPages := by
  unfold Gauge.presence
  repeat' split
  all_goals rfl

theorem delivered_holdUpPages (g : Gauge) (known : Bool) (vhold vpack ipack tpack interval : Nat) :
    (g.delivered known vhold vpack ipack tpack interval).holdUpPages = g.settings.pagesAt (vhold * 4) := by
  simp [Gauge.delivered, Gauge.read, Gauge.takeHold]

/-! ### The deliveries and the resets (R123, R124, R163) -/

section
variable {s t : State}

/-- The invariant reads nothing but the gauge's view. -/
theorem limitInv_of_view (h : t.gauge.limitView = s.gauge.limitView) (hs : s.LimitInv) : t.LimitInv := by
  obtain ⟨hlevel, hpages, hlimit⟩ := (limitView_eq_iff _ _).mp h
  unfold State.LimitInv at hs ⊢
  rw [hlevel, hpages, hlimit]
  exact hs

theorem limitInv_of_gauge (h : t.gauge = s.gauge) (hs : s.LimitInv) : t.LimitInv := limitInv_of_view (by rw [h]) hs

/-- A limit computed again is the smaller of the two, whatever it was before. -/
theorem limitInv_of_recompute {g : Gauge} (h : s.gauge = g.recompute) (hg : g.holdUpPages ≤ 24) : s.LimitInv := by
  unfold State.LimitInv
  rw [h]
  exact ⟨rfl, hg⟩

/-- A limit of 0 over no hold-up pages, at any level. -/
theorem limitInv_of_zero (hpages : s.gauge.holdUpPages = 0) (hlimit : s.gauge.limit = 0) : s.LimitInv := by
  unfold State.LimitInv
  simp [hpages, hlimit]

theorem limitInv_gaugeShock (hs : s.LimitInv) (mv : Nat) : (s.gaugeShock mv).LimitInv := by
  cases hf : s.sampler.fault
  · rw [gaugeShock_of_sound hf]
    exact limitInv_of_recompute rfl (pagesAt_le _ _)
  · rwa [gaugeShock_of_fault hf]

theorem limitInv_gaugeScan (hs : s.LimitInv) (vhold vpack ipack tpack interval : Nat) :
    (s.gaugeScan vhold vpack ipack tpack interval).LimitInv := by
  cases hf : s.sampler.fault
  · refine limitInv_of_recompute (gauge_gaugeScan hf vhold vpack ipack tpack interval) ?_
    rw [delivered_holdUpPages]
    exact pagesAt_le _ _
  · have hunused : s.gaugeScan vhold vpack ipack tpack interval = s := if_pos hf
    rwa [hunused]

/-- The limit is computed again after the monitor's transition; the FORMAT that may then begin leaves it (R102, R123). -/
theorem limitInv_shockEnd (hs : s.LimitInv) (ax ay az vhold : Code) : (s.shockEnd ax ay az vhold).LimitInv := by
  unfold State.shockEnd
  split
  · dsimp only
    generalize hu : ({ s with sampler := _ } : State) = u
    have hlatched : u.LimitInv := limitInv_of_gauge (by rw [← hu]) hs
    have hscan : (u.monitorScan (u.view ax ay az vhold)).LimitInv := limitInv_of_gauge (by simp) hlatched
    exact limitInv_of_view (by simp) (limitInv_gaugeShock hscan (vhold.toNat * 4))
  · exact hs

theorem limitInv_gaugeEnd (hs : s.LimitInv) (vhold vpack ipack tpack zero full : Code) :
    (s.gaugeEnd vhold vpack ipack tpack zero full).LimitInv := by
  unfold State.gaugeEnd
  split
  next interval carries _ =>
    obtain ⟨-, hgauge, -⟩ := scanRead_frame s vhold vpack ipack tpack zero full carries
    have hread : (s.scanRead vhold vpack ipack tpack zero full carries).LimitInv := limitInv_of_gauge hgauge hs
    exact limitInv_of_gauge (by simp [State.scanRead]) (limitInv_gaugeScan hread vhold.toNat vpack.toNat ipack.toNat tpack.toNat interval)
  next => exact hs

/-! ### The rows, and every step -/

theorem limitInv_command (hs : s.LimitInv) (o : Opcode) : (s.command o o.rule).LimitInv :=
  limitInv_of_view (command_limitView (rule_limitView o) s o) hs

/-- Every row keeps the invariant: it resets the gauge, delivers a scan, or leaves the view. -/
theorem exec_limitInv (hs : s.LimitInv) (c : Instr) : ∃ t, exec c s = .next t ∧ t.LimitInv := by
  have hset : s.settle.LimitInv := limitInv_of_gauge (by simp) hs
  have hidle {u : State} (hu : u.LimitInv) : u.holdIdle.LimitInv := limitInv_of_gauge (by simp) hu
  cases c
  case powerOn n => exact ⟨_, rfl, limitInv_of_zero rfl rfl⟩
  case rstLine => exact ⟨_, rfl, limitInv_of_zero rfl rfl⟩
  case shockScanEnd ax ay az vhold => exact ⟨_, rfl, hidle (limitInv_shockEnd hset ax ay az vhold)⟩
  case gaugeScanEnd vhold vpack ipack tpack zero full => exact ⟨_, rfl, hidle (limitInv_gaugeEnd hset vhold vpack ipack tpack zero full)⟩
  case status | linkReset | noticeMaskSet | noticeMaskClear | clockRead | clockSet | streamLoad | streamStart | streamPause | streamStop |
    streamClear | streamRead | surveyOpen | surveyClose | surveyThresholds | surveyLock | surveyErase | surveyList | readRecords |
    dropsRead | gaugeRead | setLevels | setShock | setGauge | doze | format =>
    exact ⟨_, rfl, limitInv_command hs _⟩
  all_goals exact ⟨_, rfl, limitInv_of_view (by simp) hs⟩

end

/-- Settles O6: every row keeps the invariant, and the step on an empty queue leaves the gauge. -/
theorem stepKeepsLimit : Obligations.StepKeepsLimit := by
  unfold Obligations.StepKeepsLimit
  intro s t hstep hs
  unfold step at hstep
  split at hstep
  · cases hstep
    exact limitInv_of_gauge (by simp) hs
  · rename_i c rest _
    obtain ⟨u, hu, hinv⟩ := exec_limitInv (s := { s with pending := rest }) (limitInv_of_gauge rfl hs) c
    cases hu.symm.trans hstep
    exact hinv

end Sys2Proof.Machine
end

