-- ==== Sys2Proof/Proofs/ClockDial.lean ====
section
/-! SUPPORT. What the Survey Clock shows: its three counters and the valid flag. Which operations leave that as it stands, in the order of
the model, though they move the next report time: all but a tick boundary, CLOCK-SET and the power-on reset. -/

open Sys2Proof Sys2Proof.Machine

namespace Sys2Proof.Machine

/-- The prescaler, the tick counter, the seconds counter and the valid flag. -/
def Clock.dial (c : Clock) : Nat × Nat × Nat × Bool := (c.prescaler, c.ticks, c.seconds, c.valid)

theorem dial_eq_iff (c d : Clock) :
    c.dial = d.dial ↔ c.prescaler = d.prescaler ∧ c.ticks = d.ticks ∧ c.seconds = d.seconds ∧ c.valid = d.valid := by
  simp only [Clock.dial, Prod.mk.injEq]

/-! ### The report alarm and the Index Log (R95, R96, R151, R166) -/

@[simp] theorem restartReport_dial (s : State) : s.restartReport.clock.dial = s.clock.dial := rfl

/-- New settings restart the report alarm, and nothing else of the clock. -/
@[simp] theorem takeGaugeSettings_dial (s : State) (v : GaugeSettings) : (s.takeGaugeSettings v).clock.dial = s.clock.dial := rfl

@[simp] theorem durable_dial (s : State) (body : EntryBody) : (s.durable body).clock.dial = s.clock.dial := by
  unfold State.durable
  split <;> simp

@[simp] theorem entryDurable_dial (s : State) (e : IndexEntry) : (s.entryDurable e).clock.dial = s.clock.dial := by
  unfold State.entryDurable
  simp

@[simp] theorem indexProgramEnd_dial (s : State) (g p : Nat) (ok : Bool) :
    (s.indexProgramEnd g p ok).clock.dial = s.clock.dial := by
  unfold State.indexProgramEnd
  dsimp only
  repeat' split
  all_goals simp

/-! ### Due steps (R166) -/

/-- The alarm moves the next report time alone. -/
@[simp] theorem fireReport_dial (s : State) : s.fireReport.clock.dial = s.clock.dial := by
  simp [State.fireReport, Clock.dial]

@[simp] theorem make_dial (s : State) (d : Due) : (s.make d).clock.dial = s.clock.dial := by
  cases d <;> simp [State.make]

@[simp] theorem makeFor_dial (s : State) (d : Due) (n : Nat) : (s.makeFor d n).clock.dial = s.clock.dial := by
  induction n generalizing s with
  | zero => rfl
  | succ n ih =>
    unfold State.makeFor
    repeat' split
    all_goals simp [ih]

@[simp] theorem makeIfDue_dial (s : State) (d : Due) : (s.makeIfDue d).clock.dial = s.clock.dial := makeFor_dial s d 256

@[simp] theorem settleFor_dial (s : State) (n : Nat) : (s.settleFor n).clock.dial = s.clock.dial := by
  induction n generalizing s with
  | zero => rfl
  | succ n ih =>
    unfold State.settleFor
    split <;> simp [ih]

@[simp] theorem settle_dial (s : State) : s.settle.clock.dial = s.clock.dial := settleFor_dial s 256

/-! ### Mount (R95, R175) -/

@[simp] theorem replayBody_dial (s : State) (body : EntryBody) : (s.replayBody body).clock.dial = s.clock.dial := by
  unfold State.replayBody
  split <;> simp

@[simp] theorem replayPage_dial (s : State) (data : List Byte) : (s.replayPage data).clock.dial = s.clock.dial := by
  unfold State.replayPage
  split <;> simp

@[simp] theorem loadSnapshot_dial (s : State) (c : SnapshotCandidate) : (s.loadSnapshot c).clock.dial = s.clock.dial := by
  unfold State.loadSnapshot
  simp

@[simp] theorem replayRead_dial (s : State) (g page expect : Nat) (passed : Option Bool) (r : PageResult) :
    (s.replayRead g page expect passed r).clock.dial = s.clock.dial := by
  unfold State.replayRead
  repeat' split
  all_goals simp

@[simp] theorem mountReadEnd_dial (s : State) (g p : Nat) (o : ReadOutcome) :
    (s.mountReadEnd g p o).clock.dial = s.clock.dial := by
  unfold State.mountReadEnd
  dsimp only
  repeat' split
  all_goals simp

/-! ### Control commands (R6, R102, R169, R185) -/

/-- FORMAT restarts the report alarm with the default interval, and nothing else of the clock. -/
@[simp] theorem formatBegin_dial (s : State) (r : FormatRun) : (s.formatBegin r).clock.dial = s.clock.dial := by
  unfold State.formatBegin
  simp

@[simp] theorem formatGate_dial (s : State) : s.formatGate.clock.dial = s.clock.dial := by
  unfold State.formatGate
  repeat' split
  all_goals simp

@[simp] theorem format_dial (s : State) (f : Frame) (level : Nat) : (s.format f level).clock.dial = s.clock.dial := by
  unfold State.format State.startFormat
  repeat' split
  all_goals simp

@[simp] theorem streamPause_clock (s : State) (f : Frame) (level : Nat) : (s.streamPause f level).clock = s.clock := by
  unfold State.streamPause State.pauseSlot
  dsimp only
  repeat' split
  all_goals simp

@[simp] theorem doze_clock (s : State) (f : Frame) (level : Nat) : (s.doze f level).clock = s.clock := by
  unfold State.doze
  split <;> simp

@[simp] theorem unknown_dial (s : State) : s.unknown.clock.dial = s.clock.dial := by
  unfold State.unknown
  simp

/-! ### The ends of scans (R123) -/

@[simp] theorem shockEnd_dial (s : State) (ax ay az vhold : Code) : (s.shockEnd ax ay az vhold).clock.dial = s.clock.dial := by
  unfold State.shockEnd
  split <;> simp

/-! ### The ends of operations (R72 to R77) -/

@[simp] theorem afterOp_dial (s : State) : s.afterOp.clock.dial = s.clock.dial := by
  unfold State.afterOp
  simp

@[simp] theorem dataEnd_dial (s : State) (b g p : Nat) (ok : Bool) : (s.dataEnd b g p ok).clock.dial = s.clock.dial := by
  unfold State.dataEnd
  dsimp only
  repeat' split
  all_goals simp

@[simp] theorem verifyEnd_dial (s : State) (b g p : Nat) (o : ReadOutcome) : (s.verifyEnd b g p o).clock.dial = s.clock.dial := by
  unfold State.verifyEnd
  dsimp only
  repeat' split
  all_goals simp

@[simp] theorem endDataProgram_dial (s : State) (ok : Bool) : (s.endDataProgram ok).clock.dial = s.clock.dial := by
  unfold State.endDataProgram
  split <;> simp

@[simp] theorem endHeaderProgram_dial (s : State) (ok : Bool) : (s.endHeaderProgram ok).clock.dial = s.clock.dial := by
  unfold State.endHeaderProgram
  split <;> simp

@[simp] theorem endSegmentErase_dial (s : State) (ok : Bool) : (s.endSegmentErase ok).clock.dial = s.clock.dial := by
  unfold State.endSegmentErase
  split <;> simp

@[simp] theorem endFormatErase_dial (s : State) (ok : Bool) : (s.endFormatErase ok).clock.dial = s.clock.dial := by
  unfold State.endFormatErase
  split <;> simp

@[simp] theorem endIndexEntry_dial (s : State) (ok : Bool) : (s.endIndexEntry ok).clock.dial = s.clock.dial := by
  unfold State.endIndexEntry
  split <;> simp

@[simp] theorem endIndexErase_dial (s : State) (ok : Bool) : (s.endIndexErase ok).clock.dial = s.clock.dial := by
  unfold State.endIndexErase
  split <;> simp

@[simp] theorem endSnapshot_dial (s : State) (ok : Bool) : (s.endSnapshot ok).clock.dial = s.clock.dial := by
  unfold State.endSnapshot
  split <;> simp

@[simp] theorem endVerification_dial (s : State) (r : ReadOutcome) : (s.endVerification r).clock.dial = s.clock.dial := by
  unfold State.endVerification
  split <;> simp

@[simp] theorem endEngineRead_dial (s : State) (r : ReadOutcome) : (s.endEngineRead r).clock.dial = s.clock.dial := by
  unfold State.endEngineRead
  split <;> simp

@[simp] theorem endMountRead_dial (s : State) (r : ReadOutcome) : (s.endMountRead r).clock.dial = s.clock.dial := by
  unfold State.endMountRead
  split <;> simp

@[simp] theorem timeout_dial (s : State) : s.timeout.clock.dial = s.clock.dial := by
  unfold State.timeout
  split <;> simp

/-! ### Ticks (R164) -/

@[simp] theorem tick_clock (s : State) : s.tick.clock = s.clock.ticked := by
  rw [tick_eq]

end Sys2Proof.Machine
end

