-- ==== Sys2Proof/Proofs/SurveyClock.lean ====
section
/-! PROOFS. What one event does to the Survey Clock's counters and its valid flag (R164, R165, R167); and CLOCK-SET (R165, R166). -/

open Sys2Proof Sys2Proof.Machine

namespace Sys2Proof.Machine

/-! ### The moves of the dial -/

/-- What one event does to the dial: it stays; a tick boundary passes; power-on zeroes it with the flag clear; or a CLOCK-SET loads it,
which happens only under `setting`. -/
inductive Clock.Moves (c d : Clock) (setting : Prop) : Prop where
  | kept (h : d.dial = c.dial)
  | ticked (h : d.dial = c.ticked.dial)
  | zeroed (h : d.dial = (0, 0, 0, false))
  | loaded (hset : setting) (n : Nat) (hn : n ≤ 4294967295) (h : d.dial = (0, 0, n, true))

theorem ticked_dial {c d : Clock} (h : c.dial = d.dial) : c.ticked.dial = d.ticked.dial := by
  obtain ⟨-, hticks, hseconds, hvalid⟩ := (dial_eq_iff c d).mp h
  unfold Clock.ticked
  rw [hticks, hseconds]
  split <;> simp [Clock.dial, hvalid]

/-- A move may be read from any clock with the same dial, and stays one under a weaker condition on the loading. -/
theorem moves_of_dial {b c d : Clock} {p q : Prop} (hb : b.dial = c.dial) (hpq : p → q) (h : b.Moves d p) : c.Moves d q := by
  cases h with
  | kept h => exact .kept (h.trans hb)
  | ticked h => exact .ticked (h.trans (ticked_dial hb))
  | zeroed h => exact .zeroed h
  | loaded hp n hn h => exact .loaded (hpq hp) n hn h

/-- Without a loading, a clear flag stays clear. -/
theorem valid_of_moves {c d : Clock} {p : Prop} (h : c.Moves d p) (hp : ¬ p) (hc : c.valid = false) : d.valid = false := by
  have hread {e : Clock} (he : d.dial = e.dial) (hv : e.valid = false) : d.valid = false := by
    obtain ⟨-, -, -, hvalid⟩ := (dial_eq_iff d e).mp he
    exact hvalid.trans hv
  cases h with
  | kept h => exact hread h hc
  | ticked h =>
    refine hread h ?_
    unfold Clock.ticked
    split <;> exact hc
  | zeroed h => exact hread (e := Clock.reset) h rfl
  | loaded hset => exact absurd hset hp

/-! ### The ranges (R164) -/

theorem clockInv_of_dial {s t : State} (h : t.clock.dial = s.clock.dial) (hs : s.ClockInv) : t.ClockInv := by
  obtain ⟨hprescaler, hticks, hseconds, -⟩ := (dial_eq_iff t.clock s.clock).mp h
  unfold State.ClockInv at hs ⊢
  rwa [hprescaler, hticks, hseconds]

/-- A tick boundary returns the prescaler to 0, carries the ticks at 1023 and the seconds at 2^32 - 1. -/
theorem ticked_inRange {c : Clock} (hc : c.seconds ≤ 4294967295) :
    c.ticked.prescaler ≤ 31 ∧ c.ticked.ticks ≤ 1023 ∧ c.ticked.seconds ≤ 4294967295 := by
  unfold Clock.ticked
  split
  · exact ⟨Nat.zero_le 31, by dsimp only; omega, hc⟩
  · exact ⟨Nat.zero_le 31, Nat.zero_le 1023, by dsimp only; omega⟩

theorem clockInv_tick {s : State} (hs : s.ClockInv) : s.tick.ClockInv := by
  obtain ⟨-, -, hseconds⟩ := hs
  unfold State.ClockInv
  rw [tick_clock]
  exact ticked_inRange hseconds

theorem clockInv_of_moves {s t : State} {p : Prop} (h : s.clock.Moves t.clock p) (hs : s.ClockInv) : t.ClockInv := by
  have hloaded {n : Nat} {v : Bool} (hn : n ≤ 4294967295) (h : t.clock.dial = (0, 0, n, v)) : t.ClockInv := by
    simp only [Clock.dial, Prod.mk.injEq] at h
    obtain ⟨hprescaler, hticks, hseconds, -⟩ := h
    unfold State.ClockInv
    omega
  cases h with
  | kept h => exact clockInv_of_dial h hs
  | ticked h => exact clockInv_of_dial (by rw [h, tick_clock]) (clockInv_tick hs)
  | zeroed h => exact hloaded (by omega) h
  | loaded _ n hn h => exact hloaded hn h

/-! ### The control commands (R165, R181, R183) -/

/-- A number is below the power of 256 that its bytes can spell. -/
theorem leVal_lt (bs : List Byte) : leVal bs < 256 ^ bs.length := by
  induction bs with
  | nil => exact Nat.one_pos
  | cons b bs ih =>
    have hb : b.toNat < 256 := b.isLt
    rw [List.length_cons, Nat.pow_succ]
    unfold leVal
    omega

/-- The seconds that a CLOCK-SET carries fill the counter. -/
theorem field_seconds_le (f : Frame) : field f.payload 0 4 ≤ 4294967295 := by
  have hlt := leVal_lt (slice f.payload 0 4)
  have hlen : (slice f.payload 0 4).length ≤ 4 := List.length_take_le _ _
  have hpow : 256 ^ (slice f.payload 0 4).length ≤ 256 ^ 4 := Nat.pow_le_pow_right (by omega) hlen
  unfold field
  omega

/-- Of the commands' own rules, CLOCK-SET's alone moves the dial. -/
theorem rule_moves (o : Opcode) (s : State) (f : Frame) (level : Nat) : s.clock.Moves (o.rule s f level).clock (o = .clockSet) := by
  by_cases ho : o = .clockSet
  · subst ho
    by_cases hl : 1 < level
    · have hrefused : State.clockSet s f level = s.refuse .clockSet f level .level := if_pos hl
      exact .kept (by rw [Opcode.rule, hrefused, (refuse_frame ..).1])
    · refine .loaded rfl _ (field_seconds_le f) ?_
      simp [Opcode.rule, State.clockSet, hl, Clock.dial, State.restartReport]
  · refine .kept ?_
    cases o <;> simp [Opcode.rule] at ho ⊢

theorem takeFrame_moves (o : Opcode) (s : State) (f : Frame) : s.clock.Moves (s.takeFrame o f o.rule).clock (o = .clockSet) := by
  unfold State.takeFrame
  split
  · exact .kept (by simp)
  · exact rule_moves o s f _

/-- A frame is taken by the rule of the command it carries. -/
theorem takeHead_moves (o : Opcode) (s : State) : s.clock.Moves (s.takeHead o o.rule).clock
    (∃ f, s.headControl = some f ∧ opcodeOf f.code = some o ∧ o = .clockSet) := by
  unfold State.takeHead
  split
  next f hf =>
    split
    next ho =>
      simp only [holdIdle_frame, freeHead_frame]
      exact moves_of_dial rfl (fun hset => ⟨f, hf, ho.1, hset⟩) (takeFrame_moves o s f)
    next => exact .kept rfl
  next => exact .kept rfl

/-- Whether the frame at the head of the receive buffer carries a CLOCK-SET. -/
def State.HeadSets (s : State) : Prop := ∃ f, s.headControl = some f ∧ opcodeOf f.code = some .clockSet

theorem takeAny_moves (s : State) : s.clock.Moves s.takeAny.clock s.HeadSets := by
  unfold State.takeAny
  split
  next f hf =>
    split
    next o ho => exact moves_of_dial rfl (fun ⟨g, hg, hgo, hset⟩ => ⟨g, hg, hset ▸ hgo⟩) (takeHead_moves o s)
    next => exact .kept (by simp)
  next => exact .kept rfl

/-- The frame on the line leaves the Transmit List; the receive buffer stays. -/
theorem sent_headControl (s : State) : s.sent.headControl = s.headControl := by
  unfold State.sent
  split <;> rfl

theorem sendFrame_moves (s : State) : s.clock.Moves s.sendFrame.clock s.HeadSets := by
  unfold State.sendFrame
  split
  · have hhead : s.sent.HeadSets → s.HeadSets := by
      unfold State.HeadSets
      rw [sent_headControl]
      exact id
    exact moves_of_dial (by simp) hhead (takeAny_moves s.sent)
  · exact .kept (by simp)

/-! ### The rows, and every step -/

/-- The rows that may set the clock: CLOCK-SET's own, and FRAME_SENT's where a CLOCK-SET waited for a place (R183). -/
def State.RowSets (s : State) (c : Instr) : Prop := c = .clockSet ∨ (c = .frameSent ∧ s.settle.HeadSets)

theorem command_moves (o : Opcode) (s : State) : s.clock.Moves (s.command o o.rule).clock (o = .clockSet) :=
  moves_of_dial (settle_dial s) (fun ⟨_, _, _, hset⟩ => hset) (takeHead_moves o s.settle)

theorem exec_moves (c : Instr) (s : State) : ∃ t, exec c s = .next t ∧ s.clock.Moves t.clock (s.RowSets c) := by
  have hcommand (o : Opcode) (hc : o = .clockSet → c = .clockSet) : s.clock.Moves (s.command o o.rule).clock (s.RowSets c) :=
    moves_of_dial rfl (fun ho => .inl (hc ho)) (command_moves o s)
  cases c
  case powerOn n => exact ⟨_, rfl, .zeroed rfl⟩
  case rstLine => exact ⟨_, rfl, .kept (by rw [rst_eq]; exact settle_dial s)⟩
  case tickBoundary =>
    refine ⟨_, rfl, .ticked ?_⟩
    simp only [holdIdle_frame, tick_clock]
    exact ticked_dial (settle_dial s)
  case frameSent =>
    refine ⟨_, rfl, ?_⟩
    simp only [holdIdle_frame]
    exact moves_of_dial (settle_dial s) (fun h => .inr ⟨rfl, h⟩) (sendFrame_moves s.settle)
  case clockSet => exact ⟨_, rfl, hcommand .clockSet fun _ => rfl⟩
  case status | linkReset | noticeMaskSet | noticeMaskClear | clockRead | streamLoad | streamStart | streamPause | streamStop |
    streamClear | streamRead | surveyOpen | surveyClose | surveyThresholds | surveyLock | surveyErase | surveyList | readRecords |
    dropsRead | gaugeRead | setLevels | setShock | setGauge | doze | format =>
    exact ⟨_, rfl, hcommand _ nofun⟩
  all_goals exact ⟨_, rfl, .kept (by simp)⟩

/-- With no command waiting, a due step leaves the dial, and a crystal period raises the prescaler or makes a tick boundary. -/
theorem clockInv_idle {s : State} (hs : s.ClockInv) : s.idle.ClockInv := by
  unfold State.idle
  split
  next d _ => exact clockInv_of_dial (by simp) hs
  next =>
    unfold State.crystal
    split
    next h =>
      obtain ⟨-, hticks, hseconds⟩ := hs
      exact ⟨h, hticks, hseconds⟩
    next => exact clockInv_tick hs

/-- Settles O5: every row's move of the dial stays in the ranges, and so does the step on an empty queue. -/
theorem stepKeepsClock : Obligations.StepKeepsClock := by
  unfold Obligations.StepKeepsClock
  intro s t hstep hs
  unfold step at hstep
  split at hstep
  · cases hstep
    exact clockInv_idle hs
  · rename_i c rest _
    obtain ⟨u, hu, hmoves⟩ := exec_moves c { s with pending := rest }
    cases hu.symm.trans hstep
    exact clockInv_of_moves (s := { s with pending := rest }) hmoves hs

/-! ### Resets (R167) -/

theorem command_clock {body : State → Frame → Nat → State} (hb : ∀ s f level, (body s f level).clock = s.clock) (o : Opcode) {s : State}
    (hs : s.Settled) : (s.command o body).clock = s.clock := by
  unfold State.command State.takeHead State.takeFrame
  rw [settle_of_settled hs]
  repeat' split
  all_goals simp [hb]

/-- Settles O13: the power-on values, the two resets that keep the clock whole, and the moves that can set the flag. -/
theorem clockThroughResets : Obligations.ClockThroughResets := by
  unfold Obligations.ClockThroughResets
  refine ⟨fun n s => ⟨_, rfl, rfl, rfl⟩, fun s hs => ?_, fun s hs => ?_, fun c s t hc hsent hexec hvalid => ?_⟩
  · refine ⟨_, rfl, ?_⟩
    rw [settle_of_settled hs, rst_eq]
  · exact ⟨_, rfl, command_clock (fun u f level => (linkReset_frame u f level).1) .linkReset hs⟩
  · obtain ⟨u, hu, hmoves⟩ := exec_moves c s
    cases hu.symm.trans hexec
    refine valid_of_moves hmoves ?_ hvalid
    rintro (hset | ⟨hframe, f, hf, hcode⟩)
    · exact hc hset
    · exact hsent hframe f hf hcode

/-! ### CLOCK-SET (R165, R166) -/

/-- CLOCK-SET's own rule at a level that may set the clock. -/
theorem clockSet_loads (s : State) (f : Frame) {level : Nat} (h : level ≤ 1) : s.clockSet f level = { s with
    clock := { prescaler := 0, ticks := 0, seconds := field f.payload 0 4, valid := true,
               nextReport := if s.gauge.settings.reportInterval = 0 then none
                 else some ((field f.payload 0 4 + s.gauge.settings.reportInterval) % 4294967296) }
    port := { s.port with tx := s.port.tx ++ [.reply
      { port := f.port, tag := f.tag, level := level, status := .ok, kept := false,
        payload := .clockSet { seconds := field f.payload 0 4, ticks := 0, valid := true } }] } } :=
  if_neg (Nat.not_lt.mpr h)

/-- Settles O21, by the level. -/
theorem clockSet : Obligations.ClockSet := by
  unfold Obligations.ClockSet
  intro s f h
  refine ⟨fun hl => exec_row_refused h (if_pos hl), fun hl => ?_⟩
  have hrow : exec .clockSet s = .next (((s.clockSet f (s.effective f)).freeHead).holdIdle) := exec_row_of_takes h
  rw [clockSet_loads s f hl] at hrow
  exact hrow

end Sys2Proof.Machine
end

