-- ==== Sys2Proof/Proofs/PowerStates.lean ====
section
/-! PROOFS. The step at the front of the queue and on an empty one (R164, R168); DOZE, its abandonment and the wake (R168 to R171); the steps
of the shutdown and the report alarm (R166, R172, R173). -/

open Sys2Proof Sys2Proof.Machine

namespace Sys2Proof.Machine

/-! ### One step (R164, R168) -/

theorem step_of_empty {s : State} (h : s.pending = []) : step s = .next s.idle := by
  unfold step
  rw [h]

theorem idle_of_due {s : State} {d : Due} (h : s.due = some d) : s.idle = (s.make d).holdIdle := by
  unfold State.idle
  rw [h]

theorem idle_of_settled {s : State} (h : s.Settled) : s.idle = s.crystal := by
  unfold State.idle
  rw [show s.due = none from h]

/-- Settles O1: a queue with a front, and the three steps of an empty queue. -/
theorem stepTakesFront : Obligations.StepTakesFront := by
  unfold Obligations.StepTakesFront
  refine ⟨fun c s => rfl, fun s hp d hd => ?_, fun s hp hs hc => ?_, fun s hp hs hc => ?_⟩
  · rw [step_of_empty hp, idle_of_due hd]
  · rw [step_of_empty hp, idle_of_settled hs, State.crystal, if_pos (Nat.succ_le_of_lt hc)]
  · rw [step_of_empty hp, idle_of_settled hs, State.crystal, if_neg (by omega)]

/-- The row of the step that is due next makes that step. -/
theorem exec_dueRow_of_due {s : State} {d : Due} (h : s.due = some d) : exec d.row s = .next ((s.make d).holdIdle) := by
  rw [exec_dueRow, makeIfDue_of_due h]

/-! ### DOZE entry (R168, R169) -/

/-- The slots whose pages a DOZE entry closes, in ascending order. -/
theorem slotsWhere_live_spec (s : State) : (s.slotsWhere Slot.live).Pairwise (· < ·) ∧ ∀ i, i ∈ s.slotsWhere Slot.live ↔
    i < s.slots.length ∧ ((s.slotAt i).state = .loaded ∨ (s.slotAt i).state = .running ∨ (s.slotAt i).state = .paused) := by
  obtain ⟨hsorted, hmem⟩ := slotsWhere_spec s Slot.live
  exact ⟨hsorted, fun i => by rw [hmem, live_iff]⟩

theorem isShutdown_iff (p : Procedure) : p.isShutdown = true ↔ ∃ g, p = .shutdown g := by
  cases p <;> simp [Procedure.isShutdown]

theorem dozeRefused_iff (s : State) : s.dozeRefused = true ↔
    (∃ x ∈ s.slots, x.state = .running) ∨ s.power.state ≠ .active ∨ ∃ g, s.power.procedure = .shutdown g := by
  simp [State.dozeRefused, isShutdown_iff, or_assoc]

theorem doze_refused {s : State} (h : s.dozeRefused = true) (f : Frame) (level : Nat) :
    s.doze f level = s.refuse .doze f level .state := if_pos h

theorem doze_begins {s : State} (h : ¬ s.dozeRefused = true) (f : Frame) (level : Nat) :
    s.doze f level = ((s.accept .doze f level .doze).beginDozeEntry .command).arbitrate := if_neg h

/-! ### The end of a DOZE entry, and its abandonment (R169, R170) -/

theorem dozeStep_of_busy {s : State} {cause : DozeCause} (hp : s.power.procedure = .dozeEntry cause) (hop : s.media.op ≠ none) :
    s.dozeStep = s.setHold true := by
  unfold State.dozeStep
  rw [hp]
  exact if_neg (by simpa using hop)

theorem dozeStep_of_idlePort {s : State} {cause : DozeCause} (hp : s.power.procedure = .dozeEntry cause) (hop : s.media.op = none) :
    s.dozeStep = (s.setHold true).enterDoze cause := by
  unfold State.dozeStep
  rw [hp]
  exact if_pos (by simpa using hop)

/-- The end of the command in flight changes the Operation Slot and the port alone (R186). -/
theorem completeOp_eq (s : State) (status : Status) (payload : Payload) : s.completeOp status payload =
    { s with slot := (s.completeOp status payload).slot, port := (s.completeOp status payload).port } := by
  cases hslot : s.slot with
  | none => rw [completeOp_of_empty s _ _ hslot]
  | some c => rw [completeOp_of_slot s c _ _ hslot]

/-- The part dozes: the power state, the procedure and the sampler change; the Operation Slot ends as the cause asks. -/
theorem enterDoze_eq (s : State) (cause : DozeCause) : s.enterDoze cause = { s with
    power := { s.power with state := .doze, procedure := .none }
    sampler := { s.sampler with divider := 0, powered := s.sampler.powered && s.sampler.running.isSome }
    slot := (s.enterDoze cause).slot
    port := (s.enterDoze cause).port } := by
  cases cause with
  | idle => rfl
  | command => exact completeOp_eq _ .ok .none

/-- A DOZE command's entry ends by answering OK, unless the reply is suppressed. -/
theorem enterDoze_command {s : State} {c : OpSlot} (h : s.slot = some c) : s.enterDoze .command = { s with
    power := { s.power with state := .doze, procedure := .none }
    sampler := s.sampler.enterDoze
    slot := none
    port := if c.suppressed then s.port else { s.port with tx := s.port.tx ++ [.reply
      { port := c.port, tag := c.tag, level := c.level, status := .ok, kept := true, payload := .none }] } } :=
  completeOp_of_slot _ c _ _ h

theorem abandonDoze_idle {s : State} (h : s.power.procedure = .dozeEntry .idle) : s.abandonDoze = { s with
    power := { s.power with procedure := .none, idleTimer := 0 }, media := { s.media with hold := false } } := by
  unfold State.abandonDoze
  rw [h]
  rfl

/-- An abandoned DOZE command answers STATE, unless the reply is suppressed. -/
theorem abandonDoze_command {s : State} {c : OpSlot} (h : s.power.procedure = .dozeEntry .command) (hslot : s.slot = some c) :
    s.abandonDoze = { s with
      power := { s.power with procedure := .none }
      media := { s.media with hold := false }
      slot := none
      port := if c.suppressed = true then s.port else { s.port with tx := s.port.tx ++ [.reply
        { port := c.port, tag := c.tag, level := c.level, status := .state, kept := true, payload := .none }] } } := by
  unfold State.abandonDoze
  rw [h]
  exact completeOp_of_slot _ c _ _ hslot

/-! ### The statement on DOZE and the wake -/

/-- Settles O44: the command, the idle expiry, the end of the entry by the port and the cause, the abandonment, and the wake. -/
theorem dozeAndWake : Obligations.DozeAndWake := by
  unfold Obligations.DozeAndWake
  intro live
  refine ⟨fun s f h => ⟨fun hbad => ?_, fun hrun hactive hshut => ?_⟩, fun s hdue => ?_, fun s cause hp hdue => ?_,
    fun s => ⟨abandonDoze_idle, fun hp c => abandonDoze_command hp⟩, fun s hs hp => ?_⟩
  · exact exec_row_refused h (doze_refused ((dozeRefused_iff s).mpr hbad) f _)
  · have hpass : ¬ s.dozeRefused = true := by
      rw [dozeRefused_iff]
      rintro (⟨x, hx, hstate⟩ | hstate | ⟨g, hg⟩)
      · exact hrun x hx hstate
      · exact hstate hactive
      · exact hshut g hg
    have hrow : exec .doze s = .next (((s.doze f (s.effective f)).freeHead).holdIdle) := exec_row_of_takes h
    rw [doze_begins hpass] at hrow
    exact ⟨s.slotsWhere Slot.live, slotsWhere_live_spec s, hrow⟩
  · exact ⟨s.slotsWhere Slot.live, slotsWhere_live_spec s, exec_dueRow_of_due hdue⟩
  · have hrow : exec .dozeEntryComplete s = .next s.dozeStep.holdIdle := exec_dueRow_of_due hdue
    intro ready
    refine ⟨fun _ _ hop => ?_, fun _ hop => ?_⟩
    · rw [hrow, dozeStep_of_busy hp hop]
      rfl
    · rw [dozeStep_of_idlePort hp hop] at hrow
      refine ⟨_, hrow, enterDoze_eq (s.setHold true) cause, fun hc => ?_, fun c hc hslot hsup => ?_, fun c hc hslot hsup => ?_⟩
      · subst hc
        exact ⟨rfl, rfl⟩
      all_goals
        subst hc
        rw [enterDoze_command (s := s.setHold true) hslot, hsup]
        exact ⟨rfl, rfl⟩
  · show Host.Outcome.next (s.settle.wakeEnd.holdIdle) = _
    rw [settle_of_settled hs, State.wakeEnd, if_pos hp]
    rfl

/-! ### The shutdown and the report alarm (R166, R172, R173) -/

theorem keepStep_of_busy {s : State} (hop : s.media.op ≠ none) : s.keepStep = { s with
    power := { s.power with procedure := .shutdown .holding }, media := { s.media with hold := true } } :=
  if_neg (by simpa using hop)

/-- With the port idle PWR-KEEP is released, and HOLD is asserted whatever the receive buffer holds (R181). -/
theorem keepStep_of_idlePort {s : State} (hop : s.media.op = none) : s.keepStep = { s with
    power := { s.power with
      state := .off, procedure := .none, pwrKeep := false, shutdownAsked := false, idleDue := false, alarmDue := false }
    sampler := { s.sampler with pendingShock := false, pendingGauge := none, shockDue := false }
    media := { s.media with hold := true }
    port := { s.port with hold := true }
    slot := none
    engine := none } := by
  have hoff : s.keepStep = (s.setHold true).enterOff := if_pos (by simpa using hop)
  rw [hoff]
  simp [State.enterOff, State.judgeHold, State.holdWanted, State.setHold, Sampler.enterOff]

/-- The alarm fires, and its next time is one interval later. -/
theorem fireReport_of_next {s : State} {n : Nat} (h : s.clock.nextReport = some n) : s.fireReport = State.raise { s with
    clock := { s.clock with nextReport := some ((n + s.gauge.settings.reportInterval) % 4294967296) }
    power := { s.power with alarmDue := false } } (.report s.gaugeReport) := by
  unfold State.fireReport
  rw [h]
  rfl

/-- Settles O60, step by step; PWR_KEEP_RELEASE by the port. -/
theorem shutdownSteps : Obligations.ShutdownSteps := by
  unfold Obligations.ShutdownSteps
  refine ⟨fun s _ _ _ _ _ _ hdue => exec_dueRow_of_due hdue, fun s hdue => ?_, fun s n hdue hn => ?_⟩
  · have hrow : exec .pwrKeepRelease s = .next s.keepStep.holdIdle := exec_dueRow_of_due hdue
    refine ⟨fun _ hop => ?_, fun _ hop => ?_⟩
    · rw [hrow, keepStep_of_busy hop]
    · rw [hrow, keepStep_of_idlePort hop]
  · have hrow : exec .reportAlarm s = .next s.fireReport.holdIdle := exec_dueRow_of_due hdue
    rw [hrow, fireReport_of_next hn]

end Sys2Proof.Machine
end

