-- ==== Sys2Proof/Proofs/PortViews.lean ====
section
/-! SUPPORT. What the invariant of the Frame Port reads: the receive buffer and HOLD; and whether the part is in OFF, with no procedure
in progress and no idle expiry due there. Which operations leave that as it stands, in the order of the model, though they place replies
and notices on the Transmit List and move Power Control's procedures: all but the arrival and the taking of frames, and the resets. -/

open Sys2Proof Sys2Proof.Machine

namespace Sys2Proof.Machine

/-! ### The two views -/

/-- The receive buffer and HOLD. -/
def FramePort.inbound (p : FramePort) : List Frame × Bool := (p.rx, p.hold)

/-- Whether the part is in OFF, and whether, if it is, no procedure is in progress and no idle expiry is due. -/
def Power.offView (p : Power) : Bool × Bool :=
  (decide (p.state = .off), decide (p.state = .off → p.procedure = .none ∧ p.idleDue = false))

theorem inbound_eq_iff (p q : FramePort) : p.inbound = q.inbound ↔ p.rx = q.rx ∧ p.hold = q.hold := by
  simp only [FramePort.inbound, Prod.mk.injEq]

/-- The Transmit List, the mask and the counts are not in the view. -/
@[simp] theorem inbound_mk (p : FramePort) (tx : List TxEntry) (mask : NoticeMask) (counts : PortCounts) :
    FramePort.inbound { rx := p.rx, hold := p.hold, tx := tx, mask := mask, counts := counts } = p.inbound := rfl

/-- Of Power Control the state, the procedure and the idle expiry alone are in the view. -/
@[simp] theorem offView_mk (p : Power) (asked : Bool) (timer : Nat) (phase : MountPhase) (unformatted keep alarm : Bool) :
    Power.offView ⟨p.state, p.procedure, asked, timer, phase, unformatted, keep, p.idleDue, alarm⟩ = p.offView := rfl

/-- Outside OFF the view is the same in every state, whatever procedure is in progress. -/
theorem offView_of_on {p : Power} (h : p.state ≠ .off) : p.offView = (false, true) := by simp [Power.offView, h]

theorem on_iff_of_offView {p q : Power} (h : p.offView = q.offView) : p.state ≠ .off ↔ q.state ≠ .off := by
  have hstate := congrArg Prod.fst h
  simp only [Power.offView, decide_eq_decide] at hstate
  exact not_congr hstate

theorem offView_quiet_iff (p : Power) : p.offView.2 = true ↔ (p.state = .off → p.procedure = .none ∧ p.idleDue = false) := by
  simp only [Power.offView, decide_eq_true_eq]

/-! ### Notices, replies, and what the Capture Unit raises (R11, R16, R183, R184) -/

@[simp] theorem raise_inbound (s : State) (n : Notice) : (s.raise n).port.inbound = s.port.inbound := by
  unfold State.raise
  split <;> simp

@[simp] theorem completeOp_inbound (s : State) (status : Status) (payload : Payload) :
    (s.completeOp status payload).port.inbound = s.port.inbound := by
  unfold State.completeOp
  repeat' split
  all_goals simp

@[simp] theorem countVoid_inbound (s : State) (g : Nat) : (s.countVoid g).port.inbound = s.port.inbound := by
  unfold State.countVoid
  dsimp only
  repeat' split
  all_goals simp

@[simp] theorem holdIdle_offView (s : State) : s.holdIdle.power.offView = s.power.offView := by
  unfold State.holdIdle
  split <;> simp

@[simp] theorem loseFrame_inbound (s : State) (i : Nat) (reason : LossReason) : (s.loseFrame i reason).port.inbound = s.port.inbound := by
  unfold State.loseFrame
  dsimp only
  split <;> simp

@[simp] theorem takeSamples_inbound (s : State) (i : Nat) (d : Descriptor) (t : Stamp) (mark : Option (List Byte)) (noPlace : Bool)
    (l : List Int) : (s.takeSamples i d t mark noPlace l).port.inbound = s.port.inbound := by
  induction l generalizing s noPlace with
  | nil => rfl
  | cons a l ih =>
    unfold State.takeSamples
    dsimp only
    split
    next => simp [ih]
    next o _ =>
      split
      next => simp [ih]
      next =>
        split
        next => simp [ih]
        next =>
          obtain ⟨-, hport, -⟩ := placeSample_frame (s.modSlot i fun _ => ((s.slotAt i).accumulate d a).1) i d o t mark
          split
          all_goals
            rename_i hplaced
            rw [hplaced] at hport
            dsimp only at hport
            simp [ih, hport]

@[simp] theorem imposePause_inbound (s : State) (reason : PauseReason) (i : Nat) :
    (s.imposePause reason i).port.inbound = s.port.inbound := by
  unfold State.imposePause
  simp

@[simp] theorem imposePauses_inbound (s : State) (reason : PauseReason) (l : List Nat) :
    (s.imposePauses reason l).port.inbound = s.port.inbound := by
  induction l generalizing s reason with
  | nil => simp [State.imposePauses]
  | cons a l ih => simp [State.imposePauses, ih]

@[simp] theorem pauseRunning_inbound (s : State) (reason : PauseReason) : (s.pauseRunning reason).port.inbound = s.port.inbound := by
  unfold State.pauseRunning
  simp

@[simp] theorem criticalPause_inbound (s : State) (i : Nat) : (s.criticalPause i).port.inbound = s.port.inbound := by
  unfold State.criticalPause
  simp

@[simp] theorem criticalPauses_inbound (s : State) (l : List Nat) : (s.criticalPauses l).port.inbound = s.port.inbound := by
  induction l generalizing s with
  | nil => simp [State.criticalPauses]
  | cons a l ih => simp [State.criticalPauses, ih]

@[simp] theorem enterCriticalStreams_inbound (s : State) : s.enterCriticalStreams.port.inbound = s.port.inbound := by
  unfold State.enterCriticalStreams
  simp

/-! ### The Media Controller (R64 to R79) -/

@[simp] theorem testMediaFull_inbound (s : State) (pausing : Bool) : (s.testMediaFull pausing).port.inbound = s.port.inbound := by
  unfold State.testMediaFull
  repeat' split
  all_goals simp

@[simp] theorem testMediaAvailable_inbound (s : State) : s.testMediaAvailable.port.inbound = s.port.inbound := by
  unfold State.testMediaAvailable
  split <;> simp

@[simp] theorem failLoad_inbound (s : State) (slot : Nat) : (s.failLoad slot).port.inbound = s.port.inbound := by
  unfold State.failLoad
  simp

@[simp] theorem refuseTake_inbound (s : State) (t : Take) : (s.refuseTake t).port.inbound = s.port.inbound := by
  unfold State.refuseTake
  dsimp only
  repeat' split
  all_goals simp

@[simp] theorem makeTake_inbound (s : State) (t : Take) : (s.makeTake t).port.inbound = s.port.inbound := by
  unfold State.makeTake
  repeat' split
  all_goals simp

@[simp] theorem remakeTakes_inbound (s : State) (l : List Take) : (s.remakeTakes l).port.inbound = s.port.inbound := by
  induction l generalizing s with
  | nil => simp [State.remakeTakes]
  | cons a l ih => simp [State.remakeTakes, ih]

@[simp] theorem offerTakes_inbound (s : State) (l : List Nat) : (s.offerTakes l).port.inbound = s.port.inbound := by
  induction l generalizing s with
  | nil => simp [State.offerTakes]
  | cons a l ih =>
    unfold State.offerTakes
    split <;> simp [ih]

@[simp] theorem offerAll_inbound (s : State) : s.offerAll.port.inbound = s.port.inbound := by
  unfold State.offerAll
  simp

@[simp] theorem completeLoad_inbound (s : State) (g : Nat) (t : Take) : (s.completeLoad g t).port.inbound = s.port.inbound := by
  unfold State.completeLoad
  split <;> simp

@[simp] theorem rejectHeader_inbound (s : State) (g : Nat) : (s.rejectHeader g).port.inbound = s.port.inbound := by
  unfold State.rejectHeader
  repeat' split
  all_goals simp

@[simp] theorem headerEnd_inbound (s : State) (g : Nat) (ok : Bool) : (s.headerEnd g ok).port.inbound = s.port.inbound := by
  unfold State.headerEnd
  dsimp only
  repeat' split
  all_goals simp

@[simp] theorem badErase_inbound (s : State) (g : Nat) : (s.badErase g).port.inbound = s.port.inbound := by
  unfold State.badErase
  simp

@[simp] theorem aheadEnd_inbound (s : State) (g : Nat) (ok : Bool) : (s.aheadEnd g ok).port.inbound = s.port.inbound := by
  unfold State.aheadEnd
  dsimp only
  repeat' split
  all_goals simp

@[simp] theorem takeEraseEnd_inbound (s : State) (g : Nat) (ok : Bool) : (s.takeEraseEnd g ok).port.inbound = s.port.inbound := by
  unfold State.takeEraseEnd
  dsimp only
  repeat' split
  all_goals simp

@[simp] theorem returnErasing_inbound (s : State) (g : Nat) : (s.returnErasing g).port.inbound = s.port.inbound := by
  unfold State.returnErasing
  simp

@[simp] theorem abandonErase_inbound (s : State) : s.abandonErase.port.inbound = s.port.inbound := by
  unfold State.abandonErase
  repeat' split
  all_goals simp

@[simp] theorem parkLowered_inbound (s : State) : s.parkLowered.port.inbound = s.port.inbound := by
  unfold State.parkLowered
  simp

@[simp] theorem drain_inbound (s : State) (seen : List Nat) (l : List Entry) : (s.drain seen l).1.port.inbound = s.port.inbound := by
  induction l generalizing s seen with
  | nil => simp [State.drain]
  | cons a l ih =>
    unfold State.drain
    repeat' split
    all_goals simp [ih]

@[simp] theorem startCommit_inbound (s : State) : s.startCommit.1.port.inbound = s.port.inbound := by
  unfold State.startCommit
  split
  next e => simp [startTakes_frame s _ e]
  next =>
    have h := drain_inbound s [] s.queue
    generalize s.drain [] s.queue = r at h
    obtain ⟨t, b⟩ := r
    cases b
    · dsimp only at h ⊢
      split
      next e => simp [startTakes_frame t _ e, h]
      next => exact h
    · simpa using h

@[simp] theorem startLow_inbound (s : State) : s.startLow.port.inbound = s.port.inbound := by
  unfold State.startLow
  split
  next e =>
    split at e
    · simp [startRead_frame s _ e]
    · cases e
  next =>
    have h := startCommit_inbound s
    generalize s.startCommit = r at h
    obtain ⟨t, b⟩ := r
    cases b
    · dsimp only at h ⊢
      split
      next e => simp [startRead_frame t _ e, h]
      next => simpa using h
    · exact h

@[simp] theorem settleFairness_inbound (s : State) : s.settleFairness.port.inbound = s.port.inbound := by
  unfold State.settleFairness
  split <;> simp

@[simp] theorem chooseLow_inbound (s : State) : s.chooseLow.port.inbound = s.port.inbound := by
  unfold State.chooseLow
  split
  · rename_i e
    simp [startIndex_frame s _ e]
  · split
    · rename_i e
      simp [startMount_frame s _ e]
    · simp

@[simp] theorem choose_inbound (s : State) : s.choose.port.inbound = s.port.inbound := by
  unfold State.choose
  split
  · rename_i e
    simp [startVerify_frame s _ e]
  · split <;> simp

@[simp] theorem arbitrate_inbound (s : State) : s.arbitrate.port.inbound = s.port.inbound := by
  unfold State.arbitrate
  repeat' split
  all_goals simp

/-! ### The Index Log (R88 to R99, R172) -/

/-- The end of the POWER-DOWN entry moves a shutdown on, and leaves a part without one as it is. -/
@[simp] theorem powerDownEnded_views (s : State) (left : Nat) :
    (s.powerDownEnded left).port.inbound = s.port.inbound ∧ (s.powerDownEnded left).power.offView = s.power.offView := by
  unfold State.powerDownEnded
  split
  next h => simp [Power.offView, h]
  next => simp

@[simp] theorem giveUp_views (s : State) (left : Nat) (body : EntryBody) :
    (s.giveUp left body).port.inbound = s.port.inbound ∧ (s.giveUp left body).power.offView = s.power.offView := by
  unfold State.giveUp
  split <;> simp

@[simp] theorem durable_views (s : State) (body : EntryBody) :
    (s.durable body).port.inbound = s.port.inbound ∧ (s.durable body).power.offView = s.power.offView := by
  unfold State.durable
  split <;> simp

@[simp] theorem giveUpList_views (s : State) (left : Nat) (l : List IndexEntry) :
    (s.giveUpList left l).port.inbound = s.port.inbound ∧ (s.giveUpList left l).power.offView = s.power.offView := by
  induction l generalizing s left with
  | nil => simp [State.giveUpList]
  | cons a l ih => simp [State.giveUpList, ih]

@[simp] theorem giveUpAll_views (s : State) (left : Nat) :
    (s.giveUpAll left).port.inbound = s.port.inbound ∧ (s.giveUpAll left).power.offView = s.power.offView := by
  unfold State.giveUpAll
  simp

@[simp] theorem enterLogFailed_views (s : State) :
    s.enterLogFailed.port.inbound = s.port.inbound ∧ s.enterLogFailed.power.offView = s.power.offView := by
  unfold State.enterLogFailed
  dsimp only
  split <;> simp

@[simp] theorem nextRollover_views (s : State) :
    s.nextRollover.port.inbound = s.port.inbound ∧ s.nextRollover.power.offView = s.power.offView := by
  unfold State.nextRollover
  split <;> simp

@[simp] theorem headReady_views (s : State) :
    s.headReady.port.inbound = s.port.inbound ∧ s.headReady.power.offView = s.power.offView := by
  unfold State.headReady
  split <;> simp

@[simp] theorem grantEntry_views (s : State) (b : Nat) :
    (s.grantEntry b).port.inbound = s.port.inbound ∧ (s.grantEntry b).power.offView = s.power.offView := by
  unfold State.grantEntry
  split <;> simp

@[simp] theorem askEntry_views (s : State) : s.askEntry.port.inbound = s.port.inbound ∧ s.askEntry.power.offView = s.power.offView := by
  unfold State.askEntry
  repeat' split
  all_goals simp

@[simp] theorem pumpLog_views (s : State) : s.pumpLog.port.inbound = s.port.inbound ∧ s.pumpLog.power.offView = s.power.offView := by
  unfold State.pumpLog
  repeat' split
  all_goals simp

@[simp] theorem requestEntry_views (s : State) (body : EntryBody) :
    (s.requestEntry body).port.inbound = s.port.inbound ∧ (s.requestEntry body).power.offView = s.power.offView := by
  unfold State.requestEntry
  dsimp only
  repeat' split
  all_goals simp

@[simp] theorem entryDurable_views (s : State) (e : IndexEntry) :
    (s.entryDurable e).port.inbound = s.port.inbound ∧ (s.entryDurable e).power.offView = s.power.offView := by
  unfold State.entryDurable
  simp

@[simp] theorem entryFailed_views (s : State) (e : IndexEntry) :
    (s.entryFailed e).port.inbound = s.port.inbound ∧ (s.entryFailed e).power.offView = s.power.offView := by
  unfold State.entryFailed
  split <;> simp

@[simp] theorem indexProgramEnd_views (s : State) (g p : Nat) (ok : Bool) :
    (s.indexProgramEnd g p ok).port.inbound = s.port.inbound ∧ (s.indexProgramEnd g p ok).power.offView = s.power.offView := by
  unfold State.indexProgramEnd
  dsimp only
  repeat' split
  all_goals simp

@[simp] theorem failCandidate_views (s : State) (c : Nat) :
    (s.failCandidate c).port.inbound = s.port.inbound ∧ (s.failCandidate c).power.offView = s.power.offView := by
  unfold State.failCandidate
  simp

@[simp] theorem indexEraseEnd_views (s : State) (c : Nat) (ok : Bool) :
    (s.indexEraseEnd c ok).port.inbound = s.port.inbound ∧ (s.indexEraseEnd c ok).power.offView = s.power.offView := by
  unfold State.indexEraseEnd
  split <;> simp

@[simp] theorem formatDone_views (s : State) :
    s.formatDone.port.inbound = s.port.inbound ∧ s.formatDone.power.offView = s.power.offView := by
  unfold State.formatDone
  simp

@[simp] theorem snapshotEnd_views (s : State) (c : Nat) (ok : Bool) :
    (s.snapshotEnd c ok).port.inbound = s.port.inbound ∧ (s.snapshotEnd c ok).power.offView = s.power.offView := by
  unfold State.snapshotEnd
  dsimp only
  repeat' split
  all_goals simp

/-! ### The self-check, and Power Control (R125, R168 to R173) -/

@[simp] theorem selfCheck_inbound (s : State) (zeroRef fullRef : Nat) : (s.selfCheck zeroRef fullRef).port.inbound = s.port.inbound := by
  unfold State.selfCheck
  dsimp only
  split <;> simp

/-- A wake begins in DOZE alone. -/
@[simp] theorem beginWake_offView (s : State) : s.beginWake.power.offView = s.power.offView := by
  unfold State.beginWake
  split
  next h => simp [offView_of_on, h.1]
  next => rfl

/-- Outside OFF a procedure may end, or begin, without a change of the view. -/
theorem abandonDoze_views (s : State) (h : s.power.state ≠ .off) :
    s.abandonDoze.port.inbound = s.port.inbound ∧ s.abandonDoze.power.offView = s.power.offView := by
  unfold State.abandonDoze
  split <;> simp [offView_of_on, h]

@[simp] theorem beginDozeEntry_offView (s : State) (cause : DozeCause) (h : s.power.state ≠ .off) :
    (s.beginDozeEntry cause).power.offView = s.power.offView := by
  unfold State.beginDozeEntry
  simp [offView_of_on, h]

theorem enterDoze_views (s : State) (cause : DozeCause) (h : s.power.state ≠ .off) :
    (s.enterDoze cause).port.inbound = s.port.inbound ∧ (s.enterDoze cause).power.offView = s.power.offView := by
  unfold State.enterDoze
  split <;> simp [offView_of_on, h]

theorem dozeStep_views (s : State) (h : s.power.state ≠ .off) :
    s.dozeStep.port.inbound = s.port.inbound ∧ s.dozeStep.power.offView = s.power.offView := by
  unfold State.dozeStep
  split
  next cause _ =>
    split
    · simpa using enterDoze_views (s.setHold true) cause h
    · simp
  next => simp

/-- In OFF nothing asks for a shutdown (R173). -/
@[simp] theorem askShutdown_views (s : State) :
    s.askShutdown.port.inbound = s.port.inbound ∧ s.askShutdown.power.offView = s.power.offView := by
  unfold State.askShutdown
  split
  next => simp
  next => simp
  next hactive =>
    split
    next => simp
    next =>
      have hon : s.power.state ≠ .off := by simp [hactive]
      obtain ⟨hport, hview⟩ := abandonDoze_views s hon
      have habandoned : s.abandonDoze.power.state ≠ .off := (on_iff_of_offView hview).mpr hon
      simp [hport, offView_of_on, hon, habandoned]

/-- In OFF there is no shutdown to cancel (R173). -/
@[simp] theorem cancelShutdown_views (s : State) :
    s.cancelShutdown.port.inbound = s.port.inbound ∧ s.cancelShutdown.power.offView = s.power.offView := by
  unfold State.cancelShutdown
  split
  next => simp
  next h =>
    dsimp only
    split <;> simp [offView_of_on, h]

@[simp] theorem endWake_offView (s : State) (h : s.power.state ≠ .off) : s.endWake.power.offView = s.power.offView := by
  unfold State.endWake
  simp [offView_of_on, h]

theorem frameKept_views (s : State) (h : s.power.state ≠ .off) :
    s.frameKept.port.inbound = s.port.inbound ∧ s.frameKept.power.offView = s.power.offView := by
  unfold State.frameKept
  dsimp only
  split
  next => exact abandonDoze_views { s with power := { s.power with idleTimer := 0 } } h
  next => simp

theorem active_of_not_idleHeld {s : State} (h : ¬ s.idleHeld = true) : s.power.state = .active := by
  simp only [State.idleHeld, Bool.or_eq_true, not_or, bne_iff_ne, ne_eq, not_not] at h
  exact h.2

/-- The idle timer runs in ACTIVE alone. -/
@[simp] theorem tickIdle_offView (s : State) : s.tickIdle.power.offView = s.power.offView := by
  unfold State.tickIdle
  split
  next => simp
  next h => simp [offView_of_on, active_of_not_idleHeld h]

@[simp] theorem tickClock_offView (s : State) : s.tickClock.power.offView = s.power.offView := by
  unfold State.tickClock
  split <;> simp

/-! ### The Drop Monitor (R132 to R141) -/

@[simp] theorem raisePark_inbound (s : State) : s.raisePark.port.inbound = s.port.inbound := by
  unfold State.raisePark
  split <;> simp

@[simp] theorem declareDrop_views (s : State) (kind : DropKind) (start : Stamp) (holdUp : Nat) :
    (s.declareDrop kind start holdUp).port.inbound = s.port.inbound ∧
    (s.declareDrop kind start holdUp).power.offView = s.power.offView := by
  unfold State.declareDrop
  simp

@[simp] theorem finishDrop_views (s : State) (unresolved : Nat) :
    (s.finishDrop unresolved).port.inbound = s.port.inbound ∧ (s.finishDrop unresolved).power.offView = s.power.offView := by
  unfold State.finishDrop
  split <;> simp

@[simp] theorem enterWatch_inbound (s : State) : s.enterWatch.port.inbound = s.port.inbound := by
  unfold State.enterWatch
  simp

@[simp] theorem judgeVerify_views (s : State) :
    s.judgeVerify.port.inbound = s.port.inbound ∧ s.judgeVerify.power.offView = s.power.offView := by
  unfold State.judgeVerify
  split <;> simp

@[simp] theorem enterVerify_views (s : State) :
    s.enterVerify.port.inbound = s.port.inbound ∧ s.enterVerify.power.offView = s.power.offView := by
  unfold State.enterVerify
  simp

@[simp] theorem judgeSettle_views (s : State) (v : ScanView) :
    (s.judgeSettle v).port.inbound = s.port.inbound ∧ (s.judgeSettle v).power.offView = s.power.offView := by
  unfold State.judgeSettle
  dsimp only
  split <;> simp

@[simp] theorem scanImpact_views (s : State) (v : ScanView) :
    (s.scanImpact v).port.inbound = s.port.inbound ∧ (s.scanImpact v).power.offView = s.power.offView := by
  unfold State.scanImpact
  simp

@[simp] theorem goImpact_views (s : State) (v : ScanView) :
    (s.goImpact v).port.inbound = s.port.inbound ∧ (s.goImpact v).power.offView = s.power.offView := by
  unfold State.goImpact
  simp

@[simp] theorem declareImpact_views (s : State) (v : ScanView) :
    (s.declareImpact v).port.inbound = s.port.inbound ∧ (s.declareImpact v).power.offView = s.power.offView := by
  unfold State.declareImpact
  simp

@[simp] theorem scanWatch_views (s : State) (v : ScanView) :
    (s.scanWatch v).port.inbound = s.port.inbound ∧ (s.scanWatch v).power.offView = s.power.offView := by
  unfold State.scanWatch
  split <;> simp

@[simp] theorem scanFallWait_views (s : State) (v : ScanView) :
    (s.scanFallWait v).port.inbound = s.port.inbound ∧ (s.scanFallWait v).power.offView = s.power.offView := by
  unfold State.scanFallWait
  dsimp only
  repeat' split
  all_goals simp

@[simp] theorem scanFalling_views (s : State) (v : ScanView) :
    (s.scanFalling v).port.inbound = s.port.inbound ∧ (s.scanFalling v).power.offView = s.power.offView := by
  unfold State.scanFalling
  dsimp only
  repeat' split
  all_goals simp

@[simp] theorem scanSettling_views (s : State) (v : ScanView) :
    (s.scanSettling v).port.inbound = s.port.inbound ∧ (s.scanSettling v).power.offView = s.power.offView := by
  unfold State.scanSettling
  split <;> simp

@[simp] theorem scanVerify_views (s : State) (v : ScanView) :
    (s.scanVerify v).port.inbound = s.port.inbound ∧ (s.scanVerify v).power.offView = s.power.offView := by
  unfold State.scanVerify
  split <;> simp

@[simp] theorem monitorScan_views (s : State) (v : ScanView) :
    (s.monitorScan v).port.inbound = s.port.inbound ∧ (s.monitorScan v).power.offView = s.power.offView := by
  unfold State.monitorScan
  dsimp only
  split <;> simp

/-! ### The Battery Gauge (R152 to R162) -/

@[simp] theorem judgePack_inbound (s : State) (vpack vhold : Nat) : (s.judgePack vpack vhold).port.inbound = s.port.inbound := by
  unfold State.judgePack
  dsimp only
  repeat' split
  all_goals simp

@[simp] theorem levelChanged_views (s : State) (old : BatteryLevel) :
    (s.levelChanged old).port.inbound = s.port.inbound ∧ (s.levelChanged old).power.offView = s.power.offView := by
  unfold State.levelChanged
  dsimp only
  repeat' split
  all_goals simp

@[simp] theorem gaugeScan_views (s : State) (vhold vpack ipack tpack interval : Nat) :
    (s.gaugeScan vhold vpack ipack tpack interval).port.inbound = s.port.inbound ∧
    (s.gaugeScan vhold vpack ipack tpack interval).power.offView = s.power.offView := by
  unfold State.gaugeScan
  dsimp only
  repeat' split
  all_goals simp

@[simp] theorem fireReport_views (s : State) :
    s.fireReport.port.inbound = s.port.inbound ∧ s.fireReport.power.offView = s.power.offView := by
  unfold State.fireReport
  simp

/-! ### The Read Engine (R106 to R114) -/

@[simp] theorem endRequest_inbound (s : State) (c : ReadContext) (status : Status) :
    (s.endRequest c status).port.inbound = s.port.inbound := by
  unfold State.endRequest
  simp

@[simp] theorem scanOn_inbound (s : State) (c : ReadContext) (i page : Nat) : (s.scanOn c i page).port.inbound = s.port.inbound := by
  unfold State.scanOn
  split <;> simp

@[simp] theorem standing_inbound (s : State) (c : ReadContext) (h : HeldPage) : (s.standing c h).port.inbound = s.port.inbound := by
  unfold State.standing
  dsimp only
  split <;> simp

@[simp] theorem decideOn_inbound (s : State) (c : ReadContext) (h : HeldPage) (i page : Nat) :
    (s.decideOn c h i page).port.inbound = s.port.inbound := by
  unfold State.decideOn
  split <;> simp

@[simp] theorem searchBack_inbound (s : State) (c : ReadContext) (l : Nat) : (s.searchBack c l).port.inbound = s.port.inbound := by
  induction l generalizing s c with
  | zero => simp only [State.searchBack]; split <;> simp
  | succ a ih =>
    unfold State.searchBack
    dsimp only
    split <;> simp [ih]

@[simp] theorem searchDone_inbound (s : State) (c : ReadContext) (i : Nat) (candidate : Option Nat) :
    (s.searchDone c i candidate).port.inbound = s.port.inbound := by
  unfold State.searchDone
  repeat' split
  all_goals simp

@[simp] theorem searchOn_inbound (s : State) (c : ReadContext) (i low high : Nat) (candidate : Option Nat) :
    (s.searchOn c i low high candidate).port.inbound = s.port.inbound := by
  unfold State.searchOn
  split <;> simp

@[simp] theorem scanPage_inbound (s : State) (c : ReadContext) (i page : Nat) (t : Trailer) :
    (s.scanPage c i page t).port.inbound = s.port.inbound := by
  unfold State.scanPage
  split <;> simp

@[simp] theorem decidePage_inbound (s : State) (c : ReadContext) (h : HeldPage) (i page : Nat) (t : Trailer) :
    (s.decidePage c h i page t).port.inbound = s.port.inbound := by
  unfold State.decidePage
  repeat' split
  all_goals simp

@[simp] theorem engineResult_inbound (s : State) (c : ReadContext) (g : Nat) (r : PageResult) :
    (s.engineResult c g r).port.inbound = s.port.inbound := by
  unfold State.engineResult
  dsimp only
  repeat' split
  all_goals simp

@[simp] theorem engineReadEnd_inbound (s : State) (g p : Nat) (discard : Bool) (r : ReadOutcome) :
    (s.engineReadEnd g p discard r).port.inbound = s.port.inbound := by
  unfold State.engineReadEnd
  dsimp only
  repeat' split
  all_goals simp

@[simp] theorem startRequest_inbound (s : State) (survey index requested maximum : Nat) (hint : Option Nat) (head : Nat) :
    (s.startRequest survey index requested maximum hint head).port.inbound = s.port.inbound := by
  unfold State.startRequest
  dsimp only
  repeat' split
  all_goals simp

/-! ### Mount (R175 to R178) -/

@[simp] theorem becomeReady_views (s : State) (restored notRestored : Nat) :
    (s.becomeReady restored notRestored).port.inbound = s.port.inbound ∧
    (s.becomeReady restored notRestored).power.offView = s.power.offView := by
  unfold State.becomeReady
  simp

@[simp] theorem mountUnformatted_views (s : State) :
    s.mountUnformatted.port.inbound = s.port.inbound ∧ s.mountUnformatted.power.offView = s.power.offView := by
  unfold State.mountUnformatted
  simp

@[simp] theorem endChains_views (s : State) (done : List ChainResult) :
    (s.endChains done).port.inbound = s.port.inbound ∧ (s.endChains done).power.offView = s.power.offView := by
  unfold State.endChains
  split <;> simp

@[simp] theorem nextChain_views (s : State) (left : List (Nat × Nat)) (done : List ChainResult) :
    (s.nextChain left done).port.inbound = s.port.inbound ∧ (s.nextChain left done).power.offView = s.power.offView := by
  unfold State.nextChain
  split <;> simp

@[simp] theorem chainDone_views (s : State) (left : List (Nat × Nat)) (done : List ChainResult) (r : ChainResult) :
    (s.chainDone left done r).port.inbound = s.port.inbound ∧ (s.chainDone left done r).power.offView = s.power.offView := by
  unfold State.chainDone
  simp

@[simp] theorem lastKnown_views (s : State) (survey index : Nat) (left : List (Nat × Nat)) (done : List ChainResult) (b : LastPage)
    (marks : List IndexMark)
    (page : Option (Trailer × List Byte)) (before : Option (Nat × Nat)) :
    (s.lastKnown survey index left done b marks page before).port.inbound = s.port.inbound ∧
    (s.lastKnown survey index left done b marks page before).power.offView = s.power.offView := by
  unfold State.lastKnown
  repeat' split
  all_goals simp

@[simp] theorem lastRead_views (s : State) (survey index : Nat) (left : List (Nat × Nat)) (done : List ChainResult)
    (best : Option LastPage) (marks : List IndexMark)
    (page : Option (Trailer × List Byte)) (before : Option (Nat × Nat)) :
    (s.lastRead survey index left done best marks page before).port.inbound = s.port.inbound ∧
    (s.lastRead survey index left done best marks page before).power.offView = s.power.offView := by
  unfold State.lastRead
  split <;> simp

@[simp] theorem startLast_views (s : State) (survey index : Nat) (left : List (Nat × Nat)) (done : List ChainResult) :
    (s.startLast survey index left done).port.inbound = s.port.inbound ∧
    (s.startLast survey index left done).power.offView = s.power.offView := by
  unfold State.startLast
  repeat' split
  all_goals simp

@[simp] theorem voidsKnown_views (s : State) (survey index : Nat) (left : List (Nat × Nat)) (done : List ChainResult) (count : Nat) :
    (s.voidsKnown survey index left done count).port.inbound = s.port.inbound ∧
    (s.voidsKnown survey index left done count).power.offView = s.power.offView := by
  unfold State.voidsKnown
  repeat' split
  all_goals simp

@[simp] theorem pointKnown_views (s : State) (survey index : Nat) (left : List (Nat × Nat)) (done : List ChainResult) (w : Nat)
    (probed : List (Nat × Bool)) :
    (s.pointKnown survey index left done w probed).port.inbound = s.port.inbound ∧
    (s.pointKnown survey index left done w probed).power.offView = s.power.offView := by
  unfold State.pointKnown
  dsimp only
  repeat' split
  all_goals simp

@[simp] theorem searchPoint_views (s : State) (survey index : Nat) (left : List (Nat × Nat)) (done : List ChainResult) (low high : Nat)
    (probed : List (Nat × Bool)) :
    (s.searchPoint survey index left done low high probed).port.inbound = s.port.inbound ∧
    (s.searchPoint survey index left done low high probed).power.offView = s.power.offView := by
  unfold State.searchPoint
  split <;> simp

@[simp] theorem chainRead_views (s : State) (survey index : Nat) (left : List (Nat × Nat)) (done : List ChainResult) (work : ChainWork)
    (r : PageResult) :
    (s.chainRead survey index left done work r).port.inbound = s.port.inbound ∧
    (s.chainRead survey index left done work r).power.offView = s.power.offView := by
  unfold State.chainRead
  dsimp only
  repeat' split
  all_goals simp

@[simp] theorem buildChains_views (s : State) :
    s.buildChains.port.inbound = s.port.inbound ∧ s.buildChains.power.offView = s.power.offView := by
  unfold State.buildChains
  simp

@[simp] theorem nextHeader_views (s : State) (g : Nat) :
    (s.nextHeader g).port.inbound = s.port.inbound ∧ (s.nextHeader g).power.offView = s.power.offView := by
  unfold State.nextHeader
  split <;> simp

@[simp] theorem endReplay_views (s : State) (g writePoint nextSeq : Nat) :
    (s.endReplay g writePoint nextSeq).port.inbound = s.port.inbound ∧
    (s.endReplay g writePoint nextSeq).power.offView = s.power.offView := by
  unfold State.endReplay
  simp

@[simp] theorem replayOn_views (s : State) (g page expect : Nat) (passed : Option Bool) :
    (s.replayOn g page expect passed).port.inbound = s.port.inbound ∧
    (s.replayOn g page expect passed).power.offView = s.power.offView := by
  unfold State.replayOn
  split <;> simp

@[simp] theorem replayRead_views (s : State) (g page expect : Nat) (passed : Option Bool) (r : PageResult) :
    (s.replayRead g page expect passed r).port.inbound = s.port.inbound ∧
    (s.replayRead g page expect passed r).power.offView = s.power.offView := by
  unfold State.replayRead
  repeat' split
  all_goals simp

@[simp] theorem endRestore_views (s : State) (read : List (ChainResult × Descriptor)) (done : List ChainResult) :
    (s.endRestore read done).port.inbound = s.port.inbound ∧ (s.endRestore read done).power.offView = s.power.offView := by
  unfold State.endRestore
  simp

@[simp] theorem mountReadEnd_views (s : State) (g p : Nat) (o : ReadOutcome) :
    (s.mountReadEnd g p o).port.inbound = s.port.inbound ∧ (s.mountReadEnd g p o).power.offView = s.power.offView := by
  unfold State.mountReadEnd
  dsimp only
  repeat' split
  all_goals simp

/-! ### FORMAT (R102) -/

@[simp] theorem formatLog_views (s : State) :
    s.formatLog.port.inbound = s.port.inbound ∧ s.formatLog.power.offView = s.power.offView := by
  unfold State.formatLog
  simp

@[simp] theorem formatBegin_views (s : State) (r : FormatRun) :
    (s.formatBegin r).port.inbound = s.port.inbound ∧ (s.formatBegin r).power.offView = s.power.offView := by
  unfold State.formatBegin
  simp

@[simp] theorem formatGate_views (s : State) :
    s.formatGate.port.inbound = s.port.inbound ∧ s.formatGate.power.offView = s.power.offView := by
  unfold State.formatGate
  repeat' split
  all_goals simp

@[simp] theorem startFormat_views (s : State) (n : Nat) :
    (s.startFormat n).port.inbound = s.port.inbound ∧ (s.startFormat n).power.offView = s.power.offView := by
  unfold State.startFormat
  simp

@[simp] theorem formatEraseEnd_views (s : State) (g : Nat) (ok : Bool) :
    (s.formatEraseEnd g ok).port.inbound = s.port.inbound ∧ (s.formatEraseEnd g ok).power.offView = s.power.offView := by
  unfold State.formatEraseEnd
  dsimp only
  repeat' split
  all_goals simp

/-! ### Due steps (R8, R47, R90, R168, R172) -/

theorem makeIdleExpiry_views (s : State) (h : s.power.state ≠ .off) :
    s.makeIdleExpiry.port.inbound = s.port.inbound ∧ s.makeIdleExpiry.power.offView = s.power.offView := by
  unfold State.makeIdleExpiry
  simp [offView_of_on, h]

@[simp] theorem grantIndex_views (s : State) (b : Nat) (w : IndexWaiter) :
    (s.grantIndex b w).port.inbound = s.port.inbound ∧ (s.grantIndex b w).power.offView = s.power.offView := by
  unfold State.grantIndex
  repeat' split
  all_goals simp

@[simp] theorem makeGrant_views (s : State) :
    s.makeGrant.port.inbound = s.port.inbound ∧ s.makeGrant.power.offView = s.power.offView := by
  unfold State.makeGrant
  split <;> simp

@[simp] theorem replyStop_inbound (s : State) (i : Nat) : (s.replyStop i).port.inbound = s.port.inbound := by
  unfold State.replyStop
  repeat' split
  all_goals simp

@[simp] theorem completeStop_inbound (s : State) (i : Nat) : (s.completeStop i).port.inbound = s.port.inbound := by
  unfold State.completeStop
  split <;> simp

@[simp] theorem makeStopComplete_inbound (s : State) : s.makeStopComplete.port.inbound = s.port.inbound := by
  unfold State.makeStopComplete
  split <;> simp

@[simp] theorem makeClosedEntry_views (s : State) :
    s.makeClosedEntry.port.inbound = s.port.inbound ∧ s.makeClosedEntry.power.offView = s.power.offView := by
  unfold State.makeClosedEntry
  split <;> simp

theorem makePowerDown_views (s : State) (h : s.power.state ≠ .off) :
    s.makePowerDown.port.inbound = s.port.inbound ∧ s.makePowerDown.power.offView = s.power.offView := by
  unfold State.makePowerDown
  simp [offView_of_on, h]

/-! ### Control commands (R165, R184 to R187) -/

@[simp] theorem reply_inbound (s : State) (f : Frame) (level : Nat) (status : Status) (payload : Payload) :
    (s.reply f level status payload).port.inbound = s.port.inbound := by
  unfold State.reply
  simp

@[simp] theorem refuse_inbound (s : State) (o : Opcode) (f : Frame) (level : Nat) (status : Status) :
    (s.refuse o f level status).port.inbound = s.port.inbound := by
  unfold State.refuse
  simp

@[simp] theorem answer_inbound (s : State) (f : Frame) (level : Nat) (payload : Payload) :
    (s.answer f level payload).port.inbound = s.port.inbound := by
  unfold State.answer
  simp

@[simp] theorem accept_inbound (s : State) (o : Opcode) (f : Frame) (level : Nat) (request : Request) :
    (s.accept o f level request).port.inbound = s.port.inbound := by
  unfold State.accept
  simp

@[simp] theorem maskSet_inbound (s : State) (f : Frame) (level : Nat) : (s.maskSet f level).port.inbound = s.port.inbound := by
  unfold State.maskSet
  split <;> simp

@[simp] theorem maskClear_inbound (s : State) (f : Frame) (level : Nat) : (s.maskClear f level).port.inbound = s.port.inbound := by
  unfold State.maskClear
  split <;> simp

@[simp] theorem clockRead_inbound (s : State) (f : Frame) (level : Nat) : (s.clockRead f level).port.inbound = s.port.inbound := by
  unfold State.clockRead
  simp

@[simp] theorem clockSet_inbound (s : State) (f : Frame) (level : Nat) : (s.clockSet f level).port.inbound = s.port.inbound := by
  unfold State.clockSet
  split <;> simp

@[simp] theorem status_inbound (s : State) (f : Frame) (level : Nat) : (s.status f level).port.inbound = s.port.inbound := by
  unfold State.status
  simp

@[simp] theorem dropsRead_inbound (s : State) (f : Frame) (level : Nat) : (s.dropsRead f level).port.inbound = s.port.inbound := by
  unfold State.dropsRead
  simp

@[simp] theorem gaugeRead_inbound (s : State) (f : Frame) (level : Nat) : (s.gaugeRead f level).port.inbound = s.port.inbound := by
  unfold State.gaugeRead
  simp

/-! ### Stream commands (R2 to R10) -/

theorem streamStart_views (s : State) (f : Frame) (level : Nat) (h : s.power.state ≠ .off) :
    (s.streamStart f level).port.inbound = s.port.inbound ∧ (s.streamStart f level).power.offView = s.power.offView := by
  unfold State.streamStart
  dsimp only
  repeat' split
  · simp
  · simp
  · simpa using abandonDoze_views (s.modSlot f.slotField fun x => x.started s.stamp) h

@[simp] theorem pauseSlot_views (s : State) (i : Nat) :
    (s.pauseSlot i).port.inbound = s.port.inbound ∧ (s.pauseSlot i).power.offView = s.power.offView := by
  unfold State.pauseSlot
  simp

@[simp] theorem streamPause_views (s : State) (f : Frame) (level : Nat) :
    (s.streamPause f level).port.inbound = s.port.inbound ∧ (s.streamPause f level).power.offView = s.power.offView := by
  unfold State.streamPause
  dsimp only
  repeat' split
  all_goals simp

@[simp] theorem streamStop_inbound (s : State) (f : Frame) (level : Nat) : (s.streamStop f level).port.inbound = s.port.inbound := by
  unfold State.streamStop
  dsimp only
  repeat' split
  all_goals simp

@[simp] theorem streamClear_inbound (s : State) (f : Frame) (level : Nat) : (s.streamClear f level).port.inbound = s.port.inbound := by
  unfold State.streamClear
  dsimp only
  repeat' split
  all_goals simp

@[simp] theorem streamRead_inbound (s : State) (f : Frame) (level : Nat) : (s.streamRead f level).port.inbound = s.port.inbound := by
  unfold State.streamRead
  dsimp only
  split <;> simp

@[simp] theorem streamLoad_inbound (s : State) (f : Frame) (level : Nat) : (s.streamLoad f level).port.inbound = s.port.inbound := by
  unfold State.streamLoad
  dsimp only
  repeat' split
  all_goals simp

/-! ### Survey commands and READ-RECORDS (R87 to R104) -/

@[simp] theorem surveyOpen_views (s : State) (f : Frame) (level : Nat) :
    (s.surveyOpen f level).port.inbound = s.port.inbound ∧ (s.surveyOpen f level).power.offView = s.power.offView := by
  unfold State.surveyOpen
  split <;> simp

@[simp] theorem surveyClose_inbound (s : State) (f : Frame) (level : Nat) : (s.surveyClose f level).port.inbound = s.port.inbound := by
  unfold State.surveyClose
  repeat' split
  all_goals simp

@[simp] theorem surveyThresholds_views (s : State) (f : Frame) (level : Nat) :
    (s.surveyThresholds f level).port.inbound = s.port.inbound ∧ (s.surveyThresholds f level).power.offView = s.power.offView := by
  unfold State.surveyThresholds
  dsimp only
  repeat' split
  all_goals simp

@[simp] theorem surveyLock_views (s : State) (f : Frame) (level : Nat) :
    (s.surveyLock f level).port.inbound = s.port.inbound ∧ (s.surveyLock f level).power.offView = s.power.offView := by
  unfold State.surveyLock
  repeat' split
  all_goals simp

@[simp] theorem surveyErase_views (s : State) (f : Frame) (level : Nat) :
    (s.surveyErase f level).port.inbound = s.port.inbound ∧ (s.surveyErase f level).power.offView = s.power.offView := by
  unfold State.surveyErase
  repeat' split
  all_goals simp

@[simp] theorem surveyList_inbound (s : State) (f : Frame) (level : Nat) : (s.surveyList f level).port.inbound = s.port.inbound := by
  unfold State.surveyList
  dsimp only
  split <;> simp

@[simp] theorem readRecords_inbound (s : State) (f : Frame) (level : Nat) : (s.readRecords f level).port.inbound = s.port.inbound := by
  unfold State.readRecords
  dsimp only
  repeat' split
  all_goals simp

/-! ### Settings, DOZE and FORMAT (R86, R102, R130, R150, R169) -/

@[simp] theorem setPresent_inbound (s : State) (f : Frame) (level : Nat) (named : List (Option Nat)) :
    (s.setPresent f level named).port.inbound = s.port.inbound := by
  unfold State.setPresent
  simp

@[simp] theorem setStored_views (s : State) (f : Frame) (level : Nat) (named : List (Option Nat)) :
    (s.setStored f level named).port.inbound = s.port.inbound ∧ (s.setStored f level named).power.offView = s.power.offView := by
  unfold State.setStored
  dsimp only
  repeat' split
  all_goals simp

@[simp] theorem setLevels_views (s : State) (f : Frame) (level : Nat) :
    (s.setLevels f level).port.inbound = s.port.inbound ∧ (s.setLevels f level).power.offView = s.power.offView := by
  unfold State.setLevels
  repeat' split
  all_goals simp

@[simp] theorem setShock_views (s : State) (f : Frame) (level : Nat) :
    (s.setShock f level).port.inbound = s.port.inbound ∧ (s.setShock f level).power.offView = s.power.offView := by
  unfold State.setShock
  repeat' split
  all_goals simp

@[simp] theorem setGauge_views (s : State) (f : Frame) (level : Nat) :
    (s.setGauge f level).port.inbound = s.port.inbound ∧ (s.setGauge f level).power.offView = s.power.offView := by
  unfold State.setGauge
  repeat' split
  all_goals simp

/-- DOZE is refused outside ACTIVE. -/
@[simp] theorem doze_views (s : State) (f : Frame) (level : Nat) :
    (s.doze f level).port.inbound = s.port.inbound ∧ (s.doze f level).power.offView = s.power.offView := by
  unfold State.doze
  split
  next => simp
  next hpass =>
    obtain ⟨-, hrest⟩ := not_or.mp (mt (dozeRefused_iff s).mpr hpass)
    have hactive : s.power.state = .active := not_ne_iff.mp (not_or.mp hrest).1
    simp [hactive]

@[simp] theorem format_views (s : State) (f : Frame) (level : Nat) :
    (s.format f level).port.inbound = s.port.inbound ∧ (s.format f level).power.offView = s.power.offView := by
  unfold State.format
  repeat' split
  all_goals simp

/-! ### Frames sent, and sample frames (R12 to R17, R183) -/

theorem oneSent_eq_none_iff (p : Procedure) : p.oneSent = .none ↔ p = .none := by
  unfold Procedure.oneSent
  split <;> simp

@[simp] theorem sent_views (s : State) : s.sent.port.inbound = s.port.inbound ∧ s.sent.power.offView = s.power.offView := by
  unfold State.sent
  split
  next => simp
  next => exact ⟨rfl, by simp [Power.offView, oneSent_eq_none_iff]⟩

@[simp] theorem processFrame_inbound (s : State) (i : Nat) (d : Descriptor) (f : Frame) :
    (s.processFrame i d f).port.inbound = s.port.inbound := by
  unfold State.processFrame
  simp

@[simp] theorem admitOrLose_inbound (s : State) (i : Nat) (f : Frame) : (s.admitOrLose i f).port.inbound = s.port.inbound := by
  unfold State.admitOrLose
  dsimp only
  repeat' split
  all_goals simp

@[simp] theorem sequenceFrame_inbound (s : State) (i : Nat) (f : Frame) : (s.sequenceFrame i f).port.inbound = s.port.inbound := by
  unfold State.sequenceFrame
  split <;> simp

@[simp] theorem capture_inbound (s : State) (f : Frame) : (s.capture f).port.inbound = s.port.inbound := by
  unfold State.capture
  repeat' split
  all_goals simp

/-! ### Ticks, and the ends of scans (R123 to R125, R164) -/

@[simp] theorem tick_offView (s : State) : s.tick.power.offView = s.power.offView := by
  unfold State.tick
  simp

@[simp] theorem crystal_offView (s : State) : s.crystal.power.offView = s.power.offView := by
  unfold State.crystal
  split <;> simp

@[simp] theorem shockEnd_views (s : State) (ax ay az vhold : Code) :
    (s.shockEnd ax ay az vhold).port.inbound = s.port.inbound ∧ (s.shockEnd ax ay az vhold).power.offView = s.power.offView := by
  unfold State.shockEnd
  split <;> simp

@[simp] theorem gaugeEnd_views (s : State) (vhold vpack ipack tpack zeroRef fullRef : Code) :
    (s.gaugeEnd vhold vpack ipack tpack zeroRef fullRef).port.inbound = s.port.inbound ∧
    (s.gaugeEnd vhold vpack ipack tpack zeroRef fullRef).power.offView = s.power.offView := by
  unfold State.gaugeEnd
  repeat' split
  all_goals simp

@[simp] theorem startUpEnd_inbound (s : State) (zeroRef fullRef : Code) :
    (s.startUpEnd zeroRef fullRef).port.inbound = s.port.inbound := by
  unfold State.startUpEnd
  split <;> simp

/-! ### The ends of operations (R72 to R77) -/

@[simp] theorem afterOp_views (s : State) : s.afterOp.port.inbound = s.port.inbound ∧ s.afterOp.power.offView = s.power.offView := by
  unfold State.afterOp
  simp

@[simp] theorem programFail_inbound (s : State) (e : Entry) (g : Nat) : (s.programFail e g).port.inbound = s.port.inbound := by
  unfold State.programFail
  simp

@[simp] theorem dataEnd_views (s : State) (b g p : Nat) (ok : Bool) :
    (s.dataEnd b g p ok).port.inbound = s.port.inbound ∧ (s.dataEnd b g p ok).power.offView = s.power.offView := by
  unfold State.dataEnd
  dsimp only
  repeat' split
  all_goals simp

@[simp] theorem verifyMismatch_inbound (s : State) (e : Entry) (g : Nat) : (s.verifyMismatch e g).port.inbound = s.port.inbound := by
  unfold State.verifyMismatch
  simp

@[simp] theorem verifyEnd_views (s : State) (b g p : Nat) (o : ReadOutcome) :
    (s.verifyEnd b g p o).port.inbound = s.port.inbound ∧ (s.verifyEnd b g p o).power.offView = s.power.offView := by
  unfold State.verifyEnd
  dsimp only
  repeat' split
  all_goals simp

@[simp] theorem endDataProgram_views (s : State) (ok : Bool) :
    (s.endDataProgram ok).port.inbound = s.port.inbound ∧ (s.endDataProgram ok).power.offView = s.power.offView := by
  unfold State.endDataProgram
  split <;> simp

@[simp] theorem endHeaderProgram_views (s : State) (ok : Bool) :
    (s.endHeaderProgram ok).port.inbound = s.port.inbound ∧ (s.endHeaderProgram ok).power.offView = s.power.offView := by
  unfold State.endHeaderProgram
  split <;> simp

@[simp] theorem endSegmentErase_views (s : State) (ok : Bool) :
    (s.endSegmentErase ok).port.inbound = s.port.inbound ∧ (s.endSegmentErase ok).power.offView = s.power.offView := by
  unfold State.endSegmentErase
  split <;> simp

@[simp] theorem endFormatErase_views (s : State) (ok : Bool) :
    (s.endFormatErase ok).port.inbound = s.port.inbound ∧ (s.endFormatErase ok).power.offView = s.power.offView := by
  unfold State.endFormatErase
  split <;> simp

@[simp] theorem endIndexEntry_views (s : State) (ok : Bool) :
    (s.endIndexEntry ok).port.inbound = s.port.inbound ∧ (s.endIndexEntry ok).power.offView = s.power.offView := by
  unfold State.endIndexEntry
  split <;> simp

@[simp] theorem endIndexErase_views (s : State) (ok : Bool) :
    (s.endIndexErase ok).port.inbound = s.port.inbound ∧ (s.endIndexErase ok).power.offView = s.power.offView := by
  unfold State.endIndexErase
  split <;> simp

@[simp] theorem endSnapshot_views (s : State) (ok : Bool) :
    (s.endSnapshot ok).port.inbound = s.port.inbound ∧ (s.endSnapshot ok).power.offView = s.power.offView := by
  unfold State.endSnapshot
  split <;> simp

@[simp] theorem endVerification_views (s : State) (r : ReadOutcome) :
    (s.endVerification r).port.inbound = s.port.inbound ∧ (s.endVerification r).power.offView = s.power.offView := by
  unfold State.endVerification
  split <;> simp

@[simp] theorem endEngineRead_views (s : State) (r : ReadOutcome) :
    (s.endEngineRead r).port.inbound = s.port.inbound ∧ (s.endEngineRead r).power.offView = s.power.offView := by
  unfold State.endEngineRead
  split <;> simp

@[simp] theorem endMountRead_views (s : State) (r : ReadOutcome) :
    (s.endMountRead r).port.inbound = s.port.inbound ∧ (s.endMountRead r).power.offView = s.power.offView := by
  unfold State.endMountRead
  split <;> simp

@[simp] theorem timeout_views (s : State) : s.timeout.port.inbound = s.port.inbound ∧ s.timeout.power.offView = s.power.offView := by
  unfold State.timeout
  split <;> simp

end Sys2Proof.Machine
end

