-- ==== Sys2Proof/Proofs/FramePort.lean ====
section
/-! PROOFS. The Frame Port: frames that arrive, kept or discarded (R168 to R171, R173, R180, R181); frames sent and notices placed (R172, R183,
R184). -/

open Sys2Proof Sys2Proof.Machine

namespace Sys2Proof.Machine

section
variable {s : State}

/-! ### The idle timer (R168) -/

/-- The idle timer is not among what holds it. -/
theorem holdIdle_holdIdle (s : State) : s.holdIdle.holdIdle = s.holdIdle := by
  obtain ⟨n, hn⟩ := holdIdle_eq s
  have hheld : s.holdIdle.idleHeld = s.idleHeld := by
    rw [hn]
    rfl
  by_cases h : s.idleHeld = true
  · rw [holdIdle_field s.holdIdle, hheld, if_pos h, holdIdle_field s, if_pos h]
  · have hstays : s.holdIdle = s := if_neg h
    rw [hstays, hstays]

theorem holdIdle_of_zero (h : s.power.idleTimer = 0) : s.holdIdle = s := by
  rw [holdIdle_field, h, ite_self, ← h]

/-! ### Arrivals (R168, R170, R171, R173, R180, R181) -/

theorem exec_frameArrival (hs : s.Settled) (bytes : List Byte) : exec (.frameArrival bytes) s = .next (s.arrive bytes).holdIdle := by
  show Host.Outcome.next (s.settle.arrive bytes).holdIdle = _
  rw [settle_of_settled hs]

theorem arrive_of_off (hoff : s.power.state = .off) (bytes : List Byte) : s.arrive bytes = s.countPort PortCounts.raiseOverrun :=
  if_pos hoff

theorem arrive_of_unframed (hon : s.power.state ≠ .off) {bytes : List Byte} (h : framed bytes = false ∨ inboundKind bytes = none) :
    s.arrive bytes = s.countPort PortCounts.raiseFraming := by
  unfold State.arrive
  rw [if_neg hon]
  split
  next => rfl
  next hframed => rw [h.resolve_left hframed]

theorem arrive_of_kind (hon : s.power.state ≠ .off) {bytes : List Byte} {k : FrameKind} (hframed : framed bytes = true)
    (hk : inboundKind bytes = some k) : s.arrive bytes = s.admitFrame (frameOf k bytes) := by
  unfold State.arrive
  rw [if_neg hon, if_neg (by simp [hframed]), hk]

theorem admitFrame_of_malformed {f : Frame} (hk : f.kind = .sample) (h : f.sampleFormed = false) :
    s.admitFrame f = s.countPort PortCounts.raiseMalformed := if_pos ⟨hk, h⟩

theorem admitFrame_of_formed {f : Frame} (h : f.kind = .sample → f.sampleFormed = true) :
    s.admitFrame f = if 8 ≤ s.port.rx.length then s.countPort PortCounts.raiseOverrun else s.keepFrame f := by
  refine if_neg ?_
  rintro ⟨hk, hformed⟩
  simp [h hk] at hformed

/-- A kept frame abandons a DOZE entry of cause IDLE. -/
theorem frameKept_of_idleEntry (h : s.power.procedure = .dozeEntry .idle) : s.frameKept = { s with
    power := { s.power with procedure := .none, idleTimer := 0 }, media := { s.media with hold := false } } := by
  unfold State.frameKept
  dsimp only
  split
  next => exact abandonDoze_idle (s := { s with power := { s.power with idleTimer := 0 } }) h
  next hother => exact absurd h hother

/-- Otherwise a kept frame returns the idle timer to 0 and asks for a wake, which begins in DOZE alone. -/
theorem frameKept_of_other (h : s.power.procedure ≠ .dozeEntry .idle) : s.frameKept = { s with power := { s.power with
    idleTimer := 0
    procedure := if s.power.state = .doze ∧ s.power.procedure = .none then .wakeWait else s.power.procedure } } := by
  have hwakes : s.frameKept = State.beginWake { s with power := { s.power with idleTimer := 0 } } := by
    unfold State.frameKept
    dsimp only
    split
    next hidle => exact absurd hidle h
    next => rfl
  rw [hwakes]
  unfold State.beginWake
  split <;> simp_all

/-- The receive buffer with one more frame, HOLD asserted by the seventh (R181). -/
def State.withFrame (s : State) (f : Frame) : State :=
  { s with port := { s.port with rx := s.port.rx ++ [f], hold := decide (6 ≤ s.port.rx.length) } }

theorem keepFrame_eq (hon : s.power.state ≠ .off) (f : Frame) : s.keepFrame f = (s.withFrame f).frameKept := by
  have hoff : (s.power.state == .off) = false := beq_false_of_ne hon
  simp [State.keepFrame, State.withFrame, State.judgeHold, State.holdWanted, hoff]

/-- Settles O15: the frame is kept, and Power Control is told by the procedure in progress. -/
theorem frameKept : Obligations.FrameKept := by
  unfold Obligations.FrameKept
  intro bytes k s hs hon hframed hk hformed hroom
  rw [exec_frameArrival hs, arrive_of_kind hon hframed hk, admitFrame_of_formed hformed, if_neg (by omega),
    keepFrame_eq hon]
  by_cases hp : s.power.procedure = .dozeEntry .idle
  · rw [frameKept_of_idleEntry (s := s.withFrame _) hp, holdIdle_of_zero rfl]
    exact ⟨_, rfl, rfl, rfl, rfl, rfl, fun _ => ⟨rfl, rfl⟩, fun h => absurd hp h, fun _ hnone => by simp [hp] at hnone,
      fun _ h => absurd hp h⟩
  · rw [frameKept_of_other (s := s.withFrame _) hp, holdIdle_of_zero rfl]
    exact ⟨_, rfl, rfl, rfl, rfl, rfl, fun h => absurd h hp, fun _ => rfl, fun hdoze hnone => if_pos ⟨hdoze, hnone⟩,
      fun hactive _ => if_neg (by simp [State.withFrame, hactive])⟩

/-- Settles O16, test by test. -/
theorem frameDiscarded : Obligations.FrameDiscarded := by
  unfold Obligations.FrameDiscarded
  intro bytes s hs
  simp only [exec_frameArrival hs]
  refine ⟨fun h => ?_, fun hon h => ?_, fun hon hframed hk hformed => ?_⟩
  · by_cases hoff : s.power.state = .off
    · rw [arrive_of_off hoff]
      rfl
    · obtain ⟨k, hframed, hk, hformed, hfull⟩ := h.resolve_left hoff
      rw [arrive_of_kind hoff hframed hk, admitFrame_of_formed hformed, if_pos hfull]
      rfl
  · rw [arrive_of_unframed hon h]
    rfl
  · rw [arrive_of_kind hon hframed hk, admitFrame_of_malformed rfl hformed]
    rfl

/-! ### FRAME_SENT (R172, R183) -/

theorem exec_frameSent (hs : s.Settled) : exec .frameSent s = .next s.sendFrame.holdIdle := by
  show Host.Outcome.next s.settle.sendFrame.holdIdle = _
  rw [settle_of_settled hs]

theorem sent_of_empty (h : s.port.tx = []) : s.sent = s := by
  unfold State.sent
  rw [h]

theorem sent_of_cons {e : TxEntry} {rest : List TxEntry} (h : s.port.tx = e :: rest) :
    s.sent = { s with port := { s.port with tx := rest }, power := { s.power with procedure := s.power.procedure.oneSent } } := by
  unfold State.sent
  rw [h]

theorem oneSent_of_other {p : Procedure} (h : ∀ n, p ≠ .shutdown (.drain n)) : p.oneSent = p := by
  unfold Procedure.oneSent
  split
  next n => exact absurd rfl (h n)
  next => rfl

theorem takeHead_of_noPlace {o : Opcode} (h : s.placesFree o.timeTaking = false) (body : State → Frame → Nat → State) :
    s.takeHead o body = s := by
  unfold State.takeHead
  split
  next => exact if_neg (by simp [h])
  next => rfl

theorem takeUnknown_of_noPlace (h : s.placesFree false = false) : s.takeUnknown = s := by
  unfold State.takeUnknown
  split
  next => exact if_neg (by simp [h])
  next => rfl

/-- A control frame that still waits for a place is not taken. -/
theorem takeAny_of_waits (h : s.waitsForPlace = true) : s.takeAny = s := by
  unfold State.takeAny
  split
  next f hf =>
    have hplaces : s.placesFree f.timeTaking = false := by simpa [State.waitsForPlace, hf] using h
    unfold Frame.timeTaking at hplaces
    split
    next o ho =>
      rw [ho] at hplaces
      exact takeHead_of_noPlace hplaces _
    next ho =>
      rw [ho] at hplaces
      exact takeUnknown_of_noPlace hplaces
  next => rfl

/-- A control frame that waits no longer is taken as by its own row. -/
theorem takeAny_eq_row {f : Frame} {o : Opcode} (hs : s.Settled) (hf : s.headControl = some f) (ho : opcodeOf f.code = some o)
    (h : s.waitsForPlace = false) : exec o.row s = .next s.takeAny.holdIdle := by
  have hplaces : s.placesFree o.timeTaking = true := by simpa [State.waitsForPlace, hf, Frame.timeTaking, ho] using h
  have hany : s.takeAny = s.takeHead o o.rule := by simp only [State.takeAny, hf, ho]
  rw [exec_row, State.command, settle_of_settled hs, hany, takeHead_of_offered hf ho hplaces, holdIdle_holdIdle]

/-- An unknown opcode with a place for its reply is refused with PARAM. -/
theorem takeUnknown_of_place {f : Frame} (hf : s.headControl = some f) (ho : opcodeOf f.code = none)
    (h : s.placesFree false = true) : s.takeUnknown = ((s.reply f (s.effective f) .param .none).freeHead).holdIdle := by
  unfold State.takeUnknown
  simp [hf, ho, h]

theorem exec_unknownOpcode (hs : s.Settled) : exec .unknownOpcode s = .next s.takeUnknown := by
  show Host.Outcome.next s.settle.takeUnknown = _
  rw [settle_of_settled hs]

theorem takeAny_eq_unknown {f : Frame} (hs : s.Settled) (hf : s.headControl = some f) (ho : opcodeOf f.code = none)
    (h : s.waitsForPlace = false) : exec .unknownOpcode s = .next s.takeAny.holdIdle := by
  have hplaces : s.placesFree false = true := by simpa [State.waitsForPlace, hf, Frame.timeTaking, ho] using h
  have hany : s.takeAny = s.takeUnknown := by simp only [State.takeAny, hf, ho]
  rw [exec_unknownOpcode hs, hany, takeUnknown_of_place hf ho hplaces, holdIdle_holdIdle]

/-! ### Notices (R184) -/

theorem raise_of_disabled {n : Notice} (h : s.port.mask.enabled n.kind = false) : s.raise n = s := if_neg (by simp [h])

theorem raise_of_enabled {n : Notice} (h : s.port.mask.enabled n.kind = true) :
    s.raise n = { s with port := { s.port with tx := placeNotice s.port.tx n } } := if_pos h

/-- With none of its kind pending behind the frame on the line, a notice joins the tail. -/
theorem placeNotice_of_new {tx : List TxEntry} {n : Notice} (h : tx.tail.any (TxEntry.isNotice n.kind) = false) :
    placeNotice tx n = tx ++ [.notice n] := by
  cases tx with
  | nil => rfl
  | cons e rest => exact if_neg (by simpa using h)

/-- With one of its kind pending there, the notice takes its place. -/
theorem placeNotice_of_pending {e : TxEntry} {rest : List TxEntry} {n : Notice} (h : rest.any (TxEntry.isNotice n.kind) = true) :
    placeNotice (e :: rest) n = e :: rest.map (fun x => if x.isNotice n.kind then .notice n else x) := if_pos h

/-- Settles O17: the frame sent, with the frame that waited; and the notice, dropped, new, or in the place of one pending. -/
theorem transmitList : Obligations.TransmitList := by
  unfold Obligations.TransmitList
  refine ⟨fun s hs => ⟨fun hempty => ?_, fun e rest htx => ?_⟩, fun s n => ⟨raise_of_disabled, fun hon => ?_⟩⟩
  · have hsend : s.sendFrame = s := by
      unfold State.sendFrame
      rw [sent_of_empty hempty]
      split
      next hwaits => exact takeAny_of_waits hwaits
      next => rfl
    rw [exec_frameSent hs, hsend]
  · have hsent := sent_of_cons htx
    rw [exec_frameSent hs]
    refine ⟨s.sent, by rw [hsent], fun n hp => ?_, fun hp => ?_, fun h => ?_, fun f hf hwaits hnow hset => ?_⟩
    · rw [hsent, hp]
      rfl
    · rw [hsent]
      exact oneSent_of_other hp
    · unfold State.sendFrame
      split
      next hwaits => rw [takeAny_of_waits (h.resolve_left (by simp [hwaits]))]
      next => rfl
    · have hsend : s.sendFrame = s.sent.takeAny := if_pos hwaits
      have hhead : s.sent.headControl = some f := (sent_headControl s).trans hf
      rw [hsend]
      exact ⟨fun o ho => (takeAny_eq_row hset hhead ho hnow).symm, fun ho => (takeAny_eq_unknown hset hhead ho hnow).symm⟩
  · rw [raise_of_enabled hon]
    refine ⟨rfl, placeNotice_of_new, fun h => ?_⟩
    cases htx : s.port.tx with
    | nil => simp [htx] at h
    | cons e rest =>
      rw [htx] at h
      have hplaced : placeNotice (e :: rest) n = e :: rest.map (fun x => if x.isNotice n.kind then .notice n else x) :=
        placeNotice_of_pending h
      dsimp only
      rw [hplaced]
      simp +contextual

end

end Sys2Proof.Machine
end

