-- ==== Sys2Proof/Proofs/ControlFrames.lean ====
section
/-! PROOFS. The tests of R185, frames that are not taken, the notice mask, and the reply of the Operation Slot (R181, R183 to R187). -/

open Sys2Proof Sys2Proof.Machine

namespace Sys2Proof.Machine

section
variable {s : State}

/-! ### The tests of R185 -/

/-- The row of a command that a test of R185 refuses. -/
theorem exec_row_of_refusedBy {o : Opcode} {f : Frame} {st : Status} (h : s.Offers o f) (hr : s.refusedBy o f = some st) :
    exec o.row s = .next ((s.refuse o f (s.effective f) st).freeHead).holdIdle := by
  rw [exec_row, command_of_offers h, State.takeFrame, hr]

/-- Settles O18: the refusal of each test, with the tests before it passed. -/
theorem refusedByTests : Obligations.RefusedByTests := by
  unfold Obligations.RefusedByTests
  intro o s f h refused
  have hrefused {st : Status} (hr : s.refusedBy o f = some st) : exec o.row s = refused st := exec_row_of_refusedBy h hr
  refine ⟨fun hlen => hrefused ?_, fun hlen hphase hany => hrefused ?_, fun hlen hphase htime hslot => hrefused ?_⟩
  · exact if_pos hlen
  · simp [State.refusedBy, hlen, hphase, hany]
  · simp [State.refusedBy, hlen, hphase, htime, hslot]

/-! ### Frames that are not taken (R181, R185) -/

/-- A head that does not offer the command is left where it is (log 2). -/
theorem takeHead_of_not_offered {o : Opcode} (hs : s.Settled) (h : ∀ f, ¬ s.Offers o f) (body : State → Frame → Nat → State) :
    s.takeHead o body = s := by
  unfold State.takeHead
  split
  next f hf =>
    split
    next hoffer => exact absurd ⟨hs, hf, hoffer.1, hoffer.2⟩ (h f)
    next => rfl
  next => rfl

/-- Settles O19: the refusal of an unknown opcode, and the rows without their frame. -/
theorem framesNotTaken : Obligations.FramesNotTaken := by
  unfold Obligations.FramesNotTaken
  refine ⟨fun s f hs hf ho hplaces => ?_, fun o s hs h => ?_⟩
  · rw [exec_unknownOpcode hs, takeUnknown_of_place hf ho hplaces]
    rfl
  · rw [exec_row, State.command, settle_of_settled hs, takeHead_of_not_offered hs h]

/-! ### The notice mask (R184) -/

theorem enable_enabled (m n : NoticeMask) (k : NoticeKind) : (m.enable n).enabled k = (m.enabled k || n.enabled k) := by
  cases k <;> rfl

theorem disable_enabled (m n : NoticeMask) (k : NoticeKind) : (m.disable n).enabled k = (m.enabled k && !n.enabled k) := by
  cases k <;> rfl

/-- NOTICE-MASK-SET's own rule at a level that may set the mask. -/
theorem maskSet_sets (f : Frame) {level : Nat} (h : level ≤ 1) : s.maskSet f level =
    let m := s.port.mask.enable (kindSet (field f.payload 0 1))
    { s with port := { s.port with mask := m, tx := s.port.tx ++ [.reply
      { port := f.port, tag := f.tag, level := level, status := .ok, kept := false, payload := .mask m }] } } :=
  if_neg (Nat.not_lt.mpr h)

/-- NOTICE-MASK-CLEAR's own rule at a level that may clear kinds of it. -/
theorem maskClear_clears (f : Frame) {level : Nat} (h : level ≤ 1) : s.maskClear f level =
    let m := s.port.mask.disable (kindSet (field f.payload 0 1))
    { s with port := { s.port with mask := m, tx := s.port.tx ++ [.reply
      { port := f.port, tag := f.tag, level := level, status := .ok, kept := false, payload := .mask m }] } } :=
  if_neg (Nat.not_lt.mpr h)

/-- Settles O22, by the command and its level. -/
theorem noticeMasks : Obligations.NoticeMasks := by
  unfold Obligations.NoticeMasks
  intro s f
  refine ⟨fun h => ⟨fun hl => exec_row_refused h (if_pos hl), fun hl => ?_⟩,
    fun h => ⟨fun hl => exec_row_refused h (if_pos hl), fun hl => ?_⟩⟩
  · have hrow : exec .noticeMaskSet s = .next (((s.maskSet f (s.effective f)).freeHead).holdIdle) := exec_row_of_takes h
    rw [maskSet_sets f hl] at hrow
    exact ⟨_, enable_enabled _ _, hrow⟩
  · have hrow : exec .noticeMaskClear s = .next (((s.maskClear f (s.effective f)).freeHead).holdIdle) := exec_row_of_takes h
    rw [maskClear_clears f hl] at hrow
    exact ⟨_, disable_enabled _ _, hrow⟩

/-! ### The reply of the Operation Slot (R183, R187) -/

/-- Settles O24, by whether the reply is suppressed. -/
theorem slotReply : Obligations.SlotReply := by
  unfold Obligations.SlotReply
  intro s c st p hslot
  rw [completeOp_of_slot s c st p hslot]
  exact ⟨fun hsup => by rw [if_pos hsup], fun hsup => by rw [if_neg (by simp [hsup])]⟩

end

end Sys2Proof.Machine
end

