-- ==== Sys2Proof/Proofs/PortInvariant.lean ====
section
/-! PROOFS. HOLD stands as R181 says, the receive buffer holds at most 8 frames, and in OFF no procedure is in progress and no idle expiry
is due (R172, R173): every event that takes in or frees a frame judges HOLD anew, and what begins or moves a procedure acts outside OFF. -/

open Sys2Proof Sys2Proof.Machine

namespace Sys2Proof.Machine

/-! ### What the invariant reads (R173, R181) -/

section
variable {s t : State}

theorem portInv_of_views (hport : t.port.inbound = s.port.inbound) (hpower : t.power.offView = s.power.offView) (hs : s.PortInv) :
    t.PortInv := by
  obtain ⟨hrx, hhold⟩ := (inbound_eq_iff _ _).mp hport
  obtain ⟨hjudged, hroom, hquiet⟩ := hs
  have hwanted : t.holdWanted = s.holdWanted := by
    have hoff : (t.power.state == .off) = (s.power.state == .off) := congrArg Prod.fst hpower
    simp only [State.holdWanted, hrx, hoff]
  refine ⟨by rw [hhold, hwanted, hjudged], by rwa [hrx], ?_⟩
  rw [← offView_quiet_iff, hpower, offView_quiet_iff]
  exact hquiet

theorem portInv_holdIdle (hs : s.PortInv) : s.holdIdle.PortInv := portInv_of_views (by simp) (by simp) hs

theorem portInv_arbitrate (hs : s.PortInv) : s.arbitrate.PortInv := portInv_of_views (by simp) (by simp) hs

/-- HOLD judged anew stands as R181 says. -/
theorem portInv_judgeHold (hroom : s.port.rx.length ≤ 8)
    (hquiet : s.power.state = .off → s.power.procedure = .none ∧ s.power.idleDue = false) : s.judgeHold.PortInv :=
  ⟨rfl, hroom, hquiet⟩

/-- A procedure is in progress only outside OFF. -/
theorem on_of_procedure (hs : s.PortInv) (hp : s.power.procedure ≠ .none) : s.power.state ≠ .off := by
  obtain ⟨-, -, hquiet⟩ := hs
  exact fun hoff => hp (hquiet hoff).1

theorem on_of_idleDue (hs : s.PortInv) (hdue : s.power.idleDue = true) : s.power.state ≠ .off := by
  obtain ⟨-, -, hquiet⟩ := hs
  intro hoff
  simp [(hquiet hoff).2] at hdue

/-! ### Due steps (R168, R169, R172) -/

theorem portInv_enterOff (hs : s.PortInv) : s.enterOff.PortInv := by
  obtain ⟨-, hroom, -⟩ := hs
  exact portInv_judgeHold hroom fun _ => ⟨rfl, rfl⟩

theorem procedure_of_keepReady (h : s.keepReady = true) : s.power.procedure ≠ .none := by
  intro hp
  simp [State.keepReady, hp] at h

theorem procedure_of_dozeReady (h : s.dozeReady = true) : s.power.procedure ≠ .none := by
  intro hp
  simp [State.dozeReady, hp] at h

theorem procedure_of_powerDownReady (h : s.powerDownReady = true) : s.power.procedure ≠ .none := by
  intro hp
  simp [State.powerDownReady, hp] at h

theorem portInv_keepStep (hs : s.PortInv) (hon : s.power.state ≠ .off) : s.keepStep.PortInv := by
  unfold State.keepStep
  split
  · exact portInv_enterOff hs
  · exact portInv_of_views (s := s) rfl (by simp [offView_of_on, hon]) hs

/-- A step that is due keeps the invariant; those of a procedure are due outside OFF alone. -/
theorem portInv_make (hs : s.PortInv) {d : Due} (hd : s.isDue d = true) : (s.make d).PortInv := by
  have hviews (h : (s.make d).port.inbound = s.port.inbound ∧ (s.make d).power.offView = s.power.offView) : (s.make d).PortInv :=
    portInv_of_views h.1 h.2 hs
  cases d
  case idleTimerExpiry => exact hviews (makeIdleExpiry_views s (on_of_idleDue hs hd))
  case dozeEntryComplete => exact hviews (dozeStep_views s (on_of_procedure hs (procedure_of_dozeReady hd)))
  case shutdownPowerDownRequest => exact hviews (makePowerDown_views s (on_of_procedure hs (procedure_of_powerDownReady hd)))
  case pwrKeepRelease => exact portInv_keepStep hs (on_of_procedure hs (procedure_of_keepReady hd))
  all_goals exact hviews (by simp [State.make])

theorem isDue_of_due {d : Due} (h : s.due = some d) : s.isDue d = true := List.find?_some h

theorem portInv_makeDue (hs : s.PortInv) {d : Due} (hd : s.due = some d) : ((s.make d).holdIdle).PortInv :=
  portInv_holdIdle (portInv_make hs (isDue_of_due hd))

end

theorem portInv_makeFor {s : State} (hs : s.PortInv) (d : Due) (n : Nat) : (s.makeFor d n).PortInv := by
  induction n generalizing s with
  | zero => exact hs
  | succ n ih =>
    unfold State.makeFor
    split
    · split
      next e he =>
        have hmade := portInv_makeDue hs he
        split
        next hed => exact hed ▸ hmade
        next => exact ih hmade
      next => exact hs
    · exact hs

theorem portInv_settleFor {s : State} (hs : s.PortInv) (n : Nat) : (s.settleFor n).PortInv := by
  induction n generalizing s with
  | zero => exact hs
  | succ n ih =>
    unfold State.settleFor
    split
    next d hd => exact ih (portInv_makeDue hs hd)
    next => exact hs

section
variable {s : State}

theorem portInv_settle (hs : s.PortInv) : s.settle.PortInv := portInv_settleFor hs 256

/-! ### Frames that arrive and frames that are taken (R180, R181) -/

theorem portInv_countPort (hs : s.PortInv) (g : PortCounts → PortCounts) : (s.countPort g).PortInv :=
  portInv_of_views (by simp) rfl hs

/-- A frame is kept outside OFF, in a free receive slot. -/
theorem portInv_keepFrame (hon : s.power.state ≠ .off) (hroom : s.port.rx.length < 8) (f : Frame) : (s.keepFrame f).PortInv := by
  have hjudged : (State.judgeHold { s with port := { s.port with rx := s.port.rx ++ [f] } }).PortInv :=
    portInv_judgeHold (by simpa using hroom) (fun hoff => absurd hoff hon)
  obtain ⟨hport, hpower⟩ := frameKept_views (State.judgeHold { s with port := _ }) hon
  exact portInv_of_views hport hpower hjudged

theorem portInv_admitFrame (hs : s.PortInv) (hon : s.power.state ≠ .off) (f : Frame) : (s.admitFrame f).PortInv := by
  unfold State.admitFrame
  split
  next => exact portInv_countPort hs _
  next =>
    split
    next => exact portInv_countPort hs _
    next hroom => exact portInv_keepFrame hon (Nat.not_le.mp hroom) f

theorem portInv_arrive (hs : s.PortInv) (bytes : List Byte) : (s.arrive bytes).PortInv := by
  by_cases hoff : s.power.state = .off
  · rw [arrive_of_off hoff]
    exact portInv_countPort hs _
  by_cases hbad : framed bytes = false ∨ inboundKind bytes = none
  · rw [arrive_of_unframed hoff hbad]
    exact portInv_countPort hs _
  obtain ⟨hframed, hkind⟩ := not_or.mp hbad
  obtain ⟨k, hk⟩ := Option.ne_none_iff_exists'.mp hkind
  rw [arrive_of_kind hoff (Bool.eq_true_of_not_eq_false hframed) hk]
  exact portInv_admitFrame hs hoff _

/-- Freeing the slot of a taken frame: HOLD is judged anew. -/
theorem portInv_freeHead (hroom : s.port.rx.length ≤ 8) (hon : s.power.state ≠ .off) : s.freeHead.PortInv :=
  portInv_judgeHold (by rw [List.length_tail]; omega) (fun hoff => absurd hoff hon)

theorem portInv_takeSample (hs : s.PortInv) : s.takeSample.PortInv := by
  unfold State.takeSample
  split
  next f _ =>
    split
    · exact hs
    next hon =>
      obtain ⟨-, hroom, -⟩ := hs
      have hrx : (s.capture f).port.rx = s.port.rx := ((inbound_eq_iff _ _).mp (capture_inbound s f)).1
      refine portInv_arbitrate (portInv_freeHead (by rwa [hrx]) ?_)
      rwa [show (s.capture f).power = s.power by simp]
  next => exact hs

/-- A command's own rule takes in no frame and does not put the part in OFF; LINK-RESET alone discards frames (R187). -/
theorem rule_keeps (o : Opcode) (f : Frame) (level : Nat) (hon : s.power.state ≠ .off) :
    (o.rule s f level).port.rx.length ≤ s.port.rx.length ∧ (o.rule s f level).power.state ≠ .off := by
  have hviews {t : State} (h : t.port.inbound = s.port.inbound ∧ t.power.offView = s.power.offView) :
      t.port.rx.length ≤ s.port.rx.length ∧ t.power.state ≠ .off :=
    ⟨by rw [((inbound_eq_iff _ _).mp h.1).1], (on_iff_of_offView h.2).mpr hon⟩
  cases o
  case linkReset =>
    have hrx : (s.linkReset f level).port.rx = s.port.rx.take 1 := by simp [State.linkReset, State.answer, State.reply, State.resetPort]
    have hstate : (s.linkReset f level).power.state = s.power.state := by simp [State.linkReset, State.resetPort]
    simp only [Opcode.rule, hrx, hstate]
    exact ⟨List.length_take_le' _ _, hon⟩
  case streamStart => exact hviews (streamStart_views s f level hon)
  all_goals exact hviews (by simp [Opcode.rule])

theorem takeFrame_keeps (o : Opcode) (f : Frame) (hon : s.power.state ≠ .off) :
    (s.takeFrame o f o.rule).port.rx.length ≤ s.port.rx.length ∧ (s.takeFrame o f o.rule).power.state ≠ .off := by
  unfold State.takeFrame
  split
  · simpa [State.refuse, State.reply] using hon
  · exact rule_keeps o f _ hon

theorem on_of_placesFree {b : Bool} (h : s.placesFree b = true) : s.power.state ≠ .off := by
  rintro hoff
  simp [State.placesFree, hoff] at h

/-- A command is taken outside OFF alone (R173). -/
theorem portInv_takeHead (hs : s.PortInv) (o : Opcode) : (s.takeHead o o.rule).PortInv := by
  unfold State.takeHead
  split
  next f _ =>
    split
    next h =>
      obtain ⟨-, hroom, -⟩ := hs
      obtain ⟨hlen, hon⟩ := takeFrame_keeps o f (on_of_placesFree h.2)
      exact portInv_holdIdle (portInv_freeHead (hlen.trans hroom) hon)
    next => exact hs
  next => exact hs

theorem portInv_takeUnknown (hs : s.PortInv) : s.takeUnknown.PortInv := by
  unfold State.takeUnknown
  split
  next f _ =>
    split
    next h =>
      obtain ⟨-, hroom, -⟩ := hs
      exact portInv_holdIdle (portInv_freeHead hroom (on_of_placesFree (s := s) h.2))
    next => exact hs
  next => exact hs

theorem portInv_sendFrame (hs : s.PortInv) : s.sendFrame.PortInv := by
  have hsent : s.sent.PortInv := portInv_of_views (by simp) (by simp) hs
  unfold State.sendFrame State.takeAny
  repeat' split
  · exact portInv_takeHead hsent _
  · exact portInv_takeUnknown hsent
  · exact hsent
  · exact hsent

/-- The wake ends outside OFF, since it is in progress. -/
theorem portInv_wakeEnd (hs : s.PortInv) : s.wakeEnd.PortInv := by
  unfold State.wakeEnd
  split
  next h =>
    have hon := on_of_procedure hs (by rw [h]; nofun)
    exact portInv_arbitrate (portInv_of_views (by simp) (endWake_offView s hon) hs)
  next => exact hs

/-! ### The rows, and every step -/

theorem portInv_command (hs : s.PortInv) (o : Opcode) : (s.command o o.rule).PortInv := portInv_takeHead (portInv_settle hs) o

theorem portInv_of_reset (hon : s.power.state ≠ .off) (hport : s.port = FramePort.reset) : s.PortInv := by
  simp [State.PortInv, hport, FramePort.reset, State.holdWanted, hon]

/-- Every row keeps the invariant. -/
theorem exec_portInv (hs : s.PortInv) (c : Instr) : ∃ t, exec c s = .next t ∧ t.PortInv := by
  have hset := portInv_settle hs
  have hviews {t : State} (h : t.port.inbound = s.settle.port.inbound ∧ t.power.offView = s.settle.power.offView) : t.holdIdle.PortInv :=
    portInv_holdIdle (portInv_of_views h.1 h.2 hset)
  cases c
  case powerOn n => exact ⟨_, rfl, portInv_of_reset (fun h => nomatch h) rfl⟩
  case rstLine =>
    refine ⟨_, rfl, ?_⟩
    rw [rst_eq]
    exact portInv_of_reset (fun h => nomatch h) rfl
  case frameArrival bytes => exact ⟨_, rfl, portInv_holdIdle (portInv_arrive hset bytes)⟩
  case sampleFrame => exact ⟨_, rfl, portInv_holdIdle (portInv_takeSample hset)⟩
  case unknownOpcode => exact ⟨_, rfl, portInv_takeUnknown hset⟩
  case frameSent => exact ⟨_, rfl, portInv_holdIdle (portInv_sendFrame hset)⟩
  case wakeWaitEnd => exact ⟨_, rfl, portInv_holdIdle (portInv_wakeEnd hset)⟩
  case status | linkReset | noticeMaskSet | noticeMaskClear | clockRead | clockSet | streamLoad | streamStart | streamPause | streamStop |
    streamClear | streamRead | surveyOpen | surveyClose | surveyThresholds | surveyLock | surveyErase | surveyList | readRecords |
    dropsRead | gaugeRead | setLevels | setShock | setGauge | doze | format =>
    exact ⟨_, rfl, portInv_command hs _⟩
  case shockTrigger | gaugeTrigger | retire | idleTimerExpiry | reportAlarm | bufferGrant | stopComplete | surveyClosedEntryRequest |
    dozeEntryComplete | shutdownPowerDownRequest | pwrKeepRelease => exact ⟨_, rfl, portInv_makeFor hs _ 256⟩
  all_goals exact ⟨_, rfl, hviews (by simp)⟩

theorem portInv_idle (hs : s.PortInv) : s.idle.PortInv := by
  unfold State.idle
  split
  next d hd => exact portInv_makeDue hs hd
  next => exact portInv_of_views (by simp) (by simp) hs

end

/-- Settles O4: every row keeps the invariant, and so does the step on an empty queue. -/
theorem stepKeepsPort : Obligations.StepKeepsPort := by
  unfold Obligations.StepKeepsPort
  intro s t hstep hs
  unfold step at hstep
  split at hstep
  · cases hstep
    exact portInv_idle hs
  · rename_i c rest _
    obtain ⟨u, hu, hinv⟩ := exec_portInv (s := { s with pending := rest }) (portInv_of_views rfl rfl hs) c
    cases hu.symm.trans hstep
    exact hinv

end Sys2Proof.Machine
end

