-- ==== Sys2Proof/Proofs/CommandQueue.lean ====
section
/-! PROOFS. The queue of commands: `step` alone takes from it, and every row leaves it as it finds it (the scope of the block). -/

open Sys2Proof Sys2Proof.Machine

namespace Sys2Proof.Machine

/-! ### Control commands and the frame sent (R181, R183, R185) -/

/-- No command's own rule touches the queue. -/
@[simp] theorem rule_pending (o : Opcode) (s : State) (f : Frame) (level : Nat) : (o.rule s f level).pending = s.pending := by
  cases o <;> simp [Opcode.rule]

/-- Refused by R185 or handed to its rule, a frame that is taken leaves the queue. -/
@[simp] theorem takeFrame_pending (s : State) (o : Opcode) (f : Frame) : (s.takeFrame o f o.rule).pending = s.pending := by
  unfold State.takeFrame
  split <;> simp

@[simp] theorem takeHead_pending (s : State) (o : Opcode) : (s.takeHead o o.rule).pending = s.pending := by
  unfold State.takeHead
  repeat' split
  all_goals simp

theorem command_pending (s : State) (o : Opcode) : (s.command o o.rule).pending = s.pending := by
  unfold State.command
  simp

@[simp] theorem takeAny_pending (s : State) : s.takeAny.pending = s.pending := by
  unfold State.takeAny
  repeat' split
  all_goals simp

@[simp] theorem sendFrame_pending (s : State) : s.sendFrame.pending = s.pending := by
  unfold State.sendFrame
  split <;> simp

/-! ### Power-on and the RST line (R174) -/

/-- Power-on puts every block at its reset value, but the queue is no block's. -/
@[simp] theorem powerOn_pending (s : State) (n : Nat) : (s.powerOn n).pending = s.pending := by
  simp [State.powerOn]

@[simp] theorem rst_pending (s : State) : s.rst.pending = s.pending := by
  simp [State.rst]

/-! ### The rows -/

/-- Every row ends in a next state, with the queue as the row found it: the events after every due step is made, the control commands
by the rules that they share, the due steps by `makeIfDue`. -/
theorem exec_pending (c : Instr) (s : State) : ∃ t, exec c s = .next t ∧ t.pending = s.pending := by
  cases c
  case status | linkReset | noticeMaskSet | noticeMaskClear | clockRead | clockSet | streamLoad | streamStart | streamPause |
    streamStop | streamClear | streamRead | surveyOpen | surveyClose | surveyThresholds | surveyLock | surveyErase | surveyList |
    readRecords | dropsRead | gaugeRead | setLevels | setShock | setGauge | doze | format =>
    exact ⟨_, rfl, command_pending s _⟩
  case shockTrigger | gaugeTrigger | retire | idleTimerExpiry | reportAlarm | bufferGrant | stopComplete | surveyClosedEntryRequest |
    dozeEntryComplete | shutdownPowerDownRequest | pwrKeepRelease =>
    obtain ⟨-, -, -, -, hpending⟩ := makeIfDue_frame s _
    exact ⟨_, rfl, hpending⟩
  all_goals exact ⟨_, rfl, by simp⟩

/-- Settles O2: the one state a row ends in has the queue that the row found. -/
theorem execKeepsQueue : Obligations.ExecKeepsQueue := by
  unfold Obligations.ExecKeepsQueue
  intro c s t hexec
  obtain ⟨u, hu, hpending⟩ := exec_pending c s
  cases hu.symm.trans hexec
  exact hpending

end Sys2Proof.Machine
end
